-- ==== Sys2Proof/Word.lean ====
section
/-! DEFINITION. The word type of the block: the byte of its two kinds of wire. -/

namespace Sys2Proof

/-- One byte of a control port frame (section 10.1) or of a field line frame (section 6.2). -/
abbrev Byte := BitVec 8

end Sys2Proof
end

