-- ==== Sys2Proof/Syntax.lean ====
section
/-! DEFINITION. The commands and events of the block: one constructor of `Instr` per row of spec/opcode_table.json. -/

namespace Sys2Proof

/-- The three control ports (chapter 10). -/
inductive Port where
  | a | b | c
  deriving DecidableEq, Repr

/-- The two field lines (chapter 6). -/
inductive LineId where
  | one | two
  deriving DecidableEq, Repr

/-- The levels of one port's strap pins, `true` for high (section 3.1). -/
structure StrapPair where
  strap1 : Bool
  strap0 : Bool
  deriving DecidableEq, Repr

/-- The levels of the six strap pins, sampled at a power-on and at a pin reset (R41). -/
structure Straps where
  a : StrapPair
  b : StrapPair
  c : StrapPair
  deriving DecidableEq, Repr

/-- What the part is commanded, and what happens to it: a good command frame on a control port (its port, its SEQ and
its payload bytes, the CMD being the constructor), another transaction on a port, an event of the reset and supply
pins, the running out of a timer, or an event on a field line. Field line frames are given as the bytes read in the
line's current sense, from SYNC on. -/
inductive Instr where
  /-- POWER_ON_RESET with the strap levels it samples (R161, R41). -/
  | powerOnReset (straps : Straps)
  /-- PIN_RESET: RESET_N has been low for `lowMicros` microseconds; the strap levels it samples (R161, R41). -/
  | pinReset (straps : Straps) (lowMicros : Nat)
  /-- PORTS_READY: the end of the 20 ms after reset release (R162). -/
  | portsReady
  /-- VOID_TRANSACTION: the bytes clocked between the fall and the rise of chip select, the first of them no kind byte
  (R170). -/
  | voidTransaction (p : Port) (sdi : List Byte)
  /-- READ_TRANSACTION: `clocked` bytes were clocked after the kind byte before chip select rose (R174). -/
  | readTransaction (p : Port) (clocked : Nat)
  /-- BAD_FRAME: the bytes of the write transaction after its kind byte (R171). -/
  | badFrame (p : Port) (frame : List Byte)
  /-- OVERRUN: a good frame taken while the port is EXECUTING (R173). -/
  | overrun (p : Port)
  /-- UNKNOWN_COMMAND: a good frame whose CMD names no command (R177). -/
  | unknownCommand (p : Port) (code : Byte) (seq : Byte) (payload : List Byte)
  | status (p : Port) (seq : Byte) (payload : List Byte)
  | keepalive (p : Port) (seq : Byte) (payload : List Byte)
  | readPlan (p : Port) (seq : Byte) (payload : List Byte)
  | readEntries (p : Port) (seq : Byte) (payload : List Byte)
  | readUnits (p : Port) (seq : Byte) (payload : List Byte)
  | readStations (p : Port) (seq : Byte) (payload : List Byte)
  | readDelivery (p : Port) (seq : Byte) (payload : List Byte)
  | notices (p : Port) (seq : Byte) (payload : List Byte)
  | setNoticeMask (p : Port) (seq : Byte) (payload : List Byte)
  | counters (p : Port) (seq : Byte) (payload : List Byte)
  | request (p : Port) (seq : Byte) (payload : List Byte)
  /-- WITHDRAW with a tag, and every WITHDRAW whose LEN is not 0 (R29, R175). -/
  | withdraw (p : Port) (seq : Byte) (payload : List Byte)
  /-- WITHDRAW with LEN 0, which stands for ALL (R30, R175). -/
  | withdrawAll (p : Port) (seq : Byte)
  | release (p : Port) (seq : Byte) (payload : List Byte)
  | inhibitQp (p : Port) (seq : Byte) (payload : List Byte)
  | geometryWrite (p : Port) (seq : Byte) (payload : List Byte)
  | stationWrite (p : Port) (seq : Byte) (payload : List Byte)
  | boundaryWrite (p : Port) (seq : Byte) (payload : List Byte)
  | commit (p : Port) (seq : Byte) (payload : List Byte)
  /-- COMMIT_VALIDATION_END: the validation of the COMMIT being executed is complete (R9, R10). -/
  | commitValidationEnd
  | paramSet (p : Port) (seq : Byte) (payload : List Byte)
  /-- SET_MODE whose payload is not the one byte of SHADOW: LIVE, and every malformed SET_MODE (R164, R175). -/
  | setModeLive (p : Port) (seq : Byte) (payload : List Byte)
  /-- SET_MODE whose payload is the one byte of SHADOW (R164, R166). -/
  | setModeShadow (p : Port) (seq : Byte) (payload : List Byte)
  | restart (p : Port) (seq : Byte) (payload : List Byte)
  /-- PORT_SILENT: the keepalive deadline of the port runs out (R46). -/
  | portSilent (p : Port)
  /-- ENTRY_EXPIRY: the expiry deadline of the entry in this slot runs out (R31). -/
  | entryExpiry (slot : Nat)
  /-- HOLD_DEADLINE_EXPIRY: hold deadlines of the current plan run out at this moment (R62). -/
  | holdDeadlineExpiry
  | passStart
  | passEnd
  /-- FAULT_HOLD_EXPIRY of a station (R99). -/
  | faultHoldExpiry (station : Nat)
  /-- INHIBIT_EXPIRY of a station (R106). -/
  | inhibitExpiry (station : Nat)
  /-- LINE_QUIET: IDLE_GUARD has passed with no activity; the bytes of a frame being received then (R108). -/
  | lineQuiet (l : LineId) (partialFrame : List Byte)
  | frameStart (l : LineId)
  | frameSent (l : LineId)
  | validReply (l : LineId) (frame : List Byte)
  | replyFrameError (l : LineId) (frame : List Byte)
  | invertedReply (l : LineId)
  /-- FALSE_ACTIVITY: the bytes of the burst, or of the wrongly addressed frame (R115). -/
  | falseActivity (l : LineId) (frame : List Byte)
  | replyWindowEnd (l : LineId)
  | lineJam (l : LineId)
  | jamContinues (l : LineId)
  | lineUnjam (l : LineId)
  | pollCycleStart (l : LineId)
  /-- RESET_RELEASE: RESET_N rises after a pin reset, or the supply has risen with RESET_N high (R161). -/
  | resetRelease
  /-- LINE_ACTIVITY: a transition on the line's receive signal (R108, R119). -/
  | lineActivity (l : LineId)
  deriving DecidableEq, Repr

end Sys2Proof
end

