-- ==== Sys2Proof/Decode.lean ====
section
/-! DEFINITION. The bytes on the wires: byte order, the frame check of R172, and which row of the opcode table a
control port transaction is (R170 to R173, R175). No row of the table gives bits, so no word spells a command. -/

namespace Sys2Proof

/-! ## Byte order (R169) -/

/-- One byte of a number, modulo 256. -/
def byte (n : Nat) : Byte := BitVec.ofNat 8 n

/-- Two bytes, high byte first. -/
def be16 (n : Nat) : List Byte := [byte (n / 256), byte n]

/-- Four bytes, high byte first. -/
def be32 (n : Nat) : List Byte := be16 (n / 65536) ++ be16 n

/-- The number a list of bytes spells, high byte first. -/
def ofBytes (bs : List Byte) : Nat := bs.foldl (fun acc b => acc * 256 + b.toNat) 0

/-- A signed byte in two's complement (R175, the trims of a station record). -/
def signedByte (b : Byte) : Int := if b.toNat < 128 then b.toNat else (b.toNat : Int) - 256

/-! ## The frame check (R172) -/

/-- One shift of the register: the generator is x^16 + x^12 + x^5 + 1. -/
def crcShift (r : BitVec 16) : BitVec 16 :=
  if r.msb then (r <<< 1) ^^^ 0x1021#16 else r <<< 1

/-- One byte taken into the register, most significant bit first. -/
def crcByte (r : BitVec 16) (b : Byte) : BitVec 16 :=
  let x := r ^^^ (b.zeroExtend 16 <<< 8)
  crcShift (crcShift (crcShift (crcShift (crcShift (crcShift (crcShift (crcShift x)))))))

/-- The frame check of R172, from a register of FFFF. -/
def crc (bs : List Byte) : BitVec 16 := bs.foldl crcByte 0xFFFF#16

/-- The two check bytes of a frame, high byte first. -/
def crcBytes (bs : List Byte) : List Byte := be16 (crc bs).toNat

/-! ## Control port frames (section 10.1) -/

/-- The longest payload of a control port frame. -/
def maxPayload : Nat := 240

/-- The kind byte of a write transaction. -/
def writeKind : Byte := 0x3C
/-- The kind byte of a read transaction. -/
def readKind : Byte := 0xC3

/-- A good command frame's CMD, SEQ and payload (R171): the bytes after the kind byte of a write, where LEN is at most
240, the whole frame has arrived and its check is good. Bytes after the frame's end are ignored (R170). -/
def goodFrame (frame : List Byte) : Option (Byte × Byte × List Byte) :=
  match frame with
  | len :: cmd :: seq :: rest =>
    let n := len.toNat
    if n ≤ maxPayload ∧ n + 2 ≤ rest.length ∧
        crcBytes (len :: cmd :: seq :: rest.take n) = (rest.drop n).take 2
    then some (cmd, seq, rest.take n)
    else none
  | _ => none

/-- The SEQ byte a REJECT echoes (R171): the frame's SEQ byte if it arrived, and 00 otherwise. A LEN above 240 makes
the frame bad at once and the rest is ignored, so no SEQ arrives then (log entry 9). -/
def rejectSeq (frame : List Byte) : Byte :=
  match frame with
  | len :: _ :: seq :: _ => if len.toNat ≤ maxPayload then seq else 0
  | _ => 0

/-- The command codes of section 10.3. -/
def knownCodes : List Byte :=
  [0x01, 0x02, 0x03, 0x04, 0x05, 0x06, 0x07, 0x08, 0x09, 0x0A, 0x10, 0x11, 0x12, 0x13, 0x20, 0x21, 0x22, 0x23, 0x24,
   0x25, 0x26]

/-- The row of a good frame taken while the port is IDLE (section 10.3, R177). -/
def commandOf (p : Port) (code seq : Byte) (payload : List Byte) : Instr :=
  match code.toNat with
  | 0x01 => .status p seq payload
  | 0x02 => .keepalive p seq payload
  | 0x03 => .readPlan p seq payload
  | 0x04 => .readEntries p seq payload
  | 0x05 => .readUnits p seq payload
  | 0x06 => .readStations p seq payload
  | 0x07 => .readDelivery p seq payload
  | 0x08 => .notices p seq payload
  | 0x09 => .setNoticeMask p seq payload
  | 0x0A => .counters p seq payload
  | 0x10 => .request p seq payload
  | 0x11 => if payload = [] then .withdrawAll p seq else .withdraw p seq payload
  | 0x12 => .release p seq payload
  | 0x13 => .inhibitQp p seq payload
  | 0x20 => .geometryWrite p seq payload
  | 0x21 => .stationWrite p seq payload
  | 0x22 => .boundaryWrite p seq payload
  | 0x23 => .commit p seq payload
  | 0x24 => .paramSet p seq payload
  | 0x25 => if payload = [1] then .setModeShadow p seq payload else .setModeLive p seq payload
  | 0x26 => .restart p seq payload
  | _ => .unknownCommand p code seq payload

/-- The row that a transaction on a port is, from the bytes on SDI between the fall and the rise of chip select and
whether the port is EXECUTING (R170, R171, R173); none when no byte was received. -/
def transactionRow (p : Port) (executing : Bool) (sdi : List Byte) : Option Instr :=
  match sdi with
  | [] => none
  | kind :: rest =>
    if kind = readKind then some (.readTransaction p rest.length)
    else if kind = writeKind then
      match goodFrame rest with
      | some (code, seq, payload) => if executing then some (.overrun p) else some (commandOf p code seq payload)
      | none => some (.badFrame p rest)
    else some (.voidTransaction p sdi)

/-- The command that a word of the opcode table spells: no row of spec/opcode_table.json gives bits, so none. -/
def decodeTableWord (_nbits _w : Nat) : Option Instr := none

end Sys2Proof
end

