-- ==== Sys2Proof/Config.lean ====
section
/-! DEFINITION. The fixed values of section 1.7 that no command can set, and the free values of the model. -/

namespace Sys2Proof.Config

/-- DISPLACE_MAX, the gantries through which one merge duty may be displaced (R68). -/
def displaceMax : Nat := 2
/-- MISS_LIMIT, misses in a row that lose a unit (R129), and poll cycles of jam that do (R118). -/
def missLimit : Nat := 3
/-- PROBE_GOOD, good replies that bring a PROBING unit to UP (R128). -/
def probeGood : Nat := 4
/-- LOST units are polled in every 4th poll cycle, the cycles numbered 0 (R122). -/
def cycleCount : Nat := 4
/-- JAM_LIMIT in ms (R117). -/
def jamLimit : Nat := 50
/-- UNJAM_TIME in ms (R119). -/
def unjamTime : Nat := 500
/-- The inverted replies in a row that flip a line (R116). -/
def polarityStreak : Nat := 3
/-- STOP_COUNT, samples that move a station between QUEUE and STOPPED (R96). -/
def stopCount : Nat := 2
/-- The shortest valid sample interval in ms (R85). -/
def sampleMin : Nat := 100
/-- The longest valid sample interval in ms (R85). -/
def sampleMax : Nat := 10000
/-- The saturation of a station's three counts (section 5.1). -/
def countMax : Nat := 60
/-- The time from the release of a reset to the readiness of the ports, in ms (R162). -/
def settleTime : Nat := 20
/-- The least length in microseconds of a low level on RESET_N that resets the part (R161). -/
def resetPulseMicros : Nat := 1000
/-- The longest inhibit of a station, in seconds (R105). -/
def inhibitMax : Nat := 3600
/-- The most entries of one port (R17, R20). -/
def quota : Nat := 32
/-- The slots of the port pool (R17). -/
def poolSlots : Nat := 48
/-- The site index of EXIT. -/
def exitIndex : Nat := 32
/-- The largest value of a 16-bit saturating counter. -/
def counterMax : Nat := 65535

/-- FREE VALUE (log entry 4). The epoch and the abandoned count that a reply carries for a last completion of
"none" are not stated by R176: the four bytes are this constant applied to the count of free values drawn so far. -/
opaque noCompletion : Nat → BitVec 32

/-- FREE VALUE (log entry 5). Which of several timer events that are due at one reading of the time base is taken
first is left open by the spec: the choice is this constant applied to the count of free values drawn so far. -/
opaque tieBreak : Nat → Nat

end Sys2Proof.Config
end

