-- ==== Sys2Proof/Machine/Params.lean ====
section
/-! DEFINITION. The parameter set: the 27 identities of section 1.7, their identity bytes (R175), kinds, ranges and
defaults, the clamping of R13 and the cross-parameter constraints of R15. -/

namespace Sys2Proof.Machine

/-- The 27 parameter identities of section 1.7. -/
inductive ParamId where
  | step | ceiling | mergeSpeed | closureSpeed | hsSpeed | fullApproach
  | minDwell | relaxHold | legendDwell
  | keepWindowA | keepWindowB | keepWindowC
  | pollCycle1 | pollCycle2 | replyWindow
  | alertOn | alertOff | onCount | offCount | stopOcc | smoothK
  | qpLimit | qpStopLimit | qpCover | qpMinHold | qpFaultHold | stuckTime
  deriving DecidableEq, Repr

/-- The kinds of section 1.7 that clamping tells apart (R13): limits and limit steps are multiples of 10. -/
inductive ParamKind where
  | limit | plain
  deriving DecidableEq, Repr

/-- One row of the parameter table of section 1.7. -/
structure ParamRow where
  kind : ParamKind
  low : Nat
  high : Nat
  initial : Nat
  deriving DecidableEq, Repr

/-- The parameter table of section 1.7. -/
def ParamId.row : ParamId → ParamRow
  | .step => ⟨.limit, 10, 30, 20⟩
  | .ceiling => ⟨.limit, 60, 120, 120⟩
  | .mergeSpeed => ⟨.limit, 20, 120, 60⟩
  | .closureSpeed => ⟨.limit, 20, 120, 60⟩
  | .hsSpeed => ⟨.limit, 20, 120, 80⟩
  | .fullApproach => ⟨.limit, 20, 120, 40⟩
  | .minDwell => ⟨.plain, 30, 600, 60⟩
  | .relaxHold => ⟨.plain, 10, 600, 30⟩
  | .legendDwell => ⟨.plain, 10, 600, 60⟩
  | .keepWindowA => ⟨.plain, 2, 60, 10⟩
  | .keepWindowB => ⟨.plain, 2, 60, 10⟩
  | .keepWindowC => ⟨.plain, 2, 60, 10⟩
  | .pollCycle1 => ⟨.plain, 250, 2000, 500⟩
  | .pollCycle2 => ⟨.plain, 250, 2000, 500⟩
  | .replyWindow => ⟨.plain, 2, 20, 5⟩
  | .alertOn => ⟨.plain, 20, 80, 35⟩
  | .alertOff => ⟨.plain, 30, 100, 55⟩
  | .onCount => ⟨.plain, 1, 10, 3⟩
  | .offCount => ⟨.plain, 1, 60, 10⟩
  | .stopOcc => ⟨.plain, 500, 1000, 850⟩
  | .smoothK => ⟨.plain, 1, 4, 2⟩
  | .qpLimit => ⟨.limit, 20, 120, 60⟩
  | .qpStopLimit => ⟨.limit, 20, 120, 40⟩
  | .qpCover => ⟨.plain, 300, 3000, 1500⟩
  | .qpMinHold => ⟨.plain, 0, 600, 60⟩
  | .qpFaultHold => ⟨.plain, 0, 600, 120⟩
  | .stuckTime => ⟨.plain, 60, 900, 300⟩

/-- The identities in the order of their identity bytes 00 to 1A (R175). -/
def ParamId.all : List ParamId :=
  [.step, .ceiling, .mergeSpeed, .closureSpeed, .hsSpeed, .fullApproach, .minDwell, .relaxHold, .legendDwell,
   .keepWindowA, .keepWindowB, .keepWindowC, .pollCycle1, .pollCycle2, .replyWindow, .alertOn, .alertOff, .onCount,
   .offCount, .stopOcc, .smoothK, .qpLimit, .qpStopLimit, .qpCover, .qpMinHold, .qpFaultHold, .stuckTime]

/-- The identity byte of a parameter (R175). -/
def ParamId.code (i : ParamId) : Nat := ParamId.all.idxOf i

/-- The parameter an identity byte names; none for a byte above 1A (R175, R12). -/
def ParamId.ofCode (n : Nat) : Option ParamId := ParamId.all[n]?

/-- The parameter set: the value of each identity, in the order of the identity bytes. -/
abbrev Params := List Nat

/-- The current value of a parameter. -/
def paramValue (ps : Params) (i : ParamId) : Nat := ps.getD i.code i.row.initial

/-- The set with one value replaced. -/
def setParam (ps : Params) (i : ParamId) (v : Nat) : Params := ps.set i.code v

/-- Every parameter at the default of section 1.7 (R1). -/
def defaultParams : Params := ParamId.all.map fun i => i.row.initial

/-- R13: a limit is first rounded down to a multiple of 10; every value is then brought into its range. -/
def clampParam (i : ParamId) (v : Nat) : Nat :=
  let rounded := match i.row.kind with
    | .limit => v / 10 * 10
    | .plain => v
  max i.row.low (min i.row.high rounded)

/-- One constraint of R15: the identity it reports, and whether a set meets it. -/
structure Constraint where
  reported : ParamId
  lesser : ParamId
  greater : ParamId
  margin : Nat
  deriving DecidableEq, Repr

/-- R15's constraint: the greater parameter is at least the lesser plus the margin. -/
def Constraint.holds (c : Constraint) (ps : Params) : Bool :=
  decide (paramValue ps c.lesser + c.margin ≤ paramValue ps c.greater)

/-- The seven constraints of R15, in their order. -/
def constraints : List Constraint :=
  [⟨.alertOff, .alertOn, .alertOff, 10⟩,
   ⟨.qpStopLimit, .qpStopLimit, .qpLimit, 0⟩,
   ⟨.fullApproach, .fullApproach, .closureSpeed, 0⟩,
   ⟨.ceiling, .mergeSpeed, .ceiling, 0⟩,
   ⟨.ceiling, .closureSpeed, .ceiling, 0⟩,
   ⟨.ceiling, .hsSpeed, .ceiling, 0⟩,
   ⟨.ceiling, .qpLimit, .ceiling, 0⟩]

/-- The identity reported by the first constraint of R15 that a set breaks, if any. -/
def brokenConstraint (ps : Params) : Option ParamId :=
  (constraints.find? fun c => !c.holds ps).map (·.reported)

end Sys2Proof.Machine
end

