-- ==== Sys2Proof/Machine/Types.lean ====
section
/-! DEFINITION. The records the ten blocks hold, as plain data. Enumerations list their values in the order of the
table that defines the field, since R169 codes a named value as its position there. -/

namespace Sys2Proof.Machine

/-! ## Shared values -/

/-- One value for each control port. -/
structure PerPort (α : Type) where
  a : α
  b : α
  c : α
  deriving DecidableEq, Repr

/-- One value for each field line. -/
structure PerLine (α : Type) where
  one : α
  two : α
  deriving DecidableEq, Repr

/-- A limit in km/h; `none` is NONE, no limit shown (00_scope, Speeds and limits). -/
abbrev Limit := Option Nat

/-- What a lane element shows. BLANK is a lane code of the signs (section 6.2) and of the dark image (R143) alone: no
plan lane holds it. -/
inductive Aspect where
  | blank | opened | mergeNear | mergeOff | closed
  deriving DecidableEq, Repr

/-- The eight legends in the order of their ranks 0 to 7. -/
inductive Legend where
  | blank | fog | slowDown | congestion | queueAhead | laneClosedAhead | incidentAhead | carriagewayClosed
  deriving DecidableEq, Repr

/-- The elements of a site (R54): its limit, its lanes by position, its legend. In the unit table `limit` names the
speed element of a VERGE and `legend` the message element (R133). -/
inductive ElemId where
  | limit
  | lane (position : Nat)
  | legend
  deriving DecidableEq, Repr

/-- The value of one element in an image of the delivery controller. -/
inductive ElemVal where
  | limit (l : Limit)
  | lane (a : Aspect)
  | legend (g : Legend)
  deriving DecidableEq, Repr

/-- An image of a site's sign: the elements it gives a value, each with its value. -/
abbrev Image := List (ElemId × ElemVal)

/-! ## Mode control (chapter 9) -/

/-- The operating modes of section 9.1. -/
inductive Mode where
  | unconfigured | shadow | live | darkening
  deriving DecidableEq, Repr

/-- The reset causes of section 9.1. -/
inductive ResetCause where
  | power | pin | restart
  deriving DecidableEq, Repr

/-- Where the part stands after a reset: held in it, in the 20 ms after its release, or with its ports ready (R162). -/
inductive ResetPhase where
  | held
  | settling (readyAt : Nat)
  | ready
  deriving DecidableEq, Repr

/-! ## Configuration store (chapter 1) -/

/-- The kind of a site with the fields its kind alone has (section 1.2). -/
inductive SiteKind where
  | gantry (running : Nat) (shoulder : Bool)
  | verge
  | message
  deriving DecidableEq, Repr

/-- A site record (section 1.2). -/
structure SiteRecord where
  kind : SiteKind
  sign : Bool
  gap : Nat
  line : LineId
  address : Nat
  deriving DecidableEq, Repr

/-- The loop kinds of section 1.3. -/
inductive LoopKind where
  | single | double
  deriving DecidableEq, Repr

/-- A station record (section 1.3), its effective length and trims already at their defaults where absent (R3). -/
structure StationRecord where
  site : Nat
  offset : Nat
  line : LineId
  address : Nat
  loop : LoopKind
  lanes : List Nat
  effective : Nat
  trims : List Int
  deriving DecidableEq, Repr

/-- The boundary record (section 1.4). -/
structure Boundary where
  running : Nat
  shoulder : Bool
  deriving DecidableEq, Repr

/-- What owns a unit: a site's sign, or a station's outstation (section 7.1). -/
inductive UnitOwner where
  | sign (site : Nat)
  | outstation (station : Nat)
  deriving DecidableEq, Repr

/-- One unit of the unit list (R10). -/
structure UnitDesc where
  owner : UnitOwner
  line : LineId
  address : Nat
  deriving DecidableEq, Repr

/-- The derived geometry (R10): N, the positions of sites 0 to N-1 and then of EXIT, the position of each used
station, and the unit list. -/
structure Geometry where
  n : Nat
  positions : List Nat
  stationPositions : List (Nat × Nat)
  units : List UnitDesc
  deriving DecidableEq, Repr

/-- The commit states of section 1.1, OPEN first. -/
inductive CommitState where
  | openState | validating | locked
  deriving DecidableEq, Repr

/-- The configuration store (section 1.1). -/
structure Store where
  /-- 32 site slots. -/
  sites : List (Option SiteRecord)
  /-- 16 station slots. -/
  stations : List (Option StationRecord)
  boundary : Option Boundary
  params : Params
  commit : CommitState
  cursors : PerPort Nat
  geometry : Option Geometry
  deriving DecidableEq, Repr

/-! ## Request table (chapter 2) -/

/-- The requesters of section 2.1, in its order. -/
inductive Requester where
  | port (p : Port)
  | qp
  deriving DecidableEq, Repr

/-- The lapse policies, HOLD first (section 2.1). -/
inductive LapsePolicy where
  | hold | drop
  deriving DecidableEq, Repr

/-- The states of an entry, ACTIVE first (section 2.1). -/
inductive EntryState where
  | active | frozen
  deriving DecidableEq, Repr

/-- What an entry asks: its range, its four optional parts and its lapse policy (section 2.1). A closure part is the
ascending list of its lane positions. -/
structure Ask where
  first : Nat
  last : Nat
  limit : Option Nat
  closure : Option (List Nat)
  legend : Option Legend
  shoulderOpen : Bool
  policy : LapsePolicy
  deriving DecidableEq, Repr

/-- An entry of the request table (section 2.1). `expiry` is the deadline on the time base. -/
structure Entry where
  slot : Nat
  requester : Requester
  tag : Nat
  ask : Ask
  expiry : Option Nat
  arrival : Nat
  state : EntryState
  deriving DecidableEq, Repr

/-- The demand at one site (section 2.6): LD, CD as the ascending list of its lanes, SO, legend demand and source. -/
structure Demand where
  limit : Option Nat
  closed : List Nat
  opening : Bool
  legend : Option Legend
  source : Option (Requester × Nat)
  deriving DecidableEq, Repr

/-- The request table: its entries in arrival order, oldest first; the arrival sequence counter; and the demand
summary, one record for each site 0 to N-1 and then one for EXIT (section 2.1). -/
structure Table where
  entries : List Entry
  nextArrival : Nat
  demand : List Demand
  deriving DecidableEq, Repr

/-! ## Control ports (chapters 3 and 10) -/

/-- The authorities in the order of section 3.1. -/
inductive Authority where
  | disabled | monitor | field | supervisory
  deriving DecidableEq, Repr

/-- The liveness states of section 3.2, ACTIVE first. -/
inductive Liveness where
  | active | silent
  deriving DecidableEq, Repr

/-- The eight notices in the order of their bits (R175). -/
inductive Notice where
  | plan | delivered | unit | queue | entry | port | mode | reset
  deriving DecidableEq, Repr

/-- The reason codes in the order of R177's table. -/
inductive Reason where
  | ok | clamped | badFrame | unknownCommand | notPermitted | wrongMode | badRange | invalid | tableFull | quota
  | notFound | constraint | planNotQuiet
  deriving DecidableEq, Repr

/-- A command in a port's command slot: its CMD and SEQ bytes (section 10.2). -/
structure Command where
  code : Byte
  seq : Byte
  deriving DecidableEq, Repr

/-- A reply waiting in a port's reply slot (section 10.1). -/
structure Reply where
  cmd : Byte
  seq : Byte
  reason : Reason
  payload : List Byte
  deriving DecidableEq, Repr

/-- A control port with its liveness record (sections 3.2, 10.2, 10.4, 10.5). -/
structure PortRec where
  authority : Authority
  liveness : Liveness
  deadline : Option Nat
  silences : Nat
  command : Option Command
  reply : Option Reply
  flags : BitVec 8
  mask : BitVec 8
  overrun : Bool
  frameErrors : Nat
  overruns : Nat
  commands : Nat
  /-- The bytes on SDO in the last read or void transaction, from its first byte on (section 10.1, R170). -/
  shifted : List Byte
  deriving DecidableEq, Repr

/-! ## Plan evaluator (chapter 4) -/

/-- A limit or legend element of the plan: a value, or UNAVAILABLE. -/
inductive Shown (α : Type) where
  | unavailable
  | value (v : α)
  deriving DecidableEq, Repr

/-- A lane element's value: an aspect, or UNAVAILABLE with its underlying closure state (R54). -/
inductive LaneValue where
  | unavailable (closed : Bool)
  | shows (a : Aspect)
  deriving DecidableEq, Repr

/-- A limit or legend element with its hold deadline and relaxation-held report (section 4.1). -/
structure PlanElem (α : Type) where
  value : Shown α
  deadline : Option Nat
  held : Bool
  deriving DecidableEq, Repr

/-- A lane element with its hold deadline, relaxation-held report and marks (section 4.1). -/
structure LaneElem where
  value : LaneValue
  deadline : Option Nat
  held : Bool
  displaced : Bool
  unprotected : Bool
  deriving DecidableEq, Repr

/-- The plan record of one site or of EXIT: the elements its kind calls for, lanes by ascending position (R54). -/
structure PlanSite where
  limit : Option (PlanElem Limit)
  lanes : List (Nat × LaneElem)
  legend : Option (PlanElem Legend)
  deriving DecidableEq, Repr

/-- A running pass: the inputs it took at its start (R59), and whether an adoption or a return of the plan to its
reset form has overtaken it (R61). -/
structure Pass where
  demand : List Demand
  available : List (List ElemId)
  params : Params
  plan : List PlanSite
  time : Nat
  overtaken : Bool
  deriving DecidableEq, Repr

/-- The plan evaluator (section 4.1): the plan records of sites 0 to N-1 and then of EXIT, the epoch number, the pass
it runs (none while IDLE), the pending flag, and per site the elements last handed as available (R57). `holdSeen` is
the model's own: the time up to which hold deadlines that ran out have been noticed (log entry 7). -/
structure Evaluator where
  plan : List PlanSite
  epoch : Nat
  running : Option Pass
  pending : Bool
  available : List (List ElemId)
  holdSeen : Nat
  deriving DecidableEq, Repr

/-! ## Queue protection (chapter 5) -/

/-- The station states in the order of section 5.1. -/
inductive StationState where
  | free | queue | stopped | blind
  deriving DecidableEq, Repr

/-- The lane faults of section 6.2. -/
inductive LoopFault where
  | ok | loopOpen
  deriving DecidableEq, Repr

/-- The standings of a lane in the order of R176: valid, or the cause of its invalidity. -/
inductive Standing where
  | valid | loopOpen | stuck | noData | unit
  deriving DecidableEq, Repr

/-- The cumulative values of one lane (section 5.2). -/
structure LaneTotals where
  count : Nat
  occupancy : Nat
  speedSum : Nat
  deriving DecidableEq, Repr

/-- A lane record (section 5.1). `standing` is the validity judged last (R89, R98). -/
structure LaneRec where
  baseline : Option LaneTotals
  fault : LoopFault
  occupancy : Option Nat
  stuck : Bool
  span : Nat
  excluded : Bool
  smoothed : Option Nat
  standing : Standing
  deriving DecidableEq, Repr

/-- The image of a QP entry: its range and its limit; the rest of it is fixed (R28, R102). -/
structure QpImage where
  first : Nat
  last : Nat
  limit : Nat
  deriving DecidableEq, Repr

/-- A station record (section 5.1). -/
structure Station where
  slot : Nat
  state : StationState
  remembered : Option StationState
  onCount : Nat
  offCount : Nat
  stopCount : Nat
  minHold : Option Nat
  faultHold : Option Nat
  /-- The model's own: the running out of the fault hold has been taken (R99). -/
  faultOver : Bool
  inhibit : Option Nat
  baseline : Option Nat
  speed : Option Nat
  handed : Option QpImage
  rejected : Nat
  chatter : Nat
  lanes : List LaneRec
  deriving DecidableEq, Repr

/-! ## Unit table (chapter 7) -/

/-- The unit states in the order of section 7.1. -/
inductive UnitState where
  | absent | probing | up | suspect | lost
  deriving DecidableEq, Repr

/-- The element fault codes a sign reports (section 6.2). -/
inductive DisplayFault where
  | ok | degraded | dark | absent
  deriving DecidableEq, Repr

/-- The effective fault of an element (section 7.1); `unknown` is "none", before the first report. -/
inductive EffectiveFault where
  | reported (f : DisplayFault)
  | mismatch
  | unknown
  deriving DecidableEq, Repr

/-- The mismatch mark of an element: clear, or set with the reported fault that stood then (section 7.1). -/
inductive MismatchMark where
  | clear
  | marked (stored : Option DisplayFault)
  deriving DecidableEq, Repr

/-- An element record of a sign (section 7.1). -/
structure ElemRec where
  name : ElemId
  reported : Option DisplayFault
  mark : MismatchMark
  available : Bool
  deriving DecidableEq, Repr

/-- A filled unit record (section 7.1); the slots beyond the unit list are ABSENT (R125). -/
structure UnitRec where
  owner : UnitOwner
  line : LineId
  address : Nat
  state : UnitState
  good : Nat
  miss : Nat
  boot : Option Nat
  elements : List ElemRec
  misses : Nat
  restarts : Nat
  deriving DecidableEq, Repr

/-! ## Delivery (chapter 8) -/

/-- The kinds of a delivery part (section 8.1), in the order of R176. -/
inductive PartKind where
  | tightening | relaxing | darkening
  deriving DecidableEq, Repr

/-- The states of a delivery part (section 8.1). -/
inductive PartState where
  | waiting | sent | confirmed | abandoned
  deriving DecidableEq, Repr

/-- A delivery part (section 8.1). -/
structure Part where
  elements : List ElemId
  state : PartState
  queued : Bool
  resends : Nat
  deriving DecidableEq, Repr

/-- A commanded image with its epoch byte (section 8.1). -/
structure Commanded where
  image : Image
  epoch : Nat
  deriving DecidableEq, Repr

/-- The delivery record of one site (section 8.1). -/
structure DeliverySite where
  wanted : Image
  commanded : Option Commanded
  confirmed : Image
  applied : Option Nat
  tightening : Option Part
  relaxing : Option Part
  darkening : Option Part
  inFlight : Bool
  deriving DecidableEq, Repr

/-- The targets of section 8.1. -/
inductive Target where
  | plan | dark
  deriving DecidableEq, Repr

/-- The delivery states of section 8.1. -/
inductive DeliveryState where
  | suppressed | delivering | done
  deriving DecidableEq, Repr

/-- The last completion of delivery (section 8.1). -/
structure Completion where
  target : Target
  epoch : Nat
  abandoned : Nat
  deriving DecidableEq, Repr

/-- The delivery controller (section 8.1). -/
structure Delivery where
  sites : List DeliverySite
  target : Target
  epoch : Nat
  state : DeliveryState
  abandoned : Nat
  completion : Option Completion
  drifts : Nat
  abandonments : Nat
  deriving DecidableEq, Repr

/-! ## Field lines (chapter 6) -/

/-- The line states of section 6.3. -/
inductive LineState where
  | normal | jammed
  deriving DecidableEq, Repr

/-- The senses of section 6.1. -/
inductive Sense where
  | normal | inverted
  deriving DecidableEq, Repr

/-- A SET command in a line's queue (R120): its site (whose sign unit it is for), the part it was released for, its
image and epoch byte, and whether its transaction is in progress. -/
structure SetCommand where
  site : Nat
  part : PartKind
  image : Image
  epoch : Nat
  inProgress : Bool
  deriving DecidableEq, Repr

/-- Where a transaction stands: a frame going out, its reply window open until a time, or a retry owed (R113, R114). -/
inductive Stage where
  | sending
  | window (ends : Nat)
  | retryOwed
  deriving DecidableEq, Repr

/-- A transaction (section 6.3): the unit table slot of its unit, the SET command it carries if it is not a poll, the
frame's bytes, whether it is the retry, the REPLY_WINDOW current when the frame started, and its stage. -/
structure Transaction where
  unit : Nat
  command : Option SetCommand
  frame : List Byte
  retry : Bool
  window : Nat
  stage : Stage
  deriving DecidableEq, Repr

/-- The jam start (section 6.3): its time, the POLL_CYCLE current then (R118), and whether the report of R118 has been
given. -/
structure JamStart where
  time : Nat
  period : Nat
  reported : Bool
  deriving DecidableEq, Repr

/-- A poll cycle (section 6.3): its start, the POLL_CYCLE current then (R122), its number, the addresses still due,
and when the list became empty. -/
structure PollCycle where
  start : Nat
  period : Nat
  number : Nat
  due : List Nat
  emptied : Option Nat
  deriving DecidableEq, Repr

/-- The six counters of a line (R124). -/
structure LineCounters where
  frameErrors : Nat
  falseActivity : Nat
  retries : Nat
  jams : Nat
  flips : Nat
  stretched : Nat
  deriving DecidableEq, Repr

/-- A field line controller (section 6.3). `quiet` is R108's; `driving` is the driver enable; `flipNext` says that a
polarity flip takes effect at the next frame started (R116); `skipping` that an inverted reply is being skipped up to
the next quiet (R116); `burstCounted` that the present burst has been counted as false activity (R115); `sent` is the
last frame put on the transmit signal, as its bytes stand on the wire (R109). -/
structure LineRec where
  state : LineState
  sense : Sense
  flipNext : Bool
  streak : Nat
  quiet : Bool
  /-- The model's own: the reading of the time base at the last activity (R108, log entry 3). -/
  lastActive : Nat
  driving : Bool
  sent : List Byte
  skipping : Bool
  burstCounted : Bool
  jamTimer : Option Nat
  jam : Option JamStart
  unjamTimer : Option Nat
  transaction : Option Transaction
  queue : List SetCommand
  cycle : Option PollCycle
  counters : LineCounters
  deriving DecidableEq, Repr

end Sys2Proof.Machine
end

