-- ==== Sys2Proof/Machine/Codes.lean ====
section
/-! DEFINITION. The codes of named values on the wires (R169, section 6.2), the orders of restrictiveness (00_scope,
R145), saturating counters, and access to the per-port and per-line records. -/

namespace Sys2Proof.Machine

/-! ## Per-port and per-line access -/

/-- The value of one port. -/
def PerPort.get {α : Type} (x : PerPort α) : Port → α
  | .a => x.a
  | .b => x.b
  | .c => x.c

/-- The values with one port's replaced. -/
def PerPort.set {α : Type} (x : PerPort α) (p : Port) (v : α) : PerPort α :=
  match p with
  | .a => { x with a := v }
  | .b => { x with b := v }
  | .c => { x with c := v }

/-- The values with the same change made at every port. -/
def PerPort.map {α β : Type} (f : Port → α → β) (x : PerPort α) : PerPort β :=
  ⟨f .a x.a, f .b x.b, f .c x.c⟩

/-- The value of one line. -/
def PerLine.get {α : Type} (x : PerLine α) : LineId → α
  | .one => x.one
  | .two => x.two

/-- The values with one line's replaced. -/
def PerLine.set {α : Type} (x : PerLine α) (l : LineId) (v : α) : PerLine α :=
  match l with
  | .one => { x with one := v }
  | .two => { x with two := v }

/-- The values with the same change made at both lines. -/
def PerLine.map {α β : Type} (f : LineId → α → β) (x : PerLine α) : PerLine β := ⟨f .one x.one, f .two x.two⟩

/-- The three ports, A first. -/
def allPorts : List Port := [.a, .b, .c]

/-- The two lines, line 1 first. -/
def allLines : List LineId := [.one, .two]

/-! ## Counters -/

/-- A 16-bit counter raised by one; it saturates at 65535 (00_scope, Numbers and counters). -/
def countUp (n : Nat) : Nat := min (n + 1) Config.counterMax

/-- A 16-bit counter raised by `k`. -/
def countBy (n k : Nat) : Nat := min (n + k) Config.counterMax

/-- Whole seconds from `now` to a deadline, rounded up; 0 for no deadline or one that has run out (R31, R82, R107). -/
def remaining (now : Nat) : Option Nat → Nat
  | none => 0
  | some d => (d - now + 999) / 1000

/-- Whether a deadline has run out: it has at the moment the time base reaches it (00_scope, Time). -/
def ranOut (now : Nat) : Option Nat → Bool
  | none => false
  | some d => decide (d ≤ now)

/-! ## Named values (R169) -/

def Mode.code : Mode → Nat
  | .unconfigured => 0
  | .shadow => 1
  | .live => 2
  | .darkening => 3

def ResetCause.code : ResetCause → Nat
  | .power => 0
  | .pin => 1
  | .restart => 2

def CommitState.code : CommitState → Nat
  | .openState => 0
  | .validating => 1
  | .locked => 2

/-- A port's rank (section 3.1); 0 for a DISABLED port, which has none. It is also the authority's code. -/
def Authority.rank : Authority → Nat
  | .disabled => 0
  | .monitor => 1
  | .field => 2
  | .supervisory => 3

def Liveness.code : Liveness → Nat
  | .active => 0
  | .silent => 1

def LineState.code : LineState → Nat
  | .normal => 0
  | .jammed => 1

def Sense.code : Sense → Nat
  | .normal => 0
  | .inverted => 1

def Sense.flipped : Sense → Sense
  | .normal => .inverted
  | .inverted => .normal

def Port.code : Port → Nat
  | .a => 0
  | .b => 1
  | .c => 2

/-- The port of a requester byte (R175, RELEASE). -/
def Port.ofCode (n : Nat) : Option Port := allPorts[n]?

def Requester.code : Requester → Nat
  | .port p => Port.code p
  | .qp => 3

def LineId.code : LineId → Nat
  | .one => 1
  | .two => 2

/-- The line of a unit line field, 1 or 2 (R2, R3). -/
def LineId.ofCode : Nat → Option LineId
  | 1 => some .one
  | 2 => some .two
  | _ => none

def LapsePolicy.code : LapsePolicy → Nat
  | .hold => 0
  | .drop => 1

def EntryState.code : EntryState → Nat
  | .active => 0
  | .frozen => 1

def StationState.code : StationState → Nat
  | .free => 0
  | .queue => 1
  | .stopped => 2
  | .blind => 3

def Standing.code : Standing → Nat
  | .valid => 0
  | .loopOpen => 1
  | .stuck => 2
  | .noData => 3
  | .unit => 4

def UnitState.code : UnitState → Nat
  | .absent => 0
  | .probing => 1
  | .up => 2
  | .suspect => 3
  | .lost => 4

def DisplayFault.code : DisplayFault → Nat
  | .ok => 0
  | .degraded => 1
  | .dark => 2
  | .absent => 3

/-- The fault of an element fault byte of STATE (section 6.2); none for a byte above 3. -/
def DisplayFault.ofCode : Nat → Option DisplayFault
  | 0 => some .ok
  | 1 => some .degraded
  | 2 => some .dark
  | 3 => some .absent
  | _ => none

/-- The effective fault bits of READ_UNITS (R176). -/
def EffectiveFault.code : EffectiveFault → Nat
  | .reported f => f.code
  | .mismatch => 4
  | .unknown => 7

def PartKind.code : PartKind → Nat
  | .tightening => 0
  | .relaxing => 1
  | .darkening => 2

def PartState.code : PartState → Nat
  | .waiting => 0
  | .sent => 1
  | .confirmed => 2
  | .abandoned => 3

def Target.code : Target → Nat
  | .plan => 0
  | .dark => 1

def DeliveryState.code : DeliveryState → Nat
  | .suppressed => 0
  | .delivering => 1
  | .done => 2

def Reason.code : Reason → Nat
  | .ok => 0
  | .clamped => 1
  | .badFrame => 2
  | .unknownCommand => 3
  | .notPermitted => 4
  | .wrongMode => 5
  | .badRange => 6
  | .invalid => 7
  | .tableFull => 8
  | .quota => 9
  | .notFound => 10
  | .constraint => 11
  | .planNotQuiet => 12

def SiteKind.code : SiteKind → Nat
  | .gantry _ _ => 0
  | .verge => 1
  | .message => 2

/-- The bit of a notice in the flags and the mask (R175). -/
def Notice.bit : Notice → Nat
  | .plan => 0
  | .delivered => 1
  | .unit => 2
  | .queue => 3
  | .entry => 4
  | .port => 5
  | .mode => 6
  | .reset => 7

/-! ## Limits, aspects and legends (section 6.2) -/

/-- The limit code: 0 for NONE, the value ÷ 10 otherwise. -/
def limitCode : Limit → Nat
  | none => 0
  | some v => v / 10

/-- The limit of a limit code of STATE: 0, or 2 to 12. -/
def limitOfCode (n : Nat) : Option Limit :=
  if n = 0 then some none else if 2 ≤ n ∧ n ≤ 12 then some (some (n * 10)) else none

/-- The lane code. -/
def Aspect.code : Aspect → Nat
  | .blank => 0
  | .opened => 1
  | .mergeNear => 2
  | .mergeOff => 3
  | .closed => 4

/-- The aspect of a lane code; none above 4. -/
def Aspect.ofCode : Nat → Option Aspect
  | 0 => some .blank
  | 1 => some .opened
  | 2 => some .mergeNear
  | 3 => some .mergeOff
  | 4 => some .closed
  | _ => none

/-- The rank of a legend, which is its legend code. -/
def Legend.rank : Legend → Nat
  | .blank => 0
  | .fog => 1
  | .slowDown => 2
  | .congestion => 3
  | .queueAhead => 4
  | .laneClosedAhead => 5
  | .incidentAhead => 6
  | .carriagewayClosed => 7

/-- The legend of a legend code; none above 7. -/
def Legend.ofRank : Nat → Option Legend
  | 0 => some .blank
  | 1 => some .fog
  | 2 => some .slowDown
  | 3 => some .congestion
  | 4 => some .queueAhead
  | 5 => some .laneClosedAhead
  | 6 => some .incidentAhead
  | 7 => some .carriagewayClosed
  | _ => none

/-! ## Restrictiveness (00_scope; R145) -/

/-- The restrictiveness of an aspect: CLOSED above the two arrows, which are equal, above OPEN, above BLANK. -/
def Aspect.weight : Aspect → Nat
  | .blank => 0
  | .opened => 1
  | .mergeNear => 2
  | .mergeOff => 2
  | .closed => 3

/-- Whether an aspect is one of the two arrows. -/
def Aspect.isMerge : Aspect → Bool
  | .mergeNear => true
  | .mergeOff => true
  | _ => false

/-- Whether the first limit is at least as restrictive as the second: NONE is the least restrictive of all. -/
def limitAtLeast : Limit → Limit → Bool
  | _, none => true
  | none, some _ => false
  | some x, some y => decide (x ≤ y)

/-- The more restrictive of two limits. -/
def tighten : Limit → Limit → Limit
  | none, y => y
  | x, none => x
  | some x, some y => some (min x y)

/-- Whether the first value of an element is more restrictive than the second (R145). -/
def ElemVal.tighter : ElemVal → ElemVal → Bool
  | .limit x, .limit y => limitAtLeast x y && !limitAtLeast y x
  | .lane x, .lane y => decide (y.weight < x.weight)
  | .legend x, .legend y => decide (y.rank < x.rank)
  | _, _ => false

end Sys2Proof.Machine
end

