-- ==== Sys2Proof/Machine/State.lean ====
section
/-! DEFINITION. The state of the part, the reasons a step can stop for, and the state after a power-on reset. -/

namespace Sys2Proof.Machine

/-- The conditions at which the part stops. The manual names none: the part refuses commands by a reason code and goes
on (R177), and a reset brings it back from every state (R161). There is no constructor, and nothing raises a fault:
safe. -/
inductive Fault where
  deriving DecidableEq, Repr

/-- Why a command has no meaning in the model. -/
inductive Refusal where
  /-- Raised by `exec` alone, for a row of the opcode table that has no meaning yet: safe. No arm raises it now. -/
  | notModelled (mnemonic : String)
  deriving DecidableEq, Repr

/-- Everything the part holds, block by block (00_scope, Overview of the blocks), the time base in ms, the queue of
commands waiting, and the count of free values drawn, which is the model's own. -/
structure State where
  now : Nat
  phase : ResetPhase
  mode : Mode
  cause : ResetCause
  store : Store
  table : Table
  ports : PerPort PortRec
  evaluator : Evaluator
  stations : List Station
  units : List UnitRec
  delivery : Delivery
  lines : PerLine LineRec
  drawn : Nat
  pending : List Instr
  deriving DecidableEq, Repr

/-- The authority a strap pair gives (section 3.1). -/
def strapAuthority (s : StrapPair) : Authority :=
  match s.strap1, s.strap0 with
  | false, false => .disabled
  | false, true => .monitor
  | true, false => .field
  | true, true => .supervisory

/-- The configuration store after a reset (R1). -/
def Store.initial : Store where
  sites := List.replicate 32 none
  stations := List.replicate 16 none
  boundary := none
  params := defaultParams
  commit := .openState
  cursors := ⟨0, 0, 0⟩
  geometry := none

/-- The request table after a reset (R19). -/
def Table.initial : Table where
  entries := []
  nextArrival := 0
  demand := []

/-- A port after a reset that sampled `s` (R41, R44, R178, R182, R184). -/
def PortRec.initial (s : StrapPair) : PortRec where
  authority := strapAuthority s
  liveness := .active
  deadline := none
  silences := 0
  command := none
  reply := none
  flags := 0
  mask := 255
  overrun := false
  frameErrors := 0
  overruns := 0
  commands := 0
  shifted := []

/-- The plan evaluator after a reset (R55). -/
def Evaluator.initial : Evaluator where
  plan := []
  epoch := 0
  running := none
  pending := false
  available := []
  holdSeen := 0

/-- The delivery controller after a reset (R142). -/
def Delivery.initial : Delivery where
  sites := []
  target := .plan
  epoch := 0
  state := .suppressed
  abandoned := 0
  completion := none
  drifts := 0
  abandonments := 0

/-- A field line controller after a reset (R111, R108). -/
def LineRec.initial : LineRec where
  state := .normal
  sense := .normal
  flipNext := false
  streak := 0
  quiet := false
  lastActive := 0
  driving := false
  sent := []
  skipping := false
  burstCounted := false
  jamTimer := none
  jam := none
  unjamTimer := none
  transaction := none
  queue := []
  cycle := none
  counters := ⟨0, 0, 0, 0, 0, 0⟩

/-- The state a reset leaves, from the straps it sampled, its cause, and the four things it does not reach: the
reading of the time base, where the part stands in the reset, the count of free values drawn and the queue of waiting
commands. Stations (R83) and unit records (R125) are none. -/
def State.afterReset (now : Nat) (phase : ResetPhase) (cause : ResetCause) (straps : Straps) (drawn : Nat)
    (pending : List Instr) : State where
  now := now
  phase := phase
  mode := .unconfigured
  cause := cause
  store := .initial
  table := .initial
  ports := ⟨.initial straps.a, .initial straps.b, .initial straps.c⟩
  evaluator := .initial
  stations := []
  units := []
  delivery := .initial
  lines := ⟨.initial, .initial⟩
  drawn := drawn
  pending := pending

/-- The straps of the usual cabinet (section 3.1): A SUPERVISORY, B FIELD, C MONITOR. -/
def usualStraps : Straps := ⟨⟨true, true⟩, ⟨true, false⟩, ⟨false, true⟩⟩

/-- The machine right after a power-on reset, still held in it, in the usual cabinet (R161; log entries 1 to 3). -/
def State.reset : State := State.afterReset 0 .held .power usualStraps 0 []

end Sys2Proof.Machine
end

