-- ==== Sys2Proof/Machine/Geometry.lean ====
section
/-! DEFINITION. What the records of the configuration store give: the lanes and elements of a site, the validation of a
COMMIT (R9) and the geometry derived from it (R10). -/

namespace Sys2Proof.Machine

/-! ## Lanes and elements of a site -/

/-- The lane positions of so many running lanes and a shoulder or none (section 1.2, R4). -/
def lanePositions (running : Nat) (shoulder : Bool) : List Nat :=
  (if shoulder then [0] else []) ++ (List.range running).map (· + 1)

/-- The lane positions present at a site: a VERGE and a MESSAGE site have none. -/
def SiteKind.positions : SiteKind → List Nat
  | .gantry running shoulder => lanePositions running shoulder
  | .verge => []
  | .message => []

/-- Whether a site is a GANTRY with a shoulder. -/
def SiteKind.hasShoulder : SiteKind → Bool
  | .gantry _ shoulder => shoulder
  | _ => false

/-- Whether a site has a limit element: each GANTRY and VERGE has (section 4.1). -/
def SiteKind.hasLimit : SiteKind → Bool
  | .message => false
  | _ => true

/-- The lane positions of EXIT (R4). -/
def Boundary.positions (b : Boundary) : List Nat := lanePositions b.running b.shoulder

/-- The plan elements of a site (R54, section 8.1). -/
def SiteRecord.elements (r : SiteRecord) : List ElemId :=
  (if r.kind.hasLimit then [.limit] else []) ++ r.kind.positions.map .lane ++ (if r.sign then [.legend] else [])

/-- The elements a site's sign unit displays and reports faults for (R133): a GANTRY shows its limit inside its lanes
and has no speed element. -/
def SiteRecord.unitElements (r : SiteRecord) : List ElemId :=
  (match r.kind with
    | .gantry _ _ => r.kind.positions.map .lane
    | .verge => [.limit]
    | .message => []) ++ (if r.sign then [.legend] else [])

/-! ## Access to the store -/

/-- N, the number of configured sites; 0 before a successful COMMIT. -/
def Store.siteCount (c : Store) : Nat :=
  match c.geometry with
  | none => 0
  | some g => g.n

/-- The record of a site slot. -/
def Store.site (c : Store) (i : Nat) : Option SiteRecord := c.sites.getD i none

/-- The record of a station slot. -/
def Store.station (c : Store) (k : Nat) : Option StationRecord := c.stations.getD k none

/-- The used station slots, ascending. -/
def Store.usedStations (c : Store) : List (Nat × StationRecord) :=
  (List.range 16).filterMap fun k => (c.station k).map fun r => (k, r)

/-- The number of used stations of the committed section; 0 before it (R179). -/
def Store.stationCount (c : Store) : Nat :=
  match c.geometry with
  | none => 0
  | some g => g.stationPositions.length

/-- The elements of a site slot's record. -/
def Store.elements (c : Store) (i : Nat) : List ElemId :=
  match c.site i with
  | none => []
  | some r => r.elements

/-- The current value of a parameter. -/
def State.param (s : State) (i : ParamId) : Nat := paramValue s.store.params i

/-! ## Validation (R9) -/

/-- The record kinds of a COMMIT refused CONSTRAINT, in the order of R176. -/
inductive RecordKind where
  | site | station | boundary | parameter
  deriving DecidableEq, Repr

/-- The record kind's code (R176). -/
def RecordKind.code : RecordKind → Nat
  | .site => 0
  | .station => 1
  | .boundary => 2
  | .parameter => 3

/-- What a failed validation reports: a record kind, and the index or parameter identity. -/
abbrev Failure := RecordKind × Nat

/-- The highest used site slot, or 0 (check 1 of R9). -/
def Store.highestUsed (c : Store) : Nat :=
  (List.range 32).foldl (fun h i => if (c.site i).isSome then i else h) 0

/-- Check 1: every slot from 0 to the greater of 1 and the highest used one is used. -/
def Store.checkSites (c : Store) : Option Failure :=
  ((List.range (max 1 c.highestUsed + 1)).find? fun i => (c.site i).isNone).map fun i => (.site, i)

/-- Whether a list repeats a member. -/
def hasRepeat : List Nat → Bool
  | [] => false
  | x :: xs => xs.contains x || hasRepeat xs

/-- Whether a station's mapped lanes suit its reference site (check 2): at a GANTRY each is present and none is mapped
twice; at a VERGE or MESSAGE site any will do. -/
def lanesSuit (r : SiteRecord) (lanes : List Nat) : Bool :=
  match r.kind with
  | .gantry running shoulder => lanes.all (lanePositions running shoulder).contains && !hasRepeat lanes
  | _ => true

/-- Check 2: every used station has a reference site below N and suitable lanes. -/
def Store.checkStations (c : Store) (n : Nat) : Option Failure :=
  (c.usedStations.find? fun (_, st) =>
    !(decide (st.site < n) &&
      match c.site st.site with
      | none => false
      | some r => lanesSuit r st.lanes)).map fun (k, _) => (.station, k)

/-- Check 3: the boundary record has been written. -/
def Store.checkBoundary (c : Store) : Option Failure :=
  if c.boundary.isNone then some (.boundary, Config.exitIndex) else none

/-- The unit list (R10): sites 0 to N-1, then the used stations in ascending index. -/
def Store.unitList (c : Store) (n : Nat) : List UnitDesc :=
  ((List.range n).filterMap fun i => (c.site i).map fun r => ⟨.sign i, r.line, r.address⟩) ++
    c.usedStations.map fun (k, r) => ⟨.outstation k, r.line, r.address⟩

/-- The first unit of a list whose line and address are those of an earlier one, `seen` being the earlier ones. -/
def firstClash : List UnitDesc → List UnitDesc → Option UnitDesc
  | _, [] => none
  | seen, u :: us =>
    if seen.any fun v => decide (v.line = u.line ∧ v.address = u.address) then some u else firstClash (u :: seen) us

/-- The failure that names a unit's record. -/
def UnitOwner.failure : UnitOwner → Failure
  | .sign i => (.site, i)
  | .outstation k => (.station, k)

/-- Check 4: the units' lines and addresses are distinct. -/
def Store.checkUnits (c : Store) (n : Nat) : Option Failure :=
  (firstClash [] (c.unitList n)).map fun u => u.owner.failure

/-- Check 5: the constraints of R15 hold for the current parameters. -/
def Store.checkParams (c : Store) : Option Failure :=
  (brokenConstraint c.params).map fun i => (.parameter, i.code)

/-- The validation of R9: the first check that fails, or none. -/
def Store.validate (c : Store) : Option Failure :=
  let n := c.highestUsed + 1
  c.checkSites <|> c.checkStations n <|> c.checkBoundary <|> c.checkUnits n <|> c.checkParams

/-! ## Derived geometry (R10) -/

/-- The gap of a site slot's record. -/
def Store.gap (c : Store) (i : Nat) : Nat :=
  match c.site i with
  | none => 0
  | some r => r.gap

/-- pos(i), the sum of the gaps of the sites before i (R10). -/
def Store.position (c : Store) (i : Nat) : Nat := ((List.range i).map c.gap).sum

/-- The geometry derived from the records at the successful end of a COMMIT (R10). -/
def Store.derive (c : Store) : Geometry :=
  let n := c.highestUsed + 1
  { n := n
    positions := (List.range (n + 1)).map c.position
    stationPositions := c.usedStations.map fun (k, r) => (k, c.position r.site + r.offset)
    units := c.unitList n }

end Sys2Proof.Machine
end

