-- ==== Sys2Proof/Machine/Flags.lean ====
section
/-! DEFINITION. The notice flags of the ports and the two lines READY and ATTENTION that follow from the port records
(R174, R181, R182), and the port counters and overrun flag (R178). -/

namespace Sys2Proof.Machine

/-! ## One port -/

/-- The bit of one notice. -/
def Notice.flag (n : Notice) : BitVec 8 := 1#8 <<< n.bit

/-- Whether the port is strapped anything but DISABLED (R42). -/
def PortRec.enabled (r : PortRec) : Bool := decide (r.authority ≠ .disabled)

/-- A notice set at a port, whatever its mask; a DISABLED port holds no flags (R42, R181). -/
def PortRec.raise (n : Notice) (r : PortRec) : PortRec :=
  if r.enabled then { r with flags := r.flags ||| n.flag } else r

/-- The port's flags left holding RESET alone (R162, R184); a DISABLED port holds none. -/
def PortRec.resetAlone (r : PortRec) : PortRec :=
  if r.enabled then { r with flags := Notice.reset.flag } else r

/-- The READY line: high while the reply slot holds a reply (R174). -/
def PortRec.readyLine (r : PortRec) : Bool := r.reply.isSome

/-- The ATTENTION line: high while some flag is set and enabled in the mask (R182). -/
def PortRec.attentionLine (r : PortRec) : Bool := decide (r.flags &&& r.mask ≠ 0)

/-- The port is EXECUTING while its command slot holds a command (section 10.2). -/
def PortRec.executing (r : PortRec) : Bool := r.command.isSome

/-- An overrun: the flag is latched and the counter rises (R173, R174, R178). -/
def PortRec.overran (r : PortRec) : PortRec := { r with overrun := true, overruns := countUp r.overruns }

/-- A frame error counted (R170, R171, R178). -/
def PortRec.frameError (r : PortRec) : PortRec := { r with frameErrors := countUp r.frameErrors }

/-! ## The ports of the part -/

/-- One port's record. -/
def State.port (s : State) (p : Port) : PortRec := s.ports.get p

/-- The state with one port's record replaced. -/
def State.setPort (s : State) (p : Port) (r : PortRec) : State := { s with ports := s.ports.set p r }

/-- A notice set at one port. -/
def State.notify (s : State) (p : Port) (n : Notice) : State := s.setPort p ((s.port p).raise n)

/-- A notice set at every port not strapped DISABLED. -/
def State.notifyAll (s : State) (n : Notice) : State := { s with ports := s.ports.map fun _ r => r.raise n }

/-- A notice set at every other port not strapped DISABLED (R46, R47). -/
def State.notifyOthers (s : State) (p : Port) (n : Notice) : State :=
  { s with ports := s.ports.map fun q r => if q = p then r else r.raise n }

/-- Whether a port takes transactions: the 20 ms after reset release are over (R162) and it is not DISABLED (R42). -/
def State.hears (s : State) (p : Port) : Bool := decide (s.phase = .ready) && (s.port p).enabled

end Sys2Proof.Machine
end

