-- ==== Sys2Proof/Machine/TableOps.lean ====
section
/-! DEFINITION. The request table: its slots and arrival order (R17, R18), the demand summary (R35 to R39), and the
removals, freezings and handings that other blocks ask of it (R28, R31, R46, R47, R51). -/

namespace Sys2Proof.Machine

/-! ## Entries -/

/-- Whether a range covers a site, EXIT being index 32 (section 2.1). -/
def Ask.covers (a : Ask) (i : Nat) : Bool := decide (a.first ≤ i ∧ i ≤ a.last)

/-- The slot of a station's QP entry (R17). -/
def qpSlot (station : Nat) : Nat := Config.poolSlots + station

/-- The entry with a key (requester, tag). -/
def Table.find (t : Table) (r : Requester) (tag : Nat) : Option Entry :=
  t.entries.find? fun e => decide (e.requester = r ∧ e.tag = tag)

/-- The entry in a slot. -/
def Table.inSlot (t : Table) (slot : Nat) : Option Entry := t.entries.find? fun e => decide (e.slot = slot)

/-- The lowest-numbered free slot of the port pool (R24). -/
def Table.freeSlot (t : Table) : Option Nat :=
  (List.range Config.poolSlots).find? fun k => (t.inSlot k).isNone

/-- A port's count: the pool slots that hold its entries (R17). -/
def Table.count (t : Table) (p : Port) : Nat := (t.entries.filter fun e => decide (e.requester = .port p)).length

/-- The free slots of the pool (R179). -/
def Table.freePool (t : Table) : Nat := ((List.range Config.poolSlots).filter fun k => (t.inSlot k).isNone).length

/-- The arrival sequence after one: 0 follows 4294967295 (R18). -/
def nextSequence (n : Nat) : Nat := (n + 1) % 4294967296

/-- An entry created in its slot, or replacing the one there: it takes the current arrival sequence, the counter goes
on, and the entry stands at the newest end of the arrival order (R18). -/
def Table.store (t : Table) (e : Entry) : Table :=
  { t with
    entries := (t.entries.filter fun x => decide (x.slot ≠ e.slot)) ++ [{ e with arrival := t.nextArrival }]
    nextArrival := nextSequence t.nextArrival }

/-- The entries that meet a condition removed, each from its slot and the arrival order; the counter stays (R18, R34). -/
def Table.remove (t : Table) (gone : Entry → Bool) : Table :=
  { t with entries := t.entries.filter fun e => !gone e }

/-! ## The demand summary -/

/-- What the demand at a site depends on besides the entries: its index (32 for EXIT), the lane positions present,
whether a limit part and a legend part have meaning there, and whether a shoulder-open part has (R26). -/
structure Spot where
  index : Nat
  present : List Nat
  takesLimit : Bool
  takesLegend : Bool
  takesOpening : Bool
  deriving DecidableEq, Repr

/-- The authority of a requester in a legend tie; QP counts as 1 (R39). -/
def tieRank (ports : PerPort PortRec) : Requester → Nat
  | .port p => (ports.get p).authority.rank
  | .qp => 1

/-- R39's choice between the supplier so far, which is older, and the next entry with a legend part. -/
def betterSupplier (ports : PerPort PortRec) (best : Option (Legend × Requester × Nat)) (e : Entry) :
    Option (Legend × Requester × Nat) :=
  match e.ask.legend with
  | none => best
  | some g =>
    match best with
    | none => some (g, e.requester, e.tag)
    | some (b, r, tag) =>
      if b.rank < g.rank ∨ (b.rank = g.rank ∧ tieRank ports r < tieRank ports e.requester)
      then some (g, e.requester, e.tag)
      else some (b, r, tag)

/-- The demand at one site, from the entries in arrival order (R36 to R39). -/
def demandAt (ports : PerPort PortRec) (entries : List Entry) (spot : Spot) : Demand :=
  let covering := entries.filter fun e => e.ask.covers spot.index
  let supplier := if spot.takesLegend then covering.foldl (betterSupplier ports) none else none
  { limit := if spot.takesLimit then covering.foldl (fun l e => tighten l e.ask.limit) none else none
    closed := spot.present.filter fun l => covering.any fun e => (e.ask.closure.getD []).contains l
    opening := spot.takesOpening && covering.any fun e => e.ask.shoulderOpen
    legend := supplier.map (·.1)
    source := supplier.map (·.2) }

/-- The spot of a configured site (R26). -/
def SiteRecord.spot (r : SiteRecord) (i : Nat) : Spot where
  index := i
  present := r.kind.positions
  takesLimit := r.kind.hasLimit
  takesLegend := r.sign
  takesOpening := r.kind.hasShoulder

/-- The spot of EXIT: no legend and no shoulder opening there (R26, R38, R39). -/
def Boundary.spot (b : Boundary) : Spot where
  index := Config.exitIndex
  present := b.positions
  takesLimit := true
  takesLegend := false
  takesOpening := false

/-- The spots of the committed section: sites 0 to N-1, then EXIT; none before COMMIT. -/
def Store.spots (c : Store) : List Spot :=
  match c.geometry with
  | none => []
  | some g =>
    ((List.range g.n).filterMap fun i => (c.site i).map fun r => r.spot i) ++
      (c.boundary.map (·.spot)).toList

/-- What of a demand the plan evaluator reads: all but the legend source (R35). -/
def Demand.read (d : Demand) : Option Nat × List Nat × Bool × Option Legend := (d.limit, d.closed, d.opening, d.legend)

/-- The evaluator's pending flag set (R59). -/
def State.markPending (s : State) : State := { s with evaluator := { s.evaluator with pending := true } }

/-- The demand summary of the entries stored now (R35 to R39). -/
def State.summary (s : State) : List Demand := s.store.spots.map (demandAt s.ports s.table.entries)

/-- R35: the summary derived anew; the evaluator is marked pending if a demand it reads changed. In UNCONFIGURED it has
no records. -/
def State.deriveDemand (s : State) : State :=
  let d := s.summary
  let t := { s with table := { s.table with demand := d } }
  if d.map Demand.read = s.table.demand.map Demand.read then t else t.markPending

/-- The table replaced and the demand summary derived once (R35). -/
def State.changeTable (s : State) (t : Table) : State := { s with table := t }.deriveDemand

/-- The demand at site i, or at EXIT where i is N. -/
def Table.demandOf (t : Table) (i : Nat) : Demand := t.demand.getD i ⟨none, [], false, none, none⟩

/-- The number of sites at which an entry is the legend source (R40). -/
def Table.sourceSites (t : Table) (e : Entry) : Nat :=
  (t.demand.filter fun d => decide (d.source = some (e.requester, e.tag))).length

/-! ## Liveness of a port and its entries (R46, R47) -/

/-- The entries of a port. -/
def Entry.ownedBy (e : Entry) (p : Port) : Bool := decide (e.requester = .port p)

/-- R46: the DROP entries of a silent port go and its HOLD entries become FROZEN, in one step. -/
def Table.silence (t : Table) (p : Port) : Table :=
  { t with
    entries := (t.entries.filter fun e => !(e.ownedBy p && decide (e.ask.policy = .drop))).map fun e =>
      if e.ownedBy p then { e with state := .frozen } else e }

/-- Whether a port has a DROP entry (R46). -/
def Table.hasDrop (t : Table) (p : Port) : Bool :=
  t.entries.any fun e => e.ownedBy p && decide (e.ask.policy = .drop)

/-- R47: every FROZEN entry of a returning port becomes ACTIVE. -/
def Table.thaw (t : Table) (p : Port) : Table :=
  { t with entries := t.entries.map fun e => if e.ownedBy p then { e with state := .active } else e }

/-! ## Handings of queue protection (R28) -/

/-- The content of a QP entry of this image (R28). -/
def QpImage.ask (m : QpImage) : Ask where
  first := m.first
  last := m.last
  limit := some m.limit
  closure := none
  legend := some .queueAhead
  shoulderOpen := false
  policy := .hold

/-- R28: what the table does with an image or ABSENT handed for a station; none where it changes nothing. -/
def Table.hand (t : Table) (station : Nat) (image : Option QpImage) : Option Table :=
  match t.inSlot (qpSlot station), image with
  | none, none => none
  | some _, none => some (t.remove fun e => decide (e.slot = qpSlot station))
  | none, some m =>
    some (t.store ⟨qpSlot station, .qp, station, m.ask, none, 0, .active⟩)
  | some e, some m =>
    if e.ask = m.ask then none
    else some (t.store ⟨qpSlot station, .qp, station, m.ask, none, 0, .active⟩)

/-- R28 applied to the part, with the demand derived after a change. -/
def State.handQp (s : State) (station : Nat) (image : Option QpImage) : State :=
  match s.table.hand station image with
  | none => s
  | some t => s.changeTable t

end Sys2Proof.Machine
end

