-- ==== Sys2Proof/Machine/Plan.lean ====
section
/-! DEFINITION. The plan evaluator: plan records (R54, R55), capability (R58), the course of a pass (R63 to R80), what
makes two plans differ (R56), adoption (R165) and the quiet check (R166). -/

namespace Sys2Proof.Machine

/-! ## Plan records -/

/-- Whether a lane element is a closed lane (section 4.1). -/
def LaneValue.isClosed : LaneValue → Bool
  | .unavailable c => c
  | .shows a => decide (a = .closed)

/-- Whether a lane element shows an arrow. -/
def LaneValue.isMerge : LaneValue → Bool
  | .unavailable _ => false
  | .shows a => a.isMerge

/-- The lane element at a position of a plan record. -/
def PlanSite.lane (s : PlanSite) (l : Nat) : Option LaneElem := s.lanes.lookup l

/-- Whether a position is closed at a site of the plan; a position the site does not have is not. -/
def PlanSite.closedAt (s : PlanSite) (l : Nat) : Bool :=
  match s.lane l with
  | none => false
  | some e => e.value.isClosed

/-- An empty record, for an index the plan does not have. -/
def PlanSite.empty : PlanSite := ⟨none, [], none⟩

/-- The record of site i of a plan, EXIT standing at index N. -/
def planSite (plan : List PlanSite) (i : Nat) : PlanSite := plan.getD i .empty

/-- A plan element with no deadline and no report. -/
def PlanElem.fresh {α : Type} (v : Shown α) : PlanElem α := ⟨v, none, false⟩

/-- A lane element with no deadline, report or mark. -/
def LaneElem.fresh (v : LaneValue) : LaneElem := ⟨v, none, false, false, false⟩

/-- The reset form of a site's plan record (R55): every lane OPEN, the limit NONE, the legend BLANK. -/
def SiteRecord.resetPlan (r : SiteRecord) : PlanSite where
  limit := if r.kind.hasLimit then some (.fresh (.value none)) else none
  lanes := r.kind.positions.map fun l => (l, .fresh (.shows .opened))
  legend := if r.sign then some (.fresh (.value .blank)) else none

/-- The reset form of EXIT's plan record (R55). -/
def Boundary.resetPlan (b : Boundary) : PlanSite where
  limit := some (.fresh (.value none))
  lanes := b.positions.map fun l => (l, .fresh (.shows .opened))
  legend := none

/-- The site records of the committed section, in ascending index. -/
def Store.configured (c : Store) : List (Nat × SiteRecord) :=
  (List.range c.siteCount).filterMap fun i => (c.site i).map fun r => (i, r)

/-- The plan in its reset form over the committed section (R55). -/
def Store.resetPlan (c : Store) : List PlanSite :=
  (c.configured.map fun (_, r) => r.resetPlan) ++ (c.boundary.map (·.resetPlan)).toList

/-! ## Capability (R57, R58) -/

/-- Whether a site is limit-capable with these elements available. -/
def SiteRecord.limitCapable (r : SiteRecord) (available : List ElemId) : Bool :=
  match r.kind with
  | .gantry running _ => (List.range running).any fun k => available.contains (.lane (k + 1))
  | .verge => available.contains .limit
  | .message => false

/-- Whether a site is message-capable with these elements available. -/
def SiteRecord.messageCapable (r : SiteRecord) (available : List ElemId) : Bool :=
  r.sign && available.contains .legend

/-! ## Lanes (R64 to R71) -/

/-- R64: the demand aspect of a lane, CLOSED when demanded or when the shoulder's opening is absent. -/
def demandAspect (d : Demand) (l : Nat) : Aspect :=
  if d.closed.contains l || (decide (l = 0) && !d.opening) then .closed else .opened

/-- R62: whether an element is out of hold at a pass time. -/
def outOfHold (deadline : Option Nat) (time : Nat) : Bool :=
  match deadline with
  | none => true
  | some d => decide (d ≤ time)

/-- R66: the candidate of a lane element, and whether its relaxation is held. -/
def laneCandidate (previous : LaneElem) (demand : Aspect) (time : Nat) : Aspect × Bool :=
  match previous.value with
  | .unavailable _ => (demand, false)
  | .shows a =>
    if a.weight ≤ demand.weight then (demand, false)
    else if outOfHold previous.deadline time then (demand, false)
    else (a, true)

/-- A merge duty in carry: its origin (an index of the plan, N for EXIT), whether it points toward nearside, and the
gantries it was displaced through. -/
structure Duty where
  origin : Nat
  near : Bool
  count : Nat
  deriving DecidableEq, Repr

/-- The arrow of a duty. -/
def Duty.arrow (d : Duty) : Aspect := if d.near then .mergeNear else .mergeOff

/-- One lane of a gantry as the lanes step works on it: its position, its value, its held report and its DISPLACED
mark. -/
structure LaneWork where
  position : Nat
  value : LaneValue
  held : Bool
  displaced : Bool
  deriving DecidableEq, Repr

/-- R66: a gantry's lane before its duties are met. -/
def startLane (d : Demand) (available : List ElemId) (plan : PlanSite) (time : Nat) (l : Nat) : LaneWork :=
  let want := demandAspect d l
  if available.contains (.lane l) then
    let (a, held) := laneCandidate ((plan.lane l).getD (.fresh (.unavailable false))) want time
    ⟨l, .shows a, held, false⟩
  else ⟨l, .unavailable (decide (want = .closed)), false, false⟩

/-- What becomes of a merge duty at a gantry (R67, R68). -/
inductive Met where
  /-- Dropped: the lane is absent or closed there. -/
  | dropped
  /-- Discharged: the lane shows the duty's arrow. -/
  | discharged
  /-- Displaced: the lane is dark and open there, and the duty goes on. -/
  | displaced
  /-- Abandoned: it was displaced DISPLACE_MAX times already. -/
  | abandoned
  deriving DecidableEq, Repr

/-- R67 and R68: what a duty meets in its lane at a gantry; none for a lane not present. -/
def meet (d : Duty) : Option LaneValue → Met
  | none => .dropped
  | some v =>
    if v.isClosed then .dropped
    else
      match v with
      | .shows _ => .discharged
      | .unavailable _ => if d.count < Config.displaceMax then .displaced else .abandoned

/-- The value of a lane being worked on. -/
def workValue (lanes : List LaneWork) (l : Nat) : Option LaneValue :=
  (lanes.find? fun w => decide (w.position = l)).map (·.value)

/-- A lane after the duty waiting for it, if any, has been met (R67). -/
def LaneWork.afterDuty (duties : List (Nat × Duty)) (w : LaneWork) : LaneWork :=
  match duties.lookup w.position with
  | none => w
  | some d =>
    match meet d (some w.value) with
    | .discharged => { w with value := .shows d.arrow }
    | .displaced => { w with displaced := true }
    | _ => w

/-- The nearest distance from lane l to a lane of a list; none of an empty list. -/
def nearest (l : Nat) (lanes : List Nat) : Option Nat :=
  lanes.foldl (fun best m =>
    let dist := if m < l then l - m else m - l
    match best with
    | none => some dist
    | some b => some (min b dist)) none

/-- R71: whether a duty arising for lane l points toward nearside, from the lanes not closed there. -/
def pointsNear (l : Nat) (notClosed : List Nat) : Bool :=
  let near := notClosed.filter fun m => decide (m < l)
  let off := notClosed.filter fun m => decide (l < m)
  match nearest l near, nearest l off with
  | none, _ => false
  | some _, none => true
  | some x, some y =>
    if x = y then decide (off.length < near.length) else decide (x < y)

/-- R70 and R72: the duties that arise at a gantry or at EXIT from its settled lanes: merge duties by lane, and
whether a full-closure duty does. -/
def arising (origin : Nat) (lanes : List LaneWork) : List (Nat × Duty) × Bool :=
  let closed := (lanes.filter fun w => w.value.isClosed).map (·.position)
  let notClosed := (lanes.filter fun w => !w.value.isClosed).map (·.position)
  if notClosed.isEmpty then ([], !closed.isEmpty)
  else (closed.map fun l => (l, ⟨origin, pointsNear l notClosed, 0⟩), false)

/-! ## Limits (R73 to R76) -/

/-- Lead-in and steps compare V + STEP with CEILING: the value a step above, where it does not pass CEILING. -/
def stepAbove (ps : Params) (v : Nat) : Option Nat :=
  if v + paramValue ps .step ≤ paramValue ps .ceiling then some (v + paramValue ps .step) else none

/-- R73: the limit candidate of a limit-capable site, and whether its relaxation is held. -/
def limitCandidate (ps : Params) (previous : PlanElem Limit) (demand : Limit) (time : Nat) : Limit × Bool :=
  match previous.value with
  | .unavailable => (demand, false)
  | .value p =>
    if limitAtLeast demand p then (demand, false)
    else if !outOfHold previous.deadline time then (p, true)
    else
      match p with
      | none => (demand, false)
      | some v =>
        match stepAbove ps v with
        | none => (demand, false)
        | some up => (tighten demand (some up), false)

/-- R74: the limit tightened by every cap that applies. -/
def capped (ps : Params) (kind : SiteKind) (d : Demand) (merge fullClosure : Bool) (l : Limit) : Limit :=
  let l1 := if merge then tighten l (some (paramValue ps .mergeSpeed)) else l
  let l2 := if d.closed.isEmpty then l1 else tighten l1 (some (paramValue ps .closureSpeed))
  let l3 := if kind.hasShoulder && d.opening && !d.closed.contains 0 then tighten l2 (some (paramValue ps .hsSpeed))
    else l2
  if fullClosure then tighten l3 (some (paramValue ps .fullApproach)) else l3

/-- R75: the limit tightened by lead-in from the site downstream. -/
def ledIn (ps : Params) (leadIn : Option Nat) (l : Limit) : Limit :=
  match leadIn with
  | none => l
  | some v =>
    match stepAbove ps v with
    | none => l
    | some up => tighten l (some up)

/-! ## Holds (R79) -/

/-- A wall time so many seconds after the pass time. -/
def holdUntil (time seconds : Nat) : Option Nat := some (time + seconds * 1000)

/-- R79: the deadline of a lane element in the new plan. -/
def laneDeadline (ps : Params) (time : Nat) (previous : LaneElem) (new : LaneValue) : Option Nat :=
  match previous.value, new with
  | _, .unavailable _ => none
  | .unavailable _, .shows _ => holdUntil time (paramValue ps .minDwell)
  | .shows a, .shows b =>
    if a = b then previous.deadline
    else if b.weight < a.weight then holdUntil time (paramValue ps .relaxHold)
    else holdUntil time (paramValue ps .minDwell)

/-- R79: the deadline of a limit element in the new plan. -/
def limitDeadline (ps : Params) (time : Nat) (previous : PlanElem Limit) (new : Limit) : Option Nat :=
  match previous.value with
  | .unavailable => holdUntil time (paramValue ps .minDwell)
  | .value p =>
    if p = new then previous.deadline
    else if limitAtLeast new p then holdUntil time (paramValue ps .minDwell)
    else holdUntil time (paramValue ps .relaxHold)

/-- R79: the deadline of a legend element in the new plan. -/
def legendDeadline (ps : Params) (time : Nat) (previous : PlanElem Legend) (new : Legend) : Option Nat :=
  if previous.value = .value new then previous.deadline else holdUntil time (paramValue ps .legendDwell)

/-! ## Legends (R77, R78) -/

/-- The legend of higher rank. -/
def higher (x y : Legend) : Legend := if x.rank < y.rank then y else x

/-- R78: a legend and whether its relaxation is held, from the wanted legend and the previous one. -/
def settleLegend (previous : PlanElem Legend) (wanted : Legend) (time : Nat) : Legend × Bool :=
  match previous.value with
  | .unavailable => (wanted, false)
  | .value g =>
    if g.rank ≤ wanted.rank ∨ outOfHold previous.deadline time then (wanted, false) else (g, true)

/-! ## The pass (R63) -/

/-- What a pass carries from site to site (section 4.4), with the plan records settled so far, the nearest first, and
the lanes it has found UNPROTECTED as (plan index, lane). -/
structure Carry where
  duties : List (Nat × Duty)
  fullClosure : Bool
  leadIn : Option Nat
  laneClosedAhead : Bool
  carriagewayClosed : Bool
  unprotected : List (Nat × Nat)
  settled : List PlanSite
  deriving DecidableEq, Repr

/-- The lane elements of a plan record from the settled lanes of a gantry. A relaxation is reported held when the
previous value was kept (R54, log entry 10). -/
def finishLane (p : Pass) (previous : PlanSite) (w : LaneWork) : Nat × LaneElem :=
  let prev := (previous.lane w.position).getD (.fresh (.unavailable false))
  (w.position,
    { value := w.value
      deadline := laneDeadline p.params p.time prev w.value
      held := w.held && decide (prev.value = w.value)
      displaced := w.displaced
      unprotected := false })

/-- The lanes step and the fourth step at a gantry: its lanes, the duties in carry after it, the lanes marked
UNPROTECTED by abandonment, and whether a full-closure duty arises (R63, R67, R68, R70). -/
def laneStep (i : Nat) (p : Pass) (d : Demand) (available : List ElemId) (previous : PlanSite) (positions : List Nat)
    (duties : List (Nat × Duty)) : List LaneWork × List (Nat × Duty) × List (Nat × Nat) × Bool :=
  let start := positions.map (startLane d available previous p.time)
  let lanes := start.map (LaneWork.afterDuty duties)
  let waiting := (duties.filter fun (l, duty) => decide (meet duty (workValue start l) = .displaced)).map
    fun (l, duty) => (l, { duty with count := duty.count + 1 })
  let abandoned := (duties.filter fun (l, duty) => decide (meet duty (workValue start l) = .abandoned)).map
    fun (l, duty) => (duty.origin, l)
  let (new, full) := arising i lanes
  let kept := waiting.filter fun (l, _) => (new.lookup l).isNone
  (lanes, kept ++ new, abandoned, full)

/-- EXIT's part of a pass (R65, R70): its lanes at their demand aspects, its limit at LD, the duties it raises. -/
def settleExit (n : Nat) (boundary : Option Boundary) (p : Pass) : Carry :=
  let d := p.demand.getD n ⟨none, [], false, none, none⟩
  let positions := (boundary.map (·.positions)).getD []
  let lanes : List LaneWork := positions.map fun l => ⟨l, .shows (demandAspect d l), false, false⟩
  let (new, full) := arising n lanes
  { duties := new
    fullClosure := full
    leadIn := d.limit
    laneClosedAhead := false
    carriagewayClosed := false
    unprotected := []
    settled := [{ limit := some (.fresh (.value d.limit))
                  lanes := lanes.map fun w => (w.position, .fresh w.value)
                  legend := none }] }

/-- One site's part of a pass: lanes, limit, legend, and the duties put into carry (R63). -/
def settleSite (p : Pass) (i : Nat) (r : SiteRecord) (c : Carry) : Carry :=
  let d := p.demand.getD i ⟨none, [], false, none, none⟩
  let available := p.available.getD i []
  let previous := planSite p.plan i
  -- lanes
  let isGantry := decide (r.kind.positions ≠ [])
  let (lanes, duties, abandoned, arisen) := laneStep i p d available previous r.kind.positions c.duties
  let merge := lanes.any fun w => w.value.isMerge
  -- limit
  let capable := r.limitCapable available
  let discharge := capable && c.fullClosure
  let prevLimit := previous.limit.getD (.fresh .unavailable)
  let (candidate, held) := limitCandidate p.params prevLimit d.limit p.time
  let limit := ledIn p.params c.leadIn (capped p.params r.kind d merge discharge candidate)
  let limitElem : PlanElem Limit :=
    if capable then ⟨.value limit, limitDeadline p.params p.time prevLimit limit, held⟩ else .fresh .unavailable
  -- legend
  let lca := c.laneClosedAhead || merge
  let cc := c.carriagewayClosed || discharge
  let messageCapable := r.messageCapable available
  let prevLegend := previous.legend.getD (.fresh .unavailable)
  let wanted := higher (higher (d.legend.getD .blank) (if lca then .laneClosedAhead else .blank))
    (if cc then .carriagewayClosed else .blank)
  let (legend, legendHeld) := settleLegend prevLegend wanted p.time
  let legendElem : PlanElem Legend :=
    if messageCapable then ⟨.value legend, legendDeadline p.params p.time prevLegend legend, legendHeld⟩
    else .fresh .unavailable
  { duties := if isGantry then duties else c.duties
    fullClosure := (c.fullClosure && !discharge) || arisen
    leadIn := if capable then limit else c.leadIn
    laneClosedAhead := lca && !messageCapable
    carriagewayClosed := cc && !messageCapable
    unprotected := c.unprotected ++ (if isGantry then abandoned else [])
    settled := { limit := if r.kind.hasLimit then some limitElem else none
                 lanes := lanes.map (finishLane p previous)
                 legend := if r.sign then some legendElem else none } :: c.settled }

/-- A lane marked UNPROTECTED where a list of (plan index, lane) names it. -/
def markUnprotected (marks : List (Nat × Nat)) (i : Nat) (s : PlanSite) : PlanSite :=
  { s with lanes := s.lanes.map fun (l, e) => (l, { e with unprotected := decide ((i, l) ∈ marks) }) }

/-- The pass: EXIT, then the sites from N-1 down to 0; duties still waiting at the end leave their origin lanes
UNPROTECTED (R63, R68). The result is the new plan, EXIT last. -/
def runPass (c : Store) (p : Pass) : List PlanSite :=
  let out := c.configured.foldr (fun (i, r) carry => settleSite p i r carry)
    (settleExit c.siteCount c.boundary p)
  let marks := out.unprotected ++ out.duties.map fun (l, duty) => (duty.origin, l)
  out.settled.mapIdx (markUnprotected marks)

/-! ## Publication (R56) -/

/-- What of a lane element makes two plans differ: its value and its two marks, not its deadline or report. -/
structure VisibleLane where
  position : Nat
  value : LaneValue
  displaced : Bool
  unprotected : Bool
  deriving DecidableEq, Repr

/-- What of a plan record makes two plans differ (R56). -/
structure VisibleSite where
  limit : Option (Shown Limit)
  lanes : List VisibleLane
  legend : Option (Shown Legend)
  deriving DecidableEq, Repr

/-- The part of a plan record that R56 compares. -/
def PlanSite.visible (s : PlanSite) : VisibleSite where
  limit := s.limit.map (·.value)
  lanes := s.lanes.map fun (l, e) => ⟨l, e.value, e.displaced, e.unprotected⟩
  legend := s.legend.map (·.value)

/-- Whether two plans differ by R56. -/
def plansDiffer (x y : List PlanSite) : Bool := decide (x.map PlanSite.visible ≠ y.map PlanSite.visible)

/-- The epoch number after one: 1 follows 65535 (R56). -/
def nextEpoch (n : Nat) : Nat := if Config.counterMax ≤ n then 1 else n + 1

/-- The relaxation-held reports of a pass that publishes nothing, taken into the current plan (R56). -/
def takeReports (current new : PlanSite) : PlanSite where
  limit := current.limit.map fun e => { e with held := (new.limit.map (·.held)).getD e.held }
  lanes := current.lanes.map fun (l, e) => (l, { e with held := ((new.lane l).map (·.held)).getD e.held })
  legend := current.legend.map fun e => { e with held := (new.legend.map (·.held)).getD e.held }

/-- Every hold deadline of a plan record. -/
def PlanSite.deadlines (s : PlanSite) : List Nat :=
  (s.limit.bind (·.deadline)).toList ++ (s.lanes.filterMap fun (_, e) => e.deadline) ++
    (s.legend.bind (·.deadline)).toList

/-- Whether a hold deadline of the current plan has run out since deadlines were last noticed (R62). -/
def Evaluator.holdDue (e : Evaluator) (now : Nat) : Bool :=
  (e.plan.flatMap PlanSite.deadlines).any fun d => decide (e.holdSeen < d ∧ d ≤ now)

/-! ## Adoption (R165) -/

/-- A confirmed lane code as an adopted aspect: OPEN when BLANK or none. -/
def adoptedAspect : Option ElemVal → Aspect
  | some (.lane .blank) => .opened
  | some (.lane a) => a
  | _ => .opened

/-- R165: the adopted plan record of a site. -/
def SiteRecord.adopt (r : SiteRecord) (confirmed : Image) (available : List ElemId) (d : Demand) (deadline : Nat) :
    PlanSite where
  limit :=
    if r.kind.hasLimit then
      some (if r.limitCapable available then
        ⟨.value (match confirmed.lookup .limit with
          | some (.limit l) => l
          | _ => none), some deadline, false⟩
        else .fresh .unavailable)
    else none
  lanes := r.kind.positions.map fun l =>
    (l, if available.contains (.lane l) then
        ⟨.shows (adoptedAspect (confirmed.lookup (.lane l))), some deadline, false, false, false⟩
      else .fresh (.unavailable (decide (demandAspect d l = .closed))))
  legend :=
    if r.sign then
      some (if r.messageCapable available then
        ⟨.value (match confirmed.lookup .legend with
          | some (.legend g) => g
          | _ => .blank), some deadline, false⟩
        else .fresh .unavailable)
    else none

/-- EXIT's record in an adopted plan: limit and lanes from its demand, as R65 sets them. -/
def Boundary.adopt (b : Boundary) (d : Demand) : PlanSite where
  limit := some (.fresh (.value d.limit))
  lanes := b.positions.map fun l => (l, .fresh (.shows (demandAspect d l)))
  legend := none

/-- R165: the plan adopted from the confirmed images, the availability and the demand as they stand. -/
def State.adoptedPlan (s : State) : List PlanSite :=
  let deadline := s.now + s.param .minDwell * 1000
  (s.store.configured.map fun (i, r) =>
    r.adopt ((s.delivery.sites[i]?.map (·.confirmed)).getD []) (s.evaluator.available.getD i [])
      (s.table.demandOf i) deadline) ++
  (s.store.boundary.map fun b => b.adopt (s.table.demandOf s.store.siteCount)).toList

/-- The plan replaced by one of epoch 0 (R55): the pending flag is set and a pass that is running is overtaken (R61). -/
def State.replacePlan (s : State) (plan : List PlanSite) : State :=
  { s with evaluator :=
      { s.evaluator with
        plan := plan
        epoch := 0
        pending := true
        running := s.evaluator.running.map fun p => { p with overtaken := true } } }

/-! ## The quiet check (R166) -/

/-- Whether a lane element lets the part leave LIVE: no arrow, and CLOSED only as a standing shoulder closure. -/
def quietLane (d : Demand) (l : Nat) (e : LaneElem) : Bool :=
  match e.value with
  | .unavailable _ => true
  | .shows a =>
    !a.isMerge && (decide (a ≠ .closed) || (decide (l = 0) && !d.opening && !d.closed.contains 0))

/-- R166: whether the current plan is quiet; EXIT is not judged. -/
def State.planQuiet (s : State) : Bool :=
  (List.range s.store.siteCount).all fun i =>
    (planSite s.evaluator.plan i).lanes.all fun (l, e) => quietLane (s.table.demandOf i) l e

end Sys2Proof.Machine
end

