-- ==== Sys2Proof/Machine/Ops.lean ====
section
/-! DEFINITION. What every transaction on a control port shares: the liveness restart (R45 to R47), the dispatch of a
good frame with its overruns (R173, R174), the judgement of authority and form (R43, R177), and the placing of the
reply. -/

namespace Sys2Proof.Machine

/-! ## Liveness (R44 to R47) -/

/-- KEEP_WINDOW of a port. -/
def keepWindowId : Port → ParamId
  | .a => .keepWindowA
  | .b => .keepWindowB
  | .c => .keepWindowC

/-- The wall time one current KEEP_WINDOW of the port from now. -/
def State.keepDeadline (s : State) (p : Port) : Nat := s.now + s.param (keepWindowId p) * 1000

/-- The port ACTIVE with its keepalive deadline one KEEP_WINDOW from now (R45). -/
def State.restartKeepalive (s : State) (p : Port) : State :=
  s.setPort p { s.port p with liveness := .active, deadline := some (s.keepDeadline p) }

/-- Whether an authority owns entries: FIELD or SUPERVISORY (R43). -/
def Authority.owns (a : Authority) : Bool := decide (2 ≤ a.rank)

/-- R47: the return of a SILENT port: ACTIVE, its FROZEN entries ACTIVE, the demand derived, PORT at the others. -/
def State.returnPort (s : State) (p : Port) : State :=
  let s1 := s.restartKeepalive p
  let s2 := if (s.port p).authority.owns then s1.changeTable (s1.table.thaw p) else s1
  s2.notifyOthers p .port

/-- R45: what a good frame does to the liveness of its port, at the end of its reception. -/
def State.goodFrameTaken (s : State) (p : Port) : State :=
  match (s.port p).liveness with
  | .active => s.restartKeepalive p
  | .silent => s.returnPort p

/-! ## Replies -/

/-- The outcome of a command: its reason code and the payload of its reply. -/
abbrev Answer := Reason × List Byte

/-- A command's code plus 80 (section 10.1). -/
def replyCode (code : Byte) : Byte := code + 0x80

/-- The bytes of a reply frame (section 10.1, R172). -/
def Reply.frame (r : Reply) : List Byte :=
  let covered := byte r.payload.length :: r.cmd :: r.seq :: byte r.reason.code :: r.payload
  covered ++ crcBytes covered

/-- The empty reply (R174). -/
def emptyReply : List Byte :=
  let covered : List Byte := [0, 0, 0, 0]
  covered ++ crcBytes covered

/-- The reply of a command placed: the command slot empties, READY rises and the port is IDLE (R173). -/
def State.placeReply (s : State) (p : Port) (answer : Answer) : State :=
  let r := s.port p
  match r.command with
  | none => s
  | some c => s.setPort p { r with command := none, reply := some ⟨replyCode c.code, c.seq, answer.1, answer.2⟩ }

/-! ## Dispatch (R173, R177) -/

/-- The dispatch of a good frame into an IDLE port: an unread reply is lost and counted as an overrun, the command
enters the command slot and the commands counter rises (R173, R174, R178). -/
def PortRec.dispatch (r : PortRec) (code seq : Byte) : PortRec :=
  let r1 := if r.reply.isSome then r.overran else r
  { r1 with reply := none, command := some ⟨code, seq⟩, commands := countUp r1.commands }

/-- What a command does once it is permitted and well formed: the state it leaves, and its answer, or none while it
goes on executing (a COMMIT under validation). -/
abbrev CommandBody := State → State × Option Answer

/-- A command refused: nothing changes and the reply carries no payload. -/
def refuse (r : Reason) (s : State) : State × Option Answer := (s, some (r, []))

/-- A command answered. -/
def answer (r : Reason) (payload : List Byte) (s : State) : State × Option Answer := (s, some (r, payload))

/-- A command carried out and its reply placed. Only a COMMIT waits for a later event: every other command is answered in
its own step (R45; log entry 38). -/
def State.carryOut (s : State) (p : Port) (body : CommandBody) : State :=
  match body s with
  | (s1, none) => s1
  | (s1, some a) => s1.placeReply p a

/-- R177's judgement of a known command: authority first (R43), then the form its LEN allows (R175), then its own
rule. -/
def judged (p : Port) (needed : Authority) (form : Bool) (body : CommandBody) : CommandBody := fun s =>
  if (s.port p).authority.rank < needed.rank then refuse .notPermitted s
  else if !form then refuse .invalid s
  else body s

/-- A good frame taken on a port (R45, R173): no frame is received on a DISABLED port or before readiness (R42, R162);
liveness is restarted before dispatch; an EXECUTING port discards the frame as an overrun; an IDLE port executes its
command. -/
def State.takeFrame (s : State) (p : Port) (code seq : Byte) (body : CommandBody) : State :=
  if s.hears p then
    let s1 := s.goodFrameTaken p
    if (s1.port p).executing then s1.setPort p (s1.port p).overran
    else (s1.setPort p ((s1.port p).dispatch code seq)).carryOut p body
  else s

end Sys2Proof.Machine
end

