-- ==== Sys2Proof/Machine/Operands.lean ====
section
/-! DEFINITION. The operand forms: the payloads of the command frames (R174's table of REQUEST, R175) and the frames
received on a field line (section 6.2, R110). -/

namespace Sys2Proof.Machine

/-! ## REQUEST (section 10.3) -/

/-- A byte of a payload, as a number. -/
def at' (bs : List Byte) (i : Nat) : Nat := (bs.getD i 0).toNat

/-- The number two bytes of a payload spell, high byte first. -/
def word (bs : List Byte) (i : Nat) : Nat := at' bs i * 256 + at' bs (i + 1)

/-- The lane positions a closure byte names, ascending: position 0 in the lowest bit. -/
def lanesOfBits (n : Nat) : List Nat := (List.range 6).filter fun l => n.testBit l

/-- The fields of a REQUEST as its payload carries them. -/
structure RequestFields where
  tag : Nat
  first : Nat
  last : Nat
  parts : Nat
  limit : Nat
  closure : Nat
  legend : Nat
  policy : Nat
  expiry : Nat
  deriving DecidableEq, Repr

/-- The ten bytes of a REQUEST. -/
def requestFields (bs : List Byte) : RequestFields where
  tag := at' bs 0
  first := at' bs 1
  last := at' bs 2
  parts := at' bs 3
  limit := at' bs 4
  closure := at' bs 5
  legend := at' bs 6
  policy := at' bs 7
  expiry := word bs 8

/-- Whether a part is present: one bit each from the lowest, limit, closure, legend, shoulder-open. -/
def RequestFields.has (r : RequestFields) (part : Nat) : Bool := r.parts.testBit part

/-- R21: whether a site range passes its checks in a section of n sites. -/
def rangeGood (n first last : Nat) : Bool :=
  decide (last ≤ Config.exitIndex ∧ first ≤ last ∧ (first + 1 ≤ n ∨ first = Config.exitIndex))

/-- R23: a range end from N to 31 becomes N-1. -/
def clampLast (n last : Nat) : Nat := if n ≤ last ∧ last < Config.exitIndex then n - 1 else last

/-- R22: whether the parts of a REQUEST pass their checks. -/
def RequestFields.partsGood (r : RequestFields) : Bool :=
  decide (0 < r.parts ∧ r.parts < 16) &&
  (!r.has 1 || decide (0 < r.closure ∧ r.closure < 64)) &&
  (!r.has 2 || decide (1 ≤ r.legend ∧ r.legend ≤ 7)) &&
  decide (r.policy ≤ 1)

/-- R23: a limit part rounded down to a multiple of 10, then brought into 20 to 120. -/
def clampLimit (v : Nat) : Nat := max 20 (min 120 (v / 10 * 10))

/-- The lapse policy the REQUEST carries. -/
def RequestFields.policySent (r : RequestFields) : LapsePolicy := if r.policy = 0 then .hold else .drop

/-- The stored form of a REQUEST that passed its checks (R23). -/
def RequestFields.ask (r : RequestFields) (n : Nat) : Ask where
  first := r.first
  last := clampLast n r.last
  limit := if r.has 0 then some (clampLimit r.limit) else none
  closure := if r.has 1 then some (lanesOfBits r.closure) else none
  legend := if r.has 2 then Legend.ofRank r.legend else none
  shoulderOpen := r.has 3
  policy := if r.has 1 then .hold else r.policySent

/-- The clamp marks of R23, one bit each from the lowest: RANGE, LIMIT, POLICY. -/
def RequestFields.marks (r : RequestFields) (n : Nat) : Nat :=
  (if clampLast n r.last ≠ r.last then 1 else 0) +
  (if r.has 0 ∧ clampLimit r.limit ≠ r.limit then 2 else 0) +
  (if r.has 1 ∧ r.policySent = .drop then 4 else 0)

/-- The expiry deadline of a REQUEST taken at `now`: none for 0 (R23). -/
def RequestFields.deadline (r : RequestFields) (now : Nat) : Option Nat :=
  if r.expiry = 0 then none else some (now + r.expiry * 1000)

/-! ## Geometry records (R2, R3, R175) -/

/-- What a record place of a geometry write holds: the unused marker, a valid record, or an invalid one. -/
inductive Placed (α : Type) where
  | unused
  | record (r : α)
  | bad
  deriving DecidableEq, Repr

/-- The slot's new content; none of it is used for an invalid record. -/
def Placed.content {α : Type} : Placed α → Option α
  | .record r => some r
  | _ => none

/-- Whether a record place is valid. -/
def Placed.good {α : Type} : Placed α → Bool
  | .bad => false
  | _ => true

/-- A yes or no byte; none for any other value. -/
def yesNo : Nat → Option Bool
  | 0 => some false
  | 1 => some true
  | _ => none

/-- The kind of a site record with the fields it alone has (R2, R175). -/
def siteKindOf (kind running shoulder : Nat) : Option SiteKind :=
  match kind with
  | 0 => if 1 ≤ running ∧ running ≤ 5 then (yesNo shoulder).map (.gantry running) else none
  | 1 => if running = 255 ∧ shoulder = 255 then some .verge else none
  | 2 => if running = 255 ∧ shoulder = 255 then some .message else none
  | _ => none

/-- The eight bytes of a site record (R175) judged by R2. -/
def parseSite (bs : List Byte) : Placed SiteRecord :=
  if at' bs 0 = 255 then .unused else
  match siteKindOf (at' bs 0) (at' bs 1) (at' bs 2), yesNo (at' bs 3), LineId.ofCode (at' bs 6) with
  | some kind, some sign, some line =>
    if (kind = .message → sign = true) ∧ 100 ≤ word bs 4 ∧ word bs 4 ≤ 5000 ∧ 1 ≤ at' bs 7 ∧ at' bs 7 ≤ 63
    then .record ⟨kind, sign, word bs 4, line, at' bs 7⟩
    else .bad
  | _, _, _ => .bad

/-- The loop kind of a byte. -/
def loopOfCode : Nat → Option LoopKind
  | 0 => some .single
  | 1 => some .double
  | _ => none

/-- The effective length of a station record: FF for absent, which stores 60 dm (R3). -/
def effectiveOf (n : Nat) : Option Nat :=
  if n = 255 then some 60 else if 30 ≤ n ∧ n ≤ 120 then some n else none

/-- The trims of a station record: 0 dm for every lane when the list is absent (R3). -/
def trimsOf (present : Nat) (bs : List Byte) : Option (List Int) :=
  match present with
  | 0 => some (bs.map fun _ => 0)
  | 1 => if (bs.map signedByte).all fun t => decide (-7 ≤ t ∧ t ≤ 7) then some (bs.map signedByte) else none
  | _ => none

/-- The 21 bytes of a station record (R175) judged by R3. -/
def parseStation (bs : List Byte) : Placed StationRecord :=
  if at' bs 0 = 255 then .unused else
  let count := at' bs 6
  let lanes := ((bs.drop 7).take count).map (·.toNat)
  match LineId.ofCode (at' bs 3), loopOfCode (at' bs 5), effectiveOf (at' bs 13),
      trimsOf (at' bs 14) ((bs.drop 15).take count) with
  | some line, some loop, some effective, some trims =>
    if at' bs 0 ≤ 31 ∧ word bs 1 ≤ 5000 ∧ 1 ≤ at' bs 4 ∧ at' bs 4 ≤ 63 ∧ 1 ≤ count ∧ count ≤ 6 ∧
        lanes.all (fun l => decide (l ≤ 5))
    then .record ⟨at' bs 0, word bs 1, line, at' bs 4, loop, lanes, effective, trims⟩
    else .bad
  | _, _, _, _ => .bad

/-- A payload cut into records of `size` bytes; `fuel` bounds their number. -/
def chunks (size : Nat) : Nat → List Byte → List (List Byte)
  | 0, _ => []
  | fuel + 1, bs => if bs.isEmpty then [] else bs.take size :: chunks size fuel (bs.drop size)

/-- The records of a geometry write: what follows the start index, `size` bytes each. -/
def recordsOf (size : Nat) (payload : List Byte) : List (List Byte) := chunks size payload.length (payload.drop 1)

/-- Whether a geometry write's LEN is a start index and whole records (R175). -/
def recordsForm (size : Nat) (payload : List Byte) : Bool :=
  decide (1 ≤ payload.length ∧ (payload.length - 1) % size = 0)

/-- The boundary record of a BOUNDARY_WRITE (R4, R175). -/
def parseBoundary (bs : List Byte) : Option Boundary :=
  if 1 ≤ at' bs 0 ∧ at' bs 0 ≤ 5 then (yesNo (at' bs 1)).map fun sh => ⟨at' bs 0, sh⟩ else none

/-! ## PARAM_SET (R12, R175) -/

/-- The (identity, value) pairs of a PARAM_SET. -/
def pairsOf (payload : List Byte) : List (Nat × Nat) :=
  (chunks 3 payload.length payload).map fun c => (at' c 0, word c 1)

/-- R12: the position of the first pair that names no identity or one that an earlier pair named, `seen` being the
earlier identities. -/
def offendingPair : List Nat → Nat → List (Nat × Nat) → Option Nat
  | _, _, [] => none
  | seen, k, (i, _) :: rest =>
    if (ParamId.ofCode i).isNone || seen.contains i then some k else offendingPair (i :: seen) (k + 1) rest

/-! ## Field line frames (section 6.2, R110) -/

/-- SYNC, and its inverse as R116 sees it. -/
def syncByte : Byte := 0x7E
def inverseSync : Byte := 0x81
/-- The KIND bytes. -/
def kindPoll : Byte := 0x10
def kindSet : Byte := 0x11
def kindState : Byte := 0x20
def kindData : Byte := 0x21

/-- What a STATE carries: boot number, applied epoch byte, the displayed values, and the element faults. -/
structure StateReply where
  boot : Nat
  applied : Nat
  limit : Limit
  lanes : List Aspect
  legend : Legend
  speedFault : DisplayFault
  laneFaults : List DisplayFault
  messageFault : DisplayFault
  deriving DecidableEq, Repr

/-- What a DATA carries for one lane. -/
structure LaneData where
  totals : LaneTotals
  fault : LoopFault
  deriving DecidableEq, Repr

/-- What a DATA carries: boot number, timestamp, and its lanes in order. -/
structure DataReply where
  boot : Nat
  timestamp : Nat
  lanes : List LaneData
  deriving DecidableEq, Repr

/-- A valid reply of a unit. -/
inductive FieldReply where
  | state (r : StateReply)
  | data (r : DataReply)
  deriving DecidableEq, Repr

/-- The boot number of a reply. -/
def FieldReply.boot : FieldReply → Nat
  | .state r => r.boot
  | .data r => r.boot

/-- The values of a list of codes; none if some code is outside its table. -/
def decodeAll {α : Type} (f : Nat → Option α) : List Byte → Option (List α)
  | [] => some []
  | b :: bs =>
    match f b.toNat, decodeAll f bs with
    | some x, some xs => some (x :: xs)
    | _, _ => none

/-- The 18 payload bytes of a STATE; none when LEN or a code is outside its table (R110). -/
def parseState (bs : List Byte) : Option StateReply :=
  if bs.length ≠ 18 then none else
  match limitOfCode (at' bs 2), decodeAll Aspect.ofCode ((bs.drop 3).take 6), Legend.ofRank (at' bs 9),
      DisplayFault.ofCode (at' bs 10), decodeAll DisplayFault.ofCode ((bs.drop 11).take 6),
      DisplayFault.ofCode (at' bs 17) with
  | some limit, some lanes, some legend, some speed, some laneFaults, some message =>
    some ⟨at' bs 0, at' bs 1, limit, lanes, legend, speed, laneFaults, message⟩
  | _, _, _, _, _, _ => none

/-- The lane fault of a DATA byte. -/
def LoopFault.ofCode : Nat → Option LoopFault
  | 0 => some .ok
  | 1 => some .loopOpen
  | _ => none

/-- The lanes of a DATA payload, 11 bytes each (section 6.2). -/
def parseLanes : Nat → List Byte → Option (List LaneData)
  | 0, _ => some []
  | n + 1, bs =>
    match LoopFault.ofCode (at' bs 10), parseLanes n (bs.drop 11) with
    | some f, some rest => some (⟨⟨word bs 0, ofBytes ((bs.drop 2).take 4), ofBytes ((bs.drop 6).take 4)⟩, f⟩ :: rest)
    | _, _ => none

/-- The payload of a DATA; none when lane count, LEN or a code is outside its table (R110). -/
def parseData (bs : List Byte) : Option DataReply :=
  let count := at' bs 5
  if 6 ≤ bs.length ∧ count ≤ 8 ∧ bs.length = 6 + 11 * count then
    (parseLanes count (bs.drop 6)).map fun lanes => ⟨at' bs 0, ofBytes ((bs.drop 1).take 4), lanes⟩
  else none

/-- What a reply window makes of the bytes of a frame that began in it (R110, R113, R115, R116). -/
inductive Verdict where
  /-- A valid reply of the unit addressed. -/
  | valid (r : FieldReply)
  /-- The right address and a bad check. -/
  | badCheck
  /-- The right address, a good check, and a fault in kind, length or codes. -/
  | malformed
  /-- The frame ended before its last CRC byte. -/
  | incomplete
  /-- Another address, whatever the check. -/
  | wrongAddress
  /-- A first character of 81. -/
  | inverted
  /-- No SYNC: characters discarded without being counted. -/
  | discarded
  deriving DecidableEq, Repr

/-- The reply the payload carries for a unit: STATE for a site unit, DATA for a station unit (R110). -/
def parseReply (owner : UnitOwner) (kind : Byte) (payload : List Byte) : Option FieldReply :=
  match owner with
  | .sign _ => if kind = kindState then (parseState payload).map .state else none
  | .outstation _ => if kind = kindData then (parseData payload).map .data else none

/-- R110's judgement of a frame, from SYNC on, against the unit addressed. -/
def judgeReply (owner : UnitOwner) (address : Nat) (frame : List Byte) : Verdict :=
  match frame with
  | [] => .discarded
  | sync :: rest =>
    if sync = inverseSync then .inverted
    else if sync ≠ syncByte then .discarded
    else
      match rest with
      | [] => .incomplete
      | addr :: body =>
        if addr.toNat ≠ address then .wrongAddress
        else
          match body with
          | kind :: len :: tail =>
            let n := len.toNat
            if tail.length < n + 2 then .incomplete
            else if crcBytes (len :: tail.take n) ≠ (tail.drop n).take 2 then .badCheck
            else
              match parseReply owner kind (tail.take n) with
              | some r => .valid r
              | none => .malformed
          | _ => .incomplete

/-! ## SET payloads and frames sent (section 6.2, R109) -/

/-- The value an image gives an element. -/
def Image.value (m : Image) (e : ElemId) : Option ElemVal := m.lookup e

/-- The limit code of an image, 0 where it holds none. -/
def Image.limitByte (m : Image) : Byte :=
  match m.value .limit with
  | some (.limit l) => byte (limitCode l)
  | _ => 0

/-- The lane code of a position in an image, BLANK where it holds none. -/
def Image.laneByte (m : Image) (l : Nat) : Byte :=
  match m.value (.lane l) with
  | some (.lane a) => byte a.code
  | _ => 0

/-- The legend code of an image, 0 where it holds none. -/
def Image.legendByte (m : Image) : Byte :=
  match m.value .legend with
  | some (.legend g) => byte g.rank
  | _ => 0

/-- The nine payload bytes of a SET (R109). -/
def setPayload (m : Image) (epoch : Nat) : List Byte :=
  byte epoch :: m.limitByte :: ((List.range 6).map m.laneByte ++ [m.legendByte])

/-- A frame to a unit: SYNC, ADDR, KIND, LEN, payload and the check over LEN and payload (section 6.2). -/
def fieldFrame (address : Nat) (kind : Byte) (payload : List Byte) : List Byte :=
  let covered := byte payload.length :: payload
  syncByte :: byte address :: kind :: (covered ++ crcBytes covered)

/-- A frame's bytes on the wire: complemented in the INVERTED sense (R109). -/
def onWire (sense : Sense) (frame : List Byte) : List Byte :=
  match sense with
  | .normal => frame
  | .inverted => frame.map fun b => ~~~b

end Sys2Proof.Machine
end

