-- ==== Sys2Proof/Machine/UnitOps.lean ====
section
/-! DEFINITION. The unit table's records: effective faults and availability (R136), boot numbers (R132), fault codes and
mismatch marks (R133 to R135), and the unit state machine (R128 to R130). -/

namespace Sys2Proof.Machine

/-! ## Elements -/

/-- The effective fault of an element: MISMATCH while marked, the reported fault otherwise (section 7.1). -/
def ElemRec.effective (e : ElemRec) : EffectiveFault :=
  match e.mark with
  | .marked _ => .mismatch
  | .clear =>
    match e.reported with
    | none => .unknown
    | some f => .reported f

/-- Whether a unit is in contact: UP or SUSPECT. -/
def UnitState.inContact : UnitState → Bool
  | .up => true
  | .suspect => true
  | _ => false

/-- R136: whether an element is available with its unit in this state. -/
def ElemRec.judge (st : UnitState) (e : ElemRec) : Bool :=
  st.inContact &&
    match e.effective with
    | .reported .ok => true
    | .reported .degraded => true
    | _ => false

/-- Every element's availability judged afresh (R136). -/
def UnitRec.judged (u : UnitRec) : UnitRec :=
  { u with elements := u.elements.map fun e => { e with available := e.judge u.state } }

/-- The elements held as available. -/
def UnitRec.availableElements (u : UnitRec) : List ElemId := (u.elements.filter (·.available)).map (·.name)

/-- What of a unit's record sets the UNIT notice when it changes (R139). -/
def UnitRec.noticed (u : UnitRec) : UnitState × List EffectiveFault := (u.state, u.elements.map (·.effective))

/-- The record a unit takes at COMMIT (R125). -/
def UnitDesc.record (d : UnitDesc) (elements : List ElemId) : UnitRec where
  owner := d.owner
  line := d.line
  address := d.address
  state := .probing
  good := 0
  miss := 0
  boot := none
  elements := elements.map fun e => ⟨e, none, .clear, false⟩
  misses := 0
  restarts := 0

/-! ## What a reply does to a record -/

/-- Every mismatch mark cleared (R126, R132). -/
def UnitRec.clearMarks (u : UnitRec) : UnitRec :=
  { u with elements := u.elements.map fun e => { e with mark := .clear } }

/-- Whether a reply of this boot number is marked restarted (R132). -/
def UnitRec.restartedBy (u : UnitRec) (boot : Nat) : Bool :=
  match u.boot with
  | none => false
  | some b => decide (b ≠ boot)

/-- Step 1 of R127: the boot number judged (R132). -/
def UnitRec.takeBoot (u : UnitRec) (boot : Nat) : UnitRec :=
  let u1 := { u with boot := some boot }
  if u.restartedBy boot then { u1.clearMarks with restarts := countUp u.restarts } else u1

/-- The fault code a STATE carries for an element (R133). -/
def StateReply.faultOf (r : StateReply) : ElemId → DisplayFault
  | .limit => r.speedFault
  | .lane l => r.laneFaults.getD l .ok
  | .legend => r.messageFault

/-- An element takes its reported fault; its mark is cleared when the code differs from the one stored with it (R135). -/
def ElemRec.report (e : ElemRec) (f : DisplayFault) : ElemRec :=
  { e with
    reported := some f
    mark := match e.mark with
      | .clear => .clear
      | .marked stored => if stored = some f then .marked stored else .clear }

/-- Step 2 of R127: the reported faults of a STATE taken (R133, R135); a DATA has none. -/
def UnitRec.takeFaults (u : UnitRec) : FieldReply → UnitRec
  | .state r => { u with elements := u.elements.map fun e => e.report (r.faultOf e.name) }
  | .data _ => u

/-- Step 3 of R127 for a good reply (R128 to R130). -/
def UnitRec.goodReply (u : UnitRec) : UnitRec :=
  match u.state with
  | .absent => u
  | .probing =>
    if Config.probeGood ≤ u.good + 1 then { u with state := .up, good := 0 } else { u with good := u.good + 1 }
  | .up => u
  | .suspect => { u with state := .up, miss := 0 }
  | .lost => { u with state := .probing, good := 1 }

/-- Step 3 of R127 for a miss, which its counter counts in every state (R128 to R130, R140). -/
def UnitRec.missed (u : UnitRec) : UnitRec :=
  let u1 := { u with misses := countUp u.misses }
  match u.state with
  | .absent => u
  | .probing => { u1 with state := .lost, good := 0 }
  | .up => { u1 with state := .suspect, miss := 1 }
  | .suspect =>
    if Config.missLimit ≤ u.miss + 1 then { u1 with state := .lost, miss := 0 } else { u1 with miss := u.miss + 1 }
  | .lost => u1

/-- The report that the unit's line jammed (R131). -/
def UnitRec.lineJammed (u : UnitRec) : UnitRec :=
  match u.state with
  | .probing => { u with good := 0 }
  | .up => { u with state := .suspect, miss := 0 }
  | _ => u

/-- The report that the jam continues (R131). -/
def UnitRec.jamContinued (u : UnitRec) : UnitRec :=
  match u.state with
  | .absent => u
  | .lost => u
  | _ => { u with state := .lost, good := 0, miss := 0 }

/-! ## The table, and the availability it hands -/

/-- A unit record by its slot. -/
def State.unit (s : State) (i : Nat) : Option UnitRec := s.units[i]?

/-- The state of a site's sign unit; the sign of site i is slot i of the unit list (R10, R125). -/
def State.signState (s : State) (i : Nat) : UnitState :=
  match s.unit i with
  | none => .absent
  | some u => u.state

/-- The available elements of a site as the evaluator is told them (R57). -/
def Evaluator.hear (e : Evaluator) (site : Nat) (available : List ElemId) : Evaluator :=
  { e with available := e.available.set site available, pending := true }

/-- A unit's record stored with its elements judged; a changed availability is handed to the evaluator, which marks
itself pending (R136, R57). -/
def State.storeUnit (s : State) (i : Nat) (u : UnitRec) : State :=
  let u1 := u.judged
  let s1 := { s with units := s.units.set i u1 }
  match u.owner with
  | .sign site =>
    if u1.availableElements = u.availableElements then s1
    else { s1 with evaluator := s1.evaluator.hear site u1.availableElements }
  | .outstation _ => s1

/-! ## Mismatch reports (R134) -/

/-- Whether a mismatch report on some plan elements names this element record; a GANTRY's limit names its running
lanes. -/
def namedBy (kind : SiteKind) (reported : List ElemId) (name : ElemId) : Bool :=
  reported.contains name ||
    match kind, name with
    | .gantry _ _, .lane l => decide (1 ≤ l) && reported.contains .limit
    | _, _ => false

/-- The marks a mismatch report sets, each with the reported fault that stands (R134). -/
def UnitRec.markMismatch (kind : SiteKind) (reported : List ElemId) (u : UnitRec) : UnitRec :=
  { u with elements := u.elements.map fun e =>
      if namedBy kind reported e.name then { e with mark := .marked e.reported } else e }

/-- R134: delivery's report that elements of a site's sign disagreed twice. -/
def State.reportMismatch (s : State) (site : Nat) (reported : List ElemId) : State :=
  match s.unit site, s.store.site site with
  | some u, some r =>
    let u1 := u.markMismatch r.kind reported
    let s1 := s.storeUnit site u1
    if u1.noticed = u.noticed then s1 else s1.notifyAll .unit
  | _, _ => s

end Sys2Proof.Machine
end

