-- ==== Sys2Proof/Machine/DeliveryOps.lean ====
section
/-! DEFINITION. The delivery controller: images and differing elements (R143 to R145), the forming, release,
confirmation and abandonment of parts (R146 to R154), epochs and completion (R155, R156), and its part in the changes
of mode and in RESTART (R157 to R159). -/

namespace Sys2Proof.Machine

/-! ## Access -/

/-- The part of one kind. -/
def DeliverySite.part (d : DeliverySite) : PartKind → Option Part
  | .tightening => d.tightening
  | .relaxing => d.relaxing
  | .darkening => d.darkening

/-- The record with the part of one kind replaced. -/
def DeliverySite.setPart (d : DeliverySite) (k : PartKind) (p : Option Part) : DeliverySite :=
  match k with
  | .tightening => { d with tightening := p }
  | .relaxing => { d with relaxing := p }
  | .darkening => { d with darkening := p }

/-- The three kinds of part. -/
def partKinds : List PartKind := [.tightening, .relaxing, .darkening]

/-- A part is pending while WAITING or SENT (section 8.1). -/
def Part.pending (p : Part) : Bool := decide (p.state = .waiting ∨ p.state = .sent)

/-- Whether a part is there and pending. -/
def pendingPart : Option Part → Bool
  | none => false
  | some p => p.pending

/-- Whether some part of the site is pending. -/
def DeliverySite.anyPending (d : DeliverySite) : Bool := partKinds.any fun k => pendingPart (d.part k)

/-- A site's delivery record. -/
def State.site (s : State) (i : Nat) : Option DeliverySite := s.delivery.sites[i]?

/-- A site's delivery record changed. -/
def State.modifySite (s : State) (i : Nat) (f : DeliverySite → DeliverySite) : State :=
  match s.site i with
  | none => s
  | some d => { s with delivery := { s.delivery with sites := s.delivery.sites.set i (f d) } }

/-- Every site's delivery record changed. -/
def State.mapSites (s : State) (f : Nat → DeliverySite → DeliverySite) : State :=
  { s with delivery := { s.delivery with sites := s.delivery.sites.mapIdx f } }

/-- A change made for every site in ascending order. -/
def State.forSites (s : State) (f : Nat → State → State) : State :=
  (List.range s.delivery.sites.length).foldl (fun st i => f i st) s

/-- A line's record. -/
def State.line (s : State) (l : LineId) : LineRec := s.lines.get l

/-- The state with a line's record replaced. -/
def State.setLine (s : State) (l : LineId) (r : LineRec) : State := { s with lines := s.lines.set l r }

/-- The line of a site's sign unit. -/
def State.siteLine (s : State) (i : Nat) : LineId :=
  match s.store.site i with
  | none => .one
  | some r => r.line

/-! ## Images (R143 to R145, R148) -/

/-- What an image gives an element that nothing else decides: NONE, BLANK, BLANK. It is also the dark image's value. -/
def darkValue : ElemId → ElemVal
  | .limit => .limit none
  | .lane _ => .lane .blank
  | .legend => .legend .blank

/-- The dark image of a site (R143). -/
def darkImage (elements : List ElemId) : Image := elements.map fun e => (e, darkValue e)

/-- The wanted image a plan record gives: its UNAVAILABLE elements are not wanted (R143). -/
def PlanSite.wanted (s : PlanSite) : Image :=
  (match s.limit.map (·.value) with
    | some (.value l) => [(ElemId.limit, ElemVal.limit l)]
    | _ => []) ++
  (s.lanes.filterMap fun (l, e) =>
    match e.value with
    | .shows a => some (ElemId.lane l, ElemVal.lane a)
    | .unavailable _ => none) ++
  (match s.legend.map (·.value) with
    | some (.value g) => [(ElemId.legend, ElemVal.legend g)]
    | _ => [])

/-- The image a readback leaves: each element of the site with the code the sign reported for it (R144). -/
def StateReply.image (r : StateReply) (elements : List ElemId) : Image :=
  elements.map fun e => (e, match e with
    | .limit => .limit r.limit
    | .lane l => .lane (r.lanes.getD l .blank)
    | .legend => .legend r.legend)

/-- The image of a SET released for a part (R148). -/
def DeliverySite.setImage (d : DeliverySite) (elements : List ElemId) (p : Part) : Image :=
  elements.map fun e =>
    let shown := (d.confirmed.lookup e).getD (darkValue e)
    (e, if p.elements.contains e then (d.wanted.lookup e).getD shown else shown)

/-- R145: whether an element is wanted and its confirmed value is none or another. -/
def DeliverySite.differs (d : DeliverySite) (e : ElemId) : Bool :=
  match d.wanted.lookup e with
  | none => false
  | some w => decide (d.confirmed.lookup e ≠ some w)

/-- R145: whether a differing element is a tightening element. -/
def DeliverySite.tightens (d : DeliverySite) (e : ElemId) : Bool :=
  match d.wanted.lookup e, d.confirmed.lookup e with
  | some w, some c => w.tighter c
  | some _, none => true
  | none, _ => false

/-- The differing elements of one kind of part (R145). -/
def DeliverySite.differing (d : DeliverySite) (elements : List ElemId) (k : PartKind) : List ElemId :=
  elements.filter fun e => d.differs e &&
    match k with
    | .tightening => d.tightens e
    | .relaxing => !d.tightens e
    | .darkening => true

/-- The epoch byte of a SET of the current target (R148). -/
def Delivery.epochByte (d : Delivery) : Nat :=
  match d.target with
  | .plan => d.epoch % 256
  | .dark => 0

/-! ## The SET queue of a line (R120) -/

/-- The command waiting in a queue for a site's unit: queued, and its transaction not in progress. -/
def LineRec.waitingFor (r : LineRec) (i : Nat) : Option SetCommand :=
  r.queue.find? fun c => decide (c.site = i) && !c.inProgress

/-- A command placed in the queue; one waiting for the same unit is replaced in place (R120). -/
def LineRec.enqueue (r : LineRec) (c : SetCommand) : LineRec :=
  if (r.waitingFor c.site).isSome then
    { r with queue := r.queue.map fun x => if decide (x.site = c.site) && !x.inProgress then c else x }
  else { r with queue := r.queue ++ [c] }

/-- The waiting command of a site removed from the queue. -/
def LineRec.unqueue (r : LineRec) (i : Nat) : LineRec :=
  { r with queue := r.queue.filter fun x => !(decide (x.site = i) && !x.inProgress) }

/-- A part whose waiting command is withdrawn: it loses its queued mark, and a SENT part whose command a jam had
cancelled becomes WAITING as its site leaves in flight (R149). -/
def DeliverySite.uncommand (d : DeliverySite) (k : PartKind) : DeliverySite :=
  { d.setPart k ((d.part k).map fun p =>
      { p with queued := false, state := if p.state = .sent then .waiting else p.state }) with inFlight := false }

/-- Delivery withdraws the command waiting for a site's unit, if there is one; a command whose transaction is in
progress is not withdrawn (R120, R149). -/
def State.withdraw (s : State) (i : Nat) : State :=
  match (s.line (s.siteLine i)).waitingFor i with
  | none => s
  | some c =>
    (s.setLine (s.siteLine i) ((s.line (s.siteLine i)).unqueue i)).modifySite i fun d => d.uncommand c.part

/-- The withdrawal of a site's waiting command if it was released for a part of this kind. -/
def State.withdrawKind (s : State) (i : Nat) (k : PartKind) : State :=
  match (s.line (s.siteLine i)).waitingFor i with
  | none => s
  | some c => if c.part = k then s.withdraw i else s

/-- The command of a part of a site, with its image fixed now (R148). -/
def State.commandFor (s : State) (i : Nat) (k : PartKind) (d : DeliverySite) (p : Part) : SetCommand where
  site := i
  part := k
  image := d.setImage (s.store.elements i) p
  epoch := s.delivery.epochByte
  inProgress := false

/-! ## Forming parts (R146) -/

/-- Whether the mode is one in which parts are formed: LIVE or DARKENING (R146). -/
def Mode.delivers : Mode → Bool
  | .live => true
  | .darkening => true
  | _ => false

/-- One part counted as abandoned (R142, R156). -/
def Delivery.countAbandoned (d : Delivery) : Delivery :=
  { d with abandoned := countUp d.abandoned, abandonments := countUp d.abandonments }

/-- A part made ABANDONED: counted, and the elements it loses leave the wanted image (R146, R151, R152). -/
def State.abandon (s : State) (i : Nat) (k : PartKind) (p : Part) (leaving : List ElemId) : State :=
  let s1 := s.modifySite i fun d =>
    { d.setPart k (some { p with state := .abandoned, queued := false }) with
      wanted := d.wanted.filter fun x => !leaving.contains x.1 }
  { s1 with delivery := s1.delivery.countAbandoned }

/-- Whether a commanded image holds the wanted value of every one of some elements (R146). -/
def DeliverySite.commandHolds (d : DeliverySite) (elements : List ElemId) : Bool :=
  match d.commanded with
  | none => false
  | some c => elements.all fun e => decide (c.image.lookup e = d.wanted.lookup e)

/-- Whether a part that is SENT stays so when its elements become these: its command holds their wanted values (R146). -/
def DeliverySite.sentStays (d : DeliverySite) (k : PartKind) (elements : List ElemId) : Bool :=
  match d.part k with
  | none => false
  | some p => decide (p.state = .sent) && d.commandHolds elements

/-- The part that takes the place of one when its elements become these: WAITING, with the queued mark of the old one and
its resend count while that was pending (R146). -/
def DeliverySite.newPart (d : DeliverySite) (k : PartKind) (elements : List ElemId) : Part :=
  match d.part k with
  | none => ⟨elements, .waiting, false, 0⟩
  | some p => ⟨elements, .waiting, p.queued, if p.pending then p.resends else 0⟩

/-- R146 for one kind of part of one site. -/
def State.reformKind (s : State) (i : Nat) (k : PartKind) : State :=
  match s.site i with
  | none => s
  | some d =>
    let elements : List ElemId := d.differing (s.store.elements i) k
    let part : Part := d.newPart k elements
    if elements.isEmpty then (s.withdrawKind i k).modifySite i fun d => d.setPart k none
    else if d.sentStays k elements then
      s.modifySite i fun x => x.setPart k ((d.part k).map fun p => { p with elements := elements })
    else if decide (s.signState i = UnitState.lost ∨ s.signState i = UnitState.probing) then
      (s.withdrawKind i k).abandon i k { part with queued := false } elements
    else if part.queued then
      (s.setLine (s.siteLine i) ((s.line (s.siteLine i)).enqueue (s.commandFor i k d part))).modifySite i fun d =>
        d.setPart k (some part)
    else (s.withdrawKind i k).modifySite i fun d => d.setPart k (some part)

/-- R146: a site re-formed, in the kinds of part the target calls for, while the mode is LIVE or DARKENING. -/
def State.reform (s : State) (i : Nat) : State :=
  if s.mode.delivers then
    match s.delivery.target with
    | .plan => (s.reformKind i .tightening).reformKind i .relaxing
    | .dark => s.reformKind i .darkening
  else s

/-! ## Release (R147) -/

/-- Whether the part of a kind at a site is pending; a site beyond the section has none. -/
def State.pendingAt (s : State) (i : Nat) (k : PartKind) : Bool :=
  match s.site i with
  | none => false
  | some d => pendingPart (d.part k)

/-- R147's release condition. -/
def State.releaseCondition (s : State) (i : Nat) : PartKind → Bool
  | .tightening => decide (i = 0) || !s.pendingAt (i - 1) .tightening
  | .relaxing => !s.pendingAt (i + 1) .relaxing && !s.pendingAt i .tightening
  | .darkening => true

/-- A waiting command whose release condition has stopped holding is withdrawn (R147). -/
def State.recheck (s : State) (i : Nat) : State :=
  match (s.line (s.siteLine i)).waitingFor i with
  | none => s
  | some c => if s.releaseCondition i c.part then s else s.withdraw i

/-- A WAITING part that is not queued is released when its site is not in flight and its condition holds (R147). -/
def State.releasePart (s : State) (i : Nat) (k : PartKind) : State :=
  match s.site i with
  | none => s
  | some d =>
    match d.part k with
    | none => s
    | some p =>
      if decide (p.state = .waiting) && !p.queued && !d.inFlight && s.releaseCondition i k then
        let s1 := s.setLine (s.siteLine i) ((s.line (s.siteLine i)).enqueue (s.commandFor i k d p))
        s1.modifySite i fun d => d.setPart k (some { p with queued := true })
      else s

/-- Releases judged over the section: withdrawals first, then releases (R147). -/
def State.judgeReleases (s : State) : State :=
  (s.forSites fun i st => st.recheck i).forSites fun i st =>
    ((st.releasePart i .tightening).releasePart i .relaxing).releasePart i .darkening

/-! ## Completion and the end of DARKENING (R156, R157, R167) -/

/-- Whether some part is pending or some site in flight. -/
def Delivery.busy (d : Delivery) : Bool := d.sites.any fun x => x.anyPending || x.inFlight

/-- A site with no part. -/
def DeliverySite.noParts (d : DeliverySite) : DeliverySite :=
  { d with tightening := none, relaxing := none, darkening := none }

/-- Every queued command withdrawn and every part absent. -/
def State.clearParts (s : State) : State := (s.forSites fun i st => st.withdraw i).mapSites fun _ d => d.noParts

/-- Every wanted image taken from the current plan (R143). -/
def State.wantPlan (s : State) : State :=
  s.mapSites fun i d => { d with wanted := (planSite s.evaluator.plan i).wanted }

/-- R157 and R167: the darkening delivery is done: the mode becomes SHADOW with the MODE notice, and delivery returns
to the plan target, SUPPRESSED, for the plan's current epoch, of which no part has been abandoned (R156). -/
def State.enterShadow (s : State) : State :=
  let s1 := ({ s with mode := .shadow }.notifyAll .mode).clearParts.wantPlan
  { s1 with delivery :=
      { s1.delivery with target := .plan, epoch := s1.evaluator.epoch, state := .suppressed, abandoned := 0 } }

/-- The completion of the current target and epoch recorded (R156). -/
def Delivery.complete (d : Delivery) : Delivery :=
  { d with state := .done, completion := some ⟨d.target, d.epoch, d.abandoned⟩ }

/-- R156: completion judged. When a darkening delivery completes, mode control makes the mode SHADOW (R158, R167). -/
def State.judgeCompletion (s : State) : State :=
  if decide (s.delivery.state = .delivering) && !s.delivery.busy then
    let s1 := { s with delivery := s.delivery.complete }.notifyAll .delivered
    match s.delivery.target with
    | .plan => s1
    | .dark => s1.enterShadow
  else s

/-- Release judgement and completion, which follow every change of a part and every re-form. -/
def State.settleDelivery (s : State) : State := s.judgeReleases.judgeCompletion

/-! ## Readback: confirmation, restart and drift (R144, R150, R153, R154) -/

/-- R150: whether every element of a part has a confirmed value equal to its wanted value. -/
def DeliverySite.matched (d : DeliverySite) (p : Part) : Bool :=
  p.elements.all fun e => (d.wanted.lookup e).isSome && decide (d.confirmed.lookup e = d.wanted.lookup e)

/-- R150 for one kind of part: a pending part that matches becomes CONFIRMED, its queued command withdrawn. -/
def State.confirmKind (s : State) (i : Nat) (k : PartKind) : State :=
  match s.site i with
  | none => s
  | some d =>
    match d.part k with
    | none => s
    | some p =>
      if p.pending && d.matched p then
        (s.withdrawKind i k).modifySite i fun d => d.setPart k (some { p with state := .confirmed, queued := false })
      else s

/-- R150: the pending parts of a site confirmed where they match. -/
def State.confirm (s : State) (i : Nat) : State :=
  ((s.confirmKind i .tightening).confirmKind i .relaxing).confirmKind i .darkening

/-- R144: a readback replaces the confirmed image and the applied epoch byte. -/
def State.takeReadback (s : State) (i : Nat) (r : StateReply) : State :=
  s.modifySite i fun d => { d with confirmed := r.image (s.store.elements i), applied := some r.applied }

/-- R153: the commanded image of a sign that restarted becomes none, and its parts' resend counts 0. -/
def DeliverySite.forget (d : DeliverySite) : DeliverySite :=
  { d with
    commanded := none
    tightening := d.tightening.map fun p => { p with resends := 0 }
    relaxing := d.relaxing.map fun p => { p with resends := 0 }
    darkening := d.darkening.map fun p => { p with resends := 0 } }

/-- Whether some wanted element of a site differs. -/
def State.siteDiffers (s : State) (i : Nat) : Bool :=
  match s.site i with
  | none => false
  | some d => (s.store.elements i).any d.differs

/-- R154: whether a site shows a drift at a poll's readback with its unit in contact. -/
def State.drifted (s : State) (i : Nat) : Bool :=
  match s.site i with
  | none => false
  | some d => s.mode.delivers && (s.signState i).inContact && !d.anyPending && !d.inFlight && s.siteDiffers i

/-- R154: the drift counted, and a delivery that was DONE is DELIVERING again. -/
def Delivery.drift (d : Delivery) : Delivery :=
  { d with drifts := countUp d.drifts, state := if d.state = .done then .delivering else d.state }

/-- A readback handed by the unit table (R144, R150, R153, R154): `restarted` and `endedSet` are its marks. Releases and
completion follow the confirmation (R150) and again the re-form of a restarted readback or of a drift (R146). -/
def State.readback (s : State) (i : Nat) (r : StateReply) (restarted endedSet : Bool) : State :=
  let s1 := s.takeReadback i r
  if restarted then
    ((((s1.modifySite i fun d => d.forget).confirm i).settleDelivery).reform i).settleDelivery
  else
    let s2 := (s1.confirm i).settleDelivery
    if !endedSet && s2.drifted i then
      ({ s2 with delivery := s2.delivery.drift }.reform i).settleDelivery
    else s2

/-! ## Starts and ends of SET transactions (R149, R151) -/

/-- R149: the first attempt of a SET to a site has started. A pending part of the command's kind becomes SENT, also one that
a re-form has made WAITING since a jam kept the command (log entry 43). -/
def State.setStarted (s : State) (c : SetCommand) : State :=
  (s.modifySite c.site fun d =>
    { d.setPart c.part ((d.part c.part).map fun p =>
        if p.pending then { p with state := .sent, queued := false } else p) with
      inFlight := true
      commanded := some ⟨c.image, c.epoch⟩ }).settleDelivery

/-- The elements of a part whose confirmed value differs from the commanded one (R151). -/
def DeliverySite.disagreeing (d : DeliverySite) (p : Part) : List ElemId :=
  p.elements.filter fun e =>
    match d.commanded with
    | none => false
    | some c => decide (d.confirmed.lookup e ≠ c.image.lookup e)

/-- R151's table: what the end of the SET transaction does to a SENT part. -/
def State.endPart (s : State) (i : Nat) (k : PartKind) (replied : Bool) : State :=
  match s.site i with
  | none => s
  | some d =>
    match d.part k with
    | none => s
    | some p =>
      if p.state ≠ .sent then s
      else if !replied then s.modifySite i fun d => d.setPart k (some { p with state := .waiting })
      else if p.resends = 0 then
        s.modifySite i fun d => d.setPart k (some { p with state := .waiting, resends := 1 })
      else (s.reportMismatch i (d.disagreeing p)).abandon i k p (d.disagreeing p)

/-- R151: a site with no pending part and a differing wanted element is re-formed. -/
def State.reformIfDiffering (s : State) (i : Nat) : State :=
  match s.site i with
  | none => s
  | some d => if !d.anyPending && s.siteDiffers i then s.reform i else s

/-- R151: the end of a SET transaction reported by the line controller. For a site not in flight it is the readback
alone. -/
def State.setEnded (s : State) (c : SetCommand) (replied : Bool) : State :=
  match s.site c.site with
  | none => s
  | some d =>
    if d.inFlight then
      let s1 := s.modifySite c.site fun d => { d with inFlight := false }
      ((s1.endPart c.site c.part replied).reformIfDiffering c.site).settleDelivery
    else s.settleDelivery

/-! ## Lost units (R152) -/

/-- R152 for one kind of part. -/
def State.abandonKind (s : State) (i : Nat) (k : PartKind) : State :=
  match s.site i with
  | none => s
  | some d =>
    match d.part k with
    | none => s
    | some p => if p.pending then s.abandon i k p p.elements else s

/-- R152: a sign unit became LOST: its queued command is withdrawn and its pending parts are ABANDONED. Releases and
completion are judged by the caller, once for the event. -/
def State.unitLost (s : State) (i : Nat) : State :=
  (((s.withdraw i).abandonKind i .tightening).abandonKind i .relaxing).abandonKind i .darkening

/-! ## Epochs and modes (R155, R158, R159) -/

/-- R155: a published epoch taken. In LIVE every site is re-formed; in SHADOW only the wanted images move; while the
target is DARK it is not taken. -/
def State.takeEpoch (s : State) : State :=
  match s.delivery.target with
  | .dark => s
  | .plan =>
    let s1 := s.wantPlan
    let s2 := { s1 with delivery := { s1.delivery with epoch := s1.evaluator.epoch, abandoned := 0 } }
    if s.mode = .live then
      let s3 := { s2 with delivery := { s2.delivery with state := .delivering } }
      (s3.forSites fun i st => st.reform i).settleDelivery
    else s2

/-- R155: epoch 0 taken after an adoption or a return of the plan to its reset form: no parts are formed, every queued
command is withdrawn, and the delivery state becomes the one given. -/
def State.takeEpochZero (s : State) (state : DeliveryState) : State :=
  let s1 := s.clearParts.wantPlan
  { s1 with delivery :=
      { s1.delivery with target := .plan, epoch := s1.evaluator.epoch, state := state, abandoned := 0 } }

/-- The dark target taken (R158): every wanted image dark and every site re-formed into a darkening part. -/
def State.formDark (s : State) : State :=
  let s1 := s.clearParts.mapSites fun i d => { d with wanted := darkImage (s.store.elements i) }
  let s2 := { s1 with delivery := { s1.delivery with target := .dark, abandoned := 0, state := .delivering } }
  (s2.forSites fun i st => st.reform i).judgeReleases

/-- Delivery's records cleared by a RESTART: commanded images none, no site in flight, no parts (R159). -/
def State.restartDelivery (s : State) : State :=
  s.mapSites fun _ d => { d.noParts with commanded := none, inFlight := false }

/-- The delivery record created for a site at COMMIT (R142). -/
def newDeliverySite (plan : PlanSite) : DeliverySite where
  wanted := plan.wanted
  commanded := none
  confirmed := []
  applied := none
  tightening := none
  relaxing := none
  darkening := none
  inFlight := false

end Sys2Proof.Machine
end

