-- ==== Sys2Proof/Machine/QueueOps.lean ====
section
/-! DEFINITION. The queue protection unit: baselines and samples (R84 to R92), the station speed (R93), the station
machine and BLIND (R94 to R100), and the entries it hands the request table (R102 to R104). -/

namespace Sys2Proof.Machine

/-! ## Records -/

/-- A lane record as created (R83). Its standing before any sample is the model's choice (log entry 11). -/
def LaneRec.initial : LaneRec := ⟨none, .ok, none, false, 0, false, none, .noData⟩

/-- A station record as created at COMMIT, with the two counters given (R83). -/
def newStation (slot lanes rejected chatter : Nat) : Station where
  slot := slot
  state := .free
  remembered := none
  onCount := 0
  offCount := 0
  stopCount := 0
  minHold := none
  faultHold := none
  faultOver := false
  inhibit := none
  baseline := none
  speed := none
  handed := none
  rejected := rejected
  chatter := chatter
  lanes := List.replicate lanes .initial

/-- A station's record. -/
def State.station (s : State) (k : Nat) : Option Station := s.stations.find? fun x => decide (x.slot = k)

/-- The state with a station's record replaced. -/
def State.setStation (s : State) (x : Station) : State :=
  { s with stations := s.stations.map fun y => if y.slot = x.slot then x else y }

/-! ## Entries (R102 to R104) -/

/-- Whether a station is in QUEUE or STOPPED. -/
def StationState.queuing : StationState → Bool
  | .queue => true
  | .stopped => true
  | _ => false

/-- The state that decides a station's limit: the remembered one while BLIND (R102). -/
def Station.effective (x : Station) : StationState :=
  match x.state with
  | .blind => x.remembered.getD .free
  | st => st

/-- R102: whether a station's entry is warranted at the present time. -/
def Station.warranted (x : Station) (now : Nat) : Bool :=
  x.inhibit.isNone && x.effective.queuing &&
    (decide (x.state ≠ .blind) || (match x.faultHold with
      | none => false
      | some d => decide (now < d)))

/-- The position of a station (R10). -/
def Store.stationPosition (c : Store) (k : Nat) : Nat :=
  match c.geometry with
  | none => 0
  | some g => (g.stationPositions.lookup k).getD 0

/-- pos of a site in the derived geometry (R10). -/
def Store.pos (c : Store) (i : Nat) : Nat :=
  match c.geometry with
  | none => 0
  | some g => g.positions.getD i 0

/-- The sites u with P - QP_COVER ≤ pos(u) ≤ P (R103). -/
def Store.band (c : Store) (p cover : Nat) : List Nat :=
  (List.range c.siteCount).filter fun u => decide (c.pos u ≤ p ∧ p ≤ c.pos u + cover)

/-- The site of largest position not above P (R103). -/
def Store.lastBefore (c : Store) (p : Nat) : Nat :=
  ((List.range c.siteCount).filter fun u => decide (c.pos u ≤ p)).getLast?.getD 0

/-- R103: the coverage of a station. -/
def Store.coverage (c : Store) (k cover : Nat) : Nat × Nat :=
  let p := c.stationPosition k
  match (c.band p cover).head?, (c.band p cover).getLast? with
  | some first, some last => (first, last)
  | _, _ => (c.lastBefore p, c.lastBefore p)

/-- R102: the image of a station's entry, or none for ABSENT. -/
def State.stationImage (s : State) (x : Station) : Option QpImage :=
  if x.warranted s.now then
    let (first, last) := s.store.coverage x.slot (s.param .qpCover)
    some ⟨first, last, if x.effective = .stopped then s.param .qpStopLimit else s.param .qpLimit⟩
  else none

/-- R104: QP hands a station's image or ABSENT, and records what it handed. -/
def State.handStation (s : State) (k : Nat) : State :=
  match s.station k with
  | none => s
  | some x =>
    let image := s.stationImage x
    (s.setStation { x with handed := image }).handQp k image

/-! ## One lane of a sample (R86 to R92) -/

/-- (x - y) mod m, for a cumulative value that wraps at m (R85, R86). -/
def wrapped (m x y : Nat) : Nat := (x + m - y % m) % m

/-- The stuck state and span after a sample (R88). -/
def stuckAfter (stuck : Bool) (span occupancy n t stuckTime : Nat) : Bool × Nat :=
  if stuck then (decide (500 ≤ occupancy), 0)
  else if 990 ≤ occupancy ∧ n = 0 then
    if stuckTime * 1000 ≤ span + t then (true, 0) else (false, span + t)
  else (false, 0)

/-- The occupancy in per mille of o ms in t ms, o clamped to t (R87). -/
def occupancyOf (o t : Nat) : Nat := min o t * 1000 / t

/-- S ÷ n, rounded to nearest, halves up. -/
def roundedDiv (a b : Nat) : Nat := (2 * a + b) / (2 * b)

/-- R91: the sample speed of a valid lane that is not chattering, and whether the lane is stopped; none when empty. -/
def sampleSpeed (loop : LoopKind) (stopOcc leff occupancy n o speedSum : Nat) : Option Nat × Bool :=
  if stopOcc ≤ occupancy then (some 0, true)
  else if n = 0 then (none, false)
  else
    match loop with
    | .double => (some (min 160 (roundedDiv speedSum n)), false)
    | .single => (some (if o = 0 then 160 else min 160 (360 * n * leff / o)), false)

/-- R92: sm moved one step toward 16 v. -/
def smooth (k : Nat) (sm : Option Nat) (v : Nat) : Nat :=
  let x := 16 * v
  match sm with
  | none => x
  | some y =>
    if y < x then y + max 1 ((x - y) / 2 ^ k)
    else if x < y then y - max 1 ((y - x) / 2 ^ k)
    else y

/-- sm ÷ 16, rounded to nearest, halves up (R92). -/
def reportedSpeed (sm : Nat) : Nat := roundedDiv sm 16

/-- The standing of a lane: valid, or the first cause of invalidity in the order of R176 (R89, log entry 11). -/
def standingOf (fault : LoopFault) (stuck data contact : Bool) : Standing :=
  if fault = .loopOpen then .loopOpen
  else if stuck then .stuck
  else if !data then .noData
  else if !contact then .unit
  else .valid

/-- What one lane gives a sample: its record after it, and its evidence. -/
structure LaneSample where
  lane : LaneRec
  /-- The speed it gave, if any (R91). -/
  gave : Option Nat
  stopped : Bool
  chattering : Bool
  deriving DecidableEq, Repr

/-- Whether the lane gives evidence to the station: valid and not excluded (R93). -/
def LaneRec.counts (l : LaneRec) : Bool := decide (l.standing = .valid) && !l.excluded

/-- A lane without data in this reply, or without a lane baseline before it: no sample (R84, R89). Unless open or stuck it
is reported as without data, also where the reply carries data that is its first baseline (log entry 44). -/
def LaneRec.rebaseline (l : LaneRec) (data : Option LaneData) (excluded : Bool) : LaneRec :=
  let fault := match data with
    | none => l.fault
    | some d => d.fault
  { l with
    baseline := data.map (·.totals)
    fault := fault
    span := 0
    excluded := excluded
    smoothed := none
    standing := standingOf fault l.stuck false true }

/-- One lane of a sample (R86 to R92): `t` is the interval and `excluded` R90's judgement. The unit is UP or SUSPECT. -/
def sampleLane (ps : Params) (r : StationRecord) (t : Nat) (trim : Int) (excluded : Bool) (l : LaneRec)
    (data : Option LaneData) : LaneSample :=
  match data, l.baseline with
  | some d, some b =>
    let n := wrapped 65536 d.totals.count b.count
    let o := min t (wrapped 4294967296 d.totals.occupancy b.occupancy)
    let sum := wrapped 4294967296 d.totals.speedSum b.speedSum
    let occupancy := occupancyOf o t
    let (stuck, span) := stuckAfter l.stuck l.span occupancy n t (paramValue ps .stuckTime)
    let standing := standingOf d.fault stuck true true
    let chattering := decide (t / 250 + 1 < n)
    let leff := ((r.effective : Int) + trim).toNat
    let (v, stopped) :=
      if standing = .valid ∧ chattering = false then
        sampleSpeed r.loop (paramValue ps .stopOcc) leff occupancy n o sum
      else (none, false)
    let smoothed :=
      if standing ≠ .valid ∨ excluded = true then none
      else
        match v with
        | none => l.smoothed
        | some v => some (smooth (paramValue ps .smoothK) l.smoothed v)
    { lane := ⟨some d.totals, d.fault, some occupancy, stuck, span, excluded, smoothed, standing⟩
      gave := v
      stopped := stopped
      chattering := chattering }
  | _, _ => ⟨l.rebaseline data excluded, none, false, false⟩

/-! ## The sample of a station (R93) -/

/-- The smoothed speed a lane brings a sample to which it gave a speed (R93). -/
def LaneSample.speed (x : LaneSample) : Option Nat :=
  match x.gave with
  | none => none
  | some _ => x.lane.smoothed

/-- What a sample tells the station machine. -/
structure Sample where
  usable : Bool
  stopped : Bool
  speed : Option Nat
  deriving DecidableEq, Repr

/-- The lowest of some speeds. -/
def lowest : List Nat → Option Nat
  | [] => none
  | x :: xs => some (xs.foldl min x)

/-- R93: the station speed is the lowest smoothed speed among the lanes that count and gave a speed, 0 when one of
them is stopped, and none in an empty sample. -/
def sampleOf (lanes : List LaneSample) : Sample :=
  let counting := lanes.filter fun x => x.lane.counts
  let stopped := counting.any (·.stopped)
  let speeds := counting.filterMap LaneSample.speed
  { usable := !counting.isEmpty
    stopped := stopped
    speed := if stopped then some 0 else (lowest speeds).map reportedSpeed }

/-! ## The station machine (R94 to R100) -/

/-- A change of state: all three counts become 0 (R94). -/
def Station.enter (x : Station) (st : StationState) : Station :=
  { x with state := st, onCount := 0, offCount := 0, stopCount := 0 }

/-- A count raised by one, saturating at 60 (section 5.1). -/
def countRaise (n : Nat) : Nat := min (n + 1) Config.countMax

/-- R98: a station without a valid, unexcluded lane becomes BLIND; one already BLIND stays as it is. With a hold of 0 its
running out is taken with the entry to BLIND (R99). -/
def Station.goBlind (x : Station) (now faultHold : Nat) : Station :=
  match x.state with
  | .blind => x
  | st => { x.enter .blind with
      remembered := some st
      faultHold := some (now + faultHold * 1000)
      faultOver := decide (faultHold = 0) }

/-- R100: the return of a BLIND station at its first usable sample. -/
def Station.leaveBlind (x : Station) (now : Nat) : Station :=
  let back := { x with remembered := none, faultHold := none, faultOver := false }
  if ranOut now x.faultHold then { back.enter .free with minHold := none }
  else back.enter (x.remembered.getD .free)

/-- A station in FREE at a usable sample (R94, R95). -/
def Station.judgeFree (x : Station) (ps : Params) (now : Nat) (m : Sample) : Station :=
  match m.speed with
  | none => x
  | some v =>
    if v < paramValue ps .alertOn then
      if paramValue ps .onCount ≤ countRaise x.onCount then
        { x.enter .queue with minHold := some (now + paramValue ps .qpMinHold * 1000) }
      else { x with onCount := countRaise x.onCount }
    else { x with onCount := 0 }

/-- The off count after a usable sample in QUEUE or STOPPED, and whether the sample qualified (R94, R97). -/
def Station.offAfter (x : Station) (ps : Params) (m : Sample) : Nat × Bool :=
  match m.speed with
  | none => (x.offCount, false)
  | some v => if paramValue ps .alertOff ≤ v then (countRaise x.offCount, true) else (0, false)

/-- The stop count after a usable sample, and whether the sample qualified: in QUEUE a stopped lane does, in STOPPED a
non-empty sample with none (R94, R96). -/
def Station.stopAfter (x : Station) (m : Sample) : Nat × Bool :=
  match m.speed with
  | none => (x.stopCount, false)
  | some _ =>
    if m.stopped = decide (x.state = .queue) then (countRaise x.stopCount, true) else (0, false)

/-- Whether the minimum hold deadline is at or before a time (R97). -/
def Station.minHoldOver (x : Station) (now : Nat) : Bool :=
  match x.minHold with
  | none => true
  | some d => decide (d ≤ now)

/-- A station in QUEUE or STOPPED at a usable sample; the transition to FREE is taken first (R94, R96, R97). -/
def Station.judgeQueue (x : Station) (ps : Params) (now : Nat) (m : Sample) : Station :=
  let (off, offQualified) := x.offAfter ps m
  let (stop, stopQualified) := x.stopAfter m
  if offQualified && decide (paramValue ps .offCount ≤ off) && x.minHoldOver now then
    { x.enter .free with minHold := none }
  else if stopQualified && decide (Config.stopCount ≤ stop) then
    x.enter (if x.state = .queue then .stopped else .queue)
  else { x with offCount := off, stopCount := stop }

/-- The station machine at a sample (R94 to R100). -/
def Station.judge (x : Station) (ps : Params) (now : Nat) (m : Sample) : Station :=
  if !m.usable then x.goBlind now (paramValue ps .qpFaultHold)
  else
    match x.state with
    | .blind => x.leaveBlind now
    | .free => x.judgeFree ps now m
    | .queue => x.judgeQueue ps now m
    | .stopped => x.judgeQueue ps now m

/-! ## Replies and unit states (R84, R85, R98) -/

/-- The reply's data for the lanes of the list, in its order; none beyond the lanes it carries (R84). -/
def laneData (r : DataReply) (i : Nat) : Option LaneData := r.lanes[i]?

/-- A reply that is not used: each lane's fault is taken from it (R84). R107 says which cause a lane shows only of readings
between two samples; that the standing stays as the unit's report left it until a sample judges the lane is the model's
choice (log entry 45). -/
def Station.takeFaultsOnly (x : Station) (r : DataReply) : Station :=
  { x with lanes := x.lanes.mapIdx fun i l => { l with fault := ((laneData r i).map (·.fault)).getD l.fault } }

/-- A lane at a baseline: cumulative values and fault stored, sm none, and a span of 0 unless stuck (R84, R88). A lane
without data loses its baseline. With data its standing stays until a sample judges it (log entry 45). -/
def LaneRec.takeBaseline (l : LaneRec) (data : Option LaneData) : LaneRec :=
  match data with
  | none => { l with baseline := none, smoothed := none, span := 0, standing := standingOf l.fault l.stuck false true }
  | some d => { l with baseline := some d.totals, fault := d.fault, smoothed := none, span := 0 }

/-- A reply taken as the station's baseline (R84). -/
def Station.takeBaseline (x : Station) (r : DataReply) : Station :=
  { x with baseline := some r.timestamp, lanes := x.lanes.mapIdx fun i l => l.takeBaseline (laneData r i) }

/-- R90: whether a station's lane is excluded by the current plan. -/
def State.laneExcluded (s : State) (r : StationRecord) (i : Nat) : Bool :=
  (planSite s.evaluator.plan r.site).closedAt (r.lanes.getD i 0)

/-- A station after a sample of interval t: its lanes, counters and last speed, then its machine (R86 to R100). -/
def State.sampled (s : State) (x : Station) (r : StationRecord) (data : DataReply) (t : Nat) : Station :=
  let ps := s.store.params
  let samples : List LaneSample := x.lanes.mapIdx fun i l =>
    sampleLane ps r t (r.trims.getD i 0) (s.laneExcluded r i) l (laneData data i)
  let m : Sample := sampleOf samples
  let x1 : Station := { x with
    baseline := some data.timestamp
    lanes := samples.map LaneSample.lane
    chatter := countBy x.chatter (samples.filter LaneSample.chattering).length
    speed := match m.speed with
      | none => x.speed
      | some v => some v }
  x1.judge ps s.now m

/-- The QUEUE notice where a station's state changed (R101). -/
def State.noticeStation (s : State) (before after : StationState) : State :=
  if before = after then s else s.notifyAll .queue

/-- A DATA reply handed by the unit table (R84, R85): the unit's state after it, and the restarted mark. -/
def State.dataReply (s : State) (k : Nat) (data : DataReply) (unit : UnitState) (restarted : Bool) : State :=
  match s.station k, s.store.station k with
  | some x, some r =>
    if !unit.inContact then s.setStation (x.takeFaultsOnly data)
    else
      match x.baseline with
      | none => s.setStation (x.takeBaseline data)
      | some before =>
        if restarted then s.setStation (x.takeBaseline data)
        else
          let t := wrapped 4294967296 data.timestamp before
          if t < Config.sampleMin ∨ Config.sampleMax < t then
            s.setStation { x.takeBaseline data with rejected := countUp x.rejected }
          else
            let x1 := s.sampled x r data t
            ((s.setStation x1).noticeStation x.state x1.state).handStation k
  | _, _ => s

/-- R98: every lane invalid at a report of PROBING or LOST; each that is neither open nor stuck then shows the unit as
its cause (log entry 11). -/
def Station.loseLanes (x : Station) : Station :=
  { x with lanes := x.lanes.map fun l => { l with smoothed := none, standing := standingOf l.fault l.stuck true false } }

/-- A change of an outstation's state handed by the unit table (R84, R98, R104). -/
def State.stationUnitChanged (s : State) (k : Nat) (old new : UnitState) : State :=
  match s.station k with
  | none => s
  | some x =>
    match new with
    | .up => if old = .probing then s.setStation { x with baseline := none } else s
    | .suspect => s
    | _ =>
      let x1 := x.loseLanes.goBlind s.now (s.param .qpFaultHold)
      let s1 := (s.setStation x1).noticeStation x.state x1.state
      if x.state = x1.state then s1 else s1.handStation k

end Sys2Proof.Machine
end

