-- ==== Sys2Proof/Machine/LineOps.lean ====
section
/-! DEFINITION. The field line controllers and what they hand the unit table: replies and misses (R127), jam reports
(R131), the arbiter and the frames it starts (R109, R121), poll cycles (R122), and the ends of transactions (R114). -/

namespace Sys2Proof.Machine

/-! ## Handings to the unit table (R127, R131) -/

/-- Step 5 of R127: a change of unit state handed to delivery (R137) or to queue protection (R138). -/
def State.unitChanged (s : State) (owner : UnitOwner) (old new : UnitState) : State :=
  if old = new then s
  else
    match owner with
    | .sign i => if new = .lost then s.unitLost i else s
    | .outstation k => s.stationUnitChanged k old new

/-- Step 7 of R127: the UNIT notice where a unit state or an effective fault changed (R139). -/
def State.noticeUnit (s : State) (changed : Bool) : State := if changed then s.notifyAll .unit else s

/-- Step 6 of R127: the readback handed on (R137, R138). -/
def State.handOn (s : State) (owner : UnitOwner) (st : UnitState) (r : FieldReply) (restarted endedSet : Bool) :
    State :=
  match owner, r with
  | .sign i, .state x => s.readback i x restarted endedSet
  | .outstation k, .data x => s.dataReply k x st restarted
  | _, _ => s

/-- A good reply handed for the unit of a slot, taken whole in the seven steps of R127. -/
def State.goodReply (s : State) (i : Nat) (r : FieldReply) (endedSet : Bool) : State :=
  match s.unit i with
  | none => s
  | some u =>
    let u1 := ((u.takeBoot r.boot).takeFaults r).goodReply
    let s1 := (s.storeUnit i u1).unitChanged u.owner u.state u1.state
    (s1.handOn u.owner u1.state r (u.restartedBy r.boot) endedSet).noticeUnit (decide (u1.noticed ≠ u.noticed))

/-- A miss handed for the unit of a slot: steps 3, 4, 5 and 7 of R127. -/
def State.unitMissed (s : State) (i : Nat) : State :=
  match s.unit i with
  | none => s
  | some u =>
    let u1 := u.missed
    (((s.storeUnit i u1).unitChanged u.owner u.state u1.state).settleDelivery).noticeUnit
      (decide (u1.noticed ≠ u.noticed))

/-- A change made for every unit slot in ascending order; R131 gives no order (log entry 42). -/
def State.forUnits (s : State) (f : Nat → State → State) : State :=
  (List.range s.units.length).foldl (fun st i => f i st) s

/-- A report for a line's units (R131): every unit changed and its availability judged, then every change of state
handed on in ascending slot order (log entry 42), then one UNIT notice. -/
def State.reportLine (s : State) (l : LineId) (change : UnitRec → UnitRec) : State :=
  let s1 := s.forUnits fun i st =>
    match s.unit i with
    | none => st
    | some u => if u.line = l then st.storeUnit i (change u) else st
  let s2 := s1.forUnits fun i st =>
    match s.unit i, s1.unit i with
    | some u, some u1 => st.unitChanged u.owner u.state u1.state
    | _, _ => st
  s2.settleDelivery.noticeUnit (decide (s1.units.map UnitRec.noticed ≠ s.units.map UnitRec.noticed))

/-! ## Poll cycles (R122, R123) -/

/-- POLL_CYCLE of a line. -/
def pollCycleId : LineId → ParamId
  | .one => .pollCycle1
  | .two => .pollCycle2

/-- A number put in its place in an ascending list. -/
def insertSorted (x : Nat) : List Nat → List Nat
  | [] => [x]
  | y :: ys => if x ≤ y then x :: y :: ys else y :: insertSorted x ys

/-- A list in ascending order. -/
def sortNats (xs : List Nat) : List Nat := xs.foldr insertSorted []

/-- The units listed at a cycle's start: those of the line in ascending address, a LOST unit only in cycles numbered 0
(R122). -/
def dueUnits (units : List UnitRec) (l : LineId) (number : Nat) : List Nat :=
  sortNats ((units.filter fun u => decide (u.line = l) && (decide (u.state ≠ .lost) || decide (number = 0))).map
    (·.address))

/-- A poll cycle begun now with a number (R122). -/
def State.newCycle (s : State) (l : LineId) (number : Nat) : PollCycle :=
  let due := dueUnits s.units l number
  { start := s.now
    period := s.param (pollCycleId l)
    number := number
    due := due
    emptied := if due.isEmpty then some s.now else none }

/-- An address struck from a cycle's list (R122, R123). -/
def PollCycle.strike (c : PollCycle) (address now : Nat) : PollCycle :=
  let due := c.due.filter fun a => decide (a ≠ address)
  { c with due := due, emptied := if due.isEmpty then (match c.emptied with
      | none => some now
      | some t => some t) else none }

/-- Whether the next cycle starts now: POLL_CYCLE has passed since the current start and the list is empty (R122). -/
def PollCycle.over (c : PollCycle) (now : Nat) : Bool := decide (c.start + c.period ≤ now) && c.due.isEmpty

/-- Whether a cycle was stretched: its list became empty only after its POLL_CYCLE (R122). -/
def PollCycle.stretched (c : PollCycle) : Bool :=
  match c.emptied with
  | none => false
  | some t => decide (c.start + c.period < t)

/-! ## The arbiter (R121) -/

/-- Work an arbiter can start a frame for. -/
inductive Work where
  /-- The retry owed. -/
  | retry (t : Transaction)
  /-- A SET command of the queue. -/
  | set (c : SetCommand)
  /-- The poll of an address. -/
  | poll (address : Nat)
  deriving DecidableEq, Repr

/-- Whether a SET command is a tightening one; darkening parts are released as RELAXING (R147). -/
def SetCommand.tightens (c : SetCommand) : Bool := decide (c.part = .tightening)

/-- The command of lowest site index. -/
def lowestSite : List SetCommand → Option SetCommand
  | [] => none
  | c :: cs => some (cs.foldl (fun b x => if x.site < b.site then x else b) c)

/-- The command of highest site index. -/
def highestSite : List SetCommand → Option SetCommand
  | [] => none
  | c :: cs => some (cs.foldl (fun b x => if b.site < x.site then x else b) c)

/-- The SET command the arbiter takes: tightening commands first, from upstream, then relaxing ones from downstream; in
UNCONFIGURED and SHADOW none (R121). -/
def arbiterSet (mode : Mode) (queue : List SetCommand) : Option SetCommand :=
  if mode.delivers then
    let waiting := queue.filter fun c => !c.inProgress
    lowestSite (waiting.filter SetCommand.tightens) <|> highestSite (waiting.filter fun c => !c.tightens)
  else none

/-- Whether the frame of a transaction may go out in a mode: in UNCONFIGURED and SHADOW no SET frame does (R121, R157). -/
def Transaction.sendable (t : Transaction) (mode : Mode) : Bool := t.command.isNone || mode.delivers

/-- R121: the work a line starts a frame for, in the order of its table; none while a transaction is in progress. The
owed retry of a SET waits while the mode lets no SET frame out (log entry 18). -/
def arbiter (mode : Mode) (r : LineRec) : Option Work :=
  match r.transaction with
  | some t => if decide (t.stage = .retryOwed) && t.sendable mode then some (.retry t) else none
  | none =>
    match arbiterSet mode r.queue with
    | some c => some (.set c)
    | none => (r.cycle.bind fun c => c.due.head?).map .poll

/-- R112: whether a line can start a frame: NORMAL, quiet and not already driven. -/
def LineRec.clear (r : LineRec) : Bool := decide (r.state = .normal) && r.quiet && !r.driving

/-! ## Frames sent (R109, R112) -/

/-- The unit table slot of an address on a line. -/
def State.slotAt (s : State) (l : LineId) (address : Nat) : Nat :=
  s.units.findIdx fun u => decide (u.line = l ∧ u.address = address)

/-- The address of a unit slot. -/
def State.addressOf (s : State) (i : Nat) : Nat :=
  match s.unit i with
  | none => 0
  | some u => u.address

/-- A frame going out: the driver enable is asserted, a polarity flip takes effect (R116), and the bytes are put on the
wire in the sense the line has then. -/
def LineRec.send (r : LineRec) (t : Transaction) : LineRec :=
  let sense := if r.flipNext then r.sense.flipped else r.sense
  { r with
    driving := true
    sense := sense
    flipNext := false
    sent := onWire sense t.frame
    transaction := some t }

/-- The transaction of a poll. -/
def State.pollTransaction (s : State) (l : LineId) (address : Nat) : Transaction where
  unit := s.slotAt l address
  command := none
  frame := fieldFrame address kindPoll []
  retry := false
  window := s.param .replyWindow
  stage := .sending

/-- The transaction of a SET command. -/
def State.setTransaction (s : State) (c : SetCommand) : Transaction where
  unit := c.site
  command := some { c with inProgress := true }
  frame := fieldFrame (s.addressOf c.site) kindSet (setPayload c.image c.epoch)
  retry := false
  window := s.param .replyWindow
  stage := .sending

/-- The command of a site marked as having its transaction in progress, or no longer. -/
def LineRec.markProgress (r : LineRec) (site : Nat) (b : Bool) : LineRec :=
  { r with queue := r.queue.map fun x => if x.site = site then { x with inProgress := b } else x }

/-- An address struck from a line's cycle. -/
def LineRec.strike (r : LineRec) (address now : Nat) : LineRec :=
  { r with cycle := r.cycle.map fun c => c.strike address now }

/-- A frame started for some work (R112, R121): a retry repeats the bytes of its frame; a SET strikes its unit from the
cycle (R123) and is reported to delivery (R114, R149); a poll leaves its unit no longer due. -/
def State.startWork (s : State) (l : LineId) : Work → State
  | .retry t =>
    s.setLine l ((s.line l).send { t with retry := true, window := s.param .replyWindow, stage := .sending })
  | .set c =>
    (s.setLine l ((((s.line l).markProgress c.site true).strike (s.addressOf c.site) s.now).send
      (s.setTransaction c))).setStarted c
  | .poll address =>
    s.setLine l (((s.line l).strike address s.now).send (s.pollTransaction l address))

/-! ## Replies and windows (R113, R114) -/

/-- The transaction whose reply window is open on a line. -/
def LineRec.openWindow (r : LineRec) : Option Transaction :=
  match r.transaction with
  | none => none
  | some t =>
    match t.stage with
    | .window _ => some t
    | _ => none

/-- What a frame is in the open window of a line: none when no window is open, or while an inverted reply is being
skipped (R113, R116). -/
def State.verdict (s : State) (l : LineId) (frame : List Byte) : Option Verdict :=
  match (s.line l).openWindow with
  | none => none
  | some t =>
    if (s.line l).skipping then none
    else
      match s.unit t.unit with
      | none => none
      | some u => some (judgeReply u.owner u.address frame)

/-- A transaction ended on its line; its SET command leaves the queue (R114, R120). -/
def LineRec.endTransaction (r : LineRec) : LineRec :=
  { r with
    transaction := none
    queue := r.queue.filter fun x => !x.inProgress }

/-- The end of a SET transaction reported to delivery, after the unit table has acted (R114, R151). -/
def State.reportEnd (s : State) (command : Option SetCommand) (replied : Bool) : State :=
  match command with
  | none => s
  | some c => s.setEnded c replied

/-- The counters of a line. -/
def LineRec.countFrameError (r : LineRec) : LineRec :=
  { r with counters := { r.counters with frameErrors := countUp r.counters.frameErrors } }

/-- One false activity counted; the burst it belongs to is counted once (R115). -/
def LineRec.countFalseActivity (r : LineRec) : LineRec :=
  { r with burstCounted := true, counters := { r.counters with falseActivity := countUp r.counters.falseActivity } }

/-- A transition on the receive signal (R108): the part's own is not activity; on a NORMAL line the jam timer starts if
it was stopped (R117), on a JAMMED line the unjam timer starts anew (R119). -/
def LineRec.activity (now : Nat) (r : LineRec) : LineRec :=
  if r.driving then r
  else
    match r.state with
    | .normal => { r with quiet := false, lastActive := now, jamTimer := some (r.jamTimer.getD now) }
    | .jammed => { r with quiet := false, lastActive := now, unjamTimer := some now }

/-- Whether a line has been without activity from one reading of the time base to the next, which is longer than
IDLE_GUARD (R108, log entry 8). -/
def LineRec.quietDue (r : LineRec) (now : Nat) : Bool := !r.quiet && decide (r.lastActive + 1 ≤ now)

/-- A valid reply ends its attempt with success (R113, R114, R116); its characters are activity (R108). -/
def State.takeValidReply (s : State) (l : LineId) (t : Transaction) (r : FieldReply) : State :=
  ((s.setLine l { ((s.line l).activity s.now).endTransaction with streak := 0 }).goodReply t.unit r t.command.isSome).reportEnd
    t.command true

/-- A window that ended without a valid reply (R114): the first attempt owes a retry, the retry ends the transaction
with a miss. -/
def State.failAttempt (s : State) (l : LineId) (t : Transaction) : State :=
  if t.retry then ((s.setLine l (s.line l).endTransaction).unitMissed t.unit).reportEnd t.command false
  else
    let r := s.line l
    s.setLine l { r with
      transaction := some { t with stage := .retryOwed }
      counters := { r.counters with retries := countUp r.counters.retries } }

/-! ## Jams (R117 to R119) -/

/-- R117: the line becomes JAMMED: an owed retry is cancelled, and a cancelled SET keeps its place in the queue, also
where its part was re-formed before the jam (log entry 43). -/
def LineRec.becomeJammed (r : LineRec) (now period : Nat) : LineRec :=
  { r with
    state := .jammed
    jam := some ⟨now, period, false⟩
    jamTimer := none
    unjamTimer := some now
    transaction := none
    queue := r.queue.map fun x => { x with inProgress := false }
    counters := { r.counters with jams := countUp r.counters.jams } }

/-- Whether the jam timer of a NORMAL line has reached JAM_LIMIT; no frame is going out and no window is open then
(R117). -/
def LineRec.jamDue (r : LineRec) (now : Nat) : Bool :=
  decide (r.state = .normal) && !r.driving && r.openWindow.isNone &&
    ranOut now (r.jamTimer.map (· + Config.jamLimit))

/-- Whether MISS_LIMIT poll cycles of jam have passed and the report of R118 is owed. -/
def LineRec.jamReportDue (r : LineRec) (now : Nat) : Bool :=
  match r.jam with
  | none => false
  | some j => decide (r.state = .jammed) && !j.reported && decide (j.time + Config.missLimit * j.period ≤ now)

/-- Whether UNJAM_TIME has passed on a JAMMED line since its unjam timer started (R119). -/
def LineRec.unjamDue (r : LineRec) (now : Nat) : Bool :=
  decide (r.state = .jammed) && ranOut now (r.unjamTimer.map (· + Config.unjamTime))

end Sys2Proof.Machine
end

