-- ==== Sys2Proof/Machine/Replies.lean ====
section
/-! DEFINITION. The payloads of the replies that report state (R169, R176): STATUS, COUNTERS and NOTICES, and the heads
and records of the five read commands. -/

namespace Sys2Proof.Machine

/-! ## Items (R169) -/

/-- A yes or no, a set or clear. -/
def flagByte (b : Bool) : Byte := if b then 1 else 0

/-- A one-byte item that may be none. -/
def optByte : Option Nat → Byte
  | none => 0xFF
  | some n => byte n

/-- The reason of a command carried out: CLAMPED where a value was brought into range (R177). -/
def clampReason (changed : Bool) : Reason := if changed then .clamped else .ok

/-- A byte of flags, bit 0 first. -/
def bitsByte (bs : List Bool) : Byte := byte (bs.foldr (fun b n => (if b then 1 else 0) + 2 * n) 0)

/-- A place that holds nothing. -/
def filled (n : Nat) : List Byte := List.replicate n 0xFF

/-- The lane positions every record gives a place to. -/
def lanePlaces : List Nat := List.range 6

/-- A two-byte whole number of seconds (R169). -/
def secondsBytes (now : Nat) (deadline : Option Nat) : List Byte := be16 (remaining now deadline)

/-- A last completion: its target, epoch and abandoned count. For none the target is FF and the four bytes after it are
the free value of log entry 4. -/
def completionBytes (drawn : Nat) : Option Completion → List Byte
  | some c => byte c.target.code :: (be16 c.epoch ++ be16 c.abandoned)
  | none => 0xFF :: be32 (Config.noCompletion drawn).toNat

/-- One free value counted as drawn. -/
def State.draw (s : State) : State := { s with drawn := s.drawn + 1 }

/-- The state after a last completion has been reported: a free value is drawn where there is none. -/
def State.drawCompletion (s : State) : State :=
  match s.delivery.completion with
  | none => s.draw
  | some _ => s

/-! ## STATUS and COUNTERS (R179, R180) -/

/-- The evaluator state's code: IDLE, RUNNING. -/
def Evaluator.stateCode (e : Evaluator) : Byte := flagByte e.running.isSome

/-- A port's two bytes in STATUS. -/
def PortRec.statusBytes (r : PortRec) : List Byte :=
  [byte r.authority.rank, if r.enabled then byte r.liveness.code else 0xFF]

/-- A line's two bytes in STATUS. -/
def LineRec.statusBytes (r : LineRec) : List Byte := [byte r.state.code, byte r.sense.code]

/-- The 26 bytes of STATUS for a sender (R179, R176). -/
def State.statusBytes (s : State) (p : Port) : List Byte :=
  [byte s.mode.code, byte s.cause.code, byte s.store.commit.code, byte s.store.siteCount, byte s.store.stationCount,
    s.evaluator.stateCode, flagByte s.evaluator.pending] ++
  be16 s.evaluator.epoch ++ [byte s.delivery.target.code] ++ be16 s.delivery.epoch ++ [byte s.delivery.state.code] ++
  (allPorts.flatMap fun q => (s.port q).statusBytes) ++ (allLines.flatMap fun l => (s.line l).statusBytes) ++
  [byte s.table.entries.length, byte s.table.freePool, flagByte (s.port p).overrun]

/-- A port's eight bytes in COUNTERS, all 0 for a DISABLED port. -/
def PortRec.counterBytes (r : PortRec) : List Byte :=
  if r.enabled then be16 r.frameErrors ++ be16 r.overruns ++ be16 r.commands ++ be16 r.silences
  else List.replicate 8 0

/-- The six counters of a line. -/
def LineCounters.bytes (c : LineCounters) : List Byte :=
  be16 c.frameErrors ++ be16 c.falseActivity ++ be16 c.retries ++ be16 c.jams ++ be16 c.flips ++ be16 c.stretched

/-- The 53 bytes of COUNTERS (R180, R176). -/
def State.counterBytes (s : State) (cleared : Bool) : List Byte :=
  flagByte cleared :: ((allPorts.flatMap fun q => (s.port q).counterBytes) ++
    (allLines.flatMap fun l => (s.line l).counters.bytes) ++ be16 s.delivery.drifts ++ be16 s.delivery.abandonments)

/-- The 9 bytes of NOTICES for a sender (R183, R176). -/
def State.noticeBytes (s : State) (p : Port) : List Byte :=
  [(s.port p).flags, (s.port p).mask] ++ be16 s.evaluator.epoch ++ completionBytes s.drawn s.delivery.completion

/-! ## READ_PLAN (R82) -/

/-- The value byte, the hold remaining and the flags of a limit or legend element; FF where the site has none. -/
def planElemBytes {α : Type} (now : Nat) (code : α → Nat) : Option (PlanElem α) → List Byte
  | none => filled 4
  | some e =>
    (match e.value with
      | .unavailable => 0xFE
      | .value v => byte (code v)) :: (secondsBytes now e.deadline ++ [bitsByte [e.held]])

/-- The four bytes of a lane place; FF where the site has no such lane. -/
def laneElemBytes (now : Nat) : Option LaneElem → List Byte
  | none => filled 4
  | some e =>
    (match e.value with
      | .unavailable _ => 0xFE
      | .shows a => byte a.code) :: (secondsBytes now e.deadline ++
        [bitsByte [e.held, e.displaced, e.unprotected, match e.value with
          | .unavailable c => c
          | .shows _ => false]])

/-- The 34 bytes of a READ_PLAN record; `index` is the site index, or 32 for EXIT, which has no kind. -/
def PlanSite.bytes (r : PlanSite) (now index : Nat) (kind : Option SiteKind) : List Byte :=
  [byte index, optByte (kind.map SiteKind.code)] ++ planElemBytes now limitCode r.limit ++
    (lanePlaces.flatMap fun l => laneElemBytes now (r.lane l)) ++ planElemBytes now Legend.rank r.legend

/-- The sites a plan range lists in a section of n: those below n, then EXIT where the range reaches it (R21, R82). -/
def planSites (n first last : Nat) : List Nat :=
  ((List.range n).filter fun i => decide (first ≤ i ∧ i ≤ last)) ++
    (if first ≤ Config.exitIndex ∧ Config.exitIndex ≤ last then [Config.exitIndex] else [])

/-- The record of one listed site. -/
def State.planRecord (s : State) (i : Nat) : List Byte :=
  (planSite s.evaluator.plan (if i = Config.exitIndex then s.store.siteCount else i)).bytes s.now i
    (if i = Config.exitIndex then none else (s.store.site i).map (·.kind))

/-- The first and last of a listing; FF for none. -/
def firstLast (listed : List Nat) : List Byte := [optByte listed.head?, optByte listed.getLast?]

/-- A READ_PLAN payload for the sites listed (R176). -/
def State.planBytes (s : State) (listed : List Nat) : List Byte :=
  be16 s.evaluator.epoch ++ [s.evaluator.stateCode, flagByte s.evaluator.pending] ++ firstLast listed ++
    listed.flatMap s.planRecord

/-! ## READ_ENTRIES (R40) -/

/-- The parts byte of a content: limit, closure, legend, shoulder-open from the lowest bit. -/
def Ask.partsByte (a : Ask) : Byte := bitsByte [a.limit.isSome, a.closure.isSome, a.legend.isSome, a.shoulderOpen]

/-- The closure byte: position 0 in the lowest bit; 0 for an absent part. -/
def Ask.closureByte (a : Ask) : Byte := bitsByte (lanePlaces.map (a.closure.getD []).contains)

/-- The remaining expiry of an entry in whole seconds, rounded up, never below 1 while the entry stands (R31), also while
its ENTRY_EXPIRY waits (log entry 39); 0 for no expiry. -/
def Entry.secondsLeft (e : Entry) (now : Nat) : Nat := if e.expiry.isSome then max 1 (remaining now e.expiry) else 0

/-- The 18 bytes of a READ_ENTRIES record (R40). -/
def State.entryRecord (s : State) (e : Entry) : List Byte :=
  [byte e.slot, byte e.requester.code, byte e.tag, byte e.ask.first, byte e.ask.last, e.ask.partsByte,
    byte (e.ask.limit.getD 0), e.ask.closureByte, byte ((e.ask.legend.map Legend.rank).getD 0),
    byte e.ask.policy.code, byte e.state.code] ++
  be32 e.arrival ++ be16 (e.secondsLeft s.now) ++ [byte (s.table.sourceSites e)]

/-- A READ_ENTRIES payload from a start index (R40, R176). -/
def State.entryBytes (s : State) (start : Nat) : List Byte :=
  let listed := (s.table.entries.drop start).take 13
  [byte s.table.entries.length, if listed.isEmpty then 0xFF else byte start] ++ listed.flatMap s.entryRecord

/-! ## READ_UNITS (R141) -/

/-- The kind and the site index or station number of a unit. -/
def UnitOwner.code : UnitOwner → Nat
  | .sign _ => 0
  | .outstation _ => 1

def UnitOwner.number : UnitOwner → Nat
  | .sign i => i
  | .outstation k => k

/-- The eight element places: the speed element, the lanes of positions 0 to 5, the message element. -/
def elementPlaces : List ElemId := .limit :: (lanePlaces.map ElemId.lane ++ [.legend])

/-- Whether a mismatch mark is set. -/
def MismatchMark.isSet : MismatchMark → Bool
  | .clear => false
  | .marked _ => true

/-- The two bytes of an element place. -/
def elemBytes : Option ElemRec → List Byte
  | none => filled 2
  | some e =>
    [optByte (e.reported.map DisplayFault.code),
      byte (e.effective.code + (if e.mark.isSet then 8 else 0) + (if e.available then 16 else 0))]

/-- The 30 bytes of a READ_UNITS record. -/
def UnitRec.bytes (u : UnitRec) (slot : Nat) : List Byte :=
  [byte slot, byte u.owner.code, byte (LineId.code u.line), byte u.address, byte u.owner.number, byte u.state.code,
    byte u.good, byte u.miss] ++
  be16 (u.boot.getD 65535) ++
  (elementPlaces.flatMap fun e => elemBytes (u.elements.find? fun x => decide (x.name = e))) ++
  be16 u.misses ++ be16 u.restarts

/-- A READ_UNITS payload for a range of slots (R141, R176): slots beyond the unit list are ABSENT and not listed. -/
def State.unitBytes (s : State) (first last : Nat) : List Byte :=
  let listed := ((List.range s.units.length).filter fun i => decide (first ≤ i ∧ i ≤ last)).take 7
  firstLast listed ++ listed.flatMap fun i => ((s.unit i).map fun u => u.bytes i).getD []

/-! ## READ_STATIONS (R107) -/

/-- The five bytes of a lane place, from the lane's record and its position. -/
def LaneRec.bytes (l : LaneRec) (position : Nat) : List Byte :=
  [byte position, byte (l.standing.code + (if l.excluded then 8 else 0)), optByte (l.smoothed.map reportedSpeed)] ++
    be16 (l.occupancy.getD 65535)

/-- The six lane places of a station. -/
def Station.laneBytes (x : Station) (positions : List Nat) : List Byte :=
  lanePlaces.flatMap fun i =>
    match x.lanes[i]? with
    | none => filled 5
    | some l => l.bytes (positions.getD i 0)

/-- The four bytes of a station's entry, as the request table holds it. -/
def entryItem : Option Entry → List Byte
  | none => 0 :: filled 3
  | some e => [1, byte e.ask.first, byte e.ask.last, optByte e.ask.limit]

/-- The 51 bytes of a READ_STATIONS record. -/
def State.stationRecord (s : State) (x : Station) : List Byte :=
  [byte x.slot, byte x.state.code, optByte (x.remembered.map StationState.code), byte x.onCount, byte x.offCount,
    byte x.stopCount] ++
  secondsBytes s.now x.minHold ++ secondsBytes s.now x.faultHold ++ secondsBytes s.now x.inhibit ++
  [optByte x.speed] ++ entryItem (s.table.inSlot (qpSlot x.slot)) ++ be16 x.rejected ++ be16 x.chatter ++
  x.laneBytes (((s.store.station x.slot).map (·.lanes)).getD [])

/-- A READ_STATIONS payload for a range of stations (R107, R176). -/
def State.stationBytes (s : State) (first last : Nat) : List Byte :=
  let listed := (s.stations.filter fun x => decide (first ≤ x.slot ∧ x.slot ≤ last)).take 4
  firstLast (listed.map (·.slot)) ++ listed.flatMap s.stationRecord

/-! ## READ_DELIVERY (R160) -/

/-- The code of an element's value. -/
def ElemVal.code : ElemVal → Nat
  | .limit l => limitCode l
  | .lane a => a.code
  | .legend g => g.rank

/-- The eight bytes of an image: FF for an element the site does not hold, `absent` for one it holds and the image does
not. -/
def imageBytes (elements : List ElemId) (absent : Byte) (m : Image) : List Byte :=
  elementPlaces.map fun e =>
    if elements.contains e then
      match m.lookup e with
      | none => absent
      | some v => byte v.code
    else 0xFF

/-- The elements byte of a part: bit 0 limit, bits 1 to 6 the lanes, bit 7 the legend. -/
def Part.elementsByte (p : Part) : Byte := bitsByte (elementPlaces.map p.elements.contains)

/-- The four bytes of a part place. -/
def partBytes (k : PartKind) : Option Part → List Byte
  | none => filled 4
  | some p => [byte k.code, byte p.state.code, bitsByte [p.queued, decide (p.resends = 1)], p.elementsByte]

/-- The tightening or darkening part, whichever the site has. -/
def DeliverySite.firstPlace (d : DeliverySite) : List Byte :=
  match d.darkening with
  | some p => partBytes .darkening (some p)
  | none => partBytes .tightening d.tightening

/-- The 37 bytes of a READ_DELIVERY record. -/
def DeliverySite.bytes (d : DeliverySite) (index : Nat) (r : SiteRecord) : List Byte :=
  [byte index, byte r.kind.code] ++ imageBytes r.elements 0xFE d.wanted ++
  imageBytes r.elements 0xFF ((d.commanded.map (·.image)).getD []) ++ [optByte (d.commanded.map (·.epoch))] ++
  imageBytes r.elements 0xFF d.confirmed ++ [optByte d.applied] ++
  d.firstPlace ++ partBytes .relaxing d.relaxing ++
  [bitsByte [d.inFlight, d.commanded.isSome, d.applied.isSome]]

/-- The number of pending parts of one kind over the section. -/
def Delivery.pendingCount (d : Delivery) (k : PartKind) : Nat :=
  (d.sites.filter fun x => pendingPart (x.part k)).length

/-- The record of one listed site. -/
def State.deliveryRecord (s : State) (i : Nat) : List Byte :=
  match s.site i, s.store.site i with
  | some d, some r => d.bytes i r
  | _, _ => []

/-- A READ_DELIVERY payload for the sites listed (R160, R176). -/
def State.deliveryBytes (s : State) (listed : List Nat) : List Byte :=
  [optByte listed.head?, byte s.delivery.target.code] ++ be16 s.delivery.epoch ++
  [byte s.delivery.state.code, byte (s.delivery.pendingCount .tightening), byte (s.delivery.pendingCount .relaxing),
    byte (s.delivery.pendingCount .darkening)] ++
  be16 s.delivery.abandoned ++ completionBytes s.drawn s.delivery.completion ++ listed.flatMap s.deliveryRecord

end Sys2Proof.Machine
end

