-- ==== Sys2Proof/Machine/ConfigCmds.lean ====
section
/-! DEFINITION. The meanings of the commands of the configuration store: the geometry writes (R4 to R7), COMMIT and the
end of its validation (R8 to R11, R163), and PARAM_SET (R12 to R16). -/

namespace Sys2Proof.Machine

/-! ## Geometry writes (R5 to R7) -/

/-- The state with its configuration store changed. -/
def State.withStore (s : State) (f : Store → Store) : State := { s with store := f s.store }

/-- The slots with new contents from a start index on. -/
def putFrom {α : Type} (slots : List α) (start : Nat) (contents : List α) : List α :=
  slots.take start ++ contents ++ slots.drop (start + contents.length)

/-- The start index in use: the sender's cursor for 255 (R5). -/
def startInUse (given cursor : Nat) : Nat := if given = 255 then cursor else given

/-- R6: whether a write's records fit the slots of their kind. -/
def writeFits (slots given cursor count : Nat) : Bool :=
  decide ((given = 255 ∨ given < slots) ∧ startInUse given cursor + count ≤ slots)

/-- A geometry write's checks after authority and form, and its effect (R7): `place` stores the records from the start
index in use on. -/
def geometryBody {α : Type} (p : Port) (slots given : Nat) (records : List (Placed α))
    (place : Nat → List (Option α) → Store → Store) : CommandBody := fun s =>
  let cursor := s.store.cursors.get p
  let start := startInUse given cursor
  if s.store.commit ≠ .openState then refuse .wrongMode s
  else if records.isEmpty then refuse .invalid s
  else if !writeFits slots given cursor records.length then refuse .badRange s
  else
    match records.findIdx? fun r => !r.good with
    | some k => answer .invalid [byte (start + k)] s
    | none =>
      let after := start + records.length
      answer .ok [byte after] (s.withStore fun c =>
        { place start (records.map Placed.content) c with cursors := c.cursors.set p after })

/-- GEOMETRY_WRITE. -/
def execGeometryWrite (p : Port) (seq : Byte) (payload : List Byte) (s : State) : Host.Outcome State Fault Refusal :=
  .next (s.takeFrame p 0x20 seq
    (judged p .supervisory (recordsForm 8 payload)
      (geometryBody p 32 (at' payload 0) ((recordsOf 8 payload).map parseSite)
        fun start rs c => { c with sites := putFrom c.sites start rs })))

/-- STATION_WRITE. -/
def execStationWrite (p : Port) (seq : Byte) (payload : List Byte) (s : State) : Host.Outcome State Fault Refusal :=
  .next (s.takeFrame p 0x21 seq
    (judged p .supervisory (recordsForm 21 payload)
      (geometryBody p 16 (at' payload 0) ((recordsOf 21 payload).map parseStation)
        fun start rs c => { c with stations := putFrom c.stations start rs })))

/-- BOUNDARY_WRITE's own checks and effect (R4). -/
def boundaryBody (payload : List Byte) : CommandBody := fun s =>
  if s.store.commit ≠ .openState then refuse .wrongMode s
  else
    match parseBoundary payload with
    | none => refuse .invalid s
    | some b => answer .ok [] (s.withStore fun c => { c with boundary := some b })

/-- BOUNDARY_WRITE. -/
def execBoundaryWrite (p : Port) (seq : Byte) (payload : List Byte) (s : State) : Host.Outcome State Fault Refusal :=
  .next (s.takeFrame p 0x22 seq
    (judged p .supervisory (decide (payload.length = 2)) (boundaryBody payload)))

/-! ## COMMIT (R8 to R11) -/

/-- The code of COMMIT. -/
def commitCode : Byte := 0x23

/-- COMMIT (R8): VALIDATING, its reply to come at the end of the validation. -/
def commitBody : CommandBody := fun s =>
  if s.store.commit ≠ .openState then refuse .wrongMode s
  else (s.withStore fun c => { c with commit := .validating }, none)

/-- COMMIT. -/
def execCommit (p : Port) (seq : Byte) (payload : List Byte) (s : State) : Host.Outcome State Fault Refusal :=
  .next (s.takeFrame p commitCode seq (judged p .supervisory payload.isEmpty commitBody))

/-- R10: the geometry derived, the store LOCKED, and the blocks begun on the committed section. -/
def State.begin (s : State) : State :=
  let c : Store := { s.store with commit := .locked, geometry := some s.store.derive }
  let units := (s.store.derive).units.map fun d => d.record
    (match d.owner with
      | .sign i => ((c.site i).map (·.unitElements)).getD []
      | .outstation _ => [])
  let s1 : State := { s with
    store := c
    mode := .shadow
    units := units
    stations := c.usedStations.map fun (k, r) => newStation k r.lanes.length 0 0
    evaluator := { s.evaluator with
      plan := c.resetPlan
      epoch := 0
      pending := true
      available := c.configured.map fun _ => [] }
    delivery := { Delivery.initial with
      sites := (List.range c.siteCount).map fun i => newDeliverySite (planSite c.resetPlan i)
      drifts := s.delivery.drifts
      abandonments := s.delivery.abandonments } }
  let s2 : State := { s1 with
    table := { s1.table with demand := s1.summary }
    lines := s1.lines.map fun l r => { r with cycle := some (s1.newCycle l 0) } }
  s2.notifyAll .mode

/-- The port that executes the COMMIT under validation. -/
def State.committer (s : State) : Option Port :=
  allPorts.find? fun p =>
    match (s.port p).command with
    | none => false
    | some c => decide (c.code = commitCode)

/-- The outcome of a validation (R9, R10). -/
def State.endValidation (s : State) : State × Answer :=
  match s.store.validate with
  | some (kind, index) =>
    (s.withStore fun c => { c with commit := .openState }, (.constraint, [byte kind.code, byte index]))
  | none => (s.begin, (.ok, [byte s.begin.store.siteCount, byte s.begin.store.stationCount]))

/-- COMMIT_VALIDATION_END (R9, R10, R163). -/
def execCommitValidationEnd (s : State) : Host.Outcome State Fault Refusal :=
  .next (if s.store.commit = .validating then
      match s.committer with
      | none => s.endValidation.1
      | some p => s.endValidation.1.placeReply p s.endValidation.2
    else s)

/-! ## PARAM_SET (R12 to R16) -/

/-- The pairs of a set with their parameters; those that name none are left out. -/
def knownPairs (pairs : List (Nat × Nat)) : List (ParamId × Nat) :=
  pairs.filterMap fun (i, v) => (ParamId.ofCode i).map fun x => (x, v)

/-- The parameters that a set of clamped pairs leaves (R13, R14). -/
def applyPairs (ps : Params) (pairs : List (ParamId × Nat)) : Params :=
  pairs.foldl (fun q (i, v) => setParam q i (clampParam i v)) ps

/-- The pairs that clamping changes (R13). -/
def clampedPairs (pairs : List (ParamId × Nat)) : List (ParamId × Nat) :=
  pairs.filter fun (i, v) => decide (clampParam i v ≠ v)

/-- The reply of a set that is stored (R13, R176). -/
def paramAnswer (clamped : List (ParamId × Nat)) : Answer :=
  match clamped with
  | [] => (.ok, [])
  | (i, _) :: _ => (.clamped, [byte i.code, byte clamped.length])

/-- PARAM_SET's own checks and effect (R12 to R14, R16). -/
def paramBody (pairs : List (Nat × Nat)) : CommandBody := fun s =>
  if pairs.isEmpty then refuse .invalid s
  else
    match offendingPair [] 0 pairs with
    | some k => answer .invalid [byte k] s
    | none =>
      let known := knownPairs pairs
      let ps := applyPairs s.store.params known
      match brokenConstraint ps with
      | some i => answer .constraint [byte i.code] s
      | none =>
        ((s.withStore fun c => { c with params := ps }).markPending, some (paramAnswer (clampedPairs known)))

/-- PARAM_SET. A payload that is not whole pairs is INVALID and names no pair (log entry 13). -/
def execParamSet (p : Port) (seq : Byte) (payload : List Byte) (s : State) : Host.Outcome State Fault Refusal :=
  .next (s.takeFrame p 0x24 seq
    (judged p .supervisory (decide (payload.length % 3 = 0)) (paramBody (pairsOf payload))))

end Sys2Proof.Machine
end

