-- ==== Sys2Proof/Machine/EvaluatorCmds.lean ====
section
/-! DEFINITION. The meanings of the events of the plan evaluator: HOLD_DEADLINE_EXPIRY, PASS_START and PASS_END (R56,
R59 to R63). -/

namespace Sys2Proof.Machine

/-- HOLD_DEADLINE_EXPIRY (R62): deadlines that have run out and were not noticed before set the pending flag. -/
def execHoldDeadlineExpiry (s : State) : Host.Outcome State Fault Refusal :=
  .next (if s.evaluator.holdDue s.now then
      { s with evaluator := { s.evaluator with pending := true, holdSeen := s.now } }
    else s)

/-- Whether a pass starts now (R59). -/
def State.passDue (s : State) : Bool :=
  s.evaluator.running.isNone && s.evaluator.pending && decide (s.mode ≠ .unconfigured)

/-- The inputs a pass takes at its start (R59). -/
def State.passInputs (s : State) : Pass where
  demand := s.table.demand
  available := s.evaluator.available
  params := s.store.params
  plan := s.evaluator.plan
  time := s.now
  overtaken := false

/-- PASS_START (R59). -/
def execPassStart (s : State) : Host.Outcome State Fault Refusal :=
  .next (if s.passDue then
      { s with evaluator := { s.evaluator with running := some s.passInputs, pending := false } }
    else s)

/-- R56: a plan published as the current one under the next epoch number; delivery takes the epoch (R155). -/
def State.publish (s : State) (plan : List PlanSite) : State :=
  ({ s with evaluator := { s.evaluator with plan := plan, epoch := nextEpoch s.evaluator.epoch } }.notifyAll
    .plan).takeEpoch

/-- A pass that publishes nothing leaves the plan's values and takes its reports (R56). -/
def Evaluator.keepPlan (e : Evaluator) (plan : List PlanSite) : Evaluator :=
  { e with plan := e.plan.mapIdx fun i x => takeReports x (planSite plan i) }

/-- What a completed pass does (R56, R60, R61). -/
def State.endPass (s : State) (p : Pass) : State :=
  let plan := runPass s.store p
  let s1 := { s with evaluator := { s.evaluator with running := none } }
  if p.overtaken then s1
  else if plansDiffer s.evaluator.plan plan then s1.publish plan
  else { s1 with evaluator := s1.evaluator.keepPlan plan }

/-- PASS_END (R60). -/
def execPassEnd (s : State) : Host.Outcome State Fault Refusal :=
  .next (match s.evaluator.running with
    | none => s
    | some p => s.endPass p)

end Sys2Proof.Machine
end

