-- ==== Sys2Proof/Machine/LineCmds.lean ====
section
/-! DEFINITION. The meanings of the events of the field lines (R108, R112 to R119, R122). A line takes no event while the
part is held in reset. -/

namespace Sys2Proof.Machine

/-- Whether the lines work: the part is not held in reset (R161). -/
def State.awake (s : State) : Bool := decide (s.phase ≠ .held)

/-- A change of one line's record. -/
def State.onLine (s : State) (l : LineId) (f : LineRec → LineRec) : State :=
  if s.awake then s.setLine l (f (s.line l)) else s

/-! ## Activity and quiet (R108, R117, R119) -/

/-- LINE_ACTIVITY: a transition on the receive signal. -/
def execLineActivity (l : LineId) (s : State) : Host.Outcome State Fault Refusal :=
  .next (s.onLine l (LineRec.activity s.now))

/-- A burst outside any window counted on a NORMAL line, once for the burst, and not while an inverted reply is being
skipped (R115, R116). -/
def LineRec.countBurst (r : LineRec) : LineRec :=
  if decide (r.state = .normal) && !r.driving && !r.skipping && !r.burstCounted then r.countFalseActivity else r

/-- A frame that the line becoming quiet cut short (R108): in a window a frame error, or false activity when its
address is another; outside one false activity (R113, R115). -/
def State.endFrame (s : State) (l : LineId) (cut : List Byte) : LineRec :=
  let r := s.line l
  if cut.isEmpty then r
  else
    match r.openWindow with
    | none => r.countBurst
    | some _ =>
      match s.verdict l cut with
      | some .incomplete => r.countFrameError
      | some .wrongAddress => r.countFalseActivity
      | _ => r

/-- A line becoming quiet: the jam timer stops, the skipping of an inverted reply and the burst end. -/
def LineRec.becomeQuiet (r : LineRec) : LineRec :=
  { r with quiet := true, jamTimer := none, skipping := false, burstCounted := false }

/-- LINE_QUIET (R108): IDLE_GUARD has passed; a line already quiet stays as it is. -/
def execLineQuiet (l : LineId) (cut : List Byte) (s : State) : Host.Outcome State Fault Refusal :=
  .next (if s.awake && !(s.line l).quiet then s.setLine l (s.endFrame l cut).becomeQuiet else s)

/-! ## Frames and replies (R112 to R116) -/

/-- The work a line starts a frame for now (R112, R121). -/
def State.workDue (s : State) (l : LineId) : Option Work :=
  if s.awake && (s.line l).clear then arbiter s.mode (s.line l) else none

/-- FRAME_START (R112, R121). -/
def execFrameStart (l : LineId) (s : State) : Host.Outcome State Fault Refusal :=
  .next (match s.workDue l with
    | none => s
    | some w => s.startWork l w)

/-- The end of a frame: the driver enable released and the reply window open (R108, R113). -/
def LineRec.frameSent (now : Nat) (r : LineRec) : LineRec :=
  if r.driving then
    { r with
      driving := false
      transaction := r.transaction.map fun t => { t with stage := .window (now + t.window) } }
  else r

/-- FRAME_SENT. -/
def execFrameSent (l : LineId) (s : State) : Host.Outcome State Fault Refusal :=
  .next (s.onLine l (LineRec.frameSent s.now))

/-- VALID_REPLY (R113, R114): a frame that is valid in the open window ends the attempt with success. -/
def execValidReply (l : LineId) (frame : List Byte) (s : State) : Host.Outcome State Fault Refusal :=
  .next (match (s.line l).openWindow, s.verdict l frame with
    | some t, some (.valid r) => s.takeValidReply l t r
    | _, _ => s)

/-- REPLY_FRAME_ERROR (R110, R113): a bad check or a malformed frame in the open window; its characters are activity
(R108). -/
def execReplyFrameError (l : LineId) (frame : List Byte) (s : State) : Host.Outcome State Fault Refusal :=
  .next (match s.verdict l frame with
    | some .badCheck => s.setLine l ((s.line l).activity s.now).countFrameError
    | some .malformed => s.setLine l ((s.line l).activity s.now).countFrameError
    | _ => s)

/-- An inverted reply (R116): skipped to the next quiet; a third in a row flips the line at the next frame started. A
second flip before that frame turns the pending one back (log entry 41). -/
def LineRec.inverted (r : LineRec) : LineRec :=
  if Config.polarityStreak ≤ r.streak + 1 then
    { r with
      skipping := true
      streak := 0
      flipNext := !r.flipNext
      counters := { r.counters with flips := countUp r.counters.flips } }
  else { r with skipping := true, streak := r.streak + 1 }

/-- INVERTED_REPLY: in the open window, and not within one being skipped; its characters are activity (R108). -/
def execInvertedReply (l : LineId) (s : State) : Host.Outcome State Fault Refusal :=
  .next (if (s.line l).openWindow.isSome && !(s.line l).skipping then
      s.setLine l ((s.line l).activity s.now).inverted
    else s)

/-- FALSE_ACTIVITY (R115): in a window a frame of another address; outside one a burst, counted on a NORMAL line. Its
characters are activity (R108): on a JAMMED line they feed the unjam timer. -/
def execFalseActivity (l : LineId) (frame : List Byte) (s : State) : Host.Outcome State Fault Refusal :=
  .next (match (s.line l).openWindow with
    | none => s.onLine l fun r => (r.activity s.now).countBurst
    | some _ =>
      match s.verdict l frame with
      | some .wrongAddress => s.setLine l ((s.line l).activity s.now).countFalseActivity
      | _ => s)

/-- Whether the window of a transaction has ended. -/
def Transaction.windowOver (t : Transaction) (now : Nat) : Bool :=
  match t.stage with
  | .window ends => decide (ends ≤ now)
  | _ => false

/-- REPLY_WINDOW_END (R114). -/
def execReplyWindowEnd (l : LineId) (s : State) : Host.Outcome State Fault Refusal :=
  .next (match (s.line l).openWindow with
    | none => s
    | some t => if t.windowOver s.now then s.failAttempt l t else s)

/-! ## Jams (R117 to R119) and poll cycles (R122) -/

/-- LINE_JAM (R117). -/
def execLineJam (l : LineId) (s : State) : Host.Outcome State Fault Refusal :=
  .next (if (s.line l).jamDue s.now then
      (s.setLine l ((s.line l).becomeJammed s.now (s.param (pollCycleId l)))).reportLine l UnitRec.lineJammed
    else s)

/-- The report of a continuing jam given (R118). -/
def LineRec.reportGiven (r : LineRec) : LineRec :=
  { r with jam := r.jam.map fun j => { j with reported := true } }

/-- JAM_CONTINUES (R118). -/
def execJamContinues (l : LineId) (s : State) : Host.Outcome State Fault Refusal :=
  .next (if (s.line l).jamReportDue s.now then
      (s.setLine l (s.line l).reportGiven).reportLine l UnitRec.jamContinued
    else s)

/-- A line NORMAL again (R119): both timers stopped, quiet, and a poll cycle numbered 0 in a committed section. -/
def State.unjammed (s : State) (l : LineId) : LineRec :=
  { s.line l with
    state := .normal
    quiet := true
    skipping := false
    burstCounted := false
    jamTimer := none
    jam := none
    unjamTimer := none
    cycle := if s.store.geometry.isSome then some (s.newCycle l 0) else none }

/-- LINE_UNJAM (R119). -/
def execLineUnjam (l : LineId) (s : State) : Host.Outcome State Fault Refusal :=
  .next (if (s.line l).unjamDue s.now then s.setLine l (s.unjammed l) else s)

/-- The poll cycle of a line that is over now (R122). -/
def State.cycleDue (s : State) (l : LineId) : Option PollCycle :=
  match (s.line l).cycle with
  | none => none
  | some c => if c.over s.now then some c else none

/-- The next poll cycle begun, a stretched one counted (R122). -/
def State.nextCycle (s : State) (l : LineId) (c : PollCycle) : LineRec :=
  let r := s.line l
  { r with
    cycle := some (s.newCycle l ((c.number + 1) % Config.cycleCount))
    counters := if c.stretched then { r.counters with stretched := countUp r.counters.stretched } else r.counters }

/-- POLL_CYCLE_START (R122). -/
def execPollCycleStart (l : LineId) (s : State) : Host.Outcome State Fault Refusal :=
  .next (match s.cycleDue l with
    | none => s
    | some c => s.setLine l (s.nextCycle l c))

end Sys2Proof.Machine
end

