-- ==== Sys2Proof/Machine/ModeCmds.lean ====
section
/-! DEFINITION. The meanings of the commands of mode control: SET_MODE (R158, R164 to R167) and RESTART (R168 and the
rules of each block's part of it). -/

namespace Sys2Proof.Machine

/-! ## SET_MODE -/

/-- A change of mode, with the MODE notice (R161). -/
def State.changeMode (s : State) (m : Mode) : State := { s with mode := m }.notifyAll .mode

/-- R164: the change to LIVE: the adopted plan as epoch 0, delivery DONE for it with no parts, and the mode. -/
def State.goLive (s : State) : State :=
  ((s.replacePlan s.adoptedPlan).changeMode .live).takeEpochZero .done

/-- R166 and R158: the change to DARKENING; a section already dark is SHADOW at once (R167). -/
def State.goDark (s : State) : State := (s.changeMode .darkening).formDark.judgeCompletion

/-- The mode a SET_MODE byte names (R175). -/
inductive ModeTarget where
  | shadow | live
  deriving DecidableEq, Repr

/-- LIVE and SHADOW are the only targets (R164). -/
def targetOf : Nat → Option ModeTarget
  | 1 => some .shadow
  | 2 => some .live
  | _ => none

/-- R164's table: the reason and the state after, from the mode as it stands. -/
def State.setMode (s : State) (t : ModeTarget) : State × Reason :=
  match s.mode, t with
  | .unconfigured, _ => (s, .wrongMode)
  | .shadow, .shadow => (s, .ok)
  | .shadow, .live => (s.goLive, .ok)
  | .live, .live => (s, .ok)
  | .live, .shadow => if s.planQuiet then (s.goDark, .ok) else (s, .planNotQuiet)
  | .darkening, .live => (s.goLive, .ok)
  | .darkening, .shadow => (s, .ok)

/-- R164's checks in their order, and its result; LEN is checked with the target. -/
def State.judgeSetMode (s : State) (p : Port) (payload : List Byte) : State × Reason :=
  if (s.port p).authority.rank < Authority.supervisory.rank then (s, .notPermitted)
  else if payload.length ≠ 1 then (s, .invalid)
  else
    match targetOf (at' payload 0) with
    | none => (s, .invalid)
    | some t => s.setMode t

/-- SET_MODE: every reply carries the mode after the command (R164, R176). -/
def setModeBody (p : Port) (payload : List Byte) : CommandBody := fun s =>
  let (s1, reason) := s.judgeSetMode p payload
  answer reason [byte s1.mode.code] s1

/-- The code of SET_MODE. -/
def setModeCode : Byte := 0x25

/-- SET_MODE LIVE, and every malformed SET_MODE. -/
def execSetModeLive (p : Port) (seq : Byte) (payload : List Byte) (s : State) : Host.Outcome State Fault Refusal :=
  .next (s.takeFrame p setModeCode seq (setModeBody p payload))

/-- SET_MODE SHADOW. -/
def execSetModeShadow (p : Port) (seq : Byte) (payload : List Byte) (s : State) : Host.Outcome State Fault Refusal :=
  .next (s.takeFrame p setModeCode seq (setModeBody p payload))

/-! ## RESTART -/

/-- The request table's part (R19): every entry removed, the arrival counter kept, the demand derived. -/
def State.restartTable (s : State) : State := s.changeTable { s.table with entries := [] }

/-- The liveness part (R53): every enabled port ACTIVE, its deadline one KEEP_WINDOW from now; no notice. -/
def State.restartPorts (s : State) : State :=
  { s with ports := s.ports.map fun p r =>
      if r.enabled then { r with liveness := .active, deadline := some (s.keepDeadline p) } else r }

/-- The unit table's part (R126): every mismatch mark cleared and the changes of availability handed on; no notice. -/
def State.restartUnits (s : State) : State :=
  s.forUnits fun i st =>
    match st.unit i with
    | none => st
    | some u => st.storeUnit i u.clearMarks

/-- Queue protection's part (R83): every record as created, but for its two counters. -/
def State.restartStations (s : State) : State :=
  { s with stations := s.stations.map fun x => newStation x.slot x.lanes.length x.rejected x.chatter }

/-- The field lines' part (R111): the SET queues emptied. -/
def State.restartLines (s : State) : State :=
  { s with lines := s.lines.map fun _ r => { r with queue := [] } }

/-- The plan's part and delivery's (R55, R159, R168), by the mode. In DARKENING the completion of a section already
dark is judged at the next event of delivery, since a RESTART leaves the mode (log entry 21). -/
def State.restartPlan (s : State) : State :=
  match s.mode with
  | .unconfigured => s
  | .live => (s.replacePlan s.adoptedPlan).takeEpochZero .done
  | .shadow => (s.replacePlan s.store.resetPlan).takeEpochZero .suppressed
  | .darkening => (s.replacePlan s.store.resetPlan).formDark

/-- The control ports' part (R184): every enabled port's flags hold RESET alone. -/
def State.restartFlags (s : State) : State := { s with ports := s.ports.map fun _ r => r.resetAlone }

/-- RESTART applied whole (R168); the table and the units before the plan. -/
def State.restarted (s : State) : State :=
  let s1 := s.restartTable.restartPorts.restartUnits.restartStations.restartLines.restartDelivery
  { s1.restartPlan with cause := .restart }.restartFlags

/-- RESTART's own check and effect (R168). -/
def restartBody : CommandBody := fun s =>
  if s.mode = .unconfigured then refuse .wrongMode s
  else answer .ok [byte s.restarted.mode.code] s.restarted

/-- RESTART. -/
def execRestart (p : Port) (seq : Byte) (payload : List Byte) (s : State) : Host.Outcome State Fault Refusal :=
  .next (s.takeFrame p 0x26 seq (judged p .supervisory payload.isEmpty restartBody))

end Sys2Proof.Machine
end

