-- ==== Sys2Proof/Machine/PortCmds.lean ====
section
/-! DEFINITION. The meanings of the transactions that carry out no command of their own: VOID_TRANSACTION,
READ_TRANSACTION, BAD_FRAME, OVERRUN and UNKNOWN_COMMAND (R170 to R174, R177). -/

namespace Sys2Proof.Machine

/-- A change of a port that takes transactions; a DISABLED or unready port takes none (R42, R162). -/
def State.onPort (s : State) (p : Port) (f : PortRec → PortRec) : State :=
  if s.hears p then s.setPort p (f (s.port p)) else s

/-- A void transaction of `n` bytes on a port (R170): it shifts out 00 for each of them and counts a frame error. -/
def PortRec.voided (n : Nat) (r : PortRec) : PortRec :=
  { r.frameError with shifted := List.replicate n 0 }

/-- VOID_TRANSACTION (R170). -/
def execVoidTransaction (p : Port) (sdi : List Byte) (s : State) : Host.Outcome State Fault Refusal :=
  .next (s.onPort p (PortRec.voided sdi.length))

/-- The bytes on SDO after the kind byte, so many clocked: the frame, then 00 (R170, R174). -/
def shiftedOut (frame : List Byte) (clocked : Nat) : List Byte :=
  (frame ++ List.replicate (clocked - frame.length) 0).take clocked

/-- The frame a read transaction shifts out: the waiting reply or the empty reply (R174). -/
def PortRec.readFrame (r : PortRec) : List Byte :=
  match r.reply with
  | none => emptyReply
  | some x => x.frame

/-- A read transaction of so many bytes after its kind byte: the slot empties if the reply was read whole (R174). -/
def PortRec.readOut (clocked : Nat) (r : PortRec) : PortRec :=
  { r with
    shifted := 0 :: shiftedOut r.readFrame clocked
    reply := if r.readFrame.length ≤ clocked then none else r.reply }

/-- READ_TRANSACTION (R174): it restarts no deadline and changes no flag. -/
def execReadTransaction (p : Port) (clocked : Nat) (s : State) : Host.Outcome State Fault Refusal :=
  .next (s.onPort p (PortRec.readOut clocked))

/-- The REJECT of a bad frame (R171). -/
def rejectReply (frame : List Byte) : Reply := ⟨0xFF, rejectSeq frame, .badFrame, []⟩

/-- A bad frame taken on a port (R171): a frame error; while IDLE a REJECT, which makes an overrun of an unread reply
(R174). -/
def PortRec.reject (frame : List Byte) (r : PortRec) : PortRec :=
  if r.executing then r.frameError
  else
    let r1 := if r.reply.isSome then r.frameError.overran else r.frameError
    { r1 with reply := some (rejectReply frame) }

/-- BAD_FRAME (R171): it does not restart the keepalive deadline. -/
def execBadFrame (p : Port) (frame : List Byte) (s : State) : Host.Outcome State Fault Refusal :=
  .next (s.onPort p (PortRec.reject frame))

/-- OVERRUN (R173, R53): a good frame discarded while the port is EXECUTING; it restarts the keepalive deadline and
returns a SILENT port. The event itself says that the port was executing: a command whose reply the model places in its
own step has no other sign of it (log entry 38). -/
def execOverrun (p : Port) (s : State) : Host.Outcome State Fault Refusal :=
  .next (if s.hears p then
      let s1 := s.goodFrameTaken p
      s1.setPort p (s1.port p).overran
    else s)

/-- UNKNOWN_COMMAND (R177): dispatched and answered with no payload. A code of section 10.3 is not this event. -/
def execUnknownCommand (p : Port) (code seq : Byte) (_payload : List Byte) (s : State) :
    Host.Outcome State Fault Refusal :=
  .next (if code ∈ knownCodes then s else s.takeFrame p code seq (refuse .unknownCommand))

end Sys2Proof.Machine
end

