-- ==== Sys2Proof/Machine/QpCmds.lean ====
section
/-! DEFINITION. The meanings of the timers of queue protection: FAULT_HOLD_EXPIRY (R99) and INHIBIT_EXPIRY (R106). -/

namespace Sys2Proof.Machine

/-- Whether the fault hold of a BLIND station has run out and that has not been taken yet (R99). -/
def Station.faultHoldDue (x : Station) (now : Nat) : Bool :=
  decide (x.state = .blind) && ranOut now x.faultHold && !x.faultOver

/-- R99: the running out taken. Of a remembered QUEUE or STOPPED that is not inhibited the entry goes, with the QUEUE
notice; of any other nothing visible changes. -/
def State.endFaultHold (s : State) (x : Station) : State :=
  let s1 := s.setStation { x with faultOver := true }
  if x.inhibit.isNone && x.effective.queuing then (s1.handStation x.slot).notifyAll .queue else s1

/-- FAULT_HOLD_EXPIRY (R99): the station stays BLIND with its remembered state. -/
def execFaultHoldExpiry (station : Nat) (s : State) : Host.Outcome State Fault Refusal :=
  .next (match s.station station with
    | none => s
    | some x => if x.faultHoldDue s.now then s.endFaultHold x else s)

/-- INHIBIT_EXPIRY (R106): the inhibit ends and the image or ABSENT is handed. -/
def execInhibitExpiry (station : Nat) (s : State) : Host.Outcome State Fault Refusal :=
  .next (match s.station station with
    | none => s
    | some x =>
      if ranOut s.now x.inhibit then (s.setStation { x with inhibit := none }).handStation station else s)

end Sys2Proof.Machine
end

