-- ==== Sys2Proof/Machine/ReadCmds.lean ====
section
/-! DEFINITION. The meanings of the commands that every authority may send: STATUS, KEEPALIVE, the five read commands,
NOTICES, SET_NOTICE_MASK and COUNTERS (sections 10.3 to 10.5; R40, R82, R107, R141, R160). -/

namespace Sys2Proof.Machine

/-! ## STATUS and KEEPALIVE -/

/-- STATUS (R179): the state as it stands, then the sender's overrun flag cleared. -/
def statusBody (p : Port) : CommandBody := fun s =>
  answer .ok (s.statusBytes p) (s.setPort p { s.port p with overrun := false })

/-- STATUS. -/
def execStatus (p : Port) (seq : Byte) (payload : List Byte) (s : State) : Host.Outcome State Fault Refusal :=
  .next (s.takeFrame p 0x01 seq (judged p .monitor payload.isEmpty (statusBody p)))

/-- KEEPALIVE (R45): it restarts the liveness as every good frame does, and no more. -/
def execKeepalive (p : Port) (seq : Byte) (payload : List Byte) (s : State) : Host.Outcome State Fault Refusal :=
  .next (s.takeFrame p 0x02 seq (judged p .monitor payload.isEmpty (answer .ok [])))

/-! ## Read commands -/

/-- Whether a payload is two bytes, a first and a last (R175). -/
def pairForm (payload : List Byte) : Bool := decide (payload.length = 2)


/-- READ_PLAN (R82): the range checked as a REQUEST's (R21), up to six records. -/
def readPlanBody (first last : Nat) : CommandBody := fun s =>
  let n := s.store.siteCount
  if s.mode = .unconfigured then answer .ok (s.planBytes []) s
  else if !rangeGood n first last then refuse .badRange s
  else
    answer (clampReason (decide (clampLast n last ≠ last)))
      (s.planBytes ((planSites n first (clampLast n last)).take 6)) s

/-- READ_PLAN. -/
def execReadPlan (p : Port) (seq : Byte) (payload : List Byte) (s : State) : Host.Outcome State Fault Refusal :=
  .next (s.takeFrame p 0x03 seq
    (judged p .monitor (pairForm payload) (readPlanBody (at' payload 0) (at' payload 1))))

/-- READ_ENTRIES (R40). -/
def readEntriesBody (start : Nat) : CommandBody := fun s => answer .ok (s.entryBytes start) s

/-- READ_ENTRIES. -/
def execReadEntries (p : Port) (seq : Byte) (payload : List Byte) (s : State) : Host.Outcome State Fault Refusal :=
  .next (s.takeFrame p 0x04 seq
    (judged p .monitor (decide (payload.length = 1)) (readEntriesBody (at' payload 0))))

/-- Whether a first and a last are in order and not above a greatest index (R107, R141). -/
def spanGood (greatest first last : Nat) : Bool := decide (first ≤ last ∧ last ≤ greatest)

/-- READ_UNITS (R141): the indices are not checked in UNCONFIGURED. -/
def readUnitsBody (first last : Nat) : CommandBody := fun s =>
  if decide (s.mode ≠ .unconfigured) && !spanGood 47 first last then refuse .badRange s
  else answer .ok (s.unitBytes first last) s

/-- READ_UNITS. -/
def execReadUnits (p : Port) (seq : Byte) (payload : List Byte) (s : State) : Host.Outcome State Fault Refusal :=
  .next (s.takeFrame p 0x05 seq
    (judged p .monitor (pairForm payload) (readUnitsBody (at' payload 0) (at' payload 1))))

/-- READ_STATIONS (R107): the numbers are not checked in UNCONFIGURED. -/
def readStationsBody (first last : Nat) : CommandBody := fun s =>
  if decide (s.mode ≠ .unconfigured) && !spanGood 15 first last then refuse .badRange s
  else answer .ok (s.stationBytes first last) s

/-- READ_STATIONS. -/
def execReadStations (p : Port) (seq : Byte) (payload : List Byte) (s : State) : Host.Outcome State Fault Refusal :=
  .next (s.takeFrame p 0x06 seq
    (judged p .monitor (pairForm payload) (readStationsBody (at' payload 0) (at' payload 1))))

/-- The sites READ_DELIVERY lists: those of the range below n, six at most (R160, R176). -/
def deliverySites (n first last : Nat) : List Nat :=
  ((List.range n).filter fun i => decide (first ≤ i ∧ i ≤ last)).take 6

/-- READ_DELIVERY (R160). A last completion of none draws a free value (log entry 4). -/
def readDeliveryBody (first last : Nat) : CommandBody := fun s =>
  let n := s.store.siteCount
  if s.mode = .unconfigured then answer .ok (s.deliveryBytes []) s.drawCompletion
  else if !spanGood 31 first last || decide (n ≤ first) then refuse .badRange s
  else answer (clampReason (decide (n ≤ last))) (s.deliveryBytes (deliverySites n first last)) s.drawCompletion

/-- READ_DELIVERY. -/
def execReadDelivery (p : Port) (seq : Byte) (payload : List Byte) (s : State) : Host.Outcome State Fault Refusal :=
  .next (s.takeFrame p 0x07 seq
    (judged p .monitor (pairForm payload) (readDeliveryBody (at' payload 0) (at' payload 1))))

/-! ## Notices -/

/-- NOTICES (R183): the flags reported and cleared at the same moment. -/
def noticesBody (p : Port) : CommandBody := fun s =>
  answer .ok (s.noticeBytes p) (s.setPort p { s.port p with flags := 0 }).drawCompletion

/-- NOTICES. -/
def execNotices (p : Port) (seq : Byte) (payload : List Byte) (s : State) : Host.Outcome State Fault Refusal :=
  .next (s.takeFrame p 0x08 seq (judged p .monitor payload.isEmpty (noticesBody p)))

/-- SET_NOTICE_MASK (R182): the whole mask replaced; no flag changes. -/
def setNoticeMaskBody (p : Port) (mask : Byte) : CommandBody := fun s =>
  answer .ok [mask] (s.setPort p { s.port p with mask := mask })

/-- SET_NOTICE_MASK. -/
def execSetNoticeMask (p : Port) (seq : Byte) (payload : List Byte) (s : State) :
    Host.Outcome State Fault Refusal :=
  .next (s.takeFrame p 0x09 seq
    (judged p .monitor (decide (payload.length = 1)) (setNoticeMaskBody p (payload.getD 0 0))))

/-! ## COUNTERS (R180) -/

/-- A port's counters at 0, its silence count among them. -/
def PortRec.clearCounters (r : PortRec) : PortRec :=
  { r with frameErrors := 0, overruns := 0, commands := 0, silences := 0 }

/-- A line's counters at 0. -/
def LineRec.clearCounters (r : LineRec) : LineRec := { r with counters := ⟨0, 0, 0, 0, 0, 0⟩ }

/-- Every counter of the part at 0 (R180). -/
def State.clearCounters (s : State) : State :=
  { s with
    ports := s.ports.map fun _ r => r.clearCounters
    lines := s.lines.map fun _ r => r.clearCounters
    units := s.units.map fun u => { u with misses := 0, restarts := 0 }
    stations := s.stations.map fun x => { x with rejected := 0, chatter := 0 }
    delivery := { s.delivery with drifts := 0, abandonments := 0 } }

/-- COUNTERS (R180): only a SUPERVISORY sender clears. -/
def countersBody (p : Port) (request : Byte) : CommandBody := fun s =>
  let clears := decide ((s.port p).authority = .supervisory ∧ request ≠ 0)
  answer .ok (s.counterBytes clears) (if clears then s.clearCounters else s)

/-- COUNTERS. -/
def execCounters (p : Port) (seq : Byte) (payload : List Byte) (s : State) : Host.Outcome State Fault Refusal :=
  .next (s.takeFrame p 0x0A seq
    (judged p .monitor (decide (payload.length = 1)) (countersBody p (payload.getD 0 0))))

end Sys2Proof.Machine
end

