-- ==== Sys2Proof/Machine/ResetCmds.lean ====
section
/-! DEFINITION. The meanings of the resets and of what follows their release: POWER_ON_RESET, PIN_RESET, RESET_RELEASE
and PORTS_READY (R41, R44, R161, R162, R184). -/

namespace Sys2Proof.Machine

/-- POWER_ON_RESET (R161): everything at its reset value, the straps sampled, the part held in the reset. -/
def execPowerOnReset (straps : Straps) (s : State) : Host.Outcome State Fault Refusal :=
  .next (State.afterReset s.now .held .power straps s.drawn s.pending)

/-- PIN_RESET (R161): a low level of at least 1 ms resets the part; a shorter one is ignored. -/
def execPinReset (straps : Straps) (lowMicros : Nat) (s : State) : Host.Outcome State Fault Refusal :=
  .next (if lowMicros < Config.resetPulseMicros then s
    else State.afterReset s.now .held .pin straps s.drawn s.pending)

/-- A port at its reset values, with the authority its straps gave it (R41). -/
def PortRec.cleared (r : PortRec) : PortRec := { PortRec.initial ⟨false, false⟩ with authority := r.authority }

/-- R161 and R162: the reset released: every block at its reset values, and the ports not ready for 20 ms. -/
def State.release (s : State) : State where
  now := s.now
  phase := .settling (s.now + Config.settleTime)
  mode := .unconfigured
  cause := s.cause
  store := .initial
  table := .initial
  ports := s.ports.map fun _ r => r.cleared
  evaluator := .initial
  stations := []
  units := []
  delivery := .initial
  lines := ⟨.initial, .initial⟩
  drawn := s.drawn
  pending := s.pending

/-- RESET_RELEASE: the part leaves the reset it is held in. -/
def execResetRelease (s : State) : Host.Outcome State Fault Refusal :=
  .next (if s.phase = .held then s.release else s)

/-- A port becoming ready (R44, R184): its keepalive deadline starts and its flags hold RESET alone. A DISABLED port
has neither. -/
def State.readied (s : State) (p : Port) (r : PortRec) : PortRec :=
  if r.enabled then { r.resetAlone with deadline := some (s.keepDeadline p) } else r

/-- Whether the 20 ms after reset release are over and the ports not yet ready (R162). -/
def State.readyDue (s : State) : Bool :=
  match s.phase with
  | .settling t => decide (t ≤ s.now)
  | _ => false

/-- PORTS_READY (R162): every enabled port becomes ready together. -/
def execPortsReady (s : State) : Host.Outcome State Fault Refusal :=
  .next (if s.readyDue then { s with phase := .ready, ports := s.ports.map s.readied } else s)

end Sys2Proof.Machine
end

