-- ==== Sys2Proof/Machine/TableCmds.lean ====
section
/-! DEFINITION. The meanings of the commands and timers of the request table: REQUEST, WITHDRAW, RELEASE, INHIBIT_QP,
the expiry of an entry and the silence of a port (R20 to R33, R46 to R52, R105). -/

namespace Sys2Proof.Machine

/-! ## REQUEST (R20 to R25) -/

/-- The entry a REQUEST stores in a slot; the table gives it its arrival sequence (R18, R24, R25). -/
def RequestFields.entry (r : RequestFields) (n now : Nat) (p : Port) (slot : Nat) : Entry where
  slot := slot
  requester := .port p
  tag := r.tag
  ask := r.ask n
  expiry := r.deadline now
  arrival := 0
  state := .active

/-- A REQUEST stored in a slot and answered (R24, R25, R176). -/
def storeRequest (r : RequestFields) (p : Port) (slot : Nat) (replaced : Bool) : CommandBody := fun s =>
  let n := s.store.siteCount
  let marks := r.marks n
  answer (clampReason (decide (marks ≠ 0)))
    (byte slot :: (be32 s.table.nextArrival ++ [flagByte replaced, byte marks]))
    (s.changeTable (s.table.store (r.entry n s.now p slot)))

/-- Checks 2 to 7 of R20, in their order. -/
def requestBody (p : Port) (r : RequestFields) : CommandBody := fun s =>
  if s.mode = .unconfigured then refuse .wrongMode s
  else if r.has 3 && decide ((s.port p).authority ≠ .supervisory) then refuse .notPermitted s
  else if !rangeGood s.store.siteCount r.first r.last then refuse .badRange s
  else if !r.partsGood then refuse .invalid s
  else
    match s.table.find (.port p) r.tag with
    | some e => storeRequest r p e.slot true s
    | none =>
      match s.table.freeSlot with
      | none => refuse .tableFull s
      | some slot =>
        if Config.quota ≤ s.table.count p then refuse .quota s else storeRequest r p slot false s

/-- REQUEST. -/
def execRequest (p : Port) (seq : Byte) (payload : List Byte) (s : State) : Host.Outcome State Fault Refusal :=
  .next (s.takeFrame p 0x10 seq
    (judged p .field (decide (payload.length = 10)) (requestBody p (requestFields payload))))

/-! ## WITHDRAW (R29, R30) -/

/-- WITHDRAW with a tag (R29). -/
def withdrawBody (p : Port) (tag : Nat) : CommandBody := fun s =>
  if s.mode = .unconfigured then refuse .wrongMode s
  else
    match s.table.find (.port p) tag with
    | none => refuse .notFound s
    | some _ =>
      answer .ok [1] (s.changeTable (s.table.remove fun e => decide (e.requester = .port p ∧ e.tag = tag)))

/-- WITHDRAW with a LEN other than 0; the one form of it has a LEN of 1 (R175). -/
def execWithdraw (p : Port) (seq : Byte) (payload : List Byte) (s : State) : Host.Outcome State Fault Refusal :=
  .next (s.takeFrame p 0x11 seq
    (judged p .field (decide (payload.length = 1)) (withdrawBody p (at' payload 0))))

/-- WITHDRAW ALL (R30). -/
def withdrawAllBody (p : Port) : CommandBody := fun s =>
  if s.mode = .unconfigured then refuse .wrongMode s
  else answer .ok [byte (s.table.count p)] (s.changeTable (s.table.remove fun e => e.ownedBy p))

/-- WITHDRAW ALL. -/
def execWithdrawAll (p : Port) (seq : Byte) (s : State) : Host.Outcome State Fault Refusal :=
  .next (s.takeFrame p 0x11 seq (judged p .field true (withdrawAllBody p)))

/-! ## RELEASE (R49 to R51) -/

/-- Whether a content shares at least one site of a section of n sites, or EXIT, with a range (R50). -/
def Ask.shares (a : Ask) (n first last : Nat) : Bool :=
  (List.range n ++ [Config.exitIndex]).any fun i => a.covers i && decide (first ≤ i ∧ i ≤ last)

/-- R50: the entries of X that a RELEASE considers. -/
def Entry.considered (e : Entry) (x : Port) (n first last : Nat) : Bool := e.ownedBy x && e.ask.shares n first last

/-- R50: whether a sender may release an entry of X. -/
def State.mayRelease (s : State) (sender x : Port) (e : Entry) : Bool :=
  decide ((s.port x).authority.rank ≤ (s.port sender).authority.rank) ||
    (decide (e.state = .frozen) && e.ask.closure.isNone)

/-- RELEASE carried out over a range that passed and may have been clamped (R51). Where it was clamped the answer is
CLAMPED also when no entry is considered or none is removed (log entry 40). -/
def releaseEntries (sender x : Port) (first last : Nat) (clamped : Bool) : CommandBody := fun s =>
  let considered := s.table.entries.filter fun e => e.considered x s.store.siteCount first last
  let gone := considered.filter (s.mayRelease sender x)
  let s1 := s.changeTable (s.table.remove fun e =>
    e.considered x s.store.siteCount first last && s.mayRelease sender x e)
  let s2 := if gone.isEmpty then s1 else s1.notify x .entry
  answer (clampReason clamped) [byte gone.length, byte (considered.length - gone.length), flagByte clamped] s2

/-- Checks 2 to 4 of R49, in their order. -/
def releaseBody (p : Port) (requester first last : Nat) : CommandBody := fun s =>
  let n := s.store.siteCount
  if s.mode = .unconfigured then refuse .wrongMode s
  else
    match Port.ofCode requester with
    | none => refuse .invalid s
    | some x =>
      if !rangeGood n first last then refuse .badRange s
      else releaseEntries p x first (clampLast n last) (decide (clampLast n last ≠ last)) s

/-- RELEASE. -/
def execRelease (p : Port) (seq : Byte) (payload : List Byte) (s : State) : Host.Outcome State Fault Refusal :=
  .next (s.takeFrame p 0x12 seq
    (judged p .field (decide (payload.length = 3))
      (releaseBody p (at' payload 0) (at' payload 1) (at' payload 2))))

/-! ## INHIBIT_QP (R105) -/

/-- The inhibit deadline a number of seconds sets: none for 0, and at most an hour (R105). -/
def inhibitDeadline (now seconds : Nat) : Option Nat :=
  if seconds = 0 then none else some (now + min seconds Config.inhibitMax * 1000)

/-- The inhibit set, replaced or ended, and the image or ABSENT handed; 0 seconds with no inhibit set changes nothing
(R105). -/
def State.setInhibit (s : State) (x : Station) (deadline : Option Nat) : State :=
  if deadline.isNone && x.inhibit.isNone then s
  else (s.setStation { x with inhibit := deadline }).handStation x.slot

/-- Checks 2 to 4 of R105, in their order, and its effect. -/
def inhibitBody (k seconds : Nat) : CommandBody := fun s =>
  if s.mode = .unconfigured then refuse .wrongMode s
  else if 15 < k then refuse .badRange s
  else
    match s.station k with
    | none => refuse .notFound s
    | some x =>
      let deadline := inhibitDeadline s.now seconds
      let s1 := s.setInhibit x deadline
      answer (clampReason (decide (Config.inhibitMax < seconds)))
        (byte x.state.code :: (secondsBytes s.now deadline ++ [flagByte (s1.table.inSlot (qpSlot k)).isSome])) s1

/-- INHIBIT_QP. -/
def execInhibitQp (p : Port) (seq : Byte) (payload : List Byte) (s : State) : Host.Outcome State Fault Refusal :=
  .next (s.takeFrame p 0x13 seq
    (judged p .field (decide (payload.length = 3)) (inhibitBody (at' payload 0) (word payload 1))))

/-! ## Timers -/

/-- A notice at the port that owns an entry; QP owns no port (R33). -/
def State.notifyOwner (s : State) (r : Requester) (n : Notice) : State :=
  match r with
  | .port p => s.notify p n
  | .qp => s

/-- ENTRY_EXPIRY (R31): the entry in the slot goes when its deadline has run out. -/
def execEntryExpiry (slot : Nat) (s : State) : Host.Outcome State Fault Refusal :=
  .next (match s.table.inSlot slot with
    | none => s
    | some e =>
      if ranOut s.now e.expiry then
        (s.changeTable (s.table.remove fun x => decide (x.slot = slot))).notifyOwner e.requester .entry
      else s)

/-- R46: a port becoming SILENT. -/
def State.fallSilent (s : State) (p : Port) : State :=
  let r := s.port p
  let s1 := s.setPort p { r with liveness := .silent, deadline := none, silences := countUp r.silences }
  let s2 :=
    if r.authority.owns then
      let t := s1.changeTable (s1.table.silence p)
      if s1.table.hasDrop p then t.notify p .entry else t
    else s1
  s2.notifyOthers p .port

/-- PORT_SILENT (R46): the keepalive deadline of an ACTIVE port has run out. -/
def execPortSilent (p : Port) (s : State) : Host.Outcome State Fault Refusal :=
  .next (if decide ((s.port p).liveness = .active) && ranOut s.now (s.port p).deadline then s.fallSilent p else s)

end Sys2Proof.Machine
end

