-- ==== Sys2Proof/Machine/Dispatch.lean ====
section
/-! DEFINITION. The dispatch of a command to its meaning. -/

namespace Sys2Proof.Machine

/-- The effect of one command on everything but the queue of waiting commands. -/
def exec (i : Instr) (s : State) : Host.Outcome State Fault Refusal :=
  match i with
  | .powerOnReset straps => Sys2Proof.Machine.execPowerOnReset straps s
  | .pinReset straps lowMicros => Sys2Proof.Machine.execPinReset straps lowMicros s
  | .portsReady => Sys2Proof.Machine.execPortsReady s
  | .voidTransaction p sdi => Sys2Proof.Machine.execVoidTransaction p sdi s
  | .readTransaction p clocked => Sys2Proof.Machine.execReadTransaction p clocked s
  | .badFrame p frame => Sys2Proof.Machine.execBadFrame p frame s
  | .overrun p => Sys2Proof.Machine.execOverrun p s
  | .unknownCommand p code seq payload => Sys2Proof.Machine.execUnknownCommand p code seq payload s
  | .status p seq payload => Sys2Proof.Machine.execStatus p seq payload s
  | .keepalive p seq payload => Sys2Proof.Machine.execKeepalive p seq payload s
  | .readPlan p seq payload => Sys2Proof.Machine.execReadPlan p seq payload s
  | .readEntries p seq payload => Sys2Proof.Machine.execReadEntries p seq payload s
  | .readUnits p seq payload => Sys2Proof.Machine.execReadUnits p seq payload s
  | .readStations p seq payload => Sys2Proof.Machine.execReadStations p seq payload s
  | .readDelivery p seq payload => Sys2Proof.Machine.execReadDelivery p seq payload s
  | .notices p seq payload => Sys2Proof.Machine.execNotices p seq payload s
  | .setNoticeMask p seq payload => Sys2Proof.Machine.execSetNoticeMask p seq payload s
  | .counters p seq payload => Sys2Proof.Machine.execCounters p seq payload s
  | .request p seq payload => Sys2Proof.Machine.execRequest p seq payload s
  | .withdraw p seq payload => Sys2Proof.Machine.execWithdraw p seq payload s
  | .withdrawAll p seq => Sys2Proof.Machine.execWithdrawAll p seq s
  | .release p seq payload => Sys2Proof.Machine.execRelease p seq payload s
  | .inhibitQp p seq payload => Sys2Proof.Machine.execInhibitQp p seq payload s
  | .geometryWrite p seq payload => Sys2Proof.Machine.execGeometryWrite p seq payload s
  | .stationWrite p seq payload => Sys2Proof.Machine.execStationWrite p seq payload s
  | .boundaryWrite p seq payload => Sys2Proof.Machine.execBoundaryWrite p seq payload s
  | .commit p seq payload => Sys2Proof.Machine.execCommit p seq payload s
  | .commitValidationEnd => Sys2Proof.Machine.execCommitValidationEnd s
  | .paramSet p seq payload => Sys2Proof.Machine.execParamSet p seq payload s
  | .setModeLive p seq payload => Sys2Proof.Machine.execSetModeLive p seq payload s
  | .setModeShadow p seq payload => Sys2Proof.Machine.execSetModeShadow p seq payload s
  | .restart p seq payload => Sys2Proof.Machine.execRestart p seq payload s
  | .portSilent p => Sys2Proof.Machine.execPortSilent p s
  | .entryExpiry slot => Sys2Proof.Machine.execEntryExpiry slot s
  | .holdDeadlineExpiry => Sys2Proof.Machine.execHoldDeadlineExpiry s
  | .passStart => Sys2Proof.Machine.execPassStart s
  | .passEnd => Sys2Proof.Machine.execPassEnd s
  | .faultHoldExpiry station => Sys2Proof.Machine.execFaultHoldExpiry station s
  | .inhibitExpiry station => Sys2Proof.Machine.execInhibitExpiry station s
  | .lineQuiet l partialFrame => Sys2Proof.Machine.execLineQuiet l partialFrame s
  | .frameStart l => Sys2Proof.Machine.execFrameStart l s
  | .frameSent l => Sys2Proof.Machine.execFrameSent l s
  | .validReply l frame => Sys2Proof.Machine.execValidReply l frame s
  | .replyFrameError l frame => Sys2Proof.Machine.execReplyFrameError l frame s
  | .invertedReply l => Sys2Proof.Machine.execInvertedReply l s
  | .falseActivity l frame => Sys2Proof.Machine.execFalseActivity l frame s
  | .replyWindowEnd l => Sys2Proof.Machine.execReplyWindowEnd l s
  | .lineJam l => Sys2Proof.Machine.execLineJam l s
  | .jamContinues l => Sys2Proof.Machine.execJamContinues l s
  | .lineUnjam l => Sys2Proof.Machine.execLineUnjam l s
  | .pollCycleStart l => Sys2Proof.Machine.execPollCycleStart l s
  | .resetRelease => Sys2Proof.Machine.execResetRelease s
  | .lineActivity l => Sys2Proof.Machine.execLineActivity l s

end Sys2Proof.Machine
end

