-- ==== Sys2Proof/Machine/Timers.lean ====
section
/-! DEFINITION. What the part does when no command waits: the events that its own time base and its own work bring
about, and the tick of the time base (log entry 8). -/

namespace Sys2Proof.Machine

/-- A command if a condition holds. -/
def dueIf (b : Bool) (i : Instr) : List Instr := if b then [i] else []

/-- The timer events of one port that are due. -/
def State.duePort (s : State) (p : Port) : List Instr :=
  dueIf (decide ((s.port p).liveness = .active) && ranOut s.now (s.port p).deadline) (.portSilent p)

/-- The timer events of one station that are due. -/
def Station.due (x : Station) (now : Nat) : List Instr :=
  dueIf (x.faultHoldDue now) (.faultHoldExpiry x.slot) ++ dueIf (ranOut now x.inhibit) (.inhibitExpiry x.slot)

/-- The events of one line that are due and that the part brings about itself. -/
def State.dueLine (s : State) (l : LineId) : List Instr :=
  dueIf (s.workDue l).isSome (.frameStart l) ++ dueIf ((s.line l).jamDue s.now) (.lineJam l) ++
    dueIf ((s.line l).jamReportDue s.now) (.jamContinues l) ++ dueIf ((s.line l).unjamDue s.now) (.lineUnjam l) ++
    dueIf (s.cycleDue l).isSome (.pollCycleStart l) ++
    dueIf (s.awake && (s.line l).quietDue s.now) (.lineQuiet l [])

/-- Every event of the part that is due now. -/
def State.dueEvents (s : State) : List Instr :=
  dueIf s.readyDue .portsReady ++ allPorts.flatMap s.duePort ++
    (s.table.entries.flatMap fun e => dueIf (ranOut s.now e.expiry) (.entryExpiry e.slot)) ++
    dueIf (s.evaluator.holdDue s.now) .holdDeadlineExpiry ++ dueIf s.passDue .passStart ++
    (s.stations.flatMap fun x => x.due s.now) ++ allLines.flatMap s.dueLine

/-- The time base one millisecond on (00_scope, Time). -/
def State.tick (s : State) : State := { s with now := s.now + 1 }

/-- An event of the part put in the queue. -/
def State.postpone (s : State) (i : Instr) : State := { s with pending := s.pending ++ [i] }

/-- The idle part: one event that is due is put in the queue, to be taken at the next step; with none due the time base
goes on by one millisecond. Which of several is taken is a free value (log entry 5). -/
def State.idle (s : State) : State :=
  match s.dueEvents with
  | [] => s.tick
  | [i] => s.postpone i
  | i :: j :: more =>
    (s.postpone ((i :: j :: more).getD (Config.tieBreak s.drawn % (more.length + 2)) i)).draw

end Sys2Proof.Machine
end

