-- ==== Sys2Proof/Safety.lean ====
section
/-! DEFINITION. The terms claims are stated in: what a control port command is to its port, what a step may leave
unchanged, and the invariants of the part. -/

namespace Sys2Proof.Machine

/-! ## Commands and their ports -/

/-- A good command frame: its port, CMD and SEQ. -/
structure Sent where
  port : Port
  code : Byte
  seq : Byte
  deriving DecidableEq, Repr

/-- The good frame that is taken as a command of its port while the port is IDLE (section 10.3, R177). -/
def sentFrame : Instr → Option Sent
  | .powerOnReset _ => none
  | .pinReset _ _ => none
  | .portsReady => none
  | .voidTransaction _ _ => none
  | .readTransaction _ _ => none
  | .badFrame _ _ => none
  | .overrun _ => none
  | .unknownCommand p code seq _ => some ⟨p, code, seq⟩
  | .status p seq _ => some ⟨p, 0x01, seq⟩
  | .keepalive p seq _ => some ⟨p, 0x02, seq⟩
  | .readPlan p seq _ => some ⟨p, 0x03, seq⟩
  | .readEntries p seq _ => some ⟨p, 0x04, seq⟩
  | .readUnits p seq _ => some ⟨p, 0x05, seq⟩
  | .readStations p seq _ => some ⟨p, 0x06, seq⟩
  | .readDelivery p seq _ => some ⟨p, 0x07, seq⟩
  | .notices p seq _ => some ⟨p, 0x08, seq⟩
  | .setNoticeMask p seq _ => some ⟨p, 0x09, seq⟩
  | .counters p seq _ => some ⟨p, 0x0A, seq⟩
  | .request p seq _ => some ⟨p, 0x10, seq⟩
  | .withdraw p seq _ => some ⟨p, 0x11, seq⟩
  | .withdrawAll p seq => some ⟨p, 0x11, seq⟩
  | .release p seq _ => some ⟨p, 0x12, seq⟩
  | .inhibitQp p seq _ => some ⟨p, 0x13, seq⟩
  | .geometryWrite p seq _ => some ⟨p, 0x20, seq⟩
  | .stationWrite p seq _ => some ⟨p, 0x21, seq⟩
  | .boundaryWrite p seq _ => some ⟨p, 0x22, seq⟩
  | .commit p seq _ => some ⟨p, 0x23, seq⟩
  | .commitValidationEnd => none
  | .paramSet p seq _ => some ⟨p, 0x24, seq⟩
  | .setModeLive p seq _ => some ⟨p, 0x25, seq⟩
  | .setModeShadow p seq _ => some ⟨p, 0x25, seq⟩
  | .restart p seq _ => some ⟨p, 0x26, seq⟩
  | .portSilent _ => none
  | .entryExpiry _ => none
  | .holdDeadlineExpiry => none
  | .passStart => none
  | .passEnd => none
  | .faultHoldExpiry _ => none
  | .inhibitExpiry _ => none
  | .lineQuiet _ _ => none
  | .frameStart _ => none
  | .frameSent _ => none
  | .validReply _ _ => none
  | .replyFrameError _ _ => none
  | .invertedReply _ => none
  | .falseActivity _ _ => none
  | .replyWindowEnd _ => none
  | .lineJam _ => none
  | .jamContinues _ => none
  | .lineUnjam _ => none
  | .pollCycleStart _ => none
  | .resetRelease => none
  | .lineActivity _ => none

/-- The least authority that may send a command (R43); MONITOR for what is no command. -/
def permittedTo : Instr → Authority
  | .powerOnReset _ => .monitor
  | .pinReset _ _ => .monitor
  | .portsReady => .monitor
  | .voidTransaction _ _ => .monitor
  | .readTransaction _ _ => .monitor
  | .badFrame _ _ => .monitor
  | .overrun _ => .monitor
  | .unknownCommand _ _ _ _ => .monitor
  | .status _ _ _ => .monitor
  | .keepalive _ _ _ => .monitor
  | .readPlan _ _ _ => .monitor
  | .readEntries _ _ _ => .monitor
  | .readUnits _ _ _ => .monitor
  | .readStations _ _ _ => .monitor
  | .readDelivery _ _ _ => .monitor
  | .notices _ _ _ => .monitor
  | .setNoticeMask _ _ _ => .monitor
  | .counters _ _ _ => .monitor
  | .request _ _ _ => .field
  | .withdraw _ _ _ => .field
  | .withdrawAll _ _ => .field
  | .release _ _ _ => .field
  | .inhibitQp _ _ _ => .field
  | .geometryWrite _ _ _ => .supervisory
  | .stationWrite _ _ _ => .supervisory
  | .boundaryWrite _ _ _ => .supervisory
  | .commit _ _ _ => .supervisory
  | .commitValidationEnd => .monitor
  | .paramSet _ _ _ => .supervisory
  | .setModeLive _ _ _ => .supervisory
  | .setModeShadow _ _ _ => .supervisory
  | .restart _ _ _ => .supervisory
  | .portSilent _ => .monitor
  | .entryExpiry _ => .monitor
  | .holdDeadlineExpiry => .monitor
  | .passStart => .monitor
  | .passEnd => .monitor
  | .faultHoldExpiry _ => .monitor
  | .inhibitExpiry _ => .monitor
  | .lineQuiet _ _ => .monitor
  | .frameStart _ => .monitor
  | .frameSent _ => .monitor
  | .validReply _ _ => .monitor
  | .replyFrameError _ _ => .monitor
  | .invertedReply _ => .monitor
  | .falseActivity _ _ => .monitor
  | .replyWindowEnd _ => .monitor
  | .lineJam _ => .monitor
  | .jamContinues _ => .monitor
  | .lineUnjam _ => .monitor
  | .pollCycleStart _ => .monitor
  | .resetRelease => .monitor
  | .lineActivity _ => .monitor

/-- The port whose wires carry the event: every transaction on a control port. -/
def transactionPort : Instr → Option Port
  | .powerOnReset _ => none
  | .pinReset _ _ => none
  | .portsReady => none
  | .voidTransaction p _ => some p
  | .readTransaction p _ => some p
  | .badFrame p _ => some p
  | .overrun p => some p
  | .unknownCommand p _ _ _ => some p
  | .status p _ _ => some p
  | .keepalive p _ _ => some p
  | .readPlan p _ _ => some p
  | .readEntries p _ _ => some p
  | .readUnits p _ _ => some p
  | .readStations p _ _ => some p
  | .readDelivery p _ _ => some p
  | .notices p _ _ => some p
  | .setNoticeMask p _ _ => some p
  | .counters p _ _ => some p
  | .request p _ _ => some p
  | .withdraw p _ _ => some p
  | .withdrawAll p _ => some p
  | .release p _ _ => some p
  | .inhibitQp p _ _ => some p
  | .geometryWrite p _ _ => some p
  | .stationWrite p _ _ => some p
  | .boundaryWrite p _ _ => some p
  | .commit p _ _ => some p
  | .commitValidationEnd => none
  | .paramSet p _ _ => some p
  | .setModeLive p _ _ => some p
  | .setModeShadow p _ _ => some p
  | .restart p _ _ => some p
  | .portSilent _ => none
  | .entryExpiry _ => none
  | .holdDeadlineExpiry => none
  | .passStart => none
  | .passEnd => none
  | .faultHoldExpiry _ => none
  | .inhibitExpiry _ => none
  | .lineQuiet _ _ => none
  | .frameStart _ => none
  | .frameSent _ => none
  | .validReply _ _ => none
  | .replyFrameError _ _ => none
  | .invertedReply _ => none
  | .falseActivity _ _ => none
  | .replyWindowEnd _ => none
  | .lineJam _ => none
  | .jamContinues _ => none
  | .lineUnjam _ => none
  | .pollCycleStart _ => none
  | .resetRelease => none
  | .lineActivity _ => none

/-- Whether an event belongs to a power-on or pin reset: the reset itself and its release (R161). -/
def isReset : Instr → Bool
  | .powerOnReset _ => true
  | .pinReset _ _ => true
  | .portsReady => false
  | .voidTransaction _ _ => false
  | .readTransaction _ _ => false
  | .badFrame _ _ => false
  | .overrun _ => false
  | .unknownCommand _ _ _ _ => false
  | .status _ _ _ => false
  | .keepalive _ _ _ => false
  | .readPlan _ _ _ => false
  | .readEntries _ _ _ => false
  | .readUnits _ _ _ => false
  | .readStations _ _ _ => false
  | .readDelivery _ _ _ => false
  | .notices _ _ _ => false
  | .setNoticeMask _ _ _ => false
  | .counters _ _ _ => false
  | .request _ _ _ => false
  | .withdraw _ _ _ => false
  | .withdrawAll _ _ => false
  | .release _ _ _ => false
  | .inhibitQp _ _ _ => false
  | .geometryWrite _ _ _ => false
  | .stationWrite _ _ _ => false
  | .boundaryWrite _ _ _ => false
  | .commit _ _ _ => false
  | .commitValidationEnd => false
  | .paramSet _ _ _ => false
  | .setModeLive _ _ _ => false
  | .setModeShadow _ _ _ => false
  | .restart _ _ _ => false
  | .portSilent _ => false
  | .entryExpiry _ => false
  | .holdDeadlineExpiry => false
  | .passStart => false
  | .passEnd => false
  | .faultHoldExpiry _ => false
  | .inhibitExpiry _ => false
  | .lineQuiet _ _ => false
  | .frameStart _ => false
  | .frameSent _ => false
  | .validReply _ _ => false
  | .replyFrameError _ _ => false
  | .invertedReply _ => false
  | .falseActivity _ _ => false
  | .replyWindowEnd _ => false
  | .lineJam _ => false
  | .jamContinues _ => false
  | .lineUnjam _ => false
  | .pollCycleStart _ => false
  | .resetRelease => true
  | .lineActivity _ => false

/-- A port that takes frames, is ACTIVE and is IDLE. -/
def State.serving (s : State) (p : Port) : Bool :=
  s.hears p && decide ((s.port p).liveness = .active ∧ (s.port p).command = none)

/-- The record of a serving port after a command has been answered on it and nothing else has happened there: the
keepalive deadline restarted (R45), the command counted (R178), an unread reply lost as an overrun (R174), and the reply
placed (R173). -/
def State.answered (s : State) (p : Port) (code seq : Byte) (a : Answer) : PortRec :=
  let r := s.port p
  { r with
    deadline := some (s.now + s.param (keepWindowId p) * 1000)
    reply := some ⟨code + 0x80, seq, a.1, a.2⟩
    commands := countUp r.commands
    overrun := r.overrun || r.reply.isSome
    overruns := if r.reply.isSome then countUp r.overruns else r.overruns }

/-! ## Frames -/

/-- Nothing but the record of one port differs. -/
def OnlyPort (p : Port) (s t : State) : Prop := t = s.setPort p (t.port p)

/-- Nothing but the records of the ports differs. -/
def OnlyPorts (s t : State) : Prop := t = { s with ports := t.ports }

/-- Nothing but the request table, the evaluator's pending flag and the ports differs. -/
def OnlyTable (s t : State) : Prop :=
  t = { s with
    table := t.table
    ports := t.ports
    evaluator := { s.evaluator with pending := t.evaluator.pending } }

/-- R35: the demand of a state is the one derived from its entries, and its evaluator is pending if it was before or if
a demand it reads changed. -/
def DemandFollows (s t : State) : Prop :=
  t.table.demand = t.store.spots.map (demandAt t.ports t.table.entries) ∧
  t.evaluator.pending =
    (s.evaluator.pending || decide (t.table.demand.map Demand.read ≠ s.table.demand.map Demand.read))

/-- Nothing but one line's record differs. -/
def OnlyLine (l : LineId) (s t : State) : Prop := t = s.setLine l (t.line l)

/-- Nothing of the lines but their SET queues differs, and in these every command in progress stays (R120). -/
def QueuesOnly (s t : State) : Prop :=
  ∀ l, t.line l = { s.line l with queue := (t.line l).queue } ∧
    (t.line l).queue.filter (·.inProgress) = (s.line l).queue.filter (·.inProgress)

/-- R35: the demand summary is the one of the entries as they stand. -/
def DemandDerived (s : State) : Prop := s.table.demand = s.store.spots.map (demandAt s.ports s.table.entries)

/-- What the handings of the field side leave: replies, misses and line reports reach the unit table, delivery, queue
protection, the request table's QP entries with the demand derived from them (R28, R35), the evaluator's availability and
pending flag, the notice flags and, where a dark target is left, the mode, which is SHADOW then (R157, R167). -/
structure FieldSide (s t : State) : Prop where
  now : t.now = s.now
  phase : t.phase = s.phase
  cause : t.cause = s.cause
  store : t.store = s.store
  drawn : t.drawn = s.drawn
  pending : t.pending = s.pending
  mode : t.mode = s.mode ∧ t.delivery.target = s.delivery.target ∨
    s.delivery.target = .dark ∧ t.delivery.target = .plan ∧ t.mode = .shadow
  entries : t.table.entries.filter (fun e => decide (e.slot < 48)) =
    s.table.entries.filter fun e => decide (e.slot < 48)
  derived : DemandDerived s → DemandDerived t
  plan : t.evaluator.plan = s.evaluator.plan
  epoch : t.evaluator.epoch = s.evaluator.epoch
  running : t.evaluator.running = s.evaluator.running
  holdSeen : t.evaluator.holdSeen = s.evaluator.holdSeen
  ports : ∀ p, t.port p = { s.port p with flags := (t.port p).flags }
  disabled : ∀ p, (s.port p).enabled = false → t.port p = s.port p
  slots : t.stations.map (·.slot) = s.stations.map (·.slot)

/-- What an event of line l leaves: `FieldSide`, the other line but for its SET queue, whose commands in progress stay
(R120), and the mode, which goes from DARKENING to SHADOW alone where the target is DARK in DARKENING alone (R158). -/
structure LineSide (l : LineId) (s t : State) : Prop where
  side : FieldSide s t
  others : ∀ m, m ≠ l → t.line m = { s.line m with queue := (t.line m).queue } ∧
    (t.line m).queue.filter (·.inProgress) = (s.line m).queue.filter (·.inProgress)
  mode : (s.delivery.target = .dark → s.mode = .darkening) →
    t.mode = s.mode ∨ s.mode = .darkening ∧ t.mode = .shadow

/-! ## Operands as the rules state them

The statements read operands, records and plans through the definitions from here on, which follow the rules' own words
and not the model's decoding. -/

/-- A byte of a payload as a number; 0 beyond its end. -/
def num (b : List Byte) (i : Nat) : Nat := (b.getD i 0).toNat

/-- Two bytes of a payload, high byte first (R169). -/
def num2 (b : List Byte) (i : Nat) : Nat := num b i * 256 + num b (i + 1)

/-- R21: a site range that passes in a section of n sites. -/
abbrev RangePasses (n first last : Nat) : Prop := last ≤ 32 ∧ first ≤ last ∧ (first < n ∨ first = 32)

/-- R23: the end a range that passes is taken with. -/
def rangeEnd (n last : Nat) : Nat := if n ≤ last ∧ last ≤ 31 then n - 1 else last

/-- Whether a REQUEST carries a part: limit 0, closure 1, legend 2, shoulder-open 3 (section 10.3). -/
def carries (b : List Byte) (part : Nat) : Bool := (num b 3).testBit part

/-- R22: the ten bytes of a REQUEST whose parts pass. -/
abbrev PartsPass (b : List Byte) : Prop :=
  1 ≤ num b 3 ∧ num b 3 ≤ 15 ∧ (carries b 1 = true → 1 ≤ num b 5 ∧ num b 5 ≤ 63) ∧
  (carries b 2 = true → 1 ≤ num b 6 ∧ num b 6 ≤ 7) ∧ num b 7 ≤ 1

/-- R23: the limit stored for a limit sent. -/
def storedLimit (v : Nat) : Nat := if v < 20 then 20 else if 120 < v then 120 else v / 10 * 10

/-- The legends by rank (section 2.1). -/
def legends : List Legend :=
  [.blank, .fog, .slowDown, .congestion, .queueAhead, .laneClosedAhead, .incidentAhead, .carriagewayClosed]

/-- R23: what a REQUEST that passes its checks stores of what it asks. -/
def storedAsk (n : Nat) (b : List Byte) : Ask where
  first := num b 1
  last := rangeEnd n (num b 2)
  limit := if carries b 0 then some (storedLimit (num b 4)) else none
  closure := if carries b 1 then some ((List.range 6).filter fun l => (num b 5).testBit l) else none
  legend := if carries b 2 then legends[num b 6]? else none
  shoulderOpen := carries b 3
  policy := if carries b 1 || decide (num b 7 = 0) then .hold else .drop

/-- R23 and R176: the clamp marks RANGE, LIMIT and POLICY, one bit each from the lowest. -/
def clampMarks (n : Nat) (b : List Byte) : Nat :=
  (if rangeEnd n (num b 2) ≠ num b 2 then 1 else 0) +
  (if carries b 0 ∧ storedLimit (num b 4) ≠ num b 4 then 2 else 0) +
  (if carries b 1 ∧ num b 7 = 1 then 4 else 0)

/-- Section 10.3 and R175: whether a command of this code has a form with so many payload bytes. -/
def lenAllowed (code : Byte) (n : Nat) : Bool :=
  if code ∈ ([0x01, 0x02, 0x08, 0x23, 0x26] : List Byte) then decide (n = 0)
  else if code ∈ ([0x04, 0x09, 0x0A, 0x25] : List Byte) then decide (n = 1)
  else if code ∈ ([0x03, 0x05, 0x06, 0x07, 0x22] : List Byte) then decide (n = 2)
  else if code ∈ ([0x12, 0x13] : List Byte) then decide (n = 3)
  else if code = 0x10 then decide (n = 10)
  else if code = 0x11 then decide (n ≤ 1)
  else if code = 0x20 then decide (1 ≤ n ∧ (n - 1) % 8 = 0)
  else if code = 0x21 then decide (1 ≤ n ∧ (n - 1) % 21 = 0)
  else if code = 0x24 then decide (n % 3 = 0)
  else false

/-- Whole seconds to a deadline, rounded up, in two bytes; 0 for none (R31, R82, R107, R169). -/
def leftBytes (now : Nat) (deadline : Option Nat) : List Byte :=
  be16 (match deadline with
    | none => 0
    | some d => (d - now + 999) / 1000)

/-! ## Reply records as R176 lays them out -/

/-- A yes or no in one byte. -/
def yes (b : Bool) : Byte := if b then 1 else 0

/-- A number in one byte, FF for none. -/
def orFF (x : Option Nat) : Byte := (x.map byte).getD 0xFF

/-- R176 and section 6.2: the code of an aspect on the wires. -/
def aspectByte : Aspect → Byte
  | .blank => 0
  | .opened => 1
  | .mergeNear => 2
  | .mergeOff => 3
  | .closed => 4

/-- The four bytes of a limit or legend element: its value, FE for UNAVAILABLE, its hold remaining and its report. -/
def shownBytes {α : Type} (now : Nat) (code : α → Byte) : Option (PlanElem α) → List Byte
  | none => [0xFF, 0xFF, 0xFF, 0xFF]
  | some e => (match e.value with
      | .unavailable => 0xFE
      | .value v => code v) :: (leftBytes now e.deadline ++ [yes e.held])

/-- The four bytes of a lane place. -/
def lanePlaceBytes (now : Nat) : Option LaneElem → List Byte
  | none => [0xFF, 0xFF, 0xFF, 0xFF]
  | some e => (match e.value with
      | .unavailable _ => 0xFE
      | .shows a => aspectByte a) :: (leftBytes now e.deadline ++
        [byte ((if e.held then 1 else 0) + (if e.displaced then 2 else 0) + (if e.unprotected then 4 else 0) +
          (if e.value = .unavailable true then 8 else 0))])

/-- A READ_PLAN record: a site by its index, EXIT by 32. -/
def planRecordBytes (s : State) (i : Nat) : List Byte :=
  let x := planSite s.evaluator.plan (if i = 32 then s.store.siteCount else i)
  [byte i, if i = 32 then 0xFF else orFF ((s.store.site i).map fun r => match r.kind with
    | .gantry _ _ => 0
    | .verge => 1
    | .message => 2)] ++
  shownBytes s.now (fun l : Limit => byte ((l.map (· / 10)).getD 0)) x.limit ++
  ((List.range 6).flatMap fun l => lanePlaceBytes s.now (x.lane l)) ++
  shownBytes s.now (fun g => byte g.rank) x.legend

/-- The two bytes of an element place of READ_UNITS. -/
def elementPlaceBytes (u : UnitRec) (name : ElemId) : List Byte :=
  match u.elements.find? fun x => decide (x.name = name) with
  | none => [0xFF, 0xFF]
  | some x =>
    [orFF (x.reported.map DisplayFault.code),
      byte ((if x.mark ≠ .clear then 4 else (x.reported.map DisplayFault.code).getD 7) +
        (if x.mark ≠ .clear then 8 else 0) + (if x.available then 16 else 0))]

/-- A READ_UNITS record. -/
def unitRecordBytes (u : UnitRec) (slot : Nat) : List Byte :=
  (match u.owner with
    | .sign i => [byte slot, 0, byte (LineId.code u.line), byte u.address, byte i]
    | .outstation k => [byte slot, 1, byte (LineId.code u.line), byte u.address, byte k]) ++
  [byte u.state.code, byte u.good, byte u.miss] ++ be16 (u.boot.getD 65535) ++
  (([.limit, .lane 0, .lane 1, .lane 2, .lane 3, .lane 4, .lane 5, .legend] : List ElemId).flatMap
    (elementPlaceBytes u)) ++
  be16 u.misses ++ be16 u.restarts

/-- A READ_STATIONS record; the reported speed of a lane is sm ÷ 16 to the nearest, halves up (R92). -/
def stationRecordBytes (s : State) (x : Station) : List Byte :=
  [byte x.slot, byte x.state.code, orFF (x.remembered.map StationState.code), byte x.onCount, byte x.offCount,
    byte x.stopCount] ++
  leftBytes s.now x.minHold ++ leftBytes s.now x.faultHold ++ leftBytes s.now x.inhibit ++ [orFF x.speed] ++
  (match s.table.inSlot (48 + x.slot) with
    | none => [0, 0xFF, 0xFF, 0xFF]
    | some e => [1, byte e.ask.first, byte e.ask.last, orFF e.ask.limit]) ++
  be16 x.rejected ++ be16 x.chatter ++
  (List.range 6).flatMap fun j =>
    match x.lanes[j]? with
    | none => [0xFF, 0xFF, 0xFF, 0xFF, 0xFF]
    | some l => [byte ((((s.store.station x.slot).map (·.lanes)).getD []).getD j 0),
        byte (l.standing.code + (if l.excluded then 8 else 0)), orFF (l.smoothed.map fun y => (y + 8) / 16)] ++
        be16 (l.occupancy.getD 65535)

/-- The parts of an entry as the bits of a REQUEST's parts byte: limit, closure, legend, shoulder-open. -/
def partBits (a : Ask) : Nat :=
  (if a.limit.isSome then 1 else 0) + (if a.closure.isSome then 2 else 0) + (if a.legend.isSome then 4 else 0) +
    (if a.shoulderOpen then 8 else 0)

/-- A READ_ENTRIES record: an absent part is 0; the remaining expiry of R31 is 0 for none, and 1 where it has run out and
its ENTRY_EXPIRY still waits (log entry 39). -/
def entryRecordBytes (s : State) (e : Entry) : List Byte :=
  [byte e.slot, match e.requester with
      | .port .a => 0
      | .port .b => 1
      | .port .c => 2
      | .qp => 3,
    byte e.tag, byte e.ask.first, byte e.ask.last, byte (partBits e.ask), byte (e.ask.limit.getD 0),
    byte (((List.range 6).map fun l => if l ∈ e.ask.closure.getD [] then 2 ^ l else 0).sum),
    byte ((e.ask.legend.map Legend.rank).getD 0), if e.ask.policy = .hold then 0 else 1,
    if e.state = .active then 0 else 1] ++
  be32 e.arrival ++
  be16 (match e.expiry with
    | none => 0
    | some d => if d ≤ s.now then 1 else (d - s.now + 999) / 1000) ++
  [byte (s.table.demand.filter fun d => decide (d.source = some (e.requester, e.tag))).length]

/-- The code of an element's value on the wires: a limit in tens of km/h, an aspect, a legend's rank. -/
def valueByte : ElemVal → Byte
  | .limit l => byte ((l.map (· / 10)).getD 0)
  | .lane a => aspectByte a
  | .legend g => byte g.rank

/-- R54: whether a site has an element. -/
def SiteRecord.has (r : SiteRecord) : ElemId → Bool
  | .limit => decide (r.kind ≠ .message)
  | .lane l => match r.kind with
    | .gantry running shoulder => decide (1 ≤ l ∧ l ≤ running ∨ l = 0 ∧ shoulder = true)
    | _ => false
  | .legend => r.sign

/-- The eight element places of a sign: limit, lanes of positions 0 to 5, legend. -/
def eightPlaces : List ElemId := [.limit, .lane 0, .lane 1, .lane 2, .lane 3, .lane 4, .lane 5, .legend]

/-- The eight bytes of an image at a site: FF for an element the site does not hold. -/
def eightBytes (r : SiteRecord) (unset : Byte) (m : Image) : List Byte :=
  eightPlaces.map fun e => if r.has e then ((m.lookup e).map valueByte).getD unset else 0xFF

/-- A part place: kind, state, queued and resend count, and the elements, bit 0 the limit to bit 7 the legend. -/
def partPlaceBytes (kind : Byte) : Option Part → List Byte
  | none => [0xFF, 0xFF, 0xFF, 0xFF]
  | some p => [kind, match p.state with
      | .waiting => 0
      | .sent => 1
      | .confirmed => 2
      | .abandoned => 3,
    byte ((if p.queued then 1 else 0) + (if p.resends = 1 then 2 else 0)),
    byte ((eightPlaces.mapIdx fun j e => if e ∈ p.elements then 2 ^ j else 0).sum)]

/-- A READ_DELIVERY record. -/
def deliveryRecordBytes (d : DeliverySite) (i : Nat) (r : SiteRecord) : List Byte :=
  [byte i, match r.kind with
    | .gantry _ _ => 0
    | .verge => 1
    | .message => 2] ++
  eightBytes r 0xFE d.wanted ++
  eightBytes r 0xFF ((d.commanded.map (·.image)).getD []) ++ [orFF (d.commanded.map (·.epoch))] ++
  eightBytes r 0xFF d.confirmed ++ [orFF d.applied] ++
  (if d.darkening.isSome then partPlaceBytes 2 d.darkening else partPlaceBytes 0 d.tightening) ++
  partPlaceBytes 1 d.relaxing ++
  [byte ((if d.inFlight then 1 else 0) + (if d.commanded.isSome then 2 else 0) + (if d.applied.isSome then 4 else 0))]

/-- How many sites have a pending part in one place. -/
def pendingSites (s : State) (place : DeliverySite → Option Part) : Nat :=
  (s.delivery.sites.filter fun d => match place d with
    | none => false
    | some p => decide (p.state = .waiting ∨ p.state = .sent)).length

/-- A READ_DELIVERY payload for the sites listed, which have their records; `free` is what stands for the epoch and the
abandoned count of a last completion of none (log entry 4). -/
def deliveryPayload (s : State) (free : List Byte) (listed : List Nat) : List Byte :=
  [orFF listed.head?, match s.delivery.target with
    | .plan => 0
    | .dark => 1] ++
  be16 s.delivery.epoch ++
  [match s.delivery.state with
    | .suppressed => 0
    | .delivering => 1
    | .done => 2,
    byte (pendingSites s (·.tightening)), byte (pendingSites s (·.relaxing)), byte (pendingSites s (·.darkening))] ++
  be16 s.delivery.abandoned ++
  (match s.delivery.completion with
    | none => 0xFF :: free
    | some c => (match c.target with
      | .plan => 0
      | .dark => 1) :: (be16 c.epoch ++ be16 c.abandoned)) ++
  listed.flatMap fun i => (((s.site i).bind fun d => (s.store.site i).map fun r => deliveryRecordBytes d i r)).getD []

/-! ## Geometry records as R2 and R3 state them -/

/-- R2 over the bytes of R175: a valid site record, or the unused marker. -/
def SiteBytesGood (b : List Byte) : Prop :=
  num b 0 = 255 ∨
  (num b 0 = 0 ∧ 1 ≤ num b 1 ∧ num b 1 ≤ 5 ∧ num b 2 ≤ 1 ∧ num b 3 ≤ 1 ∨
    num b 0 = 1 ∧ num b 1 = 255 ∧ num b 2 = 255 ∧ num b 3 ≤ 1 ∨
    num b 0 = 2 ∧ num b 1 = 255 ∧ num b 2 = 255 ∧ num b 3 = 1) ∧
  100 ≤ num2 b 4 ∧ num2 b 4 ≤ 5000 ∧ (num b 6 = 1 ∨ num b 6 = 2) ∧ 1 ≤ num b 7 ∧ num b 7 ≤ 63

/-- The content a slot takes from the bytes of a valid site record or of the unused marker. -/
def storedSite (b : List Byte) : Option SiteRecord :=
  if num b 0 = 255 then none
  else some {
    kind := if num b 0 = 0 then .gantry (num b 1) (decide (num b 2 = 1)) else if num b 0 = 1 then .verge else .message
    sign := decide (num b 3 = 1)
    gap := num2 b 4
    line := if num b 6 = 1 then .one else .two
    address := num b 7 }

/-- A trim byte from -7 to +7 in two's complement. -/
def trimGood (n : Nat) : Bool := decide (n ≤ 7 ∨ 249 ≤ n)

/-- R3 over the bytes of R175: a valid station record, or the unused marker. -/
def StationBytesGood (b : List Byte) : Prop :=
  num b 0 = 255 ∨
  num b 0 ≤ 31 ∧ num2 b 1 ≤ 5000 ∧ (num b 3 = 1 ∨ num b 3 = 2) ∧ 1 ≤ num b 4 ∧ num b 4 ≤ 63 ∧ num b 5 ≤ 1 ∧
  1 ≤ num b 6 ∧ num b 6 ≤ 6 ∧ (∀ j < num b 6, num b (7 + j) ≤ 5) ∧
  (num b 13 = 255 ∨ 30 ≤ num b 13 ∧ num b 13 ≤ 120) ∧
  (num b 14 = 0 ∨ num b 14 = 1 ∧ ∀ j < num b 6, trimGood (num b (15 + j)) = true)

/-- The content a slot takes from the bytes of a valid station record or of the unused marker; an absent effective length
is 60 dm and absent trims are 0 (R3). -/
def storedStation (b : List Byte) : Option StationRecord :=
  if num b 0 = 255 then none
  else some {
    site := num b 0
    offset := num2 b 1
    line := if num b 3 = 1 then .one else .two
    address := num b 4
    loop := if num b 5 = 0 then .single else .double
    lanes := (List.range (num b 6)).map fun j => num b (7 + j)
    effective := if num b 13 = 255 then 60 else num b 13
    trims := (List.range (num b 6)).map fun j =>
      if num b 14 = 0 then 0 else if num b (15 + j) ≤ 7 then (num b (15 + j) : Int) else (num b (15 + j) : Int) - 256 }

/-! ## COMMIT as R9 and R10 state it -/

/-- The lane positions present: 1 to the running lane count, and 0 with a shoulder (section 1.2, R4). -/
def LanePresent (running : Nat) (shoulder : Bool) (l : Nat) : Prop := 1 ≤ l ∧ l ≤ running ∨ l = 0 ∧ shoulder = true

/-- The lane positions present at a site; a VERGE and a MESSAGE site have none. -/
def SiteKind.Present : SiteKind → Nat → Prop
  | .gantry running shoulder, l => LanePresent running shoulder l
  | .verge, _ => False
  | .message, _ => False

/-- Check 2 of R9 for one station. -/
def StationSuits (c : Store) (n : Nat) (x : StationRecord) : Prop :=
  x.site < n ∧ ∀ r ∈ c.site x.site, ∀ running shoulder, r.kind = .gantry running shoulder →
    (∀ l ∈ x.lanes, LanePresent running shoulder l) ∧ x.lanes.Nodup

/-- The line and address of the m-th unit slot in the order of R10: sites 0 to n-1, then station slots 0 to 15. -/
def unitPair (c : Store) (n m : Nat) : Option (LineId × Nat) :=
  if m < n then (c.site m).map fun r => (r.line, r.address) else (c.station (m - n)).map fun r => (r.line, r.address)

/-- Check 4 of R9 fails at the m-th unit: its pair is that of an earlier one. -/
def Clashes (c : Store) (n m : Nat) : Prop := unitPair c n m ≠ none ∧ ∃ j < m, unitPair c n j = unitPair c n m

/-- R9: whether a check passes, n being one above the highest used site slot. -/
def CheckPasses (c : Store) (n : Nat) : Nat → Prop
  | 1 => ∀ i < max 2 n, c.site i ≠ none
  | 2 => ∀ k < 16, ∀ x ∈ c.station k, StationSuits c n x
  | 3 => c.boundary ≠ none
  | 4 => ∀ m < n + 16, ¬ Clashes c n m
  | 5 => ∀ x ∈ constraints, paramValue c.params x.lesser + x.margin ≤ paramValue c.params x.greater
  | _ => True

/-- R9 and R176: the record kind and the index or identity that a failed check reports. -/
def CheckReports (c : Store) (n : Nat) : Nat → Nat → Nat → Prop
  | 1, kind, i => kind = 0 ∧ i < max 2 n ∧ c.site i = none ∧ ∀ j < i, c.site j ≠ none
  | 2, kind, k => kind = 1 ∧ k < 16 ∧ (∃ x ∈ c.station k, ¬ StationSuits c n x) ∧
      ∀ j < k, ∀ x ∈ c.station j, StationSuits c n x
  | 3, kind, i => kind = 2 ∧ i = 32 ∧ c.boundary = none
  | 4, kind, i => ∃ m < n + 16, Clashes c n m ∧ (∀ j < m, ¬ Clashes c n j) ∧
      kind = (if m < n then 0 else 1) ∧ i = (if m < n then m else m - n)
  | 5, kind, i => kind = 3 ∧ ∃ x, constraints.find? (fun x =>
      decide (paramValue c.params x.greater < paramValue c.params x.lesser + x.margin)) = some x ∧ i = x.reported.code
  | _, _, _ => False

/-- R10: the geometry derived from the records of n sites. -/
structure DerivedGeometry (c : Store) (n : Nat) (g : Geometry) : Prop where
  sites : g.n = n
  points : g.positions.length = n + 1
  start : g.positions.getD 0 0 = 0
  gaps : ∀ i < n, ∀ r ∈ c.site i, g.positions.getD (i + 1) 0 = g.positions.getD i 0 + r.gap
  stations : ∀ k < 16, g.stationPositions.lookup k =
    (c.station k).map fun x => g.positions.getD x.site 0 + x.offset
  units : g.units = ((List.range n).filterMap fun i => (c.site i).map fun r => ⟨.sign i, r.line, r.address⟩) ++
    (List.range 16).filterMap fun k => (c.station k).map fun r => ⟨.outstation k, r.line, r.address⟩

/-- R9 and R10: every site of the committed section has its record, and EXIT its boundary. -/
def Store.Whole (c : Store) : Prop :=
  c.siteCount ≤ 32 ∧ (∀ i < c.siteCount, c.site i ≠ none) ∧ (c.geometry ≠ none → c.boundary ≠ none)

/-- R10: the section is committed: its geometry is there, and it is whole. -/
def Store.Committed (c : Store) : Prop := c.geometry ≠ none ∧ c.Whole

/-- R133: the elements a site's sign unit displays. -/
def SiteRecord.Displays (r : SiteRecord) : ElemId → Prop
  | .limit => r.kind = .verge
  | .lane l => r.kind.Present l
  | .legend => r.sign = true

/-- R54: the plan elements of a site. -/
def SiteRecord.Holds (r : SiteRecord) : ElemId → Prop
  | .limit => r.kind ≠ .message
  | .lane l => r.kind.Present l
  | .legend => r.sign = true

/-! ## Plans as R54, R55 and R165 state them -/

/-- R55: the reset form of a plan record. -/
def ResetRecord (hasLimit sign : Prop) (present : Nat → Prop) (x : PlanSite) : Prop :=
  (hasLimit → x.limit = some ⟨.value none, none, false⟩) ∧ (¬ hasLimit → x.limit = none) ∧
  (sign → x.legend = some ⟨.value .blank, none, false⟩) ∧ (¬ sign → x.legend = none) ∧
  ∀ l, (present l → x.lane l = some ⟨.shows .opened, none, false, false, false⟩) ∧ (¬ present l → x.lane l = none)

/-- R55: the plan in its reset form over the committed section. -/
def ResetPlan (c : Store) (plan : List PlanSite) : Prop :=
  plan.length = c.siteCount + 1 ∧
  (∀ i < c.siteCount, ∀ r ∈ c.site i, ResetRecord (r.kind ≠ .message) (r.sign = true) r.kind.Present (planSite plan i)) ∧
  ∀ b ∈ c.boundary, ResetRecord True False (LanePresent b.running b.shoulder) (planSite plan c.siteCount)

/-- R64: a lane whose demand aspect is CLOSED. -/
def ClosedDemand (d : Demand) (l : Nat) : Prop := l ∈ d.closed ∨ l = 0 ∧ d.opening = false

/-- R58: a site that is limit-capable with these elements available. -/
def LimitCapable (k : SiteKind) (available : List ElemId) : Prop :=
  match k with
  | .gantry running _ => ∃ l, 1 ≤ l ∧ l ≤ running ∧ ElemId.lane l ∈ available
  | .verge => ElemId.limit ∈ available
  | .message => False

/-- R65: EXIT's record, from its demand. -/
def ExitRecord (b : Boundary) (d : Demand) (x : PlanSite) : Prop :=
  x.limit = some ⟨.value d.limit, none, false⟩ ∧ x.legend = none ∧
  ∀ l, (LanePresent b.running b.shoulder l → ∃ e, x.lane l = some e ∧ e.deadline = none ∧ e.held = false ∧
      e.displaced = false ∧ (ClosedDemand d l → e.value = .shows .closed) ∧
      (¬ ClosedDemand d l → e.value = .shows .opened)) ∧
    (¬ LanePresent b.running b.shoulder l → x.lane l = none)

/-- The value confirmed for an element of a site; none where it has none. -/
def State.confirmedAt (s : State) (i : Nat) (e : ElemId) : Option ElemVal := (s.site i).bind fun d => d.confirmed.lookup e

/-- R165: the adopted record of site i, from what the part holds confirmed, available and demanded. -/
structure AdoptedRecord (t : State) (i : Nat) (r : SiteRecord) (x : PlanSite) : Prop where
  /-- Available lanes take the confirmed aspect, OPEN where that is BLANK or none; the others their demand's closure. -/
  lanes : ∀ l, r.kind.Present l → ∃ v, x.lane l = some v ∧ v.held = false ∧ v.displaced = false ∧
    v.unprotected = false ∧
    (ElemId.lane l ∈ t.evaluator.available.getD i [] →
      v.deadline = some (t.now + t.param .minDwell * 1000) ∧
      v.value = .shows (match t.confirmedAt i (.lane l) with
        | some (.lane a) => if a = .blank then .opened else a
        | _ => .opened)) ∧
    (ElemId.lane l ∉ t.evaluator.available.getD i [] →
      v.deadline = none ∧ (ClosedDemand (t.table.demandOf i) l → v.value = .unavailable true) ∧
      (¬ ClosedDemand (t.table.demandOf i) l → v.value = .unavailable false))
  /-- A limit-capable site takes the confirmed limit, NONE where there is none. -/
  limit : r.kind ≠ .message →
    (LimitCapable r.kind (t.evaluator.available.getD i []) →
      x.limit = some ⟨.value (match t.confirmedAt i .limit with
        | some (.limit l) => l
        | _ => none), some (t.now + t.param .minDwell * 1000), false⟩) ∧
    (¬ LimitCapable r.kind (t.evaluator.available.getD i []) → x.limit = some ⟨.unavailable, none, false⟩)
  /-- A message-capable site takes the confirmed legend, BLANK where there is none. -/
  legend : r.sign = true →
    (ElemId.legend ∈ t.evaluator.available.getD i [] →
      x.legend = some ⟨.value (match t.confirmedAt i .legend with
        | some (.legend g) => g
        | _ => .blank), some (t.now + t.param .minDwell * 1000), false⟩) ∧
    (ElemId.legend ∉ t.evaluator.available.getD i [] → x.legend = some ⟨.unavailable, none, false⟩)

/-- R165: a plan adopted from what the part holds. -/
def AdoptedPlan (t : State) (plan : List PlanSite) : Prop :=
  plan.length = t.store.siteCount + 1 ∧
  (∀ i < t.store.siteCount, ∀ r ∈ t.store.site i, AdoptedRecord t i r (planSite plan i)) ∧
  ∀ b ∈ t.store.boundary, ExitRecord b (t.table.demandOf t.store.siteCount) (planSite plan t.store.siteCount)

/-! ## A pass as R64 to R81 state it -/

/-- The limit a plan shows at a site or at EXIT; none where it shows none or UNAVAILABLE stands. -/
def limitAt (plan : List PlanSite) (i : Nat) : Option Limit :=
  match (planSite plan i).limit with
  | some ⟨.value l, _, _⟩ => some l
  | _ => none

/-- The legend a plan shows at a site; none where it shows none or UNAVAILABLE stands. -/
def legendAt (plan : List PlanSite) (i : Nat) : Option Legend :=
  match (planSite plan i).legend with
  | some ⟨.value g, _, _⟩ => some g
  | _ => none

/-- What a plan shows in a lane at a site or at EXIT. -/
def laneAt (plan : List PlanSite) (i l : Nat) : Option LaneValue := ((planSite plan i).lane l).map (·.value)

/-- A lane closed at a site of a plan (section 4.1). -/
def ClosedAt (plan : List PlanSite) (i l : Nat) : Prop :=
  laneAt plan i l = some (.shows .closed) ∨ laneAt plan i l = some (.unavailable true)

/-- A lane present and not closed at a site of a plan. -/
def OpenAt (plan : List PlanSite) (i l : Nat) : Prop := laneAt plan i l ≠ none ∧ ¬ ClosedAt plan i l

/-- A lane unavailable and not closed at a site of a plan. -/
def DarkAt (plan : List PlanSite) (i l : Nat) : Prop := laneAt plan i l = some (.unavailable false)

/-- A lane that shows an arrow at a site of a plan. -/
def ArrowAt (plan : List PlanSite) (i l : Nat) : Prop :=
  laneAt plan i l = some (.shows .mergeNear) ∨ laneAt plan i l = some (.shows .mergeOff)

/-- An element in hold at a pass time (R62). -/
def InHold (time : Nat) (deadline : Option Nat) : Prop := ∃ d, deadline = some d ∧ time < d

/-- Above no value: NONE stands above every limit. -/
def Within (l : Limit) (bound : Nat) : Prop := ∃ v, l = some v ∧ v ≤ bound

/-- R67 to R70: a merge duty of lane l that arose at `origin` waits above a site, displaced so many times. It arises
where the lane is closed and another is not, passes a site without lanes, and moves on past a dark lane not closed. -/
inductive Waits (plan : List PlanSite) (l : Nat) : (origin count site : Nat) → Prop where
  | arises {t m : Nat} : ClosedAt plan t l → OpenAt plan t m → Waits plan l t 0 t
  | passes {o k s : Nat} : Waits plan l o k (s + 1) → (planSite plan s).lanes = [] → Waits plan l o k s
  | displaced {o k s : Nat} : Waits plan l o k (s + 1) → DarkAt plan s l → k < 2 → Waits plan l o (k + 1) s

/-- The lanes not closed at a site of a plan whose positions meet a condition. -/
def openCount (plan : List PlanSite) (i : Nat) (side : Nat → Bool) : Nat :=
  ((planSite plan i).lanes.filter fun x => side x.1 &&
    decide (x.2.value ≠ .shows .closed ∧ x.2.value ≠ .unavailable true)).length

/-- R71: the arrow of a duty that arose for lane l at `origin`. -/
structure Arrow (plan : List PlanSite) (origin l : Nat) (a : Aspect) : Prop where
  /-- Toward the side of the nearest lane not closed. -/
  near : (∃ m < l, OpenAt plan origin m ∧ ∀ k, l < k → OpenAt plan origin k → l - m < k - l) → a = .mergeNear
  off : (∃ k, l < k ∧ OpenAt plan origin k ∧ ∀ m < l, OpenAt plan origin m → k - l < l - m) → a = .mergeOff
  /-- At equal distance toward the side with more lanes not closed, and else offside. -/
  tie : (∃ d, 0 < d ∧ d ≤ l ∧ OpenAt plan origin (l - d) ∧ OpenAt plan origin (l + d) ∧
      ∀ j, OpenAt plan origin j → d ≤ (j - l) + (l - j)) →
    a = if openCount plan origin (fun m => decide (l < m)) < openCount plan origin (fun m => decide (m < l))
      then .mergeNear else .mergeOff

/-- R75: d is the nearest limit-capable site downstream of i, EXIT included. -/
def NextLimit (plan : List PlanSite) (i d : Nat) : Prop :=
  i < d ∧ limitAt plan d ≠ none ∧ ∀ k, i < k → k < d → limitAt plan k = none

/-- R72: a full-closure duty comes to site i: every lane is closed at a site or at EXIT downstream of it, with no
limit-capable site between. -/
def FullBelow (plan : List PlanSite) (i : Nat) : Prop :=
  ∃ d, i < d ∧ (∃ l, ClosedAt plan d l) ∧ (∀ l, ¬ OpenAt plan d l) ∧ ∀ k, i < k → k < d → limitAt plan k = none

/-- R77: a LANE CLOSED AHEAD comes to site i: an arrow stands at it, or at a site downstream with no message-capable site
from there up to it. -/
def ClosedAhead (plan : List PlanSite) (i : Nat) : Prop :=
  ∃ d, i ≤ d ∧ (∃ l, ArrowAt plan d l) ∧ ∀ k, i < k → k ≤ d → legendAt plan k = none

/-- R77: a CARRIAGEWAY CLOSED comes to site i: a full-closure duty is discharged at it, or at a site downstream with no
message-capable site from there up to it. -/
def CarriagewayAhead (plan : List PlanSite) (i : Nat) : Prop :=
  ∃ d, i ≤ d ∧ d + 1 < plan.length ∧ limitAt plan d ≠ none ∧ FullBelow plan d ∧
    ∀ k, i < k → k ≤ d → legendAt plan k = none

/-- The demand a pass reads at a site, or at EXIT. -/
def Pass.demandAt (x : Pass) (i : Nat) : Demand := x.demand.getD i ⟨none, [], false, none, none⟩

/-- R66 to R70: one lane of a site in a new plan, from its demand, its availability and its element before. -/
structure LaneRules (x : Pass) (plan : List PlanSite) (i l : Nat) (e : LaneElem) : Prop where
  /-- An unavailable lane takes its demand's closure, with no deadline. -/
  dark : ElemId.lane l ∉ x.available.getD i [] → e.deadline = none ∧ e.held = false ∧
    (ClosedDemand (x.demandAt i) l → e.value = .unavailable true) ∧
    (¬ ClosedDemand (x.demandAt i) l → e.value = .unavailable false)
  /-- An available one is CLOSED where that is demanded or was shown and is in hold. -/
  closed : ElemId.lane l ∈ x.available.getD i [] → (e.value = .shows .closed ↔ ClosedDemand (x.demandAt i) l ∨
    ∃ p, (planSite x.plan i).lane l = some p ∧ p.value = .shows .closed ∧ InHold x.time p.deadline)
  /-- A duty that waits for one not closed turns it to the duty's arrow. -/
  met : ElemId.lane l ∈ x.available.getD i [] → e.value ≠ .shows .closed → ∀ o k, Waits plan l o k (i + 1) →
    ∃ a, e.value = .shows a ∧ (a = .mergeNear ∨ a = .mergeOff) ∧ Arrow plan o l a
  /-- Without one it keeps an arrow in hold and is OPEN otherwise. -/
  unmet : ElemId.lane l ∈ x.available.getD i [] → e.value ≠ .shows .closed → (∀ o k, ¬ Waits plan l o k (i + 1)) →
    (∀ p a, (planSite x.plan i).lane l = some p → p.value = .shows a → (a = .mergeNear ∨ a = .mergeOff) →
      InHold x.time p.deadline → e.value = .shows a) ∧
    (¬ (∃ p, (planSite x.plan i).lane l = some p ∧ InHold x.time p.deadline ∧
      (p.value = .shows .mergeNear ∨ p.value = .shows .mergeOff)) → e.value = .shows .opened)
  /-- R54 and R66: it is reported held where it keeps a more restrictive aspect than its demand's because that is in
  hold; a lane that a duty gives another aspect has not kept it (log entry 10). -/
  held : ElemId.lane l ∈ x.available.getD i [] → (e.held = true ↔ ¬ ClosedDemand (x.demandAt i) l ∧
    ∃ p a, (planSite x.plan i).lane l = some p ∧ p.value = .shows a ∧ e.value = .shows a ∧
      (a = .closed ∨ a = .mergeNear ∨ a = .mergeOff) ∧ InHold x.time p.deadline)
  /-- DISPLACED stands on a dark lane that a duty passed. -/
  displaced : e.displaced = true ↔ e.value = .unavailable false ∧ ∃ o k, k < 2 ∧ Waits plan l o k (i + 1)

/-- R73 to R75: a limit in a new plan is the demanded one, one kept or stepped up from the plan before, a cap that applies
or the lead-in. -/
structure LimitRules (x : Pass) (plan : List PlanSite) (i : Nat) (kind : SiteKind) (l : Limit) : Prop where
  /-- R81: it is no less restrictive than LD. -/
  demanded : ∀ v, (x.demandAt i).limit = some v → Within l v
  /-- R74: the caps of a merge arrow, of a closure demanded and of a shoulder opening. -/
  merge : (∃ k, ArrowAt plan i k) → Within l (paramValue x.params .mergeSpeed)
  closure : (x.demandAt i).closed ≠ [] → Within l (paramValue x.params .closureSpeed)
  shoulder : (∃ n, kind = .gantry n true) → (x.demandAt i).opening = true → 0 ∉ (x.demandAt i).closed →
    Within l (paramValue x.params .hsSpeed)
  /-- R72 and R74: the first limit-capable site upstream of one whose every lane is closed takes FULL_APPROACH. -/
  approach : FullBelow plan i → Within l (paramValue x.params .fullApproach)
  /-- R75: lead-in from the next limit-capable site downstream, EXIT included. -/
  leadIn : ∀ d v, NextLimit plan i d → limitAt plan d = some (some v) →
    v + paramValue x.params .step ≤ paramValue x.params .ceiling → Within l (v + paramValue x.params .step)
  /-- R73 and R80: a limit in hold is not relaxed, and one out of hold by one STEP while that stays within CEILING. -/
  kept : ∀ p v, (planSite x.plan i).limit = some p → p.value = .value (some v) →
    (InHold x.time p.deadline → Within l v) ∧
    (v + paramValue x.params .step ≤ paramValue x.params .ceiling → Within l (v + paramValue x.params .step))
  /-- And it is no more restrictive than one of these makes it; a step and a lead-in act only up to CEILING, and a step
  only out of hold (R73, R75). -/
  source : l = (x.demandAt i).limit ∨
    (∃ p v, (planSite x.plan i).limit = some p ∧ p.value = .value (some v) ∧
      (InHold x.time p.deadline ∧ l = some v ∨ ¬ InHold x.time p.deadline ∧
        v + paramValue x.params .step ≤ paramValue x.params .ceiling ∧ l = some (v + paramValue x.params .step))) ∨
    ((∃ k, ArrowAt plan i k) ∧ l = some (paramValue x.params .mergeSpeed)) ∨
    ((x.demandAt i).closed ≠ [] ∧ l = some (paramValue x.params .closureSpeed)) ∨
    ((∃ n, kind = .gantry n true) ∧ (x.demandAt i).opening = true ∧ 0 ∉ (x.demandAt i).closed ∧
      l = some (paramValue x.params .hsSpeed)) ∨
    (FullBelow plan i ∧ l = some (paramValue x.params .fullApproach)) ∨
    ∃ d v, NextLimit plan i d ∧ limitAt plan d = some (some v) ∧
      v + paramValue x.params .step ≤ paramValue x.params .ceiling ∧ l = some (v + paramValue x.params .step)

/-- R73 and R76: a limit is reported held where its demand is less restrictive than the limit before, which is in hold;
a cap or lead-in that binds it leaves the report. -/
def LimitHeld (x : Pass) (i : Nat) (held : Bool) : Prop :=
  held = true ↔ ∃ p v, (planSite x.plan i).limit = some p ∧ p.value = .value (some v) ∧ InHold x.time p.deadline ∧
    ∀ w, (x.demandAt i).limit = some w → v < w

/-- R77 and R78: the legend of a message-capable site: the highest rank of its demand and of the two generated legends
carried to it, unless a higher one is in hold. -/
structure LegendRules (x : Pass) (plan : List PlanSite) (i : Nat) (e : PlanElem Legend) (g : Legend) : Prop where
  demanded : ∀ h, (x.demandAt i).legend = some h → h.rank ≤ g.rank
  ahead : ClosedAhead plan i → Legend.rank .laneClosedAhead ≤ g.rank
  closed : CarriagewayAhead plan i → Legend.rank .carriagewayClosed ≤ g.rank
  kept : ∀ p h, (planSite x.plan i).legend = some p → p.value = .value h → InHold x.time p.deadline → h.rank ≤ g.rank
  source : g = .blank ∨ (x.demandAt i).legend = some g ∨ (ClosedAhead plan i ∧ g = .laneClosedAhead) ∨
    (CarriagewayAhead plan i ∧ g = .carriagewayClosed) ∨
    ∃ p, (planSite x.plan i).legend = some p ∧ p.value = .value g ∧ InHold x.time p.deadline ∧ e.held = true
  /-- R78: it is reported held exactly where the legend before is in hold and of higher rank than everything wanted. -/
  held : e.held = true ↔ ∃ p h, (planSite x.plan i).legend = some p ∧ p.value = .value h ∧ InHold x.time p.deadline ∧
    Legend.rank .blank < h.rank ∧ (∀ w, (x.demandAt i).legend = some w → w.rank < h.rank) ∧
    (ClosedAhead plan i → Legend.rank .laneClosedAhead < h.rank) ∧
    (CarriagewayAhead plan i → Legend.rank .carriagewayClosed < h.rank)

/-- What a pass over a whole section makes of its inputs: the plan it ends with. -/
structure PassRules (c : Store) (x : Pass) (plan : List PlanSite) : Prop where
  length : plan.length = c.siteCount + 1
  /-- R65. -/
  exit : ∀ b ∈ c.boundary, ExitRecord b (x.demandAt c.siteCount) (planSite plan c.siteCount)
  lanes : ∀ i < c.siteCount, ∀ r ∈ c.site i, ∀ l,
    (r.kind.Present l → ∃ e, (planSite plan i).lane l = some e ∧ LaneRules x plan i l e) ∧
    (¬ r.kind.Present l → (planSite plan i).lane l = none)
  /-- R68: a closed lane is UNPROTECTED exactly where its duty is still waiting above site 0 or is given up at its third
  dark gantry. -/
  unprotected : ∀ i ≤ c.siteCount, ∀ l e, (planSite plan i).lane l = some e →
    (e.unprotected = true ↔ (∃ k, Waits plan l i k 0) ∨ ∃ s, Waits plan l i 2 (s + 1) ∧ DarkAt plan s l)
  /-- R58 and R73: the limit element of a GANTRY or VERGE, UNAVAILABLE where the site is not limit-capable. -/
  limits : ∀ i < c.siteCount, ∀ r ∈ c.site i,
    (r.kind = .message → (planSite plan i).limit = none) ∧
    (r.kind ≠ .message →
      (LimitCapable r.kind (x.available.getD i []) → (∃ l, limitAt plan i = some l ∧ LimitRules x plan i r.kind l) ∧
        ∀ e, (planSite plan i).limit = some e → LimitHeld x i e.held) ∧
      (¬ LimitCapable r.kind (x.available.getD i []) → (planSite plan i).limit = some ⟨.unavailable, none, false⟩))
  /-- R58 and R78: the legend element of a site with a message sign, UNAVAILABLE where it is not message-capable. -/
  legends : ∀ i < c.siteCount, ∀ r ∈ c.site i,
    (r.sign = false → (planSite plan i).legend = none) ∧
    (r.sign = true →
      (ElemId.legend ∈ x.available.getD i [] → ∃ e g, (planSite plan i).legend = some e ∧ e.value = .value g ∧
        LegendRules x plan i e g) ∧
      (ElemId.legend ∉ x.available.getD i [] → (planSite plan i).legend = some ⟨.unavailable, none, false⟩))
  /-- R79: an element keeps its deadline with its value, and takes a new one with a new value. -/
  deadlines : ∀ i < c.siteCount,
    (∀ l e b, (planSite plan i).lane l = some e → e.value = .shows b →
      (∀ p, (planSite x.plan i).lane l = some p → p.value = .shows b → e.deadline = p.deadline) ∧
      (∀ p a, (planSite x.plan i).lane l = some p → p.value = .shows a → a ≠ b →
        e.deadline = some (x.time + (if b.weight < a.weight then paramValue x.params .relaxHold
          else paramValue x.params .minDwell) * 1000)) ∧
      (∀ p k, (planSite x.plan i).lane l = some p → p.value = .unavailable k →
        e.deadline = some (x.time + paramValue x.params .minDwell * 1000))) ∧
    (∀ p e b, (planSite x.plan i).limit = some p → (planSite plan i).limit = some e → e.value = .value b →
      (p.value = .value b → e.deadline = p.deadline) ∧
      (p.value = .unavailable ∨ (∃ v a, b = some v ∧ p.value = .value a ∧ ∀ w, a = some w → v < w) →
        e.deadline = some (x.time + paramValue x.params .minDwell * 1000)) ∧
      ((∃ w, p.value = .value (some w) ∧ ∀ v, b = some v → w < v) →
        e.deadline = some (x.time + paramValue x.params .relaxHold * 1000))) ∧
    ∀ p e h, (planSite x.plan i).legend = some p → (planSite plan i).legend = some e → e.value = .value h →
      (p.value = .value h → e.deadline = p.deadline) ∧
      (p.value ≠ .value h → e.deadline = some (x.time + paramValue x.params .legendDwell * 1000))

/-- R56: two records of one site, or of EXIT, differ: in the value or the availability of an element, in the closure that
stands under an UNAVAILABLE lane, or in a DISPLACED or UNPROTECTED mark; not in a deadline or a held report. -/
def PlanSite.DiffersFrom (x y : PlanSite) : Prop :=
  x.limit.map (·.value) ≠ y.limit.map (·.value) ∨ x.legend.map (·.value) ≠ y.legend.map (·.value) ∨
  (x.lanes.map fun z => (z.1, z.2.value, z.2.displaced, z.2.unprotected)) ≠
    y.lanes.map fun z => (z.1, z.2.value, z.2.displaced, z.2.unprotected)

/-- R56: two plans differ: at some site, or at EXIT. -/
def PlansDiffer (x y : List PlanSite) : Prop :=
  x.length ≠ y.length ∨ ∃ i < x.length, (planSite x i).DiffersFrom (planSite y i)

/-- R56: a record after a pass that published nothing: the one before with the held reports of the pass's record. -/
structure ReportsTaken (old new after : PlanSite) : Prop where
  limit : (old.limit = none → after.limit = none) ∧
    ∀ p e, old.limit = some p → new.limit = some e → after.limit = some { p with held := e.held }
  legend : (old.legend = none → after.legend = none) ∧
    ∀ p e, old.legend = some p → new.legend = some e → after.legend = some { p with held := e.held }
  lanes : after.lanes.map (·.1) = old.lanes.map (·.1) ∧
    ∀ l p e, old.lane l = some p → new.lane l = some e → after.lane l = some { p with held := e.held }

/-! ## Parts of delivery as R143 to R147 state them -/

/-- R143: the value an element has in the dark image. -/
def darkOf : ElemId → ElemVal
  | .limit => .limit none
  | .lane _ => .lane .blank
  | .legend => .legend .blank

/-- R143: an element of a plan record is a value and not UNAVAILABLE. -/
def PlanSite.Shows (x : PlanSite) : ElemId → ElemVal → Prop
  | .limit, .limit l => ∃ p, x.limit = some p ∧ p.value = .value l
  | .lane l, .lane a => ∃ p, x.lane l = some p ∧ p.value = .shows a
  | .legend, .legend g => ∃ p, x.legend = some p ∧ p.value = .value g
  | _, _ => False

/-- R145: one value more restrictive than another. -/
def MoreRestrictive : ElemVal → ElemVal → Prop
  | .lane a, .lane b => b.weight < a.weight
  | .limit (some v), .limit (some w) => v < w
  | .limit (some _), .limit none => True
  | .legend g, .legend h => h.rank < g.rank
  | _, _ => False

/-- R145: an element that differs. -/
def DeliverySite.Differs (d : DeliverySite) (e : ElemId) : Prop :=
  ∃ w, d.wanted.lookup e = some w ∧ d.confirmed.lookup e ≠ some w

/-- R145: a differing element whose wanted value is more restrictive than its confirmed one, or has none confirmed. -/
def DeliverySite.Tightens (d : DeliverySite) (e : ElemId) : Prop :=
  d.Differs e ∧ ∀ v, d.confirmed.lookup e = some v → ∃ w, d.wanted.lookup e = some w ∧ MoreRestrictive w v

/-- R145: the elements that make a part of one kind. -/
def DeliverySite.Calls (d : DeliverySite) : PartKind → ElemId → Prop
  | .tightening, e => d.Tightens e
  | .relaxing, e => d.Differs e ∧ ¬ d.Tightens e
  | .darkening, e => d.Differs e

/-- Section 8.1: a part that is pending. -/
def Unresolved (p : Option Part) : Prop := ∃ x, p = some x ∧ (x.state = .waiting ∨ x.state = .sent)

/-- Whether a site has a pending part of a kind. -/
def State.Pends (s : State) (i : Nat) (k : PartKind) : Prop := ∃ d, s.site i = some d ∧ Unresolved (d.part k)

/-- R147: the release condition of a part. -/
def State.MayRelease (s : State) (i : Nat) : PartKind → Prop
  | .tightening => i = 0 ∨ ¬ s.Pends (i - 1) .tightening
  | .relaxing => ¬ s.Pends (i + 1) .relaxing ∧ ¬ s.Pends i .tightening
  | .darkening => True

/-- R147: every WAITING part whose site is not in flight and whose release condition holds is queued. -/
def Released (s : State) : Prop :=
  ∀ i k d p, s.site i = some d → d.part k = some p → p.state = .waiting → d.inFlight = false → s.MayRelease i k →
    p.queued = true

/-- R148 and R120: a command of part p of kind k of site i, whose record is d, waits in the queue of its line: not in
progress, with the epoch byte of the target and an image that holds the wanted values of the part's elements and shows
every other element of the site as confirmed, or dark where nothing is, and none that the site does not have (R109). -/
def CommandWaits (s : State) (i : Nat) (k : PartKind) (d : DeliverySite) (p : Part) : Prop :=
  ∃ c ∈ (s.line (s.siteLine i)).queue, c.site = i ∧ c.part = k ∧ c.inProgress = false ∧
    c.epoch = (if s.delivery.target = .plan then s.delivery.epoch % 256 else 0) ∧
    ∀ r ∈ s.store.site i, ∀ e, (¬ r.Holds e → c.image.lookup e = none) ∧ (r.Holds e →
      (e ∈ p.elements → ∀ w, d.wanted.lookup e = some w → c.image.lookup e = some w) ∧
      (e ∉ p.elements → (∀ v, d.confirmed.lookup e = some v → c.image.lookup e = some v) ∧
        (d.confirmed.lookup e = none → c.image.lookup e = some (darkOf e))))

/-- R156: something is still to be delivered: a part is pending or a site is in flight. -/
def Delivery.Busy (d : Delivery) : Prop :=
  ∃ x ∈ d.sites, x.inFlight = true ∨ ∃ k, Unresolved (x.part k)

/-- Whether a site's unit can take commands: it is neither LOST nor PROBING (R146). -/
def State.Reaches (s : State) (i : Nat) : Prop := ∀ u ∈ s.unit i, u.state ≠ .lost ∧ u.state ≠ .probing

/-- R146: the part of one kind at a site whose unit can take commands, after a re-form that found it with `old`. -/
structure Reformed (r : SiteRecord) (old new : DeliverySite) (k : PartKind) : Prop where
  absent : (∀ e, r.Holds e → ¬ new.Calls k e) → new.part k = none
  formed : (∃ e, r.Holds e ∧ new.Calls k e) → ∃ p, new.part k = some p ∧ Unresolved (some p) ∧
    (∀ e, e ∈ p.elements ↔ r.Holds e ∧ new.Calls k e) ∧
    (∀ o, old.part k = some o → Unresolved (some o) → p.resends = o.resends) ∧
    (¬ Unresolved (old.part k) → p.resends = 0) ∧
    (p.state = .sent → ∃ o c, old.part k = some o ∧ o.state = .sent ∧ old.commanded = some c ∧
      ∀ e ∈ p.elements, c.image.lookup e = new.wanted.lookup e)

/-- R143, R146 and R155: a site once an epoch of this plan record has been taken in LIVE. -/
structure EpochTaken (s : State) (i : Nat) (r : SiteRecord) (x : PlanSite) (old new : DeliverySite) : Prop where
  keeps : new.confirmed = old.confirmed ∧ new.applied = old.applied ∧ new.commanded = old.commanded
  /-- A site whose unit can take commands wants what the plan shows, and its parts follow. -/
  reached : s.Reaches i → (∀ e v, new.wanted.lookup e = some v ↔ x.Shows e v) ∧
    Reformed r old new .tightening ∧ Reformed r old new .relaxing
  /-- Any other wants only what its sign already shows: its parts are given up as they are formed. -/
  unreached : ¬ s.Reaches i → (∀ k p, old.part k = some p → p.state ≠ .sent) →
    (∀ e, r.Holds e → ∀ v, new.wanted.lookup e = some v ↔ x.Shows e v ∧ old.confirmed.lookup e = some v) ∧
    ¬ Unresolved new.tightening ∧ ¬ Unresolved new.relaxing

/-- R143, R146 and R158: a site once the dark target has been taken and its parts are formed; `old` is its record without
parts. -/
structure Darkened (s : State) (r : SiteRecord) (i : Nat) (old new : DeliverySite) : Prop where
  keeps : new.confirmed = old.confirmed ∧ new.applied = old.applied ∧ new.commanded = old.commanded ∧
    new.tightening = none ∧ new.relaxing = none ∧ ∀ e, ¬ r.Holds e → new.wanted.lookup e = none
  /-- A site whose unit can take commands wants the dark image, and its darkening part follows. -/
  reached : s.Reaches i → (∀ e, r.Holds e → new.wanted.lookup e = some (darkOf e)) ∧ Reformed r old new .darkening
  /-- The part of any other is ABANDONED as it is formed, and its elements leave the wanted image. -/
  unreached : ¬ s.Reaches i →
    (∀ e, r.Holds e → (old.confirmed.lookup e = some (darkOf e) → new.wanted.lookup e = some (darkOf e)) ∧
      (old.confirmed.lookup e ≠ some (darkOf e) → new.wanted.lookup e = none)) ∧
    ((∀ e, r.Holds e → old.confirmed.lookup e = some (darkOf e)) → new.darkening = none) ∧
    ((∃ e, r.Holds e ∧ old.confirmed.lookup e ≠ some (darkOf e)) → ∃ p, new.darkening = some p ∧
      p.state = .abandoned ∧ p.queued = false ∧ p.resends = 0 ∧
      ∀ e, e ∈ p.elements ↔ r.Holds e ∧ old.confirmed.lookup e ≠ some (darkOf e))

/-- R146: the sites that are not dark and whose unit cannot take commands, each once: their darkening parts are counted as
abandoned as they are formed (R142, R156). -/
def DarkLost (s : State) (gone : List Nat) : Prop :=
  gone.Nodup ∧ ∀ i, i ∈ gone ↔ ∃ d r, s.site i = some d ∧ s.store.site i = some r ∧ ¬ s.Reaches i ∧
    ∃ e, r.Holds e ∧ d.confirmed.lookup e ≠ some (darkOf e)

/-- R156: while a delivery is going on something is pending or in flight, and one that has ended has left its record and
its notice. -/
structure CompletionJudged (s t : State) : Prop where
  going : t.delivery.state = .delivering → t.delivery.Busy
  ended : s.delivery.state = .delivering → t.delivery.state = .done → s.delivery.target = .plan →
    (∃ n, t.delivery.completion = some ⟨.plan, t.delivery.epoch, n⟩) ∧
    ∀ p, (s.port p).authority ≠ .disabled → (t.port p).flags &&& 0x02 = 0x02

/-! ## Samples and the station machine as R84 to R100 state them -/

/-- R85 and R86: the difference of two readings of a counter that wraps at m. -/
def difference (m new old : Nat) : Nat := (((new : Int) - old) % m).toNat

/-- R88: the stuck state and span of a lane after a sample of occupancy `occ` with `n` counted in `t` ms. -/
structure StuckRule (before after : LaneRec) (occ n t limit : Nat) : Prop where
  kept : before.stuck = true → 500 ≤ occ → after.stuck = true
  ended : before.stuck = true → occ < 500 → after.stuck = false ∧ after.span = 0
  grows : before.stuck = false → 990 ≤ occ → n = 0 → (after.stuck = true ↔ limit ≤ before.span + t) ∧
    (after.stuck = false → after.span = before.span + t)
  broken : before.stuck = false → (occ < 990 ∨ n ≠ 0) → after.stuck = false ∧ after.span = 0

/-- R91: what a valid lane that is not chattering gives. -/
structure SpeedRule (r : StationRecord) (trim : Int) (stopOcc occ n o sum : Nat) (x : LaneSample) : Prop where
  stopped : stopOcc ≤ occ → x.gave = some 0 ∧ x.stopped = true
  moving : occ < stopOcc → x.stopped = false
  empty : occ < stopOcc → n = 0 → x.gave = none
  double : occ < stopOcc → n ≠ 0 → r.loop = .double → x.gave = some (min 160 ((2 * sum + n) / (2 * n)))
  free : occ < stopOcc → n ≠ 0 → r.loop = .single → o = 0 → x.gave = some 160
  single : occ < stopOcc → n ≠ 0 → r.loop = .single → o ≠ 0 →
    x.gave = some (min 160 (360 * n * ((r.effective : Int) + trim).toNat / o))

/-- R92: one step of a lane's smoothed speed, in sixteenths, toward a sample speed. -/
def Smoothed (k : Nat) (before : Option Nat) (v after : Nat) : Prop :=
  match before with
  | none => after = 16 * v
  | some y =>
    let d : Int := 16 * v - y
    (after : Int) = y + (if Int.tdiv d (2 ^ k) = 0 then Int.sign d else Int.tdiv d (2 ^ k))

/-- R86 to R92: a lane with a baseline b and data d in a sample of t ms. -/
structure LaneSampled (ps : Params) (r : StationRecord) (t : Nat) (trim : Int) (excluded : Bool) (l : LaneRec)
    (d : LaneData) (b : LaneTotals) (x : LaneSample) : Prop where
  taken : x.lane.baseline = some d.totals ∧ x.lane.fault = d.fault ∧ x.lane.excluded = excluded
  /-- R87. -/
  occupancy : x.lane.occupancy = some (min t (difference 4294967296 d.totals.occupancy b.occupancy) * 1000 / t)
  /-- R88. -/
  stuck : ∀ occ, x.lane.occupancy = some occ →
    StuckRule l x.lane occ (difference 65536 d.totals.count b.count) t (paramValue ps .stuckTime * 1000)
  /-- R89. -/
  valid : x.lane.standing = .valid ↔ d.fault = .ok ∧ x.lane.stuck = false
  chatter : x.chattering = true ↔ t / 250 + 1 < difference 65536 d.totals.count b.count
  /-- R91. -/
  speed : x.lane.standing = .valid → x.chattering = false → ∀ occ, x.lane.occupancy = some occ →
    SpeedRule r trim (paramValue ps .stopOcc) occ (difference 65536 d.totals.count b.count)
      (min t (difference 4294967296 d.totals.occupancy b.occupancy))
      (difference 4294967296 d.totals.speedSum b.speedSum) x
  silent : x.lane.standing ≠ .valid ∨ x.chattering = true → x.gave = none ∧ x.stopped = false
  /-- R89, R90 and R92. -/
  lost : x.lane.standing ≠ .valid ∨ excluded = true → x.lane.smoothed = none
  kept : x.lane.standing = .valid → excluded = false → x.gave = none → x.lane.smoothed = l.smoothed
  smoothed : x.lane.standing = .valid → excluded = false → ∀ v, x.gave = some v →
    ∃ y, x.lane.smoothed = some y ∧ Smoothed (paramValue ps .smoothK) l.smoothed v y

/-- R84 and R89: a lane without data in the reply, or without a baseline before it, gives no sample. -/
structure LaneUnsampled (excluded : Bool) (l : LaneRec) (d : Option LaneData) (x : LaneSample) : Prop where
  nothing : x.gave = none ∧ x.stopped = false ∧ x.chattering = false
  lane : x.lane.baseline = d.map (·.totals) ∧ x.lane.smoothed = none ∧ x.lane.standing ≠ .valid ∧
    x.lane.excluded = excluded ∧ x.lane.stuck = l.stuck
  fault : x.lane.fault = (d.map (·.fault)).getD l.fault

/-- R86 to R92: one lane of a sample. -/
def LaneRule : Prop :=
  ∀ (ps : Params) (r : StationRecord) (t : Nat) (trim : Int) (excluded : Bool) (l : LaneRec) (data : Option LaneData),
    (∀ d b, data = some d → l.baseline = some b →
      LaneSampled ps r t trim excluded l d b (sampleLane ps r t trim excluded l data)) ∧
    (data = none ∨ l.baseline = none → LaneUnsampled excluded l data (sampleLane ps r t trim excluded l data))

/-- R93: what the lanes of a sample give the station. -/
def SampleRule : Prop :=
  ∀ lanes : List LaneSample,
    let counts (x : LaneSample) : Prop := x ∈ lanes ∧ x.lane.standing = .valid ∧ x.lane.excluded = false
    let m := sampleOf lanes
    (m.usable = true ↔ ∃ x, counts x) ∧ (m.stopped = true ↔ ∃ x, counts x ∧ x.stopped = true) ∧
    (m.stopped = true → m.speed = some 0) ∧
    (m.stopped = false → (∀ x, counts x → x.gave = none) → m.speed = none) ∧
    (m.stopped = false → ∀ x y, counts x → x.gave ≠ none → x.lane.smoothed = some y →
      (∀ z, counts z → z.gave ≠ none → ∀ w, z.lane.smoothed = some w → y ≤ w) → m.speed = some ((y + 8) / 16))

/-- R94: a change of state. -/
def Station.entered (x : Station) (st : StationState) : Station :=
  { x with state := st, onCount := 0, offCount := 0, stopCount := 0 }

/-- R98 and R100: the entry to BLIND, and the return from it at a usable sample. -/
structure BlindRule (x : Station) (ps : Params) (now : Nat) (m : Sample) (y : Station) : Prop where
  stays : m.usable = false → x.state = .blind → y = x
  enters : m.usable = false → x.state ≠ .blind → y = { x.entered .blind with
    remembered := some x.state
    faultHold := some (now + paramValue ps .qpFaultHold * 1000)
    faultOver := decide (paramValue ps .qpFaultHold = 0) }
  returns : m.usable = true → x.state = .blind → ∀ d st, x.faultHold = some d → x.remembered = some st → now < d →
    y = { x.entered st with remembered := none, faultHold := none, faultOver := false }
  free : m.usable = true → x.state = .blind → ∀ d, x.faultHold = some d → d ≤ now →
    y = { x.entered .free with remembered := none, faultHold := none, faultOver := false, minHold := none }

/-- R94 to R97: a usable sample of a station that is not BLIND. -/
structure MachineRule (x : Station) (ps : Params) (now : Nat) (m : Sample) (y : Station) : Prop where
  empty : m.usable = true → x.state ≠ .blind → m.speed = none → y = x
  quick : m.usable = true → x.state = .free → ∀ v, m.speed = some v → paramValue ps .alertOn ≤ v →
    y = { x with onCount := 0 }
  slow : m.usable = true → x.state = .free → ∀ v, m.speed = some v → v < paramValue ps .alertOn →
    let count := min (x.onCount + 1) 60
    (count < paramValue ps .onCount → y = { x with onCount := count }) ∧
    (paramValue ps .onCount ≤ count →
      y = { x.entered .queue with minHold := some (now + paramValue ps .qpMinHold * 1000) })
  queuing : m.usable = true → x.state = .queue ∨ x.state = .stopped → ∀ v, m.speed = some v →
    let clear := paramValue ps .alertOff ≤ v
    let off := if clear then min (x.offCount + 1) 60 else 0
    let turning := m.stopped = decide (x.state = .queue)
    let stop := if turning then min (x.stopCount + 1) 60 else 0
    let free := clear ∧ paramValue ps .offCount ≤ off ∧ ∀ d, x.minHold = some d → d ≤ now
    (free → y = { x.entered .free with minHold := none }) ∧
    (¬ free → turning → 2 ≤ stop → y = x.entered (if x.state = .queue then .stopped else .queue)) ∧
    (¬ free → ¬ (turning ∧ 2 ≤ stop) → y = { x with offCount := off, stopCount := stop })

/-- R102: a station's entry is warranted. -/
def Warranted (s : State) (x : Station) : Prop :=
  x.inhibit = none ∧ (x.state = .queue ∨ x.state = .stopped ∨
    x.state = .blind ∧ (x.remembered = some .queue ∨ x.remembered = some .stopped) ∧
      ∃ d, x.faultHold = some d ∧ s.now < d)

/-- R103: a configured site lies in the band of a station at p. -/
def InBand (c : Store) (p cover u : Nat) : Prop := u < c.siteCount ∧ c.pos u ≤ p ∧ p ≤ c.pos u + cover

/-- R103: the coverage of a station at p: its band, or the last site not above p where no site lies in that. -/
structure Covers (c : Store) (p cover first last : Nat) : Prop where
  band : (∃ u, InBand c p cover u) → InBand c p cover first ∧ InBand c p cover last ∧
    ∀ u, InBand c p cover u → first ≤ u ∧ u ≤ last
  fallback : (∀ u, ¬ InBand c p cover u) → last = first ∧
    ∀ u < c.siteCount, c.pos u ≤ p → first < c.siteCount ∧ c.pos first ≤ p ∧ u ≤ first

/-- R102: the image of a station's entry, none for ABSENT. -/
structure EntryImage (s : State) (x : Station) (m : Option QpImage) : Prop where
  absent : ¬ Warranted s x → m = none
  present : Warranted s x → ∃ q, m = some q ∧
    Covers s.store (s.store.stationPosition x.slot) (s.param .qpCover) q.first q.last ∧
    (x.state = .queue ∨ x.state = .blind ∧ x.remembered = some .queue → q.limit = s.param .qpLimit) ∧
    (x.state = .stopped ∨ x.state = .blind ∧ x.remembered = some .stopped → q.limit = s.param .qpStopLimit)

/-- R102: what the entry of an image asks: its limit, QUEUE AHEAD and the lapse policy HOLD. -/
def askOf (m : QpImage) : Ask := ⟨m.first, m.last, some m.limit, none, some .queueAhead, false, .hold⟩

/-- R104: the image a station's state warrants has been handed: recorded as handed, and held by the request table. -/
def Handed (s t : State) (x : Station) : Prop :=
  ∃ m, EntryImage s x m ∧ t.station x.slot = some { x with handed := m } ∧
    (t.table.inSlot (48 + x.slot)).map (·.ask) = m.map askOf

/-- R83: the form in which a station record is created, and to which a RESTART returns it but for its counters. The
standing of a lane that no sample has judged is the model's choice (log entry 11). -/
def firstForm (x : Station) : Station where
  slot := x.slot
  state := .free
  remembered := none
  onCount := 0
  offCount := 0
  stopCount := 0
  minHold := none
  faultHold := none
  faultOver := false
  inhibit := none
  baseline := none
  speed := none
  handed := none
  rejected := x.rejected
  chatter := x.chatter
  lanes := x.lanes.map fun _ =>
    { baseline := none
      fault := .ok
      occupancy := none
      stuck := false
      span := 0
      excluded := false
      smoothed := none
      standing := .noData }

/-- R94 to R98 and R100: the station machine at a sample. -/
def MachineRules : Prop :=
  ∀ (x : Station) (ps : Params) (now : Nat) (m : Sample),
    BlindRule x ps now m (x.judge ps now m) ∧ MachineRule x ps now m (x.judge ps now m)

/-! ## What a reply or a miss of a unit brings (R127, R133 to R138, R144 to R156, R84, R98) -/

/-- R132: a reply of this boot number is marked restarted. -/
abbrev UnitRec.Restarts (u : UnitRec) (boot : Nat) : Prop := u.boot ≠ none ∧ u.boot ≠ some boot

/-- UP or SUSPECT. -/
abbrev UnitState.Contact (st : UnitState) : Prop := st = .up ∨ st = .suspect

/-- R133: the fault a STATE reports for an element. -/
def StateReply.reportOf (a : StateReply) : ElemId → DisplayFault
  | .limit => a.speedFault
  | .lane l => a.laneFaults.getD l .ok
  | .legend => a.messageFault

/-- R133 to R136: an element record after a STATE, from the one before it. -/
structure ElementTaken (a : StateReply) (restarted : Prop) (st : UnitState) (old new : ElemRec) : Prop where
  name : new.name = old.name
  reported : new.reported = some (a.reportOf old.name)
  cleared : restarted ∨ old.mark = .clear → new.mark = .clear
  marked : ∀ f, ¬ restarted → old.mark = .marked f → new.mark = if f = new.reported then .marked f else .clear
  available : new.available = true ↔ st.Contact ∧ new.mark = .clear ∧
    (new.reported = some .ok ∨ new.reported = some .degraded)

/-- The elements of a unit that are available. -/
def UnitRec.usable (u : UnitRec) : List ElemId := (u.elements.filter (·.available)).map (·.name)

/-- R144: the value a STATE shows in an element. -/
def StateReply.shown (a : StateReply) : ElemId → ElemVal
  | .limit => .limit a.limit
  | .lane l => .lane (a.lanes.getD l .blank)
  | .legend => .legend a.legend

/-- R150: an element of a part shows what is wanted. -/
def DeliverySite.Agrees (d : DeliverySite) (a : StateReply) (r : SiteRecord) (e : ElemId) : Prop :=
  r.Holds e ∧ d.wanted.lookup e = some (a.shown e)

/-- R151: an element of a part that a reply shows otherwise than commanded. -/
def DeliverySite.Disagrees (d : DeliverySite) (a : StateReply) (r : SiteRecord) (p : Part) (e : ElemId) : Prop :=
  e ∈ p.elements ∧ ∃ c, d.commanded = some c ∧
    (r.Holds e → c.image.lookup e ≠ some (a.shown e)) ∧ (¬ r.Holds e → c.image.lookup e ≠ none)

/-- No command of a site waits in the queue of its line. -/
def State.NoneWaits (s : State) (i : Nat) : Prop := ∀ c ∈ (s.line (s.siteLine i)).queue, c.site = i → c.inProgress = true

/-- R151 and R134: an element that a second mismatch may name: of the SENT part, once sent again, of the SET that the
STATE ends; a GANTRY's limit names its running lanes. -/
def NamedAgain (x : Transaction) (u : UnitRec) (a : StateReply) (i : Nat) (r : SiteRecord) (d : DeliverySite)
    (name : ElemId) : Prop :=
  ¬ u.Restarts a.boot ∧ d.inFlight = true ∧ ∃ c p, x.command = some c ∧ c.site = i ∧ d.part c.part = some p ∧
    p.state = .sent ∧ p.resends ≠ 0 ∧ (d.Disagrees a r p name ∨
      (∃ n b, r.kind = .gantry n b) ∧ d.Disagrees a r p .limit ∧ ∃ l, 1 ≤ l ∧ name = .lane l)

/-- What a STATE of a site's sign brings: `x` is its transaction, `u` and `d` the records before it. -/
structure SignReply (s t : State) (x : Transaction) (u : UnitRec) (a : StateReply) (i : Nat) (r : SiteRecord)
    (d : DeliverySite) : Prop where
  /-- R133, R135 and R136, whether the STATE ends a poll or a SET; `second` says what a second mismatch marks besides. -/
  elements : ∃ v, t.unit i = some v ∧ v.elements.length = u.elements.length ∧
    ∀ (j : Nat) (e : ElemRec), u.elements[j]? = some e → ∃ e', v.elements[j]? = some e' ∧ e'.name = e.name ∧
      e'.reported = some (a.reportOf e.name) ∧
      (¬ NamedAgain x u a i r d e.name → ElementTaken a (u.Restarts a.boot) v.state e e')
  /-- R136 and R57. -/
  handed : (∀ c, x.command = some c → c.site = i) → ∀ v, t.unit i = some v → v.usable ≠ u.usable →
    t.evaluator.pending = true ∧
    (i < s.evaluator.available.length → t.evaluator.available[i]? = some v.usable)
  /-- R139. -/
  noticed : ∀ v, t.unit i = some v → v.elements.map ElemRec.effective ≠ u.elements.map ElemRec.effective →
    ∀ p, (s.port p).authority ≠ .disabled → (t.port p).flags &&& 0x04 = 0x04
  /-- R144. -/
  readback : ∃ d', t.site i = some d' ∧ d'.applied = some a.applied ∧
    ∀ e, (r.Holds e → d'.confirmed.lookup e = some (a.shown e)) ∧ (¬ r.Holds e → d'.confirmed.lookup e = none)
  /-- R153. -/
  forgotten : u.Restarts a.boot → ∃ d', t.site i = some d' ∧ d'.commanded = none
  /-- R150: a pending part that agrees whole is CONFIRMED; it stays so unless its site is re-formed at once, which needs
  a differing element of the site and, after a poll, no other pending part. -/
  confirmed : ¬ u.Restarts a.boot → s.delivery.target = .plan → ∀ k p, d.part k = some p → Unresolved (some p) →
    (∀ e ∈ p.elements, d.Agrees a r e) →
    ((∀ e, r.Holds e → ∀ w, d.wanted.lookup e = some w → w = a.shown e) ∨
      x.command = none ∧ ∃ k' p', d.part k' = some p' ∧ Unresolved (some p') ∧ ∃ e ∈ p'.elements, ¬ d.Agrees a r e) →
    ∃ d', t.site i = some d' ∧ d'.part k = some { p with state := .confirmed, queued := false }
  /-- R151: the first mismatch of a command. -/
  mismatch : ¬ u.Restarts a.boot → s.delivery.target = .plan → d.inFlight = true → s.NoneWaits i → ∀ c p,
    x.command = some c → c.site = i → d.part c.part = some p → p.state = .sent → (∃ e ∈ p.elements, ¬ d.Agrees a r e) →
    p.resends = 0 → ∃ d' q, t.site i = some d' ∧ d'.inFlight = false ∧
      d'.part c.part = some { p with state := .waiting, resends := 1, queued := q }
  /-- R151 and R134: the second, where every other wanted element of the site agrees. -/
  second : ¬ u.Restarts a.boot → s.delivery.target = .plan → d.inFlight = true → s.NoneWaits i → ∀ c p,
    x.command = some c → c.site = i → d.part c.part = some p → p.state = .sent → (∃ e ∈ p.elements, ¬ d.Agrees a r e) →
    p.resends ≠ 0 →
    (∀ e, r.Holds e → ∀ w, d.wanted.lookup e = some w → w = a.shown e ∨ d.Disagrees a r p e) →
    (∃ d', t.site i = some d' ∧ d'.inFlight = false ∧
      d'.part c.part = some { p with state := .abandoned, queued := false } ∧
      ∀ e, d.Disagrees a r p e → d'.wanted.lookup e = none) ∧
    t.delivery.abandonments = min (s.delivery.abandonments + 1) 65535 ∧
    t.delivery.abandoned = min (s.delivery.abandoned + 1) 65535 ∧
    ∀ v, t.unit i = some v → ∀ y ∈ v.elements,
      d.Disagrees a r p y.name ∨
        (∃ n b, r.kind = .gantry n b) ∧ d.Disagrees a r p .limit ∧ (∃ l, 1 ≤ l ∧ y.name = .lane l) →
      y.mark = .marked y.reported ∧ y.available = false
  /-- R154: a poll that shows what nobody asked for. -/
  drift : ¬ u.Restarts a.boot → s.delivery.target = .plan → x.command = none → (s.mode = .live ∨ s.mode = .darkening) →
    u.state.Contact → d.inFlight = false → (∀ k, ¬ Unresolved (d.part k)) →
    (∃ e w, r.Holds e ∧ d.wanted.lookup e = some w ∧ w ≠ a.shown e) →
    t.delivery.drifts = min (s.delivery.drifts + 1) 65535 ∧
    (s.delivery.state ≠ .suppressed → t.delivery.state = .delivering) ∧
    ∃ d', t.site i = some d' ∧ d'.wanted = d.wanted ∧ Reformed r d d' .tightening ∧ Reformed r d d' .relaxing
  noDrift : u.Restarts a.boot ∨ x.command ≠ none ∨ s.mode = .unconfigured ∨ s.mode = .shadow ∨ ¬ u.state.Contact ∧
    (u.state = .probing → u.good < 3) → t.delivery.drifts = s.delivery.drifts
  /-- R156. -/
  completion : CompletionJudged s t

/-- R84 and R85: the baseline a reply leaves. -/
structure BaselineTaken (a : DataReply) (old new : Station) : Prop where
  station : new = { old with baseline := some a.timestamp, lanes := new.lanes }
  lanes : new.lanes.length = old.lanes.length ∧ ∀ (j : Nat) (l : LaneRec), old.lanes[j]? = some l →
    ∃ l', new.lanes[j]? = some l' ∧ l'.smoothed = none ∧ l'.baseline = (a.lanes[j]?).map (·.totals) ∧
    (∀ z, a.lanes[j]? = some z → l'.fault = z.fault) ∧ (l.stuck = false → l'.span = 0) ∧ l'.stuck = l.stuck

/-- What a DATA of a station's outstation brings: `u` and `y` are the records before it. -/
structure StationReply (s t : State) (u : UnitRec) (a : DataReply) (k : Nat) (r : StationRecord) (y : Station) :
    Prop where
  /-- R84: a unit that does not answer well enough yet gives its lane faults alone; that the lanes' standing stays is log
  entry 45. -/
  unused : u.state = .probing → u.good < 3 → t.station k = some { y with
    lanes := y.lanes.mapIdx fun j l => { l with fault := ((a.lanes[j]?).map (·.fault)).getD l.fault } }
  /-- R98: a LOST one that becomes PROBING leaves the station BLIND. -/
  returns : u.state = .lost → ∃ z, t.station k = some z ∧ z.state = .blind ∧ ∀ l ∈ z.lanes, l.standing ≠ .valid
  /-- R84: the reply that makes the unit UP is the baseline, as is one without a baseline before it or marked restarted. -/
  baseline : u.state = .probing ∧ 3 ≤ u.good ∨ u.state.Contact ∧ (y.baseline = none ∨ u.Restarts a.boot) →
    ∃ z, t.station k = some z ∧ BaselineTaken a y z
  /-- R85: an interval outside 100 to 10000 ms is rejected. -/
  rejected : u.state.Contact → ¬ u.Restarts a.boot → ∀ b, y.baseline = some b →
    (difference 4294967296 a.timestamp b < 100 ∨ 10000 < difference 4294967296 a.timestamp b) →
    ∃ z, t.station k = some { z with rejected := min (y.rejected + 1) 65535 } ∧ BaselineTaken a y z
  /-- R86 to R101, R103 and R104: any other is a sample of each lane, judged by the station machine and handed. -/
  sampled : u.state.Contact → ¬ u.Restarts a.boot → ∀ b, y.baseline = some b →
    100 ≤ difference 4294967296 a.timestamp b → difference 4294967296 a.timestamp b ≤ 10000 →
    ∃ samples : List LaneSample, samples.length = y.lanes.length ∧
      (∀ (j : Nat) (l : LaneRec), y.lanes[j]? = some l → ∃ ex : Bool,
        (ex = true ↔ ClosedAt s.evaluator.plan r.site (r.lanes.getD j 0)) ∧
        samples[j]? = some (sampleLane s.store.params r (difference 4294967296 a.timestamp b) (r.trims.getD j 0) ex l
          a.lanes[j]?)) ∧
      let z := Station.judge { y with
        baseline := some a.timestamp
        lanes := samples.map (·.lane)
        chatter := min (y.chatter + (samples.filter (·.chattering)).length) 65535
        speed := (sampleOf samples).speed.or y.speed } s.store.params s.now (sampleOf samples)
      Handed s t z ∧
      (z.state ≠ y.state → ∀ p, (s.port p).authority ≠ .disabled → (t.port p).flags &&& 0x08 = 0x08)

/-- R152: what a sign unit that became LOST leaves of its site, whose record was d; `command` is the SET that its miss
ended, none where it ended a poll or where a jam continues. -/
structure SignLost (s t : State) (command : Option SetCommand) (i : Nat) (d : DeliverySite) : Prop where
  resolved : ∃ d', t.site i = some d' ∧ ∀ k, ¬ Unresolved (d'.part k)
  unwanted : s.delivery.target = .plan → ∃ d', t.site i = some d' ∧
    ∀ k p, d.part k = some p → Unresolved (some p) → ∀ e ∈ p.elements, d'.wanted.lookup e = none
  abandoned : s.delivery.target = .plan → command = none → ∃ d', t.site i = some d' ∧
    ∀ k p, d.part k = some p → Unresolved (some p) →
      d'.part k = some { p with state := .abandoned, queued := false }

/-- R142, R152 and R156: the pending parts of these sites, each once, are counted as abandoned. -/
def CountedLost (s t : State) (lost : Nat → Prop) : Prop :=
  ∃ gone : List (Nat × PartKind), gone.Nodup ∧ (∀ i k, (i, k) ∈ gone ↔ lost i ∧ s.Pends i k) ∧
    (s.delivery.abandonments ≤ 65535 →
      t.delivery.abandonments = min (s.delivery.abandonments + gone.length) 65535) ∧
    (s.delivery.target = .plan → s.delivery.abandoned ≤ 65535 →
      t.delivery.abandoned = min (s.delivery.abandoned + gone.length) 65535)

/-- R136: a unit's elements judged afresh, u being its record before: available exactly while the unit is UP or SUSPECT and
the element is unmarked and reported OK or DEGRADED. -/
def Rejudged (u v : UnitRec) : Prop :=
  v.elements.length = u.elements.length ∧ ∀ (j : Nat) (e : ElemRec), u.elements[j]? = some e →
    ∃ b, v.elements[j]? = some { e with available := b } ∧ (b = true ↔ v.state.Contact ∧ e.mark = .clear ∧
      (e.reported = some .ok ∨ e.reported = some .degraded))

/-- R57 and R136: a sign's change of availability is handed to the evaluator, which is pending; without a change nothing is
handed. -/
def AvailabilityHanded (s t : State) (u v : UnitRec) : Prop :=
  ∀ k, u.owner = .sign k →
    (v.usable ≠ u.usable → t.evaluator.pending = true ∧
      (k < s.evaluator.available.length → t.evaluator.available[k]? = some v.usable)) ∧
    (v.usable = u.usable → t.evaluator.available[k]? = s.evaluator.available[k]?)

/-- R139: some unit's state has changed. -/
def UnitStatesChanged (s t : State) : Prop := ∃ i u v, s.unit i = some u ∧ t.unit i = some v ∧ v.state ≠ u.state

/-- R10 and R125: the sign of site i is the unit of slot i (log entry 29). -/
def State.SignsInPlace (s : State) : Prop := ∀ j v k, s.unit j = some v → v.owner = .sign k → k = j

/-- R151: the end of a SET with a miss at a site whose unit is not lost by it. -/
def SetMissed (s t : State) (x : Transaction) (i : Nat) (d : DeliverySite) : Prop :=
  ∀ c p, x.command = some c → c.site = i → d.inFlight = true → s.NoneWaits i → d.part c.part = some p → p.state = .sent →
    ∃ d' q, t.site i = some d' ∧ d'.inFlight = false ∧
      d'.part c.part = some { p with state := .waiting, queued := q }

/-- R98: a station whose outstation became LOST. -/
structure StationLost (s t : State) (k : Nat) (y : Station) : Prop where
  lanes : ∃ z, t.station k = some z ∧ z.state = .blind ∧ ∀ l ∈ z.lanes, l.standing ≠ .valid ∧ l.smoothed = none
  enters : y.state ≠ .blind → (∃ z, t.station k = some z ∧ z.remembered = some y.state ∧
    z.faultHold = some (s.now + s.param .qpFaultHold * 1000) ∧ z.onCount = 0 ∧ z.offCount = 0 ∧ z.stopCount = 0 ∧
    z.minHold = y.minHold) ∧ ∀ p, (s.port p).authority ≠ .disabled → (t.port p).flags &&& 0x08 = 0x08
  stays : y.state = .blind → ∃ z, t.station k = some z ∧ z = { y with lanes := z.lanes }

/-! ## The bytes of replies and of field frames as R172, R109, R110 and section 6.2 state them -/

/-- The reasons in the order of their codes, 0 to 12 (R177). -/
def reasons : List Reason :=
  [.ok, .clamped, .badFrame, .unknownCommand, .notPermitted, .wrongMode, .badRange, .invalid, .tableFull, .quota,
    .notFound, .constraint, .planNotQuiet]

/-- The lane aspects in the order of their codes, 0 to 4 (section 6.2). -/
def aspects : List Aspect := [.blank, .opened, .mergeNear, .mergeOff, .closed]

/-- The display faults in the order of their codes, 0 to 3 (section 6.2). -/
def displayFaults : List DisplayFault := [.ok, .degraded, .dark, .absent]

/-- Section 10.1 and R172: the bytes of a reply frame: LEN, CMD, SEQ, REASON, the payload and the check over these. -/
def ReplyBytes (r : Reply) (b : List Byte) : Prop :=
  ∃ why : Nat, reasons[why]? = some r.reason ∧
    b = [byte r.payload.length, r.cmd, r.seq, byte why] ++ r.payload ++
      crcBytes ([byte r.payload.length, r.cmd, r.seq, byte why] ++ r.payload)

/-- Section 6.2 and R109: the nine payload bytes of a SET of this image and epoch: 0 or BLANK for what it does not hold. -/
structure SetCoded (m : Image) (epoch : Nat) (b : List Byte) : Prop where
  length : b.length = 9
  epoch : num b 0 = epoch % 256
  limit : (∀ v, m.lookup .limit = some (.limit (some v)) → num b 1 = v / 10 % 256) ∧
    ((∀ v, m.lookup .limit ≠ some (.limit (some v))) → num b 1 = 0)
  lanes : ∀ l < 6, (∀ a, m.lookup (.lane l) = some (.lane a) → aspects[num b (2 + l)]? = some a) ∧
    ((∀ a, m.lookup (.lane l) ≠ some (.lane a)) → num b (2 + l) = 0)
  legend : (∀ g, m.lookup .legend = some (.legend g) → legends[num b 8]? = some g) ∧
    ((∀ g, m.lookup .legend ≠ some (.legend g)) → num b 8 = 0)

/-- Section 6.2 and R110: the bytes of a STATE payload, each code within its table, and what they carry. -/
structure StateCoded (b : List Byte) (a : StateReply) : Prop where
  length : b.length = 18
  boot : a.boot = num b 0
  applied : a.applied = num b 1
  limit : num b 2 = 0 ∧ a.limit = none ∨ 2 ≤ num b 2 ∧ num b 2 ≤ 12 ∧ a.limit = some (num b 2 * 10)
  lanes : a.lanes.length = 6 ∧ ∀ l < 6, num b (3 + l) < 5 ∧ a.lanes[l]? = aspects[num b (3 + l)]?
  legend : legends[num b 9]? = some a.legend
  speed : displayFaults[num b 10]? = some a.speedFault
  faults : a.laneFaults.length = 6 ∧ ∀ l < 6, num b (11 + l) < 4 ∧ a.laneFaults[l]? = displayFaults[num b (11 + l)]?
  message : displayFaults[num b 17]? = some a.messageFault

/-- Four bytes of a payload, high byte first. -/
def num4 (b : List Byte) (i : Nat) : Nat := num2 b i * 65536 + num2 b (i + 2)

/-- Section 6.2 and R110: the bytes of a DATA payload, its lane count and codes within their tables, and what they
carry. -/
structure DataCoded (b : List Byte) (a : DataReply) : Prop where
  length : num b 5 ≤ 8 ∧ b.length = 6 + 11 * num b 5
  boot : a.boot = num b 0
  timestamp : a.timestamp = num4 b 1
  lanes : a.lanes.length = num b 5 ∧ ∀ j < num b 5, ∃ x, a.lanes[j]? = some x ∧
    x.totals = ⟨num2 b (6 + 11 * j), num4 b (8 + 11 * j), num4 b (12 + 11 * j)⟩ ∧
    (num b (16 + 11 * j) = 0 ∧ x.fault = .ok ∨ num b (16 + 11 * j) = 1 ∧ x.fault = .loopOpen)

/-- R110: a payload of this KIND carries a reply that a unit of this kind may give: a STATE of a sign, a DATA of an
outstation. -/
def Carries (kind : Byte) (b : List Byte) : UnitOwner → FieldReply → Prop
  | .sign _, .state a => kind = 0x20 ∧ StateCoded b a
  | .outstation _, .data a => kind = 0x21 ∧ DataCoded b a
  | _, _ => False

/-- R110, R113, R115, R116 and section 6.2: what the bytes of a frame, from its first character in the window on, are in
the window of a unit: SYNC, ADDR, KIND, LEN, payload and the check over LEN and payload. -/
structure VerdictRules (owner : UnitOwner) (address : Nat) : Prop where
  inverted : ∀ rest, judgeReply owner address (0x81 :: rest) = .inverted
  discarded : ∀ first rest, first ≠ 0x7E → first ≠ 0x81 → judgeReply owner address (first :: rest) = .discarded
  wrongAddress : ∀ (addr : Byte) rest, addr.toNat ≠ address →
    judgeReply owner address (0x7E :: addr :: rest) = .wrongAddress
  short : ∀ (addr kind : Byte), addr.toNat = address → judgeReply owner address [0x7E] = .incomplete ∧
    judgeReply owner address [0x7E, addr] = .incomplete ∧ judgeReply owner address [0x7E, addr, kind] = .incomplete
  incomplete : ∀ (addr kind len : Byte) rest, addr.toNat = address → rest.length < len.toNat + 2 →
    judgeReply owner address (0x7E :: addr :: kind :: len :: rest) = .incomplete
  badCheck : ∀ (addr kind len high low : Byte) payload rest, addr.toNat = address → payload.length = len.toNat →
    crcBytes (len :: payload) ≠ [high, low] →
    judgeReply owner address (0x7E :: addr :: kind :: len :: (payload ++ high :: low :: rest)) = .badCheck
  whole : ∀ (addr kind len : Byte) payload rest, addr.toNat = address → payload.length = len.toNat →
    (∀ r, judgeReply owner address (0x7E :: addr :: kind :: len :: (payload ++ crcBytes (len :: payload) ++ rest)) =
      .valid r ↔ Carries kind payload owner r) ∧
    ((∀ r, ¬ Carries kind payload owner r) →
      judgeReply owner address (0x7E :: addr :: kind :: len :: (payload ++ crcBytes (len :: payload) ++ rest)) =
        .malformed)

/-! ## Lines and ports after an event -/

/-- R108, R117 and R119: a line that has heard a transition; the part's own while it drives the line is none. -/
def LineRec.heard (r : LineRec) (now : Nat) : LineRec :=
  if r.driving then r
  else
    match r.state with
    | .normal => { r with quiet := false, lastActive := now, jamTimer := some (r.jamTimer.getD now) }
    | .jammed => { r with quiet := false, lastActive := now, unjamTimer := some now }

/-- R47: what the return of a SILENT port leaves of everything but its own record: PORT at the other ports, and the
entries of a port that owns any ACTIVE again, which changes no demand. -/
structure Returned (p : Port) (s t : State) : Prop where
  only : OnlyTable s t
  others : ∀ q, q ≠ p → t.port q = (s.port q).raise .port
  kept : (s.port p).authority.rank < 2 → t.table = s.table ∧ t.evaluator = s.evaluator
  entries : 2 ≤ (s.port p).authority.rank → t.table.entries =
    s.table.entries.map fun e => if e.requester = .port p then { e with state := .active } else e
  arrival : t.table.nextArrival = s.table.nextArrival
  derived : 2 ≤ (s.port p).authority.rank → DemandFollows s t
  demand : s.table.demand = s.store.spots.map (demandAt s.ports s.table.entries) →
    t.table.demand = s.table.demand ∧ t.evaluator = s.evaluator

/-! ## Reset values -/

/-- The strap pair of a port. -/
def Straps.pair (x : Straps) : Port → StrapPair
  | .a => x.a
  | .b => x.b
  | .c => x.c

/-- The reset values of a port record, its authority apart (R44, R178, R184). -/
structure PortResetValues (r : PortRec) : Prop where
  liveness : r.liveness = .active
  deadline : r.deadline = none
  silences : r.silences = 0
  command : r.command = none
  reply : r.reply = none
  flags : r.flags = 0
  mask : r.mask = 0xFF
  overrun : r.overrun = false
  counters : r.frameErrors = 0 ∧ r.overruns = 0 ∧ r.commands = 0

/-- The reset values of a line record (R111, R108). -/
structure LineResetValues (r : LineRec) : Prop where
  state : r.state = .normal ∧ r.sense = .normal ∧ r.streak = 0
  driver : r.driving = false
  timers : r.jamTimer = none ∧ r.unjamTimer = none ∧ r.jam = none
  work : r.transaction = none ∧ r.queue = [] ∧ r.cycle = none
  counters : r.counters = ⟨0, 0, 0, 0, 0, 0⟩

/-- The reset values of the blocks (R1, R19, R44, R55, R83, R111, R125, R142, R161). -/
structure ResetValues (t : State) : Prop where
  mode : t.mode = .unconfigured
  records : (∀ i, t.store.site i = none) ∧ (∀ k, t.store.station k = none) ∧ t.store.boundary = none
  params : ∀ i, t.param i = i.row.initial
  commit : t.store.commit = .openState ∧ t.store.cursors = ⟨0, 0, 0⟩ ∧ t.store.geometry = none
  table : t.table.entries = [] ∧ t.table.nextArrival = 0 ∧ t.table.demand = []
  ports : ∀ p, PortResetValues (t.port p)
  evaluator : t.evaluator.plan = [] ∧ t.evaluator.epoch = 0 ∧ t.evaluator.running = none ∧
    t.evaluator.pending = false
  stations : t.stations = []
  units : t.units = []
  delivery : t.delivery.sites = [] ∧ t.delivery.target = .plan ∧ t.delivery.epoch = 0 ∧
    t.delivery.state = .suppressed ∧ t.delivery.abandoned = 0 ∧ t.delivery.completion = none ∧
    t.delivery.drifts = 0 ∧ t.delivery.abandonments = 0
  lines : ∀ l, LineResetValues (t.line l)

/-! ## Invariants -/

/-- R13 and R15: every parameter is there and within its range, and the constraints hold. -/
def ParamsInv (s : State) : Prop :=
  s.store.params.length = 27 ∧
  (∀ i : ParamId, i.row.low ≤ s.param i ∧ s.param i ≤ i.row.high) ∧
  ∀ c ∈ constraints, c.holds s.store.params = true

/-- R9, R10, R11, R158 and R163: the geometry is there exactly when the store is LOCKED and exactly when the mode is not
UNCONFIGURED, every site of the section then has its record, and the dark target stands in DARKENING alone. -/
def ModeInv (s : State) : Prop :=
  (s.store.geometry = none ↔ s.mode = .unconfigured) ∧
  (s.store.geometry = none ↔ s.store.commit ≠ .locked) ∧
  (s.delivery.target = .dark → s.mode = .darkening) ∧
  s.store.Whole

/-- R42, R44 and R46: a DISABLED port holds nothing and runs no deadline; a SILENT port runs no deadline; and until the
ports are ready each is ACTIVE, empty and without a deadline. -/
def PortsInv (s : State) : Prop :=
  ∀ p, ((s.port p).authority = .disabled →
      (s.port p).flags = 0 ∧ (s.port p).command = none ∧ (s.port p).reply = none ∧ (s.port p).deadline = none) ∧
    ((s.port p).liveness = .silent → (s.port p).deadline = none) ∧
    (s.phase ≠ .ready →
      (s.port p).liveness = .active ∧ (s.port p).command = none ∧ (s.port p).reply = none ∧
      (s.port p).deadline = none)

/-- R17 and R18: no slot and no key twice; a port's entries in the pool and a station's in its own reserved slot; at most
32 entries of one port; sequences of 32 bits. -/
def TableInv (s : State) : Prop :=
  (s.table.entries.map (·.slot)).Nodup ∧
  (s.table.entries.map fun e => (e.requester, e.tag)).Nodup ∧
  (∀ e ∈ s.table.entries, match e.requester with
    | .port _ => e.slot < Config.poolSlots
    | .qp => e.slot = qpSlot e.tag ∧ e.tag < 16) ∧
  (∀ p, s.table.count p ≤ Config.quota) ∧
  s.table.nextArrival < 4294967296 ∧
  ∀ x ∈ s.stations, x.slot < 16

/-- R112 and R117: a line's driver is on exactly while a frame of a transaction goes out, and a JAMMED line carries no
transaction. -/
def LinesInv (s : State) : Prop :=
  ∀ l, ((s.line l).driving = true ↔ ∃ t, (s.line l).transaction = some t ∧ t.stage = .sending) ∧
    ((s.line l).state = .jammed → (s.line l).transaction = none)

end Sys2Proof.Machine
end

