-- ==== Sys2Proof/WellFormed.lean ====
section
/-! DEFINITION. Which commands the wires and timers of the part can send: the checks on operands that the form of a
frame or of a transaction gives. -/

namespace Sys2Proof

/-- A payload a command frame can carry (section 10.1). -/
def payloadFits (payload : List Byte) : Bool := decide (payload.length ≤ maxPayload)

/-- The longest field line frame: four bytes of head, the longest LEN and the two check bytes (section 6.2). -/
def maxFieldFrame : Nat := 261

/-- What the form of a frame, transaction or event demands of its operands. -/
def wellFormed : Instr → Bool
  | .powerOnReset _ => true
  | .pinReset _ _ => true
  | .portsReady => true
  | .voidTransaction _ sdi => sdi.head?.any fun kind => decide (kind ≠ writeKind ∧ kind ≠ readKind)
  | .readTransaction _ _ => true
  | .badFrame _ frame => decide (goodFrame frame = none)
  | .overrun _ => true
  | .unknownCommand _ code _ payload => decide (code ∉ knownCodes) && payloadFits payload
  | .status _ _ payload => payloadFits payload
  | .keepalive _ _ payload => payloadFits payload
  | .readPlan _ _ payload => payloadFits payload
  | .readEntries _ _ payload => payloadFits payload
  | .readUnits _ _ payload => payloadFits payload
  | .readStations _ _ payload => payloadFits payload
  | .readDelivery _ _ payload => payloadFits payload
  | .notices _ _ payload => payloadFits payload
  | .setNoticeMask _ _ payload => payloadFits payload
  | .counters _ _ payload => payloadFits payload
  | .request _ _ payload => payloadFits payload
  | .withdraw _ _ payload => decide (payload ≠ []) && payloadFits payload
  | .withdrawAll _ _ => true
  | .release _ _ payload => payloadFits payload
  | .inhibitQp _ _ payload => payloadFits payload
  | .geometryWrite _ _ payload => payloadFits payload
  | .stationWrite _ _ payload => payloadFits payload
  | .boundaryWrite _ _ payload => payloadFits payload
  | .commit _ _ payload => payloadFits payload
  | .commitValidationEnd => true
  | .paramSet _ _ payload => payloadFits payload
  | .setModeLive _ _ payload => decide (payload ≠ [1]) && payloadFits payload
  | .setModeShadow _ _ payload => decide (payload = [1])
  | .restart _ _ payload => payloadFits payload
  | .portSilent _ => true
  | .entryExpiry slot => decide (slot < Config.poolSlots)
  | .holdDeadlineExpiry => true
  | .passStart => true
  | .passEnd => true
  | .faultHoldExpiry station => decide (station < 16)
  | .inhibitExpiry station => decide (station < 16)
  | .lineQuiet _ frame => decide (frame.length ≤ maxFieldFrame)
  | .frameStart _ => true
  | .frameSent _ => true
  | .validReply _ frame => decide (frame.length ≤ maxFieldFrame)
  | .replyFrameError _ frame => decide (frame.length ≤ maxFieldFrame)
  | .invertedReply _ => true
  | .falseActivity _ frame => decide (frame ≠ [])
  | .replyWindowEnd _ => true
  | .lineJam _ => true
  | .jamContinues _ => true
  | .lineUnjam _ => true
  | .pollCycleStart _ => true
  | .resetRelease => true
  | .lineActivity _ => true

end Sys2Proof
end

