-- ==== Sys2Proof/Certificates/Slice0/Obligations.lean ====
section
/-! DEFINITION. The statements for the provers. Each docstring names the rules a statement follows. -/

open Sys2Proof Sys2Proof.Machine

/-! ## Steps -/

/-- With a command at the front of the queue, a step is `exec` of that command on the state with the queue's rest. -/
def Obligations.StepRunsFront : Prop :=
  ∀ (c : Instr) (rest : List Instr) (s : State), s.pending = c :: rest →
    step s = exec c { s with pending := rest }

/-- The model's choice (log entries 5 and 8): the idle part takes up one event that is due, and with none due the time
base goes on by 1 ms. -/
def Obligations.IdleStepTicksOrTakesDueEvent : Prop :=
  ∀ s : State, s.pending = [] →
    (s.dueEvents = [] → step s = .next { s with now := s.now + 1 }) ∧
    (s.dueEvents ≠ [] → ∃ c ∈ s.dueEvents, ∃ n, step s = .next { s with pending := [c], drawn := n })

/-- No command moves the time base or touches the queue of waiting commands. That a power-on or pin reset keeps the
reading of the time base is the model's choice (log entry 1); the queue is the model's own (log entry 31). -/
def Obligations.ExecKeepsTimeAndQueue : Prop :=
  ∀ (c : Instr) (s t : State), exec c s = .next t → t.now = s.now ∧ t.pending = s.pending

/-- R41: the authority of a port stays from the reset that sampled its straps to the next power-on or pin reset. -/
def Obligations.AuthorityHeldUntilReset : Prop :=
  ∀ (c : Instr) (s t : State), (∀ x, c ≠ .powerOnReset x) → (∀ x n, c ≠ .pinReset x n) → exec c s = .next t →
    ∀ p, (t.port p).authority = (s.port p).authority

/-- R11: in LOCKED only a power-on or pin reset changes the records, the geometry or the commit state. -/
def Obligations.GeometryLockedUntilReset : Prop :=
  ∀ (c : Instr) (s t : State), isReset c = false → s.store.commit = .locked → exec c s = .next t →
    t.store.sites = s.store.sites ∧ t.store.stations = s.store.stations ∧ t.store.boundary = s.store.boundary ∧
    t.store.geometry = s.store.geometry ∧ t.store.commit = .locked

/-- R161: a step that changes the mode, other than a reset, sets the MODE notice at every port not DISABLED. -/
def Obligations.ModeChangeSetsNotice : Prop :=
  ∀ (c : Instr) (s t : State), isReset c = false → exec c s = .next t → t.mode ≠ s.mode →
    ∀ p, (t.port p).authority ≠ .disabled → (t.port p).flags &&& 0x40 = 0x40

/-! ## Resets -/

/-- R41 and R161 with the reset values of R1, R19, R44, R55, R83, R111, R125, R142 and R184: both resets clear every
block and hold the part in reset; a low pulse shorter than 1 ms is ignored. The model's choices: a DISABLED port's record
starts as the others' does (log entry 15), the straps and the pulse length are operands of the events (log entry 33), and
the time base runs on (log entry 1). -/
def Obligations.ResetsClearEveryBlock : Prop :=
  ∀ (x : Straps) (n : Nat) (s : State),
    (∃ t, exec (.powerOnReset x) s = .next t ∧ ResetValues t ∧ t.cause = .power ∧ t.phase = .held ∧
      ∀ p, (t.port p).authority = strapAuthority (Straps.pair x p)) ∧
    (1000 ≤ n → ∃ t, exec (.pinReset x n) s = .next t ∧ ResetValues t ∧ t.cause = .pin ∧ t.phase = .held ∧
      ∀ p, (t.port p).authority = strapAuthority (Straps.pair x p)) ∧
    (n < 1000 → exec (.pinReset x n) s = .next s)

/-- R161, R162, R44 and R184: the release of a reset leaves the blocks at their reset values with no port hearing; 20 ms
later every enabled port becomes ready with its keepalive deadline running and RESET alone set. That a DISABLED port's
record stands as the others' does until then is the model's choice (log entry 15).
That an event whose condition does not hold changes nothing is the model's choice (log entry 6). -/
def Obligations.ReleaseThenPortsReady : Prop :=
  ∀ s : State,
    (s.phase = .held → ∃ t, exec .resetRelease s = .next t ∧ ResetValues t ∧ t.phase = .settling (s.now + 20) ∧
      t.cause = s.cause ∧ ∀ p, t.hears p = false ∧ (t.port p).authority = (s.port p).authority) ∧
    (s.phase ≠ .held → exec .resetRelease s = .next s) ∧
    ∀ d, s.phase = .settling d →
      (d ≤ s.now → ∃ t, exec .portsReady s = .next t ∧ t = { s with phase := .ready, ports := t.ports } ∧
        ∀ p, ((s.port p).authority = .disabled → t.port p = s.port p) ∧
          ((s.port p).authority ≠ .disabled → t.port p = { s.port p with
            flags := 0x80
            deadline := some (s.now + s.param (keepWindowId p) * 1000) })) ∧
      (s.now < d → exec .portsReady s = .next s)

/-! ## Transactions and frames -/

/-- R42 and R162: an event on the wires of a port that is DISABLED or not yet ready changes nothing. -/
def Obligations.UnheardPortChangesNothing : Prop :=
  ∀ (c : Instr) (p : Port) (s : State), transactionPort c = some p → s.hears p = false → exec c s = .next s

/-- R174, R171 and R172: a read in full shifts the reply out and empties the slot, one cut short leaves it, and a read of an
empty slot shifts out the empty reply, as far as it is clocked, and changes nothing else; 00 goes out during the kind byte
and after the frame. A reply is LEN, CMD, SEQ, the code of its REASON (R177), its payload and the check over these. -/
def Obligations.ReadTransactionShiftsReply : Prop :=
  ∀ (p : Port) (n : Nat) (s : State), s.hears p = true →
    (∀ r, (s.port p).reply = some r → ∃ b, ReplyBytes r b ∧ b.length = r.payload.length + 6 ∧
      (b.length ≤ n → exec (.readTransaction p n) s = .next (s.setPort p { s.port p with
        reply := none
        shifted := 0 :: (b ++ List.replicate (n - b.length) 0) })) ∧
      (n < b.length →
        exec (.readTransaction p n) s = .next (s.setPort p { s.port p with shifted := 0 :: b.take n }))) ∧
    ((s.port p).reply = none →
      exec (.readTransaction p n) s = .next (s.setPort p { s.port p with
        shifted := 0 :: (([0, 0, 0, 0] ++ crcBytes [0, 0, 0, 0]).take n ++ List.replicate (n - 6) 0) }))

/-- R170, R171, R174 and R178: a void transaction and a bad frame each count one frame error and leave the keepalive
deadline; a void transaction shifts out 00 from its first byte to its end; for a bad frame an IDLE port also places a
REJECT, which makes an overrun of an unread reply.
The SEQ of a REJECT whose LEN is above 240 is the model's choice (log entry 9), as is that only the bytes of the last read
or void transaction are kept (log entry 37). -/
def Obligations.VoidAndBadFramesCountFrameErrors : Prop :=
  ∀ (p : Port) (sdi frame : List Byte) (s : State), s.hears p = true → goodFrame frame = none →
    let counted : PortRec := { s.port p with frameErrors := min ((s.port p).frameErrors + 1) 65535 }
    exec (.voidTransaction p sdi) s =
      .next (s.setPort p { counted with shifted := List.replicate sdi.length 0 }) ∧
    ((s.port p).command.isSome = true → exec (.badFrame p frame) s = .next (s.setPort p counted)) ∧
    ((s.port p).command = none → exec (.badFrame p frame) s = .next (s.setPort p { counted with
      overrun := (s.port p).overrun || (s.port p).reply.isSome
      overruns := if (s.port p).reply.isSome then min ((s.port p).overruns + 1) 65535 else (s.port p).overruns
      reply := some ⟨0xFF, rejectSeq frame, .badFrame, []⟩ }))

/-- R171 and R172: the bytes of a command frame built with its check, a LEN of at most 240 and any bytes after it, are
taken as the command its CMD names, or as an overrun while the port is EXECUTING (R170, R173, R175). -/
def Obligations.BuiltFrameIsTakenAsItsCommand : Prop :=
  ∀ (p : Port) (busy : Bool) (code seq : Byte) (payload extra : List Byte), payload.length ≤ 240 →
    let covered : List Byte := byte payload.length :: code :: seq :: payload
    transactionRow p busy (0x3C :: (covered ++ crcBytes covered ++ extra)) =
      some (if busy then .overrun p else commandOf p code seq payload) ∧
    wellFormed (commandOf p code seq payload) = true ∧
    sentFrame (commandOf p code seq payload) = some ⟨p, code, seq⟩

/-- R172: the check of the characters 1 to 9, and the residue of covered bytes followed by their check. -/
def Obligations.FrameCheckResidue : Prop :=
  crc [0x31, 0x32, 0x33, 0x34, 0x35, 0x36, 0x37, 0x38, 0x39] = 0x29B1 ∧
  ∀ bytes : List Byte, crc (bytes ++ crcBytes bytes) = 0

/-- R45 and R16: every good frame taken on a port leaves it ACTIVE, its deadline one KEEP_WINDOW from now, by the window
current before the command acts. -/
def Obligations.GoodFrameRestartsKeepalive : Prop :=
  ∀ (c : Instr) (f : Sent) (s t : State), sentFrame c = some f → wellFormed c = true → s.hears f.port = true →
    exec c s = .next t →
    (t.port f.port).liveness = .active ∧
    (t.port f.port).deadline = some (s.now + s.param (keepWindowId f.port) * 1000)

/-- R173 and R178: a good frame on an EXECUTING port is discarded whatever its command: the overrun is counted and
latched, the deadline restarted, and nothing else changes while the port is ACTIVE (a SILENT one returns first, as the
statement of that return says). The OVERRUN event says of itself that its port was executing (log entry 38). -/
def Obligations.FrameWhileExecutingIsOverrun : Prop :=
  ∀ (c : Instr) (f : Sent) (s : State), (sentFrame c = some f ∧ wellFormed c = true ∨ c = .overrun f.port) →
    s.hears f.port = true → (s.port f.port).liveness = .active → (s.port f.port).command.isSome = true →
    exec c s = .next (s.setPort f.port { s.port f.port with
      deadline := some (s.now + s.param (keepWindowId f.port) * 1000)
      overrun := true
      overruns := min ((s.port f.port).overruns + 1) 65535 })

/-- R173 and R177: a command dispatched on an IDLE port is answered with its code plus 80 and its SEQ, and leaves the port
IDLE; only an accepted COMMIT goes on executing. That a code of 80 or more takes its sum with 80 modulo 256 is the model's
choice (log entry 14), as is that every command but a COMMIT is answered in its own step (log entry 38). -/
def Obligations.EveryCommandIsAnswered : Prop :=
  ∀ (c : Instr) (f : Sent) (s t : State), sentFrame c = some f → wellFormed c = true →
    s.serving f.port = true → exec c s = .next t →
    ((t.port f.port).command = none ∧
      ∃ r, (t.port f.port).reply = some r ∧ r.cmd = f.code + 0x80 ∧ r.seq = f.seq) ∨
    (f.code = 0x23 ∧ t.store.commit = .validating ∧ (t.port f.port).reply = none ∧
      (t.port f.port).command = some ⟨f.code, f.seq⟩)

/-- R43 and R177: a command from a port whose authority is below its group is refused NOT_PERMITTED and changes nothing
but its sender's port record; the refusal of a SET_MODE carries the mode (R164). -/
def Obligations.LowAuthorityIsNotPermitted : Prop :=
  ∀ (c : Instr) (f : Sent) (s : State), sentFrame c = some f → wellFormed c = true →
    s.serving f.port = true → (s.port f.port).authority.rank < (permittedTo c).rank →
    exec c s = .next (s.setPort f.port (s.answered f.port f.code f.seq
      (.notPermitted, if f.code = 0x25 then [byte s.mode.code] else [])))

/-- R47 and R45: a good frame on a SILENT port, executing or not, first makes it ACTIVE with its deadline running and its
frozen entries ACTIVE, which changes no demand, and sets PORT at the other ports; then it is taken as on an ACTIVE port. A
KEEPALIVE on an IDLE one is answered OK besides. -/
def Obligations.ReturnOfSilentPort : Prop :=
  ∀ (p : Port) (seq : Byte) (s : State), s.hears p = true → (s.port p).liveness = .silent →
    (∃ u, Returned p s u ∧ u.hears p = true ∧ u.port p = { s.port p with
        liveness := .active
        deadline := some (s.now + s.param (keepWindowId p) * 1000) } ∧
      ∀ c, (∃ f, sentFrame c = some f ∧ f.port = p ∧ wellFormed c = true) ∨ c = .overrun p → exec c s = exec c u) ∧
    ((s.port p).command = none →
      ∃ t, exec (.keepalive p seq []) s = .next t ∧ OnlyTable s t ∧
        t.port p = { s.answered p 0x02 seq (.ok, []) with liveness := .active } ∧
        (∀ q, q ≠ p → t.port q = (s.port q).raise .port) ∧
        t.table.nextArrival = s.table.nextArrival ∧
        t.table.entries = if 2 ≤ (s.port p).authority.rank
          then s.table.entries.map fun e => if e.requester = .port p then { e with state := .active } else e
          else s.table.entries)

/-! ## Reading commands -/

/-- R45, R175 and R177: KEEPALIVE is answered OK and a code that names no command UNKNOWN_COMMAND, both with no payload
and no other change; a command with a LEN that no form of it has is INVALID, with no payload but SET_MODE's, and changes
nothing but its sender's port. That a code of 80 or more takes its sum with 80 modulo 256 is the model's choice (log entry
14), as is that a PARAM_SET which is not whole pairs names no pair (log entry 13). -/
def Obligations.KeepaliveAndUnknownCommandAnswered : Prop :=
  ∀ (p : Port) (seq code : Byte) (payload : List Byte) (s : State), s.serving p = true →
    exec (.keepalive p seq []) s = .next (s.setPort p (s.answered p 0x02 seq (.ok, []))) ∧
    (payload ≠ [] →
      exec (.keepalive p seq payload) s = .next (s.setPort p (s.answered p 0x02 seq (.invalid, [])))) ∧
    (code ∉ knownCodes →
      exec (.unknownCommand p code seq payload) s =
        .next (s.setPort p (s.answered p code seq (.unknownCommand, [])))) ∧
    (code ∈ knownCodes → lenAllowed code payload.length = false →
      (permittedTo (commandOf p code seq payload)).rank ≤ (s.port p).authority.rank →
      exec (commandOf p code seq payload) s = .next (s.setPort p (s.answered p code seq
        (.invalid, if code = 0x25 then [byte s.mode.code] else []))))

/-- R176 and R179: STATUS answers 26 bytes, reports the sender's overrun flag and clears it, and changes nothing else.
That the flag it reports counts the unread reply that this STATUS itself displaced is the model's choice (log entry 28). -/
def Obligations.StatusReportsAndClearsOverrun : Prop :=
  ∀ (p : Port) (seq : Byte) (s : State), s.serving p = true →
    let portBytes (q : Port) : List Byte := [byte (s.port q).authority.rank,
      if (s.port q).authority = .disabled then 0xFF else byte (s.port q).liveness.code]
    let lineBytes (l : LineId) : List Byte := [byte (s.line l).state.code, byte (s.line l).sense.code]
    let bytes : List Byte := [byte s.mode.code, byte s.cause.code, byte s.store.commit.code, byte s.store.siteCount,
        byte s.store.stationCount, if s.evaluator.running.isSome then 1 else 0,
        if s.evaluator.pending then 1 else 0] ++ be16 s.evaluator.epoch ++
      [byte s.delivery.target.code] ++ be16 s.delivery.epoch ++ [byte s.delivery.state.code] ++
      (portBytes .a ++ portBytes .b ++ portBytes .c) ++ (lineBytes .one ++ lineBytes .two) ++
      [byte s.table.entries.length, byte ((List.range 48).filter fun j => (s.table.inSlot j).isNone).length,
        if (s.port p).overrun || (s.port p).reply.isSome then 1 else 0]
    exec (.status p seq []) s =
      .next (s.setPort p { s.answered p 0x01 seq (.ok, bytes) with overrun := false }) ∧
    bytes.length = 26

/-- R82, R21, R23 and R176: READ_PLAN in UNCONFIGURED is OK and lists no sites; a range whose last lies above 32, whose
first lies above its last, or whose first is neither below N nor 32 is BAD_RANGE; any other is taken with its end at N-1
where that lay from N to 31, the reply then CLAMPED, and lists up to six of the sites from first to last and EXIT where
last is 32, in records of 34 bytes after a head of epoch, evaluator state, pending flag, first and last listed (FF for
none). It changes nothing. The model's choices: R82's mark RANGE is the reason CLAMPED alone, with no byte in the payload
(log entry 26), and the flag bit of an underlying closure is set for UNAVAILABLE lanes alone (log entry 27). -/
def Obligations.ReadPlanListsRange : Prop :=
  ∀ (p : Port) (seq first last : Byte) (s : State), s.serving p = true →
    let n := s.store.siteCount
    let ends := rangeEnd n last.toNat
    let listed := (((List.range n).filter fun i => decide (first.toNat ≤ i ∧ i ≤ ends)) ++
      (if last.toNat = 32 then [32] else [])).take 6
    let payload (sites : List Nat) : List Byte := be16 s.evaluator.epoch ++
      [yes s.evaluator.running.isSome, yes s.evaluator.pending, orFF sites.head?, orFF sites.getLast?] ++
      sites.flatMap (planRecordBytes s)
    (s.mode = .unconfigured →
      exec (.readPlan p seq [first, last]) s = .next (s.setPort p (s.answered p 0x03 seq (.ok, payload [])))) ∧
    (s.mode ≠ .unconfigured →
      (32 < last.toNat ∨ last.toNat < first.toNat ∨ n ≤ first.toNat ∧ first.toNat ≠ 32) →
      exec (.readPlan p seq [first, last]) s = .next (s.setPort p (s.answered p 0x03 seq (.badRange, [])))) ∧
    (s.mode ≠ .unconfigured → last.toNat ≤ 32 → first.toNat ≤ last.toNat → (first.toNat < n ∨ first.toNat = 32) →
      exec (.readPlan p seq [first, last]) s =
        .next (s.setPort p (s.answered p 0x03 seq
          (if n ≤ last.toNat ∧ last.toNat ≤ 31 then .clamped else .ok, payload listed)))) ∧
    ∀ sites : List Nat, (payload sites).length = 6 + 34 * sites.length

/-- R40, R31 and R176: READ_ENTRIES lists up to 13 entries of 18 bytes in arrival order from the start index on, none from
an index beyond them, and changes nothing. A record gives the entry's slot, requester, tag, range, parts, limit, closure,
legend, policy, state, arrival sequence, remaining expiry and the number of sites it supplies the legend of; that an entry whose
deadline has run out and whose ENTRY_EXPIRY still waits reads 1 is the model's choice (log entry 39). -/
def Obligations.ReadEntriesListsArrivalOrder : Prop :=
  ∀ (p : Port) (seq start : Byte) (s : State), s.serving p = true →
    ∃ head : Byte,
      let listed := (s.table.entries.drop start.toNat).take 13
      let bytes := [byte s.table.entries.length, head] ++ listed.flatMap (entryRecordBytes s)
      exec (.readEntries p seq [start]) s = .next (s.setPort p (s.answered p 0x04 seq (.ok, bytes))) ∧
      (head = if start.toNat < s.table.entries.length then start else 0xFF) ∧
      bytes.length = 2 + 18 * listed.length

/-- R107, R141 and R176: outside UNCONFIGURED a range out of order or above the last index is BAD_RANGE; otherwise
READ_UNITS lists up to seven filled slots in records of 30 bytes and READ_STATIONS up to four used stations in records of
51 bytes, after the first and last listed (FF for none); neither changes anything. -/
def Obligations.ReadUnitsAndStationsListRange : Prop :=
  ∀ (p : Port) (seq first last : Byte) (s : State), s.serving p = true →
    let units := ((List.range s.units.length).filter fun i => decide (first.toNat ≤ i ∧ i ≤ last.toNat)).take 7
    let stations := (s.stations.filter fun x => decide (first.toNat ≤ x.slot ∧ x.slot ≤ last.toNat)).take 4
    let unitBytes : List Byte := [orFF units.head?, orFF units.getLast?] ++
      units.flatMap fun i => ((s.unit i).map fun u => unitRecordBytes u i).getD []
    let stationBytes : List Byte := [orFF (stations.head?.map (·.slot)), orFF (stations.getLast?.map (·.slot))] ++
      stations.flatMap (stationRecordBytes s)
    (s.mode ≠ .unconfigured → (last.toNat < first.toNat ∨ 47 < last.toNat) →
      exec (.readUnits p seq [first, last]) s = .next (s.setPort p (s.answered p 0x05 seq (.badRange, [])))) ∧
    (s.mode = .unconfigured ∨ (first.toNat ≤ last.toNat ∧ last.toNat ≤ 47) →
      exec (.readUnits p seq [first, last]) s = .next (s.setPort p (s.answered p 0x05 seq (.ok, unitBytes))) ∧
      unitBytes.length = 2 + 30 * units.length) ∧
    (s.mode ≠ .unconfigured → (last.toNat < first.toNat ∨ 15 < last.toNat) →
      exec (.readStations p seq [first, last]) s = .next (s.setPort p (s.answered p 0x06 seq (.badRange, [])))) ∧
    (s.mode = .unconfigured ∨ (first.toNat ≤ last.toNat ∧ last.toNat ≤ 15) →
      exec (.readStations p seq [first, last]) s =
        .next (s.setPort p (s.answered p 0x06 seq (.ok, stationBytes))) ∧
      stationBytes.length = 2 + 51 * stations.length)

/-- R160 and R176: READ_DELIVERY in UNCONFIGURED lists no sites; a pair out of order, above 31 or from N on is BAD_RANGE;
otherwise it lists up to six sites, CLAMPED where the last lies beyond N-1, in records of 37 bytes after a head of 15: the
first site listed (FF for none), target, epoch, state, the pending parts of each kind, abandoned in target and last
completion. Nothing but the count of free values changes besides the sender's port. The model's choices: the four bytes
after a last completion of none are a free value (log entry 4), and R160's mark RANGE is the reason CLAMPED alone, with no
byte in the payload (log entry 26). -/
def Obligations.ReadDeliveryListsRange : Prop :=
  ∀ (p : Port) (seq first last : Byte) (s : State), s.serving p = true →
    let n := s.store.siteCount
    let listed := ((List.range n).filter fun i => decide (first.toNat ≤ i ∧ i ≤ last.toNat)).take 6
    let drawn := if s.delivery.completion = none then s.drawn + 1 else s.drawn
    ∃ free : List Byte, free.length = 4 ∧
    (s.mode = .unconfigured →
      exec (.readDelivery p seq [first, last]) s =
        .next { s.setPort p (s.answered p 0x07 seq (.ok, deliveryPayload s free [])) with drawn := drawn }) ∧
    (s.mode ≠ .unconfigured → (last.toNat < first.toNat ∨ 31 < last.toNat ∨ n ≤ first.toNat) →
      exec (.readDelivery p seq [first, last]) s =
        .next (s.setPort p (s.answered p 0x07 seq (.badRange, [])))) ∧
    (s.mode ≠ .unconfigured → first.toNat ≤ last.toNat → last.toNat ≤ 31 → first.toNat < n →
      exec (.readDelivery p seq [first, last]) s =
        .next { s.setPort p (s.answered p 0x07 seq
          (if last.toNat < n then .ok else .clamped, deliveryPayload s free listed)) with drawn := drawn }) ∧
    (∀ sites : List Nat, (∀ i ∈ sites, s.site i ≠ none ∧ s.store.site i ≠ none) →
      (deliveryPayload s free sites).length = 15 + 37 * sites.length) ∧
    ∀ c : Completion, s.delivery.completion = some c →
      ((deliveryPayload s free []).drop 10).take 5 = byte c.target.code :: (be16 c.epoch ++ be16 c.abandoned)

/-- R182, R183 and R174: NOTICES reports the flags, the mask, the epoch and the last completion and clears the flags, so
that ATTENTION falls; SET_NOTICE_MASK replaces the mask and no flag. Nothing else changes but the count of free values of
log entry 4. At every port the ATTENTION line is raised exactly while a flag is set that the mask allows, so that a mask
sent raises or lowers it, and the READY line is high exactly while a reply waits. -/
def Obligations.NoticesClearFlagsAndMaskIsReplaced : Prop :=
  ∀ (p : Port) (seq mask : Byte) (s : State), s.serving p = true →
    (∃ bytes : List Byte, ∃ n,
      exec (.notices p seq []) s =
        .next { s.setPort p { s.answered p 0x08 seq (.ok, bytes) with flags := 0 } with drawn := n } ∧
      bytes.length = 9 ∧ bytes.take 4 = [(s.port p).flags, (s.port p).mask] ++ be16 s.evaluator.epoch ∧
      (∀ c : Completion, s.delivery.completion = some c →
        n = s.drawn ∧ bytes.drop 4 = byte c.target.code :: (be16 c.epoch ++ be16 c.abandoned)) ∧
      (s.delivery.completion = none → bytes.getD 4 0 = 0xFF)) ∧
    exec (.setNoticeMask p seq [mask]) s =
      .next (s.setPort p { s.answered p 0x09 seq (.ok, [mask]) with mask := mask }) ∧
    (∀ t, exec (.notices p seq []) s = .next t ∨ exec (.setNoticeMask p seq [mask]) s = .next t →
      (t.port p).readyLine = true) ∧
    (∀ t, exec (.notices p seq []) s = .next t → (t.port p).attentionLine = false) ∧
    (∀ t, exec (.setNoticeMask p seq [mask]) s = .next t → ((t.port p).attentionLine = true ↔
      ∃ i < 8, (s.port p).flags.getLsbD i = true ∧ mask.getLsbD i = true)) ∧
    ∀ q, ((s.port q).attentionLine = true ↔
        ∃ i < 8, (s.port q).flags.getLsbD i = true ∧ (s.port q).mask.getLsbD i = true) ∧
      ((s.port q).readyLine = true ↔ ∃ r, (s.port q).reply = some r)

/-- R180 and R176: COUNTERS answers 53 bytes: whether it clears, the four counters of each port, the six of each line,
drifts and abandonments. A SUPERVISORY sender that asks for it leaves every counter of the part at 0, and nothing else
changes; otherwise only the sender's port does. That the sender's own counters are reported with this command already
counted is the model's choice (log entry 28). -/
def Obligations.CountersClearedForSupervisoryAlone : Prop :=
  ∀ (p : Port) (seq ask : Byte) (s : State), s.serving p = true →
    let clears : Bool := decide ((s.port p).authority = .supervisory ∧ ask ≠ 0)
    let portBytes (q : Port) : List Byte :=
      let r := if q = p then s.answered p 0x0A seq (.ok, []) else s.port q
      if r.authority = .disabled then [0, 0, 0, 0, 0, 0, 0, 0]
      else be16 r.frameErrors ++ be16 r.overruns ++ be16 r.commands ++ be16 r.silences
    let lineBytes (l : LineId) : List Byte :=
      let c := (s.line l).counters
      be16 c.frameErrors ++ be16 c.falseActivity ++ be16 c.retries ++ be16 c.jams ++ be16 c.flips ++ be16 c.stretched
    let bytes : List Byte := yes clears :: ((portBytes .a ++ portBytes .b ++ portBytes .c) ++
      (lineBytes .one ++ lineBytes .two) ++ be16 s.delivery.drifts ++ be16 s.delivery.abandonments)
    bytes.length = 53 ∧ ∃ t, exec (.counters p seq [ask]) s = .next t ∧
      (clears = true →
        t.port p = { s.answered p 0x0A seq (.ok, bytes) with
          frameErrors := 0, overruns := 0, commands := 0, silences := 0 } ∧
        (∀ q, q ≠ p → t.port q = { s.port q with
          frameErrors := 0, overruns := 0, commands := 0, silences := 0 }) ∧
        (∀ l, t.line l = { s.line l with counters := ⟨0, 0, 0, 0, 0, 0⟩ }) ∧
        t = { s with
          ports := t.ports
          lines := t.lines
          units := s.units.map fun u => { u with misses := 0, restarts := 0 }
          stations := s.stations.map fun x => { x with rejected := 0, chatter := 0 }
          delivery := { s.delivery with drifts := 0, abandonments := 0 } }) ∧
      (clears = false → t = s.setPort p (s.answered p 0x0A seq (.ok, bytes)))

/-! ## The request table -/

/-- R20 to R25 and R18: a REQUEST that passes its checks creates an entry in the lowest free pool slot, or replaces the one
with its key in place, with its range end, its limit and its policy clamped and marked; it takes the next arrival sequence
and the newest place, and nothing else of the table changes. -/
def Obligations.RequestStoresEntry : Prop :=
  ∀ (p : Port) (seq : Byte) (payload : List Byte) (s : State), s.serving p = true → payload.length = 10 →
    2 ≤ (s.port p).authority.rank → s.mode ≠ .unconfigured →
    let n := s.store.siteCount
    let tag := num payload 0
    (carries payload 3 = true → (s.port p).authority = .supervisory) →
    RangePasses n (num payload 1) (num payload 2) → PartsPass payload →
    let stored (slot : Nat) : Entry :=
      ⟨slot, .port p, tag, storedAsk n payload,
        if num2 payload 8 = 0 then none else some (s.now + num2 payload 8 * 1000), s.table.nextArrival, .active⟩
    let reply (slot : Nat) (replaced : Byte) : Answer :=
      (if clampMarks n payload = 0 then .ok else .clamped,
        byte slot :: (be32 s.table.nextArrival ++ [replaced, byte (clampMarks n payload)]))
    (∀ slot, (∀ e ∈ s.table.entries, ¬ (e.requester = .port p ∧ e.tag = tag)) → slot < 48 →
      s.table.inSlot slot = none → (∀ j < slot, s.table.inSlot j ≠ none) → s.table.count p < 32 →
      ∃ t, exec (.request p seq payload) s = .next t ∧ OnlyTable s t ∧
        t.table.entries = s.table.entries ++ [stored slot] ∧
        t.table.nextArrival = (s.table.nextArrival + 1) % 2 ^ 32 ∧ DemandFollows s t ∧
        t.port p = s.answered p 0x10 seq (reply slot 0) ∧ ∀ q, q ≠ p → t.port q = s.port q) ∧
    ∀ e, s.table.find (.port p) tag = some e →
      ∃ t, exec (.request p seq payload) s = .next t ∧ OnlyTable s t ∧
        t.table.entries = (s.table.entries.filter fun x => decide (x.slot ≠ e.slot)) ++ [stored e.slot] ∧
        t.table.nextArrival = (s.table.nextArrival + 1) % 2 ^ 32 ∧ DemandFollows s t ∧
        t.port p = s.answered p 0x10 seq (reply e.slot 1) ∧ ∀ q, q ≠ p → t.port q = s.port q

/-- R20 to R22: the checks of a REQUEST in their order, each refusal changing nothing but the sender's port. -/
def Obligations.RequestRefusedInOrder : Prop :=
  ∀ (p : Port) (seq : Byte) (payload : List Byte) (s : State), s.serving p = true → payload.length = 10 →
    2 ≤ (s.port p).authority.rank →
    let refused (why : Reason) : Prop :=
      exec (.request p seq payload) s = .next (s.setPort p (s.answered p 0x10 seq (why, [])))
    if s.mode = .unconfigured then refused .wrongMode
    else if carries payload 3 = true ∧ (s.port p).authority ≠ .supervisory then refused .notPermitted
    else if ¬ RangePasses s.store.siteCount (num payload 1) (num payload 2) then refused .badRange
    else if ¬ PartsPass payload then refused .invalid
    else (∀ e ∈ s.table.entries, ¬ (e.requester = .port p ∧ e.tag = num payload 0)) →
      ((∀ j < 48, s.table.inSlot j ≠ none) → refused .tableFull) ∧
      (∀ j < 48, s.table.inSlot j = none → 32 ≤ s.table.count p → refused .quota)

/-- R29 and R30: in UNCONFIGURED both forms of WITHDRAW are WRONG_MODE; in any other mode WITHDRAW removes the sender's
entry with the tag or is answered NOT_FOUND, and WITHDRAW ALL removes every entry of the sender; no notice is set and
nothing else changes. -/
def Obligations.WithdrawRemovesOwnEntries : Prop :=
  ∀ (p : Port) (seq tag : Byte) (s : State), s.serving p = true → 2 ≤ (s.port p).authority.rank →
    let hasKey (e : Entry) : Prop := e.requester = .port p ∧ e.tag = tag.toNat
    (s.mode = .unconfigured →
      exec (.withdraw p seq [tag]) s = .next (s.setPort p (s.answered p 0x11 seq (.wrongMode, []))) ∧
      exec (.withdrawAll p seq) s = .next (s.setPort p (s.answered p 0x11 seq (.wrongMode, [])))) ∧
    (s.mode ≠ .unconfigured →
      ((∃ e ∈ s.table.entries, hasKey e) →
        ∃ t, exec (.withdraw p seq [tag]) s = .next t ∧ OnlyTable s t ∧
          t.table.entries = (s.table.entries.filter fun e => !decide (e.requester = .port p ∧ e.tag = tag.toNat)) ∧
          t.table.nextArrival = s.table.nextArrival ∧ DemandFollows s t ∧
          t.port p = s.answered p 0x11 seq (.ok, [1]) ∧ ∀ q, q ≠ p → t.port q = s.port q) ∧
      ((∀ e ∈ s.table.entries, ¬ hasKey e) →
        exec (.withdraw p seq [tag]) s = .next (s.setPort p (s.answered p 0x11 seq (.notFound, [])))) ∧
      ∃ t, exec (.withdrawAll p seq) s = .next t ∧ OnlyTable s t ∧
        t.table.entries = (s.table.entries.filter fun e => decide (e.requester ≠ .port p)) ∧
        t.table.nextArrival = s.table.nextArrival ∧ DemandFollows s t ∧
        t.port p = s.answered p 0x11 seq (.ok, [byte (s.table.count p)]) ∧ ∀ q, q ≠ p → t.port q = s.port q)

/-- R49 to R51, R23 and R33: RELEASE is WRONG_MODE in UNCONFIGURED, INVALID for a requester that is no port and BAD_RANGE
for a range that fails R21, in this order; otherwise it removes the entries of X that share a site with the range and that
the sender's rank or their freezing lets it release, reports how many went and how many stayed, and sets ENTRY at X where
any went. That a range clamped at its end is CLAMPED also where it finds no entry, or removes none and leaves some, is the
model's choice (log entry 40). -/
def Obligations.ReleaseRemovesReleasableEntries : Prop :=
  ∀ (p : Port) (seq who first last : Byte) (s : State), s.serving p = true → 2 ≤ (s.port p).authority.rank →
    let n := s.store.siteCount
    let refused (why : Reason) : Prop :=
      exec (.release p seq [who, first, last]) s = .next (s.setPort p (s.answered p 0x12 seq (why, [])))
    if s.mode = .unconfigured then refused .wrongMode
    else if 2 < who.toNat then refused .invalid
    else if ¬ RangePasses n first.toNat last.toNat then refused .badRange
    else ∀ x : Port, Port.code x = who.toNat →
      let ends := rangeEnd n last.toNat
      let shares (e : Entry) : Bool :=
        (List.range n ++ [32]).any fun i => decide (e.ask.first ≤ i ∧ i ≤ e.ask.last ∧ first.toNat ≤ i ∧ i ≤ ends)
      let considered (e : Entry) : Bool := decide (e.requester = .port x) && shares e
      let may (e : Entry) : Bool := decide ((s.port x).authority.rank ≤ (s.port p).authority.rank) ||
        (decide (e.state = .frozen) && e.ask.closure.isNone)
      let gone := s.table.entries.filter fun e => considered e && may e
      let left := s.table.entries.filter fun e => considered e && !may e
      ∃ t, exec (.release p seq [who, first, last]) s = .next t ∧ OnlyTable s t ∧
        t.table.entries = (s.table.entries.filter fun e => !(considered e && may e)) ∧
        t.table.nextArrival = s.table.nextArrival ∧ DemandFollows s t ∧
        ∀ q, t.port q = (if q = x ∧ gone ≠ [] then PortRec.raise .entry else id)
          (if q = p then s.answered p 0x12 seq
              (if ends = last.toNat then .ok else .clamped,
                [byte gone.length, byte left.length, if ends = last.toNat then 0 else 1])
            else s.port q)

/-- R31 and R33: an entry of a port goes when its expiry deadline has run out, with its owner's ENTRY notice; before that
nothing happens.
That an event whose condition does not hold changes nothing is the model's choice (log entry 6). -/
def Obligations.EntryExpiryRemovesEntry : Prop :=
  ∀ (slot : Nat) (p : Port) (e : Entry) (d : Nat) (s : State), s.table.inSlot slot = some e →
    e.requester = .port p → e.expiry = some d →
    (d ≤ s.now → ∃ t, exec (.entryExpiry slot) s = .next t ∧ OnlyTable s t ∧
      t.table.entries = (s.table.entries.filter fun x => decide (x.slot ≠ slot)) ∧
      t.table.nextArrival = s.table.nextArrival ∧ DemandFollows s t ∧
      t.port p = (s.port p).raise .entry ∧ ∀ q, q ≠ p → t.port q = s.port q) ∧
    (s.now < d → exec (.entryExpiry slot) s = .next s)

/-- R46 and R33: an ACTIVE port whose keepalive deadline has run out becomes SILENT; of a FIELD or SUPERVISORY port the
DROP entries go, with its ENTRY notice, and the HOLD entries freeze in place; PORT is set at the other ports. -/
def Obligations.SilenceDropsAndFreezes : Prop :=
  ∀ (p : Port) (d : Nat) (s : State), (s.port p).liveness = .active → (s.port p).deadline = some d → d ≤ s.now →
    let owns := decide (2 ≤ (s.port p).authority.rank)
    let drops (e : Entry) : Bool := decide (e.requester = .port p ∧ e.ask.policy = .drop)
    ∃ t, exec (.portSilent p) s = .next t ∧ OnlyTable s t ∧
      t.table.nextArrival = s.table.nextArrival ∧
      (owns = false → t.table = s.table) ∧
      (owns = true → DemandFollows s t ∧
        t.table.entries = (s.table.entries.filter fun e => !drops e).map fun e =>
          if e.requester = .port p then { e with state := .frozen } else e) ∧
      t.port p = (if owns && s.table.entries.any drops then PortRec.raise .entry else id)
        { s.port p with
          liveness := .silent
          deadline := none
          silences := min ((s.port p).silences + 1) 65535 } ∧
      ∀ q, q ≠ p → t.port q = (s.port q).raise .port

/-- R105 and R102 to R104: INHIBIT_QP is WRONG_MODE in UNCONFIGURED, BAD_RANGE above station 15 and NOT_FOUND for a station
slot not used, in this order; of 1 s or more it sets the station's inhibit, at most an hour, and its entry goes; of 0 it
ends the inhibit, if one is set, and hands the image the station's state warrants, over its coverage (R103) with the limit
of its state; of 0 without one it changes nothing. A demand derived from the entries before follows them after, as R35 and
R104 say. -/
def Obligations.InhibitSetsOrEndsInhibit : Prop :=
  ∀ (p : Port) (seq k high low : Byte) (s : State), s.serving p = true → 2 ≤ (s.port p).authority.rank →
    let refused (why : Reason) : Prop :=
      exec (.inhibitQp p seq [k, high, low]) s = .next (s.setPort p (s.answered p 0x13 seq (why, [])))
    let seconds := high.toNat * 256 + low.toNat
    let slot := 48 + k.toNat
    if s.mode = .unconfigured then refused .wrongMode
    else if 15 < k.toNat then refused .badRange
    else (s.station k.toNat = none → refused .notFound) ∧ ∀ x, s.station k.toNat = some x →
      (seconds = 0 → x.inhibit = none →
        exec (.inhibitQp p seq [k, high, low]) s = .next (s.setPort p (s.answered p 0x13 seq
          (.ok, [byte x.state.code, 0, 0, yes (s.table.inSlot slot).isSome])))) ∧
      (seconds ≠ 0 ∨ x.inhibit ≠ none →
        let deadline := if seconds = 0 then none else some (s.now + min seconds 3600 * 1000)
        let x0 : Station := { x with inhibit := deadline }
        ∃ t m, exec (.inhibitQp p seq [k, high, low]) s = .next t ∧ EntryImage s x0 m ∧
          t = { s with
            table := t.table
            ports := t.ports
            stations := t.stations
            evaluator := { s.evaluator with pending := t.evaluator.pending } } ∧
          t.station k.toNat = some { x0 with handed := m } ∧
          (∀ j, j ≠ k.toNat → t.station j = s.station j) ∧
          (seconds ≠ 0 → m = none) ∧
          (m = none → t.table.entries = s.table.entries.filter fun e => decide (e.slot ≠ slot)) ∧
          (∀ q, m = some q → ∃ e, t.table.inSlot slot = some e ∧ e.ask = askOf q) ∧
          (∀ j, j ≠ slot → t.table.inSlot j = s.table.inSlot j) ∧
          (DemandDerived s → DemandFollows s t) ∧
          t.port p = s.answered p 0x13 seq (if 3600 < seconds then .clamped else .ok,
            byte x.state.code :: (leftBytes s.now deadline ++ [yes m.isSome])) ∧
          ∀ q, q ≠ p → t.port q = s.port q)

/-! ## The configuration store -/

/-- R2, R3, R5 to R7 and R11: the two geometry writes alike, in the order of their checks: in VALIDATING and LOCKED a write
is WRONG_MODE; of no records INVALID; with a start index beyond its slots, or records past the last slot, BAD_RANGE; with
an invalid record INVALID, naming its slot; any other fills its slots with what its records say, or leaves them unused,
moves the sender's cursor and is OK. A refusal changes nothing but the sender's port. -/
def Obligations.GeometryWritesFillSlots : Prop :=
  ∀ (p : Port) (seq given : Byte) (sites stations : List (List Byte)) (s : State), s.serving p = true →
    (s.port p).authority = .supervisory → s.store.sites.length = 32 → s.store.stations.length = 16 →
    (∀ r ∈ sites, r.length = 8) → (∀ r ∈ stations, r.length = 21) →
    let start := if given = 255 then s.store.cursors.get p else given.toNat
    let siteWrite := Instr.geometryWrite p seq (given :: sites.flatten)
    let stationWrite := Instr.stationWrite p seq (given :: stations.flatten)
    let siteRefused (why : Reason) (payload : List Byte) : Prop :=
      exec siteWrite s = .next (s.setPort p (s.answered p 0x20 seq (why, payload)))
    let stationRefused (why : Reason) (payload : List Byte) : Prop :=
      exec stationWrite s = .next (s.setPort p (s.answered p 0x21 seq (why, payload)))
    (s.store.commit ≠ .openState → siteRefused .wrongMode [] ∧ stationRefused .wrongMode []) ∧
    (s.store.commit = .openState →
      (sites = [] → siteRefused .invalid []) ∧
      (sites ≠ [] → (given ≠ 255 ∧ 32 ≤ given.toNat ∨ 32 < start + sites.length) → siteRefused .badRange []) ∧
      (sites ≠ [] → (given = 255 ∨ given.toNat < 32) → start + sites.length ≤ 32 →
        (∀ k r, sites[k]? = some r → ¬ SiteBytesGood r → (∀ j < k, ∀ q, sites[j]? = some q → SiteBytesGood q) →
          siteRefused .invalid [byte (start + k)]) ∧
        ((∀ r ∈ sites, SiteBytesGood r) →
          ∃ t, exec siteWrite s = .next t ∧ t = { s with
              ports := t.ports
              store := { s.store with
                sites := t.store.sites
                cursors := s.store.cursors.set p (start + sites.length) } } ∧
            (∀ i, t.store.site i = if start ≤ i ∧ i < start + sites.length
              then storedSite (sites.getD (i - start) []) else s.store.site i) ∧
            t.port p = s.answered p 0x20 seq (.ok, [byte (start + sites.length)]) ∧
            ∀ q, q ≠ p → t.port q = s.port q)) ∧
      (stations = [] → stationRefused .invalid []) ∧
      (stations ≠ [] → (given ≠ 255 ∧ 16 ≤ given.toNat ∨ 16 < start + stations.length) →
        stationRefused .badRange []) ∧
      (stations ≠ [] → (given = 255 ∨ given.toNat < 16) → start + stations.length ≤ 16 →
        (∀ k r, stations[k]? = some r → ¬ StationBytesGood r →
          (∀ j < k, ∀ q, stations[j]? = some q → StationBytesGood q) →
          stationRefused .invalid [byte (start + k)]) ∧
        ((∀ r ∈ stations, StationBytesGood r) →
          ∃ t, exec stationWrite s = .next t ∧ t = { s with
              ports := t.ports
              store := { s.store with
                stations := t.store.stations
                cursors := s.store.cursors.set p (start + stations.length) } } ∧
            (∀ k, t.store.station k = if start ≤ k ∧ k < start + stations.length
              then storedStation (stations.getD (k - start) []) else s.store.station k) ∧
            t.port p = s.answered p 0x21 seq (.ok, [byte (start + stations.length)]) ∧
            ∀ q, q ≠ p → t.port q = s.port q)))

/-- R4 and R7: BOUNDARY_WRITE in OPEN replaces the boundary record where its lanes are 1 to 5 and its shoulder byte is 0
or 1, and is INVALID otherwise; it moves no cursor. -/
def Obligations.BoundaryWriteReplacesRecord : Prop :=
  ∀ (p : Port) (seq lanes shoulder : Byte) (s : State), s.serving p = true → (s.port p).authority = .supervisory →
    let refused (why : Reason) : Prop :=
      exec (.boundaryWrite p seq [lanes, shoulder]) s = .next (s.setPort p (s.answered p 0x22 seq (why, [])))
    (s.store.commit ≠ .openState → refused .wrongMode) ∧
    (s.store.commit = .openState →
      (1 ≤ lanes.toNat ∧ lanes.toNat ≤ 5 ∧ shoulder.toNat ≤ 1 →
        exec (.boundaryWrite p seq [lanes, shoulder]) s =
          .next { s.setPort p (s.answered p 0x22 seq (.ok, [])) with
            store := { s.store with boundary := some ⟨lanes.toNat, decide (shoulder.toNat = 1)⟩ } }) ∧
      (¬ (1 ≤ lanes.toNat ∧ lanes.toNat ≤ 5 ∧ shoulder.toNat ≤ 1) → refused .invalid))

/-- R8: a COMMIT in OPEN makes the commit state VALIDATING and stays in its port's command slot with no reply; in
VALIDATING and LOCKED it is WRONG_MODE. -/
def Obligations.CommitStartsValidation : Prop :=
  ∀ (p : Port) (seq : Byte) (s : State), s.serving p = true → (s.port p).authority = .supervisory →
    (s.store.commit = .openState →
      exec (.commit p seq []) s = .next { s.setPort p { s.answered p 0x23 seq (.ok, []) with
          reply := none
          command := some ⟨0x23, seq⟩ } with
        store := { s.store with commit := .validating } }) ∧
    (s.store.commit ≠ .openState →
      exec (.commit p seq []) s = .next (s.setPort p (s.answered p 0x23 seq (.wrongMode, []))))

/-- R9, R10 and R163: at the end of a validation the first of the five checks that fails returns the store to OPEN with
CONSTRAINT and names its record; a sound store is LOCKED with its geometry derived, the mode is SHADOW with the MODE
notice, and each block begins: units PROBING with their elements unreported, stations FREE, one delivery record for each
site, wanting what the plan shows and of epoch 0 (R142, R143), a demand summary of N + 1 records, a poll cycle numbered 0 on
each line with all its units due (R122), the evaluator pending on the plan in its reset form, of epoch 0, with nothing
available (R57). h is the highest used site slot, or 0. That the first form of a station shows every lane as without data,
which R83 does not say, is the model's choice (log entry 11). -/
def Obligations.ValidationEndLocksOrRefuses : Prop :=
  ∀ (p : Port) (seq : Byte) (h : Nat) (s : State), s.store.commit = .validating →
    (s.port p).command = some ⟨0x23, seq⟩ →
    (∀ q, q ≠ p → ∀ c, (s.port q).command = some c → c.code ≠ 0x23) →
    h < 32 → (s.store.site h ≠ none ∨ h = 0) → (∀ i, h < i → i < 32 → s.store.site i = none) →
    let n := h + 1
    let replied (r : PortRec) (a : Answer) : PortRec := { r with
      command := none
      reply := some ⟨0xA3, seq, a.1, a.2⟩ }
    (∀ check kind index, 1 ≤ check → check ≤ 5 → (∀ j, 1 ≤ j → j < check → CheckPasses s.store n j) →
      CheckReports s.store n check kind index →
      exec .commitValidationEnd s = .next { s.setPort p (replied (s.port p) (.constraint, [byte kind, byte index]))
        with store := { s.store with commit := .openState } }) ∧
    ((∀ j, 1 ≤ j → j ≤ 5 → CheckPasses s.store n j) →
      ∃ g t, exec .commitValidationEnd s = .next t ∧ DerivedGeometry s.store n g ∧
        t.store = { s.store with commit := .locked, geometry := some g } ∧ t.mode = .shadow ∧
        t.units.map (fun u => (u.owner, u.line, u.address)) = g.units.map (fun u => (u.owner, u.line, u.address)) ∧
        (∀ u ∈ t.units, u.state = .probing ∧ u.boot = none ∧ u.good = 0 ∧ u.miss = 0 ∧
          ∀ e ∈ u.elements, e.reported = none ∧ e.mark = .clear ∧ e.available = false) ∧
        (∀ u ∈ t.units, ∀ i, u.owner = .sign i → ∀ r ∈ s.store.site i, ∀ e,
          (∃ x ∈ u.elements, x.name = e) ↔ r.Displays e) ∧
        (∀ x ∈ t.stations, x = { firstForm x with rejected := 0, chatter := 0 }) ∧
        (∀ x ∈ t.stations, ∀ y ∈ s.store.station x.slot, x.lanes.length = y.lanes.length) ∧
        (∀ k, k ∈ t.stations.map (·.slot) ↔ k < 16 ∧ s.store.station k ≠ none) ∧
        t.delivery.sites.length = n ∧ t.delivery.target = .plan ∧ t.delivery.state = .suppressed ∧
        t.delivery.epoch = 0 ∧
        (∀ d ∈ t.delivery.sites, d.confirmed = [] ∧ d.commanded = none ∧ d.applied = none ∧ d.inFlight = false ∧
          d.tightening = none ∧ d.relaxing = none ∧ d.darkening = none) ∧
        (∀ i d, t.site i = some d → ∀ e v, d.wanted.lookup e = some v ↔ (planSite t.evaluator.plan i).Shows e v) ∧
        t.evaluator.available.length = n ∧ (∀ xs ∈ t.evaluator.available, xs = []) ∧
        t.evaluator.epoch = 0 ∧ t.evaluator.pending = true ∧ ResetPlan t.store t.evaluator.plan ∧
        t.table.entries = s.table.entries ∧ t.table.demand.length = n + 1 ∧
        (s.table.entries = [] → ∀ d ∈ t.table.demand, d = ⟨none, [], false, none, none⟩) ∧
        (∀ l, ∃ c, (t.line l).cycle = some c ∧ c.number = 0 ∧ c.start = s.now ∧ c.period = s.param (pollCycleId l) ∧
          c.due.Pairwise (· ≤ ·) ∧ ∀ a, a ∈ c.due ↔ ∃ u ∈ t.units, u.line = l ∧ u.address = a) ∧
        (∀ q, q ≠ p → t.port q = (s.port q).raise .mode) ∧
        ∃ used, used = ((List.range 16).filter fun k => (s.store.station k).isSome).length ∧
          t.port p = replied ((s.port p).raise .mode) (.ok, [byte n, byte used]))

/-- R12 to R16: a PARAM_SET of no pairs is INVALID; one with a pair that names no identity, or one that an earlier pair
named, is INVALID with the place of the first such pair; one that names each identity once and whose clamped values meet
every constraint with the other values as they stand is stored whole and marks the evaluator pending; where a constraint
fails, nothing changes and the first one broken names its identity. That of two pairs with one identity the later offends,
and that no pairs at all name no pair in the reply, are the model's choices (log entry 13). -/
def Obligations.ParamSetStoresClampedOrRefuses : Prop :=
  ∀ (p : Port) (seq : Byte) (pairs : List (ParamId × Nat)) (s : State), s.serving p = true →
    (s.port p).authority = .supervisory →
    exec (.paramSet p seq []) s = .next (s.setPort p (s.answered p 0x24 seq (.invalid, []))) ∧
    (∀ (sent : List (Byte × Byte × Byte)) (k : Nat),
      let offends (j : Nat) : Prop := ∃ x, sent[j]? = some x ∧
        (27 ≤ x.1.toNat ∨ ∃ i < j, ∃ y, sent[i]? = some y ∧ y.1 = x.1)
      offends k → (∀ j < k, ¬ offends j) →
      exec (.paramSet p seq (sent.flatMap fun x => [x.1, x.2.1, x.2.2])) s =
        .next (s.setPort p (s.answered p 0x24 seq (.invalid, [byte k])))) ∧
    (s.store.params.length = 27 → pairs ≠ [] → (pairs.map (·.1)).Nodup → (∀ x ∈ pairs, x.2 < 65536) →
      let payload := pairs.flatMap fun x => byte x.1.code :: be16 x.2
      let value (i : ParamId) : Nat :=
        match pairs.lookup i with
        | some v => clampParam i v
        | none => s.param i
      let broken (c : Constraint) : Bool := decide (value c.greater < value c.lesser + c.margin)
      let clamped := pairs.filter fun x => decide (clampParam x.1 x.2 ≠ x.2)
      ((∀ c ∈ constraints, broken c = false) →
        ∃ t, exec (.paramSet p seq payload) s = .next t ∧ (∀ i, t.param i = value i) ∧ t.store.params.length = 27 ∧
          t = { s with
            ports := t.ports
            store := { s.store with params := t.store.params }
            evaluator := { s.evaluator with pending := true } } ∧
          t.port p = s.answered p 0x24 seq (match clamped with
            | [] => (.ok, [])
            | x :: _ => (.clamped, [byte x.1.code, byte clamped.length])) ∧
          ∀ q, q ≠ p → t.port q = s.port q) ∧
      ∀ c, constraints.find? broken = some c →
        exec (.paramSet p seq payload) s =
          .next (s.setPort p (s.answered p 0x24 seq (.constraint, [byte c.reported.code]))))

/-! ## Modes -/

/-- R164, R165, R61, R143 and R155: SET_MODE LIVE adopts from SHADOW and DARKENING: the adopted plan, made of the confirmed images, the
availability and the demand as they stand, as epoch 0 with the evaluator pending and a running pass overtaken, delivery
DONE for it with no parts, wanting what the plan shows, every queued command of the section withdrawn but one whose transaction is in progress, nothing
else of the lines, the mode LIVE with the MODE notice. In LIVE it changes nothing and in UNCONFIGURED it is
WRONG_MODE. A target other than LIVE or SHADOW is INVALID in every mode. That taking epoch 0 sets abandoned in target to 0
is the model's choice (log entry 22). -/
def Obligations.SetModeLiveAdopts : Prop :=
  ∀ (p : Port) (seq : Byte) (s : State), s.serving p = true → (s.port p).authority = .supervisory →
    (∀ b : Byte, b ≠ 1 → b ≠ 2 →
      exec (.setModeLive p seq [b]) s = .next (s.setPort p (s.answered p 0x25 seq (.invalid, [byte s.mode.code])))) ∧
    (s.mode = .live →
      exec (.setModeLive p seq [2]) s = .next (s.setPort p (s.answered p 0x25 seq (.ok, [2])))) ∧
    (s.mode = .unconfigured →
      exec (.setModeLive p seq [2]) s = .next (s.setPort p (s.answered p 0x25 seq (.wrongMode, [0])))) ∧
    (s.mode = .shadow ∨ s.mode = .darkening →
      ∃ t, exec (.setModeLive p seq [2]) s = .next t ∧
        t = { s with
          mode := .live
          ports := t.ports
          delivery := t.delivery
          lines := t.lines
          evaluator := { s.evaluator with
            plan := t.evaluator.plan
            epoch := 0
            pending := true
            running := s.evaluator.running.map fun x => { x with overtaken := true } } } ∧
        (s.store.Committed → AdoptedPlan t t.evaluator.plan) ∧
        t.delivery.sites.map (·.confirmed) = s.delivery.sites.map (·.confirmed) ∧
        t.delivery.target = .plan ∧ t.delivery.epoch = 0 ∧ t.delivery.state = .done ∧ t.delivery.abandoned = 0 ∧
        t.delivery.completion = s.delivery.completion ∧ t.delivery.drifts = s.delivery.drifts ∧
        t.delivery.abandonments = s.delivery.abandonments ∧
        (∀ d ∈ t.delivery.sites, d.tightening = none ∧ d.relaxing = none ∧ d.darkening = none) ∧
        (∀ i d, t.site i = some d → ∀ e v, d.wanted.lookup e = some v ↔ (planSite t.evaluator.plan i).Shows e v) ∧
        (∀ l, t.line l = { s.line l with
          queue := (s.line l).queue.filter fun c =>
            c.inProgress || decide (s.delivery.sites.length ≤ c.site ∨ s.siteLine c.site ≠ l) }) ∧
        t.port p = { s.answered p 0x25 seq (.ok, [2]) with flags := ((s.port p).raise .mode).flags } ∧
        ∀ q, q ≠ p → t.port q = (s.port q).raise .mode)

/-- R164, R166, R158, R143, R147, R156 and R167: SET_MODE SHADOW in UNCONFIGURED is WRONG_MODE, and in SHADOW and DARKENING
changes nothing. In LIVE it is PLAN_NOT_QUIET, changing nothing, while some lane shows an arrow, or CLOSED where it is no
standing shoulder closure; otherwise the part darkens, with the MODE notice: every element of a site whose unit can take
commands is wanted dark, each in a darkening part while it is not, and every such part of a site not in flight is queued;
the part of any other site is abandoned and counted (R146), and its elements leave the wanted image; a section already dark
where it can be, with no transaction of a SET in flight, is SHADOW at once, with the DELIVERED notice. A queued part's command waits in
the queue of its site's line, with the image and the epoch byte of R148. Nothing of the lines but their SET queues changes,
and in these the commands in progress stay (R120). -/
def Obligations.SetModeShadowDarkensQuietPlan : Prop :=
  ∀ (p : Port) (seq : Byte) (s : State), s.serving p = true → (s.port p).authority = .supervisory →
    let standing (i l : Nat) : Prop := l = 0 ∧ (s.table.demandOf i).opening = false ∧ 0 ∉ (s.table.demandOf i).closed
    let loud (i : Nat) (x : Nat × LaneElem) : Prop := x.2.value = .shows .mergeNear ∨ x.2.value = .shows .mergeOff ∨
      x.2.value = .shows .closed ∧ ¬ standing i x.1
    let lit (i : Nat) (r : SiteRecord) (d : DeliverySite) : Prop :=
      s.Reaches i ∧ ∃ e, r.Holds e ∧ d.confirmed.lookup e ≠ some (darkOf e)
    (s.mode = .unconfigured →
      exec (.setModeShadow p seq [1]) s = .next (s.setPort p (s.answered p 0x25 seq (.wrongMode, [0])))) ∧
    (s.mode = .shadow ∨ s.mode = .darkening →
      exec (.setModeShadow p seq [1]) s =
        .next (s.setPort p (s.answered p 0x25 seq (.ok, [byte s.mode.code])))) ∧
    (s.mode = .live → (∃ i < s.store.siteCount, ∃ x ∈ (planSite s.evaluator.plan i).lanes, loud i x) →
      exec (.setModeShadow p seq [1]) s = .next (s.setPort p (s.answered p 0x25 seq (.planNotQuiet, [2])))) ∧
    (s.mode = .live → (∀ i < s.store.siteCount, ∀ x ∈ (planSite s.evaluator.plan i).lanes, ¬ loud i x) →
      ∃ t, exec (.setModeShadow p seq [1]) s = .next t ∧
        t = { s with mode := t.mode, ports := t.ports, delivery := t.delivery, lines := t.lines } ∧ QueuesOnly s t ∧
        (t.mode = .darkening ∧ t.delivery.target = .dark ∧ t.delivery.state = .delivering ∧ t.delivery.Busy ∧
            Released t ∧
            (∀ i d p, t.site i = some d → d.darkening = some p → p.queued = true →
              CommandWaits t i .darkening d p) ∧
            (∀ i r d, s.site i = some d → s.store.site i = some r → ∃ d', t.site i = some d' ∧
              (d'.inFlight = true ↔ d.inFlight = true ∧ s.NoneWaits i) ∧
              Darkened s r i { d with tightening := none, relaxing := none, darkening := none } d') ∧
            (∃ gone, DarkLost s gone ∧ t.delivery.abandoned = min gone.length 65535) ∨
          t.mode = .shadow ∧ t.delivery.target = .plan ∧ t.delivery.state = .suppressed ∧
            (∀ q, (s.port q).authority ≠ .disabled → (t.port q).flags &&& 0x02 = 0x02) ∧
            ∃ gone, DarkLost s gone ∧
              t.delivery.completion = some ⟨.dark, s.delivery.epoch, min gone.length 65535⟩) ∧
        (∀ gone, DarkLost s gone → s.delivery.abandonments ≤ 65535 →
          t.delivery.abandonments = min (s.delivery.abandonments + gone.length) 65535) ∧
        (t.mode = .darkening ↔ ∃ i d, s.site i = some d ∧
          (d.inFlight = true ∧ s.NoneWaits i ∨ ∃ r, s.store.site i = some r ∧ lit i r d)) ∧
        (t.port p).reply = some ⟨0xA5, seq, .ok, [byte t.mode.code]⟩ ∧
        ∀ q, (s.port q).authority ≠ .disabled → (t.port q).flags &&& 0x40 = 0x40)

/-- R168 with R19, R53, R55, R83, R111, R126, R159 and R184: RESTART empties the request table but keeps its counter,
its demand derived anew from no entries (R35), makes every enabled port ACTIVE, returns the stations to their first form but
for their counters, clears the mismatch marks, with the changes of availability this makes handed on (R136), and the
commanded images, makes the plan one of epoch 0 with the evaluator pending and a running pass overtaken (in LIVE the adopted
plan, in SHADOW and DARKENING its reset form; R61), takes the wanted images from it, or in DARKENING forms the darkening
parts anew (R158), and leaves RESET alone in the flags; the store,
the mode, the unit states, the confirmed images, the last completion, the drifts counter and all of the lines but their SET
queues stay. That the mode stays DARKENING where
every sign is dark already (log entry 21), that epoch 0 starts the abandoned count at 0 (log entry 22) and the standing of
a lane not sampled yet (log entry 11) are the model's choices. -/
def Obligations.RestartClearsRunTimeState : Prop :=
  ∀ (p : Port) (seq : Byte) (s : State), s.serving p = true → (s.port p).authority = .supervisory →
    (s.mode = .unconfigured →
      exec (.restart p seq []) s = .next (s.setPort p (s.answered p 0x26 seq (.wrongMode, [])))) ∧
    (s.mode ≠ .unconfigured →
      ∃ t, exec (.restart p seq []) s = .next t ∧
        t = { s with
          cause := .restart
          table := t.table
          ports := t.ports
          evaluator := t.evaluator
          stations := t.stations
          units := t.units
          delivery := t.delivery
          lines := t.lines } ∧
        t.table.entries = [] ∧ t.table.nextArrival = s.table.nextArrival ∧
        t.table.demand = t.store.spots.map (demandAt t.ports []) ∧
        t.stations = s.stations.map firstForm ∧
        t.units.map (fun u => (u.state, u.good, u.miss, u.boot, u.misses, u.restarts)) =
          s.units.map (fun u => (u.state, u.good, u.miss, u.boot, u.misses, u.restarts)) ∧
        (∀ i u, s.unit i = some u → ∃ v, t.unit i = some v ∧
          Rejudged { u with elements := u.elements.map fun e => { e with mark := .clear } } v ∧
          (s.SignsInPlace → AvailabilityHanded s t u v)) ∧
        (∀ d ∈ t.delivery.sites, d.commanded = none ∧ d.inFlight = false) ∧
        t.delivery.sites.map (·.confirmed) = s.delivery.sites.map (·.confirmed) ∧
        t.delivery.completion = s.delivery.completion ∧ t.delivery.drifts = s.delivery.drifts ∧
        (s.mode ≠ .darkening → t.delivery.abandonments = s.delivery.abandonments ∧ t.delivery.abandoned = 0 ∧
          t.delivery.target = .plan ∧ t.delivery.epoch = 0 ∧
          ∀ d ∈ t.delivery.sites, d.tightening = none ∧ d.relaxing = none ∧ d.darkening = none) ∧
        (s.mode = .live → t.delivery.state = .done) ∧ (s.mode = .shadow → t.delivery.state = .suppressed) ∧
        (s.mode ≠ .darkening → ∀ i d, t.site i = some d → ∀ e v,
          d.wanted.lookup e = some v ↔ (planSite t.evaluator.plan i).Shows e v) ∧
        (s.mode = .darkening → t.delivery.target = .dark ∧ t.delivery.epoch = s.delivery.epoch ∧
          t.delivery.state = .delivering ∧ Released t ∧
          (∀ i d p, t.site i = some d → d.darkening = some p → p.queued = true → CommandWaits t i .darkening d p) ∧
          (∀ i r d, s.site i = some d → s.store.site i = some r → ∃ d', t.site i = some d' ∧ Darkened s r i
            { d with
              commanded := none, inFlight := false, tightening := none, relaxing := none, darkening := none } d') ∧
          ∃ gone, DarkLost s gone ∧ t.delivery.abandoned = min gone.length 65535 ∧
            (s.delivery.abandonments ≤ 65535 →
              t.delivery.abandonments = min (s.delivery.abandonments + gone.length) 65535)) ∧
        t.evaluator.epoch = 0 ∧ t.evaluator.pending = true ∧ t.evaluator.holdSeen = s.evaluator.holdSeen ∧
        t.evaluator.running = (s.evaluator.running.map fun x => { x with overtaken := true }) ∧
        (s.store.Committed → (s.mode = .live → AdoptedPlan t t.evaluator.plan) ∧
          (s.mode ≠ .live → ResetPlan t.store t.evaluator.plan)) ∧
        (∀ l, t.line l = { s.line l with queue := (t.line l).queue }) ∧
        (s.mode ≠ .darkening → ∀ l, (t.line l).queue = []) ∧
        t.port p = { s.answered p 0x26 seq (.ok, [byte s.mode.code]) with flags := 0x80 } ∧
        ∀ q, q ≠ p → ((s.port q).authority = .disabled → t.port q = s.port q) ∧
          ((s.port q).authority ≠ .disabled → t.port q = { s.port q with
            liveness := .active
            deadline := some (s.now + s.param (keepWindowId q) * 1000)
            flags := 0x80 }))

/-! ## The plan evaluator -/

/-- R59, R60 and R62: the running out of a hold deadline marks the evaluator pending; an IDLE evaluator that is pending
outside UNCONFIGURED starts a pass on its inputs as they stand and is no longer pending; otherwise no pass starts.
That a deadline is noticed once is the model's choice (log entry 7), as is what an event whose condition does not hold
does (log entry 6). -/
def Obligations.HoldExpiryAndPassStart : Prop :=
  ∀ s : State,
    ((∃ x ∈ s.evaluator.plan, ∃ d ∈ x.deadlines, s.evaluator.holdSeen < d ∧ d ≤ s.now) →
      exec .holdDeadlineExpiry s =
        .next { s with evaluator := { s.evaluator with pending := true, holdSeen := s.now } }) ∧
    (s.evaluator.running = none → s.evaluator.pending = true → s.mode ≠ .unconfigured →
      exec .passStart s = .next { s with evaluator := { s.evaluator with
        pending := false
        running := some ⟨s.table.demand, s.evaluator.available, s.store.params, s.evaluator.plan, s.now, false⟩ } }) ∧
    (s.evaluator.running.isSome = true ∨ s.evaluator.pending = false ∨ s.mode = .unconfigured →
      exec .passStart s = .next s)

/-- R56, R60 and R61, with R64 to R81 and R143 to R147: over a whole section a pass ends with the plan that the rules of
lanes, limits, legends, marks and holds make of its inputs. One that differs from the current plan, in a value, an
availability, an underlying closure or a mark of some element, is published under the next epoch number, 1 after 65535, with the PLAN notice at every port, and delivery follows it while its target is the plan:
in LIVE every site is re-formed by the new plan, the parts that may go are released, and delivery is DONE where nothing is
left to deliver, a part released then having its command in the queue of its line with the image and epoch byte of R148; in
SHADOW the wanted images alone move. Of the lines the SET queues alone change, and only while the target is the plan, in
LIVE; the commands in progress stay in them (R120). A pass whose plan does not differ leaves values, deadlines, marks
and epoch, and its held reports replace those of the plan; an overtaken one only ends. The model's choices: the abandoned count starts at 0 with an epoch taken in SHADOW too
(log entry 22), and a lane to which a duty gave another aspect is not reported held (log entry 10). -/
def Obligations.PassEndPublishesDifferingPlan : Prop :=
  ∀ (x : Pass) (s : State), s.evaluator.running = some x →
    let plan := runPass s.store x
    (s.store.Whole → PassRules s.store x plan) ∧
    (x.overtaken = true →
      exec .passEnd s = .next { s with evaluator := { s.evaluator with running := none } }) ∧
    (x.overtaken = false → PlansDiffer s.evaluator.plan plan →
      ∃ t, exec .passEnd s = .next t ∧
        t.evaluator = { s.evaluator with
          running := none
          plan := plan
          epoch := if s.evaluator.epoch < 65535 then s.evaluator.epoch + 1 else 1 } ∧
        (s.delivery.target = .plan → t.delivery.epoch = t.evaluator.epoch) ∧
        (s.delivery.target = .dark → t.delivery = s.delivery ∧ t.lines = s.lines) ∧ QueuesOnly s t ∧
        (s.delivery.target = .plan → s.mode = .live → s.store.Whole → Released t ∧
          (t.delivery.state = .delivering ∧ t.delivery.Busy ∨ t.delivery.state = .done ∧ ¬ t.delivery.Busy ∧
            t.delivery.completion = some ⟨.plan, t.delivery.epoch, t.delivery.abandoned⟩ ∧
            ∀ q, (s.port q).authority ≠ .disabled → (t.port q).flags &&& 0x02 = 0x02) ∧
          ((∀ i < s.delivery.sites.length, s.Reaches i) → t.delivery.abandoned = 0) ∧
          ∀ i < s.store.siteCount, ∀ r ∈ s.store.site i, ∀ d, s.site i = some d →
            ∃ d', t.site i = some d' ∧ EpochTaken s i r (planSite plan i) d d' ∧
              (d.darkening = none → ∀ k p, d'.part k = some p → p.queued = true →
                (∀ q, d.part k = some q → q.queued = false) → CommandWaits t i k d' p)) ∧
        (s.delivery.target = .plan → s.mode ≠ .live → t.lines = s.lines ∧
          t.delivery = { s.delivery with
            sites := t.delivery.sites, epoch := t.evaluator.epoch, abandoned := 0 } ∧
          ∀ i d, s.site i = some d → ∃ d', t.site i = some d' ∧ d' = { d with wanted := d'.wanted } ∧
            (s.store.Whole → ∀ e v, d'.wanted.lookup e = some v ↔ (planSite plan i).Shows e v)) ∧
        t = { s with evaluator := t.evaluator, ports := t.ports, delivery := t.delivery, lines := t.lines } ∧
        ∀ q, t.port q = { s.port q with flags := (t.port q).flags } ∧
          ((s.port q).authority = .disabled → t.port q = s.port q) ∧
          ((s.port q).authority ≠ .disabled → (t.port q).flags &&& 0x01 = 0x01)) ∧
    (x.overtaken = false → ¬ PlansDiffer s.evaluator.plan plan →
      ∃ t, exec .passEnd s = .next t ∧
        t = { s with evaluator := { s.evaluator with running := none, plan := t.evaluator.plan } } ∧
        ¬ PlansDiffer t.evaluator.plan s.evaluator.plan ∧
        t.evaluator.plan.map PlanSite.deadlines = s.evaluator.plan.map PlanSite.deadlines ∧
        ∀ i < s.evaluator.plan.length,
          ReportsTaken (planSite s.evaluator.plan i) (planSite plan i) (planSite t.evaluator.plan i))

/-! ## The demand summary -/

/-- R36 and R39 at a site of the section and at EXIT: LD is the lowest limit part among the entries that cover it, none
without one, and none at a MESSAGE site. At a site with a message sign the legend demand is the covering legend of highest
rank, supplied by the entry of higher authority (SUPERVISORY 3, FIELD 2, QP 1) and among those by the older one; without
such an entry, without a message sign and at EXIT there is none. -/
def Obligations.LimitDemandIsLowest : Prop :=
  ∀ (ports : PerPort PortRec) (entries : List Entry) (r : SiteRecord) (b : Boundary) (i : Nat),
    let covering (k : Nat) : List Nat :=
      (entries.filter fun e => decide (e.ask.first ≤ k ∧ k ≤ e.ask.last)).filterMap fun e => e.ask.limit
    let asks (e : Entry) (g : Legend) : Prop := e.ask.first ≤ i ∧ i ≤ e.ask.last ∧ e.ask.legend = some g
    let tie (e : Entry) : Nat := match e.requester with
      | .port p => (ports.get p).authority.rank
      | .qp => 1
    let d := demandAt ports entries (r.spot i)
    (r.kind = .message → d.limit = none) ∧ (r.kind ≠ .message → d.limit = (covering i).min?) ∧
    (demandAt ports entries b.spot).limit = (covering 32).min? ∧
    (∀ older e newer g, r.sign = true → entries = older ++ e :: newer → asks e g →
      (∀ x ∈ older, ∀ h, asks x h → h.rank < g.rank ∨ h.rank = g.rank ∧ tie x < tie e) →
      (∀ x ∈ newer, ∀ h, asks x h → h.rank < g.rank ∨ h.rank = g.rank ∧ tie x ≤ tie e) →
      d.legend = some g ∧ d.source = some (e.requester, e.tag)) ∧
    (r.sign = false ∨ (∀ e ∈ entries, ∀ g, ¬ asks e g) → d.legend = none ∧ d.source = none) ∧
    (demandAt ports entries b.spot).legend = none ∧ (demandAt ports entries b.spot).source = none

/-- R37 and R38 at a site of the section and at EXIT: CD is the union of the closure parts of the covering entries, each
lane once, kept to the lanes present: those from 1 to the running lane count and 0 with a shoulder at a GANTRY and at EXIT,
none at a VERGE or MESSAGE site; SO is present where a covering entry opens the shoulder of a GANTRY that has one, and never at
EXIT. -/
def Obligations.ClosureAndOpeningDemandAreUnions : Prop :=
  ∀ (ports : PerPort PortRec) (entries : List Entry) (r : SiteRecord) (b : Boundary) (i l : Nat),
    let covers (e : Entry) (k : Nat) : Prop := e ∈ entries ∧ e.ask.first ≤ k ∧ k ≤ e.ask.last
    let closes (e : Entry) : Prop := ∃ lanes, e.ask.closure = some lanes ∧ l ∈ lanes
    let lane (running : Nat) (shoulder : Bool) : Prop := 1 ≤ l ∧ l ≤ running ∨ l = 0 ∧ shoulder = true
    (∀ n shoulder, r.kind = .gantry n shoulder →
      (l ∈ (demandAt ports entries (r.spot i)).closed ↔ lane n shoulder ∧ ∃ e, covers e i ∧ closes e)) ∧
    (r.kind = .verge ∨ r.kind = .message → (demandAt ports entries (r.spot i)).closed = []) ∧
    (demandAt ports entries (r.spot i)).closed.Nodup ∧
    (l ∈ (demandAt ports entries b.spot).closed ↔ lane b.running b.shoulder ∧ ∃ e, covers e 32 ∧ closes e) ∧
    (demandAt ports entries b.spot).closed.Nodup ∧
    ((demandAt ports entries (r.spot i)).opening = true ↔
      (∃ n, r.kind = .gantry n true) ∧ ∃ e, covers e i ∧ e.ask.shoulderOpen = true) ∧
    (demandAt ports entries b.spot).opening = false

/-! ## Queue protection -/

/-- R99, R106 and R101, with R86 to R98 and R100: the running out of the fault hold of a BLIND station takes the entry of
a remembered queue away, unless the station is inhibited, with the QUEUE notice, and leaves the station BLIND; it is taken
once; the running out of an inhibit ends it and hands the image the station's state warrants, over its coverage with the
limit of its state (R102, R103); a demand derived from the entries before follows them after (R35, R104). The station
machine that these timers bound acts on each sample: a lane's, the station's,
and its change of state. The model's choices: that the running out is taken once, by the model's own field faultOver (log
entries 3 and 6), an excluded lane has no smoothed speed (log entry 12), what a reply without data for a lane leaves of it
(log entry 24), and counts of 0 in BLIND (log entry 25). -/
def Obligations.StationTimersHandImages : Prop :=
  LaneRule ∧ SampleRule ∧ MachineRules ∧
  ∀ (k d : Nat) (x : Station) (s : State), s.station k = some x → d ≤ s.now →
    (x.state = .blind → (x.remembered = some .queue ∨ x.remembered = some .stopped) → x.inhibit = none →
      x.faultHold = some d → x.faultOver = false →
      ∃ t, exec (.faultHoldExpiry k) s = .next t ∧
        t.station k = some { x with faultOver := true, handed := none } ∧
        (∀ j, j ≠ k → t.station j = s.station j) ∧
        t.table.entries = (s.table.entries.filter fun e => decide (e.slot ≠ 48 + k)) ∧
        (DemandDerived s → DemandFollows s t) ∧
        t = { s with
          table := t.table
          ports := t.ports
          stations := t.stations
          evaluator := { s.evaluator with pending := t.evaluator.pending } } ∧
        ∀ q, t.port q = (s.port q).raise .queue) ∧
    (x.state = .blind → (x.inhibit ≠ none ∨ x.remembered = none ∨ x.remembered = some .free) → x.faultHold = some d →
      x.faultOver = false →
      exec (.faultHoldExpiry k) s = .next (s.setStation { x with faultOver := true })) ∧
    (x.faultOver = true → exec (.faultHoldExpiry k) s = .next s) ∧
    (x.inhibit = some d →
      ∃ t, exec (.inhibitExpiry k) s = .next t ∧
        Handed s t { x with inhibit := none } ∧ (DemandDerived s → DemandFollows s t) ∧
        (∀ j, j ≠ k → t.station j = s.station j) ∧
        t = { s with
          table := t.table
          stations := t.stations
          evaluator := { s.evaluator with pending := t.evaluator.pending } })

/-! ## Field lines -/

/-- R108, R117 and R119: a transition ends the line's quiet, starts a stopped jam timer on a NORMAL line and restarts the
unjam timer on a JAMMED one, and is no activity while the part drives the line; IDLE_GUARD without one makes the line
quiet, stops the jam timer, and ends a frame being received as a frame error in a window and as false activity outside
one. That the idle part takes LINE_QUIET one reading of the time base after the last activity is the model's choice (log
entry 8), as is what an event whose condition does not hold does (log entry 6). -/
def Obligations.ActivityAndQuiet : Prop :=
  ∀ (l : LineId) (cut : List Byte) (s : State), s.phase ≠ .held →
    let r := s.line l
    exec (.lineActivity l) s = .next (s.setLine l (r.heard s.now)) ∧
    (r.driving = true → exec (.lineActivity l) s = .next s) ∧
    (r.driving = false → r.state = .normal → exec (.lineActivity l) s =
      .next (s.setLine l { r with
        quiet := false, lastActive := s.now, jamTimer := some (r.jamTimer.getD s.now) })) ∧
    (r.driving = false → r.state = .jammed → exec (.lineActivity l) s =
      .next (s.setLine l { r with quiet := false, lastActive := s.now, unjamTimer := some s.now })) ∧
    (r.quiet = false → r.lastActive < s.now → Instr.lineQuiet l [] ∈ s.dueEvents) ∧
    (r.quiet = true → exec (.lineQuiet l cut) s = .next s) ∧
    (r.quiet = false →
      ∃ t, exec (.lineQuiet l cut) s = .next t ∧ OnlyLine l s t ∧
        t.line l = { r with
          quiet := true
          jamTimer := none
          skipping := false
          burstCounted := false
          counters := (t.line l).counters } ∧
        (cut = [] → (t.line l).counters = r.counters) ∧
        (r.openWindow.isSome = true → r.skipping = false → s.verdict l cut = some .incomplete →
          (t.line l).counters =
            { r.counters with frameErrors := min (r.counters.frameErrors + 1) 65535 }) ∧
        (r.openWindow = none → cut ≠ [] → r.state = .normal → r.driving = false → r.skipping = false →
          r.burstCounted = false → (t.line l).counters =
            { r.counters with falseActivity := min (r.counters.falseActivity + 1) 65535 }))

/-- R109, R112, R113, R121 and R123: on a NORMAL quiet line the part starts the frame of the lowest address still due when
no retry is owed and no SET command is to be sent, with the driver on and the address struck, for the unit at that address,
the first where several slots give one line and address; with no work, with a frame
going out, with a window open, and on a line that is not quiet or is JAMMED, nothing starts; and at the end of a frame the
driver is released and the reply window opens for the REPLY_WINDOW of the frame's start.
That an event whose condition does not hold changes nothing is the model's choice (log entry 6). -/
def Obligations.PollFrameStartsAndIsSent : Prop :=
  ∀ (l : LineId) (s : State), s.phase ≠ .held →
    let r := s.line l
    (∀ c a rest, r.state = .normal → r.quiet = true → r.driving = false → r.transaction = none →
      arbiterSet s.mode r.queue = none → r.cycle = some c → c.due = a :: rest →
      ∃ t, exec (.frameStart l) s = .next t ∧ OnlyLine l s t ∧
        t.line l = { r with
          driving := true
          sense := (t.line l).sense
          flipNext := false
          sent := (t.line l).sent
          transaction := (t.line l).transaction
          cycle := (t.line l).cycle } ∧
        (t.line l).sense = (if r.flipNext then r.sense.flipped else r.sense) ∧
        ((t.line l).sense = .normal → (t.line l).sent = [0x7E, byte a, 0x10, 0] ++ crcBytes [0]) ∧
        ((t.line l).sense = .inverted →
          (t.line l).sent = ([0x7E, byte a, 0x10, 0] ++ crcBytes [0]).map fun y => ~~~y) ∧
        (∃ n, (t.line l).transaction =
            some ⟨n, none, [0x7E, byte a, 0x10, 0] ++ crcBytes [0], false, s.param .replyWindow, .sending⟩ ∧
          ∀ i u, s.unit i = some u → u.line = l → u.address = a →
            (∀ j < i, ∀ v, s.unit j = some v → ¬ (v.line = l ∧ v.address = a)) → n = i) ∧
        ∃ d, (t.line l).cycle = some d ∧ d = { c with due := d.due, emptied := d.emptied } ∧
          d.due = (a :: rest).filter fun b => decide (b ≠ a)) ∧
    (r.state = .jammed ∨ r.quiet = false ∨ r.driving = true →
      exec (.frameStart l) s = .next s) ∧
    (r.transaction = none → arbiterSet s.mode r.queue = none → (∀ c, r.cycle = some c → c.due = []) →
      exec (.frameStart l) s = .next s) ∧
    (∀ x, r.transaction = some x → x.stage ≠ .retryOwed → exec (.frameStart l) s = .next s) ∧
    (∀ x, r.driving = true → r.transaction = some x →
      exec (.frameSent l) s = .next (s.setLine l { r with
        driving := false
        transaction := some { x with stage := .window (s.now + x.window) } })) ∧
    (r.driving = false → exec (.frameSent l) s = .next s)

/-- R121, R123, R114, R109, R149 and R157: an owed retry goes before everything, with the bytes of its frame; then, in LIVE
and DARKENING, the tightening SET command of lowest site index; then the relaxing or darkening one of highest. A SET frame
carries its unit's address and nine payload bytes: the epoch byte, the limit code, the six lane codes and the legend code of
its image, 0 or BLANK for what the image does not hold, each complemented in the INVERTED sense. When a SET starts, its site is in flight with the commanded image, its part SENT, its unit struck from the cycle, and its command's
transaction in progress. Outside those modes no SET frame is sent. That the unit of a sign is the slot of its site is
log entry 29; that an owed SET retry rests in UNCONFIGURED and SHADOW (log entry 18) and that a pending part of the
command's kind becomes SENT whatever re-formed it (log entry 43) are the model's choices. -/
def Obligations.SetFrameStarts : Prop :=
  ∀ (l : LineId) (s : State), s.phase ≠ .held → (s.line l).state = .normal →
    (s.line l).quiet = true → (s.line l).driving = false →
    let r := s.line l
    let waits (x : SetCommand) : Prop := x ∈ r.queue ∧ x.inProgress = false
    let first (c : SetCommand) : Prop := waits c ∧
      (c.part = .tightening ∧ (∀ x, waits x → x ≠ c → x.part = .tightening → c.site < x.site) ∨
        c.part ≠ .tightening ∧ ∀ x, waits x → x ≠ c → x.part ≠ .tightening ∧ x.site < c.site)
    (∀ c, r.transaction = none → s.mode = .live ∨ s.mode = .darkening → first c →
      c.site < s.delivery.sites.length → s.siteLine c.site = l →
      ∃ t, exec (.frameStart l) s = .next t ∧ LineSide l s t ∧
        t.line l = { r with
          driving := true
          sense := (t.line l).sense
          flipNext := false
          sent := (t.line l).sent
          transaction := (t.line l).transaction
          cycle := (t.line l).cycle
          queue := (t.line l).queue } ∧
        { c with inProgress := true } ∈ (t.line l).queue ∧ (r.cycle = none → (t.line l).cycle = none) ∧
        (∃ x, (t.line l).transaction = some x ∧ x.command = some { c with inProgress := true } ∧
          x.unit = c.site ∧ x.retry = false ∧ x.stage = .sending ∧ x.window = s.param .replyWindow ∧
          (∃ b, SetCoded c.image c.epoch b ∧
            x.frame = [0x7E, byte (s.addressOf c.site), 0x11, 9] ++ b ++ crcBytes (9 :: b)) ∧
          (t.line l).sent = if (t.line l).sense = .normal then x.frame else x.frame.map fun y => ~~~y) ∧
        (t.line l).sense = (if r.flipNext then r.sense.flipped else r.sense) ∧
        (∀ y, r.cycle = some y → ∃ z, (t.line l).cycle = some z ∧ z.start = y.start ∧ z.period = y.period ∧
          z.number = y.number ∧ z.due = y.due.filter fun a => decide (a ≠ s.addressOf c.site)) ∧
        ∀ d, s.site c.site = some d → ∃ d', t.site c.site = some d' ∧ d'.inFlight = true ∧
          d'.commanded = some ⟨c.image, c.epoch⟩ ∧ d'.wanted = d.wanted ∧ d'.confirmed = d.confirmed ∧
          (∀ p, d.part c.part = some p → Unresolved (some p) →
            d'.part c.part = some { p with state := .sent, queued := false }) ∧
          ∀ k, k ≠ c.part → d'.part k = d.part k) ∧
    (∀ y, r.transaction = some y → y.stage = .retryOwed →
      (y.command = none ∨ s.mode = .live ∨ s.mode = .darkening →
        exec (.frameStart l) s = .next (s.setLine l { r with
          driving := true
          sense := if r.flipNext then r.sense.flipped else r.sense
          flipNext := false
          sent := if (if r.flipNext then r.sense.flipped else r.sense) = .normal then y.frame
            else y.frame.map fun z => ~~~z
          transaction := some { y with retry := true, window := s.param .replyWindow, stage := .sending } })) ∧
      (y.command ≠ none → s.mode = .unconfigured ∨ s.mode = .shadow → exec (.frameStart l) s = .next s)) ∧
    (s.mode = .unconfigured ∨ s.mode = .shadow → r.transaction = none →
      ∀ t, exec (.frameStart l) s = .next t → ∀ x, (t.line l).transaction = some x → x.command = none)

/-- R113, R114, R116, R127 to R130, R132 and R139: a valid reply ends its transaction with the streak at 0 and no command
of its line in progress (R120); its unit takes the boot number, counting a restart where it changed, and the state a good
reply gives; a changed state sets the UNIT notice; no other unit's state or count changes. A STATE, whether it ends a poll or
a SET, brings its site's sign what R133 to R136, R139 and R144 to R156 say of element faults, availability, confirmation,
mismatch and drift; a DATA brings its station what R84 to R104 say of baselines and samples, a sample the image that its
station then warrants, over its coverage with the limit of its state (R102, R103). The model's choices: a restarted readback
clears the commanded image in every mode (log entry 23), which elements a second mismatch takes from the wanted image (log
entry 19), and those of the sample machine and of the unused replies (log entries 12, 24 and 45). -/
def Obligations.ValidReplyTakenByUnit : Prop :=
  ∀ (l : LineId) (frame : List Byte) (x : Transaction) (u : UnitRec) (r : FieldReply) (s : State),
    (s.line l).openWindow = some x → (s.line l).skipping = false → s.unit x.unit = some u →
    judgeReply u.owner u.address frame = .valid r →
    ∃ t, exec (.validReply l frame) s = .next t ∧ LineSide l s t ∧
      (∃ q : List SetCommand, (∀ c ∈ q, c.inProgress = false) ∧
        t.line l = { (s.line l).heard s.now with transaction := none, streak := 0, queue := q }) ∧
      (∃ v, t.unit x.unit = some v ∧ v.boot = some r.boot ∧ v.misses = u.misses ∧
        v.restarts = (if u.boot = none ∨ u.boot = some r.boot then u.restarts else min (u.restarts + 1) 65535) ∧
        (u.state = .probing → u.good < 3 → v.state = .probing ∧ v.good = u.good + 1) ∧
        (u.state = .probing → 3 ≤ u.good → v.state = .up ∧ v.good = 0) ∧
        (u.state = .up → v.state = .up ∧ v.miss = u.miss) ∧
        (u.state = .suspect → v.state = .up ∧ v.miss = 0) ∧
        (u.state = .lost → v.state = .probing ∧ v.good = 1) ∧
        (v.state ≠ u.state → ∀ p, (s.port p).authority ≠ .disabled → (t.port p).flags &&& 0x04 = 0x04)) ∧
      (∀ a y d, r = .state a → u.owner = .sign x.unit → s.store.site x.unit = some y → s.site x.unit = some d →
        SignReply s t x u a x.unit y d) ∧
      (∀ a k y z, r = .data a → u.owner = .outstation k → s.store.station k = some y → s.station k = some z →
        StationReply s t u a k y z) ∧
      ∀ j, j ≠ x.unit → (t.unit j).map (fun v => (v.state, v.good, v.miss, v.boot, v.misses, v.restarts)) =
        (s.unit j).map (fun v => (v.state, v.good, v.miss, v.boot, v.misses, v.restarts))

/-- R110, R113, R115, R116, R172 and R124: what a reply is, its bytes say: SYNC, the unit's address, the KIND and LEN of its
kind of unit, codes within their tables and a good check over LEN and payload make it valid; otherwise it is incomplete, of
a bad check, malformed, wrongly addressed, inverted or no reply. In an open window a reply with a bad check or malformed
counts a frame error, an inverted one raises the streak and at 3 flips the line at the next frame started, a wrongly addressed one counts false
activity, as a burst outside any window on a NORMAL line does once; their characters are activity of the line (R108), and
nothing else changes. That a second flip before the next frame turns the first back is the model's choice (log entry 41).
That an event whose condition does not hold changes nothing is the model's choice (log entry 6). -/
def Obligations.RepliesThatAreNoneOnlyCount : Prop :=
  ∀ (l : LineId) (frame : List Byte) (s : State),
    let r := s.line l
    let heard := r.heard s.now
    let falseActivity : LineRec := { heard with
      burstCounted := true
      counters := { r.counters with falseActivity := min (r.counters.falseActivity + 1) 65535 } }
    (∀ owner address, VerdictRules owner address) ∧
    (∀ v, s.verdict l frame = some v ↔ ∃ x u, r.openWindow = some x ∧ r.skipping = false ∧ s.unit x.unit = some u ∧
      v = judgeReply u.owner u.address frame) ∧
    (∀ x, r.openWindow = some x ↔ r.transaction = some x ∧ ∃ d, x.stage = .window d) ∧
    (s.verdict l frame = some .badCheck ∨ s.verdict l frame = some .malformed →
      exec (.replyFrameError l frame) s = .next (s.setLine l { heard with
        counters := { r.counters with frameErrors := min (r.counters.frameErrors + 1) 65535 } })) ∧
    (r.openWindow.isSome = true → r.skipping = false → r.streak < 2 →
      exec (.invertedReply l) s = .next (s.setLine l { heard with skipping := true, streak := r.streak + 1 })) ∧
    (r.openWindow.isSome = true → r.skipping = false → 2 ≤ r.streak →
      exec (.invertedReply l) s = .next (s.setLine l { heard with
        skipping := true
        streak := 0
        flipNext := !r.flipNext
        counters := { r.counters with flips := min (r.counters.flips + 1) 65535 } })) ∧
    (s.verdict l frame = some .wrongAddress →
      exec (.falseActivity l frame) s = .next (s.setLine l falseActivity)) ∧
    (s.phase ≠ .held → r.openWindow = none → r.state = .normal → r.driving = false → r.skipping = false →
      exec (.falseActivity l frame) s = .next (s.setLine l (if r.burstCounted then heard else falseActivity))) ∧
    (s.phase ≠ .held → r.openWindow = none → r.state = .jammed →
      exec (.falseActivity l frame) s = .next (s.setLine l heard))

/-- R114, R127 to R130 and R140: a window that ends without a valid reply owes a first attempt a retry and changes no more
than the line; it ends a retry's transaction with a miss for its unit, which counts it and takes the state a miss gives,
with the UNIT notice where that changed, its elements judged afresh and a change of their availability handed on (R136, R57).
A SET that misses leaves its part WAITING at a site whose unit is not lost by it
(R151); a sign that becomes LOST leaves its site no pending part, each counted (R152), and an outstation its station BLIND (R98), with
counts of 0 (log entry 25). No command of the line is in progress afterwards (R120).
That an event whose condition does not hold changes nothing is the model's choice (log entry 6). -/
def Obligations.WindowEndOwesRetryOrMisses : Prop :=
  ∀ (l : LineId) (d : Nat) (x : Transaction) (s : State), (s.line l).transaction = some x → x.stage = .window d →
    (s.now < d → exec (.replyWindowEnd l) s = .next s) ∧
    (d ≤ s.now → x.retry = false →
      exec (.replyWindowEnd l) s = .next (s.setLine l { s.line l with
        transaction := some { x with stage := .retryOwed }
        counters := { (s.line l).counters with retries := min ((s.line l).counters.retries + 1) 65535 } })) ∧
    (d ≤ s.now → x.retry = true → ∀ u, s.unit x.unit = some u → u.state ≠ .absent →
      ∃ t, exec (.replyWindowEnd l) s = .next t ∧ LineSide l s t ∧ CompletionJudged s t ∧
        (∀ y, u.owner = .sign x.unit → s.site x.unit = some y →
          (u.state = .up ∨ u.state = .suspect ∧ u.miss < 2 → SetMissed s t x x.unit y) ∧
          (u.state = .probing ∨ u.state = .suspect ∧ 2 ≤ u.miss → SignLost s t x.command x.unit y)) ∧
        (∀ k y, u.owner = .outstation k → s.station k = some y →
          u.state = .probing ∨ u.state = .suspect ∧ 2 ≤ u.miss → StationLost s t k y) ∧
        (∃ q : List SetCommand, (∀ c ∈ q, c.inProgress = false) ∧
          t.line l = { s.line l with transaction := none, queue := q }) ∧
        (x.command = none → CountedLost s t fun i =>
          u.owner = .sign i ∧ (u.state = .probing ∨ u.state = .suspect ∧ 2 ≤ u.miss)) ∧
        ∃ v, t.unit x.unit = some v ∧ v.misses = min (u.misses + 1) 65535 ∧ v.boot = u.boot ∧
          v.restarts = u.restarts ∧ Rejudged u v ∧ AvailabilityHanded s t u v ∧
          (u.state = .up → v.state = .suspect ∧ v.miss = 1) ∧
          (u.state = .suspect → u.miss < 2 → v.state = .suspect ∧ v.miss = u.miss + 1) ∧
          (u.state = .suspect → 2 ≤ u.miss → v.state = .lost ∧ v.miss = 0) ∧
          (u.state = .probing → v.state = .lost ∧ v.good = 0) ∧
          (u.state = .lost → v.state = .lost) ∧
          (v.state ≠ u.state → ∀ p, (s.port p).authority ≠ .disabled → (t.port p).flags &&& 0x04 = 0x04))

/-- R117, R118 and R131: 50 ms of activity jam a NORMAL line with no frame out and no window open: its transaction ends,
leaving no command in progress, one jam is counted, its UP units become SUSPECT and its PROBING units lose their good count;
after three poll cycles of jam, once, every unit of the line is LOST; no misses count and the other line's units stay. The
elements of the line's units are judged afresh, the changes of availability handed to the evaluator (R136, R57), and a change
of a unit's state sets the UNIT notice (R139); of a unit newly LOST a sign leaves its site no pending part, each abandoned and
counted (R152), and an outstation its station BLIND (R98); delivery's completion is judged (R156). A SET
cancelled by the jam keeps its place in the queue (R117): where the release conditions of the commands that wait hold
(R147), nothing leaves it.
That an event whose condition does not hold changes nothing is the model's choice (log entry 6). -/
def Obligations.JamMakesUnitsSuspectThenLost : Prop :=
  ∀ (l : LineId) (s : State),
    (∀ d, (s.line l).state = .normal → (s.line l).driving = false → (s.line l).openWindow = none →
      (s.line l).jamTimer = some d →
      (s.now < d + 50 → exec (.lineJam l) s = .next s) ∧
      (d + 50 ≤ s.now → ∃ t, exec (.lineJam l) s = .next t ∧ LineSide l s t ∧
        t.line l = { s.line l with
          state := .jammed
          transaction := none
          jamTimer := none
          unjamTimer := (t.line l).unjamTimer
          jam := some ⟨s.now, s.param (pollCycleId l), false⟩
          queue := (t.line l).queue
          counters := { (s.line l).counters with jams := min ((s.line l).counters.jams + 1) 65535 } } ∧
        (∀ c ∈ (t.line l).queue, c.inProgress = false) ∧
        ((∀ m, ∀ c ∈ (s.line m).queue, s.MayRelease c.site c.part) → Released s →
          (s.delivery.state = .delivering → s.delivery.Busy) →
          (t.line l).queue = (s.line l).queue.map fun c => { c with inProgress := false }) ∧
        (UnitStatesChanged s t → ∀ p, (s.port p).authority ≠ .disabled → (t.port p).flags &&& 0x04 = 0x04) ∧
        t.stations = s.stations ∧
        ∀ i u, s.unit i = some u → ∃ v, t.unit i = some v ∧ v.misses = u.misses ∧ v.boot = u.boot ∧
          (u.line ≠ l → v = u) ∧
          (u.line = l → Rejudged u v ∧ (s.SignsInPlace → AvailabilityHanded s t u v)) ∧
          (u.line = l → (u.state = .up → v.state = .suspect ∧ v.miss = 0) ∧
            (u.state = .probing → v.state = .probing ∧ v.good = 0) ∧
            (u.state = .suspect ∨ u.state = .lost → v.state = u.state ∧ v.miss = u.miss)))) ∧
    ∀ j, (s.line l).state = .jammed → (s.line l).jam = some j →
      (j.reported = true ∨ s.now < j.time + 3 * j.period → exec (.jamContinues l) s = .next s) ∧
      (j.reported = false → j.time + 3 * j.period ≤ s.now →
        ∃ t, exec (.jamContinues l) s = .next t ∧ LineSide l s t ∧
          t.line l = { s.line l with jam := some { j with reported := true }, queue := (t.line l).queue } ∧
          (UnitStatesChanged s t → ∀ p, (s.port p).authority ≠ .disabled → (t.port p).flags &&& 0x04 = 0x04) ∧
          CompletionJudged s t ∧
          (CountedLost s t fun k => ∃ i u, s.unit i = some u ∧ u.owner = .sign k ∧ u.line = l ∧ u.state ≠ .absent ∧
            u.state ≠ .lost) ∧
          (∀ k, (∀ i u, s.unit i = some u → u.owner = .sign k → u.line ≠ l) →
            t.evaluator.available[k]? = s.evaluator.available[k]?) ∧
          ∀ i u, s.unit i = some u → u.state ≠ .absent → ∃ v, t.unit i = some v ∧ v.misses = u.misses ∧
            (u.line ≠ l → v = u) ∧
            (u.line = l → v.state = .lost ∧ Rejudged u v ∧ (s.SignsInPlace → AvailabilityHanded s t u v) ∧
              (u.state ≠ .lost → v.good = 0 ∧ v.miss = 0 ∧
                (∀ k y, u.owner = .sign k → s.site k = some y → SignLost s t none k y) ∧
                ∀ k y, u.owner = .outstation k → s.station k = some y → StationLost s t k y)))

/-- R119 and R122: after 500 ms without activity a JAMMED line is NORMAL again with a poll cycle numbered 0 of all its units;
a poll cycle whose POLL_CYCLE has passed and whose list is empty gives way to the next, numbered one higher modulo 4, which
lists the line's units in ascending address, LOST units in cycles numbered 0 alone; a stretched cycle is counted. That the
next cycle starts when it may, on a JAMMED line too, and that a cycle was stretched by the time its list became empty, are
the model's choices (log entries 35 and 34).
That an event whose condition does not hold changes nothing is the model's choice (log entry 6). -/
def Obligations.UnjamAndNextPollCycle : Prop :=
  ∀ (l : LineId) (s : State),
    (∀ d, (s.line l).state = .jammed → (s.line l).unjamTimer = some d →
      (s.now < d + 500 → exec (.lineUnjam l) s = .next s) ∧
      (d + 500 ≤ s.now → ∃ t, exec (.lineUnjam l) s = .next t ∧ OnlyLine l s t ∧ (t.line l).state = .normal ∧
        (t.line l).jam = none ∧ (t.line l).unjamTimer = none ∧ (t.line l).jamTimer = none ∧
        (t.line l).queue = (s.line l).queue ∧ (t.line l).counters = (s.line l).counters ∧
        (s.store.geometry.isSome = true →
          ∃ c, (t.line l).cycle = some c ∧ c.number = 0 ∧ c.start = s.now ∧ c.due.Pairwise (· ≤ ·) ∧
            ∀ a, a ∈ c.due ↔ ∃ u ∈ s.units, u.line = l ∧ u.address = a))) ∧
    ∀ c, (s.line l).cycle = some c →
      (s.now < c.start + c.period ∨ c.due ≠ [] → exec (.pollCycleStart l) s = .next s) ∧
      (c.start + c.period ≤ s.now → c.due = [] →
        ∃ t, exec (.pollCycleStart l) s = .next t ∧ OnlyLine l s t ∧
          ∃ n, t.line l = { s.line l with
              cycle := some n
              counters := if ∃ e, c.emptied = some e ∧ c.start + c.period < e
                then { (s.line l).counters with stretched := min ((s.line l).counters.stretched + 1) 65535 }
                else (s.line l).counters } ∧
            n.start = s.now ∧ n.period = s.param (pollCycleId l) ∧ n.number = (c.number + 1) % 4 ∧
            n.due.Pairwise (· ≤ ·) ∧
            ∀ a, a ∈ n.due ↔ ∃ u ∈ s.units, u.line = l ∧ u.address = a ∧ (u.state ≠ .lost ∨ n.number = 0))

/-! ## Invariants -/

/-- R15: every step keeps the parameters within their ranges and the constraints over them. -/
def Obligations.ParamsInvKeptByEveryStep : Prop :=
  ∀ s t : State, ParamsInv s → step s = .next t → ParamsInv t

/-- R10, R11, R158, R163: every step keeps the geometry, the commit state, the mode and the dark target in agreement. -/
def Obligations.ModeInvKeptByEveryStep : Prop :=
  ∀ s t : State, ModeInv s → step s = .next t → ModeInv t

/-- R42, R44, R46: every step keeps a DISABLED port empty, a SILENT one without a deadline, and unready ports idle. That a
DISABLED port's record too is ACTIVE until readiness is the model's choice (log entry 15). -/
def Obligations.PortsInvKeptByEveryStep : Prop :=
  ∀ s t : State, PortsInv s → step s = .next t → PortsInv t

/-- R17 and R18: every step keeps the slots, keys and quotas of the request table. -/
def Obligations.TableInvKeptByEveryStep : Prop :=
  ∀ s t : State, TableInv s → step s = .next t → TableInv t

/-- R112 and R117: every step keeps the driver on exactly while a frame goes out, and no transaction on a JAMMED line. -/
def Obligations.LinesInvKeptByEveryStep : Prop :=
  ∀ s t : State, LinesInv s → step s = .next t → LinesInv t

/-- The state after a power-on reset, at the straps of log entry 2, meets the five invariants. -/
def Obligations.ResetMeetsInvariants : Prop :=
  ParamsInv State.reset ∧ ModeInv State.reset ∧ PortsInv State.reset ∧ TableInv State.reset ∧ LinesInv State.reset
end

