-- ==== Sys2Proof/Laws/State.lean ====
section
/-! SUPPORT. The small lemmas of the state: what each plain update leaves of every field, and what reading a port, a line, a
delivery record or a station after it gives. -/

namespace Sys2Proof.Machine

/-! ## One value per port and per line -/

@[simp] theorem PerPort.get_set {α : Type} (x : PerPort α) (p q : Port) (v : α) :
    (x.set p v).get q = if q = p then v else x.get q := by
  cases p <;> cases q <;> rfl

@[simp] theorem PerPort.get_map {α β : Type} (f : Port → α → β) (x : PerPort α) (p : Port) :
    (x.map f).get p = f p (x.get p) := by
  cases p <;> rfl

@[simp] theorem PerLine.get_set {α : Type} (x : PerLine α) (l m : LineId) (v : α) :
    (x.set l v).get m = if m = l then v else x.get m := by
  cases l <;> cases m <;> rfl

@[simp] theorem PerLine.get_map {α β : Type} (f : LineId → α → β) (x : PerLine α) (l : LineId) :
    (x.map f).get l = f l (x.get l) := by
  cases l <;> rfl

/-- Two ports' values agree at every port only if they are the same. -/
theorem PerPort.ext_get {α : Type} {x y : PerPort α} (h : ∀ p, x.get p = y.get p) : x = y := by
  obtain ⟨a, b, c⟩ := x
  obtain ⟨d, e, f⟩ := y
  have ha := h .a
  have hb := h .b
  have hc := h .c
  simp_all [PerPort.get]

/-- Two lines' values agree at every line only if they are the same. -/
theorem PerLine.ext_get {α : Type} {x y : PerLine α} (h : ∀ l, x.get l = y.get l) : x = y := by
  obtain ⟨a, b⟩ := x
  obtain ⟨d, e⟩ := y
  have h1 := h .one
  have h2 := h .two
  simp_all [PerLine.get]

/-! ## Fields an update leaves -/

@[simp] theorem State.setPort_now (s : State) (p : Port) (r : PortRec) : (s.setPort p r).now = s.now := rfl
@[simp] theorem State.setPort_phase (s : State) (p : Port) (r : PortRec) : (s.setPort p r).phase = s.phase := rfl
@[simp] theorem State.setPort_mode (s : State) (p : Port) (r : PortRec) : (s.setPort p r).mode = s.mode := rfl
@[simp] theorem State.setPort_cause (s : State) (p : Port) (r : PortRec) : (s.setPort p r).cause = s.cause := rfl
@[simp] theorem State.setPort_store (s : State) (p : Port) (r : PortRec) : (s.setPort p r).store = s.store := rfl
@[simp] theorem State.setPort_table (s : State) (p : Port) (r : PortRec) : (s.setPort p r).table = s.table := rfl
@[simp] theorem State.setPort_evaluator (s : State) (p : Port) (r : PortRec) : (s.setPort p r).evaluator = s.evaluator := rfl
@[simp] theorem State.setPort_stations (s : State) (p : Port) (r : PortRec) : (s.setPort p r).stations = s.stations := rfl
@[simp] theorem State.setPort_units (s : State) (p : Port) (r : PortRec) : (s.setPort p r).units = s.units := rfl
@[simp] theorem State.setPort_delivery (s : State) (p : Port) (r : PortRec) : (s.setPort p r).delivery = s.delivery := rfl
@[simp] theorem State.setPort_lines (s : State) (p : Port) (r : PortRec) : (s.setPort p r).lines = s.lines := rfl
@[simp] theorem State.setPort_drawn (s : State) (p : Port) (r : PortRec) : (s.setPort p r).drawn = s.drawn := rfl
@[simp] theorem State.setPort_pending (s : State) (p : Port) (r : PortRec) : (s.setPort p r).pending = s.pending := rfl

@[simp] theorem State.notify_now (s : State) (p : Port) (n : Notice) : (s.notify p n).now = s.now := rfl
@[simp] theorem State.notify_phase (s : State) (p : Port) (n : Notice) : (s.notify p n).phase = s.phase := rfl
@[simp] theorem State.notify_mode (s : State) (p : Port) (n : Notice) : (s.notify p n).mode = s.mode := rfl
@[simp] theorem State.notify_cause (s : State) (p : Port) (n : Notice) : (s.notify p n).cause = s.cause := rfl
@[simp] theorem State.notify_store (s : State) (p : Port) (n : Notice) : (s.notify p n).store = s.store := rfl
@[simp] theorem State.notify_table (s : State) (p : Port) (n : Notice) : (s.notify p n).table = s.table := rfl
@[simp] theorem State.notify_evaluator (s : State) (p : Port) (n : Notice) : (s.notify p n).evaluator = s.evaluator := rfl
@[simp] theorem State.notify_stations (s : State) (p : Port) (n : Notice) : (s.notify p n).stations = s.stations := rfl
@[simp] theorem State.notify_units (s : State) (p : Port) (n : Notice) : (s.notify p n).units = s.units := rfl
@[simp] theorem State.notify_delivery (s : State) (p : Port) (n : Notice) : (s.notify p n).delivery = s.delivery := rfl
@[simp] theorem State.notify_lines (s : State) (p : Port) (n : Notice) : (s.notify p n).lines = s.lines := rfl
@[simp] theorem State.notify_drawn (s : State) (p : Port) (n : Notice) : (s.notify p n).drawn = s.drawn := rfl
@[simp] theorem State.notify_pending (s : State) (p : Port) (n : Notice) : (s.notify p n).pending = s.pending := rfl

@[simp] theorem State.notifyAll_now (s : State) (n : Notice) : (s.notifyAll n).now = s.now := rfl
@[simp] theorem State.notifyAll_phase (s : State) (n : Notice) : (s.notifyAll n).phase = s.phase := rfl
@[simp] theorem State.notifyAll_mode (s : State) (n : Notice) : (s.notifyAll n).mode = s.mode := rfl
@[simp] theorem State.notifyAll_cause (s : State) (n : Notice) : (s.notifyAll n).cause = s.cause := rfl
@[simp] theorem State.notifyAll_store (s : State) (n : Notice) : (s.notifyAll n).store = s.store := rfl
@[simp] theorem State.notifyAll_table (s : State) (n : Notice) : (s.notifyAll n).table = s.table := rfl
@[simp] theorem State.notifyAll_evaluator (s : State) (n : Notice) : (s.notifyAll n).evaluator = s.evaluator := rfl
@[simp] theorem State.notifyAll_stations (s : State) (n : Notice) : (s.notifyAll n).stations = s.stations := rfl
@[simp] theorem State.notifyAll_units (s : State) (n : Notice) : (s.notifyAll n).units = s.units := rfl
@[simp] theorem State.notifyAll_delivery (s : State) (n : Notice) : (s.notifyAll n).delivery = s.delivery := rfl
@[simp] theorem State.notifyAll_lines (s : State) (n : Notice) : (s.notifyAll n).lines = s.lines := rfl
@[simp] theorem State.notifyAll_drawn (s : State) (n : Notice) : (s.notifyAll n).drawn = s.drawn := rfl
@[simp] theorem State.notifyAll_pending (s : State) (n : Notice) : (s.notifyAll n).pending = s.pending := rfl

@[simp] theorem State.notifyOthers_now (s : State) (p : Port) (n : Notice) : (s.notifyOthers p n).now = s.now := rfl
@[simp] theorem State.notifyOthers_phase (s : State) (p : Port) (n : Notice) : (s.notifyOthers p n).phase = s.phase := rfl
@[simp] theorem State.notifyOthers_mode (s : State) (p : Port) (n : Notice) : (s.notifyOthers p n).mode = s.mode := rfl
@[simp] theorem State.notifyOthers_cause (s : State) (p : Port) (n : Notice) : (s.notifyOthers p n).cause = s.cause := rfl
@[simp] theorem State.notifyOthers_store (s : State) (p : Port) (n : Notice) : (s.notifyOthers p n).store = s.store := rfl
@[simp] theorem State.notifyOthers_table (s : State) (p : Port) (n : Notice) : (s.notifyOthers p n).table = s.table := rfl
@[simp] theorem State.notifyOthers_evaluator (s : State) (p : Port) (n : Notice) : (s.notifyOthers p n).evaluator = s.evaluator := rfl
@[simp] theorem State.notifyOthers_stations (s : State) (p : Port) (n : Notice) : (s.notifyOthers p n).stations = s.stations := rfl
@[simp] theorem State.notifyOthers_units (s : State) (p : Port) (n : Notice) : (s.notifyOthers p n).units = s.units := rfl
@[simp] theorem State.notifyOthers_delivery (s : State) (p : Port) (n : Notice) : (s.notifyOthers p n).delivery = s.delivery := rfl
@[simp] theorem State.notifyOthers_lines (s : State) (p : Port) (n : Notice) : (s.notifyOthers p n).lines = s.lines := rfl
@[simp] theorem State.notifyOthers_drawn (s : State) (p : Port) (n : Notice) : (s.notifyOthers p n).drawn = s.drawn := rfl
@[simp] theorem State.notifyOthers_pending (s : State) (p : Port) (n : Notice) : (s.notifyOthers p n).pending = s.pending := rfl

@[simp] theorem State.setLine_now (s : State) (l : LineId) (r : LineRec) : (s.setLine l r).now = s.now := rfl
@[simp] theorem State.setLine_phase (s : State) (l : LineId) (r : LineRec) : (s.setLine l r).phase = s.phase := rfl
@[simp] theorem State.setLine_mode (s : State) (l : LineId) (r : LineRec) : (s.setLine l r).mode = s.mode := rfl
@[simp] theorem State.setLine_cause (s : State) (l : LineId) (r : LineRec) : (s.setLine l r).cause = s.cause := rfl
@[simp] theorem State.setLine_store (s : State) (l : LineId) (r : LineRec) : (s.setLine l r).store = s.store := rfl
@[simp] theorem State.setLine_table (s : State) (l : LineId) (r : LineRec) : (s.setLine l r).table = s.table := rfl
@[simp] theorem State.setLine_ports (s : State) (l : LineId) (r : LineRec) : (s.setLine l r).ports = s.ports := rfl
@[simp] theorem State.setLine_evaluator (s : State) (l : LineId) (r : LineRec) : (s.setLine l r).evaluator = s.evaluator := rfl
@[simp] theorem State.setLine_stations (s : State) (l : LineId) (r : LineRec) : (s.setLine l r).stations = s.stations := rfl
@[simp] theorem State.setLine_units (s : State) (l : LineId) (r : LineRec) : (s.setLine l r).units = s.units := rfl
@[simp] theorem State.setLine_delivery (s : State) (l : LineId) (r : LineRec) : (s.setLine l r).delivery = s.delivery := rfl
@[simp] theorem State.setLine_drawn (s : State) (l : LineId) (r : LineRec) : (s.setLine l r).drawn = s.drawn := rfl
@[simp] theorem State.setLine_pending (s : State) (l : LineId) (r : LineRec) : (s.setLine l r).pending = s.pending := rfl

@[simp] theorem State.modifySite_now (s : State) (i : Nat) (f : DeliverySite → DeliverySite) : (s.modifySite i f).now = s.now := by
  unfold State.modifySite; split <;> rfl
@[simp] theorem State.modifySite_phase (s : State) (i : Nat) (f : DeliverySite → DeliverySite) : (s.modifySite i f).phase = s.phase := by
  unfold State.modifySite; split <;> rfl
@[simp] theorem State.modifySite_mode (s : State) (i : Nat) (f : DeliverySite → DeliverySite) : (s.modifySite i f).mode = s.mode := by
  unfold State.modifySite; split <;> rfl
@[simp] theorem State.modifySite_cause (s : State) (i : Nat) (f : DeliverySite → DeliverySite) : (s.modifySite i f).cause = s.cause := by
  unfold State.modifySite; split <;> rfl
@[simp] theorem State.modifySite_store (s : State) (i : Nat) (f : DeliverySite → DeliverySite) : (s.modifySite i f).store = s.store := by
  unfold State.modifySite; split <;> rfl
@[simp] theorem State.modifySite_table (s : State) (i : Nat) (f : DeliverySite → DeliverySite) : (s.modifySite i f).table = s.table := by
  unfold State.modifySite; split <;> rfl
@[simp] theorem State.modifySite_ports (s : State) (i : Nat) (f : DeliverySite → DeliverySite) : (s.modifySite i f).ports = s.ports := by
  unfold State.modifySite; split <;> rfl
@[simp] theorem State.modifySite_evaluator (s : State) (i : Nat) (f : DeliverySite → DeliverySite) : (s.modifySite i f).evaluator = s.evaluator := by
  unfold State.modifySite; split <;> rfl
@[simp] theorem State.modifySite_stations (s : State) (i : Nat) (f : DeliverySite → DeliverySite) : (s.modifySite i f).stations = s.stations := by
  unfold State.modifySite; split <;> rfl
@[simp] theorem State.modifySite_units (s : State) (i : Nat) (f : DeliverySite → DeliverySite) : (s.modifySite i f).units = s.units := by
  unfold State.modifySite; split <;> rfl
@[simp] theorem State.modifySite_lines (s : State) (i : Nat) (f : DeliverySite → DeliverySite) : (s.modifySite i f).lines = s.lines := by
  unfold State.modifySite; split <;> rfl
@[simp] theorem State.modifySite_drawn (s : State) (i : Nat) (f : DeliverySite → DeliverySite) : (s.modifySite i f).drawn = s.drawn := by
  unfold State.modifySite; split <;> rfl
@[simp] theorem State.modifySite_pending (s : State) (i : Nat) (f : DeliverySite → DeliverySite) : (s.modifySite i f).pending = s.pending := by
  unfold State.modifySite; split <;> rfl

@[simp] theorem State.mapSites_now (s : State) (f : Nat → DeliverySite → DeliverySite) : (s.mapSites f).now = s.now := rfl
@[simp] theorem State.mapSites_phase (s : State) (f : Nat → DeliverySite → DeliverySite) : (s.mapSites f).phase = s.phase := rfl
@[simp] theorem State.mapSites_mode (s : State) (f : Nat → DeliverySite → DeliverySite) : (s.mapSites f).mode = s.mode := rfl
@[simp] theorem State.mapSites_cause (s : State) (f : Nat → DeliverySite → DeliverySite) : (s.mapSites f).cause = s.cause := rfl
@[simp] theorem State.mapSites_store (s : State) (f : Nat → DeliverySite → DeliverySite) : (s.mapSites f).store = s.store := rfl
@[simp] theorem State.mapSites_table (s : State) (f : Nat → DeliverySite → DeliverySite) : (s.mapSites f).table = s.table := rfl
@[simp] theorem State.mapSites_ports (s : State) (f : Nat → DeliverySite → DeliverySite) : (s.mapSites f).ports = s.ports := rfl
@[simp] theorem State.mapSites_evaluator (s : State) (f : Nat → DeliverySite → DeliverySite) : (s.mapSites f).evaluator = s.evaluator := rfl
@[simp] theorem State.mapSites_stations (s : State) (f : Nat → DeliverySite → DeliverySite) : (s.mapSites f).stations = s.stations := rfl
@[simp] theorem State.mapSites_units (s : State) (f : Nat → DeliverySite → DeliverySite) : (s.mapSites f).units = s.units := rfl
@[simp] theorem State.mapSites_lines (s : State) (f : Nat → DeliverySite → DeliverySite) : (s.mapSites f).lines = s.lines := rfl
@[simp] theorem State.mapSites_drawn (s : State) (f : Nat → DeliverySite → DeliverySite) : (s.mapSites f).drawn = s.drawn := rfl
@[simp] theorem State.mapSites_pending (s : State) (f : Nat → DeliverySite → DeliverySite) : (s.mapSites f).pending = s.pending := rfl

@[simp] theorem State.setStation_now (s : State) (x : Station) : (s.setStation x).now = s.now := rfl
@[simp] theorem State.setStation_phase (s : State) (x : Station) : (s.setStation x).phase = s.phase := rfl
@[simp] theorem State.setStation_mode (s : State) (x : Station) : (s.setStation x).mode = s.mode := rfl
@[simp] theorem State.setStation_cause (s : State) (x : Station) : (s.setStation x).cause = s.cause := rfl
@[simp] theorem State.setStation_store (s : State) (x : Station) : (s.setStation x).store = s.store := rfl
@[simp] theorem State.setStation_table (s : State) (x : Station) : (s.setStation x).table = s.table := rfl
@[simp] theorem State.setStation_ports (s : State) (x : Station) : (s.setStation x).ports = s.ports := rfl
@[simp] theorem State.setStation_evaluator (s : State) (x : Station) : (s.setStation x).evaluator = s.evaluator := rfl
@[simp] theorem State.setStation_units (s : State) (x : Station) : (s.setStation x).units = s.units := rfl
@[simp] theorem State.setStation_delivery (s : State) (x : Station) : (s.setStation x).delivery = s.delivery := rfl
@[simp] theorem State.setStation_lines (s : State) (x : Station) : (s.setStation x).lines = s.lines := rfl
@[simp] theorem State.setStation_drawn (s : State) (x : Station) : (s.setStation x).drawn = s.drawn := rfl
@[simp] theorem State.setStation_pending (s : State) (x : Station) : (s.setStation x).pending = s.pending := rfl

@[simp] theorem State.markPending_now (s : State) : (s.markPending).now = s.now := rfl
@[simp] theorem State.markPending_phase (s : State) : (s.markPending).phase = s.phase := rfl
@[simp] theorem State.markPending_mode (s : State) : (s.markPending).mode = s.mode := rfl
@[simp] theorem State.markPending_cause (s : State) : (s.markPending).cause = s.cause := rfl
@[simp] theorem State.markPending_store (s : State) : (s.markPending).store = s.store := rfl
@[simp] theorem State.markPending_table (s : State) : (s.markPending).table = s.table := rfl
@[simp] theorem State.markPending_ports (s : State) : (s.markPending).ports = s.ports := rfl
@[simp] theorem State.markPending_stations (s : State) : (s.markPending).stations = s.stations := rfl
@[simp] theorem State.markPending_units (s : State) : (s.markPending).units = s.units := rfl
@[simp] theorem State.markPending_delivery (s : State) : (s.markPending).delivery = s.delivery := rfl
@[simp] theorem State.markPending_lines (s : State) : (s.markPending).lines = s.lines := rfl
@[simp] theorem State.markPending_drawn (s : State) : (s.markPending).drawn = s.drawn := rfl
@[simp] theorem State.markPending_pending (s : State) : (s.markPending).pending = s.pending := rfl

@[simp] theorem State.replacePlan_now (s : State) (plan : List PlanSite) : (s.replacePlan plan).now = s.now := rfl
@[simp] theorem State.replacePlan_phase (s : State) (plan : List PlanSite) : (s.replacePlan plan).phase = s.phase := rfl
@[simp] theorem State.replacePlan_mode (s : State) (plan : List PlanSite) : (s.replacePlan plan).mode = s.mode := rfl
@[simp] theorem State.replacePlan_cause (s : State) (plan : List PlanSite) : (s.replacePlan plan).cause = s.cause := rfl
@[simp] theorem State.replacePlan_store (s : State) (plan : List PlanSite) : (s.replacePlan plan).store = s.store := rfl
@[simp] theorem State.replacePlan_table (s : State) (plan : List PlanSite) : (s.replacePlan plan).table = s.table := rfl
@[simp] theorem State.replacePlan_ports (s : State) (plan : List PlanSite) : (s.replacePlan plan).ports = s.ports := rfl
@[simp] theorem State.replacePlan_stations (s : State) (plan : List PlanSite) : (s.replacePlan plan).stations = s.stations := rfl
@[simp] theorem State.replacePlan_units (s : State) (plan : List PlanSite) : (s.replacePlan plan).units = s.units := rfl
@[simp] theorem State.replacePlan_delivery (s : State) (plan : List PlanSite) : (s.replacePlan plan).delivery = s.delivery := rfl
@[simp] theorem State.replacePlan_lines (s : State) (plan : List PlanSite) : (s.replacePlan plan).lines = s.lines := rfl
@[simp] theorem State.replacePlan_drawn (s : State) (plan : List PlanSite) : (s.replacePlan plan).drawn = s.drawn := rfl
@[simp] theorem State.replacePlan_pending (s : State) (plan : List PlanSite) : (s.replacePlan plan).pending = s.pending := rfl

@[simp] theorem State.withStore_now (s : State) (f : Store → Store) : (s.withStore f).now = s.now := rfl
@[simp] theorem State.withStore_phase (s : State) (f : Store → Store) : (s.withStore f).phase = s.phase := rfl
@[simp] theorem State.withStore_mode (s : State) (f : Store → Store) : (s.withStore f).mode = s.mode := rfl
@[simp] theorem State.withStore_cause (s : State) (f : Store → Store) : (s.withStore f).cause = s.cause := rfl
@[simp] theorem State.withStore_table (s : State) (f : Store → Store) : (s.withStore f).table = s.table := rfl
@[simp] theorem State.withStore_ports (s : State) (f : Store → Store) : (s.withStore f).ports = s.ports := rfl
@[simp] theorem State.withStore_evaluator (s : State) (f : Store → Store) : (s.withStore f).evaluator = s.evaluator := rfl
@[simp] theorem State.withStore_stations (s : State) (f : Store → Store) : (s.withStore f).stations = s.stations := rfl
@[simp] theorem State.withStore_units (s : State) (f : Store → Store) : (s.withStore f).units = s.units := rfl
@[simp] theorem State.withStore_delivery (s : State) (f : Store → Store) : (s.withStore f).delivery = s.delivery := rfl
@[simp] theorem State.withStore_lines (s : State) (f : Store → Store) : (s.withStore f).lines = s.lines := rfl
@[simp] theorem State.withStore_drawn (s : State) (f : Store → Store) : (s.withStore f).drawn = s.drawn := rfl
@[simp] theorem State.withStore_pending (s : State) (f : Store → Store) : (s.withStore f).pending = s.pending := rfl

@[simp] theorem State.changeMode_now (s : State) (m : Mode) : (s.changeMode m).now = s.now := rfl
@[simp] theorem State.changeMode_phase (s : State) (m : Mode) : (s.changeMode m).phase = s.phase := rfl
@[simp] theorem State.changeMode_cause (s : State) (m : Mode) : (s.changeMode m).cause = s.cause := rfl
@[simp] theorem State.changeMode_store (s : State) (m : Mode) : (s.changeMode m).store = s.store := rfl
@[simp] theorem State.changeMode_table (s : State) (m : Mode) : (s.changeMode m).table = s.table := rfl
@[simp] theorem State.changeMode_evaluator (s : State) (m : Mode) : (s.changeMode m).evaluator = s.evaluator := rfl
@[simp] theorem State.changeMode_stations (s : State) (m : Mode) : (s.changeMode m).stations = s.stations := rfl
@[simp] theorem State.changeMode_units (s : State) (m : Mode) : (s.changeMode m).units = s.units := rfl
@[simp] theorem State.changeMode_delivery (s : State) (m : Mode) : (s.changeMode m).delivery = s.delivery := rfl
@[simp] theorem State.changeMode_lines (s : State) (m : Mode) : (s.changeMode m).lines = s.lines := rfl
@[simp] theorem State.changeMode_drawn (s : State) (m : Mode) : (s.changeMode m).drawn = s.drawn := rfl
@[simp] theorem State.changeMode_pending (s : State) (m : Mode) : (s.changeMode m).pending = s.pending := rfl

@[simp] theorem State.draw_now (s : State) : (s.draw).now = s.now := rfl
@[simp] theorem State.draw_phase (s : State) : (s.draw).phase = s.phase := rfl
@[simp] theorem State.draw_mode (s : State) : (s.draw).mode = s.mode := rfl
@[simp] theorem State.draw_cause (s : State) : (s.draw).cause = s.cause := rfl
@[simp] theorem State.draw_store (s : State) : (s.draw).store = s.store := rfl
@[simp] theorem State.draw_table (s : State) : (s.draw).table = s.table := rfl
@[simp] theorem State.draw_ports (s : State) : (s.draw).ports = s.ports := rfl
@[simp] theorem State.draw_evaluator (s : State) : (s.draw).evaluator = s.evaluator := rfl
@[simp] theorem State.draw_stations (s : State) : (s.draw).stations = s.stations := rfl
@[simp] theorem State.draw_units (s : State) : (s.draw).units = s.units := rfl
@[simp] theorem State.draw_delivery (s : State) : (s.draw).delivery = s.delivery := rfl
@[simp] theorem State.draw_lines (s : State) : (s.draw).lines = s.lines := rfl
@[simp] theorem State.draw_pending (s : State) : (s.draw).pending = s.pending := rfl

@[simp] theorem State.tick_phase (s : State) : (s.tick).phase = s.phase := rfl
@[simp] theorem State.tick_mode (s : State) : (s.tick).mode = s.mode := rfl
@[simp] theorem State.tick_cause (s : State) : (s.tick).cause = s.cause := rfl
@[simp] theorem State.tick_store (s : State) : (s.tick).store = s.store := rfl
@[simp] theorem State.tick_table (s : State) : (s.tick).table = s.table := rfl
@[simp] theorem State.tick_ports (s : State) : (s.tick).ports = s.ports := rfl
@[simp] theorem State.tick_evaluator (s : State) : (s.tick).evaluator = s.evaluator := rfl
@[simp] theorem State.tick_stations (s : State) : (s.tick).stations = s.stations := rfl
@[simp] theorem State.tick_units (s : State) : (s.tick).units = s.units := rfl
@[simp] theorem State.tick_delivery (s : State) : (s.tick).delivery = s.delivery := rfl
@[simp] theorem State.tick_lines (s : State) : (s.tick).lines = s.lines := rfl
@[simp] theorem State.tick_drawn (s : State) : (s.tick).drawn = s.drawn := rfl
@[simp] theorem State.tick_pending (s : State) : (s.tick).pending = s.pending := rfl

@[simp] theorem State.postpone_now (s : State) (i : Instr) : (s.postpone i).now = s.now := rfl
@[simp] theorem State.postpone_phase (s : State) (i : Instr) : (s.postpone i).phase = s.phase := rfl
@[simp] theorem State.postpone_mode (s : State) (i : Instr) : (s.postpone i).mode = s.mode := rfl
@[simp] theorem State.postpone_cause (s : State) (i : Instr) : (s.postpone i).cause = s.cause := rfl
@[simp] theorem State.postpone_store (s : State) (i : Instr) : (s.postpone i).store = s.store := rfl
@[simp] theorem State.postpone_table (s : State) (i : Instr) : (s.postpone i).table = s.table := rfl
@[simp] theorem State.postpone_ports (s : State) (i : Instr) : (s.postpone i).ports = s.ports := rfl
@[simp] theorem State.postpone_evaluator (s : State) (i : Instr) : (s.postpone i).evaluator = s.evaluator := rfl
@[simp] theorem State.postpone_stations (s : State) (i : Instr) : (s.postpone i).stations = s.stations := rfl
@[simp] theorem State.postpone_units (s : State) (i : Instr) : (s.postpone i).units = s.units := rfl
@[simp] theorem State.postpone_delivery (s : State) (i : Instr) : (s.postpone i).delivery = s.delivery := rfl
@[simp] theorem State.postpone_lines (s : State) (i : Instr) : (s.postpone i).lines = s.lines := rfl
@[simp] theorem State.postpone_drawn (s : State) (i : Instr) : (s.postpone i).drawn = s.drawn := rfl

@[simp] theorem State.markPending_evaluator (s : State) :
    s.markPending.evaluator = { s.evaluator with pending := true } := rfl
@[simp] theorem State.tick_now (s : State) : s.tick.now = s.now + 1 := rfl
@[simp] theorem State.draw_drawn (s : State) : s.draw.drawn = s.drawn + 1 := rfl
@[simp] theorem State.postpone_pending (s : State) (i : Instr) : (s.postpone i).pending = s.pending ++ [i] := rfl
@[simp] theorem State.withStore_store (s : State) (f : Store → Store) : (s.withStore f).store = f s.store := rfl

/-! ## Reading a port, a line or a delivery record after an update -/

@[simp] theorem State.setPort_port (s : State) (p q : Port) (r : PortRec) :
    (s.setPort p r).port q = if q = p then r else s.port q := PerPort.get_set ..
@[simp] theorem State.notifyAll_port (s : State) (n : Notice) (q : Port) :
    (s.notifyAll n).port q = (s.port q).raise n := PerPort.get_map ..
@[simp] theorem State.notifyOthers_port (s : State) (p q : Port) (n : Notice) :
    (s.notifyOthers p n).port q = if q = p then s.port q else (s.port q).raise n := PerPort.get_map ..
@[simp] theorem State.notify_port (s : State) (p q : Port) (n : Notice) :
    (s.notify p n).port q = if q = p then (s.port p).raise n else s.port q := PerPort.get_set ..
@[simp] theorem State.changeMode_port (s : State) (m : Mode) (q : Port) :
    (s.changeMode m).port q = (s.port q).raise .mode := PerPort.get_map ..
@[simp] theorem State.changeMode_mode (s : State) (m : Mode) : (s.changeMode m).mode = m := rfl
@[simp] theorem State.setLine_line (s : State) (l m : LineId) (r : LineRec) :
    (s.setLine l r).line m = if m = l then r else s.line m := PerLine.get_set ..

/-- Replacing a port's record by itself changes nothing. -/
@[simp] theorem State.setPort_self (s : State) (p : Port) : s.setPort p (s.port p) = s := by
  cases p <;> rfl
/-- The later of two replacements of a port's record stands. -/
@[simp] theorem State.setPort_setPort (s : State) (p : Port) (r q : PortRec) :
    (s.setPort p r).setPort p q = s.setPort p q := by
  cases p <;> rfl
/-- Replacing a line's record by itself changes nothing. -/
@[simp] theorem State.setLine_self (s : State) (l : LineId) : s.setLine l (s.line l) = s := by
  cases l <;> rfl
/-- The later of two replacements of a line's record stands. -/
@[simp] theorem State.setLine_setLine (s : State) (l : LineId) (r q : LineRec) :
    (s.setLine l r).setLine l q = s.setLine l q := by
  cases l <;> rfl

/-! ## Readings an update leaves -/

@[simp] theorem State.setPort_line (s : State) (p : Port) (r : PortRec) (m : LineId) : (s.setPort p r).line m = s.line m := rfl
@[simp] theorem State.setPort_site (s : State) (p : Port) (r : PortRec) (j : Nat) : (s.setPort p r).site j = s.site j := rfl
@[simp] theorem State.setPort_unit (s : State) (p : Port) (r : PortRec) (j : Nat) : (s.setPort p r).unit j = s.unit j := rfl
@[simp] theorem State.setPort_station (s : State) (p : Port) (r : PortRec) (k : Nat) : (s.setPort p r).station k = s.station k := rfl
@[simp] theorem State.setPort_param (s : State) (p : Port) (r : PortRec) (y : ParamId) : (s.setPort p r).param y = s.param y := rfl
@[simp] theorem State.notifyAll_line (s : State) (n : Notice) (m : LineId) : (s.notifyAll n).line m = s.line m := rfl
@[simp] theorem State.notifyAll_site (s : State) (n : Notice) (j : Nat) : (s.notifyAll n).site j = s.site j := rfl
@[simp] theorem State.notifyAll_unit (s : State) (n : Notice) (j : Nat) : (s.notifyAll n).unit j = s.unit j := rfl
@[simp] theorem State.notifyAll_station (s : State) (n : Notice) (k : Nat) : (s.notifyAll n).station k = s.station k := rfl
@[simp] theorem State.notifyAll_param (s : State) (n : Notice) (y : ParamId) : (s.notifyAll n).param y = s.param y := rfl
@[simp] theorem State.notifyOthers_line (s : State) (p : Port) (n : Notice) (m : LineId) : (s.notifyOthers p n).line m = s.line m := rfl
@[simp] theorem State.notifyOthers_site (s : State) (p : Port) (n : Notice) (j : Nat) : (s.notifyOthers p n).site j = s.site j := rfl
@[simp] theorem State.notifyOthers_unit (s : State) (p : Port) (n : Notice) (j : Nat) : (s.notifyOthers p n).unit j = s.unit j := rfl
@[simp] theorem State.notifyOthers_station (s : State) (p : Port) (n : Notice) (k : Nat) : (s.notifyOthers p n).station k = s.station k := rfl
@[simp] theorem State.notifyOthers_param (s : State) (p : Port) (n : Notice) (y : ParamId) : (s.notifyOthers p n).param y = s.param y := rfl
@[simp] theorem State.setLine_port (s : State) (l : LineId) (r : LineRec) (q : Port) : (s.setLine l r).port q = s.port q := rfl
@[simp] theorem State.setLine_site (s : State) (l : LineId) (r : LineRec) (j : Nat) : (s.setLine l r).site j = s.site j := rfl
@[simp] theorem State.setLine_unit (s : State) (l : LineId) (r : LineRec) (j : Nat) : (s.setLine l r).unit j = s.unit j := rfl
@[simp] theorem State.setLine_station (s : State) (l : LineId) (r : LineRec) (k : Nat) : (s.setLine l r).station k = s.station k := rfl
@[simp] theorem State.setLine_param (s : State) (l : LineId) (r : LineRec) (y : ParamId) : (s.setLine l r).param y = s.param y := rfl
@[simp] theorem State.modifySite_port (s : State) (i : Nat) (f : DeliverySite → DeliverySite) (q : Port) : (s.modifySite i f).port q = s.port q := by
  unfold State.modifySite; split <;> rfl
@[simp] theorem State.modifySite_line (s : State) (i : Nat) (f : DeliverySite → DeliverySite) (m : LineId) : (s.modifySite i f).line m = s.line m := by
  unfold State.modifySite; split <;> rfl
@[simp] theorem State.modifySite_unit (s : State) (i : Nat) (f : DeliverySite → DeliverySite) (j : Nat) : (s.modifySite i f).unit j = s.unit j := by
  unfold State.modifySite; split <;> rfl
@[simp] theorem State.modifySite_station (s : State) (i : Nat) (f : DeliverySite → DeliverySite) (k : Nat) : (s.modifySite i f).station k = s.station k := by
  unfold State.modifySite; split <;> rfl
@[simp] theorem State.modifySite_param (s : State) (i : Nat) (f : DeliverySite → DeliverySite) (y : ParamId) : (s.modifySite i f).param y = s.param y := by
  unfold State.modifySite; split <;> rfl
@[simp] theorem State.mapSites_port (s : State) (f : Nat → DeliverySite → DeliverySite) (q : Port) : (s.mapSites f).port q = s.port q := rfl
@[simp] theorem State.mapSites_line (s : State) (f : Nat → DeliverySite → DeliverySite) (m : LineId) : (s.mapSites f).line m = s.line m := rfl
@[simp] theorem State.mapSites_unit (s : State) (f : Nat → DeliverySite → DeliverySite) (j : Nat) : (s.mapSites f).unit j = s.unit j := rfl
@[simp] theorem State.mapSites_station (s : State) (f : Nat → DeliverySite → DeliverySite) (k : Nat) : (s.mapSites f).station k = s.station k := rfl
@[simp] theorem State.mapSites_param (s : State) (f : Nat → DeliverySite → DeliverySite) (y : ParamId) : (s.mapSites f).param y = s.param y := rfl
@[simp] theorem State.setStation_port (s : State) (x : Station) (q : Port) : (s.setStation x).port q = s.port q := rfl
@[simp] theorem State.setStation_line (s : State) (x : Station) (m : LineId) : (s.setStation x).line m = s.line m := rfl
@[simp] theorem State.setStation_site (s : State) (x : Station) (j : Nat) : (s.setStation x).site j = s.site j := rfl
@[simp] theorem State.setStation_unit (s : State) (x : Station) (j : Nat) : (s.setStation x).unit j = s.unit j := rfl
@[simp] theorem State.setStation_param (s : State) (x : Station) (y : ParamId) : (s.setStation x).param y = s.param y := rfl
@[simp] theorem State.markPending_port (s : State) (q : Port) : (s.markPending).port q = s.port q := rfl
@[simp] theorem State.markPending_line (s : State) (m : LineId) : (s.markPending).line m = s.line m := rfl
@[simp] theorem State.markPending_site (s : State) (j : Nat) : (s.markPending).site j = s.site j := rfl
@[simp] theorem State.markPending_unit (s : State) (j : Nat) : (s.markPending).unit j = s.unit j := rfl
@[simp] theorem State.markPending_station (s : State) (k : Nat) : (s.markPending).station k = s.station k := rfl
@[simp] theorem State.markPending_param (s : State) (y : ParamId) : (s.markPending).param y = s.param y := rfl
@[simp] theorem State.draw_port (s : State) (q : Port) : (s.draw).port q = s.port q := rfl
@[simp] theorem State.draw_line (s : State) (m : LineId) : (s.draw).line m = s.line m := rfl
@[simp] theorem State.draw_site (s : State) (j : Nat) : (s.draw).site j = s.site j := rfl
@[simp] theorem State.draw_unit (s : State) (j : Nat) : (s.draw).unit j = s.unit j := rfl
@[simp] theorem State.draw_station (s : State) (k : Nat) : (s.draw).station k = s.station k := rfl
@[simp] theorem State.draw_param (s : State) (y : ParamId) : (s.draw).param y = s.param y := rfl

/-! ## One port's record -/

/-- A notice changes the flags of a record alone. -/
theorem PortRec.raise_eq (r : PortRec) (n : Notice) : r.raise n = { r with flags := (r.raise n).flags } := by
  unfold PortRec.raise
  split <;> rfl
/-- A DISABLED port takes no notice. -/
@[simp] theorem PortRec.raise_disabled (r : PortRec) (n : Notice) (h : r.enabled = false) : r.raise n = r := by
  simp [PortRec.raise, h]
@[simp] theorem PortRec.raise_authority (r : PortRec) (n : Notice) : (r.raise n).authority = r.authority := by
  rw [PortRec.raise_eq]
@[simp] theorem PortRec.raise_liveness (r : PortRec) (n : Notice) : (r.raise n).liveness = r.liveness := by
  rw [PortRec.raise_eq]
@[simp] theorem PortRec.raise_deadline (r : PortRec) (n : Notice) : (r.raise n).deadline = r.deadline := by
  rw [PortRec.raise_eq]
@[simp] theorem PortRec.raise_silences (r : PortRec) (n : Notice) : (r.raise n).silences = r.silences := by
  rw [PortRec.raise_eq]
@[simp] theorem PortRec.raise_command (r : PortRec) (n : Notice) : (r.raise n).command = r.command := by
  rw [PortRec.raise_eq]
@[simp] theorem PortRec.raise_reply (r : PortRec) (n : Notice) : (r.raise n).reply = r.reply := by
  rw [PortRec.raise_eq]
@[simp] theorem PortRec.raise_mask (r : PortRec) (n : Notice) : (r.raise n).mask = r.mask := by
  rw [PortRec.raise_eq]
@[simp] theorem PortRec.raise_overrun (r : PortRec) (n : Notice) : (r.raise n).overrun = r.overrun := by
  rw [PortRec.raise_eq]
@[simp] theorem PortRec.raise_frameErrors (r : PortRec) (n : Notice) : (r.raise n).frameErrors = r.frameErrors := by
  rw [PortRec.raise_eq]
@[simp] theorem PortRec.raise_overruns (r : PortRec) (n : Notice) : (r.raise n).overruns = r.overruns := by
  rw [PortRec.raise_eq]
@[simp] theorem PortRec.raise_commands (r : PortRec) (n : Notice) : (r.raise n).commands = r.commands := by
  rw [PortRec.raise_eq]
@[simp] theorem PortRec.raise_shifted (r : PortRec) (n : Notice) : (r.raise n).shifted = r.shifted := by
  rw [PortRec.raise_eq]
@[simp] theorem PortRec.raise_enabled (r : PortRec) (n : Notice) : (r.raise n).enabled = r.enabled := by
  rw [PortRec.raise_eq]; rfl

/-- A notice set at an enabled port stands in its flags. -/
theorem PortRec.raise_flag (r : PortRec) (n : Notice) (h : r.enabled = true) :
    (r.raise n).flags &&& n.flag = n.flag := by
  simp only [PortRec.raise, h, if_true]
  ext i
  simp only [BitVec.getElem_and, BitVec.getElem_or]
  cases r.flags[i] <;> simp
/-- A notice never clears a flag. -/
theorem PortRec.raise_keeps (r : PortRec) (n m : Notice) (h : r.flags &&& m.flag = m.flag) :
    (r.raise n).flags &&& m.flag = m.flag := by
  unfold PortRec.raise
  split
  · ext i hi
    have hb := congrArg (fun v : BitVec 8 => v[i]) h
    simp only [BitVec.getElem_and, BitVec.getElem_or] at hb ⊢
    cases hx : r.flags[i] <;> simp_all
  · exact h

end Sys2Proof.Machine
end

