-- ==== Sys2Proof/Laws/Operands.lean ====
section
/-! SUPPORT. The operand forms read as the rules word them: ranges, the parts of a REQUEST, geometry records and the quiet
check. -/

namespace Sys2Proof.Machine

/-! ## Ranges and REQUEST (R21 to R23) -/

theorem at_eq (b : List Byte) (i : Nat) : at' b i = num b i := rfl
theorem word_eq (b : List Byte) (i : Nat) : word b i = num2 b i := rfl
theorem num_lt (b : List Byte) (i : Nat) : num b i < 256 := (b.getD i 0).isLt

theorem rangeGood_iff (n first last : Nat) : rangeGood n first last = true ↔ RangePasses n first last := by
  unfold rangeGood RangePasses Config.exitIndex
  rw [decide_eq_true_iff]
  exact Iff.rfl

theorem clampLast_eq (n last : Nat) : clampLast n last = rangeEnd n last := by
  unfold clampLast rangeEnd Config.exitIndex
  congr 1
  exact propext ⟨fun h => ⟨h.1, by omega⟩, fun h => ⟨h.1, by omega⟩⟩

theorem clampLimit_eq (v : Nat) : clampLimit v = storedLimit v := by
  unfold clampLimit storedLimit
  split
  · omega
  · split <;> omega

theorem has_eq (b : List Byte) (k : Nat) : (requestFields b).has k = carries b k := rfl

theorem partsGood_iff (b : List Byte) : (requestFields b).partsGood = true ↔ PartsPass b := by
  unfold RequestFields.partsGood PartsPass
  simp only [has_eq, Bool.and_eq_true, Bool.or_eq_true, Bool.not_eq_true', decide_eq_true_eq]
  show ((((0 < num b 3 ∧ num b 3 < 16) ∧ _) ∧ _) ∧ num b 7 ≤ 1) ↔ _
  show ((((0 < num b 3 ∧ num b 3 < 16) ∧ (_ ∨ 0 < num b 5 ∧ num b 5 < 64)) ∧ (_ ∨ 1 ≤ num b 6 ∧ num b 6 ≤ 7)) ∧
    num b 7 ≤ 1) ↔ _
  cases carries b 1 <;> cases carries b 2 <;> simp <;> omega

theorem ofRank_eq (n : Nat) : Legend.ofRank n = legends[n]? := by
  match n with
  | 0 | 1 | 2 | 3 | 4 | 5 | 6 | 7 => rfl
  | n + 8 => rfl

theorem ask_eq (n : Nat) (b : List Byte) : (requestFields b).ask n = storedAsk n b := by
  unfold RequestFields.ask storedAsk
  simp only [has_eq, clampLast_eq, clampLimit_eq, ofRank_eq]
  have h7 : (requestFields b).policySent = if num b 7 = 0 then .hold else .drop := rfl
  rw [h7]
  congr 1
  by_cases hc : carries b 1 = true <;> by_cases h : num b 7 = 0 <;> simp [hc, h]

theorem marks_eq (n : Nat) (b : List Byte) (hp : PartsPass b) : (requestFields b).marks n = clampMarks n b := by
  unfold RequestFields.marks clampMarks
  simp only [has_eq, clampLast_eq, clampLimit_eq]
  have h7 : ((requestFields b).policySent = .drop) ↔ num b 7 = 1 := by
    have h := hp.2.2.2.2
    unfold RequestFields.policySent
    show ((if num b 7 = 0 then LapsePolicy.hold else LapsePolicy.drop) = .drop) ↔ _
    split
    · rename_i h0
      simp [h0]
    · simp; omega
  simp only [h7]
  rfl

/-! ## Geometry records (R2, R3) -/

theorem yesNo_cases (n : Nat) : n = 0 ∧ yesNo n = some false ∨ n = 1 ∧ yesNo n = some true ∨ 1 < n ∧ yesNo n = none := by
  match n with
  | 0 => exact Or.inl ⟨rfl, rfl⟩
  | 1 => exact Or.inr (Or.inl ⟨rfl, rfl⟩)
  | n + 2 => exact Or.inr (Or.inr ⟨by omega, rfl⟩)

theorem ofCode_cases (n : Nat) : n = 1 ∧ LineId.ofCode n = some .one ∨ n = 2 ∧ LineId.ofCode n = some .two ∨
    n ≠ 1 ∧ n ≠ 2 ∧ LineId.ofCode n = none := by
  match n with
  | 0 => exact Or.inr (Or.inr ⟨by decide, by decide, rfl⟩)
  | 1 => exact Or.inl ⟨rfl, rfl⟩
  | 2 => exact Or.inr (Or.inl ⟨rfl, rfl⟩)
  | n + 3 => exact Or.inr (Or.inr ⟨by omega, by omega, rfl⟩)

theorem siteKindOf_cases (k r h : Nat) :
    k = 0 ∧ 1 ≤ r ∧ r ≤ 5 ∧ h ≤ 1 ∧ siteKindOf k r h = some (.gantry r (decide (h = 1))) ∨
    k = 1 ∧ r = 255 ∧ h = 255 ∧ siteKindOf k r h = some .verge ∨
    k = 2 ∧ r = 255 ∧ h = 255 ∧ siteKindOf k r h = some .message ∨
    ¬ (k = 0 ∧ 1 ≤ r ∧ r ≤ 5 ∧ h ≤ 1) ∧ ¬ (k = 1 ∧ r = 255 ∧ h = 255) ∧ ¬ (k = 2 ∧ r = 255 ∧ h = 255) ∧
      siteKindOf k r h = none := by
  match k with
  | 0 =>
    by_cases hr : 1 ≤ r ∧ r ≤ 5
    · rcases yesNo_cases h with ⟨e, y⟩ | ⟨e, y⟩ | ⟨e, y⟩
      · refine Or.inl ⟨rfl, hr.1, hr.2, by omega, ?_⟩
        simp only [siteKindOf, if_pos hr, e]; rfl
      · refine Or.inl ⟨rfl, hr.1, hr.2, by omega, ?_⟩
        simp only [siteKindOf, if_pos hr, e]; rfl
      · refine Or.inr (Or.inr (Or.inr ⟨by omega, by omega, by omega, ?_⟩))
        simp [siteKindOf, hr, y]
    · refine Or.inr (Or.inr (Or.inr ⟨by omega, by omega, by omega, ?_⟩))
      simp only [siteKindOf, if_neg hr]
  | 1 =>
    by_cases hr : r = 255 ∧ h = 255
    · exact Or.inr (Or.inl ⟨rfl, hr.1, hr.2, by simp [siteKindOf, hr]⟩)
    · refine Or.inr (Or.inr (Or.inr ⟨by omega, by omega, by omega, ?_⟩))
      simp only [siteKindOf, if_neg hr]
  | 2 =>
    by_cases hr : r = 255 ∧ h = 255
    · exact Or.inr (Or.inr (Or.inl ⟨rfl, hr.1, hr.2, by simp [siteKindOf, hr]⟩))
    · refine Or.inr (Or.inr (Or.inr ⟨by omega, by omega, by omega, ?_⟩))
      simp only [siteKindOf, if_neg hr]
  | k + 3 => exact Or.inr (Or.inr (Or.inr ⟨by omega, by omega, by omega, rfl⟩))

/-- R2: an eight-byte place is valid exactly as the rule says, and holds what the rule says. -/
theorem parseSite_spec (b : List Byte) :
    (SiteBytesGood b → (parseSite b).good = true ∧ (parseSite b).content = storedSite b) ∧
    (¬ SiteBytesGood b → parseSite b = .bad) := by
  unfold parseSite SiteBytesGood storedSite
  simp only [at_eq, word_eq]
  by_cases h0 : num b 0 = 255
  · simp [h0, Placed.good, Placed.content]
  · simp only [h0, if_false, false_or]
    rcases siteKindOf_cases (num b 0) (num b 1) (num b 2) with ⟨k, r1, r2, r3, e⟩ | ⟨k, r1, r2, e⟩ | ⟨k, r1, r2, e⟩ |
      ⟨k1, k2, k3, e⟩ <;>
    rcases yesNo_cases (num b 3) with ⟨y, f⟩ | ⟨y, f⟩ | ⟨y, f⟩ <;>
    rcases ofCode_cases (num b 6) with ⟨l, g⟩ | ⟨l, g⟩ | ⟨l1, l2, g⟩ <;>
    rw [e, f, g] <;> dsimp only
    all_goals
      by_cases hc : 100 ≤ num2 b 4 ∧ num2 b 4 ≤ 5000 ∧ 1 ≤ num b 7 ∧ num b 7 ≤ 63 <;>
      simp [*, Placed.good, Placed.content] <;> omega

theorem loop_cases (n : Nat) : n = 0 ∧ loopOfCode n = some .single ∨ n = 1 ∧ loopOfCode n = some .double ∨
    1 < n ∧ loopOfCode n = none := by
  match n with
  | 0 => exact Or.inl ⟨rfl, rfl⟩
  | 1 => exact Or.inr (Or.inl ⟨rfl, rfl⟩)
  | n + 2 => exact Or.inr (Or.inr ⟨by omega, rfl⟩)

theorem effective_cases (n : Nat) : n = 255 ∧ effectiveOf n = some 60 ∨
    n ≠ 255 ∧ 30 ≤ n ∧ n ≤ 120 ∧ effectiveOf n = some n ∨ n ≠ 255 ∧ ¬ (30 ≤ n ∧ n ≤ 120) ∧ effectiveOf n = none := by
  unfold effectiveOf
  by_cases h : n = 255
  · simp [h]
  · by_cases g : 30 ≤ n ∧ n ≤ 120
    · exact Or.inr (Or.inl ⟨h, g.1, g.2, by rw [if_neg h, if_pos g]⟩)
    · exact Or.inr (Or.inr ⟨h, g, by rw [if_neg h, if_neg g]⟩)

/-- Some bytes of a payload from one place on, each as what a function makes of it. -/
theorem map_take_drop {α : Type} (b : List Byte) (i n : Nat) (f : Byte → α) (h : i + n ≤ b.length) :
    ((b.drop i).take n).map f = (List.range n).map fun j => f (b.getD (i + j) 0) := by
  refine List.ext_getElem (by simp; omega) fun j h1 h2 => ?_
  simp only [List.length_map, List.length_range] at h2
  simp only [List.getElem_map, List.getElem_take, List.getElem_drop, List.getElem_range]
  rw [List.getD_eq_getElem?_getD, List.getElem?_eq_getElem (by omega), Option.getD_some]

theorem signedByte_eq (x : Byte) : signedByte x = if x.toNat ≤ 127 then (x.toNat : Int) else (x.toNat : Int) - 256 := by
  unfold signedByte
  by_cases h : x.toNat < 128
  · rw [if_pos h, if_pos (by omega)]
  · rw [if_neg h, if_neg (by omega)]

theorem trim_range (x : Byte) : (-7 ≤ signedByte x ∧ signedByte x ≤ 7) ↔ trimGood x.toNat = true := by
  rw [signedByte_eq]
  unfold trimGood
  rw [decide_eq_true_iff]
  have := x.isLt
  split <;> omega

theorem trim_value (x : Byte) (h : trimGood x.toNat = true) :
    signedByte x = if x.toNat ≤ 7 then (x.toNat : Int) else (x.toNat : Int) - 256 := by
  rw [signedByte_eq]
  unfold trimGood at h
  rw [decide_eq_true_iff] at h
  by_cases g : x.toNat ≤ 7
  · rw [if_pos g, if_pos (by omega)]
  · rw [if_neg g, if_neg (by omega)]

/-- R3: the trims of a station record with so many lanes. -/
theorem trims_cases (b : List Byte) (n : Nat) (h : 15 + n ≤ b.length) :
    (num b 14 = 0 ∨ num b 14 = 1 ∧ ∀ j < n, trimGood (num b (15 + j)) = true) ∧
      trimsOf (num b 14) ((b.drop 15).take n) = some ((List.range n).map fun j =>
        if num b 14 = 0 then 0 else if num b (15 + j) ≤ 7 then (num b (15 + j) : Int) else (num b (15 + j) : Int) - 256) ∨
    ¬ (num b 14 = 0 ∨ num b 14 = 1 ∧ ∀ j < n, trimGood (num b (15 + j)) = true) ∧
      trimsOf (num b 14) ((b.drop 15).take n) = none := by
  generalize hp : num b 14 = p
  match p with
  | 0 =>
    refine Or.inl ⟨Or.inl rfl, ?_⟩
    show some _ = some _
    rw [map_take_drop b 15 n _ h]
    rfl
  | 1 =>
    have hm := map_take_drop b 15 n signedByte h
    by_cases hg : ∀ j < n, trimGood (num b (15 + j)) = true
    · refine Or.inl ⟨Or.inr ⟨rfl, hg⟩, ?_⟩
      unfold trimsOf
      rw [hm, if_pos]
      · refine congrArg some (List.map_congr_left fun j hj => ?_)
        rw [List.mem_range] at hj
        rw [if_neg (by decide)]
        exact trim_value _ (hg j hj)
      · rw [List.all_eq_true]
        intro t ht
        obtain ⟨j, hj, rfl⟩ := List.mem_map.1 ht
        rw [decide_eq_true_iff]
        exact (trim_range _).2 (hg j (List.mem_range.1 hj))
    · refine Or.inr ⟨fun hc => hg (by rcases hc with hc | hc; · cases hc
                                      · exact hc.2), ?_⟩
      unfold trimsOf
      rw [hm]
      refine if_neg fun hc => ?_
      refine hg fun j hj => (trim_range _).1 ?_
      rw [List.all_eq_true] at hc
      exact of_decide_eq_true (hc _ (List.mem_map.2 ⟨j, List.mem_range.2 hj, rfl⟩))
  | p + 2 => exact Or.inr ⟨by omega, rfl⟩

/-- R3: a place of 21 bytes is valid exactly as the rule says, and holds what the rule says. -/
theorem parseStation_spec (b : List Byte) (hb : b.length = 21) :
    (StationBytesGood b → (parseStation b).good = true ∧ (parseStation b).content = storedStation b) ∧
    (¬ StationBytesGood b → parseStation b = .bad) := by
  unfold parseStation StationBytesGood storedStation
  simp only [at_eq, word_eq]
  by_cases h0 : num b 0 = 255
  · simp [h0, Placed.good, Placed.content]
  · simp only [h0, if_false, false_or]
    by_cases h6 : num b 6 ≤ 6
    · have hmt : ((b.drop 7).take (num b 6)).map (·.toNat) = (List.range (num b 6)).map fun j => num b (7 + j) :=
        map_take_drop b 7 (num b 6) _ (by omega)
      have hl : ((List.range (num b 6)).map fun j => num b (7 + j)).all (fun l => decide (l ≤ 5)) = true ↔
          ∀ j < num b 6, num b (7 + j) ≤ 5 := by
        simp [List.all_eq_true]
      simp only [hmt, hl]
      generalize (List.range (num b 6)).map (fun j => num b (7 + j)) = lanes
      rcases trims_cases b (num b 6) (by omega) with ⟨t, e⟩ | ⟨t, e⟩ <;> simp only [e]
      · generalize ((List.range (num b 6)).map fun j => if num b 14 = 0 then 0 else
          if num b (15 + j) ≤ 7 then (num b (15 + j) : Int) else (num b (15 + j) : Int) - 256) = trims
        rcases loop_cases (num b 5) with ⟨l, g⟩ | ⟨l, g⟩ | ⟨l, g⟩ <;>
        rcases ofCode_cases (num b 3) with ⟨y, f⟩ | ⟨y, f⟩ | ⟨y1, y2, f⟩ <;>
        rcases effective_cases (num b 13) with ⟨v, w⟩ | ⟨v, v1, v2, w⟩ | ⟨v, v1, w⟩ <;>
        simp only [g, f, w]
        all_goals
          by_cases hc : num b 0 ≤ 31 ∧ num2 b 1 ≤ 5000 ∧ 1 ≤ num b 4 ∧ num b 4 ≤ 63 ∧ 1 ≤ num b 6 ∧ num b 6 ≤ 6 ∧
            ∀ j < num b 6, num b (7 + j) ≤ 5
          · try rw [if_pos hc]
            refine ⟨fun hx => ?_, fun hn => ?_⟩
            · first
              | (simp [*, Placed.good, Placed.content]; done)
              | (obtain ⟨_, _, x3, _, _, x5, _, _, _, x13, _⟩ := hx; exfalso; omega)
            · first
              | trivial
              | exact absurd ⟨hc.1, hc.2.1, by omega, hc.2.2.1, hc.2.2.2.1, by omega, hc.2.2.2.2.1, hc.2.2.2.2.2.1,
                  hc.2.2.2.2.2.2, by omega, t⟩ hn
          · refine ⟨fun h => absurd ⟨h.1, h.2.1, h.2.2.2.1, h.2.2.2.2.1, h.2.2.2.2.2.2.1, h.2.2.2.2.2.2.2.1,
              h.2.2.2.2.2.2.2.2.1⟩ hc, fun _ => ?_⟩
            first
              | trivial
              | rw [if_neg hc]
      · refine ⟨fun h => absurd (by tauto) t, fun _ => ?_⟩
        split
        · rename_i h; cases h
        · rfl
    · refine ⟨fun h => absurd (by tauto) h6, fun _ => ?_⟩
      split
      · exact if_neg (by tauto)
      · rfl

/-! ## The quiet check (R166) -/

theorem quietLane_iff (d : Demand) (l : Nat) (e : LaneElem) : quietLane d l e = true ↔
    ¬ (e.value = .shows .mergeNear ∨ e.value = .shows .mergeOff ∨
      e.value = .shows .closed ∧ ¬ (l = 0 ∧ d.opening = false ∧ 0 ∉ d.closed)) := by
  unfold quietLane
  generalize e.value = v
  cases v with
  | unavailable k => simp
  | shows a => cases a <;> simp [Aspect.isMerge, and_assoc]

theorem planQuiet_iff (s : State) : s.planQuiet = true ↔
    ∀ i < s.store.siteCount, ∀ x ∈ (planSite s.evaluator.plan i).lanes,
      ¬ (x.2.value = .shows .mergeNear ∨ x.2.value = .shows .mergeOff ∨
        x.2.value = .shows .closed ∧
          ¬ (x.1 = 0 ∧ (s.table.demandOf i).opening = false ∧ 0 ∉ (s.table.demandOf i).closed)) := by
  unfold State.planQuiet
  simp only [List.all_eq_true, List.mem_range]
  exact forall_congr' fun i => forall_congr' fun _ => forall_congr' fun x => forall_congr' fun _ =>
    quietLane_iff _ x.1 x.2

end Sys2Proof.Machine
end

