-- ==== Sys2Proof/Laws/Commit.lean ====
section
/-! SUPPORT. The five checks of COMMIT and the derived geometry (R9, R10), read as the rules word them. -/

namespace Sys2Proof.Machine

/-! ## Check 1 -/

theorem isNone_false {α : Type} (x : Option α) : x.isNone = false ↔ x ≠ none := by cases x <;> simp

theorem highestUsed_fold (c : Store) (h n : Nat) (hn : ∀ i, h < i → i < n → c.site i = none)
    (hh : c.site h ≠ none ∨ h = 0) :
    (List.range n).foldl (fun m i => if (c.site i).isSome then i else m) 0 =
      if h < n then h else (List.range n).foldl (fun m i => if (c.site i).isSome then i else m) 0 := by
  induction n with
  | zero => simp
  | succ n ih =>
    by_cases hlt : h < n + 1
    · rw [if_pos hlt, List.range_succ, List.foldl_append, List.foldl_cons, List.foldl_nil]
      by_cases e : h = n
      · subst e
        rcases hh with hh | hh
        · rw [if_pos (by simpa [Option.isSome_iff_ne_none] using hh)]
        · subst hh; simp
      · have hnone : c.site n = none := hn n (by omega) (by omega)
        rw [hnone, ih fun i h1 h2 => hn i h1 (by omega)]
        simp only [Option.isSome_none, Bool.false_eq_true, if_false]
        rw [if_pos (by omega)]
    · rw [if_neg hlt]

theorem highestUsed_eq (c : Store) (h : Nat) (hlt : h < 32) (hh : c.site h ≠ none ∨ h = 0)
    (hn : ∀ i, h < i → i < 32 → c.site i = none) : c.highestUsed = h := by
  unfold Store.highestUsed
  rw [highestUsed_fold c h 32 hn hh, if_pos hlt]

/-- The first number below a bound that meets a condition. -/
theorem find_range (n : Nat) (p : Nat → Bool) :
    (∀ i, (List.range n).find? p = some i ↔ i < n ∧ p i = true ∧ ∀ j < i, p j = false) ∧
    ((List.range n).find? p = none ↔ ∀ i < n, p i = false) := by
  constructor
  · intro i
    rw [List.find?_range_eq_some]
    simp only [List.mem_range]
    constructor
    · rintro ⟨h1, h2, h3⟩; exact ⟨h2, h1, fun j hj => by simpa using h3 j hj⟩
    · rintro ⟨h1, h2, h3⟩; exact ⟨h2, h1, fun j hj => by simpa using h3 j hj⟩
  · rw [List.find?_range_eq_none]
    simp

theorem checkSites_spec (c : Store) (h : Nat) (e : c.highestUsed = h) :
    (c.checkSites = none ↔ CheckPasses c (h + 1) 1) ∧
    ∀ k i, CheckReports c (h + 1) 1 k i → ∃ r : RecordKind, r.code = k ∧ c.checkSites = some (r, i) := by
  have hm : max 1 h + 1 = max 2 (h + 1) := by omega
  have hf := find_range (max 2 (h + 1)) fun i => (c.site i).isNone
  unfold Store.checkSites
  rw [e, hm]
  constructor
  · rw [Option.map_eq_none_iff, hf.2]
    unfold CheckPasses
    simp only [isNone_false]
  · rintro k i ⟨hk, hi, hs, hj⟩
    refine ⟨.site, hk.symm, ?_⟩
    rw [(hf.1 i).2 ⟨hi, by simp [hs], fun j hlt => (isNone_false _).2 (hj j hlt)⟩]
    rfl

/-! ## Checks 2 and 4 -/

theorem hasRepeat_iff (xs : List Nat) : hasRepeat xs = false ↔ xs.Nodup := by
  induction xs with
  | nil => simp [hasRepeat]
  | cons x xs ih => simp [hasRepeat, ih]

theorem mem_lanes (n : Nat) (sh : Bool) (l : Nat) : l ∈ lanePositions n sh ↔ LanePresent n sh l := by
  unfold lanePositions LanePresent
  cases sh
  · simp only [Bool.false_eq_true, if_false, List.nil_append, List.mem_map, List.mem_range, and_false, or_false]
    exact ⟨fun ⟨a, h1, h2⟩ => by omega, fun h => ⟨l - 1, by omega, by omega⟩⟩
  · simp only [if_true, List.cons_append, List.nil_append, List.mem_cons, List.mem_map, List.mem_range, and_true]
    exact ⟨fun h => by rcases h with h | ⟨a, h1, h2⟩ <;> omega,
      fun h => by rcases h with h | h; · exact Or.inr ⟨l - 1, by omega, by omega⟩
                  · exact Or.inl h⟩

theorem lanesSuit_iff (r : SiteRecord) (lanes : List Nat) : lanesSuit r lanes = true ↔
    ∀ running shoulder, r.kind = .gantry running shoulder →
      (∀ l ∈ lanes, LanePresent running shoulder l) ∧ lanes.Nodup := by
  unfold lanesSuit
  cases hk : r.kind with
  | gantry n sh =>
    dsimp only
    rw [Bool.and_eq_true, Bool.not_eq_true', hasRepeat_iff, List.all_eq_true]
    simp only [List.contains_iff_mem, mem_lanes]
    constructor
    · intro h running shoulder e
      cases e
      exact h
    · exact fun h => h n sh rfl
  | verge => simp
  | message => simp

/-- Check 2 of one station, where its reference site has a record if it is below N. -/
theorem stationSuits_iff (c : Store) (n : Nat) (x : StationRecord) (h1 : ∀ i < n, c.site i ≠ none) :
    (decide (x.site < n) && match c.site x.site with
      | none => false
      | some r => lanesSuit r x.lanes) = true ↔ StationSuits c n x := by
  unfold StationSuits
  rw [Bool.and_eq_true, decide_eq_true_iff]
  refine and_congr_right fun hlt => ?_
  cases hs : c.site x.site with
  | none => exact absurd hs (h1 _ hlt)
  | some r =>
    refine (lanesSuit_iff r x.lanes).trans ?_
    simp

/-- The first used station that fails a condition. -/
theorem find_used (c : Store) (p : StationRecord → Bool) :
    (∀ k, (c.usedStations.find? fun x => p x.2).map (·.1) = some k ↔
      k < 16 ∧ (∃ x ∈ c.station k, p x = true) ∧ ∀ j < k, ∀ x ∈ c.station j, p x = false) ∧
    ((c.usedStations.find? fun x => p x.2).map (·.1) = none ↔ ∀ k < 16, ∀ x ∈ c.station k, p x = false) := by
  have key : (c.usedStations.find? fun x => p x.2).map (·.1) =
      (List.range 16).find? fun k => match c.station k with
        | none => false
        | some x => p x := by
    unfold Store.usedStations
    generalize List.range 16 = ks
    induction ks with
    | nil => rfl
    | cons k ks ih =>
      rw [List.filterMap_cons, List.find?_cons]
      cases hs : c.station k with
      | none => simpa using ih
      | some x =>
        simp only [Option.map_some, List.find?_cons]
        cases hp : p x
        · exact ih
        · rfl
  have hf := find_range 16 fun k => match c.station k with
        | none => false
        | some x => p x
  rw [key]
  constructor
  · intro k
    rw [hf.1 k]
    refine and_congr_right fun _ => and_congr ?_ (forall_congr' fun j => forall_congr' fun _ => ?_)
    · cases c.station k <;> simp
    · cases c.station j <;> simp
  · rw [hf.2]
    refine forall_congr' fun j => forall_congr' fun _ => ?_
    cases c.station j <;> simp

theorem checkStations_spec (c : Store) (n : Nat) (h1 : CheckPasses c n 1) :
    (c.checkStations n = none ↔ CheckPasses c n 2) ∧
    ∀ k i, CheckReports c n 2 k i → ∃ r : RecordKind, r.code = k ∧ c.checkStations n = some (r, i) := by
  have hs : ∀ i < n, c.site i ≠ none := fun i hi => h1 i (by omega)
  have hf := find_used c fun st => !(decide (st.site < n) && match c.site st.site with
      | none => false
      | some r => lanesSuit r st.lanes)
  have hneg : ∀ x, (!(decide (x.site < n) && match c.site x.site with
      | none => false
      | some r => lanesSuit r x.lanes)) = false ↔ StationSuits c n x := fun x => by
    rw [Bool.not_eq_false', stationSuits_iff c n x hs]
  have hpos : ∀ x, (!(decide (x.site < n) && match c.site x.site with
      | none => false
      | some r => lanesSuit r x.lanes)) = true ↔ ¬ StationSuits c n x := fun x => by
    rw [← hneg x, Bool.not_eq_false]
  have key : c.checkStations n = ((c.usedStations.find? fun x => !(decide (x.2.site < n) && match c.site x.2.site with
      | none => false
      | some r => lanesSuit r x.2.lanes)).map (·.1)).map fun k => (.station, k) := by
    unfold Store.checkStations
    rw [Option.map_map]
    rfl
  rw [key]
  constructor
  · rw [Option.map_eq_none_iff, hf.2]
    unfold CheckPasses
    simp only [hneg]
  · rintro k i ⟨hk, hi, ⟨x, hx, hb⟩, hj⟩
    refine ⟨.station, hk.symm, ?_⟩
    rw [(hf.1 i).2 ⟨hi, ⟨x, hx, (hpos x).2 hb⟩, fun j hlt y hy => (hneg y).2 (hj j hlt y hy)⟩]
    rfl

/-- The units of the section in the order of R10, by their places. -/
theorem unitList_eq (c : Store) (n : Nat) :
    c.unitList n = (List.range (n + 16)).filterMap fun m =>
      if m < n then (c.site m).map fun r => ⟨.sign m, r.line, r.address⟩
      else (c.station (m - n)).map fun r => ⟨.outstation (m - n), r.line, r.address⟩ := by
  unfold Store.unitList Store.usedStations
  rw [List.range_add, List.filterMap_append, List.filterMap_map]
  congr 1
  · refine List.filterMap_congr fun i hi => ?_
    rw [if_pos (List.mem_range.1 hi)]
  · rw [List.map_filterMap]
    refine List.filterMap_congr fun k hk => ?_
    simp only [Function.comp]
    rw [if_neg (by omega), show n + k - n = k by omega]
    cases c.station k <;> rfl

theorem orElse_none {α : Type} (x y : Option α) : (x <|> y) = none ↔ x = none ∧ y = none := by
  cases x <;> simp

theorem firstClash_append (seen a b : List UnitDesc) :
    firstClash seen (a ++ b) = (firstClash seen a <|> firstClash (a.reverse ++ seen) b) := by
  induction a generalizing seen with
  | nil => rfl
  | cons x a ih =>
    rw [List.cons_append]
    show (if _ then some x else firstClash (x :: seen) (a ++ b)) = ((if _ then some x else firstClash (x :: seen) a) <|> _)
    split
    · rfl
    · rw [ih, List.reverse_cons, List.append_assoc]; rfl

/-- The unit at a place in the order of R10. -/
def unitAt (c : Store) (n m : Nat) : Option UnitDesc :=
  if m < n then (c.site m).map fun r => ⟨.sign m, r.line, r.address⟩
  else (c.station (m - n)).map fun r => ⟨.outstation (m - n), r.line, r.address⟩

theorem unitPair_eq (c : Store) (n m : Nat) : unitPair c n m = (unitAt c n m).map fun u => (u.line, u.address) := by
  unfold unitPair unitAt
  split <;> rw [Option.map_map] <;> rfl

theorem unitAt_failure (c : Store) (n m : Nat) (u : UnitDesc) (h : unitAt c n m = some u) :
    u.owner.failure = if m < n then (.site, m) else (.station, m - n) := by
  unfold unitAt at h
  split at h
  · rename_i hm
    obtain ⟨r, -, rfl⟩ := Option.map_eq_some_iff.1 h
    rw [if_pos hm]; rfl
  · rename_i hm
    obtain ⟨r, -, rfl⟩ := Option.map_eq_some_iff.1 h
    rw [if_neg hm]; rfl

theorem seen_iff (c : Store) (n m : Nat) (u : UnitDesc) (hu : unitAt c n m = some u) :
    ((((List.range m).filterMap (unitAt c n)).reverse ++ []).any
      fun v => decide (v.line = u.line ∧ v.address = u.address)) = true ↔ Clashes c n m := by
  unfold Clashes
  rw [List.append_nil, List.any_reverse, List.any_eq_true]
  simp only [List.mem_filterMap, List.mem_range, decide_eq_true_eq, unitPair_eq, hu, Option.map_some, ne_eq,
    reduceCtorEq, not_false_eq_true, true_and, Option.map_eq_some_iff, Prod.mk.injEq]
  constructor
  · rintro ⟨v, ⟨j, hj, hv⟩, h⟩
    exact ⟨j, hj, v, hv, h⟩
  · rintro ⟨j, hj, v, hv, h⟩
    exact ⟨v, ⟨j, hj, hv⟩, h⟩

theorem firstClash_none (c : Store) (n m : Nat) :
    firstClash [] ((List.range m).filterMap (unitAt c n)) = none ↔ ∀ j < m, ¬ Clashes c n j := by
  induction m with
  | zero => simp [firstClash]
  | succ m ih =>
    rw [List.range_succ, List.filterMap_append, firstClash_append, orElse_none, ih]
    have hs : firstClash (((List.range m).filterMap (unitAt c n)).reverse ++ []) ([m].filterMap (unitAt c n)) = none ↔
        ¬ Clashes c n m := by
      cases hu : unitAt c n m with
      | none =>
        simp only [List.filterMap_cons, hu, List.filterMap_nil, firstClash, true_iff]
        rintro ⟨h, -⟩
        rw [unitPair_eq, hu] at h
        exact h rfl
      | some u =>
        simp only [List.filterMap_cons, hu, List.filterMap_nil, firstClash]
        rw [← seen_iff c n m u hu]
        split
        · rename_i h; exact ⟨fun x => (nomatch x), fun x => absurd h x⟩
        · rename_i h; exact ⟨fun _ => h, fun _ => rfl⟩
    rw [hs]
    exact ⟨fun h j hj => by
      rcases Nat.lt_succ_iff_lt_or_eq.1 hj with h1 | h1
      · exact h.1 j h1
      · exact h1 ▸ h.2, fun h => ⟨fun j hj => h j (by omega), h m (by omega)⟩⟩

theorem firstClash_some (c : Store) (n m k : Nat) (hk : m < k) (hm : Clashes c n m) (hj : ∀ j < m, ¬ Clashes c n j) :
    firstClash [] ((List.range k).filterMap (unitAt c n)) = unitAt c n m := by
  obtain ⟨d, rfl⟩ : ∃ d, k = m + (1 + d) := ⟨k - m - 1, by omega⟩
  rw [List.range_add, List.filterMap_append, firstClash_append, (firstClash_none c n m).2 hj,
    Nat.add_comm 1 d, List.range_succ_eq_map, List.map_cons, List.filterMap_cons]
  cases hu : unitAt c n m with
  | none =>
    have h := hm.1
    rw [unitPair_eq, hu] at h
    exact absurd rfl h
  | some u =>
    show (if _ then some u else firstClash _ _) = some u
    exact if_pos ((seen_iff c n m u hu).2 hm)

theorem checkUnits_spec (c : Store) (n : Nat) :
    (c.checkUnits n = none ↔ CheckPasses c n 4) ∧
    ∀ k i, CheckReports c n 4 k i → ∃ r : RecordKind, r.code = k ∧ c.checkUnits n = some (r, i) := by
  have key : c.checkUnits n = (firstClash [] ((List.range (n + 16)).filterMap (unitAt c n))).map
      fun u => u.owner.failure := by
    unfold Store.checkUnits
    rw [unitList_eq]
    rfl
  rw [key]
  constructor
  · rw [Option.map_eq_none_iff, firstClash_none]; rfl
  · rintro k i ⟨m, hm, hc, hj, hk, hi⟩
    rw [firstClash_some c n m _ hm hc hj]
    cases hu : unitAt c n m with
    | none =>
      have h := hc.1
      rw [unitPair_eq, hu] at h
      exact absurd rfl h
    | some u =>
      rw [Option.map_some, unitAt_failure c n m u hu]
      by_cases hlt : m < n
      · rw [if_pos hlt] at hk hi ⊢
        exact ⟨.site, hk.symm, by rw [hi]⟩
      · rw [if_neg hlt] at hk hi ⊢
        exact ⟨.station, hk.symm, by rw [hi]⟩

/-! ## Checks 3 and 5, and the five in their order -/

theorem checkBoundary_spec (c : Store) (n : Nat) :
    (c.checkBoundary = none ↔ CheckPasses c n 3) ∧
    ∀ k i, CheckReports c n 3 k i → ∃ r : RecordKind, r.code = k ∧ c.checkBoundary = some (r, i) := by
  unfold Store.checkBoundary CheckPasses
  constructor
  · cases c.boundary <;> simp
  · rintro k i ⟨hk, hi, hb⟩
    exact ⟨.boundary, hk.symm, by rw [hb, hi]; rfl⟩

theorem checkParams_spec (c : Store) (n : Nat) :
    (c.checkParams = none ↔ CheckPasses c n 5) ∧
    ∀ k i, CheckReports c n 5 k i → ∃ r : RecordKind, r.code = k ∧ c.checkParams = some (r, i) := by
  have hb : brokenConstraint c.params = (constraints.find? fun x =>
      decide (paramValue c.params x.greater < paramValue c.params x.lesser + x.margin)).map (·.reported) := by
    unfold brokenConstraint
    congr 2
    funext x
    unfold Constraint.holds
    simp only [← decide_not, Nat.not_le]
  unfold Store.checkParams CheckPasses
  rw [hb]
  constructor
  · rw [Option.map_eq_none_iff, Option.map_eq_none_iff, List.find?_eq_none]
    simp
  · rintro k i ⟨hk, x, hx, hi⟩
    exact ⟨.parameter, hk.symm, by rw [hx, hi]; rfl⟩

/-- R9: a store whose five checks pass is sound; otherwise the first check that fails reports its record. -/
theorem validate_spec (c : Store) (h : Nat) (e : c.highestUsed = h) :
    ((∀ j, 1 ≤ j → j ≤ 5 → CheckPasses c (h + 1) j) → c.validate = none) ∧
    ∀ check k i, 1 ≤ check → check ≤ 5 → (∀ j, 1 ≤ j → j < check → CheckPasses c (h + 1) j) →
      CheckReports c (h + 1) check k i → ∃ r : RecordKind, r.code = k ∧ c.validate = some (r, i) := by
  have s1 := checkSites_spec c h e
  have s3 := checkBoundary_spec c (h + 1)
  have s4 := checkUnits_spec c (h + 1)
  have s5 := checkParams_spec c (h + 1)
  unfold Store.validate
  rw [e]
  dsimp only
  constructor
  · intro p
    have p1 := p 1 (by omega) (by omega)
    rw [s1.1.2 p1, (checkStations_spec c _ p1).1.2 (p 2 (by omega) (by omega)), s3.1.2 (p 3 (by omega) (by omega)),
      s4.1.2 (p 4 (by omega) (by omega)), s5.1.2 (p 5 (by omega) (by omega))]
    rfl
  · intro check k i h1 h5 p r
    match check with
    | 1 =>
      obtain ⟨x, hx, hv⟩ := s1.2 k i r
      exact ⟨x, hx, by rw [hv]; rfl⟩
    | 2 =>
      have p1 := p 1 (by omega) (by omega)
      obtain ⟨x, hx, hv⟩ := (checkStations_spec c _ p1).2 k i r
      exact ⟨x, hx, by rw [s1.1.2 p1, hv]; rfl⟩
    | 3 =>
      have p1 := p 1 (by omega) (by omega)
      obtain ⟨x, hx, hv⟩ := s3.2 k i r
      exact ⟨x, hx, by rw [s1.1.2 p1, (checkStations_spec c _ p1).1.2 (p 2 (by omega) (by omega)), hv]; rfl⟩
    | 4 =>
      have p1 := p 1 (by omega) (by omega)
      obtain ⟨x, hx, hv⟩ := s4.2 k i r
      exact ⟨x, hx, by
        rw [s1.1.2 p1, (checkStations_spec c _ p1).1.2 (p 2 (by omega) (by omega)), s3.1.2 (p 3 (by omega) (by omega)),
          hv]
        rfl⟩
    | 5 =>
      have p1 := p 1 (by omega) (by omega)
      obtain ⟨x, hx, hv⟩ := s5.2 k i r
      exact ⟨x, hx, by
        rw [s1.1.2 p1, (checkStations_spec c _ p1).1.2 (p 2 (by omega) (by omega)), s3.1.2 (p 3 (by omega) (by omega)),
          s4.1.2 (p 4 (by omega) (by omega)), hv]
        rfl⟩

/-! ## Derived geometry (R10) -/

theorem position_succ (c : Store) (i : Nat) : c.position (i + 1) = c.position i + c.gap i := by
  unfold Store.position
  rw [List.range_succ, List.map_append, List.sum_append]
  simp

/-- R10: a store whose checks pass derives the geometry of its records. -/
theorem derive_spec (c : Store) (h : Nat) (e : c.highestUsed = h) (p2 : CheckPasses c (h + 1) 2) :
    DerivedGeometry c (h + 1) c.derive := by
  have hp : ∀ i ≤ h + 1, c.derive.positions.getD i 0 = c.position i := by
    intro i hi
    unfold Store.derive
    rw [e]
    dsimp only
    rw [List.getD_eq_getElem?_getD, List.getElem?_map, List.getElem?_range (by omega)]
    rfl
  constructor
  · unfold Store.derive; rw [e]
  · unfold Store.derive; rw [e]; simp
  · rw [hp 0 (by omega)]; rfl
  · intro i hi r hr
    rw [hp (i + 1) (by omega), hp i (by omega), position_succ]
    unfold Store.gap
    rw [Option.mem_def] at hr
    rw [hr]
  · intro k hk
    have hpos : ∀ x ∈ c.station k, c.derive.positions.getD x.site 0 = c.position x.site := fun x hx =>
      hp _ (by have := (p2 k hk x hx).1; omega)
    have hl : c.derive.stationPositions = (List.range 16).filterMap fun k => (c.station k).map fun r =>
        (k, c.position r.site + r.offset) := by
      unfold Store.derive Store.usedStations
      dsimp only
      rw [List.map_filterMap]
      refine List.filterMap_congr fun k _ => ?_
      cases c.station k <;> rfl
    have hf : ∀ ks : List Nat, (ks.filterMap fun k => (c.station k).map fun r =>
        (k, c.position r.site + r.offset)).lookup k =
        if k ∈ ks then (c.station k).map fun r => c.position r.site + r.offset else none := by
      intro ks
      induction ks with
      | nil => rfl
      | cons j ks ih =>
        rw [List.filterMap_cons]
        cases hs : c.station j with
        | none =>
          simp only [Option.map_none]
          rw [ih]
          by_cases hj : k = j
          · subst hj; simp [hs]
          · simp [hj]
        | some r =>
          simp only [Option.map_some, List.lookup_cons]
          by_cases hj : k = j
          · subst hj; simp [hs]
          · rw [beq_eq_false_iff_ne.2 hj, ih]
            simp [hj]
    rw [hl, hf, if_pos (List.mem_range.2 hk)]
    cases hs : c.station k with
    | none => rfl
    | some x =>
      simp only [Option.map_some]
      rw [hpos x (by rw [hs]; rfl)]
  · unfold Store.derive Store.unitList Store.usedStations
    rw [e]
    dsimp only
    congr 1
    rw [List.map_filterMap]
    refine List.filterMap_congr fun k _ => ?_
    cases c.station k <;> rfl

end Sys2Proof.Machine
end

