-- ==== Sys2Proof/Laws/Table.lean ====
section
/-! SUPPORT. What a change of the request table can do: the table, its demand summary, and the evaluator's pending flag. -/

namespace Sys2Proof.Machine

/-- A change of the table, with the demand derived once (R35), written out: the demand of the new entries, and the pending
flag raised where a demand the evaluator reads changed. -/
theorem changeTable_eq (s : State) (t : Table) :
    let d := s.store.spots.map (demandAt s.ports t.entries)
    let changed := decide (d.map Demand.read ≠ t.demand.map Demand.read)
    s.changeTable t = { s with
      table := { t with demand := d }
      evaluator := { s.evaluator with pending := s.evaluator.pending || changed } } := by
  unfold State.changeTable State.deriveDemand State.summary
  dsimp only
  split
  · rename_i h
    simp only [h, ne_eq, not_true_eq_false, decide_false, Bool.or_false]
  · rename_i h
    simp only [ne_eq, h, not_false_eq_true, decide_true, Bool.or_true, State.markPending]

/-- A change of the table changes the table, the pending flag and nothing else. -/
theorem changeTable_onlyTable (s : State) (t : Table) : OnlyTable s (s.changeTable t) := by
  rw [changeTable_eq]; rfl

@[simp] theorem changeTable_entries (s : State) (t : Table) : (s.changeTable t).table.entries = t.entries := by
  rw [changeTable_eq]

@[simp] theorem changeTable_nextArrival (s : State) (t : Table) :
    (s.changeTable t).table.nextArrival = t.nextArrival := by
  rw [changeTable_eq]

@[simp] theorem changeTable_port (s : State) (t : Table) (p : Port) : (s.changeTable t).port p = s.port p := by
  rw [changeTable_eq]; rfl

@[simp] theorem changeTable_stations (s : State) (t : Table) : (s.changeTable t).stations = s.stations := by
  rw [changeTable_eq]

@[simp] theorem changeTable_inSlot (s : State) (t : Table) (k : Nat) :
    (s.changeTable t).table.inSlot k = t.inSlot k := by
  rw [changeTable_eq]; rfl

/-- After a change that keeps the old demand in the table it is given, the demand follows the entries (R35). -/
theorem changeTable_demandFollows (s : State) (t : Table) (h : t.demand = s.table.demand) :
    DemandFollows s (s.changeTable t) := by
  rw [changeTable_eq]
  exact ⟨rfl, by rw [h]⟩

/-- What the demand depends on of the ports is their authority alone (R39). -/
theorem demandAt_authority {a b : PerPort PortRec} (h : ∀ p, (a.get p).authority = (b.get p).authority)
    (entries : List Entry) (spot : Spot) : demandAt a entries spot = demandAt b entries spot := by
  have ht : tieRank a = tieRank b := by
    funext r
    cases r <;> simp [tieRank, h]
  have hb : betterSupplier a = betterSupplier b := by
    funext best e
    unfold betterSupplier
    rw [ht]
  unfold demandAt
  rw [hb]

/-- R28: an image handed for a station, or ABSENT, changes the entry in the station's own slot alone. -/
theorem hand_inSlot (t u : Table) (k : Nat) (m : Option QpImage) (h : t.hand k m = some u) (j : Nat)
    (hj : j ≠ qpSlot k) : u.inSlot j = t.inSlot j := by
  have keep : ∀ xs : List Entry, (xs.filter fun e => decide (e.slot ≠ qpSlot k)).find? (fun e => decide (e.slot = j)) =
      xs.find? fun e => decide (e.slot = j) := by
    intro xs
    rw [List.find?_filter]
    congr 1
    funext e
    by_cases hs : e.slot = j <;> simp [hs, hj]
  have stored : ∀ e : Entry, e.slot = qpSlot k → (t.store e).inSlot j = t.inSlot j := by
    intro e he
    unfold Table.store Table.inSlot
    rw [List.find?_append, he, keep]
    simp [Ne.symm hj]
  have removed : (t.remove fun e => decide (e.slot = qpSlot k)).inSlot j = t.inSlot j := by
    unfold Table.remove Table.inSlot
    rw [← keep t.entries]
    congr 1
    refine List.filter_congr fun e _ => ?_
    by_cases hs : e.slot = qpSlot k <;> simp [hs]
  unfold Table.hand at h
  split at h
  · cases h
  · cases h; exact removed
  · cases h; exact stored _ rfl
  · split at h
    · cases h
    · cases h; exact stored _ rfl

/-- R28: an image handed for a station, or ABSENT, leaves the entries of the port pool in their order. -/
theorem hand_pool (t u : Table) (k : Nat) (m : Option QpImage) (h : t.hand k m = some u) :
    u.entries.filter (fun e => decide (e.slot < 48)) = t.entries.filter fun e => decide (e.slot < 48) := by
  have keep : (t.entries.filter fun e => decide (e.slot ≠ qpSlot k)).filter (fun e => decide (e.slot < 48)) =
      t.entries.filter fun e => decide (e.slot < 48) := by
    rw [List.filter_filter]
    refine List.filter_congr fun e _ => ?_
    by_cases hs : e.slot < 48
    · have : e.slot ≠ qpSlot k := by unfold qpSlot Config.poolSlots; omega
      simp [hs, this]
    · simp [hs]
  have stored : ∀ e : Entry, e.slot = qpSlot k → (t.store e).entries.filter (fun e => decide (e.slot < 48)) =
      t.entries.filter fun e => decide (e.slot < 48) := by
    intro e he
    unfold Table.store
    dsimp only
    rw [he, List.filter_append, keep]
    have : ¬ qpSlot k < 48 := by unfold qpSlot Config.poolSlots; omega
    simp [this]
  have removed : (t.remove fun e => decide (e.slot = qpSlot k)).entries.filter (fun e => decide (e.slot < 48)) =
      t.entries.filter fun e => decide (e.slot < 48) := by
    unfold Table.remove
    dsimp only
    rw [← keep]
    congr 1
    refine List.filter_congr fun e _ => ?_
    by_cases hs : e.slot = qpSlot k <;> simp [hs]
  unfold Table.hand at h
  split at h
  · cases h
  · cases h; exact removed
  · cases h; exact stored _ rfl
  · split at h
    · cases h
    · cases h; exact stored _ rfl

/-- After any change of the table its demand is the one of its entries (R35). -/
theorem changeTable_derived (s : State) (t : Table) : DemandDerived (s.changeTable t) := by
  rw [changeTable_eq]
  rfl

/-- Ports that agree in authority agree in the demand of the same entries (R39). -/
theorem demandDerived_ports {s : State} {ports : PerPort PortRec}
    (h : ∀ p, (ports.get p).authority = (s.port p).authority) (hd : DemandDerived s) :
    DemandDerived { s with ports := ports } := by
  unfold DemandDerived at hd ⊢
  rw [hd]
  exact List.map_congr_left fun x _ => (demandAt_authority h _ x).symm

/-- A demand derived before a handing of queue protection follows the entries after it (R35, R104). -/
theorem handQp_demandFollows (s : State) (k : Nat) (m : Option QpImage) (h : DemandDerived s) :
    DemandFollows s (s.handQp k m) := by
  have same : ∀ t : Table, s.table.hand k m = some t → t.demand = s.table.demand := by
    intro t ht
    unfold Table.hand at ht
    repeat' split at ht
    all_goals cases ht
    all_goals rfl
  unfold State.handQp
  split
  · exact ⟨h, by simp⟩
  · exact changeTable_demandFollows _ _ (same _ ‹_›)

/-- The handing of queue protection changes the table and the pending flag alone (R28, R104). -/
theorem handQp_onlyTable (s : State) (k : Nat) (m : Option QpImage) : OnlyTable s (s.handQp k m) := by
  unfold State.handQp
  split
  · rfl
  · exact changeTable_onlyTable _ _

end Sys2Proof.Machine
end

