-- ==== Sys2Proof/Laws/Handing.lean ====
section
/-! SUPPORT. What the handings between the blocks of the field side can do, once for each shared operation: every one
changes only what `FieldSide` allows, and of a line only its SET queue. -/

namespace Sys2Proof.Machine

/-! ## The two frames together -/

/-- What a handing leaves: `FieldSide`, and of the lines all but their SET queues. -/
structure Handing (s t : State) : Prop where
  side : FieldSide s t
  queues : QueuesOnly s t

/-- Nothing is a handing. -/
theorem FieldSide.refl (s : State) : FieldSide s s := by
  constructor <;> first | exact Or.inl ⟨rfl, rfl⟩ | exact id | (intros; rfl)

/-- One after the other. -/
theorem FieldSide.trans {s t u : State} (h : FieldSide s t) (g : FieldSide t u) : FieldSide s u where
  now := g.now.trans h.now
  phase := g.phase.trans h.phase
  cause := g.cause.trans h.cause
  store := g.store.trans h.store
  drawn := g.drawn.trans h.drawn
  pending := g.pending.trans h.pending
  mode := by
    rcases h.mode with ⟨h1, h2⟩ | ⟨h1, h2, h3⟩ <;> rcases g.mode with ⟨g1, g2⟩ | ⟨g1, g2, g3⟩
    · exact Or.inl ⟨g1.trans h1, g2.trans h2⟩
    · exact Or.inr ⟨h2 ▸ g1, g2, g3⟩
    · exact Or.inr ⟨h1, g2.trans h2, g1.trans h3⟩
    · exact Or.inr ⟨h1, g2, g3⟩
  entries := g.entries.trans h.entries
  derived := g.derived ∘ h.derived
  plan := g.plan.trans h.plan
  epoch := g.epoch.trans h.epoch
  running := g.running.trans h.running
  holdSeen := g.holdSeen.trans h.holdSeen
  ports p := by
    have h1 := h.ports p
    have h2 := g.ports p
    rw [h1] at h2
    exact h2
  disabled p hp := by
    have h1 := h.disabled p hp
    rw [← h1] at hp
    exact (g.disabled p hp).trans h1
  slots := g.slots.trans h.slots

theorem QueuesOnly.refl (s : State) : QueuesOnly s s := fun _ => ⟨rfl, rfl⟩

theorem QueuesOnly.trans {s t u : State} (h : QueuesOnly s t) (g : QueuesOnly t u) : QueuesOnly s u := fun l => by
  obtain ⟨h1, h2⟩ := h l
  obtain ⟨g1, g2⟩ := g l
  rw [h1] at g1
  exact ⟨g1, g2.trans h2⟩

/-- The same lines. -/
theorem QueuesOnly.of_lines {s t : State} (h : t.lines = s.lines) : QueuesOnly s t := fun l => by
  have e : t.line l = s.line l := by unfold State.line; rw [h]
  rw [e]
  exact ⟨rfl, rfl⟩

theorem Handing.refl (s : State) : Handing s s := ⟨.refl s, .refl s⟩

theorem Handing.trans {s t u : State} (h : Handing s t) (g : Handing t u) : Handing s u :=
  ⟨h.side.trans g.side, h.queues.trans g.queues⟩

/-- A state that differs from another in what the evaluator has been told, the units, the delivery records under the same
target and the stations' records alone, each station in its slot, is reached by a handing. -/
theorem Handing.of_eq {s t : State} {av : List (List ElemId)} {pe : Bool} {st : List Station} {us : List UnitRec}
    {d : Delivery} (hs : st.map (·.slot) = s.stations.map (·.slot)) (h : t = { s with
      evaluator := { s.evaluator with available := av, pending := pe }, stations := st
      units := us, delivery := d })
    (ht : d.target = s.delivery.target) : Handing s t := by
  subst h
  exact ⟨by constructor <;> first | exact hs | exact Or.inl ⟨rfl, ht⟩ | exact id | (intros; rfl), .of_lines rfl⟩

/-- A change made for every element of a list is a handing when each is. -/
theorem Handing.foldl {α : Type} (xs : List α) (f : α → State → State) (h : ∀ x t, Handing t (f x t)) (s : State) :
    Handing s (xs.foldl (fun t x => f x t) s) := by
  induction xs generalizing s with
  | nil => exact .refl s
  | cons x xs ih => exact (h x s).trans (ih (f x s))

/-! ## Plain updates -/

theorem notifyAll_handing (s : State) (n : Notice) : Handing s (s.notifyAll n) := by
  refine ⟨?_, .of_lines rfl⟩
  constructor <;> first | exact Or.inl ⟨rfl, rfl⟩ | (intros; rfl) | skip
  · exact demandDerived_ports fun p => by
      show ((s.notifyAll n).port p).authority = _
      rw [State.notifyAll_port, PortRec.raise_authority]
  · intro p
    rw [State.notifyAll_port]
    exact PortRec.raise_eq _ _
  · intro p h
    rw [State.notifyAll_port]
    exact PortRec.raise_disabled _ _ h

/-- A line's queue replaced by one with the same commands in progress. -/
theorem setQueue_handing (s : State) (l : LineId) (q : List SetCommand)
    (h : q.filter (·.inProgress) = (s.line l).queue.filter (·.inProgress)) :
    Handing s (s.setLine l { s.line l with queue := q }) := by
  refine ⟨by constructor <;> first | exact Or.inl ⟨rfl, rfl⟩ | exact id | (intros; rfl), fun m => ?_⟩
  rw [State.setLine_line]
  split
  · subst_vars; exact ⟨rfl, h⟩
  · exact ⟨rfl, rfl⟩

theorem modifySite_handing (s : State) (i : Nat) (f : DeliverySite → DeliverySite) : Handing s (s.modifySite i f) := by
  unfold State.modifySite
  split
  · exact .refl s
  · exact .of_eq rfl rfl rfl

theorem mapSites_handing (s : State) (f : Nat → DeliverySite → DeliverySite) : Handing s (s.mapSites f) :=
  .of_eq rfl rfl rfl

theorem forSites_handing (s : State) (f : Nat → State → State) (h : ∀ i t, Handing t (f i t)) :
    Handing s (s.forSites f) := .foldl _ f h s

theorem forUnits_handing (s : State) (f : Nat → State → State) (h : ∀ i t, Handing t (f i t)) :
    Handing s (s.forUnits f) := .foldl _ f h s

theorem setStation_handing (s : State) (x : Station) : Handing s (s.setStation x) := by
  refine .of_eq (st := s.stations.map fun y => if y.slot = x.slot then x else y) ?_ rfl rfl
  rw [List.map_map]
  refine List.map_congr_left fun y _ => ?_
  simp only [Function.comp]
  split <;> simp_all

theorem withDelivery_handing (s : State) (d : Delivery) (h : d.target = s.delivery.target) :
    Handing s { s with delivery := d } := .of_eq rfl rfl h

theorem withDelivery_queues (s : State) (d : Delivery) : QueuesOnly s { s with delivery := d } := .of_lines rfl

@[simp] theorem Delivery.drift_target (d : Delivery) : d.drift.target = d.target := rfl

/-! ## The request table and queue protection -/

theorem handQp_handing (s : State) (k : Nat) (m : Option QpImage) : Handing s (s.handQp k m) := by
  unfold State.handQp
  split
  · exact .refl s
  · rename_i u h
    have e := changeTable_derived s u
    have f := changeTable_entries s u
    revert e f
    rw [changeTable_eq]
    intro e f
    refine ⟨?_, .of_lines rfl⟩
    constructor <;> first | exact Or.inl ⟨rfl, rfl⟩ | exact fun _ => e | (intros; rfl) | skip
    exact hand_pool _ u _ _ h

theorem handStation_handing (s : State) (k : Nat) : Handing s (s.handStation k) := by
  unfold State.handStation
  split
  · exact .refl s
  · exact (setStation_handing _ _).trans (handQp_handing _ _ _)

theorem noticeStation_handing (s : State) (a b : StationState) : Handing s (s.noticeStation a b) := by
  unfold State.noticeStation
  split
  · exact .refl s
  · exact notifyAll_handing _ _

theorem dataReply_handing (s : State) (k : Nat) (d : DataReply) (u : UnitState) (r : Bool) :
    Handing s (s.dataReply k d u r) := by
  unfold State.dataReply
  split
  · split
    · exact setStation_handing _ _
    · split
      · exact setStation_handing _ _
      · split
        · exact setStation_handing _ _
        · dsimp only
          split
          · exact setStation_handing _ _
          · exact ((setStation_handing _ _).trans (noticeStation_handing _ _ _)).trans (handStation_handing _ _)
  · exact .refl s

theorem stationUnitChanged_handing (s : State) (k : Nat) (a b : UnitState) :
    Handing s (s.stationUnitChanged k a b) := by
  unfold State.stationUnitChanged
  split
  · exact .refl s
  · split
    · split
      · exact setStation_handing _ _
      · exact .refl s
    · exact .refl s
    · dsimp only
      split
      · exact (setStation_handing _ _).trans (noticeStation_handing _ _ _)
      · exact ((setStation_handing _ _).trans (noticeStation_handing _ _ _)).trans (handStation_handing _ _)

/-! ## The unit table -/

theorem storeUnit_handing (s : State) (i : Nat) (u : UnitRec) : Handing s (s.storeUnit i u) := by
  unfold State.storeUnit
  dsimp only
  split
  · split
    · exact .of_eq rfl rfl rfl
    · exact .of_eq (av := (s.evaluator.hear _ u.judged.availableElements).available) (pe := true) rfl rfl rfl
  · exact .of_eq rfl rfl rfl

theorem reportMismatch_handing (s : State) (i : Nat) (es : List ElemId) : Handing s (s.reportMismatch i es) := by
  unfold State.reportMismatch
  split
  · dsimp only
    split
    · exact storeUnit_handing _ _ _
    · exact (storeUnit_handing _ _ _).trans (notifyAll_handing _ _)
  · exact .refl s

theorem noticeUnit_handing (s : State) (b : Bool) : Handing s (s.noticeUnit b) := by
  unfold State.noticeUnit
  split
  · exact notifyAll_handing _ _
  · exact .refl s

/-! ## Delivery -/

/-- A command placed in a line's queue leaves the rest of the line. -/
theorem LineRec.enqueue_eq (r : LineRec) (c : SetCommand) : r.enqueue c = { r with queue := (r.enqueue c).queue } := by
  unfold LineRec.enqueue
  split <;> rfl

/-- A command placed in a line's queue replaces none in progress (R120). -/
theorem LineRec.enqueue_inProgress (r : LineRec) (c : SetCommand) (h : c.inProgress = false) :
    (r.enqueue c).queue.filter (·.inProgress) = r.queue.filter (·.inProgress) := by
  unfold LineRec.enqueue
  split
  · dsimp only
    generalize r.queue = xs
    induction xs with
    | nil => rfl
    | cons x xs ih =>
      rw [List.map_cons, List.filter_cons, List.filter_cons, ih]
      by_cases hx : (decide (x.site = c.site) && !x.inProgress) = true
      · have hp : x.inProgress = false := by simp at hx; exact hx.2
        rw [if_pos hx, h, hp]
        rfl
      · rw [if_neg hx]
  · simp [List.filter_append, h]

/-- A command withdrawn from a line's queue is none in progress (R120). -/
theorem LineRec.unqueue_inProgress (r : LineRec) (i : Nat) :
    (r.unqueue i).queue.filter (·.inProgress) = r.queue.filter (·.inProgress) := by
  unfold LineRec.unqueue
  dsimp only
  rw [List.filter_filter]
  refine List.filter_congr fun x _ => ?_
  cases x.inProgress <;> simp

theorem enqueue_handing (s : State) (l : LineId) (c : SetCommand) (h : c.inProgress = false) :
    Handing s (s.setLine l ((s.line l).enqueue c)) := by
  have e := LineRec.enqueue_inProgress (s.line l) c h
  rw [LineRec.enqueue_eq]
  exact setQueue_handing _ _ _ e

theorem withdraw_handing (s : State) (i : Nat) : Handing s (s.withdraw i) := by
  unfold State.withdraw
  split
  · exact .refl s
  · exact (setQueue_handing _ _ _ (LineRec.unqueue_inProgress _ _)).trans (modifySite_handing _ _ _)

theorem withdrawKind_handing (s : State) (i : Nat) (k : PartKind) : Handing s (s.withdrawKind i k) := by
  unfold State.withdrawKind
  split
  · exact .refl s
  · split
    · exact withdraw_handing _ _
    · exact .refl s

theorem abandon_handing (s : State) (i : Nat) (k : PartKind) (p : Part) (es : List ElemId) :
    Handing s (s.abandon i k p es) := by
  unfold State.abandon
  exact (modifySite_handing _ _ _).trans (withDelivery_handing _ _ (by rfl))

theorem reformKind_handing (s : State) (i : Nat) (k : PartKind) : Handing s (s.reformKind i k) := by
  unfold State.reformKind
  split
  · exact .refl s
  · dsimp only
    repeat' split
    · exact (withdrawKind_handing _ _ _).trans (modifySite_handing _ _ _)
    · exact modifySite_handing _ _ _
    · exact (withdrawKind_handing _ _ _).trans (abandon_handing _ _ _ _ _)
    · exact (enqueue_handing _ _ _ rfl).trans (modifySite_handing _ _ _)
    · exact (withdrawKind_handing _ _ _).trans (modifySite_handing _ _ _)

theorem reform_handing (s : State) (i : Nat) : Handing s (s.reform i) := by
  unfold State.reform
  split
  · split
    · exact (reformKind_handing _ _ _).trans (reformKind_handing _ _ _)
    · exact reformKind_handing _ _ _
  · exact .refl s

theorem recheck_handing (s : State) (i : Nat) : Handing s (s.recheck i) := by
  unfold State.recheck
  split
  · exact .refl s
  · split
    · exact .refl s
    · exact withdraw_handing _ _

theorem releasePart_handing (s : State) (i : Nat) (k : PartKind) : Handing s (s.releasePart i k) := by
  unfold State.releasePart
  split
  · exact .refl s
  · split
    · exact .refl s
    · split
      · exact (enqueue_handing _ _ _ rfl).trans (modifySite_handing _ _ _)
      · exact .refl s

theorem judgeReleases_handing (s : State) : Handing s s.judgeReleases :=
  (forSites_handing _ _ fun i t => recheck_handing t i).trans
    (forSites_handing _ _ fun i t => ((releasePart_handing t i .tightening).trans (releasePart_handing _ i .relaxing)).trans
      (releasePart_handing _ i .darkening))

theorem clearParts_handing (s : State) : Handing s s.clearParts :=
  (forSites_handing _ _ fun i t => withdraw_handing t i).trans (mapSites_handing _ _)

theorem wantPlan_handing (s : State) : Handing s s.wantPlan := mapSites_handing _ _

/-- R157 and R167: from a dark target the mode becomes SHADOW. -/
theorem enterShadow_handing (s : State) (h : s.delivery.target = .dark) : Handing s s.enterShadow := by
  have g := ((notifyAll_handing { s with mode := .shadow } .mode).trans (clearParts_handing _)).trans (wantPlan_handing _)
  have m : s.enterShadow.mode = .shadow := by
    rcases g.side.mode with ⟨h1, -⟩ | ⟨-, -, h1⟩ <;> exact h1
  exact ⟨⟨g.side.now, g.side.phase, g.side.cause, g.side.store, g.side.drawn, g.side.pending, Or.inr ⟨h, rfl, m⟩,
    g.side.entries, g.side.derived, g.side.plan, g.side.epoch, g.side.running, g.side.holdSeen, g.side.ports,
    g.side.disabled, g.side.slots⟩, g.queues⟩

theorem judgeCompletion_handing (s : State) : Handing s s.judgeCompletion := by
  unfold State.judgeCompletion
  split
  · dsimp only
    split
    · exact (withDelivery_handing _ _ (by rfl)).trans (notifyAll_handing _ _)
    · exact ((withDelivery_handing _ _ (by rfl)).trans (notifyAll_handing _ _)).trans (enterShadow_handing _ (by assumption))
  · exact .refl s

theorem settleDelivery_handing (s : State) : Handing s s.settleDelivery :=
  (judgeReleases_handing _).trans (judgeCompletion_handing _)

theorem confirmKind_handing (s : State) (i : Nat) (k : PartKind) : Handing s (s.confirmKind i k) := by
  unfold State.confirmKind
  split
  · exact .refl s
  · split
    · exact .refl s
    · split
      · exact (withdrawKind_handing _ _ _).trans (modifySite_handing _ _ _)
      · exact .refl s

theorem confirm_handing (s : State) (i : Nat) : Handing s (s.confirm i) :=
  ((confirmKind_handing _ _ _).trans (confirmKind_handing _ _ _)).trans (confirmKind_handing _ _ _)

theorem readback_handing (s : State) (i : Nat) (r : StateReply) (a b : Bool) : Handing s (s.readback i r a b) := by
  have first : Handing s (s.takeReadback i r) := modifySite_handing _ _ _
  unfold State.readback
  dsimp only
  split
  · exact ((((first.trans (modifySite_handing _ _ _)).trans (confirm_handing _ _)).trans
      (settleDelivery_handing _)).trans (reform_handing _ _)).trans (settleDelivery_handing _)
  · have second := (first.trans (confirm_handing _ i)).trans (settleDelivery_handing _)
    split
    · exact ((second.trans (withDelivery_handing _ _ (Delivery.drift_target _))).trans (reform_handing _ _)).trans (settleDelivery_handing _)
    · exact second

theorem setStarted_handing (s : State) (c : SetCommand) : Handing s (s.setStarted c) :=
  (modifySite_handing _ _ _).trans (settleDelivery_handing _)

theorem endPart_handing (s : State) (i : Nat) (k : PartKind) (b : Bool) : Handing s (s.endPart i k b) := by
  unfold State.endPart
  split
  · exact .refl s
  · split
    · exact .refl s
    · split
      · exact .refl s
      · split
        · exact modifySite_handing _ _ _
        · split
          · exact modifySite_handing _ _ _
          · exact (reportMismatch_handing _ _ _).trans (abandon_handing _ _ _ _ _)

theorem reformIfDiffering_handing (s : State) (i : Nat) : Handing s (s.reformIfDiffering i) := by
  unfold State.reformIfDiffering
  split
  · exact .refl s
  · split
    · exact reform_handing _ _
    · exact .refl s

theorem setEnded_handing (s : State) (c : SetCommand) (b : Bool) : Handing s (s.setEnded c b) := by
  unfold State.setEnded
  split
  · exact .refl s
  · split
    · exact (((modifySite_handing _ _ _).trans (endPart_handing _ _ _ _)).trans (reformIfDiffering_handing _ _)).trans
        (settleDelivery_handing _)
    · exact settleDelivery_handing _

theorem abandonKind_handing (s : State) (i : Nat) (k : PartKind) : Handing s (s.abandonKind i k) := by
  unfold State.abandonKind
  split
  · exact .refl s
  · split
    · exact .refl s
    · split
      · exact abandon_handing _ _ _ _ _
      · exact .refl s

theorem unitLost_handing (s : State) (i : Nat) : Handing s (s.unitLost i) :=
  (((withdraw_handing _ _).trans (abandonKind_handing _ _ _)).trans (abandonKind_handing _ _ _)).trans
    (abandonKind_handing _ _ _)

theorem takeEpoch_handing (s : State) : Handing s s.takeEpoch := by
  unfold State.takeEpoch
  split
  · exact .refl s
  · have first := (wantPlan_handing s).trans (withDelivery_handing s.wantPlan { s.wantPlan.delivery with
      epoch := s.wantPlan.evaluator.epoch, abandoned := 0 } rfl)
    dsimp only
    split
    · exact ((first.trans (withDelivery_handing _ _ (by rfl))).trans (forSites_handing _ _ fun i t => reform_handing t i)).trans
        (settleDelivery_handing _)
    · exact first

/-! ## Nothing of the lines but the SET queues -/

/-- The dark target taken (R158). -/
theorem formDark_queues (s : State) : QueuesOnly s s.formDark :=
  ((((clearParts_handing s).queues.trans (mapSites_handing _ _).queues).trans (withDelivery_queues _ _)).trans
    (forSites_handing _ _ fun i t => reform_handing t i).queues).trans (judgeReleases_handing _).queues

/-- The change to DARKENING, or at once to SHADOW (R166, R167). -/
theorem goDark_queues (s : State) : QueuesOnly s s.goDark :=
  ((QueuesOnly.of_lines (s := s) (t := s.changeMode .darkening) rfl).trans (formDark_queues _)).trans
    (judgeCompletion_handing _).queues

/-- A plan published (R56, R155). -/
theorem publish_queues (s : State) (plan : List PlanSite) : QueuesOnly s (s.publish plan) :=
  (QueuesOnly.of_lines (s := s) rfl).trans (takeEpoch_handing _).queues

/-! ## What the field lines hand the unit table -/

theorem unitChanged_handing (s : State) (o : UnitOwner) (a b : UnitState) : Handing s (s.unitChanged o a b) := by
  unfold State.unitChanged
  split
  · exact .refl s
  · split
    · split
      · exact unitLost_handing _ _
      · exact .refl s
    · exact stationUnitChanged_handing _ _ _ _

theorem handOn_handing (s : State) (o : UnitOwner) (st : UnitState) (r : FieldReply) (a b : Bool) :
    Handing s (s.handOn o st r a b) := by
  unfold State.handOn
  split
  · exact readback_handing _ _ _ _ _
  · exact dataReply_handing _ _ _ _ _
  · exact .refl s

theorem goodReply_handing (s : State) (i : Nat) (r : FieldReply) (b : Bool) : Handing s (s.goodReply i r b) := by
  unfold State.goodReply
  split
  · exact .refl s
  · exact (((storeUnit_handing _ _ _).trans (unitChanged_handing _ _ _ _)).trans (handOn_handing _ _ _ _ _ _)).trans
      (noticeUnit_handing _ _)

theorem unitMissed_handing (s : State) (i : Nat) : Handing s (s.unitMissed i) := by
  unfold State.unitMissed
  split
  · exact .refl s
  · exact (((storeUnit_handing _ _ _).trans (unitChanged_handing _ _ _ _)).trans (settleDelivery_handing _)).trans
      (noticeUnit_handing _ _)

theorem reportLine_handing (s : State) (l : LineId) (f : UnitRec → UnitRec) : Handing s (s.reportLine l f) := by
  unfold State.reportLine
  refine Handing.trans (Handing.trans (Handing.trans (forUnits_handing s _ fun i t => ?_)
    (forUnits_handing _ _ fun i t => ?_)) (settleDelivery_handing _)) (noticeUnit_handing _ _)
  · split
    · exact .refl t
    · split
      · exact storeUnit_handing _ _ _
      · exact .refl t
  · split
    · exact unitChanged_handing _ _ _ _
    · exact .refl t

theorem reportEnd_handing (s : State) (c : Option SetCommand) (b : Bool) : Handing s (s.reportEnd c b) := by
  unfold State.reportEnd
  split
  · exact .refl s
  · exact setEnded_handing _ _ _

end Sys2Proof.Machine
end

