-- ==== Sys2Proof/Laws/Pass.lean ====
section
/-! SUPPORT. What a pass makes of its inputs over a whole section: the plan meets R64 to R81 as `PassRules` states them. -/

namespace Sys2Proof.Machine

/-! ## Lists keyed by lane or element -/

theorem lookup_map_key {α β : Type} [DecidableEq α] (xs : List α) (f : α → β) (k : α) :
    (xs.map fun l => (l, f l)).lookup k = if k ∈ xs then some (f k) else none := by
  induction xs with
  | nil => rfl
  | cons x xs ih =>
    rw [List.map_cons, List.lookup_cons, ih]
    by_cases h : k = x
    · subst h; simp
    · have hb : (k == x) = false := by simpa using h
      simp [hb, h]

theorem lookup_map_snd {β γ : Type} (xs : List (Nat × β)) (f : Nat → β → γ) (k : Nat) :
    (xs.map fun x => (x.1, f x.1 x.2)).lookup k = (xs.lookup k).map (f k) := by
  induction xs with
  | nil => rfl
  | cons x xs ih =>
    obtain ⟨a, b⟩ := x
    rw [List.map_cons, List.lookup_cons, List.lookup_cons, ih]
    by_cases h : k = a
    · subst h; simp
    · have hb : (k == a) = false := by simpa using h
      simp [hb]

theorem mem_of_lookup {β : Type} {xs : List (Nat × β)} {k : Nat} {v : β} (h : xs.lookup k = some v) : (k, v) ∈ xs := by
  induction xs with
  | nil => cases h
  | cons x xs ih =>
    obtain ⟨a, b⟩ := x
    rw [List.lookup_cons] at h
    by_cases hk : k = a
    · subst hk; simp at h; simp [h]
    · have hb : (k == a) = false := by simpa using hk
      rw [hb] at h
      exact List.mem_cons_of_mem _ (ih h)

theorem lookup_of_mem {β : Type} {xs : List (Nat × β)} {k : Nat} {v : β} (h : (k, v) ∈ xs)
    (hu : ∀ w, (k, w) ∈ xs → w = v) : xs.lookup k = some v := by
  cases hl : xs.lookup k with
  | some w => rw [hu w (mem_of_lookup hl)]
  | none =>
    exfalso
    induction xs with
    | nil => cases h
    | cons x xs ih =>
      obtain ⟨a, b⟩ := x
      rw [List.lookup_cons] at hl
      by_cases hk : k = a
      · subst hk; simp at hl
      · have hb : (k == a) = false := by simpa using hk
        rw [hb] at hl
        rcases List.mem_cons.1 h with h | h
        · cases h; exact hk rfl
        · exact ih h (fun w hw => hu w (List.mem_cons_of_mem _ hw)) hl

/-! ## Positions of lanes -/

theorem mem_lanePositions (running : Nat) (shoulder : Bool) (l : Nat) :
    l ∈ lanePositions running shoulder ↔ LanePresent running shoulder l := by
  unfold lanePositions LanePresent
  rw [List.mem_append, List.mem_map]
  constructor
  · rintro (h | ⟨k, hk, rfl⟩)
    · split at h
      · right; exact ⟨by simpa using h, ‹_›⟩
      · cases h
    · left; rw [List.mem_range] at hk; omega
  · rintro (h | ⟨rfl, hs⟩)
    · right; exact ⟨l - 1, by rw [List.mem_range]; omega, by omega⟩
    · left; simp [hs]

theorem lanePositions_nodup (running : Nat) (shoulder : Bool) : (lanePositions running shoulder).Nodup := by
  unfold lanePositions
  rw [List.nodup_append]
  refine ⟨by split <;> simp, (List.nodup_range).map (fun a b h => by simpa using h), ?_⟩
  intro a ha b hb
  rw [List.mem_map] at hb
  obtain ⟨k, _, rfl⟩ := hb
  split at ha
  · simp at ha; omega
  · cases ha

theorem mem_positions (k : SiteKind) (l : Nat) : l ∈ k.positions ↔ k.Present l := by
  cases k with
  | gantry n s => exact mem_lanePositions n s l
  | verge => simp [SiteKind.positions, SiteKind.Present]
  | message => simp [SiteKind.positions, SiteKind.Present]

theorem positions_nodup (k : SiteKind) : k.positions.Nodup := by
  cases k with
  | gantry n s => exact lanePositions_nodup n s
  | verge => exact List.nodup_nil
  | message => exact List.nodup_nil

/-! ## Demand, arrows and limits -/

theorem demandAspect_closed (d : Demand) (l : Nat) : demandAspect d l = .closed ↔ ClosedDemand d l := by
  unfold demandAspect ClosedDemand
  split <;> rename_i h <;> simp at h ⊢ <;> tauto

theorem demandAspect_opened (d : Demand) (l : Nat) (h : ¬ ClosedDemand d l) : demandAspect d l = .opened := by
  rw [← demandAspect_closed] at h
  unfold demandAspect at h ⊢
  split <;> simp_all

theorem foldl_nearest (l : Nat) (xs : List Nat) (b : Option Nat) :
    xs.foldl (fun best m =>
      let dist := if m < l then l - m else m - l
      match best with
      | none => some dist
      | some b => some (min b dist)) b =
    xs.foldl (fun best m => some (match best with
      | none => (m - l) + (l - m)
      | some b => min b ((m - l) + (l - m)))) b := by
  congr 1
  funext best m
  have : (if m < l then l - m else m - l) = (m - l) + (l - m) := by split <;> omega
  rw [this]
  cases best <;> rfl

/-- The nearest of some lanes is a least distance. -/
theorem nearest_spec (l : Nat) (xs : List Nat) : (nearest l xs = none → xs = []) ∧ ∀ d, nearest l xs = some d →
    (∃ m ∈ xs, d = (m - l) + (l - m)) ∧ ∀ m ∈ xs, d ≤ (m - l) + (l - m) := by
  have e : nearest l xs = xs.foldl (fun best m => some (match best with
      | none => (m - l) + (l - m)
      | some b => min b ((m - l) + (l - m)))) none := foldl_nearest l xs none
  rw [e]
  have gen : ∀ (xs : List Nat) (b : Nat), ∃ d, xs.foldl (fun best m => some (match best with
      | none => (m - l) + (l - m)
      | some b => min b ((m - l) + (l - m)))) (some b) = some d ∧
      (d = b ∨ ∃ m ∈ xs, d = (m - l) + (l - m)) ∧ d ≤ b ∧ ∀ m ∈ xs, d ≤ (m - l) + (l - m) := by
    intro xs
    induction xs with
    | nil => intro b; exact ⟨b, rfl, Or.inl rfl, le_refl _, fun m h => by cases h⟩
    | cons x xs ih =>
      intro b
      obtain ⟨d, h1, h2, h3, h4⟩ := ih (min b ((x - l) + (l - x)))
      refine ⟨d, h1, ?_, by omega, ?_⟩
      · rcases h2 with h | ⟨m, hm, h⟩
        · by_cases hb : b ≤ (x - l) + (l - x)
          · left; omega
          · right; exact ⟨x, by simp, by omega⟩
        · right; exact ⟨m, by simp [hm], h⟩
      · intro m hm
        rcases List.mem_cons.1 hm with rfl | hm
        · omega
        · exact h4 m hm
  cases xs with
  | nil => exact ⟨fun _ => rfl, fun d h => by cases h⟩
  | cons x xs =>
    obtain ⟨d, h1, h2, h3, h4⟩ := gen xs ((x - l) + (l - x))
    rw [List.foldl_cons]
    dsimp only
    rw [h1]
    refine ⟨fun h => (nomatch h), fun d' hd => ?_⟩
    cases hd
    refine ⟨?_, ?_⟩
    · rcases h2 with h | ⟨m, hm, h⟩
      · exact ⟨x, by simp, h⟩
      · exact ⟨m, by simp [hm], h⟩
    · intro m hm
      rcases List.mem_cons.1 hm with rfl | hm
      · exact h3
      · exact h4 m hm

/-- R71: which way a duty points, from the nearest lanes not closed on each side. -/
theorem pointsNear_spec (l : Nat) (xs : List Nat) :
    ((∃ m ∈ xs, m < l ∧ ∀ k ∈ xs, l < k → l - m < k - l) → pointsNear l xs = true) ∧
    ((∃ k ∈ xs, l < k ∧ ∀ m ∈ xs, m < l → k - l < l - m) → pointsNear l xs = false) ∧
    ((∃ d, 0 < d ∧ d ≤ l ∧ l - d ∈ xs ∧ l + d ∈ xs ∧ ∀ j ∈ xs, d ≤ (j - l) + (l - j)) → pointsNear l xs =
      decide ((xs.filter fun m => decide (l < m)).length < (xs.filter fun m => decide (m < l)).length)) := by
  have hnear := nearest_spec l (xs.filter fun m => decide (m < l))
  have hoff := nearest_spec l (xs.filter fun m => decide (l < m))
  have mn : ∀ m, m ∈ xs.filter (fun m => decide (m < l)) ↔ m ∈ xs ∧ m < l := by
    intro m; rw [List.mem_filter]; simp
  have mo : ∀ m, m ∈ xs.filter (fun m => decide (l < m)) ↔ m ∈ xs ∧ l < m := by
    intro m; rw [List.mem_filter]; simp
  unfold pointsNear
  dsimp only
  cases h1 : nearest l (xs.filter fun m => decide (m < l)) with
  | none =>
    have none_near : ∀ m, m ∈ xs → ¬ m < l := by
      intro m hm hlt
      have := (mn m).2 ⟨hm, hlt⟩
      rw [hnear.1 h1] at this; cases this
    refine ⟨?_, fun _ => rfl, ?_⟩
    · rintro ⟨m, ho, hm, _⟩; exact absurd hm (none_near m ho)
    · rintro ⟨d, h0, hd, ho, _⟩; exact absurd (by omega) (none_near _ ho)
  | some x =>
    obtain ⟨⟨m0, hm0, hx0⟩, hxmin⟩ := hnear.2 _ h1
    rw [mn] at hm0
    cases h2 : nearest l (xs.filter fun m => decide (l < m)) with
    | none =>
      have none_off : ∀ m, m ∈ xs → ¬ l < m := by
        intro m hm hlt
        have := (mo m).2 ⟨hm, hlt⟩
        rw [hoff.1 h2] at this; cases this
      refine ⟨fun _ => rfl, ?_, ?_⟩
      · rintro ⟨m, ho, hm, _⟩; exact absurd hm (none_off m ho)
      · rintro ⟨d, h0, hd, _, ho, _⟩; exact absurd (by omega) (none_off _ ho)
    | some y =>
      obtain ⟨⟨k0, hk0, hy0⟩, hymin⟩ := hoff.2 _ h2
      rw [mo] at hk0
      have lx : ∀ m, m ∈ xs → m < l → x ≤ l - m := by
        intro m h hm; have := hxmin m ((mn m).2 ⟨h, hm⟩); omega
      have ly : ∀ m, m ∈ xs → l < m → y ≤ m - l := by
        intro m h hm; have := hymin m ((mo m).2 ⟨h, hm⟩); omega
      dsimp only
      refine ⟨?_, ?_, ?_⟩
      · rintro ⟨m, ho, hm, hall⟩
        have a := hall k0 hk0.1 hk0.2
        have b := lx m ho hm
        rw [if_neg (by omega)]
        simp; omega
      · rintro ⟨k, ho, hk, hall⟩
        have a := hall m0 hm0.1 hm0.2
        have b := ly k ho hk
        rw [if_neg (by omega)]
        simp; omega
      · rintro ⟨d, h0, hd, ha, hb, hall⟩
        have a := lx _ ha (by omega)
        have b := ly _ hb (by omega)
        have c := hall m0 hm0.1
        have e := hall k0 hk0.1
        rw [if_pos (by omega)]

/-- R71: the arrow from the lanes not closed at the origin, as any list of them with each once. -/
theorem pointsNear_arrow (plan : List PlanSite) (o l : Nat) (xs : List Nat)
    (hx : ∀ m, m ∈ xs ↔ OpenAt plan o m) (hc : ∀ f : Nat → Bool, (xs.filter f).length = openCount plan o f) :
    Arrow plan o l (if pointsNear l xs then .mergeNear else .mergeOff) := by
  obtain ⟨h1, h2, h3⟩ := pointsNear_spec l xs
  constructor
  · rintro ⟨m, hm, ho, hall⟩
    rw [if_pos (h1 ⟨m, (hx m).2 ho, hm, fun k hk hl => hall k hl ((hx k).1 hk)⟩)]
  · rintro ⟨k, hk, ho, hall⟩
    rw [h2 ⟨k, (hx k).2 ho, hk, fun m hm hl => hall m hl ((hx m).1 hm)⟩]; rfl
  · rintro ⟨d, h0, hd, ha, hb, hall⟩
    rw [h3 ⟨d, h0, hd, (hx _).2 ha, (hx _).2 hb, fun j hj => hall j ((hx j).1 hj)⟩, hc, hc]
    simp

/-! ## The course of a pass -/

/-- What a pass carries upstream of the sites from k on. -/
def passCarry (c : Store) (p : Pass) (k : Nat) : Carry :=
  ((List.range' k (c.siteCount - k)).filterMap fun i => (c.site i).map fun r => (i, r)).foldr
    (fun x carry => settleSite p x.1 x.2 carry) (settleExit c.siteCount c.boundary p)

/-- The record of a site as a pass settles it, before its lanes are marked UNPROTECTED. -/
def settledSite (p : Pass) (i : Nat) (r : SiteRecord) (c : Carry) : PlanSite :=
  (settleSite p i r c).settled.headD .empty

/-- EXIT's record as a pass settles it. -/
def settledExit (c : Store) (p : Pass) : PlanSite := (settleExit c.siteCount c.boundary p).settled.headD .empty

/-- The lanes a pass leaves UNPROTECTED. -/
def passMarks (c : Store) (p : Pass) : List (Nat × Nat) :=
  (passCarry c p 0).unprotected ++ (passCarry c p 0).duties.map fun x => (x.2.origin, x.1)

theorem passCarry_end (c : Store) (p : Pass) : passCarry c p c.siteCount = settleExit c.siteCount c.boundary p := by
  simp [passCarry]

theorem passCarry_step (c : Store) (p : Pass) (k : Nat) (r : SiteRecord) (hk : k < c.siteCount)
    (hr : c.site k = some r) : passCarry c p k = settleSite p k r (passCarry c p (k + 1)) := by
  unfold passCarry
  obtain ⟨m, hm⟩ : ∃ m, c.siteCount - k = m + 1 := ⟨c.siteCount - k - 1, by omega⟩
  rw [hm, List.range'_succ, List.filterMap_cons, hr, show c.siteCount - (k + 1) = m by omega]
  rfl

theorem settled_step (p : Pass) (i : Nat) (r : SiteRecord) (c : Carry) :
    (settleSite p i r c).settled = settledSite p i r c :: c.settled := rfl

theorem runPass_eq (c : Store) (p : Pass) :
    runPass c p = (passCarry c p 0).settled.mapIdx (markUnprotected (passMarks c p)) := by
  unfold runPass passMarks passCarry Store.configured
  rw [List.range_eq_range', Nat.sub_zero]

/-- The records a pass has settled from site k on. -/
theorem passCarry_settled (c : Store) (hw : c.Whole) (p : Pass) (m : Nat) : ∀ k, k + m = c.siteCount → ∀ j,
    (passCarry c p k).settled[j]? =
      if k + j < c.siteCount then (c.site (k + j)).map fun r => settledSite p (k + j) r (passCarry c p (k + j + 1))
      else if k + j = c.siteCount then some (settledExit c p) else none := by
  induction m with
  | zero =>
    intro k hk j
    have hk' : k = c.siteCount := by omega
    subst hk'
    rw [passCarry_end, if_neg (by omega)]
    have hs : (settleExit c.siteCount c.boundary p).settled = [settledExit c p] := rfl
    rw [hs]
    cases j with
    | zero => simp
    | succ j => simp
  | succ m ih =>
    intro k hk j
    obtain ⟨r, hr⟩ := Option.ne_none_iff_exists'.1 (hw.2.1 k (by omega))
    rw [passCarry_step c p k r (by omega) hr, settled_step]
    cases j with
    | zero => simp [hr, show k < c.siteCount by omega]
    | succ j =>
      rw [List.getElem?_cons_succ, ih (k + 1) (by omega) j]
      simp only [show k + 1 + j = k + (j + 1) by omega]

/-- The record of a site in the plan a pass ends with. -/
theorem planSite_runPass (c : Store) (hw : c.Whole) (p : Pass) (i : Nat) (hi : i < c.siteCount) (r : SiteRecord)
    (hr : c.site i = some r) : planSite (runPass c p) i =
      markUnprotected (passMarks c p) i (settledSite p i r (passCarry c p (i + 1))) := by
  unfold planSite
  rw [runPass_eq, List.getD_eq_getElem?_getD, List.getElem?_mapIdx, passCarry_settled c hw p c.siteCount 0 (by omega)]
  simp [hi, hr]

/-- EXIT's record in the plan a pass ends with. -/
theorem planSite_runPass_exit (c : Store) (hw : c.Whole) (p : Pass) : planSite (runPass c p) c.siteCount =
      markUnprotected (passMarks c p) c.siteCount (settledExit c p) := by
  unfold planSite
  rw [runPass_eq, List.getD_eq_getElem?_getD, List.getElem?_mapIdx, passCarry_settled c hw p c.siteCount 0 (by omega)]
  simp

/-- Beyond EXIT a plan has no record. -/
theorem planSite_runPass_beyond (c : Store) (hw : c.Whole) (p : Pass) (i : Nat) (hi : c.siteCount < i) :
    planSite (runPass c p) i = .empty := by
  unfold planSite
  rw [runPass_eq, List.getD_eq_getElem?_getD, List.getElem?_mapIdx, passCarry_settled c hw p c.siteCount 0 (by omega)]
  rw [if_neg (by omega), if_neg (by omega)]
  rfl

theorem runPass_length (c : Store) (hw : c.Whole) (p : Pass) : (runPass c p).length = c.siteCount + 1 := by
  rw [runPass_eq, List.length_mapIdx]
  have h : ∀ m k, k + m = c.siteCount → (passCarry c p k).settled.length = m + 1 := by
    intro m
    induction m with
    | zero => intro k hk; have : k = c.siteCount := by omega
              subst this; rw [passCarry_end]; rfl
    | succ m ih =>
      intro k hk
      obtain ⟨r, hr⟩ := Option.ne_none_iff_exists'.1 (hw.2.1 k (by omega))
      rw [passCarry_step c p k r (by omega) hr, settled_step, List.length_cons, ih (k + 1) (by omega)]
  exact h _ 0 (by omega)

@[simp] theorem markUnprotected_limit (m : List (Nat × Nat)) (i : Nat) (x : PlanSite) :
    (markUnprotected m i x).limit = x.limit := rfl
@[simp] theorem markUnprotected_legend (m : List (Nat × Nat)) (i : Nat) (x : PlanSite) :
    (markUnprotected m i x).legend = x.legend := rfl
theorem markUnprotected_lane (m : List (Nat × Nat)) (i : Nat) (x : PlanSite) (l : Nat) :
    (markUnprotected m i x).lane l = (x.lane l).map fun e => { e with unprotected := decide ((i, l) ∈ m) } :=
  lookup_map_snd x.lanes (fun l (e : LaneElem) => ({ e with unprotected := decide ((i, l) ∈ m) } : LaneElem)) l
theorem markUnprotected_lanes_nil (m : List (Nat × Nat)) (i : Nat) (x : PlanSite) :
    (markUnprotected m i x).lanes = [] ↔ x.lanes = [] := by
  unfold markUnprotected; simp

/-! ## One site -/

/-- The lane of a site as its duties leave it. -/
def workLane (p : Pass) (i : Nat) (duties : List (Nat × Duty)) (l : Nat) : LaneWork :=
  (startLane (p.demandAt i) (p.available.getD i []) (planSite p.plan i) p.time l).afterDuty duties

theorem startLane_position (d : Demand) (a : List ElemId) (x : PlanSite) (t l : Nat) :
    (startLane d a x t l).position = l := by
  unfold startLane; dsimp only; split <;> rfl

theorem afterDuty_position (ds : List (Nat × Duty)) (w : LaneWork) : (w.afterDuty ds).position = w.position := by
  unfold LaneWork.afterDuty; repeat' split
  all_goals rfl

theorem workLane_position (p : Pass) (i : Nat) (ds : List (Nat × Duty)) (l : Nat) : (workLane p i ds l).position = l := by
  unfold workLane; rw [afterDuty_position, startLane_position]

theorem settledSite_lanes (p : Pass) (i : Nat) (r : SiteRecord) (c : Carry) : (settledSite p i r c).lanes =
    r.kind.positions.map fun l => (l, (finishLane p (planSite p.plan i) (workLane p i c.duties l)).2) := by
  show (((r.kind.positions.map (startLane _ _ _ _)).map (LaneWork.afterDuty c.duties)).map (finishLane p _)) = _
  rw [List.map_map, List.map_map]
  refine List.map_congr_left fun l _ => ?_
  show finishLane p _ (workLane p i c.duties l) = _
  unfold finishLane
  rw [workLane_position]

theorem settledSite_lane (p : Pass) (i : Nat) (r : SiteRecord) (c : Carry) (l : Nat) : (settledSite p i r c).lane l =
    if l ∈ r.kind.positions then some (finishLane p (planSite p.plan i) (workLane p i c.duties l)).2 else none := by
  unfold PlanSite.lane; rw [settledSite_lanes, lookup_map_key]

theorem settledExit_lanes (c : Store) (p : Pass) : (settledExit c p).lanes =
    ((c.boundary.map (·.positions)).getD []).map fun l =>
      (l, LaneElem.fresh (.shows (demandAspect (p.demandAt c.siteCount) l))) := by
  show ((List.map (fun l => (⟨l, _, false, false⟩ : LaneWork)) _).map fun w => (w.position, LaneElem.fresh w.value)) = _
  rw [List.map_map]; rfl

theorem settledExit_lane (c : Store) (p : Pass) (l : Nat) : (settledExit c p).lane l =
    if l ∈ (c.boundary.map (·.positions)).getD [] then
      some (LaneElem.fresh (.shows (demandAspect (p.demandAt c.siteCount) l))) else none := by
  unfold PlanSite.lane; rw [settledExit_lanes, lookup_map_key]

/-! ## One lane -/

theorem outOfHold_iff (deadline : Option Nat) (time : Nat) : outOfHold deadline time = true ↔ ¬ InHold time deadline := by
  unfold outOfHold InHold
  cases deadline <;> simp

/-- R66: an unavailable lane before its duties are met. -/
theorem startLane_dark (d : Demand) (a : List ElemId) (x : PlanSite) (t l : Nat) (h : ElemId.lane l ∉ a) :
    ∃ k : Bool, startLane d a x t l = ⟨l, .unavailable k, false, false⟩ ∧ (k = true ↔ ClosedDemand d l) := by
  unfold startLane
  dsimp only
  rw [if_neg (by simpa using h)]
  exact ⟨_, rfl, by rw [decide_eq_true_iff, demandAspect_closed]⟩

/-- R66: an available lane before its duties are met: the aspect it shows. -/
theorem startLane_lit (d : Demand) (a : List ElemId) (x : PlanSite) (t l : Nat) (h : ElemId.lane l ∈ a) :
    ∃ b held, startLane d a x t l = ⟨l, .shows b, held, false⟩ ∧
      (b = .closed ↔ ClosedDemand d l ∨ ∃ q, x.lane l = some q ∧ q.value = .shows .closed ∧ InHold t q.deadline) ∧
      (b ≠ .closed →
        (∀ q c, x.lane l = some q → q.value = .shows c → (c = .mergeNear ∨ c = .mergeOff) → InHold t q.deadline →
          b = c) ∧
        (¬ (∃ q, x.lane l = some q ∧ InHold t q.deadline ∧
          (q.value = .shows .mergeNear ∨ q.value = .shows .mergeOff)) → b = .opened)) := by
  unfold startLane
  dsimp only
  rw [if_pos (by simpa using h)]
  refine ⟨_, _, rfl, ?_⟩
  unfold laneCandidate
  cases hx : x.lane l with
  | none =>
    simp only [Option.getD_none, LaneElem.fresh]
    refine ⟨by rw [demandAspect_closed]; simp, fun hb => ⟨by simp, fun _ => ?_⟩⟩
    exact demandAspect_opened d l (by rwa [← demandAspect_closed])
  | some q =>
    simp only [Option.getD_some]
    cases hv : q.value with
    | unavailable k =>
      dsimp only
      refine ⟨by rw [demandAspect_closed]; simp [hv], fun hb => ⟨fun q' c' hq hv' => ?_, fun _ => ?_⟩⟩
      · cases hq; rw [hv] at hv'; cases hv'
      · exact demandAspect_opened d l (by rwa [← demandAspect_closed])
    | shows c =>
      dsimp only
      by_cases hc : ClosedDemand d l
      · have e := (demandAspect_closed d l).2 hc
        rw [e, if_pos (by cases c <;> decide)]
        exact ⟨by simp [hc], fun hb => absurd rfl hb⟩
      · have e := demandAspect_opened d l hc
        rw [e]
        have own : ∀ (P : LaneElem → Prop), (∃ q', some q = some q' ∧ P q') ↔ P q :=
          fun P => ⟨fun ⟨q', e, hp⟩ => by cases e; exact hp, fun hp => ⟨q, rfl, hp⟩⟩
        by_cases hh : InHold t q.deadline
        · rw [if_neg (c := outOfHold q.deadline t = true) (by rw [outOfHold_iff]; simpa using hh)]
          refine ⟨by rw [own]; cases c <;> simp [Aspect.weight, hc, hv, hh], fun _ => ⟨fun q' c' hq hv' hm _ => ?_, ?_⟩⟩
          · cases hq
            rw [hv] at hv'
            cases hv'
            rcases hm with rfl | rfl <;> rfl
          · rw [own]; cases c <;> simp_all [Aspect.weight]
        · rw [if_pos (c := outOfHold q.deadline t = true) ((outOfHold_iff _ _).2 hh)]
          refine ⟨by rw [own]; cases c <;> simp [Aspect.weight, hc, hv, hh], fun _ => ⟨fun q' c' hq hv' _ hh' => ?_, ?_⟩⟩
          · cases hq; exact absurd hh' hh
          · intro _; cases c <;> rfl

/-- R66: whether an available lane's relaxation is held, and then it shows what it showed. -/
theorem startLane_held (d : Demand) (a : List ElemId) (x : PlanSite) (t l : Nat) (b : Aspect) (held : Bool)
    (h : ElemId.lane l ∈ a) (he : startLane d a x t l = ⟨l, .shows b, held, false⟩) :
    held = true ↔ ¬ ClosedDemand d l ∧ ∃ q, x.lane l = some q ∧ q.value = .shows b ∧
      (b = .closed ∨ b = .mergeNear ∨ b = .mergeOff) ∧ InHold t q.deadline := by
  unfold startLane at he
  dsimp only at he
  rw [if_pos (by simpa using h)] at he
  unfold laneCandidate at he
  cases hx : x.lane l with
  | none =>
    simp only [hx, Option.getD_none, LaneElem.fresh, LaneWork.mk.injEq] at he
    simp [← he.2.2.1]
  | some q =>
    simp only [hx, Option.getD_some] at he
    cases hv : q.value with
    | unavailable k =>
      simp only [hv, LaneWork.mk.injEq] at he
      simp [← he.2.2.1, hv]
    | shows c =>
      simp only [hv] at he
      by_cases hc : ClosedDemand d l
      · rw [(demandAspect_closed d l).2 hc, if_pos (by cases c <;> decide)] at he
        simp only [LaneWork.mk.injEq] at he
        simp [← he.2.2.1, hc]
      · rw [demandAspect_opened d l hc] at he
        by_cases hh : InHold t q.deadline
        · rw [if_neg (c := outOfHold q.deadline t = true) (by rw [outOfHold_iff]; simpa using hh)] at he
          cases c <;> simp [Aspect.weight] at he <;> simp [← he.1, ← he.2, hc, hv, hh]
        · rw [if_pos (c := outOfHold q.deadline t = true) ((outOfHold_iff _ _).2 hh), ite_self] at he
          simp only [LaneWork.mk.injEq] at he
          rw [← he.2.2.1]
          constructor
          · intro h; cases h
          · rintro ⟨-, q', hq, -, -, hh'⟩; cases hq; exact absurd hh' hh

/-- A duty met leaves what is unavailable and what is closed. -/
theorem afterDuty_spec (ds : List (Nat × Duty)) (w : LaneWork) (hw : w.displaced = false) :
    (w.afterDuty ds).held = w.held ∧
    (∀ k, w.value = .unavailable k → (w.afterDuty ds).value = .unavailable k) ∧
    (w.value = .shows .closed → (w.afterDuty ds).value = .shows .closed) ∧
    (∀ a, w.value = .shows a → a ≠ .closed → (w.afterDuty ds).value =
      .shows (match ds.lookup w.position with
        | none => a
        | some d => d.arrow)) ∧
    ((w.afterDuty ds).displaced = true ↔ w.value = .unavailable false ∧
      ∃ d, ds.lookup w.position = some d ∧ d.count < 2) := by
  unfold LaneWork.afterDuty
  cases hd : ds.lookup w.position with
  | none => exact ⟨rfl, fun _ h => h, fun h => h, fun _ h _ => h, by simp [hw]⟩
  | some d =>
    dsimp only
    cases hv : w.value with
    | unavailable k =>
      cases k with
      | true => simp [meet, LaneValue.isClosed, hw, hv]
      | false =>
        by_cases hc : d.count < 2
        · have hc' : d.count ≤ 1 := by omega
          simp [meet, LaneValue.isClosed, Config.displaceMax, hc, hc']
        · have hc' : 1 < d.count := by omega
          simp [meet, LaneValue.isClosed, Config.displaceMax, hc, hc', hv, hw]
    | shows a =>
      cases a <;> simp [meet, LaneValue.isClosed, hw, hv]

theorem arrow_cases (d : Duty) : d.arrow = .mergeNear ∨ d.arrow = .mergeOff := by
  unfold Duty.arrow; split <;> simp

theorem finishLane_value (p : Pass) (x : PlanSite) (w : LaneWork) : (finishLane p x w).2.value = w.value := rfl
theorem finishLane_displaced (p : Pass) (x : PlanSite) (w : LaneWork) : (finishLane p x w).2.displaced = w.displaced := rfl

/-! ## The lanes of a site of the new plan -/

/-- The lane positions of a site of a plan and what each shows. -/
structure HasLanes (plan : List PlanSite) (i : Nat) (pos : List Nat) (V : Nat → LaneValue) : Prop where
  lanes : ∃ E : Nat → LaneElem, (planSite plan i).lanes = pos.map (fun l => (l, E l)) ∧ ∀ l, (E l).value = V l

theorem HasLanes.laneAt {plan : List PlanSite} {i : Nat} {pos : List Nat} {V : Nat → LaneValue}
    (h : HasLanes plan i pos V) (l : Nat) : laneAt plan i l = if l ∈ pos then some (V l) else none := by
  obtain ⟨E, hE, hV⟩ := h.lanes
  unfold Machine.laneAt PlanSite.lane
  rw [hE, lookup_map_key]
  split <;> simp [hV]

theorem isClosed_iff (v : LaneValue) : v.isClosed = true ↔ v = .shows .closed ∨ v = .unavailable true := by
  cases v with
  | unavailable k => cases k <;> simp [LaneValue.isClosed]
  | shows a => simp [LaneValue.isClosed]

theorem HasLanes.closedAt {plan : List PlanSite} {i : Nat} {pos : List Nat} {V : Nat → LaneValue}
    (h : HasLanes plan i pos V) (l : Nat) : ClosedAt plan i l ↔ l ∈ pos ∧ (V l).isClosed = true := by
  unfold ClosedAt
  rw [h.laneAt, isClosed_iff]
  split <;> rename_i hl <;> simp [hl]

theorem HasLanes.openAt {plan : List PlanSite} {i : Nat} {pos : List Nat} {V : Nat → LaneValue}
    (h : HasLanes plan i pos V) (l : Nat) : OpenAt plan i l ↔ l ∈ pos ∧ (V l).isClosed = false := by
  unfold OpenAt
  rw [h.closedAt, h.laneAt]
  by_cases hl : l ∈ pos <;> simp [hl]

theorem HasLanes.darkAt {plan : List PlanSite} {i : Nat} {pos : List Nat} {V : Nat → LaneValue}
    (h : HasLanes plan i pos V) (l : Nat) : DarkAt plan i l ↔ l ∈ pos ∧ V l = .unavailable false := by
  unfold DarkAt
  rw [h.laneAt]
  by_cases hl : l ∈ pos <;> simp [hl]

theorem HasLanes.nil {plan : List PlanSite} {i : Nat} {pos : List Nat} {V : Nat → LaneValue}
    (h : HasLanes plan i pos V) : (planSite plan i).lanes = [] ↔ pos = [] := by
  obtain ⟨E, hE, _⟩ := h.lanes
  rw [hE, List.map_eq_nil_iff]

theorem HasLanes.openCount {plan : List PlanSite} {i : Nat} {pos : List Nat} {V : Nat → LaneValue}
    (h : HasLanes plan i pos V) (f : Nat → Bool) :
    ((pos.filter fun l => !(V l).isClosed).filter f).length = openCount plan i f := by
  obtain ⟨E, hE, hV⟩ := h.lanes
  unfold Machine.openCount
  rw [hE, List.filter_map, List.length_map, List.filter_filter]
  congr 1
  refine List.filter_congr fun l _ => ?_
  have := isClosed_iff (V l)
  show (f l && !(V l).isClosed) = (f l && decide ((E l).value ≠ .shows .closed ∧ (E l).value ≠ .unavailable true))
  rw [hV]
  congr 1
  rw [Bool.eq_iff_iff, Bool.not_eq_true', ← Bool.not_eq_true, this, decide_eq_true_iff]
  tauto

/-- R70 to R72: the duties that arise at a site of the plan. -/
theorem arising_spec {plan : List PlanSite} {i : Nat} {pos : List Nat} {V : Nat → LaneValue}
    (h : HasLanes plan i pos V) (W : Nat → LaneWork) (hp : ∀ l, (W l).position = l) (hv : ∀ l, (W l).value = V l) :
    (∀ l d, (l, d) ∈ (arising i (pos.map W)).1 → ClosedAt plan i l ∧ (∃ m, OpenAt plan i m) ∧ d.origin = i ∧
      d.count = 0 ∧ Arrow plan i l d.arrow) ∧
    (∀ l, ClosedAt plan i l → (∃ m, OpenAt plan i m) → ∃ d, (l, d) ∈ (arising i (pos.map W)).1) ∧
    (∀ l d d', (l, d) ∈ (arising i (pos.map W)).1 → (l, d') ∈ (arising i (pos.map W)).1 → d = d') ∧
    ((arising i (pos.map W)).2 = true ↔ (∃ l, ClosedAt plan i l) ∧ ∀ l, ¬ OpenAt plan i l) := by
  have ec : ((pos.map W).filter fun w => w.value.isClosed).map (·.position) = pos.filter fun l => (V l).isClosed := by
    rw [List.filter_map, List.map_map]
    have : (LaneWork.position ∘ W) = id := funext hp
    rw [this, List.map_id]
    exact List.filter_congr fun l _ => by simp [hv]
  have en : ((pos.map W).filter fun w => !w.value.isClosed).map (·.position) = pos.filter fun l => !(V l).isClosed := by
    rw [List.filter_map, List.map_map]
    have : (LaneWork.position ∘ W) = id := funext hp
    rw [this, List.map_id]
    exact List.filter_congr fun l _ => by simp [hv]
  have mn : ∀ m, m ∈ (pos.filter fun l => !(V l).isClosed) ↔ OpenAt plan i m := by
    intro m; rw [List.mem_filter, h.openAt]; simp
  have mc : ∀ m, m ∈ (pos.filter fun l => (V l).isClosed) ↔ ClosedAt plan i m := by
    intro m; rw [List.mem_filter, h.closedAt]
  have e : arising i (pos.map W) = if (pos.filter fun l => !(V l).isClosed).isEmpty
      then ([], !(pos.filter fun l => (V l).isClosed).isEmpty)
      else ((pos.filter fun l => (V l).isClosed).map fun l =>
        (l, ⟨i, pointsNear l (pos.filter fun l => !(V l).isClosed), 0⟩), false) := by
    unfold arising
    dsimp only
    rw [ec, en]
  rw [e]
  by_cases hn : (pos.filter fun l => !(V l).isClosed).isEmpty = true
  · have none_open : ∀ m, ¬ OpenAt plan i m := by
      intro m hm
      rw [← mn, List.isEmpty_iff.1 hn] at hm
      cases hm
    rw [if_pos hn]
    refine ⟨fun l d hd => (by cases hd), fun l _ ⟨m, hm⟩ => absurd hm (none_open m), fun l d d' hd => (by cases hd), ?_⟩
    have : (!(pos.filter fun l => (V l).isClosed).isEmpty) = true ↔ ∃ l, ClosedAt plan i l := by
      rw [Bool.not_eq_true', List.isEmpty_eq_false_iff_exists_mem]
      exact exists_congr mc
    dsimp only
    rw [this]
    exact ⟨fun hx => ⟨hx, none_open⟩, fun hx => hx.1⟩
  · have some_open : ∃ m, OpenAt plan i m := by
      rw [List.isEmpty_iff, ← ne_eq, List.ne_nil_iff_exists_cons] at hn
      obtain ⟨m, xs, hm⟩ := hn
      exact ⟨m, (mn m).1 (by rw [hm]; simp)⟩
    rw [if_neg hn]
    have own : ∀ l d, (l, d) ∈ ((pos.filter fun l => (V l).isClosed).map fun l =>
        (l, (⟨i, pointsNear l (pos.filter fun l => !(V l).isClosed), 0⟩ : Duty))) ↔
        ClosedAt plan i l ∧ d = ⟨i, pointsNear l (pos.filter fun l => !(V l).isClosed), 0⟩ := by
      intro l d
      rw [List.mem_map]
      constructor
      · rintro ⟨m, hm, he⟩; cases he; exact ⟨(mc _).1 hm, rfl⟩
      · rintro ⟨hm, rfl⟩; exact ⟨l, (mc l).2 hm, rfl⟩
    refine ⟨?_, ?_, ?_, ?_⟩
    · intro l d hd
      obtain ⟨h1, rfl⟩ := (own l d).1 hd
      exact ⟨h1, some_open, rfl, rfl, pointsNear_arrow plan i l _ mn h.openCount⟩
    · intro l hl _; exact ⟨_, (own l _).2 ⟨hl, rfl⟩⟩
    · intro l d d' h1 h2; rw [((own l d).1 h1).2, ((own l d').1 h2).2]
    · obtain ⟨m, hm⟩ := some_open
      exact ⟨fun hx => (by cases hx), fun hx => absurd hm (hx.2 m)⟩

/-! ## The duties in carry -/

/-- The merge duties carried upstream of the sites from k on are those that wait there. -/
structure DutyInv (plan : List PlanSite) (k : Nat) (ds : List (Nat × Duty)) : Prop where
  sound : ∀ l d, (l, d) ∈ ds → Waits plan l d.origin d.count k ∧ Arrow plan d.origin l d.arrow
  complete : ∀ l o n, Waits plan l o n k → ∃ d, (l, d) ∈ ds ∧ d.origin = o ∧ d.count = n
  unique : ∀ l d d', (l, d) ∈ ds → (l, d') ∈ ds → d = d'

theorem DutyInv.lookup {plan : List PlanSite} {k : Nat} {ds : List (Nat × Duty)} (h : DutyInv plan k ds) (l : Nat)
    (d : Duty) : ds.lookup l = some d ↔ (l, d) ∈ ds :=
  ⟨mem_of_lookup, fun hm => lookup_of_mem hm fun w hw => h.unique l w d hw hm⟩

theorem laneStep_eq (i : Nat) (p : Pass) (r : SiteRecord) (ds : List (Nat × Duty)) :
    let out := laneStep i p (p.demandAt i) (p.available.getD i []) (planSite p.plan i) r.kind.positions ds
    let start := r.kind.positions.map (startLane (p.demandAt i) (p.available.getD i []) (planSite p.plan i) p.time)
    let new := arising i (r.kind.positions.map (workLane p i ds))
    out = (r.kind.positions.map (workLane p i ds),
      (((ds.filter fun x => decide (meet x.2 (workValue start x.1) = .displaced)).map
        fun x => (x.1, { x.2 with count := x.2.count + 1 })).filter fun x => (new.1.lookup x.1).isNone) ++ new.1,
      (ds.filter fun x => decide (meet x.2 (workValue start x.1) = .abandoned)).map fun x => (x.2.origin, x.1),
      new.2) := by
  unfold laneStep
  dsimp only
  rw [List.map_map]
  rfl

theorem workValue_start (p : Pass) (i : Nat) (pos : List Nat) (l : Nat) :
    workValue (pos.map (startLane (p.demandAt i) (p.available.getD i []) (planSite p.plan i) p.time)) l =
      if l ∈ pos then some (startLane (p.demandAt i) (p.available.getD i []) (planSite p.plan i) p.time l).value
      else none := by
  unfold workValue
  induction pos with
  | nil => rfl
  | cons x xs ih =>
    rw [List.map_cons, List.find?_cons, startLane_position]
    by_cases h : x = l
    · subst h; simp
    · rw [decide_eq_false h]
      simp only [ih, List.mem_cons, Ne.symm h, false_or]

/-- What a duty meets at a lane, from what the lane shows in the end. -/
theorem meet_spec (d : Duty) (v : LaneValue) :
    (meet d (some v) = .displaced ↔ v = .unavailable false ∧ d.count < 2) ∧
    (meet d (some v) = .abandoned ↔ v = .unavailable false ∧ 2 ≤ d.count) := by
  unfold meet
  cases v with
  | unavailable k =>
    cases k
    · by_cases h : d.count < Config.displaceMax <;> simp [LaneValue.isClosed, h] <;> simp [Config.displaceMax] at h <;> omega
    · simp [LaneValue.isClosed]
  | shows a => cases a <;> simp [LaneValue.isClosed]

/-- The lanes of a site of the plan a pass ends with. -/
theorem runPass_lanes (c : Store) (hw : c.Whole) (p : Pass) (i : Nat) (hi : i < c.siteCount) (r : SiteRecord)
    (hr : c.site i = some r) : HasLanes (runPass c p) i r.kind.positions
      fun l => (workLane p i (passCarry c p (i + 1)).duties l).value := by
  refine ⟨fun l => { (finishLane p (planSite p.plan i) (workLane p i (passCarry c p (i + 1)).duties l)).2 with
    unprotected := decide ((i, l) ∈ passMarks c p) }, ?_, fun l => rfl⟩
  rw [planSite_runPass c hw p i hi r hr]
  unfold markUnprotected
  rw [settledSite_lanes, List.map_map]
  rfl

/-- The lanes of EXIT. -/
theorem runPass_exit_lanes (c : Store) (hw : c.Whole) (p : Pass) :
    HasLanes (runPass c p) c.siteCount ((c.boundary.map (·.positions)).getD [])
      fun l => .shows (demandAspect (p.demandAt c.siteCount) l) := by
  refine ⟨fun l => { LaneElem.fresh (.shows (demandAspect (p.demandAt c.siteCount) l)) with
    unprotected := decide ((c.siteCount, l) ∈ passMarks c p) }, ?_, fun l => rfl⟩
  rw [planSite_runPass_exit c hw p]
  unfold markUnprotected
  rw [settledExit_lanes, List.map_map]
  rfl

/-- A lane is dark in the end exactly where it was before its duties. -/
theorem workLane_start (p : Pass) (i : Nat) (ds : List (Nat × Duty)) (l : Nat) (k : Bool) :
    (workLane p i ds l).value = .unavailable k ↔
      (startLane (p.demandAt i) (p.available.getD i []) (planSite p.plan i) p.time l).value = .unavailable k := by
  unfold workLane
  by_cases ha : ElemId.lane l ∈ p.available.getD i []
  · obtain ⟨b, held, he, -, -⟩ := startLane_lit (p.demandAt i) _ (planSite p.plan i) p.time l ha
    rw [he]
    obtain ⟨-, -, h3, h4, -⟩ := afterDuty_spec ds ⟨l, .shows b, held, false⟩ rfl
    by_cases hb : b = .closed
    · subst hb; rw [h3 rfl]
    · rw [h4 b rfl hb]; simp
  · obtain ⟨k', he, -⟩ := startLane_dark (p.demandAt i) _ (planSite p.plan i) p.time l ha
    rw [he]
    obtain ⟨-, h2, -⟩ := afterDuty_spec ds ⟨l, .unavailable k', false, false⟩ rfl
    rw [h2 k' rfl]

theorem waits_count {plan : List PlanSite} {l o n s : Nat} (h : Waits plan l o n s) : n ≤ 2 := by
  induction h with
  | arises _ _ => omega
  | passes _ _ ih => exact ih
  | displaced _ _ h _ => omega

/-- The duties carried after EXIT are those that wait above it. -/
theorem dutyInv_exit (c : Store) (hw : c.Whole) (p : Pass) :
    DutyInv (runPass c p) c.siteCount (passCarry c p c.siteCount).duties := by
  rw [passCarry_end]
  have hl := runPass_exit_lanes c hw p
  have e : (settleExit c.siteCount c.boundary p).duties = (arising c.siteCount
      (((c.boundary.map (·.positions)).getD []).map fun l =>
        (⟨l, .shows (demandAspect (p.demandAt c.siteCount) l), false, false⟩ : LaneWork))).1 := rfl
  obtain ⟨h1, h2, h3, -⟩ := arising_spec hl (fun l => ⟨l, .shows (demandAspect (p.demandAt c.siteCount) l), false, false⟩)
    (fun _ => rfl) (fun _ => rfl)
  rw [e]
  refine ⟨?_, ?_, h3⟩
  · intro l d hd
    obtain ⟨a, ⟨m, hm⟩, ho, hc, har⟩ := h1 l d hd
    rw [ho, hc]
    exact ⟨.arises a hm, har⟩
  · intro l o n hwt
    have none_beyond : ∀ o n, ¬ Waits (runPass c p) l o n (c.siteCount + 1) := by
      have gen : ∀ o n s, Waits (runPass c p) l o n s → o ≤ c.siteCount ∧ s ≤ o := by
        intro o n s h
        induction h with
        | arises ha hb =>
          refine ⟨?_, le_refl _⟩
          by_contra hlt
          unfold OpenAt laneAt at hb
          rw [planSite_runPass_beyond c hw p _ (by omega)] at hb
          exact hb.1 rfl
        | passes _ _ ih => omega
        | displaced _ _ _ ih => omega
      intro o n h
      have := gen _ _ _ h
      omega
    cases hwt with
    | arises ha hb =>
      obtain ⟨d, hd⟩ := h2 l ha ⟨_, hb⟩
      obtain ⟨-, -, ho, hc, -⟩ := h1 l d hd
      exact ⟨d, hd, ho, hc⟩
    | passes h _ => exact absurd h (none_beyond _ _)
    | displaced h _ _ => exact absurd h (none_beyond _ _)

/-- R67 to R70: one site keeps the duties those that wait above it, and gives up those that end there. -/
theorem dutyInv_step (c : Store) (hw : c.Whole) (p : Pass) (i : Nat) (hi : i < c.siteCount) (r : SiteRecord)
    (hr : c.site i = some r) (h : DutyInv (runPass c p) (i + 1) (passCarry c p (i + 1)).duties) :
    DutyInv (runPass c p) i (passCarry c p i).duties ∧
    ∀ o l, (o, l) ∈ (passCarry c p i).unprotected ↔ (o, l) ∈ (passCarry c p (i + 1)).unprotected ∨
      Waits (runPass c p) l o 2 (i + 1) ∧ DarkAt (runPass c p) i l := by
  have hl := runPass_lanes c hw p i hi r hr
  rw [passCarry_step c p i r hi hr]
  generalize hds : (passCarry c p (i + 1)).duties = ds at h hl
  generalize runPass c p = plan at *
  have eq := laneStep_eq i p r ds
  dsimp only at eq
  by_cases hg : r.kind.positions = []
  · have none_lane : ∀ l, ¬ ClosedAt plan i l := by intro l hx; rw [hl.closedAt, hg] at hx; cases hx.1
    have none_dark : ∀ l, ¬ DarkAt plan i l := by intro l hx; rw [hl.darkAt, hg] at hx; cases hx.1
    have ed : (settleSite p i r (passCarry c p (i + 1))).duties = ds := by
      unfold settleSite; dsimp only; rw [hds, if_neg (by simp [hg])]
    have eu : (settleSite p i r (passCarry c p (i + 1))).unprotected = (passCarry c p (i + 1)).unprotected := by
      unfold settleSite; dsimp only; rw [if_neg (by simp [hg]), List.append_nil]
    rw [ed, eu]
    refine ⟨⟨?_, ?_, h.unique⟩, ?_⟩
    · intro l d hd
      obtain ⟨h1, h2⟩ := h.sound l d hd
      exact ⟨.passes h1 (hl.nil.2 hg), h2⟩
    · intro l o n hwt
      cases hwt with
      | arises ha _ => exact absurd ha (none_lane l)
      | passes h' _ => exact h.complete l o n h'
      | displaced _ hd _ => exact absurd hd (none_dark l)
    · intro o l
      exact ⟨Or.inl, fun hx => hx.elim id fun hx => absurd hx.2 (none_dark l)⟩
  · have ed : (settleSite p i r (passCarry c p (i + 1))).duties = (laneStep i p (p.demandAt i)
        (p.available.getD i []) (planSite p.plan i) r.kind.positions ds).2.1 := by
      unfold settleSite; dsimp only; rw [hds, if_pos (by simp [hg])]; rfl
    have eu : (settleSite p i r (passCarry c p (i + 1))).unprotected = (passCarry c p (i + 1)).unprotected ++
        (laneStep i p (p.demandAt i) (p.available.getD i []) (planSite p.plan i) r.kind.positions ds).2.2.1 := by
      unfold settleSite; dsimp only; rw [hds, if_pos (by simp [hg])]; rfl
    rw [ed, eu, eq]
    dsimp only
    obtain ⟨a1, a2, a3, -⟩ := arising_spec hl (workLane p i ds) (workLane_position p i ds) (fun _ => rfl)
    -- what a duty meets, in the plan's own terms
    have met : ∀ l d, (l, d) ∈ ds →
        (meet d (workValue (r.kind.positions.map (startLane (p.demandAt i) (p.available.getD i []) (planSite p.plan i)
          p.time)) l) = .displaced ↔ DarkAt plan i l ∧ d.count < 2) ∧
        (meet d (workValue (r.kind.positions.map (startLane (p.demandAt i) (p.available.getD i []) (planSite p.plan i)
          p.time)) l) = .abandoned ↔ DarkAt plan i l ∧ 2 ≤ d.count) := by
      intro l d _
      rw [workValue_start, hl.darkAt]
      by_cases hx : l ∈ r.kind.positions
      · rw [if_pos hx]
        have := meet_spec d (startLane (p.demandAt i) (p.available.getD i []) (planSite p.plan i) p.time l).value
        rw [this.1, this.2, workLane_start]
        simp [hx]
      · rw [if_neg hx]
        simp [meet, hx]
    refine ⟨⟨?_, ?_, ?_⟩, ?_⟩
    · intro l d hd
      rcases List.mem_append.1 hd with hd | hd
      · rw [List.mem_filter, List.mem_map] at hd
        obtain ⟨⟨⟨l', d'⟩, hx, he⟩, -⟩ := hd
        rw [List.mem_filter, decide_eq_true_iff] at hx
        cases he
        obtain ⟨h1, h2⟩ := h.sound l' d' hx.1
        obtain ⟨hdark, hc⟩ := (met l' d' hx.1).1.1 hx.2
        exact ⟨.displaced h1 hdark hc, h2⟩
      · obtain ⟨a, ⟨m, hm⟩, ho, hc, har⟩ := a1 l d hd
        rw [ho, hc]
        exact ⟨.arises a hm, har⟩
    · intro l o n hwt
      cases hwt with
      | arises ha hb =>
        obtain ⟨d, hd⟩ := a2 l ha ⟨_, hb⟩
        obtain ⟨-, -, ho, hc, -⟩ := a1 l d hd
        exact ⟨d, List.mem_append.2 (Or.inr hd), ho, hc⟩
      | passes _ hn => exact absurd (hl.nil.1 hn) hg
      | displaced h' hdark hc =>
        obtain ⟨d, hd, ho, hn⟩ := h.complete l o _ h'
        refine ⟨{ d with count := d.count + 1 }, List.mem_append.2 (Or.inl ?_), ho, by dsimp only; rw [hn]⟩
        rw [List.mem_filter, List.mem_map]
        refine ⟨⟨(l, d), ?_, rfl⟩, ?_⟩
        · rw [List.mem_filter, decide_eq_true_iff]
          exact ⟨hd, (met l d hd).1.2 ⟨hdark, by omega⟩⟩
        · dsimp only
          cases hlk : (arising i (r.kind.positions.map (workLane p i ds))).1.lookup l with
          | none => rfl
          | some d' =>
            have := (a1 l d' (mem_of_lookup hlk)).1
            rw [hl.closedAt] at this
            rw [hl.darkAt] at hdark
            rw [hdark.2] at this
            simp [LaneValue.isClosed] at this
    · intro l d d' h1 h2
      have apart : ∀ d d', (l, d) ∈ ((ds.filter fun x => decide (meet x.2 (workValue (r.kind.positions.map (startLane
          (p.demandAt i) (p.available.getD i []) (planSite p.plan i) p.time)) x.1) = .displaced)).map
          fun x => (x.1, ({ x.2 with count := x.2.count + 1 } : Duty))).filter (fun x =>
            ((arising i (r.kind.positions.map (workLane p i ds))).1.lookup x.1).isNone) →
          (l, d') ∉ (arising i (r.kind.positions.map (workLane p i ds))).1 := by
        intro d d' hx hy
        rw [List.mem_filter] at hx
        have := lookup_of_mem hy fun w hw => a3 l w d' hw hy
        rw [this] at hx
        simp at hx
      rcases List.mem_append.1 h1 with h1 | h1 <;> rcases List.mem_append.1 h2 with h2 | h2
      · rw [List.mem_filter, List.mem_map] at h1 h2
        obtain ⟨⟨⟨l1, d1⟩, x1, e1⟩, -⟩ := h1
        obtain ⟨⟨⟨l2, d2⟩, x2, e2⟩, -⟩ := h2
        rw [List.mem_filter] at x1 x2
        cases e1
        cases e2
        rw [h.unique _ _ _ x1.1 x2.1]
      · exact absurd h2 (apart _ _ h1)
      · exact absurd h1 (apart _ _ h2)
      · exact a3 l d d' h1 h2
    · intro o l
      rw [List.mem_append, List.mem_map]
      constructor
      · rintro (hx | ⟨⟨l', d⟩, hx, he⟩)
        · exact Or.inl hx
        · rw [List.mem_filter, decide_eq_true_iff] at hx
          cases he
          obtain ⟨hdark, hc⟩ := (met l' d hx.1).2.1 hx.2
          have hs := (h.sound l' d hx.1).1
          have := waits_count hs
          rw [show d.count = 2 by omega] at hs
          exact Or.inr ⟨hs, hdark⟩
      · rintro (hx | ⟨hs, hdark⟩)
        · exact Or.inl hx
        · obtain ⟨d, hd, ho, hn⟩ := h.complete l o _ hs
          refine Or.inr ⟨(l, d), ?_, by rw [← ho]⟩
          rw [List.mem_filter, decide_eq_true_iff]
          exact ⟨hd, (met l d hd).2.2 ⟨hdark, by omega⟩⟩

/-- A property of what a pass carries, from EXIT upstream. -/
theorem passCarry_induction (c : Store) (hw : c.Whole) (P : Nat → Prop) (hend : P c.siteCount)
    (hstep : ∀ i r, i < c.siteCount → c.site i = some r → P (i + 1) → P i) : ∀ k ≤ c.siteCount, P k := by
  have gen : ∀ m k, k + m = c.siteCount → P k := by
    intro m
    induction m with
    | zero => intro k hk; rw [show k = c.siteCount by omega]; exact hend
    | succ m ih =>
      intro k hk
      obtain ⟨r, hr⟩ := Option.ne_none_iff_exists'.1 (hw.2.1 k (by omega))
      exact hstep k r (by omega) hr (ih (k + 1) (by omega))
  intro k hk
  exact gen (c.siteCount - k) k (by omega)

theorem dutyInv (c : Store) (hw : c.Whole) (p : Pass) : ∀ k ≤ c.siteCount,
    DutyInv (runPass c p) k (passCarry c p k).duties :=
  passCarry_induction c hw _ (dutyInv_exit c hw p) fun i r hi hr h => (dutyInv_step c hw p i hi r hr h).1

theorem not_dark_beyond (c : Store) (hw : c.Whole) (p : Pass) (s l : Nat) (hs : c.siteCount ≤ s) :
    ¬ DarkAt (runPass c p) s l := by
  rcases Nat.eq_or_lt_of_le hs with h | h
  · rw [← h, (runPass_exit_lanes c hw p).darkAt]; simp
  · unfold DarkAt laneAt; rw [planSite_runPass_beyond c hw p s h]; simp [PlanSite.lane, PlanSite.empty]

/-- R68: the duties given up below site k. -/
theorem unprotected_spec (c : Store) (hw : c.Whole) (p : Pass) : ∀ k ≤ c.siteCount, ∀ o l,
    ((o, l) ∈ (passCarry c p k).unprotected ↔
      ∃ s, k ≤ s ∧ Waits (runPass c p) l o 2 (s + 1) ∧ DarkAt (runPass c p) s l) := by
  refine passCarry_induction c hw _ ?_ ?_
  · intro o l
    rw [passCarry_end]
    exact ⟨fun h => (by cases h), fun ⟨s, hs, _, hd⟩ => absurd hd (not_dark_beyond c hw p s l hs)⟩
  · intro i r hi hr h o l
    rw [(dutyInv_step c hw p i hi r hr (dutyInv c hw p (i + 1) hi)).2, h]
    constructor
    · rintro (⟨s, hs, hx⟩ | hx)
      · exact ⟨s, by omega, hx⟩
      · exact ⟨i, le_refl _, hx⟩
    · rintro ⟨s, hs, hx⟩
      rcases Nat.eq_or_lt_of_le hs with rfl | hlt
      · exact Or.inr hx
      · exact Or.inl ⟨s, hlt, hx⟩

/-- R68: the marks of a pass. -/
theorem passMarks_spec (c : Store) (hw : c.Whole) (p : Pass) (o l : Nat) : (o, l) ∈ passMarks c p ↔
    (∃ k, Waits (runPass c p) l o k 0) ∨ ∃ s, Waits (runPass c p) l o 2 (s + 1) ∧ DarkAt (runPass c p) s l := by
  unfold passMarks
  rw [List.mem_append, unprotected_spec c hw p 0 (Nat.zero_le _), List.mem_map]
  have h := dutyInv c hw p 0 (Nat.zero_le _)
  constructor
  · rintro (⟨s, _, hx⟩ | ⟨⟨l', d⟩, hd, he⟩)
    · exact Or.inr ⟨s, hx⟩
    · cases he; exact Or.inl ⟨_, (h.sound _ _ hd).1⟩
  · rintro (⟨k, hk⟩ | ⟨s, hx⟩)
    · obtain ⟨d, hd, ho, -⟩ := h.complete l o k hk
      exact Or.inr ⟨(l, d), hd, by rw [← ho]⟩
    · exact Or.inl ⟨s, Nat.zero_le _, hx⟩

/-! ## Limits and legends of a site -/

theorem limitCapable_iff (r : SiteRecord) (a : List ElemId) : r.limitCapable a = true ↔ LimitCapable r.kind a := by
  unfold SiteRecord.limitCapable LimitCapable
  cases r.kind with
  | gantry n s =>
    dsimp only
    rw [List.any_eq_true]
    constructor
    · rintro ⟨k, hk, ha⟩; rw [List.mem_range] at hk; exact ⟨k + 1, by omega, by omega, by simpa using ha⟩
    · rintro ⟨l, h1, h2, ha⟩
      exact ⟨l - 1, by rw [List.mem_range]; omega, by rw [Nat.sub_add_cancel h1]; simpa using ha⟩
  | verge => simp
  | message => simp

theorem messageCapable_iff (r : SiteRecord) (a : List ElemId) :
    r.messageCapable a = true ↔ r.sign = true ∧ ElemId.legend ∈ a := by
  simp [SiteRecord.messageCapable]

/-- Whether a lane of a site shows an arrow in the end. -/
def siteMerge (p : Pass) (i : Nat) (r : SiteRecord) (c : Carry) : Bool :=
  (r.kind.positions.map (workLane p i c.duties)).any fun w => w.value.isMerge

/-- Whether a site discharges a full-closure duty. -/
def siteDischarge (p : Pass) (i : Nat) (r : SiteRecord) (c : Carry) : Bool :=
  r.limitCapable (p.available.getD i []) && c.fullClosure

/-- R73's candidate at a site and whether its relaxation is held. -/
def siteCandidate (p : Pass) (i : Nat) : Limit × Bool :=
  limitCandidate p.params ((planSite p.plan i).limit.getD (.fresh .unavailable)) (p.demandAt i).limit p.time

/-- The limit of a limit-capable site. -/
def siteLimit (p : Pass) (i : Nat) (r : SiteRecord) (c : Carry) : Limit :=
  ledIn p.params c.leadIn (capped p.params r.kind (p.demandAt i) (siteMerge p i r c) (siteDischarge p i r c)
    (siteCandidate p i).1)

/-- The legend that a site's demand and the legends carried to it make, and whether its relaxation is held. -/
def siteLegend (p : Pass) (i : Nat) (r : SiteRecord) (c : Carry) : Legend × Bool :=
  settleLegend ((planSite p.plan i).legend.getD (.fresh .unavailable))
    (higher (higher ((p.demandAt i).legend.getD .blank)
      (if c.laneClosedAhead || siteMerge p i r c then .laneClosedAhead else .blank))
      (if c.carriagewayClosed || siteDischarge p i r c then .carriagewayClosed else .blank)) p.time

theorem laneStep_lanes (i : Nat) (p : Pass) (r : SiteRecord) (ds : List (Nat × Duty)) :
    (laneStep i p (p.demandAt i) (p.available.getD i []) (planSite p.plan i) r.kind.positions ds).1 =
      r.kind.positions.map (workLane p i ds) := by
  rw [laneStep_eq]

theorem settledSite_limit (p : Pass) (i : Nat) (r : SiteRecord) (c : Carry) : (settledSite p i r c).limit =
    if r.kind.hasLimit then some (if r.limitCapable (p.available.getD i []) then
      ⟨.value (siteLimit p i r c), limitDeadline p.params p.time ((planSite p.plan i).limit.getD (.fresh .unavailable))
        (siteLimit p i r c), (siteCandidate p i).2⟩
      else .fresh .unavailable) else none := by
  unfold siteLimit siteMerge
  rw [← laneStep_lanes]
  rfl

theorem settledSite_legend (p : Pass) (i : Nat) (r : SiteRecord) (c : Carry) : (settledSite p i r c).legend =
    if r.sign then some (if r.messageCapable (p.available.getD i []) then
      ⟨.value (siteLegend p i r c).1, legendDeadline p.params p.time
        ((planSite p.plan i).legend.getD (.fresh .unavailable)) (siteLegend p i r c).1, (siteLegend p i r c).2⟩
      else .fresh .unavailable) else none := by
  unfold siteLegend siteMerge
  rw [← laneStep_lanes]
  rfl

theorem settleSite_leadIn (p : Pass) (i : Nat) (r : SiteRecord) (c : Carry) : (settleSite p i r c).leadIn =
    if r.limitCapable (p.available.getD i []) then siteLimit p i r c else c.leadIn := by
  unfold siteLimit siteMerge
  rw [← laneStep_lanes]
  rfl

theorem settleSite_fullClosure (p : Pass) (i : Nat) (r : SiteRecord) (c : Carry) : (settleSite p i r c).fullClosure =
    ((c.fullClosure && !siteDischarge p i r c) || (arising i (r.kind.positions.map (workLane p i c.duties))).2) := by
  have : (laneStep i p (p.demandAt i) (p.available.getD i []) (planSite p.plan i) r.kind.positions c.duties).2.2.2 =
      (arising i (r.kind.positions.map (workLane p i c.duties))).2 := by rw [laneStep_eq]
  rw [← this]
  rfl

theorem settleSite_ahead (p : Pass) (i : Nat) (r : SiteRecord) (c : Carry) : (settleSite p i r c).laneClosedAhead =
    ((c.laneClosedAhead || siteMerge p i r c) && !r.messageCapable (p.available.getD i [])) := by
  unfold siteMerge
  rw [← laneStep_lanes]
  rfl

theorem settleSite_closed (p : Pass) (i : Nat) (r : SiteRecord) (c : Carry) : (settleSite p i r c).carriagewayClosed =
    ((c.carriagewayClosed || siteDischarge p i r c) && !r.messageCapable (p.available.getD i [])) := rfl

theorem limitAt_runPass (c : Store) (hw : c.Whole) (p : Pass) (i : Nat) (hi : i < c.siteCount) (r : SiteRecord)
    (hr : c.site i = some r) : limitAt (runPass c p) i = if r.limitCapable (p.available.getD i [])
      then some (siteLimit p i r (passCarry c p (i + 1))) else none := by
  unfold limitAt
  rw [planSite_runPass c hw p i hi r hr, markUnprotected_limit, settledSite_limit]
  by_cases hk : r.kind.hasLimit = true
  · rw [if_pos hk]
    by_cases hc : r.limitCapable (p.available.getD i []) = true
    · rw [if_pos hc, if_pos hc]
    · rw [if_neg hc, if_neg hc]; rfl
  · have hc : ¬ r.limitCapable (p.available.getD i []) = true := by
      unfold SiteRecord.limitCapable SiteKind.hasLimit at *
      cases hkk : r.kind <;> simp_all
    rw [if_neg hk, if_neg hc]

theorem limitAt_exit (c : Store) (hw : c.Whole) (p : Pass) :
    limitAt (runPass c p) c.siteCount = some (p.demandAt c.siteCount).limit := by
  unfold limitAt
  rw [planSite_runPass_exit c hw p]
  rfl

theorem limitAt_beyond (c : Store) (hw : c.Whole) (p : Pass) (i : Nat) (hi : c.siteCount < i) :
    limitAt (runPass c p) i = none := by
  unfold limitAt
  rw [planSite_runPass_beyond c hw p i hi]
  rfl

theorem legendAt_runPass (c : Store) (hw : c.Whole) (p : Pass) (i : Nat) (hi : i < c.siteCount) (r : SiteRecord)
    (hr : c.site i = some r) : legendAt (runPass c p) i = if r.messageCapable (p.available.getD i [])
      then some (siteLegend p i r (passCarry c p (i + 1))).1 else none := by
  unfold legendAt
  rw [planSite_runPass c hw p i hi r hr, markUnprotected_legend, settledSite_legend]
  by_cases hk : r.sign = true
  · rw [if_pos hk]
    by_cases hc : r.messageCapable (p.available.getD i []) = true
    · rw [if_pos hc, if_pos hc]
    · rw [if_neg hc, if_neg hc]; rfl
  · have hc : ¬ r.messageCapable (p.available.getD i []) = true := by rw [messageCapable_iff]; simp [hk]
    rw [if_neg hk, if_neg hc]

theorem siteMerge_iff (c : Store) (hw : c.Whole) (p : Pass) (i : Nat) (hi : i < c.siteCount) (r : SiteRecord)
    (hr : c.site i = some r) : siteMerge p i r (passCarry c p (i + 1)) = true ↔ ∃ l, ArrowAt (runPass c p) i l := by
  unfold siteMerge ArrowAt
  have hl := runPass_lanes c hw p i hi r hr
  rw [List.any_eq_true]
  constructor
  · rintro ⟨w, hx, hm⟩
    obtain ⟨l, hlp, rfl⟩ := List.mem_map.1 hx
    refine ⟨l, ?_⟩
    rw [hl.laneAt, if_pos hlp]
    revert hm
    cases (workLane p i (passCarry c p (i + 1)).duties l).value with
    | unavailable k => simp [LaneValue.isMerge]
    | shows a => cases a <;> simp [LaneValue.isMerge, Aspect.isMerge]
  · rintro ⟨l, hm⟩
    rw [hl.laneAt] at hm
    split at hm
    · rename_i hlp
      refine ⟨_, List.mem_map.2 ⟨l, hlp, rfl⟩, ?_⟩
      rcases hm with hm | hm <;> rw [Option.some.inj hm] <;> rfl
    · simp at hm

/-- R72: whether a full-closure duty is carried upstream of the sites from k on. -/
theorem fullClosure_spec (c : Store) (hw : c.Whole) (p : Pass) : ∀ k ≤ c.siteCount,
    ((passCarry c p k).fullClosure = true ↔ ∃ d, k ≤ d ∧ (∃ l, ClosedAt (runPass c p) d l) ∧
      (∀ l, ¬ OpenAt (runPass c p) d l) ∧ ∀ j, k ≤ j → j < d → limitAt (runPass c p) j = none) := by
  refine passCarry_induction c hw _ ?_ ?_
  · rw [passCarry_end]
    obtain ⟨-, -, -, h4⟩ := arising_spec (runPass_exit_lanes c hw p)
      (fun l => ⟨l, .shows (demandAspect (p.demandAt c.siteCount) l), false, false⟩) (fun _ => rfl) (fun _ => rfl)
    refine Iff.trans h4 ⟨fun h => ⟨c.siteCount, le_refl _, h.1, h.2, fun j h1 h2 => by omega⟩, ?_⟩
    rintro ⟨d, hd, ⟨l, hc⟩, ho, _⟩
    rcases Nat.eq_or_lt_of_le hd with rfl | h
    · exact ⟨⟨l, hc⟩, ho⟩
    · unfold ClosedAt laneAt at hc
      rw [planSite_runPass_beyond c hw p d h] at hc
      simp [PlanSite.lane, PlanSite.empty] at hc
  · intro i r hi hr h
    obtain ⟨-, -, -, h4⟩ := arising_spec (runPass_lanes c hw p i hi r hr)
      (workLane p i (passCarry c p (i + 1)).duties) (workLane_position p i _) (fun _ => rfl)
    rw [passCarry_step c p i r hi hr, settleSite_fullClosure, Bool.or_eq_true, h4, Bool.and_eq_true, h,
      Bool.not_eq_true']
    have hd : siteDischarge p i r (passCarry c p (i + 1)) = false ↔
        limitAt (runPass c p) i = none ∨ (passCarry c p (i + 1)).fullClosure = false := by
      unfold siteDischarge
      rw [limitAt_runPass c hw p i hi r hr]
      generalize r.limitCapable (p.available.getD i []) = b
      cases b <;> simp
    rw [hd]
    constructor
    · rintro (⟨⟨d, h1, h2, h3, h5⟩, hx⟩ | ⟨h1, h2⟩)
      · have hfull : (passCarry c p (i + 1)).fullClosure = true := h.2 ⟨d, h1, h2, h3, h5⟩
        rcases hx with hx | hx
        · refine ⟨d, by omega, h2, h3, fun j hj hjd => ?_⟩
          rcases Nat.eq_or_lt_of_le hj with rfl | hlt
          · exact hx
          · exact h5 j hlt hjd
        · rw [hfull] at hx; cases hx
      · exact ⟨i, le_refl _, h1, h2, fun j hj hjd => by omega⟩
    · rintro ⟨d, h1, h2, h3, h5⟩
      rcases Nat.eq_or_lt_of_le h1 with rfl | hlt
      · exact Or.inr ⟨h2, h3⟩
      · exact Or.inl ⟨⟨d, hlt, h2, h3, fun j hj hjd => h5 j (by omega) hjd⟩, Or.inl (h5 i (le_refl _) hlt)⟩

theorem fullBelow_iff (c : Store) (hw : c.Whole) (p : Pass) (i : Nat) (hi : i < c.siteCount) :
    (passCarry c p (i + 1)).fullClosure = true ↔ FullBelow (runPass c p) i :=
  fullClosure_spec c hw p (i + 1) hi

/-- R75: the limit carried upstream is that of the nearest limit-capable site. -/
theorem leadIn_spec (c : Store) (hw : c.Whole) (p : Pass) : ∀ k ≤ c.siteCount, ∃ d, k ≤ d ∧
    limitAt (runPass c p) d = some (passCarry c p k).leadIn ∧ ∀ j, k ≤ j → j < d → limitAt (runPass c p) j = none := by
  refine passCarry_induction c hw _ ?_ ?_
  · refine ⟨c.siteCount, le_refl _, ?_, fun j h1 h2 => by omega⟩
    rw [limitAt_exit c hw p, passCarry_end]
    rfl
  · rintro i r hi hr ⟨d, h1, h2, h3⟩
    rw [passCarry_step c p i r hi hr, settleSite_leadIn]
    have hlim := limitAt_runPass c hw p i hi r hr
    by_cases hcap : r.limitCapable (p.available.getD i []) = true
    · rw [if_pos hcap] at hlim ⊢
      exact ⟨i, le_refl _, hlim, fun j h1 h2 => by omega⟩
    · rw [if_neg hcap] at hlim ⊢
      refine ⟨d, by omega, h2, fun j hj hjd => ?_⟩
      rcases Nat.eq_or_lt_of_le hj with rfl | hlt
      · exact hlim
      · exact h3 j hlt hjd

theorem nextLimit_iff (c : Store) (hw : c.Whole) (p : Pass) (i : Nat) (hi : i < c.siteCount) (L : Limit) :
    (passCarry c p (i + 1)).leadIn = L ↔ ∃ d, NextLimit (runPass c p) i d ∧ limitAt (runPass c p) d = some L := by
  obtain ⟨d, h1, h2, h3⟩ := leadIn_spec c hw p (i + 1) hi
  constructor
  · rintro rfl
    exact ⟨d, ⟨by omega, by rw [h2]; simp, fun k hk hkd => h3 k hk hkd⟩, h2⟩
  · rintro ⟨d', ⟨a, b, e⟩, f⟩
    have : d = d' := by
      rcases Nat.lt_trichotomy d d' with hlt | rfl | hlt
      · rw [e d (by omega) hlt] at h2; cases h2
      · rfl
      · exact absurd (h3 d' (by omega) hlt) b
    subst this
    rw [h2] at f
    exact Option.some.inj f

/-- R77: whether a LANE CLOSED AHEAD is carried upstream. -/
theorem laneClosedAhead_spec (c : Store) (hw : c.Whole) (p : Pass) : ∀ k ≤ c.siteCount,
    ((passCarry c p k).laneClosedAhead = true ↔ ∃ d, k ≤ d ∧ (∃ l, ArrowAt (runPass c p) d l) ∧
      ∀ j, k ≤ j → j ≤ d → legendAt (runPass c p) j = none) := by
  have none_exit : ∀ d, c.siteCount ≤ d → ¬ ∃ l, ArrowAt (runPass c p) d l := by
    rintro d hd ⟨l, hl⟩
    unfold ArrowAt at hl
    rcases Nat.eq_or_lt_of_le hd with rfl | h
    · rw [(runPass_exit_lanes c hw p).laneAt] at hl
      split at hl
      · unfold demandAspect at hl
        split at hl <;> simp at hl
      · simp at hl
    · unfold laneAt at hl
      rw [planSite_runPass_beyond c hw p d h] at hl
      simp [PlanSite.lane, PlanSite.empty] at hl
  refine passCarry_induction c hw _ ?_ ?_
  · rw [passCarry_end]
    exact ⟨fun h => (by cases h), fun ⟨d, hd, ha, _⟩ => absurd ha (none_exit d hd)⟩
  · intro i r hi hr h
    have hm := siteMerge_iff c hw p i hi r hr
    have hleg : r.messageCapable (p.available.getD i []) = false ↔ legendAt (runPass c p) i = none := by
      rw [legendAt_runPass c hw p i hi r hr]
      cases r.messageCapable (p.available.getD i []) <;> simp
    rw [passCarry_step c p i r hi hr, settleSite_ahead, Bool.and_eq_true, Bool.or_eq_true, h, hm, Bool.not_eq_true', hleg]
    constructor
    · rintro ⟨⟨d, h1, h2, h3⟩ | h1, h5⟩
      · refine ⟨d, by omega, h2, fun j hj hjd => ?_⟩
        rcases Nat.eq_or_lt_of_le hj with rfl | hlt
        · exact h5
        · exact h3 j hlt hjd
      · exact ⟨i, le_refl _, h1, fun j hj hjd => by rw [show j = i by omega]; exact h5⟩
    · rintro ⟨d, h1, h2, h3⟩
      refine ⟨?_, h3 i (le_refl _) h1⟩
      rcases Nat.eq_or_lt_of_le h1 with rfl | hlt
      · exact Or.inr h2
      · exact Or.inl ⟨d, hlt, h2, fun j hj hjd => h3 j (by omega) hjd⟩

theorem closedAhead_iff (c : Store) (hw : c.Whole) (p : Pass) (i : Nat) (hi : i < c.siteCount) (r : SiteRecord)
    (hr : c.site i = some r) :
    ((passCarry c p (i + 1)).laneClosedAhead || siteMerge p i r (passCarry c p (i + 1))) = true ↔
      ClosedAhead (runPass c p) i := by
  rw [Bool.or_eq_true, laneClosedAhead_spec c hw p (i + 1) hi, siteMerge_iff c hw p i hi r hr]
  unfold ClosedAhead
  constructor
  · rintro (⟨d, h1, h2, h3⟩ | h)
    · exact ⟨d, by omega, h2, fun k h4 h5 => h3 k h4 h5⟩
    · exact ⟨i, le_refl _, h, fun k h4 h5 => by omega⟩
  · rintro ⟨d, h1, h2, h3⟩
    rcases Nat.eq_or_lt_of_le h1 with rfl | hlt
    · exact Or.inr h2
    · exact Or.inl ⟨d, hlt, h2, fun j hj hjd => h3 j hj hjd⟩

theorem siteDischarge_iff (c : Store) (hw : c.Whole) (p : Pass) (i : Nat) (hi : i < c.siteCount) (r : SiteRecord)
    (hr : c.site i = some r) : siteDischarge p i r (passCarry c p (i + 1)) = true ↔
      limitAt (runPass c p) i ≠ none ∧ FullBelow (runPass c p) i := by
  unfold siteDischarge
  rw [Bool.and_eq_true, fullBelow_iff c hw p i hi, limitAt_runPass c hw p i hi r hr]
  generalize r.limitCapable (p.available.getD i []) = b
  cases b <;> simp

/-- R77: whether a CARRIAGEWAY CLOSED is carried upstream. -/
theorem carriagewayClosed_spec (c : Store) (hw : c.Whole) (p : Pass) : ∀ k ≤ c.siteCount,
    ((passCarry c p k).carriagewayClosed = true ↔ ∃ d, k ≤ d ∧ d < c.siteCount ∧ limitAt (runPass c p) d ≠ none ∧
      FullBelow (runPass c p) d ∧ ∀ j, k ≤ j → j ≤ d → legendAt (runPass c p) j = none) := by
  refine passCarry_induction c hw _ ?_ ?_
  · rw [passCarry_end]
    exact ⟨fun h => (by cases h), fun ⟨d, hd, h, _⟩ => by omega⟩
  · intro i r hi hr h
    have hm := siteDischarge_iff c hw p i hi r hr
    have hleg : r.messageCapable (p.available.getD i []) = false ↔ legendAt (runPass c p) i = none := by
      rw [legendAt_runPass c hw p i hi r hr]
      cases r.messageCapable (p.available.getD i []) <;> simp
    rw [passCarry_step c p i r hi hr, settleSite_closed, Bool.and_eq_true, Bool.or_eq_true, h, hm, Bool.not_eq_true', hleg]
    constructor
    · rintro ⟨⟨d, h1, h2, h3, h4, h6⟩ | ⟨h1, h2⟩, h5⟩
      · refine ⟨d, by omega, h2, h3, h4, fun j hj hjd => ?_⟩
        rcases Nat.eq_or_lt_of_le hj with rfl | hlt
        · exact h5
        · exact h6 j hlt hjd
      · exact ⟨i, le_refl _, hi, h1, h2, fun j hj hjd => by rw [show j = i by omega]; exact h5⟩
    · rintro ⟨d, h1, h2, h3, h4, h6⟩
      refine ⟨?_, h6 i (le_refl _) h1⟩
      rcases Nat.eq_or_lt_of_le h1 with rfl | hlt
      · exact Or.inr ⟨h3, h4⟩
      · exact Or.inl ⟨d, hlt, h2, h3, h4, fun j hj hjd => h6 j (by omega) hjd⟩

theorem carriagewayAhead_iff (c : Store) (hw : c.Whole) (p : Pass) (i : Nat) (hi : i < c.siteCount) (r : SiteRecord)
    (hr : c.site i = some r) :
    ((passCarry c p (i + 1)).carriagewayClosed || siteDischarge p i r (passCarry c p (i + 1))) = true ↔
      CarriagewayAhead (runPass c p) i := by
  rw [Bool.or_eq_true, carriagewayClosed_spec c hw p (i + 1) hi, siteDischarge_iff c hw p i hi r hr]
  unfold CarriagewayAhead
  rw [runPass_length c hw p]
  constructor
  · rintro (⟨d, h1, h2, h3, h4, h6⟩ | ⟨h1, h2⟩)
    · exact ⟨d, by omega, by omega, h3, h4, fun k h7 h8 => h6 k h7 h8⟩
    · exact ⟨i, le_refl _, by omega, h1, h2, fun k h4 h5 => by omega⟩
  · rintro ⟨d, h1, h2, h3, h4, h6⟩
    rcases Nat.eq_or_lt_of_le h1 with rfl | hlt
    · exact Or.inr ⟨h3, h4⟩
    · exact Or.inl ⟨d, hlt, by omega, h3, h4, fun j hj hjd => h6 j hj hjd⟩

/-! ## What a pass makes of its inputs -/

/-- R66 to R70: a lane of a site. -/
theorem runPass_laneRules (c : Store) (hw : c.Whole) (p : Pass) (i : Nat) (hi : i < c.siteCount) (r : SiteRecord)
    (hr : c.site i = some r) (l : Nat) (hl : r.kind.Present l) :
    ∃ e, (planSite (runPass c p) i).lane l = some e ∧ LaneRules p (runPass c p) i l e := by
  have hds := dutyInv c hw p (i + 1) hi
  have hlook := hds.lookup l
  refine ⟨{ (finishLane p (planSite p.plan i) (workLane p i (passCarry c p (i + 1)).duties l)).2 with
    unprotected := decide ((i, l) ∈ passMarks c p) }, ?_, ?_⟩
  · rw [planSite_runPass c hw p i hi r hr, markUnprotected_lane, settledSite_lane, if_pos ((mem_positions _ _).2 hl)]
    rfl
  generalize hw' : workLane p i (passCarry c p (i + 1)).duties l = w
  by_cases ha : ElemId.lane l ∈ p.available.getD i []
  · obtain ⟨b, held, he, hb1, hb2⟩ := startLane_lit (p.demandAt i) _ (planSite p.plan i) p.time l ha
    have hwv : w = LaneWork.afterDuty (passCarry c p (i + 1)).duties ⟨l, .shows b, held, false⟩ := by
      rw [← hw', workLane, he]
    obtain ⟨h1, h2, h3, h4, h5⟩ := afterDuty_spec (passCarry c p (i + 1)).duties ⟨l, .shows b, held, false⟩ rfl
    rw [← hwv] at h1 h2 h3 h4 h5
    have hcl : w.value = .shows .closed ↔ b = .closed := by
      constructor
      · intro hv
        by_contra hb
        rw [h4 b rfl hb] at hv
        split at hv
        · cases hv; exact hb rfl
        · rename_i d _
          have := arrow_cases d
          rw [LaneValue.shows.inj hv] at this
          simp at this
      · intro hb; exact h3 (by rw [hb])
    constructor
    · intro h; exact absurd ha h
    · intro _
      show w.value = _ ↔ _
      rw [hcl, hb1]
    · intro _ hv o k hwt
      have hb : b ≠ .closed := fun h => hv (hcl.2 h)
      obtain ⟨d, hd, ho, hc⟩ := hds.complete l o k hwt
      refine ⟨d.arrow, ?_, arrow_cases d, ho ▸ (hds.sound l d hd).2⟩
      show w.value = _
      rw [h4 b rfl hb, (hlook d).2 hd]
    · intro _ hv hno
      have hb : b ≠ .closed := fun h => hv (hcl.2 h)
      have hval : w.value = .shows b := by
        rw [h4 b rfl hb]
        cases hd : (passCarry c p (i + 1)).duties.lookup l with
        | none => rfl
        | some d => exact absurd (hds.sound l d ((hlook d).1 hd)).1 (hno _ _)
      refine ⟨fun q a hq hqv hm hh => ?_, fun hn => ?_⟩
      · show w.value = _
        rw [hval, (hb2 hb).1 q a hq hqv hm hh]
      · show w.value = _
        rw [hval, (hb2 hb).2 hn]
    · intro _
      show (w.held && decide ((((planSite p.plan i).lane w.position).getD (.fresh (.unavailable false))).value = w.value)) =
        true ↔ _
      have hpos : w.position = l := by rw [← hw', workLane_position]
      rw [hpos, h1, Bool.and_eq_true, decide_eq_true_iff, startLane_held _ _ _ _ _ _ _ ha he]
      constructor
      · rintro ⟨⟨hc, q, hq, hqv, hm, hh⟩, hv⟩
        rw [hq, Option.getD_some] at hv
        exact ⟨hc, q, b, hq, hqv, hv.symm.trans hqv, hm, hh⟩
      · rintro ⟨hc, q, a, hq, hqv, hv, hm, hh⟩
        replace hv : w.value = .shows a := hv
        refine ⟨⟨hc, q, hq, ?_, ?_, hh⟩, by rw [hq, Option.getD_some, hqv, hv]⟩
        all_goals
          have hab : b = a := by
            by_cases hb : b = .closed
            · rw [hcl.2 hb] at hv; rw [hb]; exact LaneValue.shows.inj hv
            · rcases hm with rfl | hm
              · exact absurd (hcl.1 hv) hb
              · exact (hb2 hb).1 q a hq hqv hm hh
          subst hab
        · exact hqv
        · exact hm
    · show w.displaced = true ↔ w.value = _ ∧ _
      rw [h5]
      refine ⟨fun h => (by simp at h), fun h => ?_⟩
      exfalso
      have := h.1
      by_cases hb : b = .closed
      · rw [hcl.2 hb] at this; cases this
      · rw [h4 b rfl hb] at this; cases this
  · obtain ⟨k, he, hk⟩ := startLane_dark (p.demandAt i) _ (planSite p.plan i) p.time l ha
    have hwv : w = LaneWork.afterDuty (passCarry c p (i + 1)).duties ⟨l, .unavailable k, false, false⟩ := by
      rw [← hw', workLane, he]
    obtain ⟨h1, h2, h3, h4, h5⟩ := afterDuty_spec (passCarry c p (i + 1)).duties ⟨l, .unavailable k, false, false⟩ rfl
    rw [← hwv] at h1 h2 h3 h4 h5
    have hval : w.value = .unavailable k := h2 k rfl
    constructor
    · intro _
      refine ⟨?_, ?_, fun hc => ?_, fun hc => ?_⟩
      · show laneDeadline _ _ _ w.value = none
        rw [hval]; unfold laneDeadline; simp
      · show (w.held && _) = false
        rw [h1]; rfl
      · show w.value = _; rw [hval, hk.2 hc]
      · show w.value = _
        rw [hval]
        cases k with
        | true => exact absurd (hk.1 rfl) hc
        | false => rfl
    · intro h; exact absurd h ha
    · intro h; exact absurd h ha
    · intro h; exact absurd h ha
    · intro h; exact absurd h ha
    · show w.displaced = true ↔ w.value = _ ∧ _
      rw [h5, hval]
      have : (∃ d, (passCarry c p (i + 1)).duties.lookup l = some d ∧ d.count < 2) ↔
          ∃ o n, n < 2 ∧ Waits (runPass c p) l o n (i + 1) := by
        constructor
        · rintro ⟨d, hd, hc⟩
          exact ⟨_, _, hc, (hds.sound l d ((hlook d).1 hd)).1⟩
        · rintro ⟨o, n, hn, hwt⟩
          obtain ⟨d, hd, -, hc⟩ := hds.complete l o n hwt
          exact ⟨d, (hlook d).2 hd, by omega⟩
      simp only [LaneValue.unavailable.injEq]
      rw [this]

/-! ## Limits -/

theorem within_tighten (x y : Limit) (b : Nat) : Within (tighten x y) b ↔ Within x b ∨ Within y b := by
  unfold Within tighten
  cases x with
  | none => simp
  | some v =>
    cases y with
    | none => simp
    | some w => simp

theorem tighten_cases (x y : Limit) : tighten x y = x ∨ tighten x y = y := by
  unfold tighten
  cases x with
  | none => exact Or.inr rfl
  | some v =>
    cases y with
    | none => exact Or.inl rfl
    | some w => rcases Nat.le_total v w with h | h <;> simp [h]

theorem within_some (v b : Nat) : Within (some v) b ↔ v ≤ b := by simp [Within]

/-- R73: the candidate keeps to the demand and steps up from the plan before. -/
theorem limitCandidate_spec (ps : Params) (q : PlanElem Limit) (d : Limit) (t : Nat) :
    (∀ v, d = some v → Within (limitCandidate ps q d t).1 v) ∧
    (∀ v, q.value = .value (some v) →
      (InHold t q.deadline → Within (limitCandidate ps q d t).1 v) ∧
      (v + paramValue ps .step ≤ paramValue ps .ceiling →
        Within (limitCandidate ps q d t).1 (v + paramValue ps .step))) ∧
    ((limitCandidate ps q d t).1 = d ∨ ∃ v, q.value = .value (some v) ∧
      (InHold t q.deadline ∧ (limitCandidate ps q d t).1 = some v ∨
        ¬ InHold t q.deadline ∧ v + paramValue ps .step ≤ paramValue ps .ceiling ∧
          (limitCandidate ps q d t).1 = some (v + paramValue ps .step))) := by
  unfold limitCandidate
  cases hq : q.value with
  | unavailable =>
    dsimp only
    exact ⟨fun v h => by rw [h, within_some], by simp, Or.inl rfl⟩
  | value x =>
    dsimp only
    by_cases h1 : limitAtLeast d x = true
    · rw [if_pos h1]
      refine ⟨fun v h => by rw [h, within_some], fun v hv => ?_, Or.inl rfl⟩
      cases hv
      have : ∃ w, d = some w ∧ w ≤ v := by
        unfold limitAtLeast at h1
        cases d with
        | none => cases h1
        | some w => exact ⟨w, rfl, by simpa using h1⟩
      obtain ⟨w, rfl, hwv⟩ := this
      simp only [within_some]
      exact ⟨fun _ => hwv, fun _ => by omega⟩
    · rw [if_neg h1]
      have hx : ∃ v, x = some v ∧ ∀ w, d = some w → v < w := by
        unfold limitAtLeast at h1
        cases x with
        | none => simp at h1
        | some v =>
          refine ⟨v, rfl, fun w hwd => ?_⟩
          subst hwd
          simpa using h1
      obtain ⟨v, rfl, hv⟩ := hx
      by_cases h2 : InHold t q.deadline
      · rw [if_pos (by rw [Bool.not_eq_true', ← Bool.not_eq_true, outOfHold_iff]; simpa using h2)]
        dsimp only
        refine ⟨fun w hwd => by rw [within_some]; have := hv w hwd; omega, fun w hwq => ?_, Or.inr ⟨v, rfl, Or.inl ⟨h2, rfl⟩⟩⟩
        cases hwq
        simp only [within_some]
        exact ⟨fun _ => le_refl _, fun _ => by omega⟩
      · rw [if_neg (by rw [Bool.not_eq_true', ← Bool.not_eq_true, outOfHold_iff]; simpa using h2)]
        unfold stepAbove
        dsimp only
        by_cases h3 : v + paramValue ps .step ≤ paramValue ps .ceiling
        · rw [if_pos h3]
          dsimp only
          refine ⟨fun w hwd => (within_tighten _ _ _).2 (Or.inl (by rw [hwd, within_some])), fun w hwq => ?_, ?_⟩
          · cases hwq
            exact ⟨fun h => absurd h h2, fun _ => (within_tighten _ _ _).2 (Or.inr ((within_some _ _).2 (le_refl _)))⟩
          · rcases tighten_cases d (some (v + paramValue ps .step)) with h | h
            · exact Or.inl h
            · exact Or.inr ⟨v, rfl, Or.inr ⟨h2, h3, h⟩⟩
        · rw [if_neg h3]
          dsimp only
          refine ⟨fun w hwd => by rw [hwd, within_some], fun w hwq => ?_, Or.inl rfl⟩
          cases hwq
          exact ⟨fun h => absurd h h2, fun h => absurd h h3⟩

/-- R73: whether a limit's relaxation is held. -/
theorem limitCandidate_held (ps : Params) (q : PlanElem Limit) (d : Limit) (t : Nat) :
    (limitCandidate ps q d t).2 = true ↔ ∃ v, q.value = .value (some v) ∧ InHold t q.deadline ∧ ∀ w, d = some w → v < w := by
  unfold limitCandidate
  cases hq : q.value with
  | unavailable => simp
  | value x =>
    dsimp only
    cases x with
    | none => simp [limitAtLeast]
    | some v =>
      have h1 : limitAtLeast d (some v) = true ↔ ¬ ∀ w, d = some w → v < w := by
        unfold limitAtLeast
        cases d <;> simp
      by_cases hl : limitAtLeast d (some v) = true
      · rw [if_pos hl]
        simpa using fun _ => h1.1 hl
      · rw [if_neg hl]
        have hw := not_not.1 (fun h => hl (h1.2 h))
        by_cases h2 : InHold t q.deadline
        · rw [if_pos (by rw [Bool.not_eq_true', ← Bool.not_eq_true, outOfHold_iff]; simpa using h2)]
          simpa [h2] using hw
        · rw [if_neg (by rw [Bool.not_eq_true', ← Bool.not_eq_true, outOfHold_iff]; simpa using h2)]
          dsimp only
          split <;> simp [h2]

/-- R74: the caps. -/
theorem capped_spec (ps : Params) (kind : SiteKind) (d : Demand) (merge full : Bool) (l : Limit) :
    (∀ b, Within l b → Within (capped ps kind d merge full l) b) ∧
    (merge = true → Within (capped ps kind d merge full l) (paramValue ps .mergeSpeed)) ∧
    (d.closed ≠ [] → Within (capped ps kind d merge full l) (paramValue ps .closureSpeed)) ∧
    ((∃ n, kind = .gantry n true) → d.opening = true → 0 ∉ d.closed →
      Within (capped ps kind d merge full l) (paramValue ps .hsSpeed)) ∧
    (full = true → Within (capped ps kind d merge full l) (paramValue ps .fullApproach)) ∧
    (capped ps kind d merge full l = l ∨ (merge = true ∧ capped ps kind d merge full l = some (paramValue ps .mergeSpeed)) ∨
      (d.closed ≠ [] ∧ capped ps kind d merge full l = some (paramValue ps .closureSpeed)) ∨
      ((∃ n, kind = .gantry n true) ∧ d.opening = true ∧ 0 ∉ d.closed ∧
        capped ps kind d merge full l = some (paramValue ps .hsSpeed)) ∨
      (full = true ∧ capped ps kind d merge full l = some (paramValue ps .fullApproach))) := by
  have hs : (kind.hasShoulder && d.opening && !d.closed.contains 0) = true ↔
      (∃ n, kind = .gantry n true) ∧ d.opening = true ∧ 0 ∉ d.closed := by
    cases kind with
    | gantry n s => cases s <;> simp [SiteKind.hasShoulder]
    | verge => simp [SiteKind.hasShoulder]
    | message => simp [SiteKind.hasShoulder]
  have hc : d.closed.isEmpty = false ↔ d.closed ≠ [] := by cases d.closed <;> simp
  -- one cap
  have one : ∀ (b : Bool) (x : Limit) (v : Nat), let y := if b then tighten x (some v) else x
      (∀ w, Within x w → Within y w) ∧ (b = true → Within y v) ∧ (y = x ∨ b = true ∧ y = some v) := by
    intro b x v
    cases b with
    | false => exact ⟨fun w h => h, fun h => (by cases h), Or.inl rfl⟩
    | true =>
      refine ⟨fun w h => (within_tighten _ _ _).2 (Or.inl h), fun _ => (within_tighten _ _ _).2 (Or.inr ((within_some _ _).2 (le_refl _))), ?_⟩
      rcases tighten_cases x (some v) with h | h
      · exact Or.inl h
      · exact Or.inr ⟨rfl, h⟩
  unfold capped
  dsimp only
  rw [show (if d.closed.isEmpty = true then (if merge = true then tighten l (some (paramValue ps .mergeSpeed)) else l)
      else tighten (if merge = true then tighten l (some (paramValue ps .mergeSpeed)) else l)
        (some (paramValue ps .closureSpeed))) =
      if (!d.closed.isEmpty) = true then tighten (if merge = true then tighten l (some (paramValue ps .mergeSpeed)) else l)
        (some (paramValue ps .closureSpeed)) else (if merge = true then tighten l (some (paramValue ps .mergeSpeed)) else l)
    from by cases d.closed.isEmpty <;> rfl]
  obtain ⟨a1, a2, a3⟩ := one merge l (paramValue ps .mergeSpeed)
  generalize (if merge = true then tighten l (some (paramValue ps .mergeSpeed)) else l) = l1 at *
  obtain ⟨b1, b2, b3⟩ := one (!d.closed.isEmpty) l1 (paramValue ps .closureSpeed)
  generalize (if (!d.closed.isEmpty) = true then tighten l1 (some (paramValue ps .closureSpeed)) else l1) = l2 at *
  obtain ⟨c1, c2, c3⟩ := one (kind.hasShoulder && d.opening && !d.closed.contains 0) l2 (paramValue ps .hsSpeed)
  generalize (if (kind.hasShoulder && d.opening && !d.closed.contains 0) = true then
    tighten l2 (some (paramValue ps .hsSpeed)) else l2) = l3 at *
  obtain ⟨d1, d2, d3⟩ := one full l3 (paramValue ps .fullApproach)
  generalize (if full = true then tighten l3 (some (paramValue ps .fullApproach)) else l3) = l4 at *
  rw [hs] at c2 c3
  rw [Bool.not_eq_true', hc] at b2 b3
  refine ⟨fun b h => d1 _ (c1 _ (b1 _ (a1 _ h))), fun h => d1 _ (c1 _ (b1 _ (a2 h))), fun h => d1 _ (c1 _ (b2 h)),
    fun h1 h2 h3 => d1 _ (c2 ⟨h1, h2, h3⟩), d2, ?_⟩
  rcases d3 with rfl | d3
  · rcases c3 with rfl | c3
    · rcases b3 with rfl | b3
      · rcases a3 with rfl | a3
        · exact Or.inl rfl
        · exact Or.inr (Or.inl a3)
      · exact Or.inr (Or.inr (Or.inl b3))
    · exact Or.inr (Or.inr (Or.inr (Or.inl ⟨c3.1.1, c3.1.2.1, c3.1.2.2, c3.2⟩)))
  · exact Or.inr (Or.inr (Or.inr (Or.inr d3)))

/-- R75: lead-in. -/
theorem ledIn_spec (ps : Params) (lead : Option Nat) (l : Limit) :
    (∀ b, Within l b → Within (ledIn ps lead l) b) ∧
    (∀ v, lead = some v → v + paramValue ps .step ≤ paramValue ps .ceiling →
      Within (ledIn ps lead l) (v + paramValue ps .step)) ∧
    (ledIn ps lead l = l ∨ ∃ v, lead = some v ∧ v + paramValue ps .step ≤ paramValue ps .ceiling ∧
      ledIn ps lead l = some (v + paramValue ps .step)) := by
  unfold ledIn stepAbove
  cases lead with
  | none => exact ⟨fun b h => h, by simp, Or.inl rfl⟩
  | some v =>
    dsimp only
    by_cases h3 : v + paramValue ps .step ≤ paramValue ps .ceiling
    · rw [if_pos h3]
      dsimp only
      refine ⟨fun b h => (within_tighten _ _ _).2 (Or.inl h), fun w hwv _ => ?_, ?_⟩
      · cases hwv; exact (within_tighten _ _ _).2 (Or.inr ((within_some _ _).2 (le_refl _)))
      · rcases tighten_cases l (some (v + paramValue ps .step)) with h | h
        · exact Or.inl h
        · exact Or.inr ⟨v, rfl, h3, h⟩
    · rw [if_neg h3]
      refine ⟨fun b h => h, fun w hwv h => ?_, Or.inl rfl⟩
      cases hwv; exact absurd h h3

/-- R73 to R75 and R80 at a limit-capable site. -/
theorem runPass_limitRules (c : Store) (hw : c.Whole) (p : Pass) (i : Nat) (hi : i < c.siteCount) (r : SiteRecord)
    (hr : c.site i = some r) (hcap : r.limitCapable (p.available.getD i []) = true) :
    LimitRules p (runPass c p) i r.kind (siteLimit p i r (passCarry c p (i + 1))) := by
  have hmerge := siteMerge_iff c hw p i hi r hr
  have hfull := siteDischarge_iff c hw p i hi r hr
  have hlim : limitAt (runPass c p) i ≠ none := by rw [limitAt_runPass c hw p i hi r hr, if_pos hcap]; simp
  have hlead := nextLimit_iff c hw p i hi
  obtain ⟨a1, a2, a3⟩ := limitCandidate_spec p.params ((planSite p.plan i).limit.getD (.fresh .unavailable))
    (p.demandAt i).limit p.time
  obtain ⟨b1, b2, b3, b4, b5, b6⟩ := capped_spec p.params r.kind (p.demandAt i)
    (siteMerge p i r (passCarry c p (i + 1))) (siteDischarge p i r (passCarry c p (i + 1))) (siteCandidate p i).1
  obtain ⟨c1, c2, c3⟩ := ledIn_spec p.params (passCarry c p (i + 1)).leadIn (capped p.params r.kind (p.demandAt i)
    (siteMerge p i r (passCarry c p (i + 1))) (siteDischarge p i r (passCarry c p (i + 1))) (siteCandidate p i).1)
  have up : ∀ b, Within (siteCandidate p i).1 b → Within (siteLimit p i r (passCarry c p (i + 1))) b :=
    fun b h => c1 b (b1 b h)
  constructor
  · intro v hv; exact up v (a1 v hv)
  · intro h; exact c1 _ (b2 (hmerge.2 h))
  · intro h; exact c1 _ (b3 h)
  · intro h1 h2 h3; exact c1 _ (b4 h1 h2 h3)
  · intro h; exact c1 _ (b5 (hfull.2 ⟨hlim, h⟩))
  · intro d v hd hv hs
    exact c2 v ((hlead (some v)).2 ⟨d, hd, hv⟩) hs
  · intro q v hq hv
    have hq' : ((planSite p.plan i).limit.getD (.fresh .unavailable)) = q := by rw [hq]; rfl
    rw [hq'] at a2
    obtain ⟨h1, h2⟩ := a2 v hv
    have e : siteCandidate p i = limitCandidate p.params q (p.demandAt i).limit p.time := by unfold siteCandidate; rw [hq']
    rw [← e] at h1 h2
    exact ⟨fun h => up _ (h1 h), fun h => up _ (h2 h)⟩
  · rcases c3 with h | ⟨v, hv, hs, h⟩
    · have e : siteLimit p i r (passCarry c p (i + 1)) = capped p.params r.kind (p.demandAt i)
        (siteMerge p i r (passCarry c p (i + 1))) (siteDischarge p i r (passCarry c p (i + 1))) (siteCandidate p i).1 := h
      rw [e]
      rcases b6 with h | ⟨h1, h⟩ | ⟨h1, h⟩ | ⟨h1, h2, h3, h⟩ | ⟨h1, h⟩
      · rw [h]
        rcases a3 with h | ⟨v, hv, h⟩
        · exact Or.inl h
        · right; left
          cases hq : (planSite p.plan i).limit with
          | none => rw [hq] at hv; simp [PlanElem.fresh] at hv
          | some q =>
            rw [hq] at hv h
            refine ⟨q, v, rfl, hv, ?_⟩
            unfold siteCandidate
            rw [hq]
            exact h
      · exact Or.inr (Or.inr (Or.inl ⟨hmerge.1 h1, h⟩))
      · exact Or.inr (Or.inr (Or.inr (Or.inl ⟨h1, h⟩)))
      · exact Or.inr (Or.inr (Or.inr (Or.inr (Or.inl ⟨h1, h2, h3, h⟩))))
      · exact Or.inr (Or.inr (Or.inr (Or.inr (Or.inr (Or.inl ⟨(hfull.1 h1).2, h⟩)))))
    · obtain ⟨d, hd, hl⟩ := (hlead (some v)).1 hv
      exact Or.inr (Or.inr (Or.inr (Or.inr (Or.inr (Or.inr ⟨d, v, hd, hl, hs, h⟩)))))

/-! ## Legends -/

theorem higher_rank (x y : Legend) : x.rank ≤ (higher x y).rank ∧ y.rank ≤ (higher x y).rank := by
  unfold higher; split <;> omega

theorem higher_cases (x y : Legend) : higher x y = x ∨ higher x y = y := by
  unfold higher; split <;> simp

/-- R77 and R78 at a message-capable site. -/
theorem runPass_legendRules (c : Store) (hw : c.Whole) (p : Pass) (i : Nat) (hi : i < c.siteCount) (r : SiteRecord)
    (hr : c.site i = some r) (e : PlanElem Legend) (he : e.held = (siteLegend p i r (passCarry c p (i + 1))).2) :
    LegendRules p (runPass c p) i e (siteLegend p i r (passCarry c p (i + 1))).1 := by
  have h1 := closedAhead_iff c hw p i hi r hr
  have h2 := carriagewayAhead_iff c hw p i hi r hr
  unfold siteLegend at he ⊢
  generalize hx : ((passCarry c p (i + 1)).laneClosedAhead || siteMerge p i r (passCarry c p (i + 1))) = x at *
  generalize hy : ((passCarry c p (i + 1)).carriagewayClosed || siteDischarge p i r (passCarry c p (i + 1))) = y at *
  generalize hwant : higher (higher ((p.demandAt i).legend.getD .blank) (if x = true then Legend.laneClosedAhead else .blank))
    (if y = true then Legend.carriagewayClosed else .blank) = wanted at *
  have r1 := higher_rank (higher ((p.demandAt i).legend.getD .blank) (if x = true then Legend.laneClosedAhead else .blank))
    (if y = true then Legend.carriagewayClosed else .blank)
  have r2 := higher_rank ((p.demandAt i).legend.getD .blank) (if x = true then Legend.laneClosedAhead else .blank)
  rw [hwant] at r1
  have set : ∀ q : PlanElem Legend, (settleLegend q wanted p.time).1.rank ≥ wanted.rank ∧
      (∀ h, q.value = .value h → InHold p.time q.deadline → h.rank ≤ (settleLegend q wanted p.time).1.rank) ∧
      ((settleLegend q wanted p.time).1 = wanted ∨ ∃ h, q.value = .value h ∧ InHold p.time q.deadline ∧
        settleLegend q wanted p.time = (h, true)) ∧
      ((settleLegend q wanted p.time).2 = true ↔ ∃ h, q.value = .value h ∧ InHold p.time q.deadline ∧
        wanted.rank < h.rank) := by
    intro q
    unfold settleLegend
    cases hq : q.value with
    | unavailable => exact ⟨le_refl _, by simp, Or.inl rfl, by simp⟩
    | value g =>
      dsimp only
      by_cases hc : g.rank ≤ wanted.rank ∨ outOfHold q.deadline p.time = true
      · rw [if_pos hc]
        refine ⟨le_refl _, fun h hh hd => ?_, Or.inl rfl, ?_⟩
        · cases hh
          rcases hc with hc | hc
          · exact hc
          · exact absurd hd ((outOfHold_iff _ _).1 hc)
        · constructor
          · intro h; cases h
          · rintro ⟨h, hh, hd, hr⟩
            cases hh
            rcases hc with hc | hc
            · omega
            · exact absurd hd ((outOfHold_iff _ _).1 hc)
      · rw [if_neg hc]
        rw [not_or] at hc
        have hin : InHold p.time q.deadline := by
          by_contra hn
          exact hc.2 ((outOfHold_iff _ _).2 hn)
        exact ⟨Nat.le_of_lt (Nat.lt_of_not_le hc.1), fun h hh _ => by cases hh; exact le_refl _,
          Or.inr ⟨g, rfl, hin, rfl⟩, fun _ => ⟨g, rfl, hin, Nat.lt_of_not_le hc.1⟩, fun _ => rfl⟩
  have low : ∀ h : Legend, wanted.rank < h.rank ↔ Legend.rank .blank < h.rank ∧
      (∀ w, (p.demandAt i).legend = some w → w.rank < h.rank) ∧ (x = true → Legend.rank .laneClosedAhead < h.rank) ∧
      (y = true → Legend.rank .carriagewayClosed < h.rank) := by
    intro h
    have hr : ∀ a b : Legend, (higher a b).rank < h.rank ↔ a.rank < h.rank ∧ b.rank < h.rank := by
      intro a b; unfold higher; split <;> omega
    rw [← hwant, hr, hr]
    have hb : Legend.rank .blank = 0 := rfl
    cases (p.demandAt i).legend <;> cases x <;> cases y <;> simp <;> omega
  obtain ⟨s1, s2, s3, s4⟩ := set ((planSite p.plan i).legend.getD (.fresh .unavailable))
  constructor
  · intro h hh
    rw [hh] at r2
    have := r2.1
    simp only [Option.getD_some] at this
    have e : higher (higher ((p.demandAt i).legend.getD .blank) (if x = true then Legend.laneClosedAhead else .blank))
      (if y = true then Legend.carriagewayClosed else .blank) = wanted := hwant
    rw [hh] at r1
    simp only [Option.getD_some] at r1
    omega
  · intro hc
    rw [h1.2 hc] at r1 r2
    simp only [if_true] at r1 r2
    omega
  · intro hc
    rw [h2.2 hc] at r1
    simp only [if_true] at r1
    omega
  · intro q h hq hv hd
    rw [hq] at s2 ⊢
    exact s2 h hv hd
  · rcases s3 with h | ⟨h, hv, hd, hs⟩
    · rw [h, ← hwant]
      rcases higher_cases (higher ((p.demandAt i).legend.getD .blank) (if x = true then Legend.laneClosedAhead else .blank))
        (if y = true then Legend.carriagewayClosed else .blank) with e1 | e1
      · rw [e1]
        rcases higher_cases ((p.demandAt i).legend.getD .blank) (if x = true then Legend.laneClosedAhead else .blank) with e2 | e2
        · rw [e2]
          cases hd : (p.demandAt i).legend with
          | none => exact Or.inl rfl
          | some g => exact Or.inr (Or.inl rfl)
        · rw [e2]
          cases x with
          | false => exact Or.inl rfl
          | true => exact Or.inr (Or.inr (Or.inl ⟨h1.1 rfl, rfl⟩))
      · rw [e1]
        cases y with
        | false => exact Or.inl rfl
        | true => exact Or.inr (Or.inr (Or.inr (Or.inl ⟨h2.1 rfl, rfl⟩)))
    · right; right; right; right
      cases hq : (planSite p.plan i).legend with
      | none => rw [hq] at hv; simp [PlanElem.fresh] at hv
      | some q =>
        rw [hq] at hv hd hs he
        simp only [Option.getD_some] at hv hd hs he ⊢
        exact ⟨q, rfl, by rw [hs]; exact hv, hd, by rw [he, hs]⟩
  · rw [he, s4]
    constructor
    · rintro ⟨h, hv, hd, hr⟩
      cases hq : (planSite p.plan i).legend with
      | none => rw [hq] at hv; simp [PlanElem.fresh] at hv
      | some q =>
        rw [hq] at hv hd
        obtain ⟨l1, l2, l3, l4⟩ := (low h).1 hr
        exact ⟨q, h, rfl, hv, hd, l1, l2, fun g => l3 (h1.2 g), fun g => l4 (h2.2 g)⟩
    · rintro ⟨q, h, hq, hv, hd, l1, l2, l3, l4⟩
      rw [hq]
      exact ⟨h, hv, hd, (low h).2 ⟨l1, l2, fun g => l3 (h1.1 g), fun g => l4 (h2.1 g)⟩⟩

/-! ## Deadlines -/

theorem laneDeadline_spec (ps : Params) (time : Nat) (q : LaneElem) (b : Aspect) :
    (q.value = .shows b → laneDeadline ps time q (.shows b) = q.deadline) ∧
    (∀ a, q.value = .shows a → a ≠ b → laneDeadline ps time q (.shows b) =
      some (time + (if b.weight < a.weight then paramValue ps .relaxHold else paramValue ps .minDwell) * 1000)) ∧
    (∀ k, q.value = .unavailable k → laneDeadline ps time q (.shows b) = some (time + paramValue ps .minDwell * 1000)) := by
  unfold laneDeadline holdUntil
  refine ⟨fun h => by simp [h], fun a h hne => ?_, fun k h => by simp [h]⟩
  simp only [h, hne, if_false]
  split <;> rfl

theorem limitDeadline_spec (ps : Params) (time : Nat) (q : PlanElem Limit) (b : Limit) :
    (q.value = .value b → limitDeadline ps time q b = q.deadline) ∧
    (q.value = .unavailable ∨ (∃ v a, b = some v ∧ q.value = .value a ∧ ∀ w, a = some w → v < w) →
      limitDeadline ps time q b = some (time + paramValue ps .minDwell * 1000)) ∧
    ((∃ w, q.value = .value (some w) ∧ ∀ v, b = some v → w < v) →
      limitDeadline ps time q b = some (time + paramValue ps .relaxHold * 1000)) := by
  unfold limitDeadline holdUntil
  refine ⟨fun h => by simp [h], ?_, ?_⟩
  · rintro (h | ⟨v, a, rfl, h, hw⟩)
    · simp [h]
    · rw [h]
      dsimp only
      rw [if_neg (by rintro rfl; exact absurd (hw v rfl) (lt_irrefl _)), if_pos]
      unfold limitAtLeast
      cases a with
      | none => rfl
      | some w => simpa using Nat.le_of_lt (hw w rfl)
  · rintro ⟨w, h, hv⟩
    rw [h]
    dsimp only
    rw [if_neg (by rintro rfl; exact absurd (hv w rfl) (lt_irrefl _)), if_neg]
    unfold limitAtLeast
    cases b with
    | none => simp
    | some v => simpa using hv v rfl

/-- R64 to R81: what a pass over a whole section makes of its inputs. -/
theorem runPass_rules (c : Store) (hw : c.Whole) (p : Pass) : PassRules c p (runPass c p) := by
  constructor
  · exact runPass_length c hw p
  · intro b hb
    rw [planSite_runPass_exit c hw p]
    refine ⟨rfl, rfl, fun l => ?_⟩
    rw [markUnprotected_lane, settledExit_lane]
    have hpos : l ∈ ((c.boundary.map (·.positions)).getD []) ↔ LanePresent b.running b.shoulder l := by
      rw [Option.mem_def] at hb
      rw [hb]
      exact mem_lanePositions _ _ l
    by_cases hl : LanePresent b.running b.shoulder l
    · rw [if_pos (hpos.2 hl)]
      refine ⟨fun _ => ⟨_, rfl, rfl, rfl, rfl, fun hc => ?_, fun hc => ?_⟩, fun h => absurd hl h⟩
      · show LaneValue.shows (demandAspect (p.demandAt c.siteCount) l) = _
        rw [(demandAspect_closed _ l).2 hc]
      · show LaneValue.shows (demandAspect (p.demandAt c.siteCount) l) = _
        rw [demandAspect_opened _ l hc]
    · rw [if_neg (fun h => hl (hpos.1 h))]
      exact ⟨fun h => absurd h hl, fun _ => rfl⟩
  · intro i hi r hr l
    refine ⟨fun hl => runPass_laneRules c hw p i hi r hr l hl, fun hl => ?_⟩
    rw [planSite_runPass c hw p i hi r hr, markUnprotected_lane, settledSite_lane,
      if_neg (fun h => hl ((mem_positions _ _).1 h))]
    rfl
  · intro i hi l e he
    have hm : e.unprotected = decide ((i, l) ∈ passMarks c p) := by
      rcases Nat.eq_or_lt_of_le hi with rfl | hlt
      · rw [planSite_runPass_exit c hw p, markUnprotected_lane, Option.map_eq_some_iff] at he
        obtain ⟨e', -, rfl⟩ := he
        rfl
      · obtain ⟨r, hr⟩ := Option.ne_none_iff_exists'.1 (hw.2.1 i hlt)
        rw [planSite_runPass c hw p i hlt r hr, markUnprotected_lane, Option.map_eq_some_iff] at he
        obtain ⟨e', -, rfl⟩ := he
        rfl
    rw [hm, decide_eq_true_iff, passMarks_spec c hw p]
  · intro i hi r hr
    have hlim := limitAt_runPass c hw p i hi r hr
    have hrec : (planSite (runPass c p) i).limit = (settledSite p i r (passCarry c p (i + 1))).limit := by
      rw [planSite_runPass c hw p i hi r hr, markUnprotected_limit]
    rw [hrec, settledSite_limit]
    refine ⟨fun hk => by rw [hk]; rfl, fun hk => ?_⟩
    have hh : r.kind.hasLimit = true := by
      cases hkk : r.kind <;> simp_all [SiteKind.hasLimit]
    rw [if_pos hh]
    rw [← limitCapable_iff]
    refine ⟨fun hcap => ?_, fun hcap => ?_⟩
    · rw [if_pos hcap] at hlim
      refine ⟨⟨_, hlim, runPass_limitRules c hw p i hi r hr hcap⟩, fun e he => ?_⟩
      rw [if_pos hcap] at he
      cases he
      unfold LimitHeld
      refine (limitCandidate_held p.params ((planSite p.plan i).limit.getD (.fresh .unavailable)) _ p.time).trans ?_
      cases (planSite p.plan i).limit with
      | none => simp [PlanElem.fresh]
      | some q => simp
    · rw [if_neg hcap]; rfl
  · intro i hi r hr
    have hrec : (planSite (runPass c p) i).legend = (settledSite p i r (passCarry c p (i + 1))).legend := by
      rw [planSite_runPass c hw p i hi r hr, markUnprotected_legend]
    rw [hrec, settledSite_legend]
    refine ⟨fun hk => by rw [hk]; rfl, fun hk => ?_⟩
    rw [if_pos hk]
    refine ⟨fun ha => ?_, fun ha => ?_⟩
    · rw [if_pos ((messageCapable_iff r _).2 ⟨hk, ha⟩)]
      exact ⟨_, _, rfl, rfl, runPass_legendRules c hw p i hi r hr _ rfl⟩
    · rw [if_neg (fun h => ha ((messageCapable_iff r _).1 h).2)]; rfl
  · intro i hi
    obtain ⟨r, hr⟩ := Option.ne_none_iff_exists'.1 (hw.2.1 i hi)
    have hrec := planSite_runPass c hw p i hi r hr
    refine ⟨?_, ?_, ?_⟩
    · intro l e b he hb
      rw [hrec, markUnprotected_lane, settledSite_lane] at he
      split at he
      · cases he
        have hb' : (workLane p i (passCarry c p (i + 1)).duties l).value = .shows b := hb
        obtain ⟨h1, h2, h3⟩ := laneDeadline_spec p.params p.time
          (((planSite p.plan i).lane l).getD (.fresh (.unavailable false))) b
        have hd : ∀ q, (planSite p.plan i).lane l = some q →
            ((planSite p.plan i).lane l).getD (.fresh (.unavailable false)) = q := fun q hq => by rw [hq]; rfl
        have hdl : (finishLane p (planSite p.plan i) (workLane p i (passCarry c p (i + 1)).duties l)).2.deadline =
            laneDeadline p.params p.time (((planSite p.plan i).lane l).getD (.fresh (.unavailable false))) (.shows b) := by
          unfold finishLane
          dsimp only
          rw [workLane_position, hb']
        dsimp only
        rw [hdl]
        refine ⟨fun q hq hv => ?_, fun q a hq hv hne => ?_, fun q k hq hv => ?_⟩
        · rw [hd q hq] at h1 ⊢; exact h1 hv
        · rw [hd q hq] at h2 ⊢; exact h2 a hv hne
        · rw [hd q hq] at h3 ⊢; exact h3 k hv
      · cases he
    · intro q e b hq he hb
      rw [hrec, markUnprotected_limit, settledSite_limit] at he
      split at he
      · split at he
        · cases he
          cases hb
          have e : (planSite p.plan i).limit.getD (.fresh .unavailable) = q := by rw [hq]; rfl
          dsimp only
          rw [e]
          exact limitDeadline_spec p.params p.time q _
        · cases he
          cases hb
      · cases he
    · intro q e h hq he hh
      rw [hrec, markUnprotected_legend, settledSite_legend] at he
      split at he
      · split at he
        · cases he
          cases hh
          have e : (planSite p.plan i).legend.getD (.fresh .unavailable) = q := by rw [hq]; rfl
          dsimp only
          rw [e]
          unfold legendDeadline holdUntil
          exact ⟨fun h => if_pos h, fun h => if_neg h⟩
        · cases he
          cases hh
      · cases he

end Sys2Proof.Machine
end

