-- ==== Sys2Proof/Laws/Parts.lean ====
section
/-! SUPPORT. What the delivery controller's operations do to the parts of the sites: what each leaves, what it makes of the
site it acts on, and that releases, completion and re-forming are as R145 to R156 state them. -/

namespace Sys2Proof.Machine

/-! ## What an operation on one site leaves -/

/-- The command waiting for a site's unit. -/
def State.waitingOf (s : State) (i : Nat) : Option SetCommand := (s.line (s.siteLine i)).waitingFor i

/-- Nothing but the records and counts of delivery's parts and the SET queues differs. -/
structure PartsOnly (s t : State) : Prop where
  eq : t = { s with delivery := t.delivery, lines := t.lines }
  delivery : t.delivery = { s.delivery with
    sites := t.delivery.sites, abandoned := t.delivery.abandoned, abandonments := t.delivery.abandonments }
  length : t.delivery.sites.length = s.delivery.sites.length

theorem PartsOnly.refl (s : State) : PartsOnly s s := ⟨rfl, rfl, rfl⟩

theorem PartsOnly.trans {s t u : State} (h : PartsOnly s t) (g : PartsOnly t u) : PartsOnly s u where
  eq := by rw [g.eq, h.eq]
  delivery := by rw [g.delivery, h.delivery]
  length := g.length.trans h.length

theorem PartsOnly.store {s t : State} (h : PartsOnly s t) : t.store = s.store := by rw [h.eq]
theorem PartsOnly.units {s t : State} (h : PartsOnly s t) : t.units = s.units := by rw [h.eq]
theorem PartsOnly.mode {s t : State} (h : PartsOnly s t) : t.mode = s.mode := by rw [h.eq]
theorem PartsOnly.evaluator {s t : State} (h : PartsOnly s t) : t.evaluator = s.evaluator := by rw [h.eq]
theorem PartsOnly.ports {s t : State} (h : PartsOnly s t) : t.ports = s.ports := by rw [h.eq]
theorem PartsOnly.target {s t : State} (h : PartsOnly s t) : t.delivery.target = s.delivery.target := by rw [h.delivery]
theorem PartsOnly.state {s t : State} (h : PartsOnly s t) : t.delivery.state = s.delivery.state := by rw [h.delivery]
theorem PartsOnly.signState {s t : State} (h : PartsOnly s t) (i : Nat) : t.signState i = s.signState i := by
  unfold State.signState State.unit; rw [h.units]
theorem PartsOnly.siteLine {s t : State} (h : PartsOnly s t) (i : Nat) : t.siteLine i = s.siteLine i := by
  unfold State.siteLine; rw [h.store]

/-- And neither site i nor the command waiting for it. -/
structure Untouched (i : Nat) (s t : State) : Prop where
  parts : PartsOnly s t
  site : t.site i = s.site i
  waiting : t.waitingOf i = s.waitingOf i

theorem Untouched.refl (i : Nat) (s : State) : Untouched i s s := ⟨.refl s, rfl, rfl⟩

theorem Untouched.trans {i : Nat} {s t u : State} (h : Untouched i s t) (g : Untouched i t u) : Untouched i s u :=
  ⟨h.parts.trans g.parts, g.site.trans h.site, g.waiting.trans h.waiting⟩

/-! ## Queues -/

theorem waitingFor_enqueue (r : LineRec) (c : SetCommand) (i : Nat) (hc : c.inProgress = false) :
    (r.enqueue c).waitingFor i = if c.site = i then some c else r.waitingFor i := by
  have map_other : ∀ xs : List SetCommand, c.site ≠ i →
      (xs.map fun x => if decide (x.site = c.site) && !x.inProgress then c else x).find?
        (fun x => decide (x.site = i) && !x.inProgress) = xs.find? fun x => decide (x.site = i) && !x.inProgress := by
    intro xs hi
    induction xs with
    | nil => rfl
    | cons x xs ih =>
      rw [List.map_cons, List.find?_cons, List.find?_cons, ih]
      by_cases hx : (decide (x.site = c.site) && !x.inProgress) = true
      · rw [if_pos hx]
        have hs : x.site = c.site := by simp at hx; exact hx.1
        simp [hi, hs]
      · rw [if_neg hx]
  have map_same : ∀ xs : List SetCommand, (xs.find? fun x => decide (x.site = c.site) && !x.inProgress).isSome →
      (xs.map fun x => if decide (x.site = c.site) && !x.inProgress then c else x).find?
        (fun x => decide (x.site = c.site) && !x.inProgress) = some c := by
    intro xs
    induction xs with
    | nil => intro h; cases h
    | cons x xs ih =>
      intro h
      rw [List.map_cons, List.find?_cons]
      by_cases hx : (decide (x.site = c.site) && !x.inProgress) = true
      · rw [if_pos hx]; simp [hc]
      · rw [if_neg hx]
        rw [List.find?_cons] at h
        simp only [hx] at h ⊢
        exact ih h
  unfold LineRec.enqueue LineRec.waitingFor
  by_cases hw : ((r.queue.find? fun x => decide (x.site = c.site) && !x.inProgress).isSome) = true
  · rw [if_pos hw]
    dsimp only
    by_cases hi : c.site = i
    · subst hi; rw [if_pos rfl]; exact map_same _ hw
    · rw [if_neg hi]; exact map_other _ hi
  · rw [if_neg hw]
    dsimp only
    rw [List.find?_append]
    by_cases hi : c.site = i
    · subst hi
      rw [if_pos rfl]
      have : (r.queue.find? fun x => decide (x.site = c.site) && !x.inProgress) = none := by
        simpa using hw
      rw [this]
      simp [hc]
    · rw [if_neg hi]
      simp [hi]

theorem waitingFor_unqueue (r : LineRec) (i j : Nat) :
    (r.unqueue i).waitingFor j = if i = j then none else r.waitingFor j := by
  unfold LineRec.unqueue LineRec.waitingFor
  dsimp only
  rw [List.find?_filter]
  by_cases h : i = j
  · subst h
    rw [if_pos rfl, List.find?_eq_none]
    intro x _
    simp only [Bool.not_and, Bool.not_not, Bool.or_eq_true, Bool.not_eq_true', decide_eq_true_eq, Bool.and_eq_true]
    cases x.inProgress <;> simp
  · rw [if_neg h]
    congr 1
    funext x
    by_cases hx : x.site = j
    · have : x.site ≠ i := fun e => h (e ▸ hx)
      simp [hx, Ne.symm h]
    · simp [hx]

/-! ## Plain updates of one site -/

theorem modifySite_site (s : State) (i j : Nat) (f : DeliverySite → DeliverySite) :
    (s.modifySite i f).site j = if j = i then (s.site i).map f else s.site j := by
  unfold State.modifySite
  cases h : s.site i with
  | none =>
    by_cases hj : j = i
    · subst hj; simp [h]
    · simp [hj]
  | some d =>
    dsimp only
    unfold State.site at h ⊢
    dsimp only
    rw [List.getElem?_set]
    by_cases hj : j = i
    · subst hj
      have := (List.getElem?_eq_some_iff.1 h).1
      simp [this]
    · simp [hj, Ne.symm hj]

theorem modifySite_waiting (s : State) (i j : Nat) (f : DeliverySite → DeliverySite) :
    (s.modifySite i f).waitingOf j = s.waitingOf j := by
  unfold State.waitingOf State.siteLine
  rw [State.modifySite_store, State.modifySite_line]

theorem modifySite_parts (s : State) (i : Nat) (f : DeliverySite → DeliverySite) : PartsOnly s (s.modifySite i f) := by
  unfold State.modifySite
  split
  · exact .refl s
  · exact ⟨rfl, rfl, by simp⟩

theorem setLine_parts (s : State) (l : LineId) (r : LineRec) : PartsOnly s (s.setLine l r) := ⟨rfl, rfl, rfl⟩

/-- A command placed in the queue of its site's line. -/
theorem enqueue_waiting (s : State) (i j : Nat) (c : SetCommand) (hc : c.inProgress = false) (hs : c.site = i) :
    (s.setLine (s.siteLine i) ((s.line (s.siteLine i)).enqueue c)).waitingOf j =
      if j = i then some c else s.waitingOf j := by
  unfold State.waitingOf
  show ((s.setLine _ _).line (s.siteLine j)).waitingFor j = _
  rw [State.setLine_line]
  by_cases hj : j = i
  · subst hj
    rw [if_pos rfl, if_pos rfl, waitingFor_enqueue _ _ _ hc, if_pos hs]
  · rw [if_neg hj]
    split
    · rename_i hl
      rw [waitingFor_enqueue _ _ _ hc, if_neg (by rw [hs]; exact Ne.symm hj), hl]
    · rfl

/-! ## Withdrawal (R120, R149) -/

theorem withdraw_site (s : State) (i j : Nat) : (s.withdraw i).site j =
    if j = i then (s.site i).map fun d => match s.waitingOf i with
      | none => d
      | some c => d.uncommand c.part
    else s.site j := by
  unfold State.withdraw State.waitingOf
  cases h : (s.line (s.siteLine i)).waitingFor i with
  | none => by_cases hj : j = i <;> simp [hj]
  | some c =>
    dsimp only
    rw [modifySite_site]
    rfl

theorem withdraw_waiting (s : State) (i j : Nat) :
    (s.withdraw i).waitingOf j = if j = i then none else s.waitingOf j := by
  unfold State.withdraw
  cases h : (s.line (s.siteLine i)).waitingFor i with
  | none =>
    by_cases hj : j = i
    · subst hj; rw [if_pos rfl]; exact h
    · rw [if_neg hj]
  | some c =>
    dsimp only
    rw [modifySite_waiting]
    unfold State.waitingOf
    show ((s.setLine _ _).line (s.siteLine j)).waitingFor j = _
    rw [State.setLine_line]
    by_cases hj : j = i
    · subst hj; rw [if_pos rfl, if_pos rfl, waitingFor_unqueue, if_pos rfl]
    · rw [if_neg hj]
      split
      · rename_i hl; rw [waitingFor_unqueue, if_neg (Ne.symm hj), hl]
      · rfl

theorem withdraw_parts (s : State) (i : Nat) : PartsOnly s (s.withdraw i) := by
  unfold State.withdraw
  split
  · exact .refl s
  · exact (setLine_parts _ _ _).trans (modifySite_parts _ _ _)

theorem withdraw_counts (s : State) (i : Nat) : (s.withdraw i).delivery.abandoned = s.delivery.abandoned ∧
    (s.withdraw i).delivery.abandonments = s.delivery.abandonments := by
  unfold State.withdraw
  split
  · exact ⟨rfl, rfl⟩
  · unfold State.modifySite; split <;> exact ⟨rfl, rfl⟩

theorem withdraw_untouched (s : State) (i j : Nat) (h : i ≠ j) : Untouched i s (s.withdraw j) :=
  ⟨withdraw_parts s j, by rw [withdraw_site, if_neg h], by rw [withdraw_waiting, if_neg h]⟩

/-- The withdrawal of a site's command if it was released for a part of a kind: either nothing, or the withdrawal. -/
theorem withdrawKind_cases (s : State) (i : Nat) (k : PartKind) :
    (s.withdrawKind i k = s ∧ ∀ c, s.waitingOf i = some c → c.part ≠ k) ∨
      s.withdrawKind i k = s.withdraw i ∧ ∃ c, s.waitingOf i = some c ∧ c.part = k := by
  unfold State.withdrawKind State.waitingOf
  cases h : (s.line (s.siteLine i)).waitingFor i with
  | none => exact Or.inl ⟨rfl, fun c hc => by cases hc⟩
  | some c =>
    dsimp only
    by_cases hk : c.part = k
    · rw [if_pos hk]; exact Or.inr ⟨rfl, c, rfl, hk⟩
    · rw [if_neg hk]; exact Or.inl ⟨rfl, fun c' hc => by cases hc; exact hk⟩

theorem withdrawKind_untouched (s : State) (i j : Nat) (k : PartKind) (h : i ≠ j) :
    Untouched i s (s.withdrawKind j k) := by
  rcases withdrawKind_cases s j k with ⟨e, -⟩ | ⟨e, -⟩
  · rw [e]; exact .refl i s
  · rw [e]; exact withdraw_untouched s i j h

theorem withdrawKind_parts (s : State) (i : Nat) (k : PartKind) : PartsOnly s (s.withdrawKind i k) := by
  rcases withdrawKind_cases s i k with ⟨e, -⟩ | ⟨e, -⟩
  · rw [e]; exact .refl s
  · rw [e]; exact withdraw_parts s i

theorem withdrawKind_counts (s : State) (i : Nat) (k : PartKind) :
    (s.withdrawKind i k).delivery.abandoned = s.delivery.abandoned ∧
    (s.withdrawKind i k).delivery.abandonments = s.delivery.abandonments := by
  rcases withdrawKind_cases s i k with ⟨e, -⟩ | ⟨e, -⟩
  · rw [e]; exact ⟨rfl, rfl⟩
  · rw [e]; exact withdraw_counts s i

/-- It leaves a site in which only the part of its kind may have changed, and none of its command waiting. -/
theorem withdrawKind_site (s : State) (i : Nat) (k : PartKind) : ∀ d, s.site i = some d →
    ((s.withdrawKind i k).site i = some d ∨ (s.withdrawKind i k).site i = some (d.uncommand k)) ∧
    ∀ c, (s.withdrawKind i k).waitingOf i = some c → s.waitingOf i = some c ∧ c.part ≠ k := by
  intro d hd
  rcases withdrawKind_cases s i k with ⟨e, h⟩ | ⟨e, c, h1, h2⟩
  · rw [e]; exact ⟨Or.inl hd, fun c hc => ⟨hc, h c hc⟩⟩
  · rw [e, withdraw_site, if_pos rfl, hd, h1, withdraw_waiting, if_pos rfl, ← h2]
    exact ⟨Or.inr rfl, fun c hc => by cases hc⟩

/-! ## Other operations on one site leave the other sites -/

theorem modifySite_untouched (s : State) (i j : Nat) (f : DeliverySite → DeliverySite) (h : i ≠ j) :
    Untouched i s (s.modifySite j f) :=
  ⟨modifySite_parts s j f, by rw [modifySite_site, if_neg h], modifySite_waiting s j i f⟩

theorem enqueue_untouched (s : State) (i j : Nat) (c : SetCommand) (hc : c.inProgress = false) (hs : c.site = j)
    (h : i ≠ j) : Untouched i s (s.setLine (s.siteLine j) ((s.line (s.siteLine j)).enqueue c)) :=
  ⟨setLine_parts _ _ _, rfl, by rw [enqueue_waiting s j i c hc hs, if_neg h]⟩

theorem abandon_parts (s : State) (i : Nat) (k : PartKind) (p : Part) (es : List ElemId) :
    PartsOnly s (s.abandon i k p es) := by
  unfold State.abandon
  have h := modifySite_parts s i fun d =>
    { d.setPart k (some { p with state := .abandoned, queued := false }) with
      wanted := d.wanted.filter fun x => !es.contains x.1 }
  refine h.trans ⟨rfl, rfl, rfl⟩

theorem abandon_site (s : State) (i j : Nat) (k : PartKind) (p : Part) (es : List ElemId) :
    (s.abandon i k p es).site j = if j = i then (s.site i).map fun d =>
      { d.setPart k (some { p with state := .abandoned, queued := false }) with
        wanted := d.wanted.filter fun x => !es.contains x.1 } else s.site j := by
  unfold State.abandon
  exact modifySite_site _ _ _ _

theorem abandon_waiting (s : State) (i j : Nat) (k : PartKind) (p : Part) (es : List ElemId) :
    (s.abandon i k p es).waitingOf j = s.waitingOf j := by
  unfold State.abandon
  exact modifySite_waiting _ _ _ _

theorem abandon_counts (s : State) (i : Nat) (k : PartKind) (p : Part) (es : List ElemId) :
    (s.abandon i k p es).delivery.abandoned = min (s.delivery.abandoned + 1) 65535 ∧
    (s.abandon i k p es).delivery.abandonments = min (s.delivery.abandonments + 1) 65535 := by
  unfold State.abandon State.modifySite
  split <;> exact ⟨rfl, rfl⟩

theorem abandon_untouched (s : State) (i j : Nat) (k : PartKind) (p : Part) (es : List ElemId) (h : i ≠ j) :
    Untouched i s (s.abandon j k p es) :=
  ⟨abandon_parts s j k p es, by rw [abandon_site, if_neg h], abandon_waiting s j i k p es⟩

theorem reformKind_parts (s : State) (i : Nat) (k : PartKind) : PartsOnly s (s.reformKind i k) := by
  unfold State.reformKind
  split
  · exact .refl s
  · dsimp only
    repeat' split
    · exact (withdrawKind_parts _ _ _).trans (modifySite_parts _ _ _)
    · exact modifySite_parts _ _ _
    · exact (withdrawKind_parts _ _ _).trans (abandon_parts _ _ _ _ _)
    · exact (setLine_parts _ _ _).trans (modifySite_parts _ _ _)
    · exact (withdrawKind_parts _ _ _).trans (modifySite_parts _ _ _)

theorem reformKind_untouched (s : State) (i j : Nat) (k : PartKind) (h : i ≠ j) : Untouched i s (s.reformKind j k) := by
  unfold State.reformKind
  split
  · exact .refl i s
  · dsimp only
    repeat' split
    · exact (withdrawKind_untouched s i j k h).trans (modifySite_untouched _ _ _ _ h)
    · exact modifySite_untouched _ _ _ _ h
    · exact (withdrawKind_untouched s i j k h).trans (abandon_untouched _ _ _ _ _ _ h)
    · exact (enqueue_untouched s i j _ rfl rfl h).trans (modifySite_untouched _ _ _ _ h)
    · exact (withdrawKind_untouched s i j k h).trans (modifySite_untouched _ _ _ _ h)

theorem reform_untouched (s : State) (i j : Nat) (h : i ≠ j) : Untouched i s (s.reform j) := by
  unfold State.reform
  split
  · split
    · exact (reformKind_untouched s i j _ h).trans (reformKind_untouched _ i j _ h)
    · exact reformKind_untouched s i j _ h
  · exact .refl i s

theorem reform_parts (s : State) (i : Nat) : PartsOnly s (s.reform i) := by
  unfold State.reform
  split
  · split
    · exact (reformKind_parts s i _).trans (reformKind_parts _ i _)
    · exact reformKind_parts s i _
  · exact .refl s

theorem recheck_parts (s : State) (i : Nat) : PartsOnly s (s.recheck i) := by
  unfold State.recheck
  split
  · exact .refl s
  · split
    · exact .refl s
    · exact withdraw_parts s i

theorem recheck_untouched (s : State) (i j : Nat) (h : i ≠ j) : Untouched i s (s.recheck j) := by
  unfold State.recheck
  split
  · exact .refl i s
  · split
    · exact .refl i s
    · exact withdraw_untouched s i j h

theorem releasePart_parts (s : State) (i : Nat) (k : PartKind) : PartsOnly s (s.releasePart i k) := by
  unfold State.releasePart
  repeat' split
  all_goals first
    | exact .refl s
    | exact (setLine_parts _ _ _).trans (modifySite_parts _ _ _)

theorem releasePart_untouched (s : State) (i j : Nat) (k : PartKind) (h : i ≠ j) :
    Untouched i s (s.releasePart j k) := by
  unfold State.releasePart
  repeat' split
  all_goals first
    | exact .refl i s
    | exact (enqueue_untouched s i j _ rfl rfl h).trans (modifySite_untouched _ _ _ _ h)

/-! ## A change made for every site -/

theorem foldl_parts (f : Nat → State → State) (h : ∀ j s, PartsOnly s (f j s)) (xs : List Nat) (s : State) :
    PartsOnly s (xs.foldl (fun st i => f i st) s) := by
  induction xs generalizing s with
  | nil => exact .refl s
  | cons x xs ih => exact (h x s).trans (ih (f x s))

theorem forSites_parts (s : State) (f : Nat → State → State) (h : ∀ j s, PartsOnly s (f j s)) :
    PartsOnly s (s.forSites f) := foldl_parts f h _ s

theorem foldl_untouched (f : Nat → State → State) (i : Nat) (h : ∀ j s, i ≠ j → Untouched i s (f j s)) (xs : List Nat)
    (hx : i ∉ xs) (s : State) : Untouched i s (xs.foldl (fun st i => f i st) s) := by
  induction xs generalizing s with
  | nil => exact .refl i s
  | cons x xs ih =>
    exact (h x s (fun e => hx (by simp [e]))).trans (ih (fun hm => hx (List.mem_cons_of_mem _ hm)) (f x s))

/-- In a change made for every site, a site is changed once, in a state in which it stands as at first, and stands so to
the end. -/
theorem forSites_at_keeping (s : State) (f : Nat → State → State) (i : Nat) (h : ∀ j s, i ≠ j → Untouched i s (f j s))
    (hi : i < s.delivery.sites.length) (P : State → Prop) (hp : P s) (hk : ∀ j s, P s → P (f j s)) :
    ∃ a, Untouched i s a ∧ Untouched i (f i a) (s.forSites f) ∧ P a := by
  unfold State.forSites
  obtain ⟨m, hm⟩ : ∃ m, s.delivery.sites.length = i + (m + 1) := ⟨s.delivery.sites.length - i - 1, by omega⟩
  have e : List.range s.delivery.sites.length = List.range i ++ (i :: (List.range' (i + 1) m)) := by
    rw [hm, List.range_add]
    congr 1
    rw [List.range_succ_eq_map, List.map_cons, List.map_map, List.range'_eq_map_range]
    congr 1
    refine List.map_congr_left fun x _ => ?_
    show i + (x + 1) = i + 1 + x
    omega
  rw [e, List.foldl_append, List.foldl_cons]
  have h1 : i ∉ List.range i := by simp
  have h2 : i ∉ List.range' (i + 1) m := by simp [List.mem_range'_1]
  have keep : ∀ (xs : List Nat) (u : State), P u → P (xs.foldl (fun a x => f x a) u) := by
    intro xs
    induction xs with
    | nil => exact fun _ h => h
    | cons x xs ih => exact fun u hu => ih _ (hk x u hu)
  exact ⟨_, foldl_untouched f i h _ h1 s, foldl_untouched f i h _ h2 _, keep _ _ hp⟩

/-- The same, with nothing said of what the loop keeps. -/
theorem forSites_at (s : State) (f : Nat → State → State) (i : Nat) (h : ∀ j s, i ≠ j → Untouched i s (f j s))
    (hi : i < s.delivery.sites.length) :
    ∃ a, Untouched i s a ∧ Untouched i (f i a) (s.forSites f) :=
  let ⟨a, h1, h2, _⟩ := forSites_at_keeping s f i h hi (fun _ => True) trivial fun _ _ h => h
  ⟨a, h1, h2⟩

theorem site_some_lt {s : State} {i : Nat} {d : DeliverySite} (h : s.site i = some d) :
    i < s.delivery.sites.length := (List.getElem?_eq_some_iff.1 h).1

theorem site_of_lt {s : State} {i : Nat} (h : i < s.delivery.sites.length) : ∃ d, s.site i = some d :=
  ⟨_, List.getElem?_eq_getElem h⟩

/-! ## Parts before and after releases are judged -/

@[simp] theorem part_setPart (d : DeliverySite) (k j : PartKind) (p : Option Part) :
    (d.setPart k p).part j = if j = k then p else d.part j := by
  cases k <;> cases j <;> rfl
@[simp] theorem setPart_wanted (d : DeliverySite) (k : PartKind) (p : Option Part) :
    (d.setPart k p).wanted = d.wanted := by cases k <;> rfl
@[simp] theorem setPart_commanded (d : DeliverySite) (k : PartKind) (p : Option Part) :
    (d.setPart k p).commanded = d.commanded := by cases k <;> rfl
@[simp] theorem setPart_confirmed (d : DeliverySite) (k : PartKind) (p : Option Part) :
    (d.setPart k p).confirmed = d.confirmed := by cases k <;> rfl
@[simp] theorem setPart_applied (d : DeliverySite) (k : PartKind) (p : Option Part) :
    (d.setPart k p).applied = d.applied := by cases k <;> rfl
@[simp] theorem setPart_inFlight (d : DeliverySite) (k : PartKind) (p : Option Part) :
    (d.setPart k p).inFlight = d.inFlight := by cases k <;> rfl
@[simp] theorem part_withWanted (d : DeliverySite) (w : Image) (j : PartKind) :
    ({ d with wanted := w } : DeliverySite).part j = d.part j := by cases j <;> rfl
@[simp] theorem part_withFlight (d : DeliverySite) (b : Bool) (j : PartKind) :
    ({ d with inFlight := b } : DeliverySite).part j = d.part j := by cases j <;> rfl

/-- What the withdrawal of its command leaves of a part. -/
def Part.recalled (p : Part) : Part :=
  { p with queued := false, state := if p.state = .sent then .waiting else p.state }

@[simp] theorem part_uncommand (d : DeliverySite) (k j : PartKind) :
    (d.uncommand k).part j = if j = k then (d.part k).map Part.recalled else d.part j := by
  unfold DeliverySite.uncommand
  rw [part_withFlight, part_setPart]
  rfl

/-- A part of the same elements and resends: in its state, or WAITING again; a part that is not pending is not queued
anew. -/
structure Part.Like (p q : Part) : Prop where
  elements : q.elements = p.elements
  resends : q.resends = p.resends
  state : q.state = p.state ∨ p.state = .sent ∧ q.state = .waiting
  queued : p.state ≠ .waiting → q.state = p.state → q.queued = true → p.queued = true

theorem Part.Like.refl (p : Part) : p.Like p := ⟨rfl, rfl, Or.inl rfl, fun _ _ h => h⟩

theorem Part.Like.trans {p q r : Part} (h : p.Like q) (g : q.Like r) : p.Like r where
  elements := g.elements.trans h.elements
  resends := g.resends.trans h.resends
  state := by
    rcases h.state with h1 | ⟨h1, h2⟩ <;> rcases g.state with g1 | ⟨g1, g2⟩
    · exact Or.inl (g1.trans h1)
    · exact Or.inr ⟨h1 ▸ g1, g2⟩
    · exact Or.inr ⟨h1, g1.trans h2⟩
    · exact Or.inr ⟨h1, g2⟩
  queued := by
    intro hp hr hq
    have hqs : q.state = p.state := by
      rcases h.state with h1 | ⟨h1, h2⟩
      · exact h1
      · rcases g.state with g1 | ⟨g1, g2⟩
        · rw [g1, h2] at hr; exact absurd hr.symm hp
        · rw [g2] at hr; exact absurd hr.symm hp
    exact h.queued hp hqs (g.queued (by rw [hqs]; exact hp) (by rw [hr, hqs]) hq)

theorem Part.like_recalled (p : Part) : p.Like p.recalled := by
  refine ⟨rfl, rfl, ?_, fun _ _ h => by cases h⟩
  unfold Part.recalled
  by_cases h : p.state = .sent
  · exact Or.inr ⟨h, by simp [h]⟩
  · exact Or.inl (by simp [h])

theorem Part.Like.pending {p q : Part} (h : p.Like q) : q.pending = p.pending := by
  unfold Part.pending
  rcases h.state with h1 | ⟨h1, h2⟩
  · rw [h1]
  · rw [h1, h2]; decide

/-- A resolved part that is not queued stays as it is. -/
theorem Part.Like.resolved {p q : Part} (h : p.Like q) (hp : p.pending = false) (hq : p.queued = false) : q = p := by
  have hs : q.state = p.state := by
    rcases h.state with h1 | ⟨h1, _⟩
    · exact h1
    · rw [Part.pending, h1] at hp; cases hp
  have hw : p.state ≠ .waiting := by
    intro e; rw [Part.pending, e] at hp; cases hp
  have hqq : q.queued = false := by
    cases hx : q.queued with
    | false => rfl
    | true => rw [h.queued hw hs hx] at hq; cases hq
  obtain ⟨e, st, qu, r⟩ := p
  obtain ⟨e', st', qu', r'⟩ := q
  have a := h.elements
  have b := h.resends
  dsimp only at a b hs hqq hq
  subst a b hs hqq hq
  rfl

/-- A site with the same images whose parts are alike. -/
structure DeliverySite.Like (d e : DeliverySite) : Prop where
  wanted : e.wanted = d.wanted
  commanded : e.commanded = d.commanded
  confirmed : e.confirmed = d.confirmed
  applied : e.applied = d.applied
  inFlight : e.inFlight = true → d.inFlight = true
  absent : ∀ k, d.part k = none → e.part k = none
  part : ∀ k p, d.part k = some p → ∃ q, e.part k = some q ∧ p.Like q

theorem DeliverySite.Like.refl (d : DeliverySite) : d.Like d :=
  ⟨rfl, rfl, rfl, rfl, id, fun _ h => h, fun _ p h => ⟨p, h, .refl p⟩⟩

theorem DeliverySite.Like.trans {d e f : DeliverySite} (h : d.Like e) (g : e.Like f) : d.Like f where
  wanted := g.wanted.trans h.wanted
  commanded := g.commanded.trans h.commanded
  confirmed := g.confirmed.trans h.confirmed
  applied := g.applied.trans h.applied
  inFlight := fun x => h.inFlight (g.inFlight x)
  absent := fun k x => g.absent k (h.absent k x)
  part := fun k p x => by
    obtain ⟨q, hq, h1⟩ := h.part k p x
    obtain ⟨r, hr, h2⟩ := g.part k q hq
    exact ⟨r, hr, h1.trans h2⟩

theorem DeliverySite.like_uncommand (d : DeliverySite) (k : PartKind) : d.Like (d.uncommand k) where
  wanted := by unfold DeliverySite.uncommand; exact setPart_wanted _ _ _
  commanded := by unfold DeliverySite.uncommand; exact setPart_commanded _ _ _
  confirmed := by unfold DeliverySite.uncommand; exact setPart_confirmed _ _ _
  applied := by unfold DeliverySite.uncommand; exact setPart_applied _ _ _
  inFlight := fun h => by cases h
  absent := fun j h => by
    rw [part_uncommand]; split
    · subst_vars; rw [h]; rfl
    · exact h
  part := fun j p h => by
    rw [part_uncommand]; split
    · subst_vars; rw [h]; exact ⟨_, rfl, p.like_recalled⟩
    · exact ⟨p, h, .refl p⟩

theorem DeliverySite.Like.pendingPart {d e : DeliverySite} (h : d.Like e) (k : PartKind) :
    pendingPart (e.part k) = pendingPart (d.part k) := by
  cases hd : d.part k with
  | none => rw [h.absent k hd]
  | some p =>
    obtain ⟨q, hq, hl⟩ := h.part k p hd
    rw [hq]
    exact hl.pending

/-- The same, each part in its own state, and in flight as before. -/
structure DeliverySite.Requeued (d e : DeliverySite) : Prop where
  like : d.Like e
  flying : e.inFlight = d.inFlight
  states : ∀ k p q, d.part k = some p → e.part k = some q → q = { p with queued := q.queued }

theorem DeliverySite.Requeued.refl (d : DeliverySite) : d.Requeued d :=
  ⟨.refl d, rfl, fun k p q h g => by rw [h] at g; cases g; rfl⟩

theorem DeliverySite.Requeued.trans {d e f : DeliverySite} (h : d.Requeued e) (g : e.Requeued f) : d.Requeued f :=
  ⟨h.like.trans g.like, g.flying.trans h.flying, fun k p r hp hr => by
    obtain ⟨q, hq, -⟩ := h.like.part k p hp
    have h1 := h.states k p q hp hq
    have h2 := g.states k q r hq hr
    rw [h1] at h2
    exact h2⟩

/-- A change of a site's record that keeps it alike, the command waiting for it only ever withdrawn or placed. -/
structure SiteLike (i : Nat) (s t : State) : Prop where
  parts : PartsOnly s t
  like : ∀ d, s.site i = some d → ∃ e, t.site i = some e ∧ d.Like e ∧ (s.waitingOf i = none → d.Requeued e)

theorem Untouched.siteLike {i : Nat} {s t : State} (h : Untouched i s t) : SiteLike i s t :=
  ⟨h.parts, fun d hd => ⟨d, by rw [h.site, hd], .refl d, fun _ => .refl d⟩⟩

theorem recheck_at (s : State) (i : Nat) (d : DeliverySite) (hd : s.site i = some d) :
    ∃ e, (s.recheck i).site i = some e ∧ d.Like e ∧ (s.waitingOf i = none → e = d ∧ (s.recheck i).waitingOf i = none) := by
  unfold State.recheck
  show ∃ e, State.site (match s.waitingOf i with | none => s | some c => _) i = some e ∧ _
  cases hw : s.waitingOf i with
  | none =>
    have hw' : (s.line (s.siteLine i)).waitingFor i = none := hw
    rw [hw']
    exact ⟨d, hd, .refl d, fun _ => ⟨rfl, hw⟩⟩
  | some c =>
    have hw' : (s.line (s.siteLine i)).waitingFor i = some c := hw
    rw [hw']
    dsimp only
    split
    · exact ⟨d, hd, .refl d, fun h => by cases h⟩
    · refine ⟨d.uncommand c.part, ?_, d.like_uncommand _, fun h => by cases h⟩
      rw [withdraw_site, if_pos rfl, hd, hw]
      rfl

theorem like_queue (d : DeliverySite) (k : PartKind) (p : Part) (hp : d.part k = some p) (hw : p.state = .waiting)
    (b : Bool) : d.Requeued (d.setPart k (some { p with queued := b })) := by
  refine ⟨⟨by simp, by simp, by simp, by simp, by simp, fun j h => ?_, fun j q h => ?_⟩, by simp, fun j q r h g => ?_⟩
  · rw [part_setPart]; split
    · subst_vars; rw [hp] at h; cases h
    · exact h
  · rw [part_setPart]; split
    · subst_vars; rw [hp] at h; cases h
      exact ⟨_, rfl, rfl, rfl, Or.inl rfl, fun hn => absurd hw hn⟩
    · exact ⟨q, h, .refl q⟩
  · rw [part_setPart] at g; split at g
    · subst_vars; rw [hp] at h; cases h; cases g; rfl
    · rw [h] at g; cases g; rfl

/-- R147: one kind of part of one site released where it may. -/
theorem releasePart_at (s : State) (i : Nat) (k : PartKind) (d : DeliverySite) (hd : s.site i = some d) :
    ∃ e, (s.releasePart i k).site i = some e ∧ d.Requeued e ∧ (∀ j, j ≠ k → e.part j = d.part j) ∧
      ∀ p, e.part k = some p → p.state = .waiting → d.inFlight = false → s.releaseCondition i k = true →
        p.queued = true := by
  unfold State.releasePart
  rw [hd]
  dsimp only
  cases hp : d.part k with
  | none => exact ⟨d, hd, .refl d, fun _ _ => rfl, fun p h => by rw [hp] at h; cases h⟩
  | some p =>
    dsimp only
    split
    · rename_i hc
      simp only [Bool.and_eq_true, decide_eq_true_eq, Bool.not_eq_true'] at hc
      refine ⟨d.setPart k (some { p with queued := true }), ?_, like_queue d k p hp hc.1.1.1 true, ?_, ?_⟩
      · rw [modifySite_site, if_pos rfl]
        show (s.site i).map _ = _
        rw [hd]; rfl
      · intro j hj; rw [part_setPart, if_neg hj]
      · intro q hq _ _ _; rw [part_setPart, if_pos rfl] at hq; cases hq; rfl
    · rename_i hc
      refine ⟨d, hd, .refl d, fun _ _ => rfl, fun q hq hw hf hr => ?_⟩
      rw [hp] at hq
      cases hq
      simp only [Bool.and_eq_true, decide_eq_true_eq, Bool.not_eq_true', not_and, Bool.not_eq_true] at hc
      cases hx : p.queued with
      | true => rfl
      | false => exact absurd hr (by simp [hc ⟨⟨hw, hx⟩, hf⟩])

/-- Whether parts are pending decides the release conditions alone. -/
theorem releaseCondition_congr {s t : State} (h : ∀ i k, t.pendingAt i k = s.pendingAt i k) (i : Nat) (k : PartKind) :
    t.releaseCondition i k = s.releaseCondition i k := by
  unfold State.releaseCondition
  cases k <;> simp only [h]

theorem pendingAt_of_like {s t : State} {i : Nat} (h : ∀ d, s.site i = some d → ∃ e, t.site i = some e ∧ d.Like e)
    (hn : s.site i = none → t.site i = none) (k : PartKind) : t.pendingAt i k = s.pendingAt i k := by
  unfold State.pendingAt
  cases hs : s.site i with
  | none => rw [hn hs]
  | some d =>
    obtain ⟨e, he, hl⟩ := h d hs
    rw [he]
    exact hl.pendingPart k

theorem PartsOnly.site_none {s t : State} (h : PartsOnly s t) (i : Nat) : s.site i = none → t.site i = none := by
  unfold State.site
  rw [List.getElem?_eq_none_iff, List.getElem?_eq_none_iff, h.length]
  exact id

/-- The three kinds of part of one site released where they may. -/
def State.releaseSite (s : State) (i : Nat) : State :=
  ((s.releasePart i .tightening).releasePart i .relaxing).releasePart i .darkening

theorem releaseSite_parts (s : State) (i : Nat) : PartsOnly s (s.releaseSite i) :=
  ((releasePart_parts _ _ _).trans (releasePart_parts _ _ _)).trans (releasePart_parts _ _ _)

theorem releaseSite_untouched (i j : Nat) (s : State) (h : i ≠ j) : Untouched i s (s.releaseSite j) :=
  ((releasePart_untouched _ _ _ _ h).trans (releasePart_untouched _ _ _ _ h)).trans (releasePart_untouched _ _ _ _ h)

theorem releasePart_pendingAt (s : State) (i : Nat) (k : PartKind) (j : Nat) (m : PartKind) :
    (s.releasePart i k).pendingAt j m = s.pendingAt j m := by
  refine pendingAt_of_like (fun d hd => ?_) ((releasePart_parts s i k).site_none j) m
  by_cases hj : j = i
  · subst hj
    obtain ⟨e, he, hr, -⟩ := releasePart_at s j k d hd
    exact ⟨e, he, hr.like⟩
  · exact ⟨d, by rw [(releasePart_untouched s j i k hj).site, hd], .refl d⟩

theorem releaseSite_pendingAt (s : State) (i j : Nat) (m : PartKind) : (s.releaseSite i).pendingAt j m = s.pendingAt j m := by
  unfold State.releaseSite
  rw [releasePart_pendingAt, releasePart_pendingAt, releasePart_pendingAt]

theorem releaseSite_at (s : State) (i : Nat) (d : DeliverySite) (hd : s.site i = some d) :
    ∃ e, (s.releaseSite i).site i = some e ∧ d.Requeued e ∧
      ∀ k p, e.part k = some p → p.state = .waiting → e.inFlight = false → s.releaseCondition i k = true →
        p.queued = true := by
  obtain ⟨e1, h1, r1, o1, q1⟩ := releasePart_at s i .tightening d hd
  obtain ⟨e2, h2, r2, o2, q2⟩ := releasePart_at _ i .relaxing e1 h1
  obtain ⟨e3, h3, r3, o3, q3⟩ := releasePart_at _ i .darkening e2 h2
  refine ⟨e3, h3, (r1.trans r2).trans r3, fun k p hp hw hf hc => ?_⟩
  have c1 : ∀ k, (s.releasePart i .tightening).releaseCondition i k = s.releaseCondition i k :=
    releaseCondition_congr (fun j m => releasePart_pendingAt s i .tightening j m) i
  have c2 : ∀ k, ((s.releasePart i .tightening).releasePart i .relaxing).releaseCondition i k = s.releaseCondition i k := by
    intro k
    rw [releaseCondition_congr (fun j m => releasePart_pendingAt _ i .relaxing j m) i, c1]
  rw [((r1.trans r2).trans r3).flying] at hf
  have f1 : e1.inFlight = false := by rw [r1.flying]; exact hf
  have f2 : e2.inFlight = false := by rw [r2.flying]; exact f1
  cases k with
  | tightening => rw [o3 _ (by decide), o2 _ (by decide)] at hp; exact q1 p hp hw hf hc
  | relaxing => rw [o3 _ (by decide)] at hp; exact q2 p hp hw f1 (by rw [c1]; exact hc)
  | darkening => exact q3 p hp hw f2 (by rw [c2]; exact hc)

theorem judgeReleases_eq (s : State) : s.judgeReleases = (s.forSites fun i st => st.recheck i).forSites fun i st =>
    st.releaseSite i := rfl

theorem judgeReleases_parts (s : State) : PartsOnly s s.judgeReleases := by
  rw [judgeReleases_eq]
  exact (forSites_parts _ _ fun j s => recheck_parts s j).trans (forSites_parts _ _ fun j s => releaseSite_parts s j)

/-- R147: what judging the releases leaves of a site. -/
theorem judgeReleases_at (s : State) (i : Nat) (d : DeliverySite) (hd : s.site i = some d) :
    ∃ e, s.judgeReleases.site i = some e ∧ d.Like e ∧ (s.waitingOf i = none → d.Requeued e) := by
  rw [judgeReleases_eq]
  obtain ⟨a, h1, h2⟩ := forSites_at s (fun i st => st.recheck i) i (fun j s h => recheck_untouched s i j h)
    (site_some_lt hd)
  obtain ⟨e, he, hl, hq⟩ := recheck_at a i d (by rw [h1.site]; exact hd)
  have he' := h2.site.trans he
  obtain ⟨b, g1, g2⟩ := forSites_at (s.forSites fun i st => st.recheck i) (fun i st => st.releaseSite i) i
    (fun j s h => releaseSite_untouched i j s h) (site_some_lt he')
  obtain ⟨f, hf, hr, -⟩ := releaseSite_at b i e (by rw [g1.site]; exact he')
  refine ⟨f, g2.site.trans hf, hl.trans hr.like, fun hw => ?_⟩
  have := (hq (by rw [h1.waiting]; exact hw)).1
  subst this
  exact hr

/-- A loop that keeps every site alike keeps what is pending. -/
theorem forSites_pendingAt (s : State) (f : Nat → State → State) (h : ∀ i s j m, (f i s).pendingAt j m = s.pendingAt j m)
    (j : Nat) (m : PartKind) : (s.forSites f).pendingAt j m = s.pendingAt j m := by
  unfold State.forSites
  generalize List.range s.delivery.sites.length = xs
  induction xs generalizing s with
  | nil => rfl
  | cons x xs ih => rw [List.foldl_cons, ih, h]

theorem unresolved_iff (p : Option Part) : Unresolved p ↔ pendingPart p = true := by
  unfold Unresolved pendingPart
  cases p with
  | none => simp
  | some p => simp [Part.pending]

theorem pends_iff (s : State) (i : Nat) (k : PartKind) : s.Pends i k ↔ s.pendingAt i k = true := by
  unfold State.Pends State.pendingAt
  cases s.site i with
  | none => simp
  | some d => simp [unresolved_iff]

theorem mayRelease_iff (s : State) (i : Nat) (k : PartKind) : s.MayRelease i k ↔ s.releaseCondition i k = true := by
  unfold State.MayRelease State.releaseCondition
  cases k <;> simp [pends_iff]

/-- R147: after releases are judged, every part that may go is queued. -/
theorem judgeReleases_released (s : State) : Released s.judgeReleases := by
  intro i k d p hd hp hw hf hm
  rw [judgeReleases_eq] at hd hm
  generalize hs1 : (s.forSites fun i st => st.recheck i) = s1 at hd hm
  have hi : i < s1.delivery.sites.length := by
    rw [← (forSites_parts s1 _ fun j s => releaseSite_parts s j).length]
    exact site_some_lt hd
  obtain ⟨b, g1, g2, gp⟩ := forSites_at_keeping s1 (fun i st => st.releaseSite i) i
    (fun j s h => releaseSite_untouched i j s h) hi (fun b => ∀ j m, b.pendingAt j m = s1.pendingAt j m)
    (fun _ _ => rfl) fun j s h a m => (releaseSite_pendingAt s j a m).trans (h a m)
  obtain ⟨c, hc⟩ := site_of_lt hi
  obtain ⟨e, he, hr, hq⟩ := releaseSite_at b i c (by rw [g1.site]; exact hc)
  rw [g2.site, he] at hd
  cases hd
  refine hq k p hp hw hf ?_
  rw [mayRelease_iff] at hm
  rw [← hm]
  have all : ∀ j m, (s1.forSites fun i st => st.releaseSite i).pendingAt j m = s1.pendingAt j m :=
    forSites_pendingAt s1 _ fun i s j m => releaseSite_pendingAt s i j m
  rw [releaseCondition_congr all]
  exact releaseCondition_congr gp i k

/-- R147: where the condition of every command that waits holds and nothing can be released, judging releases changes
nothing. -/
theorem judgeReleases_same (s : State) (hq : ∀ l, ∀ c ∈ (s.line l).queue, s.MayRelease c.site c.part)
    (hr : Released s) : s.judgeReleases = s := by
  have fixed : ∀ (xs : List Nat) (f : Nat → State → State), (∀ i, f i s = s) → xs.foldl (fun st i => f i st) s = s := by
    intro xs f h
    induction xs with
    | nil => rfl
    | cons x xs ih => rw [List.foldl_cons, h, ih]
  have hc : ∀ i, s.recheck i = s := by
    intro i
    unfold State.recheck
    cases hw : (s.line (s.siteLine i)).waitingFor i with
    | none => rfl
    | some c =>
      unfold LineRec.waitingFor at hw
      have hs : c.site = i := by
        have := List.find?_some hw
        simp at this
        exact this.1
      have hm := hq _ c (List.mem_of_find?_eq_some hw)
      rw [hs, mayRelease_iff] at hm
      simp [hm]
  have hp : ∀ i k, s.releasePart i k = s := by
    intro i k
    unfold State.releasePart
    cases hd : s.site i with
    | none => rfl
    | some d =>
      dsimp only
      cases hk : d.part k with
      | none => rfl
      | some p =>
        dsimp only
        refine if_neg fun h => ?_
        simp only [Bool.and_eq_true, decide_eq_true_eq, Bool.not_eq_true'] at h
        obtain ⟨⟨⟨h1, h2⟩, h3⟩, h4⟩ := h
        have := hr i k d p hd hk h1 h3 ((mayRelease_iff s i k).2 h4)
        rw [this] at h2
        cases h2
  rw [judgeReleases_eq]
  unfold State.forSites
  rw [fixed _ _ hc]
  exact fixed _ _ fun i => by unfold State.releaseSite; simp only [hp]

/-- R120: the queues after the withdrawal of a site's waiting command. -/
theorem withdraw_line (s : State) (i : Nat) (l : LineId) : (s.withdraw i).line l = { s.line l with
    queue := (s.line l).queue.filter fun c => c.inProgress || decide (c.site ≠ i ∨ s.siteLine i ≠ l) } := by
  have same : ∀ r : LineRec, (∀ c ∈ r.queue, (c.inProgress || decide (c.site ≠ i ∨ s.siteLine i ≠ l)) = true) →
      r = { r with queue := r.queue.filter fun c => c.inProgress || decide (c.site ≠ i ∨ s.siteLine i ≠ l) } := by
    intro r h
    rw [List.filter_eq_self.2 h]
  unfold State.withdraw
  cases hw : (s.line (s.siteLine i)).waitingFor i with
  | none =>
    refine same _ fun c hc => ?_
    by_cases hl : s.siteLine i = l
    · subst hl
      have := List.find?_eq_none.1 hw c hc
      simp at this ⊢
      cases hp : c.inProgress
      · simp [hp] at this; simp [this]
      · simp
    · simp [hl]
  | some c =>
    dsimp only
    have hm : ∀ t : State, ∀ f, (t.modifySite i f).line l = t.line l := by
      intro t f
      unfold State.modifySite State.line
      split <;> rfl
    rw [hm]
    by_cases hl : s.siteLine i = l
    · subst hl
      have : (s.setLine (s.siteLine i) ((s.line (s.siteLine i)).unqueue i)).line (s.siteLine i) =
          (s.line (s.siteLine i)).unqueue i := by cases s.siteLine i <;> rfl
      rw [this]
      unfold LineRec.unqueue
      congr 1
      refine List.filter_congr fun c _ => ?_
      cases c.inProgress <;> simp
    · have : (s.setLine (s.siteLine i) ((s.line (s.siteLine i)).unqueue i)).line l = s.line l := by
        cases hs : s.siteLine i <;> cases l <;> first | rfl | exact absurd hs hl
      rw [this]
      exact same _ fun c _ => by simp [hl]

/-- R155 and R120: the queues when every command of the section that waits has been withdrawn. -/
theorem clearParts_line (s : State) (l : LineId) : s.clearParts.line l = { s.line l with
    queue := (s.line l).queue.filter fun c =>
      c.inProgress || decide (s.delivery.sites.length ≤ c.site ∨ s.siteLine c.site ≠ l) } := by
  have gen : ∀ (n : Nat) (t : State), t.store = s.store → ((List.range n).foldl (fun st i => st.withdraw i) t).store = s.store ∧
      ((List.range n).foldl (fun st i => st.withdraw i) t).line l = { t.line l with
        queue := (t.line l).queue.filter fun c => c.inProgress || decide (n ≤ c.site ∨ s.siteLine c.site ≠ l) } := by
    intro n
    induction n with
    | zero =>
      intro t ht
      refine ⟨ht, ?_⟩
      rw [List.range_zero, List.foldl_nil, List.filter_eq_self.2 (by simp)]
    | succ n ih =>
      intro t ht
      obtain ⟨h1, h2⟩ := ih t ht
      rw [List.range_succ, List.foldl_append, List.foldl_cons, List.foldl_nil]
      generalize (List.range n).foldl (fun st i => st.withdraw i) t = u at h1 h2
      refine ⟨(withdraw_parts u n).store.trans h1, ?_⟩
      rw [withdraw_line, h2]
      dsimp only
      have hs : u.siteLine n = s.siteLine n := by unfold State.siteLine; rw [h1]
      rw [hs, List.filter_filter]
      congr 1
      refine List.filter_congr fun c _ => ?_
      rw [Bool.eq_iff_iff]
      cases c.inProgress
      · simp only [Bool.false_or, Bool.and_eq_true, decide_eq_true_eq]
        by_cases hc : c.site = n
        · subst hc; simp
        · have : n ≤ c.site ↔ n + 1 ≤ c.site := by omega
          simp [hc, this]
      · simp
  exact (gen _ s rfl).2

/-! ## Parts formed (R145, R146) -/

/-- What R146 makes the part of one kind of a site whose unit can take commands. -/
def DeliverySite.formed (d : DeliverySite) (elements : List ElemId) (k : PartKind) : Option Part :=
  if (d.differing elements k).isEmpty then none
  else if d.sentStays k (d.differing elements k) then
    (d.part k).map fun p => { p with elements := d.differing elements k }
  else some (d.newPart k (d.differing elements k))

/-- The same images, and the same parts but of one kind. -/
structure DeliverySite.SameBut (k : PartKind) (d e : DeliverySite) : Prop where
  wanted : e.wanted = d.wanted
  commanded : e.commanded = d.commanded
  confirmed : e.confirmed = d.confirmed
  applied : e.applied = d.applied
  part : ∀ j, j ≠ k → e.part j = d.part j

theorem DeliverySite.sameBut_setPart (d : DeliverySite) (k : PartKind) (p : Option Part) : d.SameBut k (d.setPart k p) :=
  ⟨by simp, by simp, by simp, by simp, fun j h => by rw [part_setPart, if_neg h]⟩

theorem DeliverySite.sameBut_uncommand (d : DeliverySite) (k : PartKind) (p : Option Part) :
    d.SameBut k ((d.uncommand k).setPart k p) := by
  have h := d.like_uncommand k
  refine ⟨by simp [h.wanted], by simp [h.commanded], by simp [h.confirmed], by simp [h.applied], fun j hj => ?_⟩
  rw [part_setPart, if_neg hj, part_uncommand, if_neg hj]

theorem withdrawKind_setPart (s : State) (i : Nat) (k : PartKind) (p : Option Part) (d : DeliverySite)
    (hd : s.site i = some d) :
    ∃ e, ((s.withdrawKind i k).modifySite i fun d => d.setPart k p).site i = some e ∧ d.SameBut k e ∧ e.part k = p := by
  rcases (withdrawKind_site s i k d hd).1 with h | h
  · refine ⟨d.setPart k p, by rw [modifySite_site, if_pos rfl, h]; rfl, d.sameBut_setPart k p, by simp⟩
  · refine ⟨(d.uncommand k).setPart k p, by rw [modifySite_site, if_pos rfl, h]; rfl, d.sameBut_uncommand k p, by simp⟩

/-- R146: one kind of part re-formed where the site's unit can take commands. -/
theorem reformKind_at (s : State) (i : Nat) (k : PartKind) (d : DeliverySite) (hd : s.site i = some d)
    (hl : s.signState i ≠ .lost) (hp : s.signState i ≠ .probing) :
    ∃ e, (s.reformKind i k).site i = some e ∧ d.SameBut k e ∧ e.part k = d.formed (s.store.elements i) k := by
  unfold State.reformKind DeliverySite.formed
  rw [hd]
  dsimp only
  rw [if_neg (c := decide (s.signState i = UnitState.lost ∨ s.signState i = UnitState.probing) = true)
    (by simp [hl, hp])]
  by_cases h1 : (d.differing (s.store.elements i) k).isEmpty = true
  · rw [if_pos h1, if_pos h1]
    exact withdrawKind_setPart s i k none d hd
  · rw [if_neg h1, if_neg h1]
    by_cases h2 : d.sentStays k (d.differing (s.store.elements i) k) = true
    · rw [if_pos h2, if_pos h2]
      refine ⟨_, by rw [modifySite_site, if_pos rfl, hd]; rfl, d.sameBut_setPart k _, by simp⟩
    · rw [if_neg h2, if_neg h2]
      split
      · refine ⟨_, ?_, d.sameBut_setPart k (some (d.newPart k (d.differing (s.store.elements i) k))), by simp⟩
        rw [modifySite_site, if_pos rfl]
        show (s.site i).map _ = _
        rw [hd]
        rfl
      · exact withdrawKind_setPart s i k _ d hd

theorem moreRestrictive_iff (a b : ElemVal) : MoreRestrictive a b ↔ a.tighter b = true := by
  unfold MoreRestrictive ElemVal.tighter limitAtLeast
  rcases a with (_ | a) | a | a <;> rcases b with (_ | b) | b | b <;> simp
  omega

theorem differs_iff (d : DeliverySite) (e : ElemId) : d.Differs e ↔ d.differs e = true := by
  unfold DeliverySite.Differs DeliverySite.differs
  cases d.wanted.lookup e <;> simp

theorem tightens_iff (d : DeliverySite) (e : ElemId) (h : d.differs e = true) : d.Tightens e ↔ d.tightens e = true := by
  unfold DeliverySite.Tightens
  rw [differs_iff]
  unfold DeliverySite.tightens
  unfold DeliverySite.differs at h ⊢
  cases hw : d.wanted.lookup e with
  | none => rw [hw] at h; cases h
  | some w =>
    rw [hw] at h
    cases hc : d.confirmed.lookup e with
    | none => simp
    | some c =>
      rw [hc] at h
      simp only [decide_eq_true_eq] at h
      simp [moreRestrictive_iff, h]

/-- R145: the differing elements of a kind are those the rule calls for. -/
theorem mem_differing (d : DeliverySite) (elements : List ElemId) (k : PartKind) (e : ElemId) :
    e ∈ d.differing elements k ↔ e ∈ elements ∧ d.Calls k e := by
  unfold DeliverySite.differing
  rw [List.mem_filter, Bool.and_eq_true]
  refine and_congr_right fun _ => ?_
  by_cases h : d.differs e = true
  · have ht := tightens_iff d e h
    have hd := (differs_iff d e).2 h
    cases k <;> simp [DeliverySite.Calls, h, ht, hd]
  · have hd : ¬ d.Differs e := fun x => h ((differs_iff d e).1 x)
    cases k <;> simp [DeliverySite.Calls, DeliverySite.Tightens, h, hd]

theorem mem_elements (r : SiteRecord) (e : ElemId) : e ∈ r.elements ↔ r.Holds e := by
  unfold SiteRecord.elements SiteRecord.Holds
  cases e with
  | limit => cases hk : r.kind <;> cases hs : r.sign <;> simp [SiteKind.hasLimit]
  | lane l =>
    show _ ↔ r.kind.Present l
    rw [← mem_positions]
    cases hs : r.sign <;> cases hh : r.kind.hasLimit <;> simp
  | legend => cases hs : r.sign <;> cases hh : r.kind.hasLimit <;> simp

theorem calls_congr {d e : DeliverySite} (hw : e.wanted = d.wanted) (hc : e.confirmed = d.confirmed) (k : PartKind)
    (x : ElemId) : e.Calls k x ↔ d.Calls k x := by
  cases k <;> simp only [DeliverySite.Calls, DeliverySite.Tightens, DeliverySite.Differs, hw, hc]

/-- R146: the part of one kind that a re-form leaves at a site whose unit can take commands. -/
theorem formed_reformed (r : SiteRecord) (d e : DeliverySite) (k : PartKind) (hw : e.wanted = d.wanted)
    (hc : e.confirmed = d.confirmed) (he : e.part k = d.formed r.elements k) : Reformed r d e k := by
  have hm : ∀ x, x ∈ d.differing r.elements k ↔ r.Holds x ∧ e.Calls k x := fun x => by
    rw [mem_differing, mem_elements, calls_congr hw hc]
  unfold DeliverySite.formed at he
  constructor
  · intro h
    rw [he, if_pos]
    rw [List.isEmpty_iff, List.eq_nil_iff_forall_not_mem]
    exact fun x hx => h x ((hm x).1 hx).1 ((hm x).1 hx).2
  · rintro ⟨x, h1, h2⟩
    have hn : ¬ (d.differing r.elements k).isEmpty = true := fun h => by
      rw [List.isEmpty_iff] at h
      have := (hm x).2 ⟨h1, h2⟩
      rw [h] at this
      cases this
    rw [if_neg hn] at he
    by_cases hs : d.sentStays k (d.differing r.elements k) = true
    · rw [if_pos hs] at he
      unfold DeliverySite.sentStays at hs
      cases hp : d.part k with
      | none => rw [hp] at hs; cases hs
      | some p =>
        rw [hp] at hs he
        simp only [Bool.and_eq_true, decide_eq_true_eq] at hs
        refine ⟨_, he, ⟨_, rfl, Or.inr hs.1⟩, hm, fun o ho _ => by cases ho; rfl,
          fun h => absurd ⟨p, rfl, Or.inr hs.1⟩ h, fun _ => ?_⟩
        have hh := hs.2
        unfold DeliverySite.commandHolds at hh
        cases hcm : d.commanded with
        | none => rw [hcm] at hh; cases hh
        | some c =>
          rw [hcm] at hh
          refine ⟨p, c, rfl, hs.1, rfl, fun y hy => ?_⟩
          rw [hw]
          simpa using List.all_eq_true.1 hh y hy
    · rw [if_neg hs] at he
      refine ⟨_, he, ⟨_, rfl, Or.inl ?_⟩, ?_, ?_, ?_, ?_⟩
      · unfold DeliverySite.newPart; split <;> rfl
      · intro y
        rw [← hm y]
        unfold DeliverySite.newPart; split <;> exact Iff.rfl
      · rintro o ho ⟨q, hq, hst⟩
        cases hq
        unfold DeliverySite.newPart
        rw [ho]
        have : o.pending = true := by unfold Part.pending; simpa using hst
        simp [this]
      · intro h
        unfold DeliverySite.newPart
        cases hp : d.part k with
        | none => rfl
        | some p =>
          have : ¬ p.pending = true := fun x => h ((unresolved_iff _).2 (by rw [hp]; exact x))
          simp [this]
      · intro h
        exfalso
        unfold DeliverySite.newPart at h
        split at h <;> cases h

/-- R146: a site re-formed for the plan in LIVE, where its unit can take commands: both kinds of part. -/
theorem reform_reformed (s : State) (i : Nat) (r : SiteRecord) (d : DeliverySite) (hm : s.mode.delivers = true)
    (ht : s.delivery.target = .plan) (hr : s.store.site i = some r) (hd : s.site i = some d)
    (hl : s.signState i ≠ .lost) (hp : s.signState i ≠ .probing) :
    ∃ e, (s.reform i).site i = some e ∧ e.wanted = d.wanted ∧ e.confirmed = d.confirmed ∧
      e.commanded = d.commanded ∧ e.applied = d.applied ∧ e.darkening = d.darkening ∧
      Reformed r d e .tightening ∧ Reformed r d e .relaxing := by
  have hes : s.store.elements i = r.elements := by unfold Store.elements; rw [hr]
  obtain ⟨a, ha, sa, pa⟩ := reformKind_at s i .tightening d hd hl hp
  have h1 := reformKind_parts s i .tightening
  obtain ⟨b, hb, sb, pb⟩ := reformKind_at _ i .relaxing a ha (by rw [h1.signState]; exact hl)
    (by rw [h1.signState]; exact hp)
  refine ⟨b, ?_, sb.wanted.trans sa.wanted, sb.confirmed.trans sa.confirmed, sb.commanded.trans sa.commanded,
    sb.applied.trans sa.applied, ?_, ?_, ?_⟩
  · unfold State.reform
    rw [if_pos hm]
    simp only [ht]
    exact hb
  · exact (sb.part .darkening (by decide)).trans (sa.part .darkening (by decide))
  · refine formed_reformed r d b .tightening (sb.wanted.trans sa.wanted) (sb.confirmed.trans sa.confirmed) ?_
    rw [sb.part .tightening (by decide), pa, hes]
  · refine formed_reformed r d b .relaxing (sb.wanted.trans sa.wanted) (sb.confirmed.trans sa.confirmed) ?_
    rw [pb, h1.store, hes]
    have hpr := sa.part .relaxing (by decide)
    have e1 : a.differing r.elements .relaxing = d.differing r.elements .relaxing := by
      unfold DeliverySite.differing DeliverySite.differs DeliverySite.tightens
      rw [sa.wanted, sa.confirmed]
    have e2 : ∀ xs, a.sentStays .relaxing xs = d.sentStays .relaxing xs := by
      intro xs
      unfold DeliverySite.sentStays DeliverySite.commandHolds
      rw [hpr, sa.commanded, sa.wanted]
    unfold DeliverySite.formed DeliverySite.newPart
    rw [e1, e2, hpr]

/-! ## Completion (R156) -/

theorem busy_iff (d : Delivery) : d.Busy ↔ d.busy = true := by
  unfold Delivery.Busy Delivery.busy
  rw [List.any_eq_true]
  refine exists_congr fun x => and_congr_right fun _ => ?_
  rw [Bool.or_eq_true, or_comm]
  refine or_congr_left ?_
  unfold DeliverySite.anyPending partKinds
  constructor
  · rintro ⟨k, h⟩
    rw [unresolved_iff] at h
    cases k <;> simp [h]
  · intro h
    simp only [List.any_cons, List.any_nil, Bool.or_false, Bool.or_eq_true] at h
    rcases h with h | h | h
    · exact ⟨_, (unresolved_iff _).2 h⟩
    · exact ⟨_, (unresolved_iff _).2 h⟩
    · exact ⟨_, (unresolved_iff _).2 h⟩

/-- R156: a delivery still going on after completion is judged has something to deliver. -/
theorem judgeCompletion_going (s : State) (h : s.judgeCompletion.delivery.state = .delivering) :
    s.judgeCompletion.delivery.Busy ∧ s.judgeCompletion = s := by
  unfold State.judgeCompletion at h ⊢
  by_cases hc : (decide (s.delivery.state = .delivering) && !s.delivery.busy) = true
  · rw [if_pos hc] at h
    cases ht : s.delivery.target with
    | plan => rw [ht] at h; cases h
    | dark => rw [ht] at h; cases h
  · rw [if_neg hc] at h ⊢
    rw [busy_iff]
    simp only [h, decide_true, Bool.true_and, Bool.not_eq_true', Bool.not_eq_false] at hc
    exact ⟨hc, rfl⟩

end Sys2Proof.Machine
end

