-- ==== Sys2Proof/Laws/Releases.lean ====
section
/-! SUPPORT. That a part released has its command waiting in the queue of its line, with the image and the epoch byte of
R148, after an epoch is taken and after the dark target is taken (R120, R147, R155, R158). -/

namespace Sys2Proof.Machine

/-! ## The command of a part -/

theorem darkValue_eq (e : ElemId) : darkValue e = darkOf e := by cases e <;> rfl

/-- R148: the command that waits for a site's unit is the one a part's release fixes. -/
theorem commandWaits_of_waiting {s : State} {i : Nat} {k : PartKind} {d : DeliverySite} {p : Part}
    (h : s.waitingOf i = some (s.commandFor i k d p)) : CommandWaits s i k d p := by
  unfold State.waitingOf LineRec.waitingFor at h
  refine ⟨_, List.mem_of_find?_eq_some h, rfl, rfl, rfl, ?_, fun r hr e => ⟨fun he => ?_, fun he => ?_⟩⟩
  · show s.delivery.epochByte = _
    unfold Delivery.epochByte
    cases s.delivery.target <;> rfl
  · show (d.setImage (s.store.elements i) p).lookup e = _
    unfold DeliverySite.setImage
    rw [lookup_map_key, if_neg]
    unfold Store.elements
    rw [hr]
    exact fun hm => he ((mem_elements r e).1 hm)
  · have hm : e ∈ s.store.elements i := by
      unfold Store.elements
      rw [hr]
      exact (mem_elements r e).2 he
    have hl : (s.commandFor i k d p).image.lookup e = some (if p.elements.contains e
        then (d.wanted.lookup e).getD ((d.confirmed.lookup e).getD (darkValue e))
        else (d.confirmed.lookup e).getD (darkValue e)) := by
      show (d.setImage (s.store.elements i) p).lookup e = _
      unfold DeliverySite.setImage
      rw [lookup_map_key, if_pos hm]
    rw [hl, ← darkValue_eq]
    refine ⟨fun hp w hw => by simp [hp, hw], fun hp => ⟨fun v hv => by simp [hp, hv], fun hn => by simp [hp, hn]⟩⟩

/-- The command of a part depends on its site's images and its elements, the store, and the epoch byte alone. -/
theorem commandFor_congr {s t : State} (i : Nat) (k : PartKind) {d e : DeliverySite} {p q : Part}
    (hs : t.store = s.store) (hb : t.delivery.epochByte = s.delivery.epochByte) (hw : e.wanted = d.wanted)
    (hc : e.confirmed = d.confirmed) (hp : q.elements = p.elements) : t.commandFor i k e q = s.commandFor i k d p := by
  unfold State.commandFor DeliverySite.setImage
  rw [hs, hb, hw, hc, hp]

theorem PartsOnly.epochByte {s t : State} (h : PartsOnly s t) : t.delivery.epochByte = s.delivery.epochByte := by
  rw [h.delivery]; rfl

/-! ## Releases -/

/-- R147: the release of one kind of part either does nothing, or queues the part and places its command. -/
theorem releasePart_cases (s : State) (i : Nat) (k : PartKind) : s.releasePart i k = s ∨
    ∃ d p, s.site i = some d ∧ d.part k = some p ∧ p.state = .waiting ∧ s.releaseCondition i k = true ∧
      (s.releasePart i k).site i = some (d.setPart k (some { p with queued := true })) ∧
      (s.releasePart i k).waitingOf i = some (s.commandFor i k d p) := by
  unfold State.releasePart
  cases hd : s.site i with
  | none => exact Or.inl rfl
  | some d =>
    dsimp only
    cases hp : d.part k with
    | none => exact Or.inl rfl
    | some p =>
      dsimp only
      split
      · rename_i hc
        simp only [Bool.and_eq_true, decide_eq_true_eq] at hc
        refine Or.inr ⟨d, p, rfl, hp, hc.1.1.1, hc.2, ?_, ?_⟩
        · rw [modifySite_site, if_pos rfl]
          show (s.site i).map _ = _
          rw [hd]; rfl
        · rw [modifySite_waiting, enqueue_waiting s i i _ rfl rfl, if_pos rfl]
      · exact Or.inl rfl

/-- Nothing queued before is a part of the kind. -/
def DeliverySite.Unqueued (d : DeliverySite) (k : PartKind) : Prop := ∀ q, d.part k = some q → q.queued = false

/-- R120 and R147: a site's tightening and relaxing parts are never released together, so that where it has no darkening part
beside them, a part newly queued has its command waiting. -/
theorem releaseSite_waits (s : State) (i : Nat) (d e : DeliverySite) (hd : s.site i = some d)
    (hn : d.darkening = none ∨ d.tightening = none ∧ d.relaxing = none) (he : (s.releaseSite i).site i = some e)
    (k : PartKind) (p : Part) (hp : e.part k = some p) (hq : p.queued = true) (hu : d.Unqueued k) :
    (s.releaseSite i).waitingOf i = some ((s.releaseSite i).commandFor i k e p) := by
  have none_stays : ∀ (t : State) (j : PartKind) (x : DeliverySite), t.site i = some x → x.part j = none →
      t.releasePart i j = t := by
    intro t j x hx hj
    rcases releasePart_cases t i j with h | ⟨y, q, hy, hjq, -⟩
    · exact h
    · rw [hx] at hy; cases hy
      rw [hj] at hjq; cases hjq
  have stays : s.releaseSite i = s → False := by
    intro h
    rw [h, hd] at he
    cases he
    rw [hu p hp] at hq
    cases hq
  -- one release alone has done something, of the kind given
  have one : ∀ (t : State) (j : PartKind), t = s → s.releaseSite i = t.releasePart i j →
      (s.releaseSite i).waitingOf i = some ((s.releaseSite i).commandFor i k e p) := by
    intro t j ht h
    subst ht
    rcases releasePart_cases t i j with h1 | ⟨x, q, hx, hj, hw, -, hsite, hwait⟩
    · exact absurd (h.trans h1) stays
    · rw [hd] at hx; cases hx
      rw [h] at he ⊢
      rw [hsite] at he
      cases he
      have hk : k = j := by
        by_contra hk
        rw [part_setPart, if_neg hk] at hp
        rw [hu p hp] at hq
        cases hq
      subst hk
      rw [part_setPart, if_pos rfl] at hp
      cases hp
      rw [hwait]
      have g := releasePart_parts t i k
      exact congrArg some (commandFor_congr i k g.store g.epochByte (by simp) (by simp) rfl).symm
  rcases hn with hn | ⟨h1, h2⟩
  · -- no darkening part
    have h3 : s.releaseSite i = (s.releasePart i .tightening).releasePart i .relaxing := by
      obtain ⟨a, ha, -, oa, -⟩ := releasePart_at s i .tightening d hd
      obtain ⟨b, hb, -, ob, -⟩ := releasePart_at _ i .relaxing a ha
      refine none_stays _ .darkening b hb ?_
      rw [ob _ (by decide), oa _ (by decide)]
      exact hn
    rcases releasePart_cases s i .tightening with h4 | ⟨x, q, hx, hj, hw, -, hsite, -⟩
    · exact one s .relaxing rfl (by rw [h3, h4])
    · refine one s .tightening rfl ?_
      rw [h3]
      rcases releasePart_cases (s.releasePart i .tightening) i .relaxing with h5 | ⟨-, -, -, -, -, hc, -⟩
      · exact h5
      · exfalso
        unfold State.releaseCondition State.pendingAt at hc
        rw [hsite] at hc
        dsimp only at hc
        rw [part_setPart, if_pos rfl] at hc
        simp [pendingPart, Part.pending, hw] at hc
  · have h4 : s.releasePart i .tightening = s := none_stays s .tightening d hd h1
    have h5 : s.releasePart i .relaxing = s := none_stays s .relaxing d hd h2
    exact one s .darkening rfl (by unfold State.releaseSite; rw [h4, h5])

/-- R147: judging a site's waiting command leaves the site, or takes the queued mark of a part. -/
theorem recheck_cases (s : State) (i : Nat) (d : DeliverySite) (hd : s.site i = some d) :
    ∃ e, (s.recheck i).site i = some e ∧ (e = d ∨ ∃ k, e = d.uncommand k) := by
  unfold State.recheck
  split
  · exact ⟨d, hd, Or.inl rfl⟩
  · rename_i c hc
    split
    · exact ⟨d, hd, Or.inl rfl⟩
    · refine ⟨_, ?_, Or.inr ⟨c.part, rfl⟩⟩
      rw [withdraw_site, if_pos rfl, hd]
      unfold State.waitingOf
      rw [hc]
      rfl

theorem DeliverySite.Unqueued.uncommand {d : DeliverySite} {k : PartKind} (h : d.Unqueued k) (j : PartKind) :
    (d.uncommand j).Unqueued k := by
  intro q hq
  rw [part_uncommand] at hq
  split at hq
  · obtain ⟨x, -, rfl⟩ := Option.map_eq_some_iff.1 hq
    rfl
  · exact h q hq

/-- R147 and R148: after releases are judged, a part newly queued has its command waiting. -/
theorem judgeReleases_waits (s : State) (i : Nat) (d e : DeliverySite) (hd : s.site i = some d)
    (hn : d.darkening = none ∨ d.tightening = none ∧ d.relaxing = none) (he : s.judgeReleases.site i = some e)
    (k : PartKind) (p : Part) (hp : e.part k = some p) (hq : p.queued = true) (hu : d.Unqueued k) :
    s.judgeReleases.waitingOf i = some (s.judgeReleases.commandFor i k e p) := by
  rw [judgeReleases_eq] at he ⊢
  obtain ⟨a, h1, h2⟩ := forSites_at s (fun i st => st.recheck i) i (fun j s h => recheck_untouched s i j h)
    (site_some_lt hd)
  obtain ⟨x, hx, hc⟩ := recheck_cases a i d (by rw [h1.site]; exact hd)
  have hx' := h2.site.trans hx
  have hxu : x.Unqueued k := by
    rcases hc with rfl | ⟨j, rfl⟩
    · exact hu
    · exact hu.uncommand j
  have gone : ∀ j, d.part j = none → x.part j = none := by
    intro j hj
    rcases hc with rfl | ⟨m, rfl⟩
    · exact hj
    · exact (d.like_uncommand m).absent j hj
  have hxn : x.darkening = none ∨ x.tightening = none ∧ x.relaxing = none :=
    hn.imp (gone .darkening) fun h => ⟨gone .tightening h.1, gone .relaxing h.2⟩
  obtain ⟨b, g1, g2⟩ := forSites_at (s.forSites fun i st => st.recheck i) (fun i st => st.releaseSite i) i
    (fun j s h => releaseSite_untouched i j s h) (site_some_lt hx')
  rw [g2.site] at he
  have w := releaseSite_waits b i x e (by rw [g1.site]; exact hx') hxn he k p hp hq hxu
  rw [g2.waiting, w]
  exact congrArg some (commandFor_congr i k g2.parts.store g2.parts.epochByte rfl rfl rfl).symm

/-! ## Re-forming queues nothing new -/

/-- R146: a re-form of one kind leaves the other kinds, and queues no part that was not queued. -/
theorem reformKind_unqueued (s : State) (i : Nat) (k : PartKind) (d : DeliverySite) (hd : s.site i = some d) :
    ∃ e, (s.reformKind i k).site i = some e ∧ (∀ j, j ≠ k → e.part j = d.part j) ∧ (d.Unqueued k → e.Unqueued k) := by
  have fresh : ∀ xs, d.Unqueued k → (d.newPart k xs).queued = false := by
    intro xs h
    unfold DeliverySite.newPart
    split
    · rfl
    · rename_i q hq
      exact h q hq
  unfold State.reformKind
  rw [hd]
  dsimp only
  split
  · obtain ⟨e, he, hs, hp⟩ := withdrawKind_setPart s i k none d hd
    exact ⟨e, he, hs.part, fun _ q hq => by rw [hp] at hq; cases hq⟩
  · split
    · refine ⟨_, by rw [modifySite_site, if_pos rfl, hd]; rfl, fun j hj => by rw [part_setPart, if_neg hj], ?_⟩
      intro h q hq
      rw [part_setPart, if_pos rfl] at hq
      obtain ⟨x, hx, rfl⟩ := Option.map_eq_some_iff.1 hq
      exact h x hx
    · split
      · rcases (withdrawKind_site s i k d hd).1 with h | h
        · refine ⟨_, by rw [abandon_site, if_pos rfl, h]; rfl, fun j hj => ?_, fun _ q hq => ?_⟩
          · rw [part_withWanted, part_setPart, if_neg hj]
          · rw [part_withWanted, part_setPart, if_pos rfl] at hq; cases hq; rfl
        · refine ⟨_, by rw [abandon_site, if_pos rfl, h]; rfl, fun j hj => ?_, fun _ q hq => ?_⟩
          · rw [part_withWanted, part_setPart, if_neg hj, part_uncommand, if_neg hj]
          · rw [part_withWanted, part_setPart, if_pos rfl] at hq; cases hq; rfl
      · split
        · rename_i hq
          refine ⟨d.setPart k (some (d.newPart k (d.differing (s.store.elements i) k))), ?_,
            fun j hj => by rw [part_setPart, if_neg hj], fun h => ?_⟩
          · rw [modifySite_site, if_pos rfl]
            show (s.site i).map _ = _
            rw [hd]
            rfl
          · rw [fresh _ h] at hq; cases hq
        · obtain ⟨e, he, hs, hp⟩ := withdrawKind_setPart s i k
            (some (d.newPart k (d.differing (s.store.elements i) k))) d hd
          exact ⟨e, he, hs.part, fun h q hq => by rw [hp] at hq; cases hq; exact fresh _ h⟩

/-- R146: a re-form queues no part that was not queued, forms no darkening part for the plan, and no other for the dark
target. -/
theorem reform_unqueued (s : State) (i : Nat) (d : DeliverySite) (hd : s.site i = some d) :
    ∃ e, (s.reform i).site i = some e ∧ (∀ k, d.Unqueued k → e.Unqueued k) ∧
      (s.delivery.target = .plan → e.darkening = d.darkening) ∧
      (s.delivery.target = .dark → e.tightening = d.tightening ∧ e.relaxing = d.relaxing) := by
  have keep : ∀ {x e : DeliverySite} {k : PartKind}, (∀ j, j ≠ k → e.part j = x.part j) →
      (x.Unqueued k → e.Unqueued k) → ∀ j, x.Unqueued j → e.Unqueued j := by
    intro x e k h1 h2 j hj
    by_cases hk : j = k
    · subst hk; exact h2 hj
    · intro q hq; rw [h1 j hk] at hq; exact hj q hq
  unfold State.reform
  split
  · cases ht : s.delivery.target with
    | plan =>
      obtain ⟨a, ha, oa, ua⟩ := reformKind_unqueued s i .tightening d hd
      obtain ⟨b, hb, ob, ub⟩ := reformKind_unqueued _ i .relaxing a ha
      refine ⟨b, hb, fun j hj => keep ob ub j (keep oa ua j hj), fun _ => ?_, fun h => by cases h⟩
      exact (ob .darkening (by decide)).trans (oa .darkening (by decide))
    | dark =>
      obtain ⟨a, ha, oa, ua⟩ := reformKind_unqueued s i .darkening d hd
      exact ⟨a, ha, fun j hj => keep oa ua j hj, fun h => (by cases h), fun _ =>
        ⟨oa .tightening (by decide), oa .relaxing (by decide)⟩⟩
  · exact ⟨d, hd, fun _ h => h, fun _ => rfl, fun _ => ⟨rfl, rfl⟩⟩

/-- R146: every site re-formed. -/
theorem reforms_unqueued (s : State) (i : Nat) (d : DeliverySite) (hd : s.site i = some d) :
    ∃ e, (s.forSites fun i st => st.reform i).site i = some e ∧ (∀ k, d.Unqueued k → e.Unqueued k) ∧
      (s.delivery.target = .plan → e.darkening = d.darkening) ∧
      (s.delivery.target = .dark → e.tightening = d.tightening ∧ e.relaxing = d.relaxing) := by
  obtain ⟨a, h1, h2⟩ := forSites_at s (fun i st => st.reform i) i (fun j s h => reform_untouched s i j h)
    (site_some_lt hd)
  obtain ⟨e, he, r⟩ := reform_unqueued a i d (by rw [h1.site]; exact hd)
  rw [h1.parts.target] at r
  exact ⟨e, h2.site.trans he, r⟩

/-! ## Epochs and the dark target -/

/-- A completion judged for the plan leaves the parts and the commands that wait. -/
theorem judgeCompletion_plan (s : State) (ht : s.delivery.target = .plan) :
    (∀ i, s.judgeCompletion.site i = s.site i) ∧ (∀ l, s.judgeCompletion.line l = s.line l) ∧
      s.judgeCompletion.store = s.store ∧ s.judgeCompletion.delivery.epochByte = s.delivery.epochByte := by
  unfold State.judgeCompletion
  split
  · simp only [ht]
    exact ⟨fun _ => rfl, fun _ => rfl, rfl, rfl⟩
  · exact ⟨fun _ => rfl, fun _ => rfl, rfl, rfl⟩

theorem mapSites_site (s : State) (f : Nat → DeliverySite → DeliverySite) (i : Nat) :
    (s.mapSites f).site i = (s.site i).map (f i) := by
  unfold State.mapSites State.site
  simp

/-- R155: an epoch taken in LIVE: a part released for it has its command waiting. -/
theorem takeEpoch_waits (s : State) (ht : s.delivery.target = .plan) (hm : s.mode = .live) (i : Nat)
    (d e : DeliverySite) (hd : s.site i = some d) (hn : d.darkening = none) (he : s.takeEpoch.site i = some e)
    (k : PartKind) (p : Part) (hp : e.part k = some p) (hq : p.queued = true) (hu : d.Unqueued k) :
    CommandWaits s.takeEpoch i k e p := by
  unfold State.takeEpoch at he ⊢
  simp only [ht, hm, if_true] at he ⊢
  generalize hx : ({ s.wantPlan with delivery := _ } : State) = x at he ⊢
  have hxs : x.site i = some { d with wanted := (planSite s.evaluator.plan i).wanted } := by
    rw [← hx]
    show (s.wantPlan).site i = _
    unfold State.wantPlan
    rw [mapSites_site, hd]
    rfl
  have hxt : x.delivery.target = .plan := by rw [← hx]; exact ht
  obtain ⟨y, hy, uy, dy, -⟩ := reforms_unqueued x i _ hxs
  have hyt : (x.forSites fun i st => st.reform i).delivery.target = .plan := by
    rw [(forSites_parts x _ fun j s => reform_parts s j).target, hxt]
  generalize (x.forSites fun i st => st.reform i) = z at he hy hyt ⊢
  unfold State.settleDelivery at he ⊢
  have hzt : z.judgeReleases.delivery.target = .plan := by rw [(judgeReleases_parts z).target, hyt]
  obtain ⟨c1, c2, c3, c4⟩ := judgeCompletion_plan z.judgeReleases hzt
  rw [c1] at he
  have w := judgeReleases_waits z i y e hy (Or.inl ((dy hxt).trans hn)) he k p hp hq (uy k hu)
  refine commandWaits_of_waiting ?_
  have g : (z.judgeReleases.judgeCompletion).waitingOf i = z.judgeReleases.waitingOf i := by
    unfold State.waitingOf State.siteLine
    rw [c2, c3]
  rw [g, w]
  exact congrArg some (commandFor_congr i k c3 c4 rfl rfl rfl).symm

/-- R158: the dark target taken, before its parts are formed: no part stands. -/
theorem formDark_eq (s : State) : ∃ x : State, s.formDark = (x.forSites fun i st => st.reform i).judgeReleases ∧
    x.delivery.target = .dark ∧ ∀ i d, x.site i = some d → ∀ k, d.part k = none := by
  refine ⟨_, rfl, rfl, fun i d hd => ?_⟩
  have h : (s.clearParts.mapSites fun i d => { d with wanted := darkImage (s.store.elements i) }).site i = some d := hd
  unfold State.clearParts at h
  rw [mapSites_site, mapSites_site] at h
  obtain ⟨a, ha, rfl⟩ := Option.map_eq_some_iff.1 h
  obtain ⟨b, -, rfl⟩ := Option.map_eq_some_iff.1 ha
  intro k
  cases k <;> rfl

/-- R158: the dark target taken: every queued darkening part has its command waiting. -/
theorem formDark_waits (s : State) (i : Nat) (e : DeliverySite) (he : s.formDark.site i = some e) (p : Part)
    (hp : e.darkening = some p) (hq : p.queued = true) : CommandWaits s.formDark i .darkening e p := by
  obtain ⟨x, hx, hxt, hxp⟩ := formDark_eq s
  rw [hx] at he ⊢
  have hlen : i < x.delivery.sites.length := by
    have h1 := (forSites_parts x (fun i st => st.reform i) fun j s => reform_parts s j).length
    have h2 := (judgeReleases_parts (x.forSites fun i st => st.reform i)).length
    rw [← h1, ← h2]
    exact site_some_lt he
  obtain ⟨d, hd⟩ := site_of_lt hlen
  have hdn := hxp i d hd
  obtain ⟨y, hy, uy, -, dy⟩ := reforms_unqueued x i d hd
  obtain ⟨t1, t2⟩ := dy hxt
  refine commandWaits_of_waiting (judgeReleases_waits _ i y e hy (Or.inr ⟨?_, ?_⟩) he .darkening p hp hq (uy _ ?_))
  · rw [t1]; exact hdn .tightening
  · rw [t2]; exact hdn .relaxing
  · intro q h; rw [hdn] at h; cases h

end Sys2Proof.Machine
end

