-- ==== Sys2Proof/Laws/Dark.lean ====
section
/-! SUPPORT. The dark target taken (R143, R146, R158): what it leaves of each site, which parts it abandons, and when the
section is dark already (R156, R167). -/

namespace Sys2Proof.Machine

/-! ## A part formed where none stood -/

/-- Whether a site's unit cannot take commands (R146). -/
def State.silentSign (s : State) (i : Nat) : Bool := decide (s.signState i = .lost ∨ s.signState i = .probing)

theorem silentSign_iff (s : State) (i : Nat) : s.silentSign i = true ↔ ¬ s.Reaches i := by
  unfold State.silentSign State.Reaches State.signState
  cases s.unit i with
  | none => simp
  | some u => cases h : u.state <;> simp [h]

/-- A record with one part abandoned as it is formed. -/
def DeliverySite.lose (d : DeliverySite) (k : PartKind) (xs : List ElemId) : DeliverySite :=
  { d.setPart k (some ⟨xs, .abandoned, false, 0⟩) with wanted := d.wanted.filter fun x => !xs.contains x.1 }

/-- R146: a kind re-formed at a site without a part of it, and without a command waiting. -/
theorem reformKind_fresh (s : State) (i : Nat) (k : PartKind) (d : DeliverySite) (hd : s.site i = some d)
    (hn : d.part k = none) (hw : s.waitingOf i = none) :
    let xs := d.differing (s.store.elements i) k
    (s.reformKind i k).waitingOf i = none ∧
    (s.reformKind i k).site i = some (if xs.isEmpty then d.setPart k none
      else if s.silentSign i then d.lose k xs else d.setPart k (some ⟨xs, .waiting, false, 0⟩)) ∧
    (s.reformKind i k).delivery.abandoned = (if !xs.isEmpty && s.silentSign i then min (s.delivery.abandoned + 1) 65535
      else s.delivery.abandoned) ∧
    (s.reformKind i k).delivery.abandonments = (if !xs.isEmpty && s.silentSign i
      then min (s.delivery.abandonments + 1) 65535 else s.delivery.abandonments) := by
  intro xs
  have hwk : s.withdrawKind i k = s := by
    rcases withdrawKind_cases s i k with ⟨e, -⟩ | ⟨-, c, hc, -⟩
    · exact e
    · rw [hw] at hc; cases hc
  have hnew : d.newPart k xs = ⟨xs, .waiting, false, 0⟩ := by unfold DeliverySite.newPart; rw [hn]
  have hst : d.sentStays k xs = false := by unfold DeliverySite.sentStays; rw [hn]
  have counts : ∀ f, ((s.modifySite i f).delivery.abandoned = s.delivery.abandoned) ∧
      (s.modifySite i f).delivery.abandonments = s.delivery.abandonments := by
    intro f
    unfold State.modifySite
    split <;> exact ⟨rfl, rfl⟩
  have e : s.reformKind i k = if xs.isEmpty then s.modifySite i fun d => d.setPart k none
      else if s.silentSign i then s.abandon i k ⟨xs, .waiting, false, 0⟩ xs
      else s.modifySite i fun d => d.setPart k (some ⟨xs, .waiting, false, 0⟩) := by
    unfold State.reformKind
    rw [hd]
    dsimp only
    rw [hwk, hst, hnew]
    rfl
  rw [e]
  by_cases h1 : xs.isEmpty = true
  · simp only [h1, if_true, Bool.not_true, Bool.false_and, Bool.false_eq_true, if_false]
    exact ⟨by rw [modifySite_waiting, hw], by rw [modifySite_site, if_pos rfl, hd]; rfl, counts _⟩
  · rw [Bool.not_eq_true] at h1
    by_cases h2 : s.silentSign i = true
    · simp only [h1, h2, Bool.false_eq_true, if_false, if_true, Bool.not_false, Bool.and_self]
      refine ⟨by rw [abandon_waiting, hw], ?_, abandon_counts _ _ _ _ _⟩
      rw [abandon_site, if_pos rfl, hd]
      rfl
    · rw [Bool.not_eq_true] at h2
      simp only [h1, h2, Bool.false_eq_true, if_false, Bool.not_false, Bool.and_false]
      exact ⟨by rw [modifySite_waiting, hw], by rw [modifySite_site, if_pos rfl, hd]; rfl, counts _⟩

/-! ## The dark target before its parts are formed -/

/-- The state in which the dark target's parts are formed. -/
def State.toDark (s : State) : State :=
  let s1 := s.clearParts.mapSites fun i d => { d with wanted := darkImage (s.store.elements i) }
  { s1 with delivery := { s1.delivery with target := .dark, abandoned := 0, state := .delivering } }

theorem formDark_toDark (s : State) : s.formDark = (s.toDark.forSites fun i st => st.reform i).judgeReleases := rfl

/-- A site's record when the dark target is taken. -/
def State.darkStart (s : State) (i : Nat) (d : DeliverySite) : DeliverySite :=
  { d with
    tightening := none
    relaxing := none
    darkening := none
    wanted := darkImage (s.store.elements i)
    inFlight := d.inFlight && (s.waitingOf i).isNone }

theorem withdraws_parts (s : State) : PartsOnly s (s.forSites fun i st => st.withdraw i) :=
  forSites_parts s _ fun j t => withdraw_parts t j

theorem withdraws_counts (s : State) :
    (s.forSites fun i st => st.withdraw i).delivery.abandonments = s.delivery.abandonments := by
  unfold State.forSites
  generalize List.range s.delivery.sites.length = xs
  induction xs generalizing s with
  | nil => rfl
  | cons x xs ih => rw [List.foldl_cons, ih, (withdraw_counts s x).2]

theorem toDark_frame (s : State) : s.toDark.store = s.store ∧ s.toDark.units = s.units ∧ s.toDark.mode = s.mode ∧
    s.toDark.delivery.sites.length = s.delivery.sites.length ∧ s.toDark.delivery.target = .dark ∧
    s.toDark.delivery.state = .delivering ∧ s.toDark.delivery.abandoned = 0 ∧
    s.toDark.delivery.abandonments = s.delivery.abandonments ∧ s.toDark.delivery.epoch = s.delivery.epoch := by
  have h := withdraws_parts s
  have hc := withdraws_counts s
  refine ⟨h.store, h.units, h.mode, ?_, rfl, rfl, rfl, hc, ?_⟩
  · have := h.length
    simp [State.toDark, State.mapSites, State.clearParts, this]
  · show (s.forSites fun i st => st.withdraw i).delivery.epoch = _
    rw [h.delivery]

theorem toDark_site (s : State) (i : Nat) (d : DeliverySite) (hd : s.site i = some d) :
    s.toDark.site i = some (s.darkStart i d) := by
  obtain ⟨a, h1, h2⟩ := forSites_at s (fun i st => st.withdraw i) i (fun j t h => withdraw_untouched t i j h)
    (site_some_lt hd)
  show ((s.clearParts.mapSites fun i d => { d with wanted := darkImage (s.store.elements i) })).site i = _
  unfold State.clearParts
  rw [mapSites_site, mapSites_site, h2.site, withdraw_site, if_pos rfl, h1.site, hd, h1.waiting]
  unfold State.darkStart
  cases s.waitingOf i with
  | none => simp [DeliverySite.noParts]
  | some c =>
    have hl := d.like_uncommand c.part
    simp only [Option.map_some, Option.isNone_some, Bool.and_false]
    have : (d.uncommand c.part).noParts = { d.noParts with inFlight := false } := by
      unfold DeliverySite.noParts DeliverySite.uncommand
      cases c.part <;> rfl
    rw [this]
    rfl

theorem toDark_waiting (s : State) (i : Nat) (hi : i < s.delivery.sites.length) : s.toDark.waitingOf i = none := by
  obtain ⟨a, h1, h2⟩ := forSites_at s (fun i st => st.withdraw i) i (fun j t h => withdraw_untouched t i j h) hi
  have h : (s.forSites fun i st => st.withdraw i).waitingOf i = none := by
    rw [h2.waiting, withdraw_waiting, if_pos rfl]
  exact h

/-- The elements taken out of an image have no value in it. -/
theorem lookup_without (m : Image) (xs : List ElemId) (x : ElemId) :
    (m.filter fun y => !xs.contains y.1).lookup x = if x ∈ xs then none else m.lookup x := by
  induction m with
  | nil => simp
  | cons y ys ih =>
    rw [List.filter_cons]
    by_cases hy : y.1 ∈ xs
    · rw [if_neg (by simp [hy]), ih, List.lookup_cons]
      by_cases hx : x = y.1
      · subst hx; simp [hy]
      · rw [beq_eq_false_iff_ne.2 hx]
    · rw [if_pos (by simp [hy]), List.lookup_cons, List.lookup_cons, ih]
      by_cases hx : x = y.1
      · subst hx; simp [hy]
      · rw [beq_eq_false_iff_ne.2 hx]

/-! ## The parts formed -/

/-- The elements of a site that are not dark. -/
def State.lit (s : State) (i : Nat) (d : DeliverySite) : List ElemId :=
  (s.darkStart i d).differing (s.store.elements i) .darkening

theorem lookup_darkImage (xs : List ElemId) (e : ElemId) :
    (darkImage xs).lookup e = if e ∈ xs then some (darkOf e) else none := by
  unfold darkImage
  rw [lookup_map_key, darkValue_eq]

theorem mem_lit (s : State) (i : Nat) (r : SiteRecord) (d : DeliverySite) (hr : s.store.site i = some r) (e : ElemId) :
    e ∈ s.lit i d ↔ r.Holds e ∧ d.confirmed.lookup e ≠ some (darkOf e) := by
  unfold State.lit
  have hes : s.store.elements i = r.elements := by unfold Store.elements; rw [hr]
  rw [mem_differing, hes, mem_elements]
  refine and_congr_right fun h => ?_
  show DeliverySite.Differs _ e ↔ _
  unfold DeliverySite.Differs State.darkStart
  dsimp only
  rw [lookup_darkImage, hes, if_pos ((mem_elements r e).2 h)]
  simp

/-- A site's record once its darkening part is formed. -/
def State.darkFormed (s : State) (i : Nat) (d : DeliverySite) : DeliverySite :=
  if (s.lit i d).isEmpty then s.darkStart i d
  else if s.silentSign i then (s.darkStart i d).lose .darkening (s.lit i d)
  else (s.darkStart i d).setPart .darkening (some ⟨s.lit i d, .waiting, false, 0⟩)

theorem reform_dark (s : State) (i : Nat) (hm : s.mode = .darkening) (ht : s.delivery.target = .dark) :
    s.reform i = s.reformKind i .darkening := by
  unfold State.reform
  rw [hm, ht]
  rfl

/-- R146: the darkening part of a site, formed in a state that has left it and its counts alone. -/
theorem darkForm_at (s a : State) (hm : s.mode = .darkening) (i : Nat) (d : DeliverySite) (hd : s.site i = some d)
    (h1 : Untouched i s.toDark a) :
    (a.reform i).waitingOf i = none ∧ (a.reform i).site i = some (s.darkFormed i d) ∧
    (a.reform i).delivery.abandoned = (if !(s.lit i d).isEmpty && s.silentSign i then min (a.delivery.abandoned + 1) 65535
      else a.delivery.abandoned) ∧
    (a.reform i).delivery.abandonments = (if !(s.lit i d).isEmpty && s.silentSign i
      then min (a.delivery.abandonments + 1) 65535 else a.delivery.abandonments) := by
  obtain ⟨f1, f2, f3, f4, f5, -⟩ := toDark_frame s
  have hs : a.site i = some (s.darkStart i d) := by rw [h1.site, toDark_site s i d hd]
  have hst : a.store = s.store := h1.parts.store.trans f1
  have hsil : a.silentSign i = s.silentSign i := by
    unfold State.silentSign State.signState State.unit
    rw [h1.parts.units, f2]
  rw [reform_dark a i (h1.parts.mode.trans (f3.trans hm)) (h1.parts.target.trans f5)]
  obtain ⟨g1, g2, g3, g4⟩ := reformKind_fresh a i .darkening _ hs rfl
    (by rw [h1.waiting, toDark_waiting s i (site_some_lt hd)])
  rw [hst] at g2 g3 g4
  rw [hsil] at g2 g3 g4
  refine ⟨g1, ?_, g3, g4⟩
  rw [g2]
  rfl

/-- R146 and R158: a site once the dark target has been taken. -/
theorem formDark_site (s : State) (hm : s.mode = .darkening) (i : Nat) (d : DeliverySite) (hd : s.site i = some d) :
    ∃ e, s.formDark.site i = some e ∧ (s.darkFormed i d).Requeued e := by
  obtain ⟨f1, f2, f3, f4, f5, -⟩ := toDark_frame s
  obtain ⟨a, h1, h2⟩ := forSites_at s.toDark (fun i st => st.reform i) i (fun j t h => reform_untouched t i j h)
    (by rw [f4]; exact site_some_lt hd)
  obtain ⟨g1, g2, -⟩ := darkForm_at s a hm i d hd h1
  obtain ⟨e, he, -, hq⟩ := judgeReleases_at (s.toDark.forSites fun i st => st.reform i) i _ (h2.site.trans g2)
  exact ⟨e, he, hq (h2.waiting.trans g1)⟩

/-- R146 and R158: a site once the dark target has been taken, as the rules word it. -/
theorem formDark_darkened (s : State) (hm : s.mode = .darkening) (i : Nat) (r : SiteRecord) (d : DeliverySite)
    (hd : s.site i = some d) (hr : s.store.site i = some r) :
    ∃ e, s.formDark.site i = some e ∧ (e.inFlight = true ↔ d.inFlight = true ∧ s.waitingOf i = none) ∧
      Darkened s r i { d with tightening := none, relaxing := none, darkening := none } e := by
  obtain ⟨e, he, hq⟩ := formDark_site s hm i d hd
  refine ⟨e, he, ?_, ?_⟩
  · rw [hq.flying]
    have : (s.darkFormed i d).inFlight = (s.darkStart i d).inFlight := by
      unfold State.darkFormed DeliverySite.lose
      split
      · rfl
      · split <;> simp
    rw [this]
    unfold State.darkStart
    simp
  have hes : s.store.elements i = r.elements := by unfold Store.elements; rw [hr]
  have hml := mem_lit s i r d hr
  have hemp : (s.lit i d).isEmpty = true ↔ ∀ x, r.Holds x → d.confirmed.lookup x = some (darkOf x) := by
    rw [List.isEmpty_iff, List.eq_nil_iff_forall_not_mem]
    simp only [hml, not_and, not_not]
  have hwd : ∀ x, (s.darkStart i d).wanted.lookup x = if x ∈ r.elements then some (darkOf x) else none := by
    intro x
    show (darkImage (s.store.elements i)).lookup x = _
    rw [lookup_darkImage, hes]
  have wanted_eq : e.wanted = (s.darkFormed i d).wanted := hq.like.wanted
  have part_eq : ∀ k, (s.darkFormed i d).part k = none → e.part k = none := hq.like.absent
  have base : (s.darkFormed i d).confirmed = d.confirmed ∧ (s.darkFormed i d).applied = d.applied ∧
      (s.darkFormed i d).commanded = d.commanded ∧ (s.darkFormed i d).tightening = none ∧
      (s.darkFormed i d).relaxing = none := by
    unfold State.darkFormed DeliverySite.lose
    split
    · exact ⟨rfl, rfl, rfl, rfl, rfl⟩
    · split <;> exact ⟨rfl, rfl, rfl, rfl, rfl⟩
  have wanted_lookup : ∀ x, e.wanted.lookup x = if s.silentSign i = true ∧ x ∈ s.lit i d then none else
      if x ∈ r.elements then some (darkOf x) else none := by
    intro x
    rw [wanted_eq]
    unfold State.darkFormed
    by_cases h1 : (s.lit i d).isEmpty = true
    · have hn : ¬ (s.silentSign i = true ∧ x ∈ s.lit i d) := by
        rw [List.isEmpty_iff] at h1
        rw [h1]
        simp
      rw [if_pos h1, hwd, if_neg hn]
    · rw [if_neg h1]
      by_cases h2 : s.silentSign i = true
      · rw [if_pos h2]
        show (List.filter _ _).lookup x = _
        rw [lookup_without, hwd]
        simp [h2]
      · have hn : ¬ (s.silentSign i = true ∧ x ∈ s.lit i d) := fun h => h2 h.1
        rw [if_neg h2, setPart_wanted, hwd, if_neg hn]
  constructor
  · refine ⟨hq.like.confirmed.trans base.1, hq.like.applied.trans base.2.1, hq.like.commanded.trans base.2.2.1,
      part_eq .tightening base.2.2.2.1, part_eq .relaxing base.2.2.2.2, fun x hx => ?_⟩
    rw [wanted_lookup, if_neg (fun h => hx (((hml x).1 h.2).1)), if_neg (fun h => hx ((mem_elements r x).1 h))]
  · intro hreach
    have h2 : ¬ s.silentSign i = true := fun h => (silentSign_iff s i).1 h hreach
    have hw : ∀ x, r.Holds x → e.wanted.lookup x = some (darkOf x) := by
      intro x hx
      rw [wanted_lookup, if_neg (fun h => h2 h.1), if_pos ((mem_elements r x).2 hx)]
    have hcalls : ∀ x, r.Holds x → (e.Calls .darkening x ↔ d.confirmed.lookup x ≠ some (darkOf x)) := by
      intro x hx
      show e.Differs x ↔ _
      unfold DeliverySite.Differs
      rw [hw x hx, hq.like.confirmed, base.1]
      simp
    refine ⟨hw, fun h => ?_, fun ⟨x, hx, hc⟩ => ?_⟩
    · refine part_eq .darkening ?_
      unfold State.darkFormed
      rw [if_pos (hemp.2 fun x hx => by
        by_contra hn
        exact h x hx ((hcalls x hx).2 hn))]
      rfl
    · have h1 : ¬ (s.lit i d).isEmpty = true := fun h => (hcalls x hx).1 hc (hemp.1 h x hx)
      have hf : (s.darkFormed i d).part .darkening = some ⟨s.lit i d, .waiting, false, 0⟩ := by
        unfold State.darkFormed
        rw [if_neg h1, if_neg h2, part_setPart, if_pos rfl]
      obtain ⟨p, hp, -⟩ := hq.like.part .darkening _ hf
      have hs := hq.states .darkening _ p hf hp
      rw [hs] at hp
      refine ⟨_, hp, ⟨_, rfl, Or.inl rfl⟩, fun y => ?_, fun o ho => (nomatch ho), fun _ => rfl, fun h => (nomatch h)⟩
      show y ∈ s.lit i d ↔ _
      rw [hml]
      exact and_congr_right fun hy => (hcalls y hy).symm
  · intro hreach
    have h2 : s.silentSign i = true := (silentSign_iff s i).2 hreach
    refine ⟨fun x hx => ⟨fun hc => ?_, fun hc => ?_⟩, fun h => ?_, fun ⟨x, hx, hc⟩ => ?_⟩
    · rw [wanted_lookup, if_neg (fun h => ((hml x).1 h.2).2 hc), if_pos ((mem_elements r x).2 hx)]
    · rw [wanted_lookup, if_pos ⟨h2, (hml x).2 ⟨hx, hc⟩⟩]
    · refine part_eq .darkening ?_
      unfold State.darkFormed
      rw [if_pos (hemp.2 h)]
      rfl
    · have h1 : ¬ (s.lit i d).isEmpty = true := fun h => hc (hemp.1 h x hx)
      have hf : (s.darkFormed i d).part .darkening = some ⟨s.lit i d, .abandoned, false, 0⟩ := by
        unfold State.darkFormed
        rw [if_neg h1, if_pos h2]
        rfl
      obtain ⟨p, hp, hl⟩ := hq.like.part .darkening _ hf
      rw [hl.resolved rfl rfl] at hp
      exact ⟨_, hp, rfl, rfl, rfl, hml⟩

/-! ## The parts abandoned as they are formed -/

/-- Whether a site's darkening part is abandoned as it is formed. -/
def State.losesDark (s : State) (i : Nat) : Bool :=
  match s.site i with
  | none => false
  | some d => !(s.lit i d).isEmpty && s.silentSign i

/-- The sites whose darkening parts are abandoned. -/
def State.darkLost (s : State) : List Nat := (List.range s.delivery.sites.length).filter s.losesDark

theorem elements_none (s : State) (i : Nat) (h : s.store.site i = none) : s.store.elements i = [] := by
  unfold Store.elements; rw [h]

theorem darkLost_spec (s : State) : DarkLost s s.darkLost := by
  refine ⟨List.nodup_range.filter _, fun i => ?_⟩
  unfold State.darkLost
  rw [List.mem_filter, List.mem_range]
  unfold State.losesDark
  constructor
  · rintro ⟨hi, h⟩
    obtain ⟨d, hd⟩ := site_of_lt hi
    rw [hd] at h
    simp only [Bool.and_eq_true, Bool.not_eq_true'] at h
    cases hr : s.store.site i with
    | none =>
      have : s.lit i d = [] := by
        unfold State.lit DeliverySite.differing
        rw [elements_none s i hr]; rfl
      rw [this] at h
      simp at h
    | some r =>
      obtain ⟨x, hx⟩ := List.exists_mem_of_ne_nil (s.lit i d) (by
        intro hn; rw [hn] at h; simp at h)
      exact ⟨d, r, hd, rfl, (silentSign_iff s i).1 h.2, x, (mem_lit s i r d hr x).1 hx⟩
  · rintro ⟨d, r, hd, hr, hn, x, hx⟩
    refine ⟨site_some_lt hd, ?_⟩
    rw [hd]
    have hm := (mem_lit s i r d hr x).2 hx
    have hne : (s.lit i d).isEmpty = false := by
      cases hl : s.lit i d with
      | nil => rw [hl] at hm; cases hm
      | cons y ys => rfl
    simp [hne, (silentSign_iff s i).2 hn]

/-- Two lists of the sites that lose their parts are as long. -/
theorem darkLost_length (s : State) (gone : List Nat) (h : DarkLost s gone) : gone.length = s.darkLost.length := by
  obtain ⟨n2, m2⟩ := darkLost_spec s
  exact (List.Perm.length_eq ((List.perm_ext_iff_of_nodup h.1 n2).2 fun i => (h.2 i).trans (m2 i).symm))

theorem countedUp (n : Nat) : min (min n 65535 + 1) 65535 = min (n + 1) 65535 := by omega

/-- The judging of releases abandons nothing. -/
theorem judgeReleases_counts (t : State) : t.judgeReleases.delivery.abandoned = t.delivery.abandoned ∧
    t.judgeReleases.delivery.abandonments = t.delivery.abandonments := by
  have loop : ∀ (f : Nat → State → State), (∀ i u, (f i u).delivery.abandoned = u.delivery.abandoned ∧
      (f i u).delivery.abandonments = u.delivery.abandonments) → ∀ (xs : List Nat) (u : State),
      (xs.foldl (fun st i => f i st) u).delivery.abandoned = u.delivery.abandoned ∧
      (xs.foldl (fun st i => f i st) u).delivery.abandonments = u.delivery.abandonments := by
    intro f hf xs
    induction xs with
    | nil => exact fun u => ⟨rfl, rfl⟩
    | cons x xs ih => exact fun u => ⟨(ih _).1.trans (hf x u).1, (ih _).2.trans (hf x u).2⟩
  have mod : ∀ (u : State) (i : Nat) f, (u.modifySite i f).delivery.abandoned = u.delivery.abandoned ∧
      (u.modifySite i f).delivery.abandonments = u.delivery.abandonments := by
    intro u i f
    unfold State.modifySite
    split <;> exact ⟨rfl, rfl⟩
  have rel : ∀ (u : State) i k, (u.releasePart i k).delivery.abandoned = u.delivery.abandoned ∧
      (u.releasePart i k).delivery.abandonments = u.delivery.abandonments := by
    intro u i k
    unfold State.releasePart
    split
    · exact ⟨rfl, rfl⟩
    · split
      · exact ⟨rfl, rfl⟩
      · split
        · exact mod _ _ _
        · exact ⟨rfl, rfl⟩
  have a1 := loop (fun i st => st.recheck i) (fun i u => by
    show (State.recheck u i).delivery.abandoned = _ ∧ _
    unfold State.recheck
    split
    · exact ⟨rfl, rfl⟩
    · split
      · exact ⟨rfl, rfl⟩
      · exact withdraw_counts u i) (List.range t.delivery.sites.length) t
  have a2 := loop (fun i st => st.releaseSite i) (fun i u => by
    unfold State.releaseSite
    exact ⟨((rel _ _ _).1.trans (rel _ _ _).1).trans (rel _ _ _).1,
      ((rel _ _ _).2.trans (rel _ _ _).2).trans (rel _ _ _).2⟩)
    (List.range (t.forSites fun i st => st.recheck i).delivery.sites.length) (t.forSites fun i st => st.recheck i)
  rw [judgeReleases_eq]
  exact ⟨a2.1.trans a1.1, a2.2.trans a1.2⟩

theorem formDark_counts (s : State) (hm : s.mode = .darkening) :
    s.formDark.delivery.abandoned = min s.darkLost.length 65535 ∧
    (s.delivery.abandonments ≤ 65535 →
      s.formDark.delivery.abandonments = min (s.delivery.abandonments + s.darkLost.length) 65535) := by
  obtain ⟨f1, f2, f3, f4, f5, f6, f7, f8, f9⟩ := toDark_frame s
  have step : ∀ n ≤ s.delivery.sites.length,
      (∀ j, n ≤ j → Untouched j s.toDark ((List.range n).foldl (fun st i => st.reform i) s.toDark)) ∧
      ((List.range n).foldl (fun st i => st.reform i) s.toDark).delivery.abandoned =
        min ((List.range n).filter s.losesDark).length 65535 ∧
      (s.delivery.abandonments ≤ 65535 →
        ((List.range n).foldl (fun st i => st.reform i) s.toDark).delivery.abandonments =
          min (s.delivery.abandonments + ((List.range n).filter s.losesDark).length) 65535) := by
    intro n
    induction n with
    | zero => exact fun _ => ⟨fun j _ => .refl j _, by simpa using f7, fun h => by simp [f8]; omega⟩
    | succ n ih =>
      intro hn
      obtain ⟨i1, i2, i3⟩ := ih (by omega)
      rw [List.range_succ, List.foldl_append, List.foldl_cons, List.foldl_nil]
      generalize (List.range n).foldl (fun st i => st.reform i) s.toDark = a at i1 i2 i3 ⊢
      obtain ⟨d, hd⟩ := site_of_lt (show n < s.delivery.sites.length by omega)
      obtain ⟨-, -, g3, g4⟩ := darkForm_at s a hm n d hd (i1 n (le_refl _))
      have one : ([n].filter s.losesDark).length = if s.losesDark n = true then 1 else 0 := by
        rw [List.filter_cons]
        split <;> rfl
      have hl : s.losesDark n = (!(s.lit n d).isEmpty && s.silentSign n) := by unfold State.losesDark; rw [hd]
      refine ⟨fun j hj => (i1 j (by omega)).trans (reform_untouched a j n (by omega)), ?_, fun h => ?_⟩
      · rw [g3, ← hl, i2, List.filter_append, List.length_append, one]
        split
        · exact countedUp _
        · rfl
      · rw [g4, ← hl, i3 h, List.filter_append, List.length_append, one]
        split
        · rw [countedUp, Nat.add_assoc]
        · rfl
  obtain ⟨-, h2, h3⟩ := step _ (le_refl _)
  have e : (s.toDark.forSites fun i st => st.reform i) =
      (List.range s.delivery.sites.length).foldl (fun st i => st.reform i) s.toDark := by
    unfold State.forSites; rw [f4]
  rw [formDark_toDark]
  rw [(judgeReleases_counts _).1, (judgeReleases_counts _).2, e]
  exact ⟨h2, h3⟩

/-! ## Whether the section is dark already (R156, R167) -/

theorem noneWaits_iff (s : State) (i : Nat) : s.NoneWaits i ↔ s.waitingOf i = none := by
  unfold State.NoneWaits State.waitingOf LineRec.waitingFor
  rw [List.find?_eq_none]
  refine forall_congr' fun c => forall_congr' fun _ => ?_
  by_cases h : c.site = i <;> simp [h]

theorem formDark_parts (s : State) : s.formDark.delivery.target = .dark ∧ s.formDark.delivery.state = .delivering ∧
    s.formDark.delivery.epoch = s.delivery.epoch ∧ s.formDark.delivery.sites.length = s.delivery.sites.length := by
  obtain ⟨f1, f2, f3, f4, f5, f6, f7, f8, f9⟩ := toDark_frame s
  have h := (forSites_parts s.toDark (fun i st => st.reform i) fun j t => reform_parts t j).trans (judgeReleases_parts _)
  rw [← formDark_toDark] at h
  exact ⟨h.target.trans f5, h.state.trans f6, by rw [h.delivery]; exact f9, h.length.trans f4⟩

/-- R156: something is left to darken, or in flight, once the dark target has been taken. -/
theorem formDark_busy (s : State) (hm : s.mode = .darkening) : s.formDark.delivery.Busy ↔ ∃ i d, s.site i = some d ∧
    (d.inFlight = true ∧ s.NoneWaits i ∨ ∃ r, s.store.site i = some r ∧ s.Reaches i ∧
      ∃ e, r.Holds e ∧ d.confirmed.lookup e ≠ some (darkOf e)) := by
  have at_site : ∀ i d, s.site i = some d → ∀ e, s.formDark.site i = some e →
      ((e.inFlight = true ∨ ∃ k, Unresolved (e.part k)) ↔ (d.inFlight = true ∧ s.NoneWaits i ∨
        ∃ r, s.store.site i = some r ∧ s.Reaches i ∧ ∃ x, r.Holds x ∧ d.confirmed.lookup x ≠ some (darkOf x))) := by
    intro i d hd e he
    rw [noneWaits_iff]
    cases hr : s.store.site i with
    | some r =>
      obtain ⟨e', he', hf, hk⟩ := formDark_darkened s hm i r d hd hr
      rw [he] at he'; cases he'
      rw [hf]
      refine or_congr_right ⟨fun ⟨k, hu⟩ => ⟨r, rfl, ?_⟩, fun ⟨r', h1, h2, x, h3, h4⟩ => ?_⟩
      · obtain ⟨q, hq, hst⟩ := hu
        have hkd : k = .darkening := by
          cases k with
          | tightening => rw [show e.part .tightening = none from hk.keeps.2.2.2.1] at hq; cases hq
          | relaxing => rw [show e.part .relaxing = none from hk.keeps.2.2.2.2.1] at hq; cases hq
          | darkening => rfl
        subst hkd
        by_contra hn
        by_cases hreach : s.Reaches i
        · obtain ⟨hw, hre⟩ := hk.reached hreach
          have : e.part .darkening = none := hre.absent fun x hx hc => hn ⟨hreach, x, hx, by
            obtain ⟨w, hw1, hw2⟩ := (show e.Differs x from hc)
            rw [hw x hx] at hw1
            cases hw1
            rw [← hk.keeps.1]
            exact hw2⟩
          rw [this] at hq; cases hq
        · obtain ⟨-, hnone, hsome⟩ := hk.unreached hreach
          by_cases hall : ∀ x, r.Holds x → d.confirmed.lookup x = some (darkOf x)
          · rw [show e.part .darkening = none from hnone hall] at hq; cases hq
          · simp only [not_forall] at hall
            obtain ⟨x, hx, hc⟩ := hall
            obtain ⟨p, hp, hpa, -⟩ := hsome ⟨x, hx, hc⟩
            rw [show e.part .darkening = some p from hp] at hq
            cases hq
            rw [hpa] at hst
            rcases hst with h | h <;> cases h
      · cases h1
        obtain ⟨hw, hre⟩ := hk.reached h2
        obtain ⟨p, hp, hu, -⟩ := hre.formed ⟨x, h3, show e.Differs x from ⟨_, hw x h3, by
          have hcf : e.confirmed = d.confirmed := hk.keeps.1
          rw [hcf]; exact h4⟩⟩
        exact ⟨.darkening, by rw [hp]; exact hu⟩
    | none =>
      obtain ⟨e', he', hq⟩ := formDark_site s hm i d hd
      rw [he] at he'; cases he'
      have hl : s.lit i d = [] := by
        unfold State.lit DeliverySite.differing
        rw [elements_none s i hr]; rfl
      have hf : s.darkFormed i d = s.darkStart i d := by unfold State.darkFormed; rw [hl]; rfl
      rw [hf] at hq
      have h1 : e.inFlight = true ↔ d.inFlight = true ∧ s.waitingOf i = none := by
        rw [hq.flying]; unfold State.darkStart; simp
      rw [h1]
      refine or_congr_right ⟨fun ⟨k, hu⟩ => ?_, fun ⟨r', h, _⟩ => by cases h⟩
      obtain ⟨q, hq', -⟩ := hu
      rw [hq.like.absent k (by cases k <;> rfl)] at hq'
      cases hq'
  have hlen := (formDark_parts s).2.2.2
  unfold Delivery.Busy
  constructor
  · rintro ⟨e, he, hb⟩
    obtain ⟨i, hi, hget⟩ := List.mem_iff_getElem.1 he
    have hes : s.formDark.site i = some e := by
      unfold State.site; rw [List.getElem?_eq_getElem hi, hget]
    obtain ⟨d, hd⟩ := site_of_lt (s := s) (i := i) (by rw [← hlen]; exact hi)
    exact ⟨i, d, hd, (at_site i d hd e hes).1 hb⟩
  · rintro ⟨i, d, hd, h⟩
    obtain ⟨e, he, -⟩ := formDark_site s hm i d hd
    exact ⟨e, List.mem_of_getElem? he, (at_site i d hd e he).2 h⟩

/-- R166, R167 and R156: the change to DARKENING, or at once to SHADOW with the completion recorded. -/
theorem goDark_spec (s : State) :
    (s.goDark.mode = .darkening ↔ ∃ i d, s.site i = some d ∧ (d.inFlight = true ∧ s.NoneWaits i ∨
      ∃ r, s.store.site i = some r ∧ s.Reaches i ∧ ∃ e, r.Holds e ∧ d.confirmed.lookup e ≠ some (darkOf e))) ∧
    (s.goDark.mode = .darkening → s.goDark = (s.changeMode .darkening).formDark) ∧
    (s.goDark.mode ≠ .darkening → s.goDark.mode = .shadow ∧ s.goDark.delivery.completion =
      some ⟨.dark, s.delivery.epoch, min s.darkLost.length 65535⟩) ∧
    (s.delivery.abandonments ≤ 65535 →
      s.goDark.delivery.abandonments = min (s.delivery.abandonments + s.darkLost.length) 65535) := by
  generalize hu : s.changeMode .darkening = u
  have um : u.mode = .darkening := by subst hu; rfl
  have hb := formDark_busy u um
  obtain ⟨c1, c2⟩ := formDark_counts u um
  have el : u.darkLost = s.darkLost := by subst hu; rfl
  have ea : u.delivery = s.delivery := by subst hu; rfl
  rw [el] at c1 c2
  rw [ea] at c2
  obtain ⟨p1, p2, p3, -⟩ := formDark_parts u
  rw [ea] at p3
  have fm : u.formDark.mode = .darkening := by
    obtain ⟨f1, f2, f3, -⟩ := toDark_frame u
    have h := (forSites_parts u.toDark (fun i st => st.reform i) fun j t => reform_parts t j).trans
      (judgeReleases_parts _)
    rw [← formDark_toDark] at h
    exact h.mode.trans (f3.trans um)
  have hb' : u.formDark.delivery.Busy ↔ ∃ i d, s.site i = some d ∧ (d.inFlight = true ∧ s.NoneWaits i ∨
      ∃ r, s.store.site i = some r ∧ s.Reaches i ∧ ∃ e, r.Holds e ∧ d.confirmed.lookup e ≠ some (darkOf e)) := by
    rw [hb]; subst hu; exact Iff.rfl
  have hg : s.goDark = u.formDark.judgeCompletion := by subst hu; rfl
  rw [hg]
  unfold State.judgeCompletion
  by_cases hbusy : u.formDark.delivery.busy = true
  · rw [if_neg (by simp [hbusy])]
    refine ⟨⟨fun _ => hb'.1 ((busy_iff _).2 hbusy), fun _ => fm⟩, fun _ => rfl, fun h => absurd fm h, c2⟩
  · rw [if_pos (by simp [hbusy, p2])]
    rw [p1]
    dsimp only
    have hmode : ∀ x : State, x.enterShadow.mode = .shadow := by
      intro x
      unfold State.enterShadow State.wantPlan State.clearParts
      exact (withdraws_parts _).mode
    have hcomp : ∀ x : State, x.enterShadow.delivery.completion = x.delivery.completion ∧
        x.enterShadow.delivery.abandonments = x.delivery.abandonments := by
      intro x
      have h := withdraws_parts ({ x with mode := .shadow }.notifyAll .mode)
      have hc := withdraws_counts ({ x with mode := .shadow }.notifyAll .mode)
      refine ⟨?_, hc⟩
      show (State.forSites _ _).delivery.completion = _
      rw [h.delivery]
      rfl
    refine ⟨⟨fun h => ?_, fun h => ?_⟩, fun h => ?_, fun _ => ⟨hmode _, ?_⟩, fun h => ?_⟩
    · rw [hmode] at h; cases h
    · exact absurd ((busy_iff _).1 (hb'.2 h)) hbusy
    · rw [hmode] at h; cases h
    · rw [(hcomp _).1]
      show some (⟨u.formDark.delivery.target, u.formDark.delivery.epoch, u.formDark.delivery.abandoned⟩ : Completion) = _
      rw [p1, p3, c1]
    · have hx : ∀ v : State, ({ v with delivery := v.delivery.complete }.notifyAll
          .delivered).delivery.abandonments = v.delivery.abandonments := fun v => by rw [State.notifyAll_delivery]; rfl
      rw [(hcomp _).2, hx, c2 h]

end Sys2Proof.Machine
end

