-- ==== Sys2Proof/Laws/Frames.lean ====
section
/-! SUPPORT. The bytes of replies, of SET payloads and of field replies read as the rules word them (R109, R110, R172). -/

namespace Sys2Proof.Machine

/-! ## Replies and SET payloads -/

theorem reply_frame (r : Reply) : ReplyBytes r r.frame :=
  ⟨r.reason.code, by cases r.reason <;> rfl, rfl⟩

/-- R174: a reply frame is six bytes and its payload. -/
theorem reply_length (r : Reply) (b : List Byte) (h : ReplyBytes r b) : b.length = r.payload.length + 6 := by
  obtain ⟨why, -, rfl⟩ := h
  simp [crcBytes, be16]

theorem aspectCode_eq (a : Aspect) : aspects[(byte a.code).toNat]? = some a := by cases a <;> rfl

theorem legendRank_eq (g : Legend) : legends[(byte g.rank).toNat]? = some g := by cases g <;> rfl

/-- R109: the payload of a SET. -/
theorem setPayload_coded (m : Image) (epoch : Nat) : SetCoded m epoch (setPayload m epoch) := by
  refine ⟨by simp [setPayload], by simp [setPayload, num, byte], ?_, fun l hl => ?_, ?_⟩
  · have h : num (setPayload m epoch) 1 = m.limitByte.toNat := rfl
    rw [h]
    unfold Image.limitByte Image.value
    refine ⟨fun v hv => by rw [hv]; simp [limitCode, byte], fun hn => ?_⟩
    rcases hm : m.lookup .limit with _ | (_ | v) | _ | _
    · rw [hm]; rfl
    · rw [hm]; rfl
    · exact absurd hm (hn v)
    · rw [hm]; rfl
    · rw [hm]; rfl
  · have h : num (setPayload m epoch) (2 + l) = (m.laneByte l).toNat := by
      match l, hl with
      | 0, _ | 1, _ | 2, _ | 3, _ | 4, _ | 5, _ => rfl
    rw [h]
    unfold Image.laneByte Image.value
    refine ⟨fun a ha => by rw [ha]; exact aspectCode_eq a, fun hn => ?_⟩
    rcases hm : m.lookup (.lane l) with _ | _ | a | _
    · rw [hm]; rfl
    · rw [hm]; rfl
    · exact absurd hm (hn a)
    · rw [hm]; rfl
  · have h : num (setPayload m epoch) 8 = m.legendByte.toNat := rfl
    rw [h]
    unfold Image.legendByte Image.value
    refine ⟨fun g hg => by rw [hg]; exact legendRank_eq g, fun hn => ?_⟩
    rcases hm : m.lookup .legend with _ | _ | _ | g
    · rw [hm]; rfl
    · rw [hm]; rfl
    · rw [hm]; rfl
    · exact absurd hm (hn g)

/-! ## Field replies -/

theorem aspectOfCode_eq (n : Nat) : Aspect.ofCode n = aspects[n]? := by
  match n with
  | 0 | 1 | 2 | 3 | 4 => rfl
  | n + 5 => rfl

theorem faultOfCode_eq (n : Nat) : DisplayFault.ofCode n = displayFaults[n]? := by
  match n with
  | 0 | 1 | 2 | 3 => rfl
  | n + 4 => rfl

theorem decodeAll_iff {α : Type} (f : Nat → Option α) (bs : List Byte) (xs : List α) :
    decodeAll f bs = some xs ↔ xs.length = bs.length ∧ ∀ l < bs.length, ∃ x, f (num bs l) = some x ∧ xs[l]? = some x := by
  induction bs generalizing xs with
  | nil => cases xs <;> simp [decodeAll]
  | cons b bs ih =>
    have hn : num (b :: bs) 0 = b.toNat := rfl
    unfold decodeAll
    constructor
    · intro h
      split at h
      · rename_i x ys hx hy
        cases h
        obtain ⟨h1, h2⟩ := (ih ys).1 hy
        refine ⟨by simp [h1], fun l hl => ?_⟩
        match l with
        | 0 => exact ⟨x, hx, rfl⟩
        | l + 1 =>
          obtain ⟨y, g1, g2⟩ := h2 l (by simpa using hl)
          exact ⟨y, g1, by simpa using g2⟩
      · cases h
    · rintro ⟨h1, h2⟩
      cases xs with
      | nil => simp at h1
      | cons x xs =>
        obtain ⟨y, g1, g2⟩ := h2 0 (by simp)
        cases g2
        rw [hn] at g1
        have h3 : decodeAll f bs = some xs := (ih xs).2 ⟨by simpa using h1, fun l hl => by
          obtain ⟨z, e1, e2⟩ := h2 (l + 1) (by simpa using hl)
          exact ⟨z, e1, by simpa using e2⟩⟩
        rw [g1, h3]

theorem num_slice (b : List Byte) (i n l : Nat) (hl : l < n) : num ((b.drop i).take n) l = num b (i + l) := by
  unfold num
  rw [List.getD_eq_getElem?_getD, List.getD_eq_getElem?_getD, List.getElem?_take, if_pos hl, List.getElem?_drop]

theorem decodeSlice_iff {α : Type} (f : Nat → Option α) (table : List α) (hf : ∀ n, f n = table[n]?) (b : List Byte)
    (i n : Nat) (h : i + n ≤ b.length) (xs : List α) :
    decodeAll f ((b.drop i).take n) = some xs ↔
      xs.length = n ∧ ∀ l < n, num b (i + l) < table.length ∧ xs[l]? = table[num b (i + l)]? := by
  have hlen : ((b.drop i).take n).length = n := by simp; omega
  rw [decodeAll_iff, hlen]
  refine and_congr_right fun _ => forall_congr' fun l => forall_congr' fun hl => ?_
  rw [num_slice b i n l hl, hf]
  constructor
  · rintro ⟨x, h1, h2⟩
    exact ⟨(List.getElem?_eq_some_iff.1 h1).1, by rw [h1, h2]⟩
  · rintro ⟨h1, h2⟩
    exact ⟨_, List.getElem?_eq_getElem h1, by rw [h2, List.getElem?_eq_getElem h1]⟩

/-- R110: the payload of a STATE. -/
theorem parseState_iff (b : List Byte) (a : StateReply) : parseState b = some a ↔ StateCoded b a := by
  unfold parseState
  by_cases hb : b.length = 18
  swap
  · rw [if_pos hb]
    exact ⟨fun h => (by cases h), fun h => absurd h.length hb⟩
  rw [if_neg (not_not.2 hb)]
  have hl := decodeSlice_iff Aspect.ofCode aspects aspectOfCode_eq b 3 6 (by omega)
  have hf := decodeSlice_iff DisplayFault.ofCode displayFaults faultOfCode_eq b 11 6 (by omega)
  have hlim : ∀ l : Limit, limitOfCode (num b 2) = some l ↔
      (num b 2 = 0 ∧ l = none ∨ 2 ≤ num b 2 ∧ num b 2 ≤ 12 ∧ l = some (num b 2 * 10)) := by
    intro l
    unfold limitOfCode
    by_cases h0 : num b 2 = 0
    · rw [if_pos h0]
      simp [h0, eq_comm]
    · rw [if_neg h0]
      by_cases h1 : 2 ≤ num b 2 ∧ num b 2 ≤ 12
      · rw [if_pos h1]
        simp [h0, h1, eq_comm]
      · rw [if_neg h1]
        simp only [h0, false_and, false_or]
        exact ⟨fun h => (by cases h), fun h => absurd ⟨h.1, h.2.1⟩ h1⟩
  simp only [at_eq, ofRank_eq, faultOfCode_eq]
  constructor
  · intro h
    split at h
    · rename_i limit lanes legend speed laneFaults message e1 e2 e3 e4 e5 e6
      cases h
      exact ⟨hb, rfl, rfl, (hlim _).1 e1, (hl _).1 e2, e3, e4, (hf _).1 e5, e6⟩
    · cases h
  · rintro ⟨-, h1, h2, h3, h4, h5, h6, h7, h8⟩
    rw [(hlim _).2 h3, (hl _).2 h4, h5, h6, (hf _).2 h7, h8]
    cases a
    simp only at h1 h2
    rw [h1, h2]

theorem ofBytes_four (b : List Byte) (i : Nat) (h : i + 4 ≤ b.length) : ofBytes ((b.drop i).take 4) = num4 b i := by
  have hg : ∀ l < 4, ((b.drop i).take 4)[l]? = some (b.getD (i + l) 0) := by
    intro l hl
    rw [List.getElem?_take, if_pos hl, List.getElem?_drop, List.getElem?_eq_getElem (by omega),
      List.getD_eq_getElem?_getD, List.getElem?_eq_getElem (by omega)]
    rfl
  have he : (b.drop i).take 4 = [b.getD i 0, b.getD (i + 1) 0, b.getD (i + 2) 0, b.getD (i + 3) 0] := by
    refine List.ext_getElem? fun l => ?_
    by_cases hl : l < 4
    · rw [hg l hl]
      match l, hl with
      | 0, _ | 1, _ | 2, _ | 3, _ => rfl
    · rw [List.getElem?_eq_none (by simp; omega), List.getElem?_eq_none (by simp; omega)]
  rw [he]
  unfold ofBytes num4 num2 num
  simp only [List.foldl]
  ring

theorem loopOfCode_iff (n : Nat) (f : LoopFault) :
    LoopFault.ofCode n = some f ↔ (n = 0 ∧ f = .ok ∨ n = 1 ∧ f = .loopOpen) := by
  match n with
  | 0 => simp [LoopFault.ofCode, eq_comm]
  | 1 => simp [LoopFault.ofCode, eq_comm]
  | n + 2 => simp [LoopFault.ofCode]

theorem num_drop (b : List Byte) (i j : Nat) : num (b.drop i) j = num b (i + j) := by
  unfold num
  rw [List.getD_eq_getElem?_getD, List.getD_eq_getElem?_getD, List.getElem?_drop]

theorem num2_drop (b : List Byte) (i j : Nat) : num2 (b.drop i) j = num2 b (i + j) := by
  unfold num2
  rw [num_drop, num_drop, Nat.add_assoc]

theorem num4_drop (b : List Byte) (i j : Nat) : num4 (b.drop i) j = num4 b (i + j) := by
  unfold num4
  rw [num2_drop, num2_drop, Nat.add_assoc]

/-- R110: the lanes of a DATA payload. -/
theorem parseLanes_iff (n : Nat) (b : List Byte) (hb : b.length = 11 * n) (xs : List LaneData) :
    parseLanes n b = some xs ↔ xs.length = n ∧ ∀ j < n, ∃ x, xs[j]? = some x ∧
      x.totals = ⟨num2 b (11 * j), num4 b (2 + 11 * j), num4 b (6 + 11 * j)⟩ ∧
      (num b (10 + 11 * j) = 0 ∧ x.fault = .ok ∨ num b (10 + 11 * j) = 1 ∧ x.fault = .loopOpen) := by
  induction n generalizing b xs with
  | zero => cases xs <;> simp [parseLanes]
  | succ n ih =>
    have hd : ∀ j, num2 (b.drop 11) (11 * j) = num2 b (11 * (j + 1)) ∧
        num4 (b.drop 11) (2 + 11 * j) = num4 b (2 + 11 * (j + 1)) ∧
        num4 (b.drop 11) (6 + 11 * j) = num4 b (6 + 11 * (j + 1)) ∧
        num (b.drop 11) (10 + 11 * j) = num b (10 + 11 * (j + 1)) := by
      intro j
      rw [num2_drop, num4_drop, num4_drop, num_drop]
      refine ⟨congrArg _ ?_, congrArg _ ?_, congrArg _ ?_, congrArg _ ?_⟩ <;> omega
    have ih := ih (b.drop 11) (by simp; omega)
    have h2 := ofBytes_four b 2 (by omega)
    have h6 := ofBytes_four b 6 (by omega)
    unfold parseLanes
    simp only [at_eq, word_eq, h2, h6]
    constructor
    · intro h
      split at h
      · rename_i f ys hf hy
        cases h
        obtain ⟨g1, g2⟩ := (ih ys).1 hy
        refine ⟨by simp [g1], fun j hj => ?_⟩
        match j with
        | 0 => exact ⟨_, rfl, rfl, (loopOfCode_iff _ _).1 hf⟩
        | j + 1 =>
          obtain ⟨x, e1, e2, e3⟩ := g2 j (by omega)
          obtain ⟨d1, d2, d3, d4⟩ := hd j
          rw [d1, d2, d3] at e2
          rw [d4] at e3
          exact ⟨x, by simpa using e1, e2, e3⟩
      · cases h
    · rintro ⟨h1, g⟩
      cases xs with
      | nil => simp at h1
      | cons x xs =>
        obtain ⟨y, e1, e2, e3⟩ := g 0 (by omega)
        cases e1
        have hr : parseLanes n (b.drop 11) = some xs := (ih xs).2 ⟨by simpa using h1, fun j hj => by
          obtain ⟨z, f1, f2, f3⟩ := g (j + 1) (by omega)
          obtain ⟨d1, d2, d3, d4⟩ := hd j
          rw [← d1, ← d2, ← d3] at f2
          rw [← d4] at f3
          exact ⟨z, by simpa using f1, f2, f3⟩⟩
        rw [(loopOfCode_iff _ _).2 e3, hr]
        dsimp only
        rw [Option.some_inj, List.cons.injEq]
        refine ⟨?_, rfl⟩
        cases x
        simp only at e2
        rw [e2]

/-- R110: the payload of a DATA. -/
theorem parseData_iff (b : List Byte) (a : DataReply) : parseData b = some a ↔ DataCoded b a := by
  unfold parseData
  dsimp only
  by_cases hb : 6 ≤ b.length ∧ at' b 5 ≤ 8 ∧ b.length = 6 + 11 * at' b 5
  swap
  · rw [if_neg hb]
    rw [at_eq] at hb
    exact ⟨fun h => (by cases h), fun h => absurd ⟨by have := h.length.2; omega, h.length⟩ hb⟩
  rw [if_pos hb, ofBytes_four b 1 (by omega)]
  rw [at_eq] at hb ⊢
  have hl := parseLanes_iff (num b 5) (b.drop 6) (by simp; omega)
  have hd : ∀ j, num2 (b.drop 6) (11 * j) = num2 b (6 + 11 * j) ∧ num4 (b.drop 6) (2 + 11 * j) = num4 b (8 + 11 * j) ∧
      num4 (b.drop 6) (6 + 11 * j) = num4 b (12 + 11 * j) ∧ num (b.drop 6) (10 + 11 * j) = num b (16 + 11 * j) := by
    intro j
    rw [num2_drop, num4_drop, num4_drop, num_drop]
    refine ⟨congrArg _ ?_, congrArg _ ?_, congrArg _ ?_, congrArg _ ?_⟩ <;> omega
  constructor
  · intro h
    obtain ⟨xs, hx, rfl⟩ := Option.map_eq_some_iff.1 h
    obtain ⟨h1, h2⟩ := (hl xs).1 hx
    refine ⟨hb.2, rfl, rfl, h1, fun j hj => ?_⟩
    obtain ⟨x, e1, e2, e3⟩ := h2 j hj
    obtain ⟨d1, d2, d3, d4⟩ := hd j
    rw [d1, d2, d3] at e2
    rw [d4] at e3
    exact ⟨x, e1, e2, e3⟩
  · rintro ⟨-, h1, h2, h3, h4⟩
    refine Option.map_eq_some_iff.2 ⟨a.lanes, (hl _).2 ⟨h3, fun j hj => ?_⟩, ?_⟩
    · obtain ⟨x, e1, e2, e3⟩ := h4 j hj
      obtain ⟨d1, d2, d3, d4⟩ := hd j
      rw [← d1, ← d2, ← d3] at e2
      rw [← d4] at e3
      exact ⟨x, e1, e2, e3⟩
    · cases a
      simp only at h1 h2
      rw [h1, h2]

theorem parseReply_iff (owner : UnitOwner) (kind : Byte) (b : List Byte) (r : FieldReply) :
    parseReply owner kind b = some r ↔ Carries kind b owner r := by
  unfold parseReply
  cases owner with
  | sign i =>
    dsimp only
    by_cases hk : kind = kindState
    · rw [if_pos hk, Option.map_eq_some_iff]
      cases r with
      | state a =>
        simp only [FieldReply.state.injEq, exists_eq_right, parseState_iff]
        exact ⟨fun h => ⟨hk, h⟩, fun h => h.2⟩
      | data a => exact ⟨fun ⟨_, _, h⟩ => (nomatch h), fun h => h.elim⟩
    · rw [if_neg hk]
      cases r with
      | state a => exact ⟨fun h => (nomatch h), fun h => absurd h.1 hk⟩
      | data a => exact ⟨fun h => (nomatch h), fun h => h.elim⟩
  | outstation k =>
    dsimp only
    by_cases hk : kind = kindData
    · rw [if_pos hk, Option.map_eq_some_iff]
      cases r with
      | data a =>
        simp only [FieldReply.data.injEq, exists_eq_right, parseData_iff]
        exact ⟨fun h => ⟨hk, h⟩, fun h => h.2⟩
      | state a => exact ⟨fun ⟨_, _, h⟩ => (nomatch h), fun h => h.elim⟩
    · rw [if_neg hk]
      cases r with
      | data a => exact ⟨fun h => (nomatch h), fun h => absurd h.1 hk⟩
      | state a => exact ⟨fun h => (nomatch h), fun h => h.elim⟩

/-- R110, R113, R115 and R116: the verdict on a frame is the one its bytes have by the rules. -/
theorem judgeReply_rules (owner : UnitOwner) (address : Nat) : VerdictRules owner address := by
  have hs : ¬ ((0x7E : Byte) = inverseSync) := by decide
  have ht : ¬ ((0x7E : Byte) ≠ syncByte) := by decide
  refine ⟨fun rest => rfl, fun first rest h1 h2 => ?_, fun addr rest h => ?_, fun addr kind h => ?_,
    fun addr kind len rest h hl => ?_, fun addr kind len high low payload rest h hl hc => ?_,
    fun addr kind len payload rest h hl => ?_⟩
  · unfold judgeReply
    dsimp only
    rw [if_neg (show ¬ first = inverseSync from h2), if_pos (show first ≠ syncByte from h1)]
  · unfold judgeReply
    dsimp only
    rw [if_neg hs, if_neg ht, if_pos h]
  · refine ⟨rfl, ?_, ?_⟩ <;> unfold judgeReply <;> dsimp only <;>
      rw [if_neg hs, if_neg ht, if_neg (not_not.2 h)]
  · unfold judgeReply
    dsimp only
    rw [if_neg hs, if_neg ht, if_neg (not_not.2 h), if_pos hl]
  · unfold judgeReply
    dsimp only
    rw [if_neg hs, if_neg ht, if_neg (not_not.2 h), if_neg (by simp; omega), ← hl]
    rw [List.take_left, List.drop_left]
    exact if_pos hc
  · have hcrc : (crcBytes (len :: payload)).length = 2 := rfl
    have e : judgeReply owner address (0x7E :: addr :: kind :: len :: (payload ++ crcBytes (len :: payload) ++ rest)) =
        match parseReply owner kind payload with
        | some r => .valid r
        | none => .malformed := by
      unfold judgeReply
      dsimp only
      rw [if_neg hs, if_neg ht, if_neg (not_not.2 h), if_neg (by simp [hcrc]; omega), ← hl, List.append_assoc,
        List.take_left, List.drop_left]
      have ht : (crcBytes (len :: payload) ++ rest).take 2 = crcBytes (len :: payload) := by
        rw [← hcrc, List.take_left]
      rw [ht]
      exact if_neg (not_not.2 rfl)
    rw [e]
    refine ⟨fun r => ?_, fun hn => ?_⟩
    · rw [← parseReply_iff]
      cases parseReply owner kind payload with
      | none => exact ⟨fun h => (nomatch h), fun h => (nomatch h)⟩
      | some x => exact ⟨fun h => by cases h; rfl, fun h => by cases h; rfl⟩
    · have : parseReply owner kind payload = none := by
        rw [Option.eq_none_iff_forall_ne_some]
        exact fun r hr => hn r ((parseReply_iff _ _ _ _).1 hr)
      rw [this]

end Sys2Proof.Machine
end

