-- ==== Sys2Proof/Laws/Images.lean ====
section
/-! SUPPORT. The image that a station's state warrants (R102, R103) and what handing it leaves (R28, R104). -/

namespace Sys2Proof.Machine

/-! ## The image -/

theorem QpImage.ask_eq (m : QpImage) : m.ask = askOf m := rfl

theorem newStation_eq (x : Station) : newStation x.slot x.lanes.length x.rejected x.chatter = firstForm x := by
  unfold newStation firstForm
  congr 1
  exact (List.map_const' ..).symm

theorem warranted_iff (s : State) (x : Station) : x.warranted s.now = true ↔ Warranted s x := by
  unfold Station.warranted Warranted Station.effective
  cases x.inhibit with
  | some d => simp
  | none =>
    cases x.state with
    | blind =>
      cases hr : x.remembered with
      | none => simp [StationState.queuing]
      | some st => cases st <;> cases x.faultHold <;> simp [StationState.queuing]
    | _ => simp [StationState.queuing]

/-- A filter of the indices lists them rising: its first and last bound it. -/
theorem range_filter_ends (n : Nat) (f : Nat → Bool) :
    (((List.range n).filter f).head? = none → ∀ u < n, f u = false) ∧
    (((List.range n).filter f).getLast? = none → ∀ u < n, f u = false) ∧
    (∀ a, ((List.range n).filter f).head? = some a → a < n ∧ f a = true ∧ ∀ u < n, f u = true → a ≤ u) ∧
    (∀ b, ((List.range n).filter f).getLast? = some b → b < n ∧ f b = true ∧ ∀ u < n, f u = true → u ≤ b) := by
  have empty : (List.range n).filter f = [] → ∀ u < n, f u = false := by
    intro h u hu
    rw [List.filter_eq_nil_iff] at h
    simpa using h u (List.mem_range.2 hu)
  have sorted : ((List.range n).filter f).Pairwise (· < ·) := (List.pairwise_lt_range).filter f
  have mem : ∀ u, u ∈ (List.range n).filter f ↔ u < n ∧ f u = true := by
    intro u; rw [List.mem_filter, List.mem_range]
  refine ⟨fun h => empty (by simpa using h), fun h => empty (by simpa using h), fun a ha => ?_, fun b hb => ?_⟩
  · obtain ⟨xs, hx⟩ := List.head?_eq_some_iff.1 ha
    rw [hx] at sorted mem
    obtain ⟨h1, h2⟩ := (mem a).1 (by simp)
    refine ⟨h1, h2, fun u hu hf => ?_⟩
    rcases List.mem_cons.1 ((mem u).2 ⟨hu, hf⟩) with rfl | h
    · exact le_refl _
    · exact Nat.le_of_lt (List.rel_of_pairwise_cons sorted h)
  · obtain ⟨xs, hx⟩ := List.getLast?_eq_some_iff.1 hb
    rw [hx] at sorted mem
    obtain ⟨h1, h2⟩ := (mem b).1 (by simp)
    refine ⟨h1, h2, fun u hu hf => ?_⟩
    rcases List.mem_append.1 ((mem u).2 ⟨hu, hf⟩) with h | h
    · exact Nat.le_of_lt ((List.pairwise_append.1 sorted).2.2 u h b (by simp))
    · simp at h; omega

/-- R103: the coverage of a station. -/
theorem coverage_covers (c : Store) (k cover : Nat) :
    Covers c (c.stationPosition k) cover (c.coverage k cover).1 (c.coverage k cover).2 := by
  generalize hp : c.stationPosition k = p
  obtain ⟨a1, a2, a3, a4⟩ := range_filter_ends c.siteCount fun u => decide (c.pos u ≤ p ∧ p ≤ c.pos u + cover)
  obtain ⟨-, b2, -, b4⟩ := range_filter_ends c.siteCount fun u => decide (c.pos u ≤ p)
  simp only [decide_eq_true_eq, decide_eq_false_iff_not] at a1 a2 a3 a4 b2 b4
  unfold Store.coverage Store.lastBefore
  rw [hp]
  dsimp only
  have alone : (∀ u, ¬ InBand c p cover u) → (c.band p cover).head? = none := by
    intro h
    unfold Store.band
    cases hh : ((List.range c.siteCount).filter fun u => decide (c.pos u ≤ p ∧ p ≤ c.pos u + cover)).head? with
    | none => rfl
    | some a => exact absurd ⟨(a3 a hh).1, (a3 a hh).2.1⟩ (h a)
  constructor
  · rintro ⟨u, hu⟩
    cases h1 : (c.band p cover).head? with
    | none => exact absurd hu.2 (a1 h1 u hu.1)
    | some a =>
      cases h2 : (c.band p cover).getLast? with
      | none => exact absurd hu.2 (a2 h2 u hu.1)
      | some b =>
        obtain ⟨x1, x2, x3⟩ := a3 a h1
        obtain ⟨y1, y2, y3⟩ := a4 b h2
        exact ⟨⟨x1, x2⟩, ⟨y1, y2⟩, fun v hv => ⟨x3 v hv.1 hv.2, y3 v hv.1 hv.2⟩⟩
  · intro h
    rw [alone h]
    refine ⟨rfl, fun u hu hpu => ?_⟩
    dsimp only
    cases hl : ((List.range c.siteCount).filter fun u => decide (c.pos u ≤ p)).getLast? with
    | none => exact absurd hpu (b2 hl u hu)
    | some b =>
      obtain ⟨y1, y2, y3⟩ := b4 b hl
      exact ⟨y1, y2, y3 u hu hpu⟩

/-- R102: the image of a station's entry. -/
theorem stationImage_spec (s : State) (x : Station) : EntryImage s x (s.stationImage x) := by
  have hw := warranted_iff s x
  unfold State.stationImage
  constructor
  · intro h; rw [if_neg (fun k => h (hw.1 k))]
  · intro h
    rw [if_pos (hw.2 h)]
    refine ⟨_, rfl, coverage_covers _ _ _, ?_, ?_⟩
    · rintro (h | ⟨h, h'⟩) <;> simp [Station.effective, *]
    · rintro (h | ⟨h, h'⟩) <;> simp [Station.effective, *]

/-! ## Its handing -/

theorem station_slot {s : State} {k : Nat} {x : Station} (h : s.station k = some x) : x.slot = k := by
  simpa using List.find?_some h

theorem setStation_station (s : State) (k : Nat) (x y : Station) (h : s.station k = some x) (hy : y.slot = k) :
    (s.setStation y).station k = some y := by
  unfold State.station State.setStation at *
  dsimp only
  generalize s.stations = xs at h
  induction xs with
  | nil => cases h
  | cons z zs ih =>
    rw [List.map_cons, List.find?_cons] at *
    by_cases hz : z.slot = k
    · simp [hz, hy]
    · simp [hz, hy] at h ⊢
      simpa [hy] using ih h

/-- R28: after a handing the station's own slot holds what the image asks, or nothing for ABSENT. -/
theorem handQp_inSlot (s : State) (k : Nat) (m : Option QpImage) :
    ((s.handQp k m).table.inSlot (qpSlot k)).map (·.ask) = m.map askOf := by
  have gone : ∀ xs : List Entry, (∀ e ∈ xs, e.slot ≠ qpSlot k) → xs.find? (fun e => decide (e.slot = qpSlot k)) = none := by
    intro xs h
    rw [List.find?_eq_none]
    intro e he
    simpa using h e he
  have stored : ∀ e : Entry, e.slot = qpSlot k → ((s.table.store e).inSlot (qpSlot k)).map (·.ask) = some e.ask := by
    intro e he
    unfold Table.store Table.inSlot
    rw [List.find?_append, gone]
    · simp [he]
    · intro f hf
      simpa [he] using (List.mem_filter.1 hf).2
  have removed : (s.table.remove fun e => decide (e.slot = qpSlot k)).inSlot (qpSlot k) = none := by
    unfold Table.remove Table.inSlot
    refine gone _ fun e he => ?_
    simpa using (List.mem_filter.1 he).2
  unfold State.handQp Table.hand
  cases hs : s.table.inSlot (qpSlot k) with
  | none =>
    cases m with
    | none => simp [hs]
    | some m => simp [stored, QpImage.ask_eq]
  | some e =>
    cases m with
    | none => simp [removed]
    | some m =>
      dsimp only
      by_cases he : e.ask = m.ask
      · simp [he, hs, QpImage.ask_eq]
      · rw [if_neg he]
        simp [stored, QpImage.ask_eq]

/-- R104: handing a station's image. -/
theorem handStation_handed (s : State) (k : Nat) (x : Station) (h : s.station k = some x) :
    Handed s (s.handStation k) x := by
  obtain rfl := station_slot h
  refine ⟨s.stationImage x, stationImage_spec s x, ?_, ?_⟩
  · unfold State.handStation
    rw [h]
    dsimp only
    have ht := handQp_onlyTable (s.setStation { x with handed := s.stationImage x }) x.slot (s.stationImage x)
    unfold State.station
    rw [ht]
    exact setStation_station s _ x { x with handed := s.stationImage x } h rfl
  · unfold State.handStation
    rw [h]
    exact handQp_inSlot _ _ _

end Sys2Proof.Machine
end

