-- ==== Sys2Proof/Laws/Lines.lean ====
section
/-! SUPPORT. What the events of a field line can do, once for each shared operation: to the other blocks what `FieldSide`
allows, to its own line the change named, and to the other line its SET queue alone. -/

namespace Sys2Proof.Machine

/-- A line's record replaced leaves the other blocks. -/
theorem setLine_side (s : State) (l : LineId) (r : LineRec) : FieldSide s (s.setLine l r) := by
  constructor <;> first | exact Or.inl ⟨rfl, rfl⟩ | exact id | (intros; rfl)

/-- A record given to a line and then a handing: the line holds that record but for its SET queue, in which the record's
commands in progress stay. -/
theorem line_of_handing {s t : State} {l : LineId} {r : LineRec} (h : Handing (s.setLine l r) t) :
    t.line l = { r with queue := (t.line l).queue } ∧
      (t.line l).queue.filter (·.inProgress) = r.queue.filter (·.inProgress) := by
  have hq := h.queues l
  rw [State.setLine_line, if_pos rfl] at hq
  exact hq

/-- A record without a command in progress leaves none. -/
theorem idle_of_handing {s t : State} {l : LineId} {r : LineRec} (h : Handing (s.setLine l r) t)
    (hr : ∀ c ∈ r.queue, c.inProgress = false) : ∀ c ∈ (t.line l).queue, c.inProgress = false := by
  have e : (t.line l).queue.filter (·.inProgress) = [] := by
    rw [(line_of_handing h).2, List.filter_eq_nil_iff]
    exact fun c hc => by simp [hr c hc]
  intro c hc
  simpa using List.filter_eq_nil_iff.1 e c hc

/-- A record given to a line and then a handing: the other line keeps all but its SET queue, and in that the commands in
progress. -/
theorem other_line_of_handing {s t : State} {l m : LineId} {r : LineRec} (h : Handing (s.setLine l r) t) (hm : m ≠ l) :
    t.line m = { s.line m with queue := (t.line m).queue } ∧
      (t.line m).queue.filter (·.inProgress) = (s.line m).queue.filter (·.inProgress) := by
  have hq := h.queues m
  rw [State.setLine_line, if_neg hm] at hq
  exact hq

/-- A record given to a line and then a handing, seen by the other blocks and the other line. -/
theorem side_of_handing {s t : State} {l : LineId} {r : LineRec} (h : Handing (s.setLine l r) t) : LineSide l s t where
  side := (setLine_side s l r).trans h.side
  others _ hm := other_line_of_handing h hm
  mode hd := by
    rcases h.side.mode with ⟨h1, -⟩ | ⟨h1, -, h2⟩
    · exact Or.inl h1
    · exact Or.inr ⟨hd h1, h2⟩

/-- A valid reply: its characters are activity, the line's transaction ends with its streak at 0, then handings alone (R108,
R113, R114, R127, R151). -/
theorem takeValidReply_handing (s : State) (l : LineId) (t : Transaction) (r : FieldReply) :
    Handing (s.setLine l { ((s.line l).activity s.now).endTransaction with streak := 0 }) (s.takeValidReply l t r) := by
  unfold State.takeValidReply
  exact (goodReply_handing _ _ _ _).trans (reportEnd_handing _ _ _)

/-- The end of a retry's window: the line's transaction ended, then handings alone (R114, R127, R151). -/
theorem failAttempt_retry (s : State) (l : LineId) (t : Transaction) (h : t.retry = true) :
    Handing (s.setLine l (s.line l).endTransaction) (s.failAttempt l t) := by
  simp only [State.failAttempt, h, if_true]
  exact (unitMissed_handing _ _).trans (reportEnd_handing _ _ _)

/-- The end of a first attempt's window: a retry is owed and counted, and nothing else changes (R114, R124). -/
theorem failAttempt_first (s : State) (l : LineId) (t : Transaction) (h : t.retry = false) :
    s.failAttempt l t = s.setLine l { s.line l with
      transaction := some { t with stage := .retryOwed }
      counters := { (s.line l).counters with retries := countUp (s.line l).counters.retries } } := by
  simp [State.failAttempt, h]

/-- A retry repeats its frame's bytes, and nothing else of the part changes (R114). -/
theorem startWork_retry (s : State) (l : LineId) (t : Transaction) :
    s.startWork l (.retry t) =
      s.setLine l ((s.line l).send { t with retry := true, window := s.param .replyWindow, stage := .sending }) := rfl

/-- A poll strikes its unit from the cycle and sends its frame, and nothing else of the part changes (R121, R123). -/
theorem startWork_poll (s : State) (l : LineId) (a : Nat) :
    s.startWork l (.poll a) = s.setLine l (((s.line l).strike a s.now).send (s.pollTransaction l a)) := rfl

/-- A SET: its line sends the frame, and delivery is told (R114, R123, R149). -/
theorem startWork_set (s : State) (l : LineId) (c : SetCommand) :
    Handing (s.setLine l ((((s.line l).markProgress c.site true).strike (s.addressOf c.site) s.now).send
      (s.setTransaction c))) (s.startWork l (.set c)) := setStarted_handing _ _

/-- A frame put on the wire: the driver is on, and of the rest of the line only the sense, the flip, the bytes sent and the
transaction change. -/
theorem LineRec.send_eq (r : LineRec) (t : Transaction) :
    r.send t = { r with
      driving := true
      sense := (r.send t).sense
      flipNext := false
      sent := (r.send t).sent
      transaction := some t } := rfl

/-- Activity on a NORMAL line that the part does not drive: the line is not quiet and its jam timer runs (R108, R117). -/
theorem LineRec.activity_normal (r : LineRec) (now : Nat) (hd : r.driving = false) (hs : r.state = .normal) :
    r.activity now = { r with quiet := false, lastActive := now, jamTimer := some (r.jamTimer.getD now) } := by
  simp [LineRec.activity, hd, hs]

/-- Activity on a JAMMED line that the part does not drive: the line is not quiet and its unjam timer starts anew (R108,
R119). -/
theorem LineRec.activity_jammed (r : LineRec) (now : Nat) (hd : r.driving = false) (hs : r.state = .jammed) :
    r.activity now = { r with quiet := false, lastActive := now, unjamTimer := some now } := by
  simp [LineRec.activity, hd, hs]

/-- Activity changes of a line its quiet, the reading kept for it and its two timers alone (R108). -/
theorem LineRec.activity_eq (r : LineRec) (now : Nat) :
    r.activity now = { r with
      quiet := (r.activity now).quiet
      lastActive := (r.activity now).lastActive
      jamTimer := (r.activity now).jamTimer
      unjamTimer := (r.activity now).unjamTimer } := by
  unfold LineRec.activity
  split
  · rfl
  · split <;> rfl

/-- The end of a transaction leaves all of the line but its transaction and queue. -/
theorem LineRec.endTransaction_eq (r : LineRec) :
    r.endTransaction = { r with transaction := none, queue := r.endTransaction.queue } := rfl

/-- No command is in progress at the end of a transaction (R114, R120), and none on a line that has become JAMMED (R117). -/
theorem LineRec.endTransaction_idle (r : LineRec) : ∀ c ∈ r.endTransaction.queue, c.inProgress = false := by
  intro c hc
  unfold LineRec.endTransaction at hc
  simpa using (List.mem_filter.1 hc).2

theorem LineRec.becomeJammed_idle (r : LineRec) (now period : Nat) :
    ∀ c ∈ (r.becomeJammed now period).queue, c.inProgress = false := by
  intro c hc
  unfold LineRec.becomeJammed at hc
  obtain ⟨x, -, rfl⟩ := List.mem_map.1 hc
  rfl

/-- The slot of an address is that of the first unit there. -/
theorem slotAt_eq (s : State) (l : LineId) (a i : Nat) (u : UnitRec) (hu : s.unit i = some u) (hl : u.line = l)
    (ha : u.address = a) (hf : ∀ j < i, ∀ v, s.unit j = some v → ¬ (v.line = l ∧ v.address = a)) : s.slotAt l a = i := by
  unfold State.slotAt
  unfold State.unit at hu hf
  obtain ⟨hi, hu'⟩ := List.getElem?_eq_some_iff.1 hu
  rw [List.findIdx_eq hi]
  refine ⟨by rw [hu']; simp [hl, ha], fun j hj => ?_⟩
  simpa using hf j hj _ (List.getElem?_eq_getElem (by omega))

/-- The line whose jam begins or goes on: its own record, then handings alone (R117, R118, R131). -/
theorem jam_handing (s : State) (l : LineId) (r : LineRec) (f : UnitRec → UnitRec) :
    Handing (s.setLine l r) ((s.setLine l r).reportLine l f) := reportLine_handing _ _ _

/-- An open window belongs to the transaction in progress. -/
theorem transaction_of_openWindow {r : LineRec} {t : Transaction} (h : r.openWindow = some t) :
    r.transaction = some t ∧ ∃ d, t.stage = .window d := by
  unfold LineRec.openWindow at h
  split at h
  · cases h
  · split at h
    · cases h; exact ⟨‹_›, _, ‹_›⟩
    · cases h

end Sys2Proof.Machine
end

