-- ==== Sys2Proof/Laws/Reports.lean ====
section
/-! SUPPORT. What a report for a line's units and a RESTART do to the unit table and to what the evaluator is told (R57, R126,
R131, R136), and what the loss of a line's units leaves of the sites and the stations (R98, R142, R152). -/

namespace Sys2Proof.Machine

/-! ## A unit's record stored (R136) -/

theorem judged_rejudged (u : UnitRec) : Rejudged u u.judged := by
  refine ⟨by simp [UnitRec.judged], fun j e he => ?_⟩
  refine ⟨e.judge u.state, by simp [UnitRec.judged, he], ?_⟩
  unfold ElemRec.judge ElemRec.effective
  rw [Bool.and_eq_true]
  refine and_congr ?_ ?_
  · show UnitState.inContact u.state = true ↔ _
    cases hu : u.state <;> simp [UnitState.inContact, UnitState.Contact, UnitRec.judged, hu]
  · cases e.mark with
    | marked f => simp
    | clear =>
      rcases e.reported with _ | f
      · simp
      · cases f <;> simp

theorem judged_fields (u : UnitRec) : u.judged = { u with elements := u.judged.elements } := rfl

theorem storeUnit_unit (s : State) (i j : Nat) (u : UnitRec) :
    (s.storeUnit i u).unit j = if j = i then (s.unit i).map fun _ => u.judged else s.unit j := by
  have h : (s.storeUnit i u).units = s.units.set i u.judged := by
    unfold State.storeUnit
    dsimp only
    split
    · split <;> rfl
    · rfl
  unfold State.unit
  rw [h, List.getElem?_set]
  by_cases hj : j = i
  · subst hj
    simp only [if_true]
    by_cases hl : j < s.units.length
    · simp [hl]
    · simp [hl]
  · simp [hj, Ne.symm hj]

theorem storeUnit_units_length (s : State) (i : Nat) (u : UnitRec) :
    (s.storeUnit i u).units.length = s.units.length := by
  have h : (s.storeUnit i u).units = s.units.set i u.judged := by
    unfold State.storeUnit
    dsimp only
    split
    · split <;> rfl
    · rfl
  rw [h, List.length_set]

theorem storeUnit_length (s : State) (i : Nat) (u : UnitRec) :
    (s.storeUnit i u).evaluator.available.length = s.evaluator.available.length := by
  unfold State.storeUnit Evaluator.hear
  dsimp only
  split
  · split
    · rfl
    · simp
  · rfl

/-- R57 and R136: what the store of a record hands the evaluator. -/
theorem storeUnit_hands (s : State) (i : Nat) (u : UnitRec) :
    (∀ k, u.owner ≠ .sign k → (s.storeUnit i u).evaluator.available[k]? = s.evaluator.available[k]?) ∧
    AvailabilityHanded s (s.storeUnit i u) u u.judged ∧
    (s.evaluator.pending = true → (s.storeUnit i u).evaluator.pending = true) := by
  unfold State.storeUnit Evaluator.hear AvailabilityHanded
  dsimp only
  have hu : ∀ x : UnitRec, x.usable = x.availableElements := fun _ => rfl
  cases ho : u.owner with
  | outstation k => exact ⟨fun _ _ => rfl, fun k h => (nomatch h), id⟩
  | sign k =>
    dsimp only
    by_cases h : u.judged.availableElements = u.availableElements
    · rw [if_pos h]
      refine ⟨fun _ _ => rfl, fun m _ => ⟨fun hn => absurd h hn, fun _ => rfl⟩, id⟩
    · rw [if_neg h]
      refine ⟨fun m hm => ?_, fun m hm => ?_, fun _ => rfl⟩
      · rw [List.getElem?_set_ne]
        intro e; exact hm (by rw [e])
      · cases hm
        refine ⟨fun _ => ⟨rfl, fun hl => ?_⟩, fun hn => absurd hn h⟩
        rw [List.getElem?_set_self hl]
        rfl

/-! ## Records stored for every unit of a kind -/

/-- One unit's record changed and stored, where it is of the kind. -/
def storeWhere (s0 : State) (P : UnitRec → Bool) (f : UnitRec → UnitRec) (i : Nat) (st : State) : State :=
  match s0.unit i with
  | none => st
  | some u => if P u then st.storeUnit i (f u) else st

/-- What a change keeps of a record: its owner, and what of it is available. -/
def Keeps (f : UnitRec → UnitRec) : Prop := ∀ u, (f u).owner = u.owner ∧ (f u).usable = u.usable

theorem unit_lt {s : State} {i : Nat} {u : UnitRec} (h : s.unit i = some u) : i < s.units.length :=
  (List.getElem?_eq_some_iff.1 h).1

/-- R131 and R126: the units after every one of the kind has been changed and stored, in ascending order. -/
theorem storeWhere_fold (s : State) (P : UnitRec → Bool) (f : UnitRec → UnitRec) (hf : Keeps f) (n : Nat) :
    let t := (List.range n).foldl (fun st i => storeWhere s P f i st) s
    (∀ j u, s.unit j = some u → t.unit j = some (if j < n ∧ P u = true then (f u).judged else u)) ∧
    (t.evaluator.available.length = s.evaluator.available.length) ∧
    (∀ k, (∀ i u, s.unit i = some u → u.owner = .sign k → P u = false) →
      t.evaluator.available[k]? = s.evaluator.available[k]?) ∧
    (s.SignsInPlace → (∀ k, n ≤ k → t.evaluator.available[k]? = s.evaluator.available[k]?) ∧
      ∀ j u, j < n → s.unit j = some u → P u = true → AvailabilityHanded s t u (f u).judged) := by
  induction n with
  | zero =>
    refine ⟨fun j u h => ?_, rfl, fun _ _ => rfl, fun _ => ⟨fun _ _ => rfl, fun j u h => absurd h (by omega)⟩⟩
    rw [List.range_zero, List.foldl_nil, if_neg (by omega), h]
  | succ n ih =>
    obtain ⟨a1, a2, a3, a4⟩ := ih
    dsimp only
    rw [List.range_succ, List.foldl_append, List.foldl_cons, List.foldl_nil]
    generalize (List.range n).foldl (fun st i => storeWhere s P f i st) s = a at a1 a2 a3 a4 ⊢
    unfold storeWhere
    cases hu : s.unit n with
    | none =>
      dsimp only
      refine ⟨fun j u h => ?_, a2, a3, fun hp => ⟨fun k hk => (a4 hp).1 k (by omega), fun j u hj h hx => ?_⟩⟩
      · rw [a1 j u h]
        have : j ≠ n := fun e => by rw [e, hu] at h; cases h
        have e : (j < n + 1 ∧ P u = true) ↔ (j < n ∧ P u = true) := by
          constructor
          · rintro ⟨h1, h2⟩; exact ⟨by omega, h2⟩
          · rintro ⟨h1, h2⟩; exact ⟨by omega, h2⟩
        by_cases hc : j < n ∧ P u = true
        · rw [if_pos hc, if_pos (e.2 hc)]
        · rw [if_neg hc, if_neg (fun x => hc (e.1 x))]
      · have : j ≠ n := fun e => by rw [e, hu] at h; cases h
        exact (a4 hp).2 j u (by omega) h hx
    | some w =>
      dsimp only
      by_cases hw : P w = true
      · rw [if_pos hw]
        obtain ⟨h1, h2, h3⟩ := storeUnit_hands a n (f w)
        refine ⟨fun j u h => ?_, (storeUnit_length _ _ _).trans a2, fun k hk => ?_, fun hp => ⟨fun k hk => ?_,
          fun j u hj h hx => ?_⟩⟩
        · rw [storeUnit_unit]
          by_cases hj : j = n
          · subst hj
            rw [hu] at h; cases h
            rw [if_pos rfl, a1 j w hu, Option.map_some, if_pos ⟨Nat.lt_succ_self j, hw⟩]
          · rw [if_neg hj, a1 j u h]
            by_cases hc : j < n ∧ P u = true
            · rw [if_pos hc, if_pos ⟨by omega, hc.2⟩]
            · rw [if_neg hc, if_neg (fun x => hc ⟨by omega, x.2⟩)]
        · rw [h1 k (fun e => by
            rw [(hf w).1] at e
            rw [hk n w hu e] at hw; cases hw), a3 k hk]
        · rw [h1 k (fun e => by
            rw [(hf w).1] at e
            have := hp n w k hu e
            omega), (a4 hp).1 k (by omega)]
        · by_cases hjn : j = n
          · subst hjn
            rw [hu] at h; cases h
            intro k hk
            have hkj : k = j := hp j w k hu hk
            obtain ⟨g1, g2⟩ := h2 k (by rw [(hf w).1]; exact hk)
            rw [(hf w).2] at g1 g2
            rw [a2] at g1
            refine ⟨g1, fun e => ?_⟩
            rw [g2 e, (a4 hp).1 k (by omega)]
          · have old := (a4 hp).2 j u (by omega) h hx
            intro k hk
            have hkj : k = j := hp j u k h hk
            have hne : (f w).owner ≠ .sign k := fun e => by
              rw [(hf w).1] at e
              have := hp n w k hu e
              omega
            obtain ⟨g1, g2⟩ := old k hk
            refine ⟨fun e => ⟨h3 (g1 e).1, fun hl => ?_⟩, fun e => ?_⟩
            · rw [h1 k hne, (g1 e).2 hl]
            · rw [h1 k hne, g2 e]
      · rw [if_neg hw]
        refine ⟨fun j u h => ?_, a2, a3, fun hp => ⟨fun k hk => (a4 hp).1 k (by omega), fun j u hj h hx => ?_⟩⟩
        · rw [a1 j u h]
          by_cases hj : j = n
          · subst hj
            rw [hu] at h; cases h
            rw [if_neg (fun x => hw x.2), if_neg (fun x => hw x.2)]
          · by_cases hc : j < n ∧ P u = true
            · rw [if_pos hc, if_pos ⟨by omega, hc.2⟩]
            · rw [if_neg hc, if_neg (fun x => hc ⟨by omega, x.2⟩)]
        · by_cases hjn : j = n
          · subst hjn
            rw [hu] at h; cases h
            exact absurd hx hw
          · exact (a4 hp).2 j u (by omega) h hx

/-- Nothing but the units' records and what the evaluator is told differs. -/
theorem storeWhere_keeps (s : State) (P : UnitRec → Bool) (f : UnitRec → UnitRec) (n : Nat) : ∃ us ev,
    (List.range n).foldl (fun st i => storeWhere s P f i st) s = { s with units := us, evaluator := ev } ∧
    us.length = s.units.length := by
  induction n with
  | zero => exact ⟨s.units, s.evaluator, rfl, rfl⟩
  | succ n ih =>
    obtain ⟨us, ev, h, hl⟩ := ih
    rw [List.range_succ, List.foldl_append, List.foldl_cons, List.foldl_nil, h]
    unfold storeWhere
    split
    · exact ⟨us, ev, rfl, hl⟩
    · split
      · unfold State.storeUnit
        dsimp only
        split
        · split
          · exact ⟨_, ev, rfl, by rw [List.length_set]; exact hl⟩
          · exact ⟨_, _, rfl, by rw [List.length_set]; exact hl⟩
        · exact ⟨_, ev, rfl, by rw [List.length_set]; exact hl⟩
      · exact ⟨us, ev, rfl, hl⟩

/-- The pass over every unit that RESTART makes is one such. -/
theorem restartUnits_eq (s : State) : s.restartUnits =
    (List.range s.units.length).foldl (fun st i => storeWhere s (fun _ => true) UnitRec.clearMarks i st) s := by
  unfold State.restartUnits State.forUnits
  have keeps : Keeps UnitRec.clearMarks := fun u => ⟨rfl, by
    unfold UnitRec.usable UnitRec.clearMarks
    dsimp only
    induction u.elements with
    | nil => rfl
    | cons e es ih =>
      rw [List.map_cons, List.filter_cons, List.filter_cons]
      by_cases he : e.available = true
      · simp only [he, if_true, List.map_cons]
        rw [ih]
      · simp only [he]
        exact ih⟩
  have gen : ∀ n, (List.range n).foldl (fun st i => match st.unit i with
      | none => st
      | some u => st.storeUnit i u.clearMarks) s =
      (List.range n).foldl (fun st i => storeWhere s (fun _ => true) UnitRec.clearMarks i st) s := by
    intro n
    induction n with
    | zero => rfl
    | succ n ih =>
      rw [List.range_succ, List.foldl_append, List.foldl_append, ih]
      simp only [List.foldl_cons, List.foldl_nil]
      obtain ⟨a1, -⟩ := storeWhere_fold s (fun _ => true) UnitRec.clearMarks keeps n
      have hlen : ∀ m, ((List.range m).foldl (fun st i => storeWhere s (fun _ => true) UnitRec.clearMarks i st)
          s).units.length = s.units.length := by
        intro m
        induction m with
        | zero => rfl
        | succ m ih =>
          rw [List.range_succ, List.foldl_append, List.foldl_cons, List.foldl_nil]
          unfold storeWhere
          split
          · exact ih
          · rw [if_pos rfl]
            exact (storeUnit_units_length _ _ _).trans ih
      generalize hg : (List.range n).foldl (fun st i => storeWhere s (fun _ => true) UnitRec.clearMarks i st) s = a at *
      unfold storeWhere
      cases hu : s.unit n with
      | none =>
        have : a.unit n = none := by
          unfold State.unit at hu ⊢
          rw [List.getElem?_eq_none_iff] at hu ⊢
          rw [← hg, hlen]
          exact hu
        rw [this]
      | some u =>
        rw [a1 n u hu, if_neg (by omega)]
        rfl
  exact gen _

end Sys2Proof.Machine
end

