-- ==== Sys2Proof/Laws/Losses.lean ====
section
/-! SUPPORT. The loss of sign units (R152): what it leaves of their sites' parts and images, and how the abandoned parts are
counted (R142). -/

namespace Sys2Proof.Machine

/-! ## A site's part abandoned -/

/-- A pending part abandoned; another stays. -/
def Part.lost (p : Part) : Part := if p.pending then { p with state := .abandoned, queued := false } else p

/-- A site's record after its pending part of a kind is abandoned. -/
def DeliverySite.dropKind (d : DeliverySite) (k : PartKind) : DeliverySite :=
  match d.part k with
  | none => d
  | some p => if p.pending then { d.setPart k (some { p with state := .abandoned, queued := false }) with
      wanted := d.wanted.filter fun x => !p.elements.contains x.1 } else d

theorem part_dropKind (d : DeliverySite) (k j : PartKind) :
    (d.dropKind k).part j = if j = k then (d.part k).map Part.lost else d.part j := by
  unfold DeliverySite.dropKind
  cases h : d.part k with
  | none => by_cases hj : j = k <;> simp [hj, h]
  | some p =>
    dsimp only
    by_cases hp : p.pending = true
    · rw [if_pos hp, part_withWanted, part_setPart]
      simp [Part.lost, hp]
    · rw [if_neg hp]
      by_cases hj : j = k
      · subst hj; simp [h, Part.lost, hp]
      · simp [hj]

/-- An element without a wanted value gains none, and those of the abandoned part lose theirs. -/
theorem dropKind_unwanted (d : DeliverySite) (k : PartKind) (e : ElemId)
    (h : d.wanted.lookup e = none ∨ ∃ p, d.part k = some p ∧ p.pending = true ∧ e ∈ p.elements) :
    (d.dropKind k).wanted.lookup e = none := by
  unfold DeliverySite.dropKind
  cases hp : d.part k with
  | none =>
    rcases h with h | ⟨p, h1, -⟩
    · exact h
    · rw [hp] at h1; cases h1
  | some p =>
    dsimp only
    split
    · show (d.wanted.filter fun x => !p.elements.contains x.1).lookup e = none
      rw [lookup_without]
      rcases h with h | ⟨q, h1, -, h3⟩
      · rw [h]; split <;> rfl
      · rw [hp] at h1; cases h1; rw [if_pos h3]
    · rename_i hn
      rcases h with h | ⟨q, h1, h2, -⟩
      · exact h
      · rw [hp] at h1; cases h1; exact absurd h2 hn

theorem abandonKind_cases (s : State) (i : Nat) (k : PartKind) :
    (s.abandonKind i k = s ∧ s.pendingAt i k = false) ∨
      ∃ d p, s.site i = some d ∧ d.part k = some p ∧ p.pending = true ∧ s.abandonKind i k = s.abandon i k p p.elements := by
  unfold State.abandonKind State.pendingAt
  cases hd : s.site i with
  | none => exact Or.inl ⟨rfl, rfl⟩
  | some d =>
    dsimp only
    cases hp : d.part k with
    | none => exact Or.inl ⟨rfl, rfl⟩
    | some p =>
      dsimp only
      by_cases h : p.pending = true
      · rw [if_pos h]; exact Or.inr ⟨d, p, rfl, hp, h, rfl⟩
      · rw [if_neg h]; exact Or.inl ⟨rfl, by simpa [pendingPart] using h⟩

theorem abandonKind_site (s : State) (i j : Nat) (k : PartKind) :
    (s.abandonKind i k).site j = if j = i then (s.site i).map (·.dropKind k) else s.site j := by
  rcases abandonKind_cases s i k with ⟨e, h⟩ | ⟨d, p, hd, hp, hq, e⟩
  · rw [e]
    by_cases hj : j = i
    · subst hj
      rw [if_pos rfl]
      unfold State.pendingAt at h
      cases hd : s.site j with
      | none => rfl
      | some d =>
        rw [hd] at h
        dsimp only at h
        unfold DeliverySite.dropKind
        cases hp : d.part k with
        | none => simp [hp]
        | some p => rw [hp] at h; simp [hp, show p.pending = false from h]
    · rw [if_neg hj]
  · rw [e, abandon_site, hd]
    simp [DeliverySite.dropKind, hp, hq]

theorem abandonKind_parts (s : State) (i : Nat) (k : PartKind) : PartsOnly s (s.abandonKind i k) := by
  rcases abandonKind_cases s i k with ⟨e, -⟩ | ⟨d, p, -, -, -, e⟩
  · rw [e]; exact .refl s
  · rw [e]; exact abandon_parts _ _ _ _ _

theorem abandonKind_waiting (s : State) (i j : Nat) (k : PartKind) : (s.abandonKind i k).waitingOf j = s.waitingOf j := by
  rcases abandonKind_cases s i k with ⟨e, -⟩ | ⟨d, p, -, -, -, e⟩
  · rw [e]
  · rw [e]; exact abandon_waiting _ _ _ _ _ _

/-- Both counts of abandoned parts after one more, or after none (R142). -/
def countsAfter (s t : State) (n : Nat) : Prop :=
  (s.delivery.abandoned ≤ 65535 → t.delivery.abandoned = min (s.delivery.abandoned + n) 65535) ∧
  (s.delivery.abandonments ≤ 65535 → t.delivery.abandonments = min (s.delivery.abandonments + n) 65535)

theorem addCounts (a m n : Nat) : min (min (a + m) 65535 + n) 65535 = min (a + (m + n)) 65535 := by omega
theorem minLe (a : Nat) : min a 65535 ≤ 65535 := by omega
theorem minOf (a : Nat) (h : a ≤ 65535) : min a 65535 = a := by omega

theorem countsAfter.trans {s t u : State} {m n : Nat} (h : countsAfter s t m) (g : countsAfter t u n) :
    countsAfter s u (m + n) := by
  refine ⟨fun b => ?_, fun b => ?_⟩
  · rw [g.1 (by rw [h.1 b]; exact minLe _), h.1 b]; exact addCounts _ _ _
  · rw [g.2 (by rw [h.2 b]; exact minLe _), h.2 b]; exact addCounts _ _ _

theorem countsAfter.none {s t : State} (h : t.delivery.abandoned = s.delivery.abandoned ∧
    t.delivery.abandonments = s.delivery.abandonments) : countsAfter s t 0 :=
  ⟨fun b => by rw [h.1, Nat.add_zero, minOf _ b], fun b => by rw [h.2, Nat.add_zero, minOf _ b]⟩

theorem abandonKind_counts (s : State) (i : Nat) (k : PartKind) :
    countsAfter s (s.abandonKind i k) (if s.pendingAt i k = true then 1 else 0) := by
  rcases abandonKind_cases s i k with ⟨e, h⟩ | ⟨d, p, hd, hp, hq, e⟩
  · rw [e, h]; exact .none ⟨rfl, rfl⟩
  · have : s.pendingAt i k = true := by unfold State.pendingAt; rw [hd]; simp [hp, pendingPart, hq]
    rw [e, this, if_pos rfl]
    obtain ⟨c1, c2⟩ := abandon_counts s i k p p.elements
    exact ⟨fun _ => c1, fun _ => c2⟩

theorem pendingPart_lost (p : Option Part) : pendingPart (p.map Part.lost) = false := by
  cases p with
  | none => rfl
  | some p =>
    show (Part.lost p).pending = false
    unfold Part.lost
    split
    · rfl
    · exact (Bool.not_eq_true _).mp ‹_›

theorem abandonKind_pendingAt (s : State) (i j : Nat) (k m : PartKind) :
    (s.abandonKind i k).pendingAt j m = if j = i ∧ m = k then false else s.pendingAt j m := by
  unfold State.pendingAt
  rw [abandonKind_site]
  by_cases hj : j = i
  · subst hj
    rw [if_pos rfl]
    cases s.site j with
    | none => simp
    | some d =>
      simp only [Option.map_some, part_dropKind, true_and]
      split
      · exact pendingPart_lost _
      · rfl
  · simp [hj]

/-! ## A sign unit lost (R152) -/

theorem withdraw_pendingAt (s : State) (i j : Nat) (k : PartKind) : (s.withdraw i).pendingAt j k = s.pendingAt j k := by
  refine pendingAt_of_like (fun d hd => ?_) ((withdraw_parts s i).site_none j) k
  rw [withdraw_site]
  by_cases hj : j = i
  · subst hj
    rw [if_pos rfl, hd]
    cases s.waitingOf j with
    | none => exact ⟨d, rfl, .refl d⟩
    | some c => exact ⟨_, rfl, d.like_uncommand _⟩
  · rw [if_neg hj]; exact ⟨d, hd, .refl d⟩

/-- The kinds of which a site has a pending part. -/
def State.pendingKinds (s : State) (i : Nat) : List PartKind :=
  [PartKind.tightening, .relaxing, .darkening].filter (s.pendingAt i)

theorem mem_pendingKinds (s : State) (i : Nat) (k : PartKind) : k ∈ s.pendingKinds i ↔ s.pendingAt i k = true := by
  unfold State.pendingKinds
  rw [List.mem_filter]
  cases k <;> simp

theorem nodup_pendingKinds (s : State) (i : Nat) : (s.pendingKinds i).Nodup := List.Nodup.filter _ (by decide)

theorem unitLost_parts (s : State) (i : Nat) : PartsOnly s (s.unitLost i) :=
  (((withdraw_parts _ _).trans (abandonKind_parts _ _ _)).trans (abandonKind_parts _ _ _)).trans (abandonKind_parts _ _ _)

/-- R142 and R152: the counts, which part is still pending and what waits. -/
theorem unitLost_pendingAt (s : State) (i j : Nat) (k : PartKind) :
    (s.unitLost i).pendingAt j k = if j = i then false else s.pendingAt j k := by
  unfold State.unitLost
  rw [abandonKind_pendingAt, abandonKind_pendingAt, abandonKind_pendingAt, withdraw_pendingAt]
  by_cases hj : j = i
  · cases k <;> simp [hj]
  · simp [hj]

theorem unitLost_waiting (s : State) (i j : Nat) : (s.unitLost i).waitingOf j = if j = i then none else s.waitingOf j := by
  unfold State.unitLost
  rw [abandonKind_waiting, abandonKind_waiting, abandonKind_waiting, withdraw_waiting]

theorem unitLost_counts (s : State) (i : Nat) : countsAfter s (s.unitLost i) (s.pendingKinds i).length := by
  have h0 : countsAfter s (s.withdraw i) 0 := .none (withdraw_counts s i)
  have h1 := abandonKind_counts (s.withdraw i) i .tightening
  have h2 := abandonKind_counts ((s.withdraw i).abandonKind i .tightening) i .relaxing
  have h3 := abandonKind_counts (((s.withdraw i).abandonKind i .tightening).abandonKind i .relaxing) i .darkening
  have h := ((h0.trans h1).trans h2).trans h3
  have e : (s.pendingKinds i).length = 0 + (if (s.withdraw i).pendingAt i .tightening = true then 1 else 0) +
      (if ((s.withdraw i).abandonKind i .tightening).pendingAt i .relaxing = true then 1 else 0) +
      (if (((s.withdraw i).abandonKind i .tightening).abandonKind i .relaxing).pendingAt i .darkening = true
        then 1 else 0) := by
    rw [abandonKind_pendingAt, abandonKind_pendingAt, abandonKind_pendingAt, withdraw_pendingAt, withdraw_pendingAt,
      withdraw_pendingAt]
    unfold State.pendingKinds
    cases h1 : s.pendingAt i .tightening <;> cases h2 : s.pendingAt i .relaxing <;>
      cases h3 : s.pendingAt i .darkening <;> simp [h1, h2, h3]
  rw [e]
  exact h

/-- R152: the record of a site whose unit is lost. -/
def DeliverySite.dropped (d : DeliverySite) : DeliverySite := ((d.dropKind .tightening).dropKind .relaxing).dropKind .darkening

theorem part_dropped (d : DeliverySite) (k : PartKind) : d.dropped.part k = (d.part k).map Part.lost := by
  unfold DeliverySite.dropped
  rw [part_dropKind, part_dropKind, part_dropKind]
  cases k <;> simp [part_dropKind]

theorem dropped_unwanted (d : DeliverySite) (k : PartKind) (p : Part) (hp : d.part k = some p) (hq : p.pending = true)
    (e : ElemId) (he : e ∈ p.elements) : d.dropped.wanted.lookup e = none := by
  unfold DeliverySite.dropped
  cases k with
  | tightening => exact dropKind_unwanted _ _ _ (.inl (dropKind_unwanted _ _ _ (.inl (dropKind_unwanted _ _ _
      (.inr ⟨p, hp, hq, he⟩)))))
  | relaxing => exact dropKind_unwanted _ _ _ (.inl (dropKind_unwanted _ _ _ (.inr ⟨p, by
      rw [part_dropKind]; exact hp, hq, he⟩)))
  | darkening => exact dropKind_unwanted _ _ _ (.inr ⟨p, by
      rw [part_dropKind]
      show (d.dropKind .tightening).part .darkening = some p
      rw [part_dropKind]; exact hp, hq, he⟩)

theorem unitLost_site (s : State) (i j : Nat) : (s.unitLost i).site j =
    if j = i then ((s.withdraw i).site i).map (·.dropped) else s.site j := by
  unfold State.unitLost
  rw [abandonKind_site, abandonKind_site, abandonKind_site, abandonKind_site, abandonKind_site]
  by_cases hj : j = i
  · subst hj
    simp only [if_true]
    cases (s.withdraw j).site j <;> rfl
  · simp only [if_neg hj]
    rw [abandonKind_site, if_neg hj, withdraw_site, if_neg hj]

/-- R152: the site of a lost unit keeps no pending part, each abandoned, its elements without a wanted value. -/
theorem unitLost_at (s : State) (i : Nat) (d : DeliverySite) (hd : s.site i = some d) :
    ∃ e, (s.unitLost i).site i = some e ∧ (∀ k, pendingPart (e.part k) = false) ∧
      ∀ k p, d.part k = some p → p.pending = true →
        e.part k = some { p with state := .abandoned, queued := false } ∧ ∀ x ∈ p.elements, e.wanted.lookup x = none := by
  obtain ⟨c, hc, hl⟩ : ∃ c, (s.withdraw i).site i = some c ∧ d.Like c := by
    rw [withdraw_site, if_pos rfl, hd]
    cases s.waitingOf i with
    | none => exact ⟨d, rfl, .refl d⟩
    | some x => exact ⟨_, rfl, d.like_uncommand _⟩
  refine ⟨c.dropped, by rw [unitLost_site, if_pos rfl, hc]; rfl, fun k => by rw [part_dropped]; exact pendingPart_lost _,
    fun k p hp hq => ?_⟩
  obtain ⟨q, hq', hlike⟩ := hl.part k p hp
  have hpq : q.pending = true := hlike.pending.trans hq
  refine ⟨?_, fun x hx => dropped_unwanted c k q hq' hpq x (by rw [hlike.elements]; exact hx)⟩
  rw [part_dropped, hq']
  simp [Part.lost, hpq, hlike.elements, hlike.resends]

/-! ## The changes of state of a line's units handed on -/

/-- What a change of an outstation's state leaves: everything of delivery, of the units and of what is available. -/
theorem stationUnitChanged_keeps (s : State) (k : Nat) (a b : UnitState) :
    (s.stationUnitChanged k a b).delivery = s.delivery ∧ (s.stationUnitChanged k a b).units = s.units ∧
    (s.stationUnitChanged k a b).lines = s.lines ∧ (s.stationUnitChanged k a b).store = s.store ∧
    (s.stationUnitChanged k a b).evaluator.available = s.evaluator.available ∧
    (s.evaluator.pending = true → (s.stationUnitChanged k a b).evaluator.pending = true) := by
  have notice : ∀ (t : State) x y, (t.noticeStation x y).delivery = t.delivery ∧ (t.noticeStation x y).units = t.units ∧
      (t.noticeStation x y).lines = t.lines ∧ (t.noticeStation x y).store = t.store ∧
      (t.noticeStation x y).evaluator = t.evaluator := by
    intro t x y
    unfold State.noticeStation
    split <;> exact ⟨rfl, rfl, rfl, rfl, rfl⟩
  have hand : ∀ (t : State), (t.handStation k).delivery = t.delivery ∧ (t.handStation k).units = t.units ∧
      (t.handStation k).lines = t.lines ∧ (t.handStation k).store = t.store ∧
      (t.handStation k).evaluator.available = t.evaluator.available ∧
      (t.evaluator.pending = true → (t.handStation k).evaluator.pending = true) := by
    intro t
    unfold State.handStation State.handQp
    split
    · exact ⟨rfl, rfl, rfl, rfl, rfl, id⟩
    · dsimp only
      split
      · exact ⟨rfl, rfl, rfl, rfl, rfl, id⟩
      · rw [changeTable_eq]
        exact ⟨rfl, rfl, rfl, rfl, rfl, fun h => Bool.or_eq_true_iff.2 (.inl h)⟩
  unfold State.stationUnitChanged
  split
  · exact ⟨rfl, rfl, rfl, rfl, rfl, id⟩
  · split
    · split <;> exact ⟨rfl, rfl, rfl, rfl, rfl, id⟩
    · exact ⟨rfl, rfl, rfl, rfl, rfl, id⟩
    · dsimp only
      split
      · obtain ⟨n1, n2, n3, n4, n5⟩ := notice (s.setStation ((‹Station›).loseLanes.goBlind s.now (s.param .qpFaultHold)))
          (‹Station›).state ((‹Station›).loseLanes.goBlind s.now (s.param .qpFaultHold)).state
        exact ⟨n1, n2, n3, n4, by rw [n5]; rfl, by rw [n5]; exact id⟩
      · obtain ⟨h1, h2, h3, h4, h5, h6⟩ := hand ((s.setStation _).noticeStation _ _)
        obtain ⟨n1, n2, n3, n4, n5⟩ := notice (s.setStation _) _ _
        refine ⟨h1.trans n1, h2.trans n2, h3.trans n3, h4.trans n4, h5.trans (by rw [n5]; rfl), fun h => h6 ?_⟩
        rw [n5]; exact h

/-- Whether a change of a unit's state is the loss of the sign of a site. -/
def losesSite (c : UnitOwner × UnitState × UnitState) (k : Nat) : Prop := c.1 = .sign k ∧ c.2.1 ≠ .lost ∧ c.2.2 = .lost

/-- What the changes of state leave of the sites, those of a lost sign being as R152 leaves them. -/
structure SitesLost (s t : State) (lost : Nat → Prop) : Prop where
  units : t.units = s.units
  available : t.evaluator.available = s.evaluator.available
  pending : s.evaluator.pending = true → t.evaluator.pending = true
  store : t.store = s.store
  target : t.delivery.target = s.delivery.target
  stays : ∀ k, ¬ lost k → t.site k = s.site k
  waiting : ∀ k, lost k → t.waitingOf k = none
  gone : ∀ k, lost k → ∀ d, s.site k = some d → ∃ e, t.site k = some e ∧ (∀ m, pendingPart (e.part m) = false) ∧
    ∀ m p, d.part m = some p → p.pending = true →
      e.part m = some { p with state := .abandoned, queued := false } ∧ ∀ x ∈ p.elements, e.wanted.lookup x = none
  pendingAt : ∀ k m, t.pendingAt k m = true ↔ s.pendingAt k m = true ∧ ¬ lost k
  counts : ∃ xs : List (Nat × PartKind), xs.Nodup ∧ (∀ k m, (k, m) ∈ xs ↔ lost k ∧ s.pendingAt k m = true) ∧
    countsAfter s t xs.length

theorem SitesLost.congr {s t : State} {p q : Nat → Prop} (h : SitesLost s t p) (e : ∀ k, p k ↔ q k) : SitesLost s t q := by
  have : p = q := funext fun k => propext (e k)
  rwa [← this]

theorem SitesLost.of_same {s t u : State} {p : Nat → Prop} (h : SitesLost s t p) (hd : u.delivery = t.delivery)
    (hu : u.units = t.units) (hl : u.lines = t.lines) (hs : u.store = t.store)
    (ha : u.evaluator.available = t.evaluator.available)
    (he : t.evaluator.pending = true → u.evaluator.pending = true) : SitesLost s u p := by
  have site : ∀ k, u.site k = t.site k := fun k => by unfold State.site; rw [hd]
  have waits : ∀ k, u.waitingOf k = t.waitingOf k := fun k => by
    unfold State.waitingOf State.siteLine State.line; rw [hl, hs]
  have pends : ∀ k m, u.pendingAt k m = t.pendingAt k m := fun k m => by unfold State.pendingAt; rw [site]
  obtain ⟨xs, h1, h2, h3⟩ := h.counts
  exact ⟨hu.trans h.units, ha.trans h.available, fun x => he (h.pending x), hs.trans h.store, by rw [hd, h.target],
    fun k x => (site k).trans (h.stays k x),
    fun k x => (waits k).trans (h.waiting k x), fun k x d hk => by rw [site]; exact h.gone k x d hk,
    fun k m => by rw [pends]; exact h.pendingAt k m, xs, h1, h2, by unfold countsAfter at h3 ⊢; rw [hd]; exact h3⟩

/-- One more sign lost. -/
theorem SitesLost.lose {s t : State} {p : Nat → Prop} (h : SitesLost s t p) (i : Nat) :
    SitesLost s (t.unitLost i) fun k => p k ∨ k = i := by
  have hp := unitLost_parts t i
  obtain ⟨xs, x1, x2, x3⟩ := h.counts
  refine ⟨hp.units.trans h.units, by rw [hp.evaluator, h.available], fun x => by rw [hp.evaluator]; exact h.pending x,
    hp.store.trans h.store, by rw [hp.target, h.target], fun k hk => ?_, fun k hk => ?_, fun k hk d hd => ?_, fun k m => ?_, ?_⟩
  · rw [unitLost_site, if_neg (fun e => hk (.inr e)), h.stays k (fun e => hk (.inl e))]
  · rw [unitLost_waiting]
    split
    · rfl
    · exact h.waiting k (hk.resolve_right ‹_›)
  · by_cases hki : k = i
    · subst hki
      by_cases hpk : p k
      · obtain ⟨e, he, hn, hg⟩ := h.gone k hpk d hd
        refine ⟨e, ?_, hn, hg⟩
        have same : ∀ (c : DeliverySite) m, pendingPart (c.part m) = false → c.dropKind m = c := by
          intro c m hc
          unfold DeliverySite.dropKind
          cases hx : c.part m with
          | none => rfl
          | some q => rw [hx] at hc; simp [show q.pending = false from hc]
        rw [unitLost_site, if_pos rfl, withdraw_site, if_pos rfl, he, h.waiting k hpk]
        simp only [Option.map_some]
        unfold DeliverySite.dropped
        rw [same e _ (hn _), same e _ (hn _), same e _ (hn _)]
      · rw [← h.stays k hpk] at hd
        exact unitLost_at t k d hd
    · obtain ⟨e, he, hn, hg⟩ := h.gone k (hk.resolve_right hki) d hd
      exact ⟨e, by rw [unitLost_site, if_neg hki, he], hn, hg⟩
  · rw [unitLost_pendingAt]
    by_cases hki : k = i
    · simp [hki]
    · rw [if_neg hki, h.pendingAt]; simp [hki]
  · refine ⟨xs ++ (t.pendingKinds i).map fun m => (i, m), ?_, fun k m => ?_, ?_⟩
    · rw [List.nodup_append]
      refine ⟨x1, (nodup_pendingKinds t i).map fun a b e => (Prod.mk.inj e).2, fun a ha b hb => ?_⟩
      obtain ⟨m, hm, rfl⟩ := List.mem_map.1 hb
      rintro rfl
      have h1 := (x2 i m).1 ha
      have h2 := (h.pendingAt i m).1 ((mem_pendingKinds t i m).1 hm)
      exact h2.2 h1.1
    · rw [List.mem_append, x2]
      constructor
      · rintro (⟨h1, h2⟩ | hm)
        · exact ⟨.inl h1, h2⟩
        · obtain ⟨m', hm', e⟩ := List.mem_map.1 hm
          cases e
          exact ⟨.inr rfl, ((h.pendingAt i m).1 ((mem_pendingKinds t i m).1 hm')).1⟩
      · rintro ⟨h1, h2⟩
        by_cases hpk : p k
        · exact .inl ⟨hpk, h2⟩
        · obtain rfl := h1.resolve_left hpk
          exact .inr (List.mem_map.2 ⟨m, (mem_pendingKinds t k m).2 ((h.pendingAt k m).2 ⟨h2, hpk⟩), rfl⟩)
    · rw [List.length_append, List.length_map]
      exact x3.trans (unitLost_counts t i)

theorem SitesLost.refl (s : State) : SitesLost s s fun _ => False where
  units := rfl
  available := rfl
  pending := id
  store := rfl
  target := rfl
  stays := fun _ _ => rfl
  waiting := fun _ h => h.elim
  gone := fun _ h => h.elim
  pendingAt := fun k m => by simp
  counts := ⟨[], List.nodup_nil, fun k m => by simp, .none ⟨rfl, rfl⟩⟩

/-- R98 and R152: one change of state handed on. -/
theorem unitChanged_lost {s t : State} {p : Nat → Prop} (h : SitesLost s t p) (o : UnitOwner) (a b : UnitState) :
    SitesLost s (t.unitChanged o a b) fun k => p k ∨ losesSite (o, a, b) k := by
  unfold State.unitChanged losesSite
  by_cases hab : a = b
  · rw [if_pos hab]
    refine h.congr fun k => ?_
    subst hab
    simp only [iff_self_or, and_imp]
    intro _ h1 h2; exact absurd h2 h1
  · rw [if_neg hab]
    cases o with
    | outstation j =>
      obtain ⟨h1, h2, h3, h4, h5, h6⟩ := stationUnitChanged_keeps t j a b
      exact (h.of_same h1 h2 h3 h4 h5 h6).congr fun k => by simp
    | sign i =>
      dsimp only
      by_cases hb : b = .lost
      · rw [if_pos hb]
        refine (h.lose i).congr fun k => ?_
        subst hb
        simp only [UnitOwner.sign.injEq, and_true]
        refine or_congr_right ⟨fun e => ⟨e.symm, hab⟩, fun e => e.1.symm⟩
      · rw [if_neg hb]
        exact h.congr fun k => by simp [hb]

/-- The changes of state of a list of units handed on, one after the other (log entry 42). -/
theorem unitsChanged_lost (s : State) (f : Nat → Option (UnitOwner × UnitState × UnitState)) (n : Nat) :
    SitesLost s ((List.range n).foldl (fun st i => match f i with
      | none => st
      | some c => st.unitChanged c.1 c.2.1 c.2.2) s) fun k => ∃ i < n, ∃ c, f i = some c ∧ losesSite c k := by
  induction n with
  | zero => exact (SitesLost.refl s).congr fun k => by simp
  | succ n ih =>
    rw [List.range_succ, List.foldl_append, List.foldl_cons, List.foldl_nil]
    cases hf : f n with
    | none =>
      refine ih.congr fun k => ⟨fun ⟨i, hi, h⟩ => ⟨i, by omega, h⟩, fun ⟨i, hi, c, hc, h⟩ => ⟨i, ?_, c, hc, h⟩⟩
      have : i ≠ n := fun e => by rw [e, hf] at hc; cases hc
      omega
    | some c =>
      refine (unitChanged_lost ih c.1 c.2.1 c.2.2).congr fun k => ⟨?_, ?_⟩
      · rintro (⟨i, hi, h⟩ | h)
        · exact ⟨i, by omega, h⟩
        · exact ⟨n, by omega, c, hf, h⟩
      · rintro ⟨i, hi, c', hc, h⟩
        by_cases hin : i = n
        · subst hin; rw [hf] at hc; cases hc; exact .inr h
        · exact .inl ⟨i, by omega, c', hc, h⟩

/-! ## Releases and completion judged after it -/

/-- What the judging of releases and of completion leaves of everything but the parts. -/
theorem settleDelivery_keeps (s : State) : s.settleDelivery.units = s.units ∧
    s.settleDelivery.evaluator.available = s.evaluator.available ∧
    s.settleDelivery.evaluator.pending = s.evaluator.pending ∧ s.settleDelivery.stations = s.stations ∧
    s.settleDelivery.delivery.abandonments = s.delivery.abandonments ∧
    (s.delivery.target = .plan → s.settleDelivery.delivery.abandoned = s.delivery.abandoned) := by
  have h := judgeReleases_parts s
  obtain ⟨c1, c2⟩ := judgeReleases_counts s
  have hst : s.judgeReleases.stations = s.stations := by rw [h.eq]
  unfold State.settleDelivery
  generalize s.judgeReleases = t at h c1 c2 hst ⊢
  have base : t.units = s.units ∧ t.evaluator.available = s.evaluator.available ∧
      t.evaluator.pending = s.evaluator.pending := by rw [h.eq]; exact ⟨rfl, rfl, rfl⟩
  unfold State.judgeCompletion
  split
  · cases ht : t.delivery.target with
    | plan => exact ⟨base.1, base.2.1, base.2.2, hst, c2, fun _ => c1⟩
    | dark =>
      dsimp only
      unfold State.enterShadow State.wantPlan State.clearParts
      generalize hv : ({ ({ t with delivery := t.delivery.complete }.notifyAll .delivered) with
        mode := .shadow } : State).notifyAll .mode = v
      have g := withdraws_parts v
      have gc := withdraws_counts v
      have ve : v.units = t.units ∧ v.evaluator = t.evaluator ∧ v.stations = t.stations ∧
          v.delivery.abandonments = t.delivery.abandonments := by
        subst hv; exact ⟨rfl, rfl, rfl, by rw [State.notifyAll_delivery]; rfl⟩
      refine ⟨?_, ?_, ?_, ?_, ?_, fun hp => ?_⟩
      · exact g.units.trans (ve.1.trans base.1)
      · show (v.forSites _).evaluator.available = _
        rw [g.evaluator, ve.2.1, base.2.1]
      · show (v.forSites _).evaluator.pending = _
        rw [g.evaluator, ve.2.1, base.2.2]
      · show (v.forSites _).stations = _
        rw [g.eq]; exact ve.2.2.1.trans hst
      · exact gc.trans (ve.2.2.2.trans c2)
      · rw [← h.target, ht] at hp; cases hp
  · exact ⟨base.1, base.2.1, base.2.2, hst, c2, fun _ => c1⟩

/-- R156: completion leaves no site a pending part that had none. -/
theorem judgeCompletion_resolved (s : State) (i : Nat) (d : DeliverySite) (hd : s.site i = some d)
    (h : ∀ k, pendingPart (d.part k) = false) :
    ∃ e, s.judgeCompletion.site i = some e ∧ (∀ k, pendingPart (e.part k) = false) ∧
      (s.delivery.target = .plan → e = d) := by
  unfold State.judgeCompletion
  split
  · cases ht : s.delivery.target with
    | plan => exact ⟨d, hd, h, fun _ => rfl⟩
    | dark =>
      dsimp only
      unfold State.enterShadow State.wantPlan State.clearParts
      generalize hv : ({ ({ s with delivery := s.delivery.complete }.notifyAll .delivered) with
        mode := .shadow } : State).notifyAll .mode = v
      have vs : v.site i = some d := by subst hv; exact hd
      obtain ⟨a, h1, h2⟩ := forSites_at v (fun i st => st.withdraw i) i (fun j t h => withdraw_untouched t i j h)
        (site_some_lt vs)
      show ∃ e, (((v.forSites fun i st => st.withdraw i).mapSites fun _ d => d.noParts).mapSites _).site i = some e ∧ _
      rw [mapSites_site, mapSites_site, h2.site, withdraw_site, if_pos rfl, h1.site, vs]
      exact ⟨_, rfl, fun k => by cases k <;> rfl, fun hp => by cases hp⟩
  · exact ⟨d, hd, h, fun _ => rfl⟩

/-- R152: what the loss of signs leaves of a site once releases and completion are judged. -/
theorem SitesLost.signLost {s t : State} {p : Nat → Prop} (h : SitesLost s t p) (k : Nat) (hk : p k) (d : DeliverySite)
    (hd : s.site k = some d) : SignLost s t.settleDelivery none k d := by
  obtain ⟨e, he, hn, hg⟩ := h.gone k hk d hd
  obtain ⟨x, hx, hl, hq⟩ := judgeReleases_at t k e he
  have hr := hq (h.waiting k hk)
  have hxn : ∀ m, pendingPart (x.part m) = false := fun m => (hl.pendingPart m).trans (hn m)
  obtain ⟨y, hy, hyn, hyp⟩ := judgeCompletion_resolved t.judgeReleases k x hx hxn
  have ht : t.judgeReleases.delivery.target = s.delivery.target := (judgeReleases_parts t).target.trans h.target
  have yx : s.delivery.target = .plan → y = x := fun hp => hyp (ht.trans hp)
  refine ⟨⟨y, hy, fun m hu => ?_⟩, fun hp => ⟨y, hy, fun m q hq hu z hz => ?_⟩, fun hp _ => ⟨y, hy, fun m q hq hu => ?_⟩⟩
  · rw [unresolved_iff, hyn] at hu; cases hu
  · rw [yx hp, hl.wanted]
    exact (hg m q hq ((unresolved_iff _).1 hu)).2 z hz
  · rw [yx hp]
    obtain ⟨r, hr1, hr2⟩ := hl.part m _ (hg m q hq ((unresolved_iff _).1 hu)).1
    rw [hr1, hr2.resolved rfl rfl]

/-- R142: the parts that they abandon, counted. -/
theorem SitesLost.countedLost {s t : State} {p : Nat → Prop} (h : SitesLost s t p) : CountedLost s t.settleDelivery p := by
  obtain ⟨xs, x1, x2, c1, c2⟩ := h.counts
  obtain ⟨-, -, -, -, k1, k2⟩ := settleDelivery_keeps t
  refine ⟨xs, x1, fun i k => by rw [x2, pends_iff], fun b => k1.trans (c2 b), fun hp b => ?_⟩
  rw [k2 (h.target.trans hp), c1 b]

/-! ## A report for a line's units (R131) -/

theorem or_and_self (a b : Byte) : (a ||| b) &&& b = b := by
  ext i
  simp only [BitVec.getElem_and, BitVec.getElem_or]
  cases a[i] <;> cases b[i] <;> rfl

/-- R131, R136, R57 and R152: a report that keeps every unit's owner and elements. -/
theorem reportLine_spec (s : State) (l : LineId) (f : UnitRec → UnitRec) (hf : Keeps f) :
    let t := s.reportLine l f
    (∀ j u, s.unit j = some u → t.unit j = some (if u.line = l then (f u).judged else u)) ∧
    (∀ k, (∀ i u, s.unit i = some u → u.owner = .sign k → u.line ≠ l) →
      t.evaluator.available[k]? = s.evaluator.available[k]?) ∧
    (s.SignsInPlace → ∀ j u, s.unit j = some u → u.line = l → AvailabilityHanded s t u (f u).judged) ∧
    CountedLost s t (fun k => ∃ i u, s.unit i = some u ∧ u.owner = .sign k ∧ u.line = l ∧ u.state ≠ .lost ∧
      (f u).state = .lost) ∧
    (∀ i u k d, s.unit i = some u → u.owner = .sign k → u.line = l → u.state ≠ .lost → (f u).state = .lost →
      s.site k = some d → SignLost s t none k d) ∧
    (UnitStatesChanged s t → ∀ p, (s.port p).authority ≠ .disabled → (t.port p).flags &&& 0x04 = 0x04) := by
  generalize hs1 : (s.forUnits fun i st => match s.unit i with
    | none => st
    | some u => if u.line = l then st.storeUnit i (f u) else st) = s1
  have e1 : s1 = (List.range s.units.length).foldl (fun st i => storeWhere s (fun u => decide (u.line = l)) f i st) s := by
    rw [← hs1]
    unfold State.forUnits
    congr 1
    funext st i
    unfold storeWhere
    cases hu : s.unit i with
    | none => simp [hu]
    | some u => by_cases h : u.line = l <;> simp [hu, h]
  obtain ⟨a1, a2, a3, a4⟩ := storeWhere_fold s (fun u => decide (u.line = l)) f hf s.units.length
  obtain ⟨us, ev, b1, b2⟩ := storeWhere_keeps s (fun u => decide (u.line = l)) f s.units.length
  rw [← e1] at a1 a2 a3 a4 b1
  have stored : ∀ j u, s.unit j = some u → s1.unit j = some (if u.line = l then (f u).judged else u) := by
    intro j u hu
    rw [a1 j u hu]
    simp [unit_lt hu]
  let ch : Nat → Option (UnitOwner × UnitState × UnitState) := fun i => match s.unit i, s1.unit i with
    | some u, some u1 => some (u.owner, u.state, u1.state)
    | _, _ => none
  have hl : s1.units.length = s.units.length := by rw [b1]; exact b2
  generalize hs2 : (s1.forUnits fun i st => match s.unit i, s1.unit i with
    | some u, some u1 => st.unitChanged u.owner u.state u1.state
    | _, _ => st) = s2
  have e2 : s2 = (List.range s.units.length).foldl (fun st i => match ch i with
      | none => st
      | some c => st.unitChanged c.1 c.2.1 c.2.2) s1 := by
    rw [← hs2]
    unfold State.forUnits
    rw [hl]
    congr 1
    funext st i
    show _ = match (match s.unit i, s1.unit i with
      | some u, some u1 => some (u.owner, u.state, u1.state)
      | _, _ => none) with
      | none => st
      | some c => st.unitChanged c.1 c.2.1 c.2.2
    cases h1 : s.unit i <;> cases h2 : s1.unit i <;> simp only [h1, h2]
  have lost := unitsChanged_lost s1 ch s.units.length
  rw [← e2] at lost
  have hlost : ∀ k, (∃ i < s.units.length, ∃ c, ch i = some c ∧ losesSite c k) ↔
      ∃ i u, s.unit i = some u ∧ u.owner = .sign k ∧ u.line = l ∧ u.state ≠ .lost ∧ (f u).state = .lost := by
    intro k
    constructor
    · rintro ⟨i, hi, c, hc, h1, h2, h3⟩
      cases hu : s.unit i with
      | none => simp only [ch, hu] at hc; cases hc
      | some u =>
        have hs := stored i u hu
        simp only [ch, hu, hs] at hc
        cases hc
        by_cases hul : u.line = l
        · rw [if_pos hul] at h3
          exact ⟨i, u, hu, h1, hul, h2, h3⟩
        · rw [if_neg hul] at h3; exact absurd h3 h2
    · rintro ⟨i, u, hu, h1, h2, h3, h4⟩
      refine ⟨i, unit_lt hu, (u.owner, u.state, (f u).judged.state), ?_, h1, h3, h4⟩
      have hs := stored i u hu
      rw [if_pos h2] at hs
      simp only [ch, hu, hs]
  replace lost := lost.congr hlost
  have ht : s.reportLine l f = s2.settleDelivery.noticeUnit
      (decide (s1.units.map UnitRec.noticed ≠ s.units.map UnitRec.noticed)) := by
    subst hs2 hs1; rfl
  rw [ht]
  obtain ⟨k1, k2, k3, k4, k5, k6⟩ := settleDelivery_keeps s2
  have nu : ∀ (t : State) (b : Bool), (t.noticeUnit b).units = t.units ∧ (t.noticeUnit b).evaluator = t.evaluator ∧
      (t.noticeUnit b).delivery = t.delivery := by
    intro t b; unfold State.noticeUnit; split <;> exact ⟨rfl, rfl, rfl⟩
  generalize hb : decide (s1.units.map UnitRec.noticed ≠ s.units.map UnitRec.noticed) = b
  obtain ⟨n1, n2, n3⟩ := nu s2.settleDelivery b
  have av : (s2.settleDelivery.noticeUnit b).evaluator.available = s1.evaluator.available := by
    rw [n2, k2, lost.available]
  have un : ∀ j u, s.unit j = some u →
      (s2.settleDelivery.noticeUnit b).unit j = some (if u.line = l then (f u).judged else u) := by
    intro j u hu
    have : (s2.settleDelivery.noticeUnit b).units = s1.units := by rw [n1, k1, lost.units]
    unfold State.unit
    rw [this]
    exact stored j u hu
  have dl : s1.delivery = s.delivery := by rw [b1]
  have cl := lost.countedLost
  refine ⟨un, fun k hk => ?_, fun hp j u hu hul k hk => ?_, ?_, fun i u k d hu h1 h2 h3 h4 hd => ?_, fun hc p hpa => ?_⟩
  · rw [av]
    exact a3 k fun i u hu ho => by simpa using hk i u hu ho
  · obtain ⟨g1, g2⟩ := (a4 hp).2 j u (unit_lt hu) hu (by simpa using hul) k hk
    rw [av]
    refine ⟨fun hne => ⟨?_, (g1 hne).2⟩, g2⟩
    rw [n2, k3]
    exact lost.pending (g1 hne).1
  · obtain ⟨xs, x1, x2, x3, x4⟩ := cl
    have pe : ∀ i k, s1.Pends i k ↔ s.Pends i k := by
      intro i k; unfold State.Pends State.site; rw [dl]
    exact ⟨xs, x1, fun i k => by rw [x2, pe], by rw [n3, ← dl]; exact x3, by rw [n3, ← dl]; exact x4⟩
  · have hd1 : s1.site k = some d := by unfold State.site; rw [dl]; exact hd
    obtain ⟨q1, q2, q3⟩ := lost.signLost k ⟨i, u, hu, h1, h2, h3, h4⟩ d hd1
    have si : ∀ j, (s2.settleDelivery.noticeUnit b).site j = s2.settleDelivery.site j := by
      intro j; unfold State.site; rw [n3]
    rw [dl] at q2 q3
    exact ⟨by rw [si]; exact q1, by rw [si]; exact q2, by rw [si]; exact q3⟩
  · obtain ⟨i, u, v, hu, hv, hne⟩ := hc
    rw [un i u hu] at hv
    cases hv
    have hbt : b = true := by
      rw [← hb, decide_eq_true_iff]
      intro he
      have h1 : (s1.units.map UnitRec.noticed)[i]? = (s.units.map UnitRec.noticed)[i]? := by rw [he]
      have hs := stored i u hu
      unfold State.unit at hs hu
      rw [List.getElem?_map, List.getElem?_map, hs, hu] at h1
      have := Option.some.inj h1
      exact hne (congrArg Prod.fst this)
    subst hbt
    have hside : Handing s s2.settleDelivery := by
      have h1 : Handing s s1 := by
        rw [← hs1]
        refine forUnits_handing _ _ fun i t => ?_
        split
        · exact .refl t
        · split
          · exact storeUnit_handing _ _ _
          · exact .refl t
      have h2 : Handing s1 s2 := by
        rw [← hs2]
        refine forUnits_handing _ _ fun i t => ?_
        split
        · exact unitChanged_handing _ _ _ _
        · exact .refl t
      exact (h1.trans h2).trans (settleDelivery_handing _)
    have hpp := hside.side.ports p
    unfold State.noticeUnit
    rw [if_pos rfl, State.notifyAll_port]
    have hen : (s2.settleDelivery.port p).enabled = true := by
      unfold PortRec.enabled
      rw [hpp]
      simpa using hpa
    unfold PortRec.raise
    rw [if_pos hen]
    exact or_and_self _ _

end Sys2Proof.Machine
end

