-- ==== Sys2Proof/Laws/PerInstr.lean ====
section
/-! SUPPORT. One family of statements over the syntax of the commands, with one lemma for each: a well-formed command that a
good frame carries is the one its frame spells. -/

namespace Sys2Proof.Laws.WireForm

open Sys2Proof.Machine

/-- A command carried by a good frame belongs to the frame's port and to no reset, and where it is well formed, some payload
that fits a frame makes that frame spell it. -/
def Statement (i : Instr) : Prop :=
  ∀ f, sentFrame i = some f → transactionPort i = some f.port ∧ isReset i = false ∧
    (wellFormed i = true → ∃ payload : List Byte, payload.length ≤ 240 ∧ commandOf f.port f.code f.seq payload = i)

/-- What carries no command has nothing to show. -/
theorem of_none {i : Instr} (h : sentFrame i = none) : Statement i := fun f hf => by
  rw [h] at hf
  cases hf

/-- A command whose CMD byte alone decides its row. -/
theorem of_code {i : Instr} {p : Port} {code seq : Byte} {payload : List Byte} (hs : sentFrame i = some ⟨p, code, seq⟩)
    (ht : transactionPort i = some p) (hr : isReset i = false) (hw : wellFormed i = true → payload.length ≤ 240)
    (hc : wellFormed i = true → commandOf p code seq payload = i) : Statement i := fun f hf => by
  rw [hs] at hf
  cases hf
  exact ⟨ht, hr, fun h => ⟨payload, hw h, hc h⟩⟩

/-- The payload of a command whose form asks only that it fits. -/
theorem fits {payload : List Byte} (h : payloadFits payload = true) : payload.length ≤ 240 := by
  exact of_decide_eq_true h

theorem powerOnReset (straps : Straps) : Statement (.powerOnReset straps) := of_none rfl
theorem pinReset (straps : Straps) (lowMicros : Nat) : Statement (.pinReset straps lowMicros) := of_none rfl
theorem portsReady : Statement (.portsReady) := of_none rfl
theorem voidTransaction (p : Port) (sdi : List Byte) : Statement (.voidTransaction p sdi) := of_none rfl
theorem readTransaction (p : Port) (clocked : Nat) : Statement (.readTransaction p clocked) := of_none rfl
theorem badFrame (p : Port) (frame : List Byte) : Statement (.badFrame p frame) := of_none rfl
theorem overrun (p : Port) : Statement (.overrun p) := of_none rfl
theorem unknownCommand (p : Port) (code seq : Byte) (payload : List Byte) :
    Statement (.unknownCommand p code seq payload) := by
  refine of_code rfl rfl rfl (payload := payload) (fun h => ?_) fun h => ?_
  · exact fits (Bool.and_eq_true _ _ ▸ h).2
  · have hk : code ∉ knownCodes := of_decide_eq_true (Bool.and_eq_true _ _ ▸ h).1
    have he : code = BitVec.ofNat 8 code.toNat := by simp
    unfold commandOf
    split <;> first
      | rfl
      | (rename_i hv; rw [hv] at he; subst he; exact absurd (by decide) hk)
theorem status (p : Port) (seq : Byte) (payload : List Byte) : Statement (.status p seq payload) :=
  of_code rfl rfl rfl fits fun _ => rfl
theorem keepalive (p : Port) (seq : Byte) (payload : List Byte) : Statement (.keepalive p seq payload) :=
  of_code rfl rfl rfl fits fun _ => rfl
theorem readPlan (p : Port) (seq : Byte) (payload : List Byte) : Statement (.readPlan p seq payload) :=
  of_code rfl rfl rfl fits fun _ => rfl
theorem readEntries (p : Port) (seq : Byte) (payload : List Byte) : Statement (.readEntries p seq payload) :=
  of_code rfl rfl rfl fits fun _ => rfl
theorem readUnits (p : Port) (seq : Byte) (payload : List Byte) : Statement (.readUnits p seq payload) :=
  of_code rfl rfl rfl fits fun _ => rfl
theorem readStations (p : Port) (seq : Byte) (payload : List Byte) : Statement (.readStations p seq payload) :=
  of_code rfl rfl rfl fits fun _ => rfl
theorem readDelivery (p : Port) (seq : Byte) (payload : List Byte) : Statement (.readDelivery p seq payload) :=
  of_code rfl rfl rfl fits fun _ => rfl
theorem notices (p : Port) (seq : Byte) (payload : List Byte) : Statement (.notices p seq payload) :=
  of_code rfl rfl rfl fits fun _ => rfl
theorem setNoticeMask (p : Port) (seq : Byte) (payload : List Byte) : Statement (.setNoticeMask p seq payload) :=
  of_code rfl rfl rfl fits fun _ => rfl
theorem counters (p : Port) (seq : Byte) (payload : List Byte) : Statement (.counters p seq payload) :=
  of_code rfl rfl rfl fits fun _ => rfl
theorem request (p : Port) (seq : Byte) (payload : List Byte) : Statement (.request p seq payload) :=
  of_code rfl rfl rfl fits fun _ => rfl
theorem withdraw (p : Port) (seq : Byte) (payload : List Byte) : Statement (.withdraw p seq payload) :=
  of_code rfl rfl rfl (fun h => fits (Bool.and_eq_true _ _ ▸ h).2) fun h =>
    if_neg (of_decide_eq_true (Bool.and_eq_true _ _ ▸ h).1)
theorem withdrawAll (p : Port) (seq : Byte) : Statement (.withdrawAll p seq) :=
  of_code (payload := []) rfl rfl rfl (fun _ => Nat.zero_le _) fun _ => rfl
theorem release (p : Port) (seq : Byte) (payload : List Byte) : Statement (.release p seq payload) :=
  of_code rfl rfl rfl fits fun _ => rfl
theorem inhibitQp (p : Port) (seq : Byte) (payload : List Byte) : Statement (.inhibitQp p seq payload) :=
  of_code rfl rfl rfl fits fun _ => rfl
theorem geometryWrite (p : Port) (seq : Byte) (payload : List Byte) : Statement (.geometryWrite p seq payload) :=
  of_code rfl rfl rfl fits fun _ => rfl
theorem stationWrite (p : Port) (seq : Byte) (payload : List Byte) : Statement (.stationWrite p seq payload) :=
  of_code rfl rfl rfl fits fun _ => rfl
theorem boundaryWrite (p : Port) (seq : Byte) (payload : List Byte) : Statement (.boundaryWrite p seq payload) :=
  of_code rfl rfl rfl fits fun _ => rfl
theorem commit (p : Port) (seq : Byte) (payload : List Byte) : Statement (.commit p seq payload) :=
  of_code rfl rfl rfl fits fun _ => rfl
theorem commitValidationEnd : Statement (.commitValidationEnd) := of_none rfl
theorem paramSet (p : Port) (seq : Byte) (payload : List Byte) : Statement (.paramSet p seq payload) :=
  of_code rfl rfl rfl fits fun _ => rfl
theorem setModeLive (p : Port) (seq : Byte) (payload : List Byte) : Statement (.setModeLive p seq payload) :=
  of_code rfl rfl rfl (fun h => fits (Bool.and_eq_true _ _ ▸ h).2) fun h =>
    if_neg (of_decide_eq_true (Bool.and_eq_true _ _ ▸ h).1)
theorem setModeShadow (p : Port) (seq : Byte) (payload : List Byte) : Statement (.setModeShadow p seq payload) :=
  of_code (payload := payload) rfl rfl rfl (fun h => by rw [of_decide_eq_true h]; exact Nat.le_of_ble_eq_true rfl)
    fun h => if_pos (of_decide_eq_true h)
theorem restart (p : Port) (seq : Byte) (payload : List Byte) : Statement (.restart p seq payload) :=
  of_code rfl rfl rfl fits fun _ => rfl
theorem portSilent (p : Port) : Statement (.portSilent p) := of_none rfl
theorem entryExpiry (slot : Nat) : Statement (.entryExpiry slot) := of_none rfl
theorem holdDeadlineExpiry : Statement (.holdDeadlineExpiry) := of_none rfl
theorem passStart : Statement (.passStart) := of_none rfl
theorem passEnd : Statement (.passEnd) := of_none rfl
theorem faultHoldExpiry (station : Nat) : Statement (.faultHoldExpiry station) := of_none rfl
theorem inhibitExpiry (station : Nat) : Statement (.inhibitExpiry station) := of_none rfl
theorem lineQuiet (l : LineId) (partialFrame : List Byte) : Statement (.lineQuiet l partialFrame) := of_none rfl
theorem frameStart (l : LineId) : Statement (.frameStart l) := of_none rfl
theorem frameSent (l : LineId) : Statement (.frameSent l) := of_none rfl
theorem validReply (l : LineId) (frame : List Byte) : Statement (.validReply l frame) := of_none rfl
theorem replyFrameError (l : LineId) (frame : List Byte) : Statement (.replyFrameError l frame) := of_none rfl
theorem invertedReply (l : LineId) : Statement (.invertedReply l) := of_none rfl
theorem falseActivity (l : LineId) (frame : List Byte) : Statement (.falseActivity l frame) := of_none rfl
theorem replyWindowEnd (l : LineId) : Statement (.replyWindowEnd l) := of_none rfl
theorem lineJam (l : LineId) : Statement (.lineJam l) := of_none rfl
theorem jamContinues (l : LineId) : Statement (.jamContinues l) := of_none rfl
theorem lineUnjam (l : LineId) : Statement (.lineUnjam l) := of_none rfl
theorem pollCycleStart (l : LineId) : Statement (.pollCycleStart l) := of_none rfl
theorem resetRelease : Statement (.resetRelease) := of_none rfl
theorem lineActivity (l : LineId) : Statement (.lineActivity l) := of_none rfl

end Sys2Proof.Laws.WireForm
end

