-- ==== Sys2Proof/Laws/Plans.lean ====
section
/-! SUPPORT. Plans in their reset form and adopted plans (R55, R165), and what a plan record gives a wanted image (R143). -/

namespace Sys2Proof.Machine

/-! ## The records of the committed section -/

theorem configured_eq (c : Store) (hw : c.Whole) :
    c.configured.length = c.siteCount ∧ ∀ i < c.siteCount, c.configured[i]? = (c.site i).map fun r => (i, r) := by
  have h : ∀ n ≤ c.siteCount,
      ((List.range n).filterMap fun i => (c.site i).map fun r => (i, r)).length = n ∧
      ∀ i < n, ((List.range n).filterMap fun i => (c.site i).map fun r => (i, r))[i]? = (c.site i).map fun r => (i, r) := by
    intro n
    induction n with
    | zero => exact fun _ => ⟨rfl, fun i hi => by omega⟩
    | succ n ih =>
      intro hn
      obtain ⟨hl, hg⟩ := ih (by omega)
      obtain ⟨r, hr⟩ := Option.ne_none_iff_exists'.1 (hw.2.1 n (by omega))
      rw [List.range_succ, List.filterMap_append]
      simp only [List.filterMap_cons, hr, Option.map_some, List.filterMap_nil]
      refine ⟨by simp [hl], fun i hi => ?_⟩
      by_cases hlt : i < n
      · rw [List.getElem?_append_left (by omega), hg i hlt]
      · have : i = n := by omega
        subst this
        rw [List.getElem?_append_right (by omega), hl, hr]
        simp
  exact h _ (Nat.le_refl _)

/-- A plan built of one record for each site and one for EXIT. -/
theorem built_plan (c : Store) (hc : c.Committed) (f : Nat × SiteRecord → PlanSite) (g : Boundary → PlanSite) :
    ((c.configured.map f) ++ (c.boundary.map g).toList).length = c.siteCount + 1 ∧
    (∀ i < c.siteCount, ∀ r ∈ c.site i,
      planSite ((c.configured.map f) ++ (c.boundary.map g).toList) i = f (i, r)) ∧
    ∀ b ∈ c.boundary, planSite ((c.configured.map f) ++ (c.boundary.map g).toList) c.siteCount = g b := by
  obtain ⟨hg, hw⟩ := hc
  obtain ⟨hl, he⟩ := configured_eq c hw
  obtain ⟨b, hb⟩ := Option.ne_none_iff_exists'.1 (hw.2.2 hg)
  rw [hb]
  refine ⟨by simp [hl], fun i hi r hr => ?_, fun b' hb' => ?_⟩
  · unfold planSite
    rw [List.getD_eq_getElem?_getD, List.getElem?_append_left (by simp [hl, hi]), List.getElem?_map, he i hi]
    rw [Option.mem_def] at hr
    rw [hr]; rfl
  · cases hb'
    unfold planSite
    rw [List.getD_eq_getElem?_getD, List.getElem?_append_right (by simp [hl])]
    simp [hl]

/-! ## The reset form (R55) -/

theorem fresh_lane (positions : List Nat) (v : Nat → LaneElem) (l : Nat) :
    (⟨none, positions.map fun l => (l, v l), none⟩ : PlanSite).lane l = if l ∈ positions then some (v l) else none :=
  lookup_map_key positions v l

theorem resetPlan_reset (c : Store) (hc : c.Committed) : ResetPlan c c.resetPlan := by
  obtain ⟨h1, h2, h3⟩ := built_plan c hc (fun x => x.2.resetPlan) (·.resetPlan)
  refine ⟨h1, fun i hi r hr => ?_, fun b hb => ?_⟩
  · show ResetRecord _ _ _ (planSite c.resetPlan i)
    rw [show planSite c.resetPlan i = r.resetPlan from h2 i hi r hr]
    refine ⟨fun h => ?_, fun h => ?_, fun h => ?_, fun h => ?_, fun l => ?_⟩
    · unfold SiteRecord.resetPlan SiteKind.hasLimit
      cases hk : r.kind <;> simp_all [PlanElem.fresh]
    · unfold SiteRecord.resetPlan SiteKind.hasLimit
      cases hk : r.kind <;> simp_all
    · show (if r.sign then _ else none) = _
      rw [h]; rfl
    · show (if r.sign then _ else none) = _
      rw [if_neg h]
    · have : r.resetPlan.lane l = if l ∈ r.kind.positions then some (.fresh (.shows .opened)) else none :=
        lookup_map_key _ _ l
      rw [this]
      exact ⟨fun h => by rw [if_pos ((mem_positions _ l).2 h)]; rfl, fun h => if_neg fun x => h ((mem_positions _ l).1 x)⟩
  · rw [show planSite c.resetPlan c.siteCount = b.resetPlan from h3 b hb]
    refine ⟨fun _ => rfl, fun h => absurd trivial h, fun h => h.elim, fun _ => rfl, fun l => ?_⟩
    have : b.resetPlan.lane l = if l ∈ b.positions then some (.fresh (.shows .opened)) else none :=
      lookup_map_key _ _ l
    rw [this]
    exact ⟨fun h => by rw [if_pos (show l ∈ b.positions from (mem_lanePositions _ _ l).2 h)]; rfl,
      fun h => if_neg fun x => h ((mem_lanePositions _ _ l).1 x)⟩

/-! ## Adoption (R165) -/

theorem adoptedAspect_eq (v : Option ElemVal) : adoptedAspect v = (match v with
    | some (.lane a) => if a = .blank then .opened else a
    | _ => .opened) := by
  unfold adoptedAspect
  rcases v with _ | _ | a | _
  · rfl
  · rfl
  · cases a <;> rfl
  · rfl

theorem adoptedPlan_adopted (t : State) (hc : t.store.Committed) : AdoptedPlan t t.adoptedPlan := by
  obtain ⟨h1, h2, h3⟩ := built_plan t.store hc
    (fun x => x.2.adopt ((t.delivery.sites[x.1]?.map (·.confirmed)).getD []) (t.evaluator.available.getD x.1 [])
      (t.table.demandOf x.1) (t.now + t.param .minDwell * 1000))
    (fun b => b.adopt (t.table.demandOf t.store.siteCount))
  refine ⟨h1, fun i hi r hr => ?_, fun b hb => ?_⟩
  · have hp : planSite t.adoptedPlan i = r.adopt ((t.delivery.sites[i]?.map (·.confirmed)).getD [])
        (t.evaluator.available.getD i []) (t.table.demandOf i) (t.now + t.param .minDwell * 1000) := h2 i hi r hr
    have hcf : ∀ e, ((t.delivery.sites[i]?.map (·.confirmed)).getD []).lookup e = t.confirmedAt i e := by
      intro e
      unfold State.confirmedAt State.site
      cases t.delivery.sites[i]? <;> rfl
    rw [hp]
    refine ⟨fun l hl => ?_, fun hk => ⟨fun h => ?_, fun h => ?_⟩, fun hs => ⟨fun h => ?_, fun h => ?_⟩⟩
    · refine ⟨_, (lookup_map_key _ _ l).trans (if_pos ((mem_positions _ l).2 hl)), ?_⟩
      by_cases ha : ElemId.lane l ∈ t.evaluator.available.getD i []
      · rw [if_pos (by simpa using ha)]
        refine ⟨rfl, rfl, rfl, fun _ => ⟨rfl, ?_⟩, fun h => absurd ha h⟩
        rw [hcf, adoptedAspect_eq] <;> rfl
      · rw [if_neg (by simpa using ha)]
        refine ⟨rfl, rfl, rfl, fun h => absurd h ha, fun _ => ⟨rfl, fun h => ?_, fun h => ?_⟩⟩
        · show LaneValue.unavailable _ = _
          rw [(demandAspect_closed _ _).2 h]; rfl
        · show LaneValue.unavailable _ = _
          rw [demandAspect_opened _ _ h]; rfl
    · unfold SiteRecord.adopt
      dsimp only
      have : r.kind.hasLimit = true := by unfold SiteKind.hasLimit; cases hk' : r.kind <;> simp_all
      rw [if_pos this, if_pos ((limitCapable_iff r _).2 h), hcf] <;> rfl
    · unfold SiteRecord.adopt
      dsimp only
      have : r.kind.hasLimit = true := by unfold SiteKind.hasLimit; cases hk' : r.kind <;> simp_all
      rw [if_pos this, if_neg fun x => h ((limitCapable_iff r _).1 x)]
      rfl
    · unfold SiteRecord.adopt SiteRecord.messageCapable
      dsimp only
      rw [if_pos hs, if_pos (by simp [hs]; simpa using h), hcf] <;> rfl
    · unfold SiteRecord.adopt SiteRecord.messageCapable
      dsimp only
      rw [if_pos hs, if_neg (by simp [hs]; simpa using h)]
      rfl
  · have hp : planSite t.adoptedPlan t.store.siteCount = b.adopt (t.table.demandOf t.store.siteCount) := h3 b hb
    rw [hp]
    refine ⟨rfl, rfl, fun l => ⟨fun hl => ⟨_, (lookup_map_key _ _ l).trans (if_pos ((mem_lanePositions _ _ l).2 hl)), rfl,
      rfl, rfl, fun h => ?_, fun h => ?_⟩, fun hl => (lookup_map_key _ _ l).trans
        (if_neg fun x => hl ((mem_lanePositions _ _ l).1 x))⟩⟩
    · show LaneValue.shows _ = _
      rw [(demandAspect_closed _ _).2 h]
    · show LaneValue.shows _ = _
      rw [demandAspect_opened _ _ h]

/-! ## Wanted images (R143) -/

theorem lookup_append {α β : Type} [BEq α] (xs ys : List (α × β)) (k : α) :
    (xs ++ ys).lookup k = (xs.lookup k <|> ys.lookup k) := by
  induction xs with
  | nil => rfl
  | cons x xs ih =>
    rw [List.cons_append, List.lookup_cons, List.lookup_cons, ih]
    split <;> rfl

/-- What a lane of a plan record gives the wanted image. -/
def laneItem (x : Nat × LaneElem) : Option (ElemId × ElemVal) :=
  match x.2.value with
  | .shows a => some (.lane x.1, .lane a)
  | .unavailable _ => none

/-- What its limit gives. -/
def limitItems (x : PlanSite) : Image :=
  match x.limit with
  | some ⟨.value l, _, _⟩ => [(.limit, .limit l)]
  | _ => []

/-- What its legend gives. -/
def legendItems (x : PlanSite) : Image :=
  match x.legend with
  | some ⟨.value g, _, _⟩ => [(.legend, .legend g)]
  | _ => []

theorem wanted_eq (x : PlanSite) : x.wanted = limitItems x ++ x.lanes.filterMap laneItem ++ legendItems x := by
  unfold PlanSite.wanted limitItems legendItems
  congr 1
  · congr 1
    rcases x.limit with _ | ⟨_ | _, _, _⟩ <;> rfl
  · rcases x.legend with _ | ⟨_ | _, _, _⟩ <;> rfl

theorem lookup_lanes (xs : List (Nat × LaneElem)) (hn : (xs.map (·.1)).Nodup) (e : ElemId) (v : ElemVal) :
    (xs.filterMap laneItem).lookup e = some v ↔
    ∃ l a x, e = .lane l ∧ v = .lane a ∧ xs.lookup l = some x ∧ x.value = .shows a := by
  induction xs with
  | nil => simp
  | cons y xs ih =>
    obtain ⟨m, y⟩ := y
    rw [List.map_cons, List.nodup_cons] at hn
    have ih := ih hn.2
    rw [List.filterMap_cons]
    have hrest : ∀ x, xs.lookup m ≠ some x := fun x hx => hn.1 (List.mem_map.2 ⟨(m, x), mem_of_lookup hx, rfl⟩)
    cases hv : y.value with
    | unavailable k =>
      have hi : laneItem (m, y) = none := by unfold laneItem; rw [hv]
      rw [hi]
      dsimp only
      rw [ih]
      constructor
      · rintro ⟨l, a, x, h1, h2, h3, h4⟩
        refine ⟨l, a, x, h1, h2, ?_, h4⟩
        rw [List.lookup_cons]
        have : l ≠ m := fun hm => hrest x (hm ▸ h3)
        rw [beq_eq_false_iff_ne.2 this]
        exact h3
      · rintro ⟨l, a, x, h1, h2, h3, h4⟩
        rw [List.lookup_cons] at h3
        by_cases hm : l = m
        · subst hm
          rw [beq_self_eq_true] at h3
          cases h3
          rw [hv] at h4; cases h4
        · rw [beq_eq_false_iff_ne.2 hm] at h3
          exact ⟨l, a, x, h1, h2, h3, h4⟩
    | shows b =>
      have hi : laneItem (m, y) = some (.lane m, .lane b) := by unfold laneItem; rw [hv]
      rw [hi]
      dsimp only
      rw [List.lookup_cons]
      by_cases he : e = .lane m
      · subst he
        rw [beq_self_eq_true]
        constructor
        · intro h
          cases h
          exact ⟨m, b, y, rfl, rfl, by rw [List.lookup_cons, beq_self_eq_true], hv⟩
        · rintro ⟨l, a, x, h1, h2, h3, h4⟩
          cases h1
          rw [List.lookup_cons, beq_self_eq_true] at h3
          cases h3
          rw [hv] at h4; cases h4
          rw [h2]
      · rw [beq_eq_false_iff_ne.2 he]
        show _ ↔ _
        rw [ih]
        constructor
        · rintro ⟨l, a, x, h1, h2, h3, h4⟩
          refine ⟨l, a, x, h1, h2, ?_, h4⟩
          rw [List.lookup_cons, beq_eq_false_iff_ne.2 (fun hm => he (by rw [h1, hm]))]
          exact h3
        · rintro ⟨l, a, x, h1, h2, h3, h4⟩
          rw [List.lookup_cons, beq_eq_false_iff_ne.2 (fun hm => he (by rw [h1, hm]))] at h3
          exact ⟨l, a, x, h1, h2, h3, h4⟩

/-- R143: a plan record that names each lane once gives exactly the values it shows. -/
theorem wanted_iff (x : PlanSite) (hn : (x.lanes.map (·.1)).Nodup) (e : ElemId) (v : ElemVal) :
    x.wanted.lookup e = some v ↔ x.Shows e v := by
  rw [wanted_eq, lookup_append, lookup_append]
  have hl := lookup_lanes x.lanes hn e v
  cases e with
  | limit =>
    have h2 : (x.lanes.filterMap laneItem).lookup .limit = none := by
      rw [Option.eq_none_iff_forall_ne_some]
      intro w hw
      obtain ⟨l, a, y, h, -⟩ := (lookup_lanes x.lanes hn .limit w).1 hw
      cases h
    rw [h2]
    have h3 : (legendItems x).lookup .limit = none := by
      unfold legendItems; split <;> rfl
    rw [h3]
    unfold PlanSite.Shows limitItems
    rcases hx : x.limit with _ | ⟨vv, d, hh⟩
    · cases v <;> simp
    · cases vv <;> cases v <;> simp [List.lookup]
  | lane l =>
    have h1 : (limitItems x).lookup (.lane l) = none := by
      unfold limitItems; split <;> rfl
    have h3 : (legendItems x).lookup (.lane l) = none := by
      unfold legendItems; split <;> rfl
    rw [h1, h3]
    have hc : ∀ o : Option ElemVal, ((none <|> o) <|> none) = o := fun o => by cases o <;> rfl
    rw [hc, hl]
    unfold PlanSite.Shows
    cases v with
    | lane a =>
      constructor
      · rintro ⟨m, b, y, h4, h5, h6, h7⟩
        cases h4; cases h5
        exact ⟨y, h6, h7⟩
      · rintro ⟨y, h6, h7⟩
        exact ⟨l, a, y, rfl, rfl, h6, h7⟩
    | limit _ => exact ⟨fun ⟨_, _, _, _, h, _⟩ => (nomatch h), fun h => h.elim⟩
    | legend _ => exact ⟨fun ⟨_, _, _, _, h, _⟩ => (nomatch h), fun h => h.elim⟩
  | legend =>
    have h1 : (limitItems x).lookup .legend = none := by
      unfold limitItems; split <;> rfl
    have h2 : (x.lanes.filterMap laneItem).lookup .legend = none := by
      rw [Option.eq_none_iff_forall_ne_some]
      intro w hw
      obtain ⟨l, a, y, h, -⟩ := (lookup_lanes x.lanes hn .legend w).1 hw
      cases h
    rw [h1, h2]
    unfold PlanSite.Shows legendItems
    rcases hx : x.legend with _ | ⟨vv, d, hh⟩
    · cases v <;> simp
    · cases vv <;> cases v <;> simp [List.lookup]

/-- Every record of a plan a pass makes names each lane once. -/
theorem runPass_names_once (c : Store) (hw : c.Whole) (p : Pass) (i : Nat) :
    ((planSite (runPass c p) i).lanes.map (·.1)).Nodup := by
  rcases Nat.lt_trichotomy i c.siteCount with h | h | h
  · obtain ⟨r, hr⟩ := Option.ne_none_iff_exists'.1 (hw.2.1 i h)
    rw [planSite_runPass c hw p i h r hr]
    unfold markUnprotected
    rw [List.map_map, settledSite_lanes, List.map_map]
    exact (List.map_id' _ ▸ positions_nodup r.kind : (List.map (fun l => l) r.kind.positions).Nodup)
  · subst h
    rw [planSite_runPass_exit c hw p]
    unfold markUnprotected
    rw [List.map_map, settledExit_lanes, List.map_map]
    show (List.map (fun l => l) _).Nodup
    rw [List.map_id']
    cases c.boundary with
    | none => exact List.nodup_nil
    | some b => exact lanePositions_nodup _ _
  · rw [planSite_runPass_beyond c hw p i h]
    exact List.nodup_nil

/-! ## Publication (R56) -/

theorem differsFrom_iff (x y : PlanSite) : x.DiffersFrom y ↔ x.visible ≠ y.visible := by
  have h : x.visible = y.visible ↔ x.limit.map (·.value) = y.limit.map (·.value) ∧
      x.legend.map (·.value) = y.legend.map (·.value) ∧
      (x.lanes.map fun z => (⟨z.1, z.2.value, z.2.displaced, z.2.unprotected⟩ : VisibleLane)) =
        y.lanes.map fun z => ⟨z.1, z.2.value, z.2.displaced, z.2.unprotected⟩ := by
    unfold PlanSite.visible
    rw [VisibleSite.mk.injEq]
    tauto
  have g : ∀ zs ws : List (Nat × LaneElem),
      (zs.map fun z => (⟨z.1, z.2.value, z.2.displaced, z.2.unprotected⟩ : VisibleLane)) =
        (ws.map fun z => ⟨z.1, z.2.value, z.2.displaced, z.2.unprotected⟩) ↔
      (zs.map fun z => (z.1, z.2.value, z.2.displaced, z.2.unprotected)) =
        ws.map fun z => (z.1, z.2.value, z.2.displaced, z.2.unprotected) := by
    intro zs
    induction zs with
    | nil => intro ws; cases ws <;> simp
    | cons z zs ih =>
      intro ws
      cases ws with
      | nil => simp
      | cons w ws => simp [ih ws]
  rw [g] at h
  unfold PlanSite.DiffersFrom
  tauto

/-- R56: the model's comparison of plans is the difference of R56. -/
theorem plansDiffer_iff (x y : List PlanSite) : plansDiffer x y = true ↔ PlansDiffer x y := by
  unfold plansDiffer PlansDiffer
  rw [decide_eq_true_eq]
  constructor
  · intro h
    by_contra hn
    rw [not_or, not_not] at hn
    refine h (List.ext_getElem (by simp [hn.1]) fun i h1 h2 => ?_)
    rw [List.length_map] at h1 h2
    by_contra hv
    refine hn.2 ⟨i, h1, ?_⟩
    rw [differsFrom_iff]
    unfold planSite
    rw [List.getD_eq_getElem?_getD, List.getD_eq_getElem?_getD, List.getElem?_eq_getElem h1,
      List.getElem?_eq_getElem h2]
    simpa using hv
  · rintro (h | ⟨i, hi, hd⟩) he
    · exact h (by simpa using congrArg List.length he)
    · rw [differsFrom_iff] at hd
      refine hd ?_
      have hl : x.length = y.length := by simpa using congrArg List.length he
      have hg := congrArg (fun l => l[i]?) he
      simp only [List.getElem?_map, List.getElem?_eq_getElem hi, List.getElem?_eq_getElem (hl ▸ hi),
        Option.map_some, Option.some.injEq] at hg
      unfold planSite
      rw [List.getD_eq_getElem?_getD, List.getD_eq_getElem?_getD, List.getElem?_eq_getElem hi,
        List.getElem?_eq_getElem (hl ▸ hi)]
      exact hg

/-- R56: what a pass that publishes nothing leaves of a record. -/
theorem takeReports_taken (x y : PlanSite) : ReportsTaken x y (takeReports x y) := by
  refine ⟨⟨fun h => by unfold takeReports; rw [h]; rfl, fun p e h1 h2 => by unfold takeReports; rw [h1, h2]; rfl⟩,
    ⟨fun h => by unfold takeReports; rw [h]; rfl, fun p e h1 h2 => by unfold takeReports; rw [h1, h2]; rfl⟩,
    by unfold takeReports; simp [Function.comp_def], fun l p e h1 h2 => ?_⟩
  unfold takeReports PlanSite.lane
  dsimp only
  unfold PlanSite.lane at h1 h2
  revert h1
  induction x.lanes with
  | nil => intro h; cases h
  | cons z zs ih =>
    intro h
    rw [List.lookup_cons] at h
    rw [List.map_cons, List.lookup_cons]
    by_cases hz : l = z.1
    · subst hz
      rw [beq_self_eq_true] at h ⊢
      cases h
      dsimp only
      rw [h2]
      rfl
    · rw [beq_eq_false_iff_ne.2 hz] at h ⊢
      exact ih h

/-! ## The plans of epoch 0 name each lane once (R143) -/

theorem planSite_names (plan : List PlanSite) (h : ∀ x ∈ plan, (x.lanes.map (·.1)).Nodup) (i : Nat) :
    ((planSite plan i).lanes.map (·.1)).Nodup := by
  unfold planSite
  rw [List.getD_eq_getElem?_getD]
  by_cases hi : i < plan.length
  · rw [List.getElem?_eq_getElem hi]
    exact h _ (List.getElem_mem hi)
  · rw [List.getElem?_eq_none (by omega)]
    exact List.nodup_nil

theorem names_of_map (xs : List Nat) (f : Nat → LaneElem) (h : xs.Nodup) :
    ((xs.map fun l => (l, f l)).map (·.1)).Nodup := by
  rw [List.map_map]
  exact (List.map_id' _ ▸ h : (List.map (fun l => l) xs).Nodup)

/-- R143: what the reset form gives a wanted image. -/
theorem resetPlan_wanted (c : Store) (i : Nat) (e : ElemId) (v : ElemVal) :
    (planSite c.resetPlan i).wanted.lookup e = some v ↔ (planSite c.resetPlan i).Shows e v := by
  refine wanted_iff _ (planSite_names _ (fun x hx => ?_) i) e v
  unfold Store.resetPlan at hx
  rcases List.mem_append.1 hx with hx | hx
  · obtain ⟨y, -, rfl⟩ := List.mem_map.1 hx
    exact names_of_map _ _ (positions_nodup _)
  · obtain ⟨b, -, rfl⟩ := Option.map_eq_some_iff.1 (Option.mem_toList.1 hx)
    exact names_of_map _ _ (lanePositions_nodup _ _)

/-- R143: what an adopted plan gives a wanted image. -/
theorem adoptedPlan_wanted (s : State) (i : Nat) (e : ElemId) (v : ElemVal) :
    (planSite s.adoptedPlan i).wanted.lookup e = some v ↔ (planSite s.adoptedPlan i).Shows e v := by
  refine wanted_iff _ (planSite_names _ (fun x hx => ?_) i) e v
  unfold State.adoptedPlan at hx
  rcases List.mem_append.1 hx with hx | hx
  · obtain ⟨y, -, rfl⟩ := List.mem_map.1 hx
    exact names_of_map _ _ (positions_nodup _)
  · obtain ⟨b, -, rfl⟩ := Option.map_eq_some_iff.1 (Option.mem_toList.1 hx)
    exact names_of_map _ _ (lanePositions_nodup _ _)

end Sys2Proof.Machine
end

