-- ==== Sys2Proof/Laws/Ports.lean ====
section
/-! SUPPORT. What a good frame can do on its port: nothing where the port does not hear it, an overrun on an EXECUTING port,
and on a serving port its command and the reply. -/

namespace Sys2Proof.Machine

/-- The record of a serving port while its command is carried out: the deadline restarted, an unread reply lost, the
command counted and in the command slot (R45, R173, R174, R178). -/
def State.dispatched (s : State) (p : Port) (code seq : Byte) : PortRec :=
  { s.answered p code seq (.ok, []) with reply := none, command := some ⟨code, seq⟩ }

/-- A port that is serving hears frames, is ACTIVE and is IDLE. -/
theorem serving_iff (s : State) (p : Port) :
    s.serving p = true ↔ s.hears p = true ∧ (s.port p).liveness = .active ∧ (s.port p).command = none := by
  simp [State.serving]

/-- A frame on a port that does not hear it changes nothing (R42, R162). -/
theorem takeFrame_unheard (s : State) (p : Port) (code seq : Byte) (body : CommandBody) (h : s.hears p = false) :
    s.takeFrame p code seq body = s := by
  simp [State.takeFrame, h]

/-- On a serving port the command is carried out on the state with the port's record dispatched. -/
theorem takeFrame_serving (s : State) (p : Port) (code seq : Byte) (body : CommandBody) (h : s.serving p = true) :
    s.takeFrame p code seq body = (s.setPort p (s.dispatched p code seq)).carryOut p body := by
  obtain ⟨hh, hl, hc⟩ := (serving_iff s p).1 h
  have hx : ((s.restartKeepalive p).port p).executing = false := by
    simp [State.restartKeepalive, PortRec.executing, hc]
  have hd : ((s.restartKeepalive p).setPort p (((s.restartKeepalive p).port p).dispatch code seq)) =
      s.setPort p (s.dispatched p code seq) := by
    unfold State.restartKeepalive
    rw [State.setPort_setPort, State.setPort_port, if_pos rfl]
    congr 1
    unfold State.dispatched State.answered PortRec.dispatch State.keepDeadline
    cases hr : (s.port p).reply <;> simp [PortRec.overran, hl, hr]
  simp only [State.takeFrame, hh, State.goodFrameTaken, hl, hx, if_true]
  simp only [hd]
  rfl

/-- On an ACTIVE port that is EXECUTING the frame is an overrun (R173). -/
theorem takeFrame_executing (s : State) (p : Port) (code seq : Byte) (body : CommandBody) (h : s.hears p = true)
    (hl : (s.port p).liveness = .active) (hc : (s.port p).command.isSome = true) :
    s.takeFrame p code seq body =
      s.setPort p { (s.port p).overran with deadline := some (s.keepDeadline p) } := by
  have hx : ((s.restartKeepalive p).port p).executing = true := by
    simp [State.restartKeepalive, PortRec.executing, hc]
  simp only [State.takeFrame, h, State.goodFrameTaken, hl, hx, if_true]
  unfold State.restartKeepalive
  rw [State.setPort_setPort, State.setPort_port, if_pos rfl]
  simp [PortRec.overran, hl]

/-- A command that answers: its own effect, then the reply in the reply slot and the command slot empty. -/
theorem carryOut_answer (s t : State) (p : Port) (body : CommandBody) (a : Answer) (c : Command)
    (hb : body s = (t, some a)) (hc : (t.port p).command = some c) :
    s.carryOut p body =
      t.setPort p { t.port p with command := none, reply := some ⟨replyCode c.code, c.seq, a.1, a.2⟩ } := by
  simp only [State.carryOut, hb, State.placeReply, hc]

/-- A command that goes on executing (R8). -/
theorem carryOut_silent (s t : State) (p : Port) (body : CommandBody) (hb : body s = (t, none)) :
    s.carryOut p body = t := by
  simp only [State.carryOut, hb]

/-- The reply of a dispatched command completes the port's record. -/
theorem dispatched_reply (s : State) (p : Port) (code seq : Byte) (a : Answer) (h : (s.port p).command = none) :
    { s.dispatched p code seq with command := none, reply := some ⟨replyCode code, seq, a.1, a.2⟩ } =
      s.answered p code seq a := by
  simp [State.dispatched, State.answered, replyCode, h]

/-- On a serving port, a command that changes nothing but is answered: the port's record alone differs. -/
theorem takeFrame_answered (s : State) (p : Port) (code seq : Byte) (body : CommandBody) (a : Answer)
    (h : s.serving p = true)
    (hb : body (s.setPort p (s.dispatched p code seq)) = (s.setPort p (s.dispatched p code seq), some a)) :
    s.takeFrame p code seq body = s.setPort p (s.answered p code seq a) := by
  obtain ⟨_, _, hc⟩ := (serving_iff s p).1 h
  rw [takeFrame_serving s p code seq body h, carryOut_answer _ _ p body a ⟨code, seq⟩ hb]
  · rw [State.setPort_setPort, State.setPort_port, if_pos rfl, dispatched_reply s p code seq a hc]
  · simp [State.dispatched]

/-- A command whose port's authority is below its group is refused (R43). -/
theorem judged_low (p : Port) (needed : Authority) (form : Bool) (body : CommandBody) (s : State)
    (h : (s.port p).authority.rank < needed.rank) : judged p needed form body s = (s, some (.notPermitted, [])) := by
  simp [judged, h, refuse]

/-- A permitted command of no form it has is INVALID (R175, R177). -/
theorem judged_formless (p : Port) (needed : Authority) (body : CommandBody) (s : State)
    (h : ¬ (s.port p).authority.rank < needed.rank) : judged p needed false body s = (s, some (.invalid, [])) := by
  simp [judged, h, refuse]

/-- A permitted command of a form it has goes to its own rule. -/
theorem judged_passes (p : Port) (needed : Authority) (body : CommandBody) (s : State)
    (h : ¬ (s.port p).authority.rank < needed.rank) : judged p needed true body s = body s := by
  simp [judged, h]

/-- A port that hears frames is not DISABLED. -/
theorem enabled_of_hears (s : State) (p : Port) (h : s.hears p = true) : (s.port p).enabled = true := by
  simp only [State.hears, Bool.and_eq_true] at h
  exact h.2

end Sys2Proof.Machine
end

