-- ==== Sys2Proof/Laws/Records.lean ====
section
/-! SUPPORT. The reply records read as R176 lays them out. -/

namespace Sys2Proof.Machine

theorem secondsBytes_eq (now : Nat) (d : Option Nat) : secondsBytes now d = leftBytes now d := by
  unfold secondsBytes leftBytes remaining
  cases d with
  | none => rfl
  | some d => rfl

/-- R31: the remaining expiry an entry is listed with. -/
theorem Entry.secondsLeft_eq (e : Entry) (now : Nat) : e.secondsLeft now = match e.expiry with
    | none => 0
    | some d => if d ≤ now then 1 else (d - now + 999) / 1000 := by
  unfold Entry.secondsLeft remaining
  cases e.expiry with
  | none => rfl
  | some d => simp only [Option.isSome_some, if_true]; split <;> omega

/-- R31: a listed entry with an expiry never reads 0. -/
theorem Entry.secondsLeft_pos (e : Entry) (now : Nat) (h : e.expiry.isSome = true) : 0 < e.secondsLeft now := by
  unfold Entry.secondsLeft
  rw [if_pos h]
  omega

theorem optByte_eq (x : Option Nat) : optByte x = orFF x := by cases x <;> rfl
theorem flagByte_eq (b : Bool) : flagByte b = yes b := rfl

theorem planElemBytes_eq {α : Type} (now : Nat) (code : α → Nat) (x : Option (PlanElem α)) :
    planElemBytes now code x = shownBytes now (fun v => byte (code v)) x := by
  rcases x with _ | ⟨v, d, h⟩
  · rfl
  · unfold planElemBytes shownBytes
    dsimp only
    rw [secondsBytes_eq]
    cases v <;> cases h <;> rfl

theorem laneElemBytes_eq (now : Nat) (x : Option LaneElem) : laneElemBytes now x = lanePlaceBytes now x := by
  rcases x with _ | ⟨v, d, h, q, u⟩
  · rfl
  · unfold laneElemBytes lanePlaceBytes
    dsimp only
    rw [secondsBytes_eq]
    rcases v with k | a
    · cases k <;> cases h <;> cases q <;> cases u <;> rfl
    · cases a <;> cases h <;> cases q <;> cases u <;> rfl

theorem planRecord_eq (s : State) (i : Nat) : s.planRecord i = planRecordBytes s i := by
  unfold State.planRecord PlanSite.bytes planRecordBytes
  simp only [planElemBytes_eq, laneElemBytes_eq, optByte_eq]
  have hk : orFF ((if i = Config.exitIndex then none else (s.store.site i).map (·.kind)).map SiteKind.code) =
      if i = 32 then 0xFF else orFF ((s.store.site i).map fun r => match r.kind with
        | .gantry _ _ => 0
        | .verge => 1
        | .message => 2) := by
    show orFF ((if i = 32 then none else _).map _) = _
    split
    · rfl
    · rw [Option.map_map]
      cases s.store.site i with
      | none => rfl
      | some r =>
        show orFF (some (SiteKind.code r.kind)) = _
        cases hk : r.kind <;> simp [hk, SiteKind.code]
  have hl : (fun l : Limit => byte (limitCode l)) = fun l : Limit => byte ((l.map (· / 10)).getD 0) := by
    funext l
    cases l <;> rfl
  rw [hk, hl]
  rfl

theorem elemBytes_eq (u : UnitRec) (e : ElemId) :
    elemBytes (u.elements.find? fun x => decide (x.name = e)) = elementPlaceBytes u e := by
  unfold elementPlaceBytes
  cases u.elements.find? fun x => decide (x.name = e) with
  | none => rfl
  | some x =>
    unfold elemBytes
    dsimp only
    rw [optByte_eq]
    congr 3
    obtain ⟨n, r, m, a⟩ := x
    unfold ElemRec.effective
    cases m <;> rcases r with _ | r <;> cases a <;> simp [MismatchMark.isSet] <;> rfl

theorem unitBytes_eq (u : UnitRec) (slot : Nat) : u.bytes slot = unitRecordBytes u slot := by
  unfold UnitRec.bytes unitRecordBytes elementPlaces
  simp only [elemBytes_eq]
  cases u.owner <;> rfl

theorem stationRecord_eq (s : State) (x : Station) : s.stationRecord x = stationRecordBytes s x := by
  unfold State.stationRecord stationRecordBytes Station.laneBytes LaneRec.bytes lanePlaces
  simp only [optByte_eq, secondsBytes_eq]
  congr 1
  · congr 2
    congr 1
    unfold entryItem
    rw [show qpSlot x.slot = 48 + x.slot from rfl]
    cases s.table.inSlot (48 + x.slot) with
    | none => rfl
    | some e => simp [optByte_eq]
  · refine List.flatMap_congr fun j _ => ?_
    cases x.lanes[j]? with
    | none => rfl
    | some l =>
      have : reportedSpeed = fun y => (y + 8) / 16 := by
        funext y
        unfold reportedSpeed roundedDiv
        omega
      rw [← this]

/-! ## READ_ENTRIES and READ_DELIVERY -/

/-- The sum that a byte of flags over places is. -/
theorem bitsByte_eq (bs : List Bool) : bitsByte bs = byte ((bs.mapIdx fun j b => if b then 2 ^ j else 0).sum) := by
  unfold bitsByte
  congr 1
  induction bs with
  | nil => rfl
  | cons b bs ih =>
    have dbl : ∀ (xs : List Bool) (k : Nat), (xs.mapIdx fun j b => if b then 2 ^ (j + k + 1) else 0).sum =
        2 * (xs.mapIdx fun j b => if b then 2 ^ (j + k) else 0).sum := by
      intro xs
      induction xs with
      | nil => intro k; rfl
      | cons x xs ih =>
        intro k
        simp only [List.mapIdx_cons, List.sum_cons, Nat.zero_add]
        have := ih (k + 1)
        simp only [Nat.add_comm, Nat.add_left_comm] at this ⊢
        rw [this]
        cases x <;> simp [Nat.pow_succ, Nat.pow_add] <;> omega
    rw [List.foldr_cons, ih, List.mapIdx_cons, List.sum_cons]
    have := dbl bs 0
    simp only [Nat.add_zero] at this
    rw [this]
    cases b <;> simp

theorem Requester.code_byte (q : Requester) : byte q.code = match q with
    | .port .a => 0
    | .port .b => 1
    | .port .c => 2
    | .qp => 3 := by
  rcases q with p | _
  · cases p <;> rfl
  · rfl

theorem entryRecord_eq (s : State) (e : Entry) : s.entryRecord e = entryRecordBytes s e := by
  have hp : e.ask.partsByte = byte (partBits e.ask) := by
    unfold Ask.partsByte partBits
    cases e.ask.limit <;> cases e.ask.closure <;> cases e.ask.legend <;> cases e.ask.shoulderOpen <;> rfl
  have hc : e.ask.closureByte = byte (((List.range 6).map fun l => if l ∈ e.ask.closure.getD [] then 2 ^ l else 0).sum) := by
    unfold Ask.closureByte
    rw [bitsByte_eq]
    simp [lanePlaces, List.range_succ, List.mapIdx_cons]
  have hd : byte e.ask.policy.code = if e.ask.policy = .hold then 0 else 1 := by cases e.ask.policy <;> rfl
  have hs : byte e.state.code = if e.state = .active then 0 else 1 := by cases e.state <;> rfl
  unfold State.entryRecord entryRecordBytes
  rw [hp, hc, hd, hs, e.secondsLeft_eq, Requester.code_byte]
  rfl

theorem contains_has (r : SiteRecord) (e : ElemId) : r.elements.contains e = r.has e := by
  rw [Bool.eq_iff_iff, List.contains_iff_mem]
  unfold SiteRecord.elements SiteRecord.has
  simp only [List.mem_append, List.mem_map]
  cases e with
  | limit => cases r.kind <;> simp [SiteKind.hasLimit]
  | lane l =>
    have : ∀ b : Bool, ElemId.lane l ∉ if b then [ElemId.limit] else [] := by intro b; cases b <;> simp
    have h2 : ∀ b : Bool, ElemId.lane l ∉ if b then [ElemId.legend] else [] := by intro b; cases b <;> simp
    simp only [this, h2, false_or, or_false, ElemId.lane.injEq, exists_eq_right]
    rw [mem_positions]
    cases r.kind <;> simp [SiteKind.Present, LanePresent]
  | legend => cases r.kind <;> cases r.sign <;> simp [SiteKind.hasLimit]

theorem imageBytes_eq (r : SiteRecord) (unset : Byte) (m : Image) : imageBytes r.elements unset m = eightBytes r unset m := by
  unfold imageBytes eightBytes
  refine List.map_congr_left fun e he => ?_
  rw [contains_has]
  split
  · cases m.lookup e with
    | none => rfl
    | some v => rcases v with l | a | g
                · cases l <;> rfl
                · cases a <;> rfl
                · rfl
  · rfl

theorem partBytes_eq (k : PartKind) (p : Option Part) : partBytes k p = partPlaceBytes (byte k.code) p := by
  cases p with
  | none => rfl
  | some p =>
    unfold partBytes partPlaceBytes Part.elementsByte
    dsimp only
    rw [bitsByte_eq (elementPlaces.map _), bitsByte_eq]
    cases p.state <;> cases p.queued <;> by_cases h : p.resends = 1 <;>
      simp [h, elementPlaces, eightPlaces, lanePlaces, List.range_succ, List.mapIdx_cons] <;> rfl

theorem deliveryRecord_eq (d : DeliverySite) (i : Nat) (r : SiteRecord) : d.bytes i r = deliveryRecordBytes d i r := by
  unfold DeliverySite.bytes deliveryRecordBytes
  have hf : d.firstPlace = if d.darkening.isSome then partPlaceBytes 2 d.darkening else partPlaceBytes 0 d.tightening := by
    unfold DeliverySite.firstPlace
    simp only [partBytes_eq]
    cases d.darkening <;> rfl
  have hb : ∀ x y z : Bool, bitsByte [x, y, z] =
      byte ((if x then 1 else 0) + (if y then 2 else 0) + (if z then 4 else 0)) := by decide
  have hk : byte r.kind.code = match r.kind with
      | .gantry _ _ => 0
      | .verge => 1
      | .message => 2 := by cases r.kind <;> rfl
  simp only [imageBytes_eq, partBytes_eq, optByte_eq, hf, hb, hk]
  rfl

/-- R160 and R176: the payload, the epoch and count of a last completion of none being the free value of log entry 4. -/
theorem deliveryBytes_eq (s : State) (listed : List Nat) :
    s.deliveryBytes listed = deliveryPayload s (be32 (Config.noCompletion s.drawn).toNat) listed := by
  unfold State.deliveryBytes deliveryPayload
  have ht : ∀ t : Target, byte t.code = match t with
      | .plan => 0
      | .dark => 1 := by intro t; cases t <;> rfl
  have hs : byte s.delivery.state.code = match s.delivery.state with
      | .suppressed => 0
      | .delivering => 1
      | .done => 2 := by cases s.delivery.state <;> rfl
  have hc : completionBytes s.drawn s.delivery.completion = match s.delivery.completion with
      | none => 0xFF :: be32 (Config.noCompletion s.drawn).toNat
      | some c => (match c.target with
        | .plan => 0
        | .dark => 1) :: (be16 c.epoch ++ be16 c.abandoned) := by
    unfold completionBytes
    cases s.delivery.completion with
    | none => rfl
    | some c => dsimp only; rw [ht]
  have hp : ∀ k, s.delivery.pendingCount k = pendingSites s (·.part k) := by
    intro k
    unfold Delivery.pendingCount pendingSites
    rfl
  have hr : s.deliveryRecord = fun i =>
      (((s.site i).bind fun d => (s.store.site i).map fun r => deliveryRecordBytes d i r)).getD [] := by
    funext i
    unfold State.deliveryRecord
    cases s.site i <;> cases s.store.site i <;> simp [deliveryRecord_eq]
  rw [ht, hs, hc, hp, hp, hp, hr, optByte_eq]
  rfl

end Sys2Proof.Machine
end

