-- ==== Sys2Proof/Laws/Sample.lean ====
section
/-! SUPPORT. What one lane, one sample and the station machine do, as R84 to R100 state it. -/

namespace Sys2Proof.Machine

/-- A difference of two readings of a counter that wraps (R85, R86). -/
theorem wrapped_eq_difference (m x y : Nat) (hm : 0 < m) : wrapped m x y = difference m x y := by
  unfold wrapped difference
  have h1 : y % m < m := Nat.mod_lt _ hm
  have h2 : ((x : Int) - y) % m = ((x + m - y % m : Nat) : Int) % m := by
    rw [Nat.cast_sub (by omega)]
    push_cast
    have : (x : Int) + m - y % m = (x - y) + m * (y / m + 1) := by
      have := Int.emod_add_mul_ediv (y : Int) m
      linarith
    rw [this, Int.add_mul_emod_self_left]
  rw [h2, ← Int.natCast_mod, Int.toNat_natCast]

/-- R88: the stuck state and the span after a sample. -/
theorem stuckAfter_rule (l x : LaneRec) (occ n t limit : Nat)
    (h : stuckAfter l.stuck l.span occ n t limit = (x.stuck, x.span)) : StuckRule l x occ n t (limit * 1000) := by
  unfold stuckAfter at h
  constructor
  · intro hs ho; simp only [hs, if_true, Prod.mk.injEq] at h; simpa [ho] using h.1.symm
  · intro hs ho
    simp only [hs, if_true, Prod.mk.injEq] at h
    exact ⟨by rw [← h.1]; simpa using ho, h.2.symm⟩
  · intro hs ho hn
    simp only [hs, Bool.false_eq_true, if_false, ho, hn, and_self, if_true] at h
    split at h <;> simp only [Prod.mk.injEq] at h <;> obtain ⟨h1, h2⟩ := h <;> simp [← h1, ← h2] <;> omega
  · intro hs ho
    simp only [hs, Bool.false_eq_true, if_false] at h
    rw [if_neg (by omega)] at h
    simp only [Prod.mk.injEq] at h
    exact ⟨h.1.symm, h.2.symm⟩

/-- R92: one step of a smoothed speed. -/
theorem smooth_rule (k : Nat) (before : Option Nat) (v : Nat) : Smoothed k before v (smooth k before v) := by
  unfold Smoothed smooth
  cases before with
  | none => rfl
  | some y =>
    have hp : 0 < 2 ^ k := Nat.pos_of_ne_zero (by positivity)
    dsimp only
    rcases Nat.lt_trichotomy y (16 * v) with h | h | h
    · rw [if_pos h]
      have hd : (16 * v : Int) - y = ((16 * v - y : Nat) : Int) := by omega
      rw [hd, show ((2 : Int) ^ k) = ((2 ^ k : Nat) : Int) by push_cast; rfl, ← Int.ofNat_tdiv]
      have hs : Int.sign ((16 * v - y : Nat) : Int) = 1 := Int.sign_eq_one_of_pos (by omega)
      rw [hs]
      generalize (16 * v - y) / 2 ^ k = q
      split <;> rename_i h0 <;> omega
    · subst h; simp
    · rw [if_neg (by omega), if_pos h]
      have hd : (16 * v : Int) - y = -((y - 16 * v : Nat) : Int) := by omega
      rw [hd, show ((2 : Int) ^ k) = ((2 ^ k : Nat) : Int) by push_cast; rfl, Int.neg_tdiv, ← Int.ofNat_tdiv]
      have hs : Int.sign (-((y - 16 * v : Nat) : Int)) = -1 := Int.sign_eq_neg_one_of_neg (by omega)
      rw [hs]
      have : (y - 16 * v) / 2 ^ k ≤ y - 16 * v := Nat.div_le_self _ _
      generalize (y - 16 * v) / 2 ^ k = q at *
      split <;> rename_i h0 <;> omega

/-- The standing is valid only without a cause of invalidity (R89). -/
theorem standingOf_valid (f : LoopFault) (stuck data contact : Bool) :
    standingOf f stuck data contact = .valid ↔ f = .ok ∧ stuck = false ∧ data = true ∧ contact = true := by
  cases f <;> cases stuck <;> cases data <;> cases contact <;> decide

/-- R91: what a valid lane that is not chattering gives. -/
theorem sampleSpeed_rule (r : StationRecord) (trim : Int) (stopOcc occ n o sum : Nat) (x : LaneSample)
    (h : sampleSpeed r.loop stopOcc ((r.effective : Int) + trim).toNat occ n o sum = (x.gave, x.stopped)) :
    SpeedRule r trim stopOcc occ n o sum x := by
  unfold sampleSpeed roundedDiv at h
  constructor
  · intro hs; rw [if_pos hs] at h; simp only [Prod.mk.injEq] at h; exact ⟨h.1.symm, h.2.symm⟩
  · intro hs
    rw [if_neg (by omega)] at h
    split at h
    · simp only [Prod.mk.injEq] at h; exact h.2.symm
    · split at h <;> simp only [Prod.mk.injEq] at h <;> exact h.2.symm
  · intro hs hn; rw [if_neg (by omega), if_pos hn] at h; simp only [Prod.mk.injEq] at h; exact h.1.symm
  · intro hs hn hl; rw [if_neg (by omega), if_neg hn, hl] at h; simp only [Prod.mk.injEq] at h; exact h.1.symm
  · intro hs hn hl ho; rw [if_neg (by omega), if_neg hn, hl] at h; simp only [Prod.mk.injEq, ho, if_true] at h; exact h.1.symm
  · intro hs hn hl ho; rw [if_neg (by omega), if_neg hn, hl] at h; simp only [Prod.mk.injEq, ho, if_false] at h; exact h.1.symm

/-- R86 to R92: a lane with a baseline and data. -/
theorem sampleLane_sampled (ps : Params) (r : StationRecord) (t : Nat) (trim : Int) (ex : Bool) (l : LaneRec)
    (d : LaneData) (b : LaneTotals) (hb : l.baseline = some b) :
    LaneSampled ps r t trim ex l d b (sampleLane ps r t trim ex l (some d)) := by
  have e1 := wrapped_eq_difference 65536 d.totals.count b.count (by decide)
  have e2 := wrapped_eq_difference 4294967296 d.totals.occupancy b.occupancy (by decide)
  have e3 := wrapped_eq_difference 4294967296 d.totals.speedSum b.speedSum (by decide)
  have hocc : ∀ o : Nat, occupancyOf (min t o) t = min t o * 1000 / t := by
    intro o; unfold occupancyOf; rw [Nat.min_eq_left (Nat.min_le_left _ _)]
  unfold sampleLane
  rw [hb]
  dsimp only
  rw [e1, e2, e3]
  constructor
  · exact ⟨rfl, rfl, rfl⟩
  · dsimp only; rw [hocc]
  · intro occ h
    dsimp only at h
    cases h
    exact stuckAfter_rule _ _ _ _ _ _ rfl
  · dsimp only; rw [standingOf_valid]; simp
  · simp
  · intro hv hc occ ho
    dsimp only at hv hc ho ⊢
    cases ho
    refine sampleSpeed_rule _ _ _ _ _ _ _ _ ?_
    dsimp only
    rw [if_pos ⟨hv, hc⟩]
  · intro hv
    dsimp only at hv ⊢
    rw [if_neg (by rintro ⟨h1, h2⟩; rcases hv with h | h <;> simp_all)]
    exact ⟨rfl, rfl⟩
  · intro hv; dsimp only at hv ⊢; rw [if_pos hv]
  · intro hv hx hg
    dsimp only at hv hx hg ⊢
    rw [if_neg (by simp [hv, hx]), hg]
  · intro hv hx v hg
    dsimp only at hv hx hg ⊢
    rw [if_neg (by simp [hv, hx]), hg]
    exact ⟨_, rfl, smooth_rule _ _ _⟩

/-- R84 and R89: a lane without data or without a baseline. -/
theorem sampleLane_unsampled (ps : Params) (r : StationRecord) (t : Nat) (trim : Int) (ex : Bool) (l : LaneRec)
    (data : Option LaneData) (h : data = none ∨ l.baseline = none) :
    LaneUnsampled ex l data (sampleLane ps r t trim ex l data) := by
  have e : sampleLane ps r t trim ex l data = ⟨l.rebaseline data ex, none, false, false⟩ := by
    unfold sampleLane
    split
    · simp_all
    · rfl
  rw [e]
  refine ⟨⟨rfl, rfl, rfl⟩, ⟨rfl, rfl, ?_, rfl, rfl⟩, by cases data <;> rfl⟩
  show (LaneRec.rebaseline l data ex).standing ≠ _
  unfold LaneRec.rebaseline
  dsimp only
  intro hv
  rw [standingOf_valid] at hv
  simp at hv

/-- R86 to R92. -/
theorem laneRule : LaneRule := fun ps r t trim ex l data =>
  ⟨fun d b hd hb => hd ▸ sampleLane_sampled ps r t trim ex l d b hb, sampleLane_unsampled ps r t trim ex l data⟩

/-- The lowest of some speeds is a least member. -/
theorem lowest_of_least (l : List Nat) (y : Nat) (hy : y ∈ l) (h : ∀ z ∈ l, y ≤ z) : lowest l = some y := by
  have hf : ∀ (l : List Nat) (a : Nat), (∀ z ∈ l, y ≤ z) → y ≤ a → (y = a ∨ y ∈ l) → l.foldl min a = y := by
    intro l
    induction l with
    | nil => intro a _ ha h; rcases h with h | h; exact h.symm; cases h
    | cons b l ih =>
      intro a hl ha h
      have hb := hl b (by simp)
      refine ih _ (fun z hz => hl z (by simp [hz])) (by omega) ?_
      rcases h with h | h
      · left; omega
      · rcases List.mem_cons.1 h with h | h
        · left; omega
        · right; exact h
  cases l with
  | nil => cases hy
  | cons a l =>
    show some (l.foldl min a) = some y
    rw [hf l a (fun z hz => h z (by simp [hz])) (h a (by simp)) (by simpa using hy)]

/-- R93. -/
theorem sampleRule : SampleRule := by
  intro lanes
  have hc : ∀ x, x ∈ lanes.filter (fun x => x.lane.counts) ↔ x ∈ lanes ∧ x.lane.standing = .valid ∧ x.lane.excluded = false := by
    intro x; simp [LaneRec.counts]
  have hm : ∀ y, y ∈ (lanes.filter fun x => x.lane.counts).filterMap LaneSample.speed ↔
      ∃ x, (x ∈ lanes ∧ x.lane.standing = .valid ∧ x.lane.excluded = false) ∧ x.gave ≠ none ∧
        x.lane.smoothed = some y := by
    intro y
    rw [List.mem_filterMap]
    constructor
    · rintro ⟨x, hx, he⟩
      refine ⟨x, (hc x).1 hx, ?_⟩
      unfold LaneSample.speed at he
      split at he
      · cases he
      · exact ⟨by simp [*], he⟩
    · rintro ⟨x, hx, hg, hs⟩
      refine ⟨x, (hc x).2 hx, ?_⟩
      obtain ⟨v, hv⟩ := Option.ne_none_iff_exists'.1 hg
      rw [LaneSample.speed, hv, hs]
  dsimp only
  refine ⟨?_, ?_, ?_, ?_, ?_⟩
  · unfold sampleOf
    dsimp only
    rw [Bool.not_eq_true', List.isEmpty_eq_false_iff_exists_mem]
    exact exists_congr hc
  · unfold sampleOf
    dsimp only
    rw [List.any_eq_true]
    exact exists_congr fun x => by rw [hc]
  · intro h
    unfold sampleOf at h ⊢
    dsimp only at h ⊢
    rw [if_pos h]
  · intro h hg
    unfold sampleOf at h ⊢
    dsimp only at h ⊢
    rw [if_neg (by simp [h])]
    have : ∀ y, y ∉ (lanes.filter fun x => x.lane.counts).filterMap LaneSample.speed := by
      intro y hy
      obtain ⟨x, hx, h1, _⟩ := (hm y).1 hy
      exact h1 (hg x hx)
    rw [List.eq_nil_iff_forall_not_mem.2 this]
    rfl
  · intro h x y hx hg hs hl
    unfold sampleOf at h ⊢
    dsimp only at h ⊢
    rw [if_neg (by simp [h]), lowest_of_least _ y ((hm y).2 ⟨x, hx, hg, hs⟩)]
    · simp only [Option.map_some, reportedSpeed, roundedDiv]
      congr 1
      omega
    · intro z hz
      obtain ⟨w, hw, h1, h2⟩ := (hm z).1 hz
      exact hl w hw h1 z h2

/-- R98 and R100: the entry to BLIND and the return from it. -/
theorem judge_blind (x : Station) (ps : Params) (now : Nat) (m : Sample) : BlindRule x ps now m (x.judge ps now m) := by
  constructor
  · intro hu hb
    simp [Station.judge, hu, Station.goBlind, hb]
  · intro hu hb
    simp only [Station.judge, hu, Bool.not_false, if_true]
    unfold Station.goBlind
    split
    · exact absurd ‹_› hb
    · rfl
  · intro hu hb d st hd hr hn
    simp only [Station.judge, hu, Bool.not_true, Bool.false_eq_true, if_false, hb]
    unfold Station.leaveBlind
    have : ranOut now x.faultHold = false := by rw [hd]; simp [ranOut]; omega
    simp [this, hr, Station.enter, Station.entered]
  · intro hu hb d hd hn
    simp only [Station.judge, hu, Bool.not_true, Bool.false_eq_true, if_false, hb]
    unfold Station.leaveBlind
    have : ranOut now x.faultHold = true := by rw [hd]; simp [ranOut]; omega
    simp [this, Station.enter, Station.entered]

/-- R94 to R97. -/
theorem judge_machine (x : Station) (ps : Params) (now : Nat) (m : Sample) : MachineRule x ps now m (x.judge ps now m) := by
  have cr : ∀ n, countRaise n = min (n + 1) 60 := fun _ => rfl
  constructor
  · intro hu hb hs
    simp only [Station.judge, hu, Bool.not_true, Bool.false_eq_true, if_false]
    split
    · exact absurd ‹_› hb
    · simp [Station.judgeFree, hs]
    · simp [Station.judgeQueue, Station.offAfter, Station.stopAfter, hs]
    · simp [Station.judgeQueue, Station.offAfter, Station.stopAfter, hs]
  · intro hu hb v hs hv
    simp only [Station.judge, hu, Bool.not_true, Bool.false_eq_true, if_false, hb, Station.judgeFree, hs]
    rw [if_neg (by omega)]
  · intro hu hb v hs hv
    simp only [Station.judge, hu, Bool.not_true, Bool.false_eq_true, if_false, hb, Station.judgeFree, hs]
    rw [if_pos hv, cr]
    refine ⟨fun h => ?_, fun h => ?_⟩
    · rw [if_neg (by omega)]
    · rw [if_pos h]; rfl
  · intro hu hb v hs
    have hj : x.judge ps now m = x.judgeQueue ps now m := by
      rcases hb with h | h <;> simp [Station.judge, hu, h]
    rw [hj]
    have hmin : x.minHoldOver now = true ↔ ∀ d, x.minHold = some d → d ≤ now := by
      unfold Station.minHoldOver
      split <;> rename_i h <;> simp [h]
    unfold Station.judgeQueue Station.offAfter Station.stopAfter
    rw [hs]
    simp only [cr]
    by_cases hc : paramValue ps .alertOff ≤ v
    · simp only [if_pos hc]
      by_cases ht : m.stopped = decide (x.state = .queue)
      · simp only [if_pos ht]
        refine ⟨?_, ?_, ?_⟩
        · rintro ⟨_, h1, h2⟩
          rw [if_pos (by simp [h1, hmin.2 h2])]; rfl
        · intro hn _ h2
          rw [if_neg (by simpa [hmin, hc] using hn), if_pos (by simpa [Config.stopCount] using h2)]; rfl
        · intro hn h2
          rw [if_neg (by simpa [hmin, hc] using hn), if_neg (by simpa [Config.stopCount, ht] using h2)]
      · simp only [if_neg ht]
        refine ⟨?_, ?_, ?_⟩
        · rintro ⟨_, h1, h2⟩
          rw [if_pos (by simp [h1, hmin.2 h2])]; rfl
        · intro hn h1; exact absurd h1 ht
        · intro hn h2
          rw [if_neg (by simpa [hmin, hc] using hn), if_neg (by simp)]
    · simp only [if_neg hc]
      by_cases ht : m.stopped = decide (x.state = .queue)
      · simp only [if_pos ht]
        refine ⟨fun h => absurd h.1 hc, ?_, ?_⟩
        · intro hn _ h2
          rw [if_neg (by simp), if_pos (by simpa [Config.stopCount] using h2)]; rfl
        · intro hn h2
          rw [if_neg (by simp), if_neg (by simpa [Config.stopCount, ht] using h2)]
      · simp only [if_neg ht]
        refine ⟨fun h => absurd h.1 hc, fun _ h => absurd h ht, ?_⟩
        intro hn h2
        rw [if_neg (by simp), if_neg (by simp)]

/-- R94 to R98 and R100. -/
theorem machineRules : MachineRules := fun x ps now m => ⟨judge_blind x ps now m, judge_machine x ps now m⟩

end Sys2Proof.Machine
end

