-- ==== Sys2Proof/Tests/Slice0.lean ====
section
/-! SUPPORT. Tests on the spec's own worked values, the smoke test of WellFormed, and the states the witnesses use. -/

set_option Elab.async false

namespace Sys2Proof.Tests

open Sys2Proof.Machine

/-! ## States -/

/-- The state a command leaves. -/
def after (i : Instr) (s : State) : State :=
  match exec i s with
  | .next t => t
  | _ => s

/-- The usual cabinet with its ports ready: A SUPERVISORY, B FIELD, C MONITOR. -/
def ready : State := { State.reset with phase := .ready }

/-- Site 0: a gantry of two lanes with a shoulder and a message sign. -/
def site0 : List Byte := [0, 2, 1, 1, 2, 88, 1, 1]
/-- Site 1: the same without a message sign, line 1 address 2. -/
def site1 : List Byte := [0, 2, 1, 0, 2, 88, 1, 2]
/-- Station 0: site 0, offset 150 m, line 2 address 1, SINGLE, lanes 1 and 2. -/
def station0 : List Byte := [0, 0, 150, 2, 1, 0, 2, 1, 2, 0, 0, 0, 0, 0xFF, 0, 0, 0, 0, 0, 0, 0]

/-- A reply read, so that a port's slot is empty. -/
def readAll (p : Port) (s : State) : State := after (.readTransaction p 250) s

/-- Sites written from port A. -/
def sited : State := after (.geometryWrite .a 1 (0 :: (site0 ++ site1))) ready
/-- Sites, a station and the boundary written. -/
def drafted : State :=
  readAll .a (after (.boundaryWrite .a 3 [2, 1]) (after (.stationWrite .a 2 (0 :: station0)) sited))
/-- A COMMIT under validation. -/
def validating : State := after (.commit .a 4 []) drafted
/-- The section committed. -/
def shadowed : State := readAll .a (after .commitValidationEnd validating)
/-- The same in LIVE. -/
def live : State := { shadowed with mode := .live }
/-- A REQUEST of port B: tag 5, site 0, limit 85. -/
def limit85 : List Byte := [5, 0, 0, 1, 85, 0, 0, 0, 0, 30]
/-- LIVE with that entry stored. -/
def tabled : State := readAll .b (after (.request .b 9 limit85) live)
/-- Line 1 quiet, about to poll. -/
def quiet : State := after (.lineQuiet .one []) live
/-- The poll of address 1 sent, its window open. -/
def polled : State := after (.frameSent .one) (after (.frameStart .one) quiet)
/-- The STATE of the sign at address 1: shoulder CLOSED, lanes OPEN, all faults OK, boot 17. -/
def state1 : List Byte := fieldFrame 1 kindState [17, 0, 0, 4, 1, 1, 0, 0, 0, 0, 0, 0, 0, 0, 0, 0, 0, 0]
/-- An image with limit 60. -/
def tight : SetCommand := ⟨0, .tightening, [(.limit, .limit (some 60))], 3, false⟩
/-- Line 1 quiet with a tightening SET command for site 0. -/
def setQueued : State := quiet.setLine .one { quiet.line .one with queue := [tight] }

/-- LIVE with every unit UP. -/
def up : State := { live with units := live.units.map fun u => { u with state := .up } }

/-- LIVE with a limit of site 0 held until 60 s, at 60 s. -/
def held : State := { live with
  now := 60000
  evaluator := { live.evaluator with
    pending := false
    plan := [⟨some ⟨.value (some 60), some 60000, false⟩, [], none⟩] } }
/-- The station of the section with some of its record replaced. -/
def withStation (f : Station → Station) : State := { live with now := 9000, stations := live.stations.map f }
/-- A queue image over site 0. -/
def queueImage : QpImage := ⟨0, 0, 60⟩
/-- A BLIND station that remembers a queue whose entry stands, its fault hold run out. -/
def blind : State :=
  let s := withStation fun x =>
    { x with state := .blind, remembered := some .queue, faultHold := some 9000, handed := some queueImage }
  s.changeTable { s.table with entries := [⟨48, .qp, 0, queueImage.ask, none, 0, .active⟩] }
/-- A station whose inhibit has run out. -/
def inhibited : State := withStation fun x => { x with inhibit := some 9000 }
/-- Line 1 jammed at 50 ms, three poll cycles ago. -/
def jammed : State :=
  { after (.lineJam .one) { after (.lineActivity .one) quiet with now := 50 } with now := 1550 }
/-- Line 1 with its first poll cycle over and its list empty. -/
def drained : State :=
  { live with now := 500 }.setLine .one { live.line .one with cycle := some ⟨0, 500, 0, [], some 500⟩ }

/-! ## WellFormed smoke: each check refuses an ill-formed term -/

/-- A payload too long for a frame. -/
def tooLong : List Byte := List.replicate 241 0

theorem smoke_void : wellFormed (.voidTransaction .a [0x3C]) = false := by decide +kernel
theorem smoke_badFrame : wellFormed (.badFrame .a (0 :: 2 :: 7 :: crcBytes [0, 2, 7])) = false := by decide +kernel
theorem smoke_unknown : wellFormed (.unknownCommand .a 0x01 0 []) = false := by decide +kernel
theorem smoke_payload : wellFormed (.status .a 0 tooLong) = false := by decide +kernel
theorem smoke_withdraw : wellFormed (.withdraw .a 0 []) = false := by decide +kernel
theorem smoke_setModeLive : wellFormed (.setModeLive .a 0 [1]) = false := by decide +kernel
theorem smoke_setModeShadow : wellFormed (.setModeShadow .a 0 [2]) = false := by decide +kernel
theorem smoke_entryExpiry : wellFormed (.entryExpiry 48) = false := by decide +kernel
theorem smoke_faultHold : wellFormed (.faultHoldExpiry 16) = false := by decide +kernel
theorem smoke_inhibit : wellFormed (.inhibitExpiry 16) = false := by decide +kernel
theorem smoke_lineQuiet : wellFormed (.lineQuiet .one (List.replicate 262 0)) = false := by decide +kernel
theorem smoke_validReply : wellFormed (.validReply .one (List.replicate 262 0)) = false := by decide +kernel
theorem smoke_replyFrameError : wellFormed (.replyFrameError .one (List.replicate 262 0)) = false := by decide +kernel
theorem smoke_falseActivity : wellFormed (.falseActivity .one []) = false := by decide +kernel

/-! ## Worked values of the spec -/

/-- R172. -/
theorem test_crc_check_value : crc [0x31, 0x32, 0x33, 0x34, 0x35, 0x36, 0x37, 0x38, 0x39] = 0x29B1 := by
  decide +kernel
/-- R21's table for N = 8. -/
theorem test_range_table :
    [(3, 5), (5, 3), (5, 20), (5, 32), (32, 32), (9, 12), (0, 40)].map (fun x => rangeGood 8 x.1 x.2) =
      [true, false, true, true, true, false, false] := by decide +kernel
/-- R23's limits. -/
theorem test_limit_clamp : [85, 15, 0, 200, 120].map clampLimit = [80, 20, 20, 120, 120] := by decide +kernel
/-- R13's values. -/
theorem test_param_clamp :
    [clampParam .step 25, clampParam .step 5, clampParam .ceiling 130, clampParam .mergeSpeed 65,
      clampParam .qpCover 200] = [20, 10, 120, 60, 300] := by decide +kernel
/-- Section 5.11's smoothing and reported speeds. -/
theorem test_smoothing :
    [smooth 2 (some 1520) 75, smooth 2 (some 1207) 75, smooth 2 (some 1197) 75, smooth 2 (some 1199) 75,
      reportedSpeed 1440, reportedSpeed 1207] = [1440, 1206, 1198, 1200, 90, 75] := by decide +kernel
/-- Section 5.11's sample: SINGLE, 3 vehicles in 800 ms of occupancy over 56 dm. -/
theorem test_sample_speed : sampleSpeed .single 850 56 (occupancyOf 800 2000) (wrapped 65536 1 65534) 800 0 =
    (some 75, false) := by decide +kernel
/-- R71's gantry of three lanes with a closed shoulder: lane 1 offside, lane 3 nearside; and its open shoulder with
lane 2 closed: nearside. -/
theorem test_duty_direction :
    [pointsNear 1 [2, 3], pointsNear 3 [1, 2], pointsNear 2 [0, 1, 3]] = [false, true, true] := by decide +kernel

/-! ## One step of each command -/

theorem test_powerOnReset : (after (.powerOnReset usualStraps) live).mode = .unconfigured := by decide +kernel
theorem test_pinReset_short : after (.pinReset usualStraps 999) live = live := by decide +kernel
theorem test_resetRelease : (after .resetRelease State.reset).phase = .settling 20 := by decide +kernel
theorem test_portsReady :
    ((after .portsReady { State.reset with phase := .settling 20, now := 20 }).port .b).flags = 0x80 := by
  decide +kernel
theorem test_voidTransaction : ((after (.voidTransaction .b [0, 1, 2]) ready).port .b).shifted = [0, 0, 0] := by decide +kernel
theorem test_readTransaction_cut :
    ((after (.readTransaction .a 4) sited).port .a).reply = (sited.port .a).reply := by decide +kernel
theorem test_badFrame : ((after (.badFrame .b [0, 2, 25, 0, 0]) ready).port .b).reply =
    some ⟨0xFF, 25, .badFrame, []⟩ := by decide +kernel
theorem test_overrun : ((after (.overrun .a) validating).port .a).overrun = true := by decide +kernel
theorem test_unknownCommand : ((after (.unknownCommand .c 0x7F 3 []) ready).port .c).reply =
    some ⟨0xFF, 3, .unknownCommand, []⟩ := by decide +kernel
theorem test_status_overrun_cleared :
    ((after (.status .a 1 []) (after (.keepalive .a 1 []) sited)).port .a).overrun = false := by decide +kernel
theorem test_keepalive : ((after (.keepalive .c 1 []) ready).port .c).deadline = some 10000 := by decide +kernel
theorem test_readPlan_badRange :
    (((after (.readPlan .c 1 [5, 3]) live).port .c).reply.map (·.reason)) = some .badRange := by decide +kernel
theorem test_readPlan_clamped :
    (((after (.readPlan .c 1 [0, 9]) live).port .c).reply.map (·.reason)) = some .clamped := by decide +kernel
theorem test_readEntries :
    (((after (.readEntries .c 1 [0]) tabled).port .c).reply.map fun r => r.payload.take 9) =
      some [1, 0, 0, 1, 5, 0, 0, 1, 80] := by decide +kernel
theorem test_readUnits :
    (((after (.readUnits .c 1 [0, 47]) live).port .c).reply.map fun r => r.payload.length) = some 92 := by
  decide +kernel
theorem test_readStations :
    (((after (.readStations .c 1 [0, 15]) live).port .c).reply.map fun r => r.payload.length) = some 53 := by
  decide +kernel
theorem test_readDelivery :
    (((after (.readDelivery .c 1 [0, 1]) live).port .c).reply.map fun r => r.payload.length) = some 89 := by
  decide +kernel
theorem test_notices_clear : ((after (.notices .c 1 []) shadowed).port .c).flags = 0 := by decide +kernel
theorem test_setNoticeMask : ((after (.setNoticeMask .c 1 [0x20]) ready).port .c).mask = 0x20 := by decide +kernel
theorem test_counters_field_clears_nothing :
    ((after (.counters .b 1 [1]) tabled).port .a).commands = (tabled.port .a).commands := by decide +kernel
theorem test_request_stored : tabled.table.entries.map (fun e => (e.slot, e.ask.limit, e.expiry)) =
    [(0, some 80, some 30000)] := by decide +kernel
theorem test_request_demand : tabled.table.demand.map (·.limit) = [some 80, none, none] := by decide +kernel
theorem test_withdraw : (after (.withdraw .b 1 [5]) tabled).table.entries = [] := by decide +kernel
theorem test_withdrawAll_keeps_others : (after (.withdrawAll .a 1) tabled).table.entries.length = 1 := by
  decide +kernel
theorem test_release : (after (.release .a 1 [1, 0, 32]) tabled).table.entries = [] := by decide +kernel
theorem test_inhibit_clamped :
    ((after (.inhibitQp .b 1 [0, 0x0E, 0x11]) live).station 0).bind (·.inhibit) = some 3600000 := by decide +kernel
theorem test_geometryWrite_cursor : sited.store.cursors.get .a = 2 := by decide +kernel
theorem test_stationWrite_default_length : (drafted.store.station 0).map (·.effective) = some 60 := by decide +kernel
theorem test_boundaryWrite : drafted.store.boundary = some ⟨2, true⟩ := by decide +kernel
theorem test_commit : validating.store.commit = .validating := by decide +kernel
theorem test_commit_end :
    (shadowed.mode, shadowed.store.siteCount, shadowed.store.stationPosition 0) = (.shadow, 2, 150) := by
  decide +kernel
theorem test_commit_no_boundary :
    ((after .commitValidationEnd (after (.commit .a 4 []) sited)).port .a).reply =
      some ⟨0xA3, 4, .constraint, [2, 32]⟩ := by decide +kernel
/-- Section 1.9's first set. -/
theorem test_paramSet_clamped : ((after (.paramSet .a 1 [1, 0, 100, 2, 0, 65]) ready).port .a).reply =
    some ⟨0xA4, 1, .clamped, [2, 1]⟩ := by decide +kernel
/-- Section 1.9's second set. -/
theorem test_paramSet_constraint : ((after (.paramSet .a 1 [1, 0, 50, 0, 0, 30]) ready).port .a).reply =
    some ⟨0xA4, 1, .constraint, [1]⟩ := by decide +kernel
theorem test_setModeLive : (after (.setModeLive .a 1 [2]) shadowed).mode = .live := by decide +kernel
theorem test_setModeShadow : (after (.setModeShadow .a 1 [1]) up).mode = .darkening := by decide +kernel
theorem test_restart_keeps_counter :
    ((after (.restart .a 1 []) tabled).table.entries, (after (.restart .a 1 []) tabled).table.nextArrival) = ([], 1) := by
  decide +kernel
theorem test_portSilent :
    ((after (.portSilent .b) { tabled with now := 10000 }).port .b).liveness = .silent := by decide +kernel
theorem test_entryExpiry : (after (.entryExpiry 0) { tabled with now := 30000 }).table.entries = [] := by
  decide +kernel
theorem test_passStart_end :
    (after .passEnd (after .passStart live)).evaluator.epoch = 1 := by decide +kernel
theorem test_frameStart : (after (.frameStart .one) quiet).lines.one.sent =
    [0x7E, 1, 0x10, 0] ++ crcBytes [0] := by decide +kernel
theorem test_validReply : ((after (.validReply .one state1) polled).unit 0).map (fun u => (u.state, u.good, u.boot)) =
    some (.probing, 1, some 17) := by decide +kernel
theorem test_replyFrameError :
    ((after (.replyFrameError .one (state1.dropLast ++ [0])) polled).line .one).counters.frameErrors = 1 := by
  decide +kernel
theorem test_invertedReply : ((after (.invertedReply .one) polled).line .one).streak = 1 := by decide +kernel
theorem test_falseActivity :
    ((after (.falseActivity .one [0x7E, 2, 0x20]) polled).line .one).counters.falseActivity = 1 := by decide +kernel
theorem test_replyWindowEnd :
    ((after (.replyWindowEnd .one) { polled with now := 5 }).line .one).counters.retries = 1 := by decide +kernel
theorem test_lineJam :
    ((after (.lineJam .one) { after (.lineActivity .one) quiet with now := 50 }).line .one).state = .jammed := by
  decide +kernel

theorem test_holdDeadlineExpiry : (after .holdDeadlineExpiry held).evaluator.pending = true := by decide +kernel
theorem test_faultHoldExpiry : (after (.faultHoldExpiry 0) blind).table.entries = [] := by decide +kernel
theorem test_inhibitExpiry : ((after (.inhibitExpiry 0) inhibited).station 0).bind (·.inhibit) = none := by
  decide +kernel
theorem test_lineQuiet_cut :
    ((after (.lineQuiet .one [0x7E, 1]) (after (.lineActivity .one) polled)).line .one).counters.frameErrors = 1 := by
  decide +kernel
theorem test_lineActivity : ((after (.lineActivity .one) quiet).line .one).quiet = false := by decide +kernel
theorem test_frameSent : (polled.line .one).transaction.map (·.stage) = some (.window 5) := by decide +kernel
theorem test_jamContinues : (after (.jamContinues .one) jammed).units.map (·.state) = [.lost, .lost, .probing] := by
  decide +kernel
theorem test_lineUnjam : ((after (.lineUnjam .one) { jammed with now := 550 }).line .one).state = .normal := by
  decide +kernel
theorem test_pollCycleStart : ((after (.pollCycleStart .one) drained).line .one).cycle.map (·.number) = some 1 := by
  decide +kernel

end Sys2Proof.Tests
end

