-- ==== Sys2Proof/Tests/Witnesses.lean ====
section
/-! SUPPORT. For each statement about the ports, the tables and the modes that has hypotheses, a state and operands that meet
them all; where a statement has several clauses, one for each at a boundary of its range. -/

set_option Elab.async false

namespace Sys2Proof.Tests

open Sys2Proof.Machine

/-! ## States -/

/-- A port's record replaced in the ready part. -/
def portC : State := after (.keepalive .c 1 []) live
/-- Port B SILENT. -/
def silent : State := after (.portSilent .b) { tabled with now := 10000 }
/-- The part with a completion recorded. -/
def completed : State := after (.setModeShadow .a 1 [1]) live
/-- An entry of port B in a slot, with its tag the slot's number. -/
def entryB (slot : Nat) : Entry :=
  ⟨slot, .port .b, slot, ⟨0, 0, some 80, none, none, false, .drop⟩, none, slot, .active⟩
/-- LIVE with a pool of so many entries of port B. -/
def pool (n : Nat) : State := { live with table := { live.table with entries := (List.range n).map entryB } }
/-- LIVE in DARKENING. -/
def darkening : State := after (.setModeShadow .a 1 [1]) up
/-- LIVE with a merge aspect in the plan. -/
def merging : State := { live with evaluator := { live.evaluator with
  plan := [⟨none, [(1, ⟨.shows .mergeNear, none, false, false, false⟩)], none⟩] } }
/-- A pass running over the entry of port B. -/
def passing : State := after .passStart tabled
/-- A pass running over a plan that stands. -/
def settled : State :=
  let s := after .passEnd (after .passStart live)
  after .passStart { s with evaluator := { s.evaluator with pending := true } }
/-- A pass that an adoption has overtaken. -/
def overtaken : State :=
  { passing with evaluator := { passing.evaluator with
      running := passing.evaluator.running.map fun x => { x with overtaken := true } } }
/-- The first retry of the poll, its window ended. -/
def retried : State :=
  { after (.frameSent .one) (after (.frameStart .one) (after (.replyWindowEnd .one) { polled with now := 5 })) with
      now := 10 }
/-- Line 1 of the jammed part before the report of its jam has been given, at a time. -/
def jamAt (now : Nat) : State := { jammed with now := now }
/-- The transaction of a line, for a state known to have one. -/
def transactionOf (s : State) (l : LineId) : Transaction := (s.line l).transaction.getD ⟨0, none, [], false, 0, .sending⟩

/-- Port A SILENT with its COMMIT still executing. -/
def silentBusy : State := after (.portSilent .a) { validating with now := 10000 }
/-- The store of so many bytes of sites and stations, written by hand, with a boundary. -/
def storeOf (sites stations : List (List Byte)) : Store :=
  { ready.store with
    sites := (sites.map storedSite) ++ List.replicate (32 - sites.length) none
    stations := (stations.map storedStation) ++ List.replicate (16 - stations.length) none
    boundary := some ⟨2, true⟩ }
/-- The section of `live` dark and confirmed so, with nothing going out. -/
def alreadyDark : State := { up with delivery := { up.delivery with
  sites := up.delivery.sites.map fun d => { d with confirmed := darkImage (up.store.elements 0) } } }
/-- The plan of one site with one lane element. -/
def laneShown (l : Nat) (v : LaneValue) : State := { live with evaluator := { live.evaluator with
  plan := [⟨none, [(l, ⟨v, none, false, false, false⟩)], none⟩] } }

/-! ## Steps and the whole part -/

theorem witness_StepRunsFront : { ready with pending := [.keepalive .a 1 []] }.pending = [.keepalive .a 1 []] := by
  decide +kernel
theorem witness_IdleStep :
    ready.pending = [] ∧ ready.dueEvents = [] ∧ { tabled with now := 30000 }.pending = [] ∧
      { tabled with now := 30000 }.dueEvents ≠ [] := by decide +kernel
theorem witness_ExecKeepsTimeAndQueue : exec (.keepalive .a 1 []) ready = .next (after (.keepalive .a 1 []) ready) := rfl
theorem witness_AuthorityHeldUntilReset :
    (∀ x, Instr.commit .a 1 [] ≠ .powerOnReset x) ∧ (∀ x n, Instr.commit .a 1 [] ≠ .pinReset x n) ∧
      exec (.commit .a 1 []) drafted = .next (after (.commit .a 1 []) drafted) :=
  ⟨fun _ h => Instr.noConfusion h, fun _ _ h => Instr.noConfusion h, rfl⟩
theorem witness_GeometryLockedUntilReset :
    isReset (.geometryWrite .a 1 (0 :: site0)) = false ∧ shadowed.store.commit = .locked := by decide +kernel
theorem witness_ModeChangeSetsNotice :
    isReset (.setModeLive .a 1 [2]) = false ∧ (after (.setModeLive .a 1 [2]) shadowed).mode ≠ shadowed.mode ∧
      ((after (.setModeLive .a 1 [2]) shadowed).port .c).authority ≠ .disabled := by decide +kernel

/-! ## Resets and transactions -/

theorem witness_ResetsClear :
    1000 ≤ 1000 ∧ 999 < 1000 ∧ (after (.pinReset usualStraps 1000) live).phase = .held := by decide +kernel
theorem witness_ReleaseThenPortsReady :
    State.reset.phase = .held ∧ ready.phase ≠ .held ∧ (after .resetRelease State.reset).phase = .settling 20 ∧
      (State.reset.port .a).authority ≠ .disabled := by decide +kernel
theorem witness_UnheardPort :
    transactionPort (.keepalive .a 1 []) = some .a ∧ State.reset.hears .a = false ∧ ready.hears .a = true := by
  decide +kernel
theorem witness_ReadTransaction :
    (ready.hears .a = true ∧ (ready.port .a).reply = none) ∧
      (sited.port .a).reply.map (fun r => decide (r.frame.length ≤ 7)) = some true ∧
      (sited.port .a).reply.map (fun r => decide (6 < r.frame.length)) = some true := by decide +kernel
theorem witness_VoidAndBadFrames :
    goodFrame [0, 2, 7] = none ∧ goodFrame [] = none ∧ ready.hears .a = true ∧ (ready.port .a).command = none ∧
      validating.hears .a = true ∧ (validating.port .a).command.isSome = true := by decide +kernel
theorem witness_BuiltFrame : (List.replicate 240 (0 : Byte)).length ≤ 240 := by decide +kernel
theorem witness_GoodFrame :
    sentFrame (.keepalive .b 1 []) = some ⟨.b, 0x02, 1⟩ ∧ wellFormed (.keepalive .b 1 []) = true ∧
      ready.hears .b = true := by decide +kernel
theorem witness_Overrun :
    sentFrame (.keepalive .a 1 []) = some ⟨.a, 0x02, 1⟩ ∧ wellFormed (.keepalive .a 1 []) = true ∧
      Instr.overrun .a = .overrun (Sent.port ⟨.a, 0x02, 1⟩) ∧
      validating.hears .a = true ∧ (validating.port .a).liveness = .active ∧
      (validating.port .a).command.isSome = true := by decide +kernel
theorem witness_EveryCommandIsAnswered :
    sentFrame (.commit .a 4 []) = some ⟨.a, 0x23, 4⟩ ∧ wellFormed (.commit .a 4 []) = true ∧
      drafted.serving .a = true ∧ ready.serving .a = true := by decide +kernel
theorem witness_LowAuthority :
    sentFrame (.request .c 1 limit85) = some ⟨.c, 0x10, 1⟩ ∧ wellFormed (.request .c 1 limit85) = true ∧
      live.serving .c = true ∧ (live.port .c).authority.rank < (permittedTo (.request .c 1 limit85)).rank ∧
      live.serving .b = true ∧ (live.port .b).authority.rank < (permittedTo (.setModeLive .b 1 [2])).rank := by
  decide +kernel
theorem witness_ReturnOfSilentPort :
    silent.hears .b = true ∧ (silent.port .b).liveness = .silent ∧ (silent.port .b).command = none ∧
      2 ≤ (silent.port .b).authority.rank ∧ sentFrame (.request .b 1 limit85) = some ⟨.b, 0x10, 1⟩ ∧
      wellFormed (.request .b 1 limit85) = true := by decide +kernel
theorem witness_ReturnOfSilentPort_executing :
    silentBusy.hears .a = true ∧ (silentBusy.port .a).liveness = .silent ∧
      (silentBusy.port .a).command.isSome = true := by decide +kernel
/-! ## Reading commands -/

theorem witness_serving :
    ready.serving .a = true ∧ ready.serving .b = true ∧ ready.serving .c = true ∧ tabled.serving .b = true := by
  decide +kernel
theorem witness_UnknownCommand : (0x7F : Byte) ∉ knownCodes ∧ (0xFE : Byte) ∉ knownCodes ∧ ([1] : List Byte) ≠ [] := by
  decide +kernel
theorem witness_LenOfNoForm :
    ready.serving .a = true ∧
      ∀ x ∈ ([(0x10, 9), (0x10, 11), (0x11, 2), (0x20, 0), (0x20, 8), (0x21, 21), (0x24, 4), (0x25, 2), (0x26, 1)] :
          List (Byte × Nat)),
        x.1 ∈ knownCodes ∧ lenAllowed x.1 x.2 = false ∧
          (permittedTo (commandOf .a x.1 1 (List.replicate x.2 0))).rank ≤ (ready.port .a).authority.rank := by
  decide +kernel
theorem witness_ReadPlan :
    ready.mode = .unconfigured ∧ live.serving .c = true ∧ live.mode ≠ .unconfigured ∧ live.store.siteCount = 2 ∧
      32 < (33 : Byte).toNat ∧ (0 : Byte).toNat < (1 : Byte).toNat ∧
      (2 ≤ (2 : Byte).toNat ∧ (2 : Byte).toNat ≠ 32) ∧ (2 ≤ (31 : Byte).toNat ∧ (31 : Byte).toNat ≠ 32) ∧
      RangePasses 2 (1 : Byte).toNat (1 : Byte).toNat ∧ RangePasses 2 (0 : Byte).toNat (31 : Byte).toNat ∧
      RangePasses 2 (0 : Byte).toNat (32 : Byte).toNat ∧ RangePasses 2 (32 : Byte).toNat (32 : Byte).toNat := by
  decide +kernel
theorem witness_ReadEntries : (0 : Byte).toNat < tabled.table.entries.length ∧
    ¬ (1 : Byte).toNat < tabled.table.entries.length ∧ tabled.serving .c = true := by decide +kernel
theorem witness_ReadEntries_expiry :
    [none, some 5000, some 5001].map (fun x => ((tabled.entryRecord { entryB 0 with expiry := x }).drop 15).take 2) =
      [[0, 0], be16 ((5000 - tabled.now + 999) / 1000), be16 ((5001 - tabled.now + 999) / 1000)] ∧
    tabled.now < 5000 ∧
    (({ tabled with now := 5000 }.entryRecord { entryB 0 with expiry := some 5000 }).drop 15).take 2 = [0, 1] := by
  decide +kernel
theorem witness_ReadUnitsAndStations :
    live.serving .c = true ∧ live.mode ≠ .unconfigured ∧ ready.mode = .unconfigured ∧ ready.serving .c = true ∧
      (47 : Byte).toNat ≤ (47 : Byte).toNat ∧ (47 : Byte).toNat ≤ 47 ∧ 47 < (48 : Byte).toNat ∧
      (15 : Byte).toNat ≤ 15 ∧ 15 < (16 : Byte).toNat ∧ (0 : Byte).toNat < (1 : Byte).toNat := by decide +kernel
theorem witness_ReadDelivery :
    completed.serving .c = true ∧ completed.mode ≠ .unconfigured ∧ completed.store.siteCount = 2 ∧
      completed.delivery.completion.isSome = true ∧ live.delivery.completion = none ∧
      ready.mode = .unconfigured ∧ 31 < (32 : Byte).toNat ∧ (31 : Byte).toNat ≤ 31 ∧ (1 : Byte).toNat < 2 ∧
      2 ≤ (2 : Byte).toNat ∧ ∀ i ∈ [0, 1], completed.site i ≠ none ∧ completed.store.site i ≠ none := by
  decide +kernel
theorem witness_Counters :
    tabled.serving .a = true ∧ (tabled.port .a).authority = .supervisory ∧ tabled.serving .b = true ∧
      (tabled.port .b).authority ≠ .supervisory := by decide +kernel

/-! ## The request table -/

theorem witness_Request :
    live.serving .b = true ∧ limit85.length = 10 ∧ 2 ≤ (live.port .b).authority.rank ∧ live.mode ≠ .unconfigured ∧
      carries limit85 3 = false ∧ RangePasses live.store.siteCount (num limit85 1) (num limit85 2) ∧
      PartsPass limit85 ∧
      (∀ e ∈ live.table.entries, ¬ (e.requester = .port .b ∧ e.tag = 5)) ∧ live.table.inSlot 0 = none ∧
      live.table.count .b < 32 ∧ (tabled.table.find (.port .b) (num limit85 0)).isSome = true := by
  decide +kernel
/-- Every part, from a SUPERVISORY port, with every clamp. -/
theorem witness_Request_clamped :
    let b : List Byte := [5, 0, 31, 15, 15, 63, 7, 1, 0xFF, 0xFF]
    live.serving .a = true ∧ (live.port .a).authority = .supervisory ∧ carries b 3 = true ∧
      RangePasses live.store.siteCount (num b 1) (num b 2) ∧ PartsPass b ∧ clampMarks live.store.siteCount b = 7 ∧
      ∀ e ∈ live.table.entries, ¬ (e.requester = .port .a ∧ e.tag = 5) := by decide +kernel
theorem witness_Request_last_place :
    (∀ j < 31, (pool 31).table.inSlot j ≠ none) ∧ (pool 31).table.inSlot 31 = none ∧ (pool 31).table.count .b < 32 := by
  decide +kernel
theorem witness_RequestRefused :
    ready.mode = .unconfigured ∧ carries [5, 0, 0, 8, 0, 0, 0, 0, 0, 0] 3 = true ∧
      (live.port .b).authority ≠ .supervisory ∧ ¬ RangePasses live.store.siteCount 1 0 ∧
      ¬ RangePasses live.store.siteCount 0 33 ∧ ¬ RangePasses live.store.siteCount 2 2 := by decide +kernel
theorem witness_RequestRefused_parts :
    ∀ b ∈ ([[5, 0, 0, 0, 0, 0, 0, 0, 0, 0], [5, 0, 0, 16, 0, 0, 0, 0, 0, 0], [5, 0, 0, 2, 0, 64, 0, 0, 0, 0],
      [5, 0, 0, 4, 0, 0, 8, 0, 0, 0], [5, 0, 0, 1, 0, 0, 0, 2, 0, 0]] : List (List Byte)), ¬ PartsPass b := by
  decide +kernel
theorem witness_RequestRefused_full :
    (pool 48).serving .b = true ∧ (∀ e ∈ (pool 48).table.entries, ¬ (e.requester = .port .b ∧ e.tag = 48)) ∧
      ∀ j < 48, (pool 48).table.inSlot j ≠ none := by decide +kernel
theorem witness_RequestRefused_quota :
    (pool 32).serving .b = true ∧ (∀ e ∈ (pool 32).table.entries, ¬ (e.requester = .port .b ∧ e.tag = 48)) ∧
      (pool 32).table.inSlot 32 = none ∧ 32 ≤ (pool 32).table.count .b := by decide +kernel
theorem witness_Withdraw :
    tabled.serving .b = true ∧ 2 ≤ (tabled.port .b).authority.rank ∧ tabled.mode ≠ .unconfigured ∧
      (∃ e ∈ tabled.table.entries, e.requester = .port .b ∧ e.tag = 5) ∧
      (∀ e ∈ tabled.table.entries, ¬ (e.requester = .port .b ∧ e.tag = 6)) ∧
      ready.mode = .unconfigured ∧ ready.serving .b = true ∧ 2 ≤ (ready.port .b).authority.rank := by decide +kernel
theorem witness_Release :
    tabled.serving .a = true ∧ 2 ≤ (tabled.port .a).authority.rank ∧ tabled.mode ≠ .unconfigured ∧
      ready.mode = .unconfigured ∧ 2 < (3 : Byte).toNat ∧ ¬ 2 < (2 : Byte).toNat ∧
      Port.code .b = (1 : Byte).toNat ∧ ¬ RangePasses tabled.store.siteCount 2 2 ∧
      RangePasses tabled.store.siteCount 0 32 ∧ RangePasses tabled.store.siteCount 1 1 ∧
      RangePasses tabled.store.siteCount 1 2 ∧ rangeEnd tabled.store.siteCount 2 ≠ 2 := by decide +kernel
theorem witness_EntryExpiry :
    (tabled.table.inSlot 0).map (fun e => (e.requester, e.expiry)) = some (.port .b, some 30000) := by decide +kernel
theorem witness_Silence :
    ((tabled.port .b).liveness, (tabled.port .b).deadline) = (.active, some 10000) ∧
      2 ≤ (tabled.port .b).authority.rank ∧
      ((portC.port .c).liveness, (portC.port .c).deadline) = (.active, some 10000) ∧
      (portC.port .c).authority.rank < 2 := by decide +kernel
theorem witness_Inhibit :
    live.serving .b = true ∧ 2 ≤ (live.port .b).authority.rank ∧ live.mode ≠ .unconfigured ∧
      (live.station 0).map (·.inhibit) = some none ∧ (0x0E : Byte).toNat * 256 + (0x10 : Byte).toNat = 3600 ∧
      3600 < (0x0E : Byte).toNat * 256 + (0x11 : Byte).toNat ∧ inhibited.serving .b = true ∧
      (inhibited.station 0).map (·.inhibit) = some (some 9000) := by decide +kernel
theorem witness_Inhibit_refused :
    ready.mode = .unconfigured ∧ ready.serving .b = true ∧ 15 < (16 : Byte).toNat ∧ ¬ 15 < (15 : Byte).toNat ∧
      live.station 15 = none := by decide +kernel
/-- Images that stand: of a station in QUEUE, in STOPPED and BLIND within its fault hold, over a band that holds site 0, and
with a cover of 0 over no band at all. -/
theorem witness_EntryImage :
    (∀ x ∈ live.station 0, Warranted live { x with state := .queue } ∧ Warranted live { x with state := .stopped } ∧
      Warranted live { x with state := .blind, remembered := some .stopped, faultHold := some 1 } ∧
      ¬ Warranted live x) ∧
      (live.station 0).isSome = true ∧ live.store.stationPosition 0 = 150 ∧ live.store.siteCount = 2 ∧
      InBand live.store 150 (live.param .qpCover) 0 ∧ (∀ u < 2, ¬ InBand live.store 150 0 u) ∧
      live.store.pos 0 ≤ 150 := by
  have warranted (s : State) (x : Station) (h : x.warranted s.now = true) : Warranted s x := (warranted_iff s x).1 h
  refine ⟨fun x hx => ⟨warranted _ _ ?_, warranted _ _ ?_, warranted _ _ ?_, fun h => ?_⟩, by decide +kernel,
    by decide +kernel, by decide +kernel, by unfold InBand; decide +kernel, by unfold InBand; decide +kernel,
    by decide +kernel⟩
  · revert x; decide +kernel
  · revert x; decide +kernel
  · revert x; decide +kernel
  · have := (warranted_iff live x).2 h
    clear h
    revert x; decide +kernel

/-! ## The configuration store and modes -/

theorem witness_GeometryWrites :
    ready.serving .a = true ∧ (ready.port .a).authority = .supervisory ∧ ready.store.sites.length = 32 ∧
      ready.store.stations.length = 16 ∧ site0.length = 8 ∧ station0.length = 21 ∧ ready.store.commit = .openState ∧
      30 + [site0, site1].length ≤ 32 ∧ 15 + [station0].length ≤ 16 ∧ 32 < 31 + [site0, site1].length ∧
      16 < 16 + [station0].length ∧ (31 : Byte).toNat < 32 ∧ 32 ≤ (32 : Byte).toNat ∧ 16 ≤ (16 : Byte).toNat ∧
      live.serving .a = true ∧ live.store.commit ≠ .openState := by decide +kernel
/-- Good records, unused markers, and a bad record after a good one, named by its slot. -/
theorem witness_GeometryWrites_records :
    (∀ b ∈ [site0, site1, List.replicate 8 255], SiteBytesGood b) ∧
      (∀ b ∈ ([[0, 6, 1, 1, 2, 88, 1, 1], [2, 255, 255, 0, 2, 88, 1, 1]] : List (List Byte)), ¬ SiteBytesGood b) ∧
      (∀ b ∈ [station0, List.replicate 21 255], StationBytesGood b) ∧
      ¬ StationBytesGood (32 :: station0.drop 1) := by
  unfold SiteBytesGood StationBytesGood
  refine ⟨by decide +kernel, by decide +kernel, by decide +kernel, by decide +kernel⟩
theorem witness_BoundaryWrite :
    ready.serving .a = true ∧ ready.store.commit = .openState ∧ (1 : Byte).toNat = 1 ∧ (5 : Byte).toNat = 5 ∧
      ¬ ((0 : Byte).toNat ≥ 1) ∧ ¬ ((6 : Byte).toNat ≤ 5) ∧ ¬ ((2 : Byte).toNat ≤ 1) ∧
      live.serving .a = true ∧ live.store.commit ≠ .openState := by decide +kernel
theorem witness_LimitDemand :
    (live.store.site 0).map (fun r => decide (r.kind ≠ .message)) = some true ∧
      (⟨.message, true, 100, .one, 9⟩ : SiteRecord).kind = .message := by decide +kernel
/-- FOG of port B below CONGESTION of port A, which an older CONGESTION of port B and a newer one of port A leave. -/
theorem witness_LegendDemand :
    let entry (p : Port) (tag : Nat) (g : Legend) : Entry :=
      ⟨tag, .port p, tag, ⟨0, 0, none, none, some g, false, .hold⟩, none, tag, .active⟩
    let older := [entry .b 1 .fog, entry .b 2 .congestion]
    let e := entry .a 3 .congestion
    let newer := [entry .a 4 .congestion]
    (∀ x ∈ older, ∀ h ∈ x.ask.legend, h.rank < Legend.congestion.rank ∨ h.rank = Legend.congestion.rank ∧
      x.requester = .port .b ∧ e.requester = .port .a ∧
        (live.port .b).authority.rank < (live.port .a).authority.rank) ∧
    (∀ x ∈ newer, ∀ h ∈ x.ask.legend, h.rank = Legend.congestion.rank ∧ x.requester = e.requester) ∧
    e.ask.legend = some .congestion ∧ e.ask.first ≤ 0 ∧ 0 ≤ e.ask.last := by decide +kernel
/-- Entries that close lane 1 and open the shoulder, over a site and EXIT; the boundary lanes 0 and 2 of the gantry. -/
theorem witness_ClosureAndOpening :
    let e : Entry := ⟨0, .port .a, 1, ⟨0, 32, none, some [0, 1, 2, 3], none, true, .hold⟩, none, 0, .active⟩
    (live.store.site 0).map (·.kind) = some (.gantry 2 true) ∧ (e.ask.first ≤ 32 ∧ 32 ≤ e.ask.last) ∧
      e.ask.closure = some [0, 1, 2, 3] ∧ e.ask.shoulderOpen = true ∧ LanePresent 2 true 0 ∧ LanePresent 2 true 2 ∧
      ¬ LanePresent 2 true 3 ∧ ¬ LanePresent 2 false 0 ∧ live.store.boundary = some ⟨2, true⟩ := by
  unfold LanePresent
  decide +kernel
theorem witness_Commit :
    drafted.serving .a = true ∧ (drafted.port .a).authority = .supervisory ∧ drafted.store.commit = .openState ∧
      live.serving .a = true ∧ live.store.commit ≠ .openState := by decide +kernel
theorem witness_ValidationEnd :
    validating.store.commit = .validating ∧ (validating.port .a).command = some ⟨0x23, 4⟩ ∧
      (validating.port .b).command = none ∧ (validating.port .c).command = none ∧ 1 < 32 ∧
      validating.store.site 1 ≠ none ∧ ∀ i < 32, 1 < i → validating.store.site i = none := by decide +kernel
/-- The five checks pass for the section of `validating`. -/
theorem witness_ValidationEnd_passes : ∀ j, 1 ≤ j → j ≤ 5 → CheckPasses validating.store 2 j := by
  have e : validating.store.highestUsed = 1 := by decide +kernel
  have p1 := (checkSites_spec validating.store 1 e).1.1 (by decide +kernel)
  have p2 := (checkStations_spec validating.store 2 p1).1.1 (by decide +kernel)
  have p3 := (checkBoundary_spec validating.store 2).1.1 (by decide +kernel)
  have p4 := (checkUnits_spec validating.store 2).1.1 (by decide +kernel)
  have p5 := (checkParams_spec validating.store 2).1.1 (by decide +kernel)
  intro j h1 h5
  match j with
  | 1 => exact p1
  | 2 => exact p2
  | 3 => exact p3
  | 4 => exact p4
  | 5 => exact p5
/-- Each check reports its record: a section of one site; a station beyond N; no boundary; a line and address twice;
parameters that break a constraint. -/
theorem witness_ValidationEnd_reports :
    CheckReports (storeOf [site0] []) 1 1 0 1 ∧
    CheckReports (storeOf [site0, site1] [2 :: station0.drop 1]) 2 2 1 0 ∧
    CheckReports sited.store 2 3 2 32 ∧
    CheckReports (storeOf [site0, site0] []) 2 4 0 1 ∧
    CheckReports { storeOf [site0, site1] [] with params := setParam ready.store.params .alertOff 44 } 2 5 3
      (ParamId.code .alertOff) := by
  refine ⟨⟨rfl, by decide +kernel, by decide +kernel, by decide +kernel⟩,
    ⟨rfl, by decide, ⟨(storedStation (2 :: station0.drop 1)).get (by decide +kernel), by decide +kernel, fun h => ?_⟩,
      fun j hj => by omega⟩,
    ⟨rfl, rfl, by decide +kernel⟩,
    ⟨1, by decide, by unfold Clashes; decide +kernel, by unfold Clashes; decide +kernel, by decide, by decide⟩,
    ⟨rfl, ⟨.alertOff, .alertOn, .alertOff, 10⟩, by decide +kernel, rfl⟩⟩
  exact absurd h.1 (by decide +kernel)
theorem witness_ParamSet :
    ready.serving .a = true ∧ (ready.port .a).authority = .supervisory ∧ ready.store.params.length = 27 ∧
      (([(.step, 30), (.ceiling, 65535)] : List (ParamId × Nat)).map (·.1)).Nodup ∧
      brokenConstraint (setParam (setParam ready.store.params .step 30) .ceiling 120) = none ∧
      brokenConstraint (setParam ready.store.params .alertOff 44) = some .alertOff ∧
      brokenConstraint (setParam ready.store.params .alertOff 45) = none := by decide +kernel
/-- The second pair offends first: it names no identity, or the first pair's. -/
theorem witness_ParamSet_offends :
    (27 ≤ (27 : Byte).toNat ∧ ¬ 27 ≤ (26 : Byte).toNat) ∧
      ([(26, 0, 1), (27, 0, 1)] : List (Byte × Byte × Byte))[1]? = some (27, 0, 1) ∧
      ([(3, 0, 1), (3, 0, 2)] : List (Byte × Byte × Byte))[1]?.map (·.1) =
        ([(3, 0, 1), (3, 0, 2)] : List (Byte × Byte × Byte))[0]?.map (·.1) := by decide +kernel
theorem witness_SetMode :
    live.serving .a = true ∧ (live.port .a).authority = .supervisory ∧ live.mode = .live ∧ ready.mode = .unconfigured ∧
      ready.serving .a = true ∧ shadowed.mode = .shadow ∧ shadowed.serving .a = true ∧ darkening.mode = .darkening ∧
      (readAll .a darkening).serving .a = true ∧ (0 : Byte) ≠ 1 ∧ (3 : Byte) ≠ 2 ∧ (3 : Byte) ≠ 1 := by decide +kernel
theorem witness_Committed : shadowed.store.Committed ∧ live.store.Committed := by
  unfold Store.Committed Store.Whole
  decide +kernel
theorem witness_SetModeShadow_refused :
    merging.serving .a = true ∧ merging.mode = .live ∧
      (∃ i < merging.store.siteCount, ∃ x ∈ (planSite merging.evaluator.plan i).lanes,
        x.2.value = .shows .mergeNear ∨ x.2.value = .shows .mergeOff) ∧
      (laneShown 1 (.shows .closed)).serving .a = true ∧ (laneShown 1 (.shows .closed)).mode = .live ∧
      ∃ i < 2, ∃ x ∈ (planSite (laneShown 1 (.shows .closed)).evaluator.plan i).lanes,
        x.2.value = .shows .closed ∧ ¬ x.1 = 0 := by decide +kernel
/-- A quiet plan with a standing shoulder closure. -/
theorem witness_SetModeShadow_quiet :
    let s := laneShown 0 (.shows .closed)
    s.serving .a = true ∧ s.mode = .live ∧
      ∀ i < s.store.siteCount, ∀ x ∈ (planSite s.evaluator.plan i).lanes,
        ¬ (x.2.value = .shows .mergeNear ∨ x.2.value = .shows .mergeOff ∨ x.2.value = .shows .closed ∧
          ¬ (x.1 = 0 ∧ (s.table.demandOf i).opening = false ∧ 0 ∉ (s.table.demandOf i).closed)) := by decide +kernel
/-- A section with something lit, and one already dark. -/
theorem witness_SetModeShadow_lit :
    (∀ u ∈ up.unit 0, u.state ≠ .lost ∧ u.state ≠ .probing) ∧
      (up.site 0).map (fun d => d.confirmed.lookup .limit) = some none ∧
      (∀ d ∈ alreadyDark.delivery.sites, d.inFlight = false ∧ ∀ x ∈ d.confirmed, x.2 = darkOf x.1) ∧
      (∀ i < 2, ∀ d ∈ alreadyDark.site i, ∀ e ∈ alreadyDark.store.elements i, d.confirmed.lookup e = some (darkOf e)) ∧
      alreadyDark.delivery.sites.length = 2 := by decide +kernel
/-- A darkening part queued, its command in the queue, dark and of epoch byte 0 (R148). -/
theorem witness_SetModeShadow_queued :
    (darkening.site 0).map (fun d => d.darkening.map (·.queued)) = some (some true) ∧
      (darkening.line .one).queue.map (fun c => (c.site, c.part, c.epoch, c.inProgress)) =
        [(0, .darkening, 0, false), (1, .darkening, 0, false)] ∧
      (∀ c ∈ (darkening.line .one).queue, ∀ x ∈ c.image, x.2 = darkOf x.1) ∧ darkening.delivery.target = .dark := by
  decide +kernel
theorem witness_DemandDerived :
    DemandDerived live ∧ DemandDerived tabled ∧ DemandDerived inhibited ∧ DemandDerived blind := by
  unfold DemandDerived
  decide +kernel
theorem witness_Restart :
    tabled.serving .a = true ∧ (tabled.port .a).authority = .supervisory ∧ tabled.mode = .live ∧
      ready.mode = .unconfigured ∧ darkening.mode = .darkening ∧ shadowed.mode = .shadow ∧
      (tabled.port .b).authority ≠ .disabled := by decide +kernel
/-- RESTART in DARKENING, and a site whose sign was lit. -/
theorem witness_Restart_darkening :
    darkening.mode = .darkening ∧ darkening.serving .a = true ∧ (darkening.port .a).authority = .supervisory ∧
      (∀ i < 2, (darkening.site i).isSome = true) ∧ (∀ i < 2, (darkening.store.site i).isSome = true) ∧
      (after (.restart .a 1 []) darkening).delivery.target = .dark := by decide +kernel
/-- R182 and R174: a mask that hides every flag lowers ATTENTION; READY is high while the reply waits. -/
theorem test_pins :
    let s := after (.setNoticeMask .a 1 [0]) live
    (live.port .a).attentionLine = true ∧ (s.port .a).attentionLine = false ∧ (s.port .a).readyLine = true ∧
      ((after (.readTransaction .a 32) s).port .a).readyLine = false := by decide +kernel
/-! ## The invariants hold in the committed part with an entry stored and a poll under way -/

/-- LIVE with an entry, a frame going out on line 1 and a command waiting. -/
def busy : State :=
  { after (.frameStart .one) (after (.lineQuiet .one []) tabled) with pending := [.keepalive .c 1 []] }

theorem witness_ParamsInv : ParamsInv busy :=
  ⟨by decide +kernel, fun i => by cases i <;> decide +kernel, by decide +kernel⟩
theorem witness_ModeInv : ModeInv busy := by unfold ModeInv Store.Whole; decide +kernel
theorem witness_PortsInv : PortsInv busy := by intro p; cases p <;> decide +kernel
theorem witness_TableInv : TableInv busy :=
  ⟨by decide +kernel, by decide +kernel, by
      have h : busy.table.entries = [⟨0, .port .b, 5, ⟨0, 0, some 80, none, none, false, .hold⟩, some 30000, 0, .active⟩] := by
        decide +kernel
      rw [h]; simp [Config.poolSlots], fun p => by cases p <;> decide +kernel, by decide +kernel, by decide +kernel⟩
theorem witness_LinesInv : LinesInv busy := by
  intro l
  cases l
  · refine ⟨⟨fun _ => ⟨transactionOf busy .one, ?_⟩, fun _ => ?_⟩, ?_⟩ <;> decide +kernel
  · have h : (busy.line .two).transaction = none ∧ (busy.line .two).driving = false := by decide +kernel
    exact ⟨by simp [h.1, h.2], fun _ => h.1⟩
theorem witness_step : step busy = .next (after (.keepalive .c 1 []) { busy with pending := [] }) := rfl

end Sys2Proof.Tests
end

