-- ==== Sys2Proof/Tests/FieldWitnesses.lean ====
section
/-! SUPPORT. For each statement about the evaluator, queue protection, the field lines and delivery that has hypotheses, states
and operands that meet them all, one for each clause. -/

set_option Elab.async false

namespace Sys2Proof.Tests

open Sys2Proof.Machine

/-! ## States -/

/-- Every unit's record changed. -/
def withUnits (s : State) (f : UnitRec → UnitRec) : State := { s with units := s.units.map f }
/-- A pass running with every unit UP. -/
def reached : State := { passing with units := up.units }
/-- The same with the elements of site 0 available to the pass. -/
def reachedLit : State := { reached with evaluator := { reached.evaluator with
  running := reached.evaluator.running.map fun x => { x with available := [reached.store.elements 0, []] } } }
/-- Line 1 quiet with nothing due. -/
def idle : State := quiet.setLine .one { quiet.line .one with cycle := some ⟨0, 500, 0, [], some 0⟩ }
/-- Line 1 with the tightening SET of site 0, its part WAITING and queued, every unit UP. -/
def setUp : State :=
  { setQueued with units := up.units }.modifySite 0 fun d => { d with
    wanted := [(.limit, .limit (some 60))]
    tightening := some ⟨[.limit], .waiting, true, 0⟩ }
/-- The SET sent, its window open. -/
def setSent : State := after (.frameSent .one) (after (.frameStart .one) setUp)
/-- The same of a part sent again after a mismatch. -/
def setResent : State :=
  setSent.modifySite 0 fun d => { d with tightening := some ⟨[.limit], .sent, false, 1⟩ }
/-- The retry of the poll, and of the SET, owed. -/
def pollOwed : State := after (.replyWindowEnd .one) { polled with now := 5 }
def setOwed : State := after (.replyWindowEnd .one) { setSent with now := 5 }
/-- The SET's retry sent, its window over. -/
def setMissed : State := { after (.frameSent .one) (after (.frameStart .one) setOwed) with now := 10 }
/-- The poll's window open with every unit UP and a part of site 0 waiting for a limit. -/
def polledUp : State :=
  { polled with units := up.units }.modifySite 0 fun d => { d with
    wanted := [(.limit, .limit (some 60))]
    tightening := some ⟨[.limit], .waiting, false, 0⟩ }
/-- The same with the part gone. -/
def driftedUp : State := polledUp.modifySite 0 fun d => { d with tightening := none }
/-- The STATE of the sign at address 1 with a limit code. -/
def stateFrame (limit : Byte) : List Byte :=
  fieldFrame 1 kindState [17, 0, limit, 4, 1, 1, 0, 0, 0, 0, 0, 0, 0, 0, 0, 0, 0, 0]
/-- What it carries. -/
def shown (limit : Nat) : StateReply where
  boot := 17
  applied := 0
  limit := if limit = 0 then none else some (limit * 10)
  lanes := [.closed, .opened, .opened, .blank, .blank, .blank]
  legend := .blank
  speedFault := .ok
  laneFaults := [.ok, .ok, .ok, .ok, .ok, .ok]
  messageFault := .ok
/-- Line 2 with the poll of the outstation sent, its window open. -/
def polled2 : State := after (.frameSent .two) (after (.frameStart .two) (after (.lineQuiet .two []) live))
/-- The same with the outstation in a state. -/
def unitTwo (st : UnitState) (good : Nat) : State :=
  withUnits polled2 fun u => { u with state := st, good := good }
/-- Activity on line 1 while a SET's retry is owed. -/
def jamming : State := { after (.lineActivity .one) setOwed with now := 100 }
/-- A pass over a site whose lane 1 and limit are in hold until 60 s, all of it available. -/
def holding : Pass where
  demand := live.table.demand
  available := [[.limit, .lane 0, .lane 1, .lane 2]]
  params := live.store.params
  plan := [⟨some ⟨.value (some 60), some 60000, false⟩, [(1, ⟨.shows .closed, some 60000, false, false, false⟩)], none⟩]
  time := 0
  overtaken := false
/-- A DATA of no lanes at 20 s. -/
def dataFrame : List Byte := fieldFrame 1 kindData [17, 0, 0, 78, 32, 0]

/-! ## The evaluator and queue protection -/

theorem witness_HoldExpiryAndPassStart :
    (∃ x ∈ held.evaluator.plan, ∃ d ∈ x.deadlines, held.evaluator.holdSeen < d ∧ d ≤ held.now) ∧
      live.evaluator.running = none ∧ live.evaluator.pending = true ∧ live.mode ≠ .unconfigured ∧
      passing.evaluator.running.isSome = true := by decide +kernel
theorem witness_PassEnd :
    passing.evaluator.running.map (fun x => (x.overtaken, plansDiffer passing.evaluator.plan (runPass passing.store x)))
        = some (false, true) ∧
      settled.evaluator.running.map (fun x => (x.overtaken, plansDiffer settled.evaluator.plan (runPass settled.store x)))
        = some (false, false) ∧
      overtaken.evaluator.running.map (·.overtaken) = some true ∧ passing.delivery.target = .plan ∧
      passing.mode = .live ∧ { passing with mode := .shadow }.mode ≠ .live ∧
      (after .passStart darkening).delivery.target = .dark := by decide +kernel
theorem witness_PassEnd_whole : passing.store.Whole ∧ passing.store.siteCount = 2 := by
  unfold Store.Whole
  decide +kernel
/-- Units that can take commands, and units that cannot, with no part sent. -/
theorem witness_PassEnd_reaches :
    (∀ i < 2, (reached.unit i).map (·.state) = some .up) ∧ reached.delivery.sites.length = 2 ∧
      (∀ i < 2, (passing.unit i).map (·.state) = some .probing) ∧
      (∀ i < 2, ∀ d ∈ passing.site i, d.tightening = none ∧ d.relaxing = none ∧ d.darkening = none) := by decide +kernel
/-- A part released at the end of a pass, of which there was none before, and its command (R147, R148). -/
theorem witness_PassEnd_released :
    (reachedLit.site 0).map (fun d => (d.tightening, d.darkening)) = some (none, none) ∧
      ((after .passEnd reachedLit).site 0).map (fun d => d.tightening.map (·.queued)) = some (some true) ∧
      ((after .passEnd reachedLit).line .one).queue.map (fun c => (c.site, c.part, c.epoch, c.inProgress)) =
        [(0, .tightening, 1, false)] := by decide +kernel
/-- A lane and a limit that a pass reports held, and a lane it does not. -/
theorem witness_PassEnd_held :
    let plan := runPass live.store holding
    (ElemId.lane 1 ∈ holding.available.getD 0 [] ∧ ElemId.lane 2 ∈ holding.available.getD 0 []) ∧
      LimitCapable (.gantry 2 true) (holding.available.getD 0 []) ∧
      ¬ ClosedDemand (holding.demandAt 0) 1 ∧ InHold holding.time (some 60000) ∧
      ((planSite plan 0).lane 1).map (fun e => (e.value, e.held)) = some (.shows .closed, true) ∧
      ((planSite plan 0).lane 2).map (·.held) = some false ∧
      (planSite plan 0).limit.map (fun e => (e.value, e.held)) = some (.value (some 60), true) := by
  refine ⟨by decide +kernel, ⟨1, by decide, by decide, by decide⟩, by unfold ClosedDemand; decide +kernel,
    ⟨60000, rfl, by decide⟩, by decide +kernel, by decide +kernel, by decide +kernel⟩
theorem witness_StationTimers :
    (blind.station 0).map (fun x => (x.state, x.remembered, x.inhibit, x.faultHold, x.handed.isSome)) =
        some (.blind, some .queue, none, some 9000, true) ∧ 9000 ≤ blind.now ∧
      (blind.station 0).map (·.faultOver) = some false ∧
      (inhibited.station 0).map (·.inhibit) = some (some 9000) ∧ 9000 ≤ inhibited.now := by decide +kernel
/-- BLIND stations whose fault hold runs out without a notice, and one whose running out has been taken. -/
theorem witness_StationTimers_silent :
    ((withStation fun x =>
        { x with state := .blind, remembered := some .queue, faultHold := some 9000, inhibit := some 9001 }).station
          0).map (fun x => (x.state, x.inhibit, x.faultHold, x.faultOver)) =
        some (.blind, some 9001, some 9000, false) ∧
      ((withStation fun x => { x with state := .blind, remembered := some .free, faultHold := some 9000 }).station 0).map
          (fun x => (x.state, x.remembered, x.faultHold, x.faultOver)) = some (.blind, some .free, some 9000, false) ∧
      ((withStation fun x => { x with state := .blind, faultOver := true }).station 0).map (·.faultOver) =
        some true := by decide +kernel
/-! ## Field lines -/

theorem witness_ActivityAndQuiet :
    live.phase ≠ .held ∧ ((after (.frameStart .one) quiet).line .one).driving = true ∧
      (quiet.line .one).driving = false ∧ (quiet.line .one).state = .normal ∧ (quiet.line .one).quiet = true ∧
      (live.line .one).quiet = false ∧ (jammed.line .one).driving = false ∧ (jammed.line .one).state = .jammed := by
  decide +kernel
/-- A line not quiet, one reading of the time base after its last activity. -/
theorem witness_ActivityAndQuiet_due :
    let s := { after (.lineActivity .one) quiet with now := 1 }
    (s.line .one).quiet = false ∧ (s.line .one).lastActive < s.now ∧ s.phase ≠ .held := by decide +kernel
theorem witness_ActivityAndQuiet_cut :
    let s := after (.lineActivity .one) polled
    (s.line .one).quiet = false ∧ (s.line .one).openWindow.isSome = true ∧ (s.line .one).skipping = false ∧
      s.verdict .one [0x7E, 1] = some .incomplete ∧ (live.line .one).openWindow = none ∧
      (live.line .one).state = .normal ∧ (live.line .one).driving = false ∧ (live.line .one).skipping = false ∧
      (live.line .one).burstCounted = false := by decide +kernel
theorem witness_PollFrame :
    quiet.phase ≠ .held ∧ (quiet.line .one).state = .normal ∧ (quiet.line .one).quiet = true ∧
      (quiet.line .one).driving = false ∧ (quiet.line .one).transaction = none ∧
      arbiterSet quiet.mode (quiet.line .one).queue = none ∧ (quiet.line .one).cycle.map (·.due) = some [1, 2] ∧
      ((after (.frameStart .one) quiet).line .one).driving = true ∧
      ((after (.frameStart .one) quiet).line .one).transaction.isSome = true := by decide +kernel
/-- The unit at the address due: the first of its line there. -/
theorem witness_PollFrame_unit :
    (quiet.unit 0).map (fun u => (u.line, u.address)) = some (.one, 1) ∧
      (transactionOf (after (.frameStart .one) quiet) .one).unit = 0 := by decide +kernel
/-- Lines that start nothing: without work, with a window open, not quiet, JAMMED. -/
theorem witness_PollFrame_none :
    (idle.line .one).transaction = none ∧ arbiterSet idle.mode (idle.line .one).queue = none ∧
      (idle.line .one).cycle.map (·.due) = some [] ∧ (transactionOf polled .one).stage ≠ .retryOwed ∧
      (polled.line .one).transaction.isSome = true ∧ (live.line .one).quiet = false ∧
      (jammed.line .one).state = .jammed := by decide +kernel
theorem witness_SetFrame :
    setUp.phase ≠ .held ∧ (setUp.line .one).state = .normal ∧ (setUp.line .one).quiet = true ∧
      (setUp.line .one).driving = false ∧ (setUp.line .one).transaction = none ∧ setUp.mode = .live ∧
      tight ∈ (setUp.line .one).queue ∧ tight.inProgress = false ∧ tight.part = .tightening ∧
      (∀ x ∈ (setUp.line .one).queue, x.inProgress = false → x ≠ tight → x.part = .tightening → tight.site < x.site) ∧
      tight.site < setUp.delivery.sites.length ∧ setUp.siteLine tight.site = .one ∧
      (setUp.site 0).map (·.tightening) = some (some ⟨[.limit], .waiting, true, 0⟩) := by decide +kernel
/-- A relaxing command of the highest site, with no tightening one. -/
theorem witness_SetFrame_relaxing :
    let c : SetCommand := ⟨1, .relaxing, [], 3, false⟩
    let q : List SetCommand := [⟨0, .darkening, [], 3, false⟩, c]
    let s := setUp.setLine .one { setUp.line .one with queue := q }
    (∀ x ∈ (s.line .one).queue, x.inProgress = false → x ≠ c → x.part ≠ .tightening ∧ x.site < c.site) ∧
      c ∈ (s.line .one).queue ∧ c.part ≠ .tightening ∧ s.mode = .live ∧ c.site < s.delivery.sites.length ∧
      s.siteLine c.site = .one := by decide +kernel
/-- Owed retries of a poll and of a SET, and the modes in which a SET's rests. -/
theorem witness_SetFrame_retry :
    (pollOwed.line .one).transaction.map (fun y => (y.stage, y.command)) = some (.retryOwed, none) ∧
      (pollOwed.line .one).quiet = true ∧ (pollOwed.line .one).state = .normal ∧ pollOwed.phase ≠ .held ∧
      (setOwed.line .one).transaction.map (fun y => (y.stage, y.command.isSome)) = some (.retryOwed, true) ∧
      (setOwed.line .one).quiet = true ∧ setOwed.mode = .live ∧ { setOwed with mode := .shadow }.mode = .shadow := by
  decide +kernel
theorem witness_ValidReply :
    (polled.line .one).openWindow = some (transactionOf polled .one) ∧ (polled.line .one).skipping = false ∧
      (polled.unit (transactionOf polled .one).unit).map (fun u =>
        match judgeReply u.owner u.address state1 with
        | .valid _ => true
        | _ => false) = some true := by decide +kernel
/-- A first SET of a limit that the sign shows otherwise, and a second one; no command of the site waits. -/
theorem witness_SignReply_mismatch :
    (setSent.line .one).openWindow.map (·.command) = some (some { tight with inProgress := true }) ∧
      (setSent.site 0).map (fun d => (d.inFlight, d.tightening)) = some (true, some ⟨[.limit], .sent, false, 0⟩) ∧
      (setSent.unit 0).map (fun u => (u.state, u.boot)) = some (.up, none) ∧ setSent.delivery.target = .plan ∧
      (setSent.site 0).map (fun d => (d.wanted.lookup .limit, d.commanded.map (·.image.lookup .limit))) =
        some (some (.limit (some 60)), some (some (.limit (some 60)))) ∧
      (setResent.site 0).map (fun d => (d.inFlight, d.tightening)) = some (true, some ⟨[.limit], .sent, false, 1⟩) ∧
      (shown 0).limit = none := by decide +kernel
theorem witness_SignReply_noneWaits : setSent.NoneWaits 0 ∧ setResent.NoneWaits 0 := by
  unfold State.NoneWaits
  decide +kernel
/-- The first mismatch names no element again; the second names the limit. -/
theorem witness_SignReply_named :
    ∀ u ∈ setSent.unit 0, ∀ r ∈ setSent.store.site 0,
      (∀ d ∈ setSent.site 0, ¬ NamedAgain (transactionOf setSent .one) u (shown 0) 0 r d .limit) ∧
      ∀ d ∈ setResent.site 0, NamedAgain (transactionOf setResent .one) u (shown 0) 0 r d .limit := by
  have hb : ∀ u ∈ setSent.unit 0, u.boot = none := by decide +kernel
  refine fun u hu r hr => ⟨fun d hd h => ?_, fun d hd => ?_⟩
  · obtain ⟨-, -, c, p, hc, -, hp, -, hz, -⟩ := h
    have e : (transactionOf setSent .one).command.map (·.part) = some .tightening := by decide +kernel
    have f : ∀ d ∈ setSent.site 0, d.tightening.map (·.resends) = some 0 := by decide +kernel
    rw [hc] at e
    have hk : c.part = .tightening := by simpa using e
    have g := f d hd
    rw [hk] at hp
    rw [show d.tightening = some p from hp] at g
    exact hz (by simpa using g)
  · have e : (transactionOf setResent .one).command = some { tight with inProgress := true } := by decide +kernel
    have f : ∀ d ∈ setResent.site 0, d.inFlight = true ∧ d.tightening = some ⟨[.limit], .sent, false, 1⟩ ∧
        d.commanded.map (·.image.lookup .limit) = some (some (.limit (some 60))) := by decide +kernel
    obtain ⟨f1, f2, f3⟩ := f d hd
    refine ⟨fun h => h.1 (hb u hu), f1, _, _, e, rfl, f2, rfl, by decide, Or.inl ⟨by decide, ?_⟩⟩
    obtain ⟨c, hc, hl⟩ := Option.map_eq_some_iff.1 f3
    exact ⟨c, hc, fun _ => by rw [hl]; decide, fun _ => by rw [hl]; decide⟩
/-- The frames of the sign at address 1 that show no limit and the limit wanted are valid replies. -/
theorem witness_SignReply_valid :
    judgeReply (.sign 0) 1 (stateFrame 0) = .valid (.state (shown 0)) ∧
      judgeReply (.sign 0) 1 (stateFrame 6) = .valid (.state (shown 6)) ∧ (shown 6).limit = some 60 := by decide +kernel
/-- A SET in progress leaves the queue when its transaction ends (R120). -/
theorem witness_ValidReply_set :
    (setSent.line .one).queue = [{ tight with inProgress := true }] ∧
      (((after (.validReply .one (stateFrame 6)) setSent).line .one).queue.all fun c => !c.inProgress) = true := by
  decide +kernel
/-- The dark target in DARKENING, where an event of a line may end it. -/
theorem witness_LineSide_mode : darkening.delivery.target = .dark ∧ darkening.mode = .darkening := by decide +kernel
/-- A poll that shows what the part pending wants; one that shows what nobody asked for; one after a restart. -/
theorem witness_SignReply_poll :
    (polledUp.line .one).openWindow.map (·.command) = some none ∧
      (polledUp.site 0).map (fun d => (d.inFlight, d.wanted, d.tightening)) =
        some (false, [(.limit, .limit (some 60))], some ⟨[.limit], .waiting, false, 0⟩) ∧
      (driftedUp.site 0).map (fun d => (d.inFlight, d.tightening, d.relaxing, d.darkening)) =
        some (false, none, none, none) ∧ driftedUp.mode = .live ∧
      (polledUp.unit 0).map (·.state) = some .up ∧
      ((withUnits polledUp fun u => { u with boot := some 16 }).unit 0).map (·.boot) =
        some (some 16) := by decide +kernel
/-- R156: a restarted readback that confirms the last part ends the delivery, also where its re-form then forms a part of a
lane that had none. -/
theorem test_restarted_readback_completes :
    let s := (withUnits polledUp fun u => { u with boot := some 16 }).modifySite 0 fun d => { d with
      wanted := [(.limit, .limit (some 60)), (.lane 1, .lane .closed)] }
    let t := after (.validReply .one (stateFrame 6)) { s with delivery := { s.delivery with state := .delivering } }
    t.delivery.state = .done ∧ t.delivery.completion.isSome = true ∧
      (t.site 0).map (fun d => d.tightening.map (·.elements)) = some (some [.lane 1]) := by decide +kernel
/-- A DATA of the outstation: of a PROBING unit, the one that makes it UP, one of a LOST unit, one of an UP unit without a
baseline, and ones 99, 100, 10000 and 10001 ms after a baseline. -/
theorem witness_StationReply :
    (polled2.line .two).openWindow.map (·.unit) = some 2 ∧ (polled2.unit 2).map (·.owner) = some (.outstation 0) ∧
      (polled2.unit 2).map (fun u => (u.state, u.good, u.boot)) = some (.probing, 0, none) ∧
      judgeReply (.outstation 0) 1 dataFrame = .valid (.data ⟨17, 20000, []⟩) ∧
      (polled2.station 0).map (·.baseline) = some none ∧ (polled2.store.station 0).isSome = true ∧
      ((unitTwo .probing 3).unit 2).map (fun u => (u.state, u.good)) = some (.probing, 3) ∧
      ((unitTwo .lost 0).unit 2).map (·.state) = some .lost ∧ ((unitTwo .up 0).unit 2).map (·.state) = some .up ∧
      [19901, 19900, 10000, 9999].map (difference 4294967296 20000) = [99, 100, 10000, 10001] := by decide +kernel
theorem witness_RepliesThatAreNone :
    polled.verdict .one (state1.dropLast ++ [0]) = some .badCheck ∧
      polled.verdict .one (fieldFrame 1 kindState [17]) = some .malformed ∧
      polled.verdict .one [0x7E, 2, 0x20] = some .wrongAddress ∧ (polled.line .one).openWindow.isSome = true ∧
      (polled.line .one).streak < 2 ∧ polled.phase ≠ .held ∧ (quiet.line .one).openWindow = none ∧
      (quiet.line .one).burstCounted = false ∧ (jammed.line .one).openWindow = none ∧
      (jammed.line .one).state = .jammed := by decide +kernel
/-- Section 6.2 and R115: a DATA of one lane, one whose LEN is not 6 + 11 n, a STATE of an aspect code outside its table, a
STATE of an outstation, and a frame cut short by one byte. -/
theorem test_judged_bytes :
    let lane : List Byte := [0, 3, 0, 0, 1, 0, 0, 0, 2, 0, 1]
    judgeReply (.outstation 0) 1 (fieldFrame 1 kindData ([17, 0, 0, 78, 32, 1] ++ lane)) =
        .valid (.data ⟨17, 20000, [⟨⟨3, 256, 512⟩, .loopOpen⟩]⟩) ∧
      judgeReply (.outstation 0) 1 (fieldFrame 1 kindData ([17, 0, 0, 78, 32, 1] ++ lane.dropLast)) = .malformed ∧
      judgeReply (.sign 0) 1 (fieldFrame 1 kindState [17, 0, 0, 5, 1, 1, 0, 0, 0, 0, 0, 0, 0, 0, 0, 0, 0, 0]) = .malformed ∧
      judgeReply (.outstation 0) 1 (stateFrame 6) = .malformed ∧
      judgeReply (.sign 0) 1 (stateFrame 6).dropLast = .incomplete ∧
      judgeReply (.sign 0) 1 ((stateFrame 6).dropLast ++ [0]) = .badCheck := by decide +kernel
/-- A third inverted reply in a row. -/
theorem witness_RepliesThatAreNone_third :
    let s := polled.setLine .one { polled.line .one with streak := 2 }
    2 ≤ (s.line .one).streak ∧ (s.line .one).openWindow.isSome = true ∧ (s.line .one).skipping = false := by
  decide +kernel
/-- SUSPECT units at their second and third miss. -/
theorem witness_WindowEnd_suspect :
    let unit (miss : Nat) : State := withUnits retried fun u => { u with state := .suspect, miss := miss }
    ((unit 1).unit 0).map (fun u => (u.state, u.miss)) = some (.suspect, 1) ∧
      ((unit 2).unit 0).map (fun u => (u.state, u.miss)) = some (.suspect, 2) ∧
      ((unit 2).line .one).transaction.map (fun x => (x.stage, x.retry)) = some (.window 10, true) := by decide +kernel
/-- A SET whose retry's window ends, its part SENT, with its sign UP and with its sign PROBING. -/
theorem witness_WindowEnd_set :
    (setMissed.line .one).transaction.map (fun x => (x.retry, x.command.isSome, x.unit)) = some (true, true, 0) ∧
      (setMissed.site 0).map (fun d => (d.inFlight, d.tightening)) = some (true, some ⟨[.limit], .sent, false, 0⟩) ∧
      (setMissed.unit 0).map (fun u => (u.owner, u.state)) = some (.sign 0, .up) ∧
      ((withUnits setMissed fun u => { u with state := .probing }).unit 0).map (·.state) =
        some .probing := by decide +kernel
/-- A poll of a sign whose site has a part pending, and of an outstation whose station is not BLIND, at its last miss. -/
theorem witness_WindowEnd_lost :
    let s := withUnits polledUp fun u => { u with state := .suspect, miss := 2 }
    (s.line .one).transaction.map (·.command) = some none ∧
      (s.site 0).map (·.tightening) = some (some ⟨[.limit], .waiting, false, 0⟩) ∧
      (polled2.station 0).map (·.state) = some .free ∧ (polled2.unit 2).map (·.state) = some .probing := by
  decide +kernel
theorem witness_WindowEnd :
    (polled.line .one).transaction.map (fun x => (x.stage, x.retry)) = some (.window 5, false) ∧ polled.now < 5 ∧
      (retried.line .one).transaction.map (fun x => (x.stage, x.retry)) = some (.window 10, true) ∧ 10 ≤ retried.now ∧
      (retried.unit (transactionOf retried .one).unit).map (·.state) = some .probing := by decide +kernel
theorem witness_Jam :
    let s := after (.lineActivity .one) quiet
    (s.line .one).state = .normal ∧ (s.line .one).driving = false ∧ (s.line .one).openWindow = none ∧
      (s.line .one).jamTimer = some 0 ∧ (jammed.line .one).state = .jammed ∧
      (jammed.line .one).jam = some ⟨50, 500, false⟩ ∧ 50 + 3 * 500 ≤ jammed.now ∧
      (jammed.units.map (·.state)).all (fun x => decide (x ≠ .absent)) = true := by decide +kernel
/-- The sign of each site in the slot of the site. -/
theorem witness_SignsInPlace : jammed.SignsInPlace ∧ live.SignsInPlace := by
  have one : ∀ s : State, s.units.map (·.owner) = [.sign 0, .sign 1, .outstation 0] → s.SignsInPlace := by
    intro s h j v k hv hk
    have e : (s.units.map (·.owner))[j]? = some (.sign k) := by
      rw [List.getElem?_map]
      unfold State.unit at hv
      rw [hv]
      exact congrArg some hk
    rw [h] at e
    rcases j with _ | _ | _ | j <;> simp at e <;> omega
  exact ⟨one _ (by decide +kernel), one _ (by decide +kernel)⟩
/-- R131, R136, R139 and R152: the jam goes on with an UP sign whose limit is available and whose site has a part pending. -/
theorem test_jam_continues :
    let lit (u : UnitRec) : UnitRec :=
      { u with state := .up, elements := u.elements.map fun e => { e with reported := some .ok, available := true } }
    let s := (withUnits jammed lit).modifySite 0 fun d => { d with tightening := some ⟨[.limit], .waiting, false, 0⟩ }
    let t := after (.jamContinues .one) { s with evaluator := { s.evaluator with pending := false } }
    (t.unit 0).map (·.state) = some .lost ∧ (t.unit 2).map (·.state) = some .up ∧
      t.evaluator.pending = true ∧ t.evaluator.available[0]? = some [] ∧
      (t.port .b).flags &&& 0x04 = 0x04 ∧ t.delivery.abandonments = 1 ∧
      (t.site 0).map (fun d => d.tightening.map (·.state)) = some (some .abandoned) := by decide +kernel
/-- A jam while a SET's retry is owed, where no release is to be judged otherwise. -/
theorem witness_Jam_set :
    (jamming.line .one).state = .normal ∧ (jamming.line .one).driving = false ∧ (jamming.line .one).openWindow = none ∧
      (jamming.line .one).jamTimer.map (fun d => decide (d + 50 ≤ jamming.now)) = some true ∧
      (jamming.line .one).queue = [{ tight with inProgress := true }] ∧ (jamming.line .two).queue = [] ∧
      jamming.MayRelease 0 .tightening ∧ Released jamming ∧ jamming.delivery.Busy := by
  have e : jamming.judgeReleases = jamming := by decide +kernel
  refine ⟨by decide +kernel, by decide +kernel, by decide +kernel, by decide +kernel, by decide +kernel, by decide +kernel,
    Or.inl rfl, e ▸ judgeReleases_released jamming, (busy_iff _).2 (by decide +kernel)⟩
theorem witness_UnjamAndNextPollCycle :
    (jammed.line .one).state = .jammed ∧ (jammed.line .one).unjamTimer = some 50 ∧ 50 + 500 ≤ jammed.now ∧
      (jamAt 549).now < 50 + 500 ∧ jammed.store.geometry.isSome = true ∧
      (drained.line .one).cycle = some ⟨0, 500, 0, [], some 500⟩ ∧ 0 + 500 ≤ drained.now := by decide +kernel

end Sys2Proof.Tests
end

section
/-! SUPPORT. What a good frame can do on its port and to the blocks, whatever its command, and what leaves the
configuration store and the mode alone. -/

namespace Sys2Proof.Machine

theorem OnlyTable.refl (s : State) : OnlyTable s s := rfl

theorem OnlyTable.trans {s t u : State} (h : OnlyTable s t) (g : OnlyTable t u) : OnlyTable s u := by
  unfold OnlyTable at h g ⊢
  rw [g, h]

/-- The record of a port is among what `OnlyTable` lets differ. -/
theorem setPort_onlyTable (s : State) (p : Port) (r : PortRec) : OnlyTable s (s.setPort p r) := rfl

theorem notifyOthers_onlyTable (s : State) (p : Port) (n : Notice) : OnlyTable s (s.notifyOthers p n) := rfl

/-- What a good frame does to the liveness of its port (R45, R47). -/
theorem goodFrameTaken_onlyTable (s : State) (p : Port) : OnlyTable s (s.goodFrameTaken p) := by
  unfold State.goodFrameTaken
  split
  · exact setPort_onlyTable _ _ _
  · unfold State.returnPort
    refine OnlyTable.trans ?_ (notifyOthers_onlyTable _ _ _)
    split
    · exact (setPort_onlyTable _ _ _).trans (changeTable_onlyTable _ _)
    · exact setPort_onlyTable _ _ _

theorem OnlyPort.refl (s : State) (p : Port) : OnlyPort p s s := (State.setPort_self s p).symm

theorem setPort_onlyPort (s : State) (p : Port) (r : PortRec) : OnlyPort p s (s.setPort p r) := by
  unfold OnlyPort
  rw [State.setPort_port, if_pos rfl]

/-- A reply placed changes its port's record alone (R173). -/
theorem placeReply_onlyPort (s : State) (p : Port) (a : Answer) : OnlyPort p s (s.placeReply p a) := by
  cases hc : (s.port p).command with
  | none => simpa only [State.placeReply, hc] using OnlyPort.refl s p
  | some c => simpa only [State.placeReply, hc] using setPort_onlyPort s p _

/-- A command carried out: what its body leaves, with a reply or none on its port. -/
theorem carryOut_onlyPort (s : State) (p : Port) (body : CommandBody) :
    OnlyPort p (body s).1 (s.carryOut p body) := by
  unfold State.carryOut
  split
  · rename_i t h
    rw [h]
    exact OnlyPort.refl _ _
  · rename_i t a h
    rw [h]
    exact placeReply_onlyPort _ _ _

/-- What a good frame can do: on a port that does not hear, or is EXECUTING, nothing beyond the liveness of the port; on
any other its command, carried out after that and answered on the port. -/
theorem takeFrame_cases (s : State) (p : Port) (code seq : Byte) (body : CommandBody) :
    OnlyTable s (s.takeFrame p code seq body) ∨
      ∃ u, OnlyTable s u ∧ OnlyPort p (body u).1 (s.takeFrame p code seq body) := by
  unfold State.takeFrame
  split
  · dsimp only
    split
    · exact Or.inl ((goodFrameTaken_onlyTable _ _).trans (setPort_onlyTable _ _ _))
    · exact Or.inr ⟨_, (goodFrameTaken_onlyTable _ _).trans (setPort_onlyTable _ _ _), carryOut_onlyPort _ _ _⟩
  · exact Or.inl rfl

/-! ## The configuration and the mode left alone -/

/-- The store, the mode and the target of delivery are those of another state. -/
structure SameConfig (s t : State) : Prop where
  store : t.store = s.store
  mode : t.mode = s.mode
  target : t.delivery.target = s.delivery.target

theorem SameConfig.of_onlyTable {s t : State} (h : OnlyTable s t) : SameConfig s t := by
  unfold OnlyTable at h
  rw [h]
  exact ⟨rfl, rfl, rfl⟩

theorem SameConfig.of_onlyPort {p : Port} {s t : State} (h : OnlyPort p s t) : SameConfig s t := by
  unfold OnlyPort at h
  rw [h]
  exact ⟨rfl, rfl, rfl⟩

/-- The store left as it is, and, where the dark target stands in DARKENING alone (R158), the mode neither entering nor
leaving UNCONFIGURED and the dark target standing in DARKENING alone afterwards. -/
structure ConfigKept (s t : State) : Prop where
  store : t.store = s.store
  mode : (s.delivery.target = .dark → s.mode = .darkening) →
    (t.mode = .unconfigured ↔ s.mode = .unconfigured) ∧ (t.delivery.target = .dark → t.mode = .darkening)

theorem SameConfig.kept {s t : State} (h : SameConfig s t) : ConfigKept s t where
  store := h.store
  mode hd := by
    rw [h.mode, h.target]
    exact ⟨Iff.rfl, hd⟩

theorem ConfigKept.refl (s : State) : ConfigKept s s := ⟨rfl, fun hd => ⟨Iff.rfl, hd⟩⟩

theorem ConfigKept.trans {s t u : State} (h : ConfigKept s t) (g : ConfigKept t u) : ConfigKept s u where
  store := g.store.trans h.store
  mode hd := by
    obtain ⟨h1, h2⟩ := h.mode hd
    obtain ⟨g1, g2⟩ := g.mode h2
    exact ⟨g1.trans h1, g2⟩

theorem ConfigKept.of_onlyTable {s t : State} (h : OnlyTable s t) : ConfigKept s t := (SameConfig.of_onlyTable h).kept

/-- A change from one mode but UNCONFIGURED to another with the plan as its target. -/
theorem ConfigKept.of_plan {s t : State} (hs : t.store = s.store) (h : s.mode ≠ .unconfigured)
    (g : t.mode ≠ .unconfigured) (ht : t.delivery.target = .plan) : ConfigKept s t where
  store := hs
  mode _ := ⟨iff_of_false g h, fun hd => by rw [ht] at hd; cases hd⟩

/-- The handings of the field side leave the configuration (R157, R167). -/
theorem FieldSide.configKept {s t : State} (h : FieldSide s t) : ConfigKept s t where
  store := h.store
  mode hd := by
    rcases h.mode with ⟨hm, ht⟩ | ⟨hs, ht, hm⟩
    · rw [hm, ht]
      exact ⟨Iff.rfl, hd⟩
    · rw [hm, ht, hd hs]
      exact ⟨by decide, fun x => by cases x⟩

theorem Handing.configKept {s t : State} (h : Handing s t) : ConfigKept s t := h.side.configKept

/-- A record given to a line and then a handing. -/
theorem ConfigKept.of_line {s t : State} {l : LineId} {r : LineRec} (h : Handing (s.setLine l r) t) : ConfigKept s t :=
  (setLine_side s l r).configKept.trans h.configKept

/-- A good frame leaves the configuration where its command's body does. -/
theorem takeFrame_configKept (s : State) (p : Port) (code seq : Byte) (body : CommandBody)
    (h : ∀ u, ConfigKept u (body u).1) : ConfigKept s (s.takeFrame p code seq body) := by
  rcases takeFrame_cases s p code seq body with ht | ⟨u, hu, ht⟩
  · exact .of_onlyTable ht
  · exact ((ConfigKept.of_onlyTable hu).trans (h u)).trans (SameConfig.of_onlyPort ht).kept

end Sys2Proof.Machine
end

section
/-! SUPPORT. The commands and events that leave the configuration store and let the mode move only as R158 says: all but
the resets and the commands of the store itself. -/

namespace Sys2Proof.Machine

/-! ## Commands that every authority may send -/

theorem setPort_configKept (s : State) (p : Port) (r : PortRec) : ConfigKept s (s.setPort p r) :=
  SameConfig.kept ⟨rfl, rfl, rfl⟩

theorem drawCompletion_configKept (s : State) : ConfigKept s s.drawCompletion := by
  unfold State.drawCompletion
  split
  · exact SameConfig.kept ⟨rfl, rfl, rfl⟩
  · exact .refl s

theorem readPlanBody_configKept (first last : Nat) (s : State) : ConfigKept s (readPlanBody first last s).1 := by
  unfold readPlanBody
  dsimp only
  split
  · exact .refl s
  · split <;> exact .refl s

theorem readUnitsBody_configKept (first last : Nat) (s : State) : ConfigKept s (readUnitsBody first last s).1 := by
  unfold readUnitsBody
  split <;> exact .refl s

theorem readStationsBody_configKept (first last : Nat) (s : State) :
    ConfigKept s (readStationsBody first last s).1 := by
  unfold readStationsBody
  split <;> exact .refl s

theorem readDeliveryBody_configKept (first last : Nat) (s : State) :
    ConfigKept s (readDeliveryBody first last s).1 := by
  unfold readDeliveryBody
  dsimp only
  split
  · exact drawCompletion_configKept s
  · split
    · exact .refl s
    · exact drawCompletion_configKept s

theorem noticesBody_configKept (p : Port) (s : State) : ConfigKept s (noticesBody p s).1 :=
  (setPort_configKept _ _ _).trans (drawCompletion_configKept _)

theorem countersBody_configKept (p : Port) (request : Byte) (s : State) :
    ConfigKept s (countersBody p request s).1 := by
  unfold countersBody answer
  dsimp only
  split
  · exact SameConfig.kept ⟨rfl, rfl, rfl⟩
  · exact .refl s

/-! ## Commands of the request table -/

theorem changeTable_configKept (s : State) (t : Table) : ConfigKept s (s.changeTable t) :=
  .of_onlyTable (changeTable_onlyTable _ _)

theorem requestBody_configKept (p : Port) (r : RequestFields) (s : State) : ConfigKept s (requestBody p r s).1 := by
  unfold requestBody
  split
  · exact .refl s
  split
  · exact .refl s
  split
  · exact .refl s
  split
  · exact .refl s
  split
  · exact changeTable_configKept _ _
  split
  · exact .refl s
  split
  · exact .refl s
  · exact changeTable_configKept _ _

theorem withdrawBody_configKept (p : Port) (tag : Nat) (s : State) : ConfigKept s (withdrawBody p tag s).1 := by
  unfold withdrawBody
  split
  · exact .refl s
  split
  · exact .refl s
  · exact changeTable_configKept _ _

theorem withdrawAllBody_configKept (p : Port) (s : State) : ConfigKept s (withdrawAllBody p s).1 := by
  unfold withdrawAllBody
  split
  · exact .refl s
  · exact changeTable_configKept _ _

theorem releaseEntries_configKept (p x : Port) (first last : Nat) (clamped : Bool) (s : State) :
    ConfigKept s (releaseEntries p x first last clamped s).1 := by
  unfold releaseEntries answer
  dsimp only
  split
  · exact changeTable_configKept _ _
  · exact (changeTable_configKept _ _).trans (setPort_configKept _ _ _)

theorem releaseBody_configKept (p : Port) (requester first last : Nat) (s : State) :
    ConfigKept s (releaseBody p requester first last s).1 := by
  unfold releaseBody
  dsimp only
  split
  · exact .refl s
  split
  · exact .refl s
  split
  · exact .refl s
  · exact releaseEntries_configKept _ _ _ _ _ _

theorem setInhibit_configKept (s : State) (x : Station) (d : Option Nat) : ConfigKept s (s.setInhibit x d) := by
  unfold State.setInhibit
  split
  · exact .refl s
  · exact ((setStation_handing _ _).trans (handStation_handing _ _)).configKept

theorem inhibitBody_configKept (k seconds : Nat) (s : State) : ConfigKept s (inhibitBody k seconds s).1 := by
  unfold inhibitBody
  split
  · exact .refl s
  split
  · exact .refl s
  split
  · exact .refl s
  · exact setInhibit_configKept _ _ _

/-! ## Modes -/

/-- Epoch 0 taken leaves the store and the mode, with the plan as the target (R155). -/
theorem takeEpochZero_config (s : State) (d : DeliveryState) : (s.takeEpochZero d).store = s.store ∧
    (s.takeEpochZero d).mode = s.mode ∧ (s.takeEpochZero d).delivery.target = .plan :=
  ⟨(withdraws_parts s).store, (withdraws_parts s).mode, rfl⟩

/-- The dark target taken leaves the store and the mode (R158). -/
theorem formDark_config (s : State) : s.formDark.store = s.store ∧ s.formDark.mode = s.mode ∧
    s.formDark.delivery.target = .dark := by
  obtain ⟨hs, -, hm, -, ht, -⟩ := toDark_frame s
  have h := (forSites_parts s.toDark _ fun i t => reform_parts t i).trans (judgeReleases_parts _)
  rw [formDark_toDark]
  exact ⟨h.store.trans hs, h.mode.trans hm, h.target.trans ht⟩

/-- The dark target taken in DARKENING (R158). -/
theorem formDark_configKept (s : State) (hm : s.mode = .darkening) : ConfigKept s s.formDark := by
  obtain ⟨hs, hm', -⟩ := formDark_config s
  exact ⟨hs, fun _ => ⟨by rw [hm'], fun _ => hm'.trans hm⟩⟩

theorem goLive_configKept (s : State) (h : s.mode ≠ .unconfigured) : ConfigKept s s.goLive := by
  obtain ⟨hs, hm, ht⟩ := takeEpochZero_config ((s.replacePlan s.adoptedPlan).changeMode .live) .done
  exact .of_plan hs h (fun x => nomatch hm.symm.trans x) ht

theorem goDark_configKept (s : State) (h : s.mode ≠ .unconfigured) : ConfigKept s s.goDark := by
  have first : ConfigKept s (s.changeMode .darkening) :=
    ⟨rfl, fun _ => ⟨iff_of_false (fun x => nomatch x) h, fun _ => rfl⟩⟩
  exact (first.trans (formDark_configKept _ rfl)).trans (judgeCompletion_handing _).configKept

/-- SET_MODE moves a state only to LIVE or toward SHADOW, and only out of a mode other than UNCONFIGURED (R164). -/
theorem setMode_cases (s : State) (t : ModeTarget) : (s.setMode t).1 = s ∨
    s.mode ≠ .unconfigured ∧ ((s.setMode t).1 = s.goLive ∨ (s.setMode t).1 = s.goDark) := by
  unfold State.setMode
  generalize s.goLive = live
  generalize s.goDark = dark
  cases s.mode <;> cases t
  case live.shadow =>
    dsimp only
    split <;> simp
  all_goals simp

theorem setMode_configKept (s : State) (t : ModeTarget) : ConfigKept s (s.setMode t).1 := by
  rcases setMode_cases s t with h | ⟨hm, h | h⟩ <;> rw [h]
  · exact .refl s
  · exact goLive_configKept s hm
  · exact goDark_configKept s hm

theorem setModeBody_configKept (p : Port) (payload : List Byte) (s : State) :
    ConfigKept s (setModeBody p payload s).1 := by
  show ConfigKept s (s.judgeSetMode p payload).1
  unfold State.judgeSetMode
  split
  · exact .refl s
  split
  · exact .refl s
  split
  · exact .refl s
  · exact setMode_configKept s _

theorem replacePlan_configKept (s : State) (plan : List PlanSite) : ConfigKept s (s.replacePlan plan) :=
  SameConfig.kept ⟨rfl, rfl, rfl⟩

/-- A plan of epoch 0 taken where the section is committed (R55, R155). -/
theorem planZero_configKept (s : State) (plan : List PlanSite) (d : DeliveryState) (h : s.mode ≠ .unconfigured) :
    ConfigKept s ((s.replacePlan plan).takeEpochZero d) := by
  obtain ⟨hs, hm, ht⟩ := takeEpochZero_config (s.replacePlan plan) d
  exact .of_plan hs h (fun x => h (hm.symm.trans x)) ht

/-- The plan's part and delivery's of a RESTART: none in UNCONFIGURED, and in DARKENING the dark target again (R168). -/
theorem restartPlan_configKept (s : State) : ConfigKept s s.restartPlan := by
  unfold State.restartPlan
  split
  · exact .refl s
  · exact planZero_configKept _ _ _ (by simp [*])
  · exact planZero_configKept _ _ _ (by simp [*])
  · exact (replacePlan_configKept s _).trans (formDark_configKept _ (by assumption))

theorem restartUnits_handing (s : State) : Handing s s.restartUnits :=
  forUnits_handing _ _ fun i t => by
    split
    · exact .refl t
    · exact storeUnit_handing _ _ _

theorem restarted_configKept (s : State) : ConfigKept s s.restarted := by
  have table : ConfigKept s s.restartTable := changeTable_configKept _ _
  have ports : ConfigKept s.restartTable s.restartTable.restartPorts := SameConfig.kept ⟨rfl, rfl, rfl⟩
  have units := (restartUnits_handing s.restartTable.restartPorts).configKept
  have others (u : State) : ConfigKept u u.restartStations.restartLines.restartDelivery :=
    SameConfig.kept ⟨rfl, rfl, rfl⟩
  have flags (u : State) : ConfigKept u { u with cause := .restart }.restartFlags := SameConfig.kept ⟨rfl, rfl, rfl⟩
  exact ((((table.trans ports).trans units).trans (others _)).trans (restartPlan_configKept _)).trans (flags _)

theorem restartBody_configKept (s : State) : ConfigKept s (restartBody s).1 := by
  unfold restartBody
  split
  · exact .refl s
  · exact restarted_configKept s

/-! ## Transactions that carry no command, and timers -/

theorem onPort_configKept (s : State) (p : Port) (f : PortRec → PortRec) : ConfigKept s (s.onPort p f) := by
  unfold State.onPort
  split
  · exact setPort_configKept _ _ _
  · exact .refl s

theorem fallSilent_configKept (s : State) (p : Port) : ConfigKept s (s.fallSilent p) := by
  have others (u : State) : ConfigKept u (u.notifyOthers p .port) := SameConfig.kept ⟨rfl, rfl, rfl⟩
  refine ConfigKept.trans ?_ (others _)
  generalize hu : s.setPort p { s.port p with
    liveness := .silent, deadline := none, silences := countUp (s.port p).silences } = u
  have silent : ConfigKept s u := hu ▸ setPort_configKept _ _ _
  refine silent.trans ?_
  split
  · have changed := changeTable_configKept u (u.table.silence p)
    dsimp only
    split
    · exact changed.trans (setPort_configKept _ _ _)
    · exact changed
  · exact .refl u

theorem notifyOwner_configKept (s : State) (r : Requester) (n : Notice) : ConfigKept s (s.notifyOwner r n) := by
  cases r with
  | port p => exact setPort_configKept _ _ _
  | qp => exact .refl s

theorem endFaultHold_configKept (s : State) (x : Station) : ConfigKept s (s.endFaultHold x) := by
  have first := setStation_handing s { x with faultOver := true }
  unfold State.endFaultHold
  dsimp only
  split
  · exact ((first.trans (handStation_handing _ _)).trans (notifyAll_handing _ _)).configKept
  · exact first.configKept

/-! ## Passes -/

theorem publish_configKept (s : State) (plan : List PlanSite) : ConfigKept s (s.publish plan) :=
  have shown : ConfigKept s ({ s with evaluator :=
      { s.evaluator with plan := plan, epoch := nextEpoch s.evaluator.epoch } }.notifyAll .plan) :=
    SameConfig.kept ⟨rfl, rfl, rfl⟩
  shown.trans (takeEpoch_handing _).configKept

theorem endPass_configKept (s : State) (p : Pass) : ConfigKept s (s.endPass p) := by
  have idle : ConfigKept s { s with evaluator := { s.evaluator with running := none } } :=
    SameConfig.kept ⟨rfl, rfl, rfl⟩
  unfold State.endPass
  dsimp only
  split
  · exact idle
  split
  · exact idle.trans (publish_configKept _ _)
  · exact SameConfig.kept ⟨rfl, rfl, rfl⟩

/-! ## Field lines -/

theorem setLine_configKept (s : State) (l : LineId) (r : LineRec) : ConfigKept s (s.setLine l r) :=
  SameConfig.kept ⟨rfl, rfl, rfl⟩

theorem onLine_configKept (s : State) (l : LineId) (f : LineRec → LineRec) : ConfigKept s (s.onLine l f) := by
  unfold State.onLine
  split
  · exact setLine_configKept _ _ _
  · exact .refl s

theorem startWork_configKept (s : State) (l : LineId) (w : Work) : ConfigKept s (s.startWork l w) := by
  cases w with
  | retry t => exact setLine_configKept _ _ _
  | set c => exact .of_line (startWork_set s l c)
  | poll a => exact setLine_configKept _ _ _

theorem failAttempt_configKept (s : State) (l : LineId) (t : Transaction) : ConfigKept s (s.failAttempt l t) := by
  cases h : t.retry with
  | true => exact .of_line (failAttempt_retry s l t h)
  | false =>
    rw [failAttempt_first s l t h]
    exact setLine_configKept _ _ _

end Sys2Proof.Machine
end

section
/-! SUPPORT. What any command or event can do to the configuration store, the mode and the target of delivery, said
once. -/

namespace Sys2Proof.Machine

/-! ## What a step can do to the configuration -/

/-- Nothing but what a reset sets the store, the mode and the target to (R1, R142, R161). -/
structure ConfigReset (t : State) : Prop where
  store : t.store = .initial
  mode : t.mode = .unconfigured
  target : t.delivery.target = .plan

/-- What a command or event other than a reset can do to the store, the mode and the target of delivery. -/
inductive ConfigStep (s t : State) : Prop where
  /-- The store stays, and the mode moves as R158 says. -/
  | kept (h : ConfigKept s t)
  /-- Before LOCKED, records or the commit state change (R4 to R9). -/
  | unlocked (before : s.store.commit ≠ .locked) (after : t.store.commit ≠ .locked)
      (geometry : t.store.geometry = s.store.geometry) (params : t.store.params = s.store.params)
      (mode : t.mode = s.mode) (target : t.delivery.target = s.delivery.target)
  /-- A validation passed (R9, R10, R163). -/
  | locked (before : s.store.commit = .validating) (sound : s.store.validate = none)
      (store : t.store = { s.store with commit := .locked, geometry := some s.store.derive })
      (mode : t.mode = .shadow) (target : t.delivery.target = .plan)
  /-- Parameters stored: clamped, and with no constraint broken (R13 to R16). -/
  | stored (pairs : List (ParamId × Nat)) (sound : brokenConstraint (applyPairs s.store.params pairs) = none)
      (store : t.store = { s.store with params := applyPairs s.store.params pairs })
      (mode : t.mode = s.mode) (target : t.delivery.target = s.delivery.target)

theorem ConfigStep.refl (s : State) : ConfigStep s s := .kept (.refl s)

/-- A step depends on the store, the mode and the target alone. -/
theorem ConfigStep.congr {s u v t : State} (h : SameConfig s u) (x : ConfigStep u v) (g : SameConfig v t) :
    ConfigStep s t := by
  cases x with
  | kept k => exact .kept ((h.kept.trans k).trans g.kept)
  | unlocked before after geometry params mode target =>
    rw [h.store] at before geometry params
    rw [← g.store] at after geometry params
    exact .unlocked before after geometry params (g.mode.trans (mode.trans h.mode))
      (g.target.trans (target.trans h.target))
  | locked before sound store mode target =>
    rw [h.store] at before sound store
    exact .locked before sound (g.store.trans store) (g.mode.trans mode) (g.target.trans target)
  | stored pairs sound store mode target =>
    rw [h.store] at sound store
    exact .stored pairs sound (g.store.trans store) (g.mode.trans (mode.trans h.mode))
      (g.target.trans (target.trans h.target))

/-- A good frame does to the configuration what its command's own rule does. -/
theorem command_configStep (s : State) (p : Port) (code seq : Byte) (needed : Authority) (form : Bool)
    (body : CommandBody) (h : ∀ u, ConfigStep u (body u).1) :
    ConfigStep s (s.takeFrame p code seq (judged p needed form body)) := by
  rcases takeFrame_cases s p code seq (judged p needed form body) with ht | ⟨u, hu, ht⟩
  · exact .kept (.of_onlyTable ht)
  · refine .congr (.of_onlyTable hu) ?_ (.of_onlyPort ht)
    unfold judged
    split
    · exact .refl u
    · split
      · exact .refl u
      · exact h u

theorem command_configKept (s : State) (p : Port) (code seq : Byte) (needed : Authority) (form : Bool)
    (body : CommandBody) (h : ∀ u, ConfigKept u (body u).1) :
    ConfigStep s (s.takeFrame p code seq (judged p needed form body)) :=
  command_configStep s p code seq needed form body fun u => .kept (h u)

/-! ## The commands of the store -/

theorem geometryBody_configStep {α : Type} (p : Port) (slots given : Nat) (records : List (Placed α))
    (place : Nat → List (Option α) → Store → Store)
    (hp : ∀ start rs c, (place start rs c).commit = c.commit ∧ (place start rs c).geometry = c.geometry ∧
      (place start rs c).params = c.params) (s : State) :
    ConfigStep s (geometryBody p slots given records place s).1 := by
  unfold geometryBody
  dsimp only
  split
  · exact .refl s
  rename_i ho
  have ho : s.store.commit = .openState := by simpa using ho
  split
  · exact .refl s
  split
  · exact .refl s
  split
  · exact .refl s
  · obtain ⟨hc, hg, hps⟩ := hp (startInUse given (s.store.cursors.get p)) (records.map Placed.content) s.store
    exact .unlocked (by rw [ho]; decide) (by show (place _ _ _).commit ≠ _; rw [hc, ho]; decide) hg hps rfl rfl

theorem boundaryBody_configStep (payload : List Byte) (s : State) : ConfigStep s (boundaryBody payload s).1 := by
  unfold boundaryBody
  split
  · exact .refl s
  rename_i ho
  have ho : s.store.commit = .openState := by simpa using ho
  split
  · exact .refl s
  · exact .unlocked (by rw [ho]; decide) (by show s.store.commit ≠ _; rw [ho]; decide) rfl rfl rfl rfl

theorem commitBody_configStep (s : State) : ConfigStep s (commitBody s).1 := by
  unfold commitBody
  split
  · exact .refl s
  rename_i ho
  have ho : s.store.commit = .openState := by simpa using ho
  exact .unlocked (by rw [ho]; decide) (fun x => nomatch x) rfl rfl rfl rfl

theorem paramBody_configStep (pairs : List (Nat × Nat)) (s : State) : ConfigStep s (paramBody pairs s).1 := by
  unfold paramBody
  split
  · exact .refl s
  split
  · exact .refl s
  dsimp only
  split
  · exact .refl s
  · rename_i hb
    exact .stored _ hb rfl rfl rfl

theorem endValidation_configStep (s : State) (h : s.store.commit = .validating) : ConfigStep s s.endValidation.1 := by
  unfold State.endValidation
  split
  · exact .unlocked (by rw [h]; decide) (fun x => nomatch x) rfl rfl rfl rfl
  · rename_i hv
    exact .locked h hv rfl rfl rfl

theorem commitValidationEnd_configStep (s : State) :
    ∃ t, exec .commitValidationEnd s = .next t ∧ ConfigStep s t := by
  refine ⟨_, rfl, ?_⟩
  split
  · rename_i h
    split
    · exact endValidation_configStep s h
    · exact .congr ⟨rfl, rfl, rfl⟩ (endValidation_configStep s h) (.of_onlyPort (placeReply_onlyPort _ _ _))
  · exact .refl s

/-! ## Every command and event -/

/-- An event whose condition does not hold changes nothing (log entry 6). -/
theorem ConfigKept.ite {b : Prop} [Decidable b] {s t : State} (h : ConfigKept s t) :
    ConfigKept s (if b then t else s) := by
  split
  · exact h
  · exact .refl s


/-- What every command and event other than a reset and its release does to the configuration. -/
theorem exec_configStep (c : Instr) (s : State) (hr : isReset c = false) :
    ∃ t, exec c s = .next t ∧ ConfigStep s t := by
  cases c with
  | powerOnReset straps => cases hr
  | pinReset straps n => cases hr
  | resetRelease => cases hr
  | portsReady => exact ⟨_, rfl, .kept (.ite (SameConfig.kept ⟨rfl, rfl, rfl⟩))⟩
  | voidTransaction p sdi => exact ⟨_, rfl, .kept (onPort_configKept _ _ _)⟩
  | readTransaction p n => exact ⟨_, rfl, .kept (onPort_configKept _ _ _)⟩
  | badFrame p frame => exact ⟨_, rfl, .kept (onPort_configKept _ _ _)⟩
  | overrun p =>
    exact ⟨_, rfl, .kept (.ite (.of_onlyTable ((goodFrameTaken_onlyTable _ _).trans (setPort_onlyTable _ _ _))))⟩
  | unknownCommand p code seq payload =>
    refine ⟨_, rfl, .kept ?_⟩
    split
    · exact .refl s
    · exact takeFrame_configKept _ _ _ _ _ fun u => .refl u
  | status p seq payload =>
    exact ⟨_, rfl, command_configKept _ _ _ _ _ _ _ fun u => setPort_configKept _ _ _⟩
  | keepalive p seq payload => exact ⟨_, rfl, command_configKept _ _ _ _ _ _ _ fun u => .refl u⟩
  | readPlan p seq payload => exact ⟨_, rfl, command_configKept _ _ _ _ _ _ _ (readPlanBody_configKept _ _)⟩
  | readEntries p seq payload => exact ⟨_, rfl, command_configKept _ _ _ _ _ _ _ fun u => .refl u⟩
  | readUnits p seq payload => exact ⟨_, rfl, command_configKept _ _ _ _ _ _ _ (readUnitsBody_configKept _ _)⟩
  | readStations p seq payload => exact ⟨_, rfl, command_configKept _ _ _ _ _ _ _ (readStationsBody_configKept _ _)⟩
  | readDelivery p seq payload => exact ⟨_, rfl, command_configKept _ _ _ _ _ _ _ (readDeliveryBody_configKept _ _)⟩
  | notices p seq payload => exact ⟨_, rfl, command_configKept _ _ _ _ _ _ _ (noticesBody_configKept _)⟩
  | setNoticeMask p seq payload =>
    exact ⟨_, rfl, command_configKept _ _ _ _ _ _ _ fun u => setPort_configKept _ _ _⟩
  | counters p seq payload => exact ⟨_, rfl, command_configKept _ _ _ _ _ _ _ (countersBody_configKept _ _)⟩
  | request p seq payload => exact ⟨_, rfl, command_configKept _ _ _ _ _ _ _ (requestBody_configKept _ _)⟩
  | withdraw p seq payload => exact ⟨_, rfl, command_configKept _ _ _ _ _ _ _ (withdrawBody_configKept _ _)⟩
  | withdrawAll p seq => exact ⟨_, rfl, command_configKept _ _ _ _ _ _ _ (withdrawAllBody_configKept _)⟩
  | release p seq payload => exact ⟨_, rfl, command_configKept _ _ _ _ _ _ _ (releaseBody_configKept _ _ _ _)⟩
  | inhibitQp p seq payload => exact ⟨_, rfl, command_configKept _ _ _ _ _ _ _ (inhibitBody_configKept _ _)⟩
  | geometryWrite p seq payload =>
    exact ⟨_, rfl, command_configStep _ _ _ _ _ _ _ (geometryBody_configStep _ _ _ _ _ fun _ _ _ => ⟨rfl, rfl, rfl⟩)⟩
  | stationWrite p seq payload =>
    exact ⟨_, rfl, command_configStep _ _ _ _ _ _ _ (geometryBody_configStep _ _ _ _ _ fun _ _ _ => ⟨rfl, rfl, rfl⟩)⟩
  | boundaryWrite p seq payload => exact ⟨_, rfl, command_configStep _ _ _ _ _ _ _ (boundaryBody_configStep _)⟩
  | commit p seq payload => exact ⟨_, rfl, command_configStep _ _ _ _ _ _ _ commitBody_configStep⟩
  | commitValidationEnd => exact commitValidationEnd_configStep s
  | paramSet p seq payload => exact ⟨_, rfl, command_configStep _ _ _ _ _ _ _ (paramBody_configStep _)⟩
  | setModeLive p seq payload => exact ⟨_, rfl, .kept (takeFrame_configKept _ _ _ _ _ (setModeBody_configKept _ _))⟩
  | setModeShadow p seq payload => exact ⟨_, rfl, .kept (takeFrame_configKept _ _ _ _ _ (setModeBody_configKept _ _))⟩
  | restart p seq payload => exact ⟨_, rfl, command_configKept _ _ _ _ _ _ _ restartBody_configKept⟩
  | portSilent p => exact ⟨_, rfl, .kept (.ite (fallSilent_configKept _ _))⟩
  | entryExpiry slot =>
    refine ⟨_, rfl, .kept ?_⟩
    split
    · exact .refl s
    · exact .ite ((changeTable_configKept _ _).trans (notifyOwner_configKept _ _ _))
  | holdDeadlineExpiry => exact ⟨_, rfl, .kept (.ite (SameConfig.kept ⟨rfl, rfl, rfl⟩))⟩
  | passStart => exact ⟨_, rfl, .kept (.ite (SameConfig.kept ⟨rfl, rfl, rfl⟩))⟩
  | passEnd =>
    refine ⟨_, rfl, .kept ?_⟩
    split
    · exact .refl s
    · exact endPass_configKept _ _
  | faultHoldExpiry k =>
    refine ⟨_, rfl, .kept ?_⟩
    split
    · exact .refl s
    · exact .ite (endFaultHold_configKept _ _)
  | inhibitExpiry k =>
    refine ⟨_, rfl, .kept ?_⟩
    split
    · exact .refl s
    · exact .ite (((setStation_handing _ _).trans (handStation_handing _ _)).configKept)
  | lineQuiet l cut => exact ⟨_, rfl, .kept (.ite (setLine_configKept _ _ _))⟩
  | frameStart l =>
    refine ⟨_, rfl, .kept ?_⟩
    split
    · exact .refl s
    · exact startWork_configKept _ _ _
  | frameSent l => exact ⟨_, rfl, .kept (onLine_configKept _ _ _)⟩
  | validReply l frame =>
    refine ⟨_, rfl, .kept ?_⟩
    split
    · exact .of_line (takeValidReply_handing _ _ _ _)
    · exact .refl s
  | replyFrameError l frame =>
    refine ⟨_, rfl, .kept ?_⟩
    split
    · exact setLine_configKept _ _ _
    · exact setLine_configKept _ _ _
    · exact .refl s
  | invertedReply l => exact ⟨_, rfl, .kept (.ite (setLine_configKept _ _ _))⟩
  | falseActivity l frame =>
    refine ⟨_, rfl, .kept ?_⟩
    split
    · exact onLine_configKept _ _ _
    · split
      · exact setLine_configKept _ _ _
      · exact .refl s
  | replyWindowEnd l =>
    refine ⟨_, rfl, .kept ?_⟩
    split
    · exact .refl s
    · exact .ite (failAttempt_configKept _ _ _)
  | lineJam l => exact ⟨_, rfl, .kept (.ite (.of_line (jam_handing _ _ _ _)))⟩
  | jamContinues l => exact ⟨_, rfl, .kept (.ite (.of_line (jam_handing _ _ _ _)))⟩
  | lineUnjam l => exact ⟨_, rfl, .kept (.ite (setLine_configKept _ _ _))⟩
  | pollCycleStart l =>
    refine ⟨_, rfl, .kept ?_⟩
    split
    · exact .refl s
    · exact setLine_configKept _ _ _
  | lineActivity l => exact ⟨_, rfl, .kept (onLine_configKept _ _ _)⟩

/-- What a reset or its release does to the configuration: its reset values, or nothing where it is ignored (R161). -/
theorem exec_configReset (c : Instr) (s : State) (hr : isReset c = true) :
    ∃ t, exec c s = .next t ∧ (t = s ∨ ConfigReset t) := by
  cases c with
  | powerOnReset straps => exact ⟨_, rfl, Or.inr ⟨rfl, rfl, rfl⟩⟩
  | pinReset straps n =>
    refine ⟨_, rfl, ?_⟩
    split
    · exact Or.inl rfl
    · exact Or.inr ⟨rfl, rfl, rfl⟩
  | resetRelease =>
    refine ⟨_, rfl, ?_⟩
    split
    · exact Or.inr ⟨rfl, rfl, rfl⟩
    · exact Or.inl rfl
  | _ => cases hr

/-- What any step does to the configuration. -/
theorem step_config (s t : State) (h : step s = .next t) : ConfigStep s t ∨ ConfigReset t := by
  unfold step at h
  split at h
  · cases h
    refine Or.inl (.kept (SameConfig.kept ?_))
    unfold State.idle
    split <;> exact ⟨rfl, rfl, rfl⟩
  · rename_i c rest _
    have same : SameConfig s { s with pending := rest } := ⟨rfl, rfl, rfl⟩
    cases hr : isReset c with
    | false =>
      obtain ⟨u, hu, hs⟩ := exec_configStep c { s with pending := rest } hr
      cases hu.symm.trans h
      exact Or.inl (hs.congr same ⟨rfl, rfl, rfl⟩)
    | true =>
      obtain ⟨u, hu, hs⟩ := exec_configReset c { s with pending := rest } hr
      cases hu.symm.trans h
      rcases hs with rfl | hs
      · exact Or.inl (.kept same.kept)
      · exact Or.inr hs

end Sys2Proof.Machine
end

section
/-! SUPPORT. The parameters under PARAM_SET (R12 to R16), and the invariants of the store and of the modes kept by every
step. -/

namespace Sys2Proof.Machine

/-! ## Parameters -/

theorem ParamId.mem_all (i : ParamId) : i ∈ ParamId.all := by cases i <;> decide

theorem ParamId.code_lt (i : ParamId) : i.code < 27 := List.idxOf_lt_length_of_mem i.mem_all

/-- Two parameters have different identity bytes (R175). -/
theorem ParamId.code_inj {i j : ParamId} : i.code = j.code ↔ i = j := List.idxOf_inj i.mem_all

theorem ParamId.ofCode_code (i : ParamId) : ParamId.ofCode i.code = some i := by
  unfold ParamId.ofCode ParamId.code
  rw [List.getElem?_eq_getElem (List.idxOf_lt_length_of_mem i.mem_all), List.getElem_idxOf]

/-- The identity bytes are 00 to 1A (R12, R175). -/
theorem ParamId.ofCode_isNone (n : Nat) : (ParamId.ofCode n).isNone = true ↔ 27 ≤ n := by
  unfold ParamId.ofCode
  rw [Option.isNone_iff_eq_none, List.getElem?_eq_none_iff]
  exact Iff.rfl

theorem paramValue_setParam (ps : Params) (h : ps.length = 27) (i j : ParamId) (v : Nat) :
    paramValue (setParam ps i v) j = if j = i then v else paramValue ps j := by
  have hi := i.code_lt
  unfold paramValue setParam
  rw [List.getD_eq_getElem?_getD, List.getElem?_set, List.getD_eq_getElem?_getD]
  by_cases e : j = i
  · rw [if_pos (congrArg ParamId.code e.symm), if_pos (by omega), if_pos e, Option.getD_some]
  · rw [if_neg (fun x => e (ParamId.code_inj.1 x).symm), if_neg e]

theorem applyPairs_length (pairs : List (ParamId × Nat)) (ps : Params) :
    (applyPairs ps pairs).length = ps.length := by
  unfold applyPairs
  induction pairs generalizing ps with
  | nil => rfl
  | cons x pairs ih => rw [List.foldl_cons, ih]; exact List.length_set

/-- Every row of the parameter table has a range, and a limit's ends are multiples of 10 (section 1.7). -/
theorem ParamId.row_range (i : ParamId) : i.row.low ≤ i.row.high := by cases i <;> decide

/-- R13: a clamped value is within its range. -/
theorem clampParam_range (i : ParamId) (v : Nat) : i.row.low ≤ clampParam i v ∧ clampParam i v ≤ i.row.high := by
  have h := i.row_range
  unfold clampParam
  dsimp only
  omega

/-- R13 and R14: a set of pairs stored keeps every parameter within its range. -/
theorem applyPairs_range (pairs : List (ParamId × Nat)) (ps : Params) (hl : ps.length = 27)
    (h : ∀ i : ParamId, i.row.low ≤ paramValue ps i ∧ paramValue ps i ≤ i.row.high) (i : ParamId) :
    i.row.low ≤ paramValue (applyPairs ps pairs) i ∧ paramValue (applyPairs ps pairs) i ≤ i.row.high := by
  unfold applyPairs
  induction pairs generalizing ps with
  | nil => exact h i
  | cons x pairs ih =>
    refine ih _ (List.length_set.trans hl) fun j => ?_
    rw [paramValue_setParam ps hl]
    split
    · rename_i e
      exact e ▸ clampParam_range x.1 x.2
    · exact h j

theorem brokenConstraint_none (ps : Params) : brokenConstraint ps = none ↔ ∀ c ∈ constraints, c.holds ps = true := by
  unfold brokenConstraint
  rw [Option.map_eq_none_iff, List.find?_eq_none]
  simp

/-- The default parameters are in range and meet the constraints (R1, section 1.7). -/
theorem paramsInv_of_initial {s : State} (h : s.store = .initial) : ParamsInv s := by
  unfold ParamsInv State.param
  rw [h]
  refine ⟨by decide, fun i => ?_, by decide⟩
  cases i <;> decide

theorem paramsInv_of_params {s t : State} (h : t.store.params = s.store.params) (hs : ParamsInv s) : ParamsInv t := by
  unfold ParamsInv State.param at *
  rwa [h]

/-- Every way a step can change the configuration keeps the parameters in range and the constraints over them. -/
theorem ConfigStep.paramsInv {s t : State} (x : ConfigStep s t) (h : ParamsInv s) : ParamsInv t := by
  cases x with
  | kept k => exact paramsInv_of_params (by rw [k.store]) h
  | unlocked before after geometry params mode target => exact paramsInv_of_params params h
  | locked before sound store mode target => exact paramsInv_of_params (by rw [store]) h
  | stored pairs sound store mode target =>
    obtain ⟨hl, hr, -⟩ := h
    have hps : t.store.params = applyPairs s.store.params pairs := by rw [store]
    refine ⟨?_, fun i => ?_, ?_⟩
    · rw [hps, applyPairs_length, hl]
    · unfold State.param
      rw [hps]
      exact applyPairs_range pairs _ hl hr i
    · rw [hps]
      exact (brokenConstraint_none _).1 sound

/-! ## Geometry, commit state, mode and dark target -/

theorem Store.highestUsed_lt (c : Store) : c.highestUsed < 32 := by
  have h : ∀ (n : Nat) (xs : List Nat), n < 32 → (∀ i ∈ xs, i < 32) →
      xs.foldl (fun h i => if (c.site i).isSome then i else h) n < 32 := by
    intro n xs
    induction xs generalizing n with
    | nil => exact fun hn _ => hn
    | cons x xs ih =>
      intro hn hx
      refine ih _ ?_ fun i hi => hx i (List.mem_cons_of_mem _ hi)
      show (if _ then x else n) < 32
      split
      · exact hx x List.mem_cons_self
      · exact hn
  exact h 0 _ (by decide) fun i hi => List.mem_range.1 hi

/-- A store that passes its validation has every site record up to the highest and the boundary record (R9). -/
theorem validate_none {c : Store} (h : c.validate = none) :
    (∀ i < c.highestUsed + 1, c.site i ≠ none) ∧ c.boundary ≠ none := by
  unfold Store.validate at h
  simp only [orElse_none] at h
  obtain ⟨hs, -, hb, -, -⟩ := h
  have h1 := (checkSites_spec c _ rfl).1.1 hs
  exact ⟨fun i hi => h1 i (by omega), (checkBoundary_spec c 0).1.1 hb⟩

/-- The section locked after a validation passed is whole (R9, R10). -/
theorem locked_whole {c : Store} (h : c.validate = none) :
    Store.Whole { c with commit := .locked, geometry := some c.derive } := by
  obtain ⟨hs, hb⟩ := validate_none h
  have hn := c.highestUsed_lt
  exact ⟨hn, hs, fun _ => hb⟩

theorem whole_of_geometry_none {c : Store} (h : c.geometry = none) : c.Whole := by
  have hn : c.siteCount = 0 := by unfold Store.siteCount; rw [h]
  exact ⟨by omega, fun i hi => by omega, fun hg => absurd h hg⟩

/-- Every way a step can change the configuration keeps geometry, commit state, mode and dark target in agreement. -/
theorem ConfigStep.modeInv {s t : State} (x : ConfigStep s t) (h : ModeInv s) : ModeInv t := by
  obtain ⟨hmode, hcommit, hdark, hwhole⟩ := h
  cases x with
  | kept k =>
    obtain ⟨hm, hd⟩ := k.mode hdark
    exact ⟨by rw [k.store, hmode, hm], by rw [k.store, hcommit], hd, by rw [k.store]; exact hwhole⟩
  | unlocked before after geometry params mode target =>
    have hg : s.store.geometry = none := hcommit.2 before
    have hg' : t.store.geometry = none := geometry.trans hg
    refine ⟨by rw [hg', mode]; exact iff_of_true rfl (hmode.1 hg), iff_of_true hg' after, ?_,
      whole_of_geometry_none hg'⟩
    rw [mode, target]
    exact hdark
  | locked before sound store mode target =>
    refine ⟨?_, ?_, fun hd => ?_, ?_⟩
    · rw [store, mode]; simp
    · rw [store]; simp
    · rw [target] at hd; cases hd
    · rw [store]; exact locked_whole sound
  | stored pairs sound store mode target =>
    refine ⟨by rw [store, mode]; exact hmode, by rw [store]; exact hcommit, by rw [mode, target]; exact hdark, ?_⟩
    rw [store]
    exact hwhole

theorem ConfigReset.modeInv {t : State} (h : ConfigReset t) : ModeInv t := by
  unfold ModeInv
  rw [h.store, h.mode, h.target]
  exact ⟨iff_of_true rfl rfl, iff_of_true rfl (by decide), (fun x => nomatch x), whole_of_geometry_none rfl⟩

/-- A reset state has every port ACTIVE, empty and without a deadline (R44). -/
theorem afterReset_portsInv (now : Nat) (phase : ResetPhase) (cause : ResetCause) (straps : Straps) (drawn : Nat)
    (pending : List Instr) : PortsInv (State.afterReset now phase cause straps drawn pending) := by
  intro p
  cases p <;> exact ⟨fun _ => ⟨rfl, rfl, rfl, rfl⟩, fun _ => rfl, fun _ => ⟨rfl, rfl, rfl, rfl⟩⟩

/-- The request table after a reset holds nothing (R19). -/
theorem afterReset_tableInv (now : Nat) (phase : ResetPhase) (cause : ResetCause) (straps : Straps) (drawn : Nat)
    (pending : List Instr) : TableInv (State.afterReset now phase cause straps drawn pending) :=
  ⟨List.nodup_nil, List.nodup_nil, List.forall_mem_nil _, fun _ => Nat.zero_le _, Nat.zero_lt_succ _,
    List.forall_mem_nil _⟩

/-- The lines after a reset carry no transaction (R111). -/
theorem afterReset_linesInv (now : Nat) (phase : ResetPhase) (cause : ResetCause) (straps : Straps) (drawn : Nat)
    (pending : List Instr) : LinesInv (State.afterReset now phase cause straps drawn pending) := by
  intro l
  have idle : LineRec.initial.driving = true ↔ ∃ t, LineRec.initial.transaction = some t ∧ t.stage = .sending := by
    simp [LineRec.initial]
  cases l <;> exact ⟨idle, fun _ => rfl⟩

end Sys2Proof.Machine

open Sys2Proof Sys2Proof.Machine

/-- Settles O55: of all a step can do, PARAM_SET and the resets alone change the parameters. -/
theorem paramsInvKeptByEveryStep : Obligations.ParamsInvKeptByEveryStep := by
  intro s t hs h
  rcases step_config s t h with x | x
  · exact x.paramsInv hs
  · exact paramsInv_of_initial x.store

/-- Settles O56, from what a step can do to the store, the mode and the target of delivery. -/
theorem modeInvKeptByEveryStep : Obligations.ModeInvKeptByEveryStep := by
  intro s t hs h
  rcases step_config s t h with x | x
  · exact x.modeInv hs
  · exact x.modeInv

/-- Settles O5: in LOCKED the one change of the store left to a command other than a reset is of the parameters. -/
theorem geometryLockedUntilReset : Obligations.GeometryLockedUntilReset := by
  intro c s t hr hl h
  obtain ⟨u, hu, x⟩ := exec_configStep c s hr
  cases hu.symm.trans h
  cases x with
  | kept k =>
    rw [k.store]
    exact ⟨rfl, rfl, rfl, rfl, hl⟩
  | unlocked before after geometry params mode target => exact absurd hl before
  | locked before sound store mode target => rw [hl] at before; cases before
  | stored pairs sound store mode target =>
    rw [store]
    exact ⟨rfl, rfl, rfl, rfl, hl⟩

/-- Settles O60: the reset state holds the reset values of every block. -/
theorem resetMeetsInvariants : Obligations.ResetMeetsInvariants :=
  ⟨paramsInv_of_initial rfl, ConfigReset.modeInv ⟨rfl, rfl, rfl⟩, afterReset_portsInv _ _ _ _ _ _,
    afterReset_tableInv _ _ _ _ _ _, afterReset_linesInv _ _ _ _ _ _⟩
end

section
/-! SUPPORT. The commands of the configuration store on a port that serves them: the geometry writes (R2 to R7), the
boundary (R4) and COMMIT (R8). -/

namespace Sys2Proof.Machine

/-! ## A command of the SUPERVISORY group on a serving port -/

@[simp] theorem State.withStore_port (s : State) (f : Store → Store) (q : Port) :
    (s.withStore f).port q = s.port q := rfl

/-- A SUPERVISORY sender's command of a form it has goes to its own rule. -/
theorem judged_supervisory (s : State) (p : Port) (code seq : Byte) (body : CommandBody)
    (ha : (s.port p).authority = .supervisory) :
    judged p .supervisory true body (s.setPort p (s.dispatched p code seq)) =
      body (s.setPort p (s.dispatched p code seq)) := by
  refine judged_passes _ _ _ _ ?_
  rw [State.setPort_port, if_pos rfl]
  show ¬ (s.port p).authority.rank < _
  rw [ha]
  exact Nat.lt_irrefl _

/-- What a SUPERVISORY sender's command does and answers, where it leaves its port's record. -/
theorem supervisory_answered {s t : State} {p : Port} {code seq : Byte} {body : CommandBody} {a : Answer}
    (h : s.serving p = true) (ha : (s.port p).authority = .supervisory)
    (hb : body (s.setPort p (s.dispatched p code seq)) = (t, some a)) (ht : t.port p = s.dispatched p code seq) :
    s.takeFrame p code seq (judged p .supervisory true body) = t.setPort p (s.answered p code seq a) := by
  obtain ⟨-, -, hc⟩ := (serving_iff s p).1 h
  rw [takeFrame_serving s p code seq _ h, carryOut_answer _ t p _ a ⟨code, seq⟩
    ((judged_supervisory s p code seq body ha).trans hb) (by rw [ht]; rfl), ht, dispatched_reply s p code seq a hc]

/-- A SUPERVISORY sender's command that changes nothing but is answered. -/
theorem supervisory_refused {s : State} {p : Port} {code seq : Byte} {body : CommandBody} {a : Answer}
    (h : s.serving p = true) (ha : (s.port p).authority = .supervisory)
    (hb : ∀ u : State, u.store = s.store → body u = (u, some a)) :
    s.takeFrame p code seq (judged p .supervisory true body) = s.setPort p (s.answered p code seq a) := by
  rw [supervisory_answered h ha (hb _ rfl) (by rw [State.setPort_port, if_pos rfl]), State.setPort_setPort]

/-- A SUPERVISORY sender's command that changes the store and is answered. -/
theorem supervisory_stored {s : State} {p : Port} {code seq : Byte} {body : CommandBody} {a : Answer}
    (h : s.serving p = true) (ha : (s.port p).authority = .supervisory) (f : Store → Store)
    (hb : body (s.setPort p (s.dispatched p code seq)) =
      ((s.setPort p (s.dispatched p code seq)).withStore f, some a)) :
    s.takeFrame p code seq (judged p .supervisory true body) = (s.withStore f).setPort p (s.answered p code seq a) :=
  (supervisory_answered h ha hb ((State.setPort_port ..).trans (if_pos rfl))).trans
    (State.setPort_setPort (s.withStore f) p _ _)

/-! ## The records of a geometry write -/

/-- Whole records of one size, cut out of the bytes they make. -/
theorem chunks_flatten (size : Nat) (hs : 0 < size) (rs : List (List Byte)) (hr : ∀ r ∈ rs, r.length = size)
    (fuel : Nat) (hf : rs.length ≤ fuel) : chunks size fuel rs.flatten = rs := by
  induction rs generalizing fuel with
  | nil => cases fuel <;> rfl
  | cons r rs ih =>
    have hl : r.length = size := hr r List.mem_cons_self
    obtain ⟨f, rfl⟩ : ∃ f, fuel = f + 1 := ⟨fuel - 1, by rw [List.length_cons] at hf; omega⟩
    have hne : (r ++ rs.flatten).isEmpty = false := by
      rw [List.isEmpty_eq_false_iff, ← List.length_pos_iff, List.length_append]
      omega
    rw [List.flatten_cons, chunks, hne, if_neg Bool.false_ne_true, List.take_left' hl, List.drop_left' hl,
      ih (fun x hx => hr x (List.mem_cons_of_mem _ hx)) f (by rw [List.length_cons] at hf; omega)]

theorem flatten_length (size : Nat) (rs : List (List Byte)) (hr : ∀ r ∈ rs, r.length = size) :
    rs.flatten.length = rs.length * size := by
  rw [List.length_flatten, List.map_congr_left hr, List.map_const', List.sum_replicate, smul_eq_mul]

/-- The records of a write are those its payload is made of, and its form is the one R175 gives it. -/
theorem records_of_flatten (size : Nat) (hs : 0 < size) (given : Byte) (rs : List (List Byte))
    (hr : ∀ r ∈ rs, r.length = size) :
    recordsForm size (given :: rs.flatten) = true ∧ recordsOf size (given :: rs.flatten) = rs := by
  have hl := flatten_length size rs hr
  refine ⟨?_, chunks_flatten size hs rs hr _ ?_⟩
  · unfold recordsForm
    rw [decide_eq_true_iff, List.length_cons, Nat.add_sub_cancel, hl]
    exact ⟨Nat.le_add_left _ _, Nat.mul_mod_left _ _⟩
  · rw [List.length_cons, hl]
    exact Nat.le_succ_of_le (Nat.le_mul_of_pos_right _ hs)

/-- What the slots hold after a write whose records fit. -/
theorem putFrom_getD {α : Type} (slots contents : List (Option α)) (start i : Nat)
    (h : start + contents.length ≤ slots.length) : (putFrom slots start contents).getD i none =
      if start ≤ i ∧ i < start + contents.length then contents.getD (i - start) none else slots.getD i none := by
  have ht : (slots.take start).length = start := by rw [List.length_take]; omega
  unfold putFrom
  rw [List.append_assoc]
  simp only [List.getD_eq_getElem?_getD]
  rcases Nat.lt_or_ge i start with h1 | h1
  · rw [List.getElem?_append_left (by omega), List.getElem?_take_of_lt h1, if_neg (by omega)]
  · rw [List.getElem?_append_right (by omega), ht]
    rcases Nat.lt_or_ge i (start + contents.length) with h2 | h2
    · rw [List.getElem?_append_left (by omega), if_pos ⟨h1, h2⟩]
    · rw [List.getElem?_append_right (by omega), List.getElem?_drop, if_neg (by omega)]
      congr 2
      omega

/-! ## Geometry writes (R5 to R7) -/

/-- R5: the start index in use, the sender's cursor for FF. -/
theorem startInUse_byte (given : Byte) (cursor : Nat) :
    startInUse given.toNat cursor = if given = 255 then cursor else given.toNat := by
  have h : given.toNat = 255 ↔ given = 255 := by bv_omega
  unfold startInUse
  simp only [h]

/-- R6: whether a write's records fit the slots of their kind. -/
theorem writeFits_byte (slots count cursor : Nat) (given : Byte) : writeFits slots given.toNat cursor count = true ↔
    (given = 255 ∨ given.toNat < slots) ∧ startInUse given.toNat cursor + count ≤ slots := by
  have h : given.toNat = 255 ↔ given = 255 := by bv_omega
  unfold writeFits
  rw [decide_eq_true_iff, h]

/-- A geometry write's frame of whole records, taken on its port, whichever their kind. -/
def State.takeWrite {α : Type} (s : State) (p : Port) (code seq given : Byte) (slots size : Nat)
    (parse : List Byte → Placed α) (place : Nat → List (Option α) → Store → Store) (rs : List (List Byte)) : State :=
  s.takeFrame p code seq (judged p .supervisory (recordsForm size (given :: rs.flatten))
    (geometryBody p slots given.toNat ((recordsOf size (given :: rs.flatten)).map parse) place))

section

variable {α : Type} {s : State} {p : Port} {code seq given : Byte} {slots size start : Nat}
  {parse : List Byte → Placed α} {place : Nat → List (Option α) → Store → Store} {rs : List (List Byte)}
  (h : s.serving p = true) (ha : (s.port p).authority = .supervisory) (hs : 0 < size) (hr : ∀ r ∈ rs, r.length = size)

include hs hr in
theorem takeWrite_eq : s.takeWrite p code seq given slots size parse place rs =
    s.takeFrame p code seq (judged p .supervisory true (geometryBody p slots given.toNat (rs.map parse) place)) := by
  obtain ⟨hform, hrecords⟩ := records_of_flatten size hs given rs hr
  unfold State.takeWrite
  rw [hform, hrecords]

include h ha hs hr

/-- R5: only in OPEN. -/
theorem takeWrite_wrongMode (hc : s.store.commit ≠ .openState) :
    s.takeWrite p code seq given slots size parse place rs = s.setPort p (s.answered p code seq (.wrongMode, [])) := by
  rw [takeWrite_eq hs hr]
  refine supervisory_refused h ha fun u hu => ?_
  unfold geometryBody
  exact if_pos (by rwa [hu])

variable (hc : s.store.commit = .openState)
include hc

theorem takeWrite_empty (he : rs = []) :
    s.takeWrite p code seq given slots size parse place rs = s.setPort p (s.answered p code seq (.invalid, [])) := by
  rw [takeWrite_eq hs hr]
  refine supervisory_refused h ha fun u hu => ?_
  simp [geometryBody, hu, hc, he, refuse]

variable (hst : startInUse given.toNat (s.store.cursors.get p) = start) (he : rs ≠ [])
include hst he

/-- R6. -/
theorem takeWrite_badRange (hf : given ≠ 255 ∧ slots ≤ given.toNat ∨ slots < start + rs.length) :
    s.takeWrite p code seq given slots size parse place rs = s.setPort p (s.answered p code seq (.badRange, [])) := by
  rw [takeWrite_eq hs hr]
  refine supervisory_refused h ha fun u hu => ?_
  have hfit : writeFits slots given.toNat (s.store.cursors.get p) rs.length = false := by
    rw [← Bool.not_eq_true, writeFits_byte, hst]
    rintro ⟨h1 | h1, h2⟩
    · rcases hf with ⟨h3, -⟩ | h3
      · exact h3 h1
      · omega
    · omega
  simp [geometryBody, hu, hc, he, hfit, refuse]

variable (hg : given = 255 ∨ given.toNat < slots) (hf : start + rs.length ≤ slots)
include hg hf

/-- R7: of records one invalid, the first such is named by its slot. -/
theorem takeWrite_invalid (k : Nat) (r : List Byte) (hk : rs[k]? = some r) (hb : (parse r).good = false)
    (hj : ∀ j < k, ∀ q, rs[j]? = some q → (parse q).good = true) :
    s.takeWrite p code seq given slots size parse place rs =
      s.setPort p (s.answered p code seq (.invalid, [byte (start + k)])) := by
  obtain ⟨hlt, hrk⟩ := List.getElem?_eq_some_iff.1 hk
  have hfit : writeFits slots given.toNat (s.store.cursors.get p) rs.length = true :=
    (writeFits_byte ..).2 ⟨hg, hst ▸ hf⟩
  have hfind : (rs.map parse).findIdx? (fun r => !r.good) = some k := by
    rw [List.findIdx?_eq_some_iff_getElem]
    refine ⟨by rwa [List.length_map], ?_, fun j hjk => ?_⟩
    · rw [List.getElem_map, hrk, hb]; rfl
    · rw [List.getElem_map, hj j hjk _ (List.getElem?_eq_getElem (by omega))]
      decide
  rw [takeWrite_eq hs hr]
  refine supervisory_refused h ha fun u hu => ?_
  simp [geometryBody, hu, hc, he, hfit, hst, hfind, answer, -List.findIdx?_map]

/-- R7: valid records are stored, and the sender's cursor moves. -/
theorem takeWrite_stored (hb : ∀ r ∈ rs, (parse r).good = true) :
    s.takeWrite p code seq given slots size parse place rs =
      (s.withStore fun c => { place start (rs.map fun r => (parse r).content) c with
        cursors := c.cursors.set p (start + rs.length) }).setPort p
          (s.answered p code seq (.ok, [byte (start + rs.length)])) := by
  have hfit : writeFits slots given.toNat (s.store.cursors.get p) rs.length = true :=
    (writeFits_byte ..).2 ⟨hg, hst ▸ hf⟩
  have hfind : (rs.map parse).findIdx? (fun r => !r.good) = none := by
    rw [List.findIdx?_eq_none_iff]
    intro x hx
    obtain ⟨r, hm, rfl⟩ := List.mem_map.1 hx
    rw [hb r hm]; rfl
  rw [takeWrite_eq hs hr]
  refine supervisory_stored h ha _ ?_
  simp only [geometryBody, State.setPort_store, hc, hst, hfind, List.isEmpty_map, List.isEmpty_eq_false_iff.2 he,
    List.length_map, hfit, List.map_map]
  rfl

end

/-! ## Site and station slots, boundary and COMMIT -/

/-- A good place of a write, counted from its start, holds what the rule says (R2, R3). -/
theorem stored_getD {α : Type} {parse : List Byte → Placed α} {stored : List Byte → Option α} (rs : List (List Byte))
    (h : ∀ r ∈ rs, (parse r).content = stored r) (j : Nat) (hj : j < rs.length) :
    (rs.map fun r => (parse r).content).getD j none = stored (rs.getD j []) := by
  rw [List.getD_eq_getElem?_getD, List.getElem?_map, List.getD_eq_getElem?_getD, List.getElem?_eq_getElem hj,
    Option.map_some, Option.getD_some, Option.getD_some, h _ (List.getElem_mem hj)]

/-- The slots after valid records are stored. -/
theorem putFrom_stored {α : Type} {parse : List Byte → Placed α} {stored : List Byte → Option α}
    (slots : List (Option α)) (rs : List (List Byte)) (start : Nat) (hf : start + rs.length ≤ slots.length)
    (h : ∀ r ∈ rs, (parse r).content = stored r) (i : Nat) :
    (putFrom slots start (rs.map fun r => (parse r).content)).getD i none =
      if start ≤ i ∧ i < start + rs.length then stored (rs.getD (i - start) []) else slots.getD i none := by
  rw [putFrom_getD _ _ _ _ (by rwa [List.length_map]), List.length_map]
  split
  · exact stored_getD rs h _ (by omega)
  · rfl

/-- R4: the boundary bytes that make a record. -/
theorem parseBoundary_eq (lanes shoulder : Byte) : parseBoundary [lanes, shoulder] =
    if 1 ≤ lanes.toNat ∧ lanes.toNat ≤ 5 ∧ shoulder.toNat ≤ 1 then some ⟨lanes.toNat, decide (shoulder.toNat = 1)⟩
    else none := by
  show (if 1 ≤ lanes.toNat ∧ lanes.toNat ≤ 5 then (yesNo shoulder.toNat).map fun b =>
    (⟨lanes.toNat, b⟩ : Boundary) else none) = _
  rcases yesNo_cases shoulder.toNat with ⟨e, y⟩ | ⟨e, y⟩ | ⟨e, y⟩ <;> rw [y]
  · simp [e]
  · simp [e]
  · rw [if_neg (by omega : ¬ (1 ≤ lanes.toNat ∧ lanes.toNat ≤ 5 ∧ shoulder.toNat ≤ 1)), Option.map_none, ite_self]

/-- GEOMETRY_WRITE and STATION_WRITE are the same frame over their own slots and records. -/
theorem exec_geometryWrite (p : Port) (seq given : Byte) (rs : List (List Byte)) (s : State) :
    exec (.geometryWrite p seq (given :: rs.flatten)) s = .next (s.takeWrite p 0x20 seq given 32 8 parseSite
      (fun start xs c => { c with sites := putFrom c.sites start xs }) rs) := rfl

theorem exec_stationWrite (p : Port) (seq given : Byte) (rs : List (List Byte)) (s : State) :
    exec (.stationWrite p seq (given :: rs.flatten)) s = .next (s.takeWrite p 0x21 seq given 16 21 parseStation
      (fun start xs c => { c with stations := putFrom c.stations start xs }) rs) := rfl

end Sys2Proof.Machine

open Sys2Proof Sys2Proof.Machine

/-- Settles O34: both writes are one frame, `State.takeWrite`, over their own slots and records. -/
theorem geometryWritesFillSlots : Obligations.GeometryWritesFillSlots := by
  intro p seq given sites stations s h ha hsites hstations hr8 hr21
    start siteWrite stationWrite siteRefused stationRefused
  have hst : startInUse given.toNat (s.store.cursors.get p) = start := startInUse_byte _ _
  have siteBad (r : List Byte) (hb : ¬ SiteBytesGood r) : (parseSite r).good = false := by
    rw [(parseSite_spec r).2 hb]; rfl
  have stationBad (r : List Byte) (hm : r ∈ stations) (hb : ¬ StationBytesGood r) : (parseStation r).good = false := by
    rw [(parseStation_spec r (hr21 r hm)).2 hb]; rfl
  refine ⟨fun hc => ⟨congrArg _ (takeWrite_wrongMode h ha (by decide) hr8 hc),
    congrArg _ (takeWrite_wrongMode h ha (by decide) hr21 hc)⟩, fun hc => ⟨fun he => ?_, fun he hf => ?_,
    fun he hg hf => ⟨fun k r hk hb hj => ?_, fun hb => ?_⟩, fun he => ?_, fun he hf => ?_,
    fun he hg hf => ⟨fun k r hk hb hj => ?_, fun hb => ?_⟩⟩⟩
  · exact congrArg _ (takeWrite_empty h ha (by decide) hr8 hc he)
  · exact congrArg _ (takeWrite_badRange h ha (by decide) hr8 hc hst he hf)
  · exact congrArg _ (takeWrite_invalid h ha (by decide) hr8 hc hst he hg hf k r hk (siteBad r hb)
      fun j hlt q hq => ((parseSite_spec q).1 (hj j hlt q hq)).1)
  · refine ⟨_, (exec_geometryWrite ..).trans (congrArg _ (takeWrite_stored h ha (by decide) hr8 hc hst he hg hf
      fun r hm => ((parseSite_spec r).1 (hb r hm)).1)), rfl, ?_, by simp, fun q hq => by simp [hq]⟩
    exact putFrom_stored _ _ _ (hsites.symm ▸ hf) fun r hm => ((parseSite_spec r).1 (hb r hm)).2
  · exact congrArg _ (takeWrite_empty h ha (by decide) hr21 hc he)
  · exact congrArg _ (takeWrite_badRange h ha (by decide) hr21 hc hst he hf)
  · exact congrArg _ (takeWrite_invalid h ha (by decide) hr21 hc hst he hg hf k r hk
      (stationBad r (List.mem_of_getElem? hk) hb)
      fun j hlt q hq => ((parseStation_spec q (hr21 q (List.mem_of_getElem? hq))).1 (hj j hlt q hq)).1)
  · refine ⟨_, (exec_stationWrite ..).trans (congrArg _ (takeWrite_stored h ha (by decide) hr21 hc hst he hg hf
      fun r hm => ((parseStation_spec r (hr21 r hm)).1 (hb r hm)).1)), rfl, ?_, by simp, fun q hq => by simp [hq]⟩
    exact putFrom_stored _ _ _ (hstations.symm ▸ hf) fun r hm => ((parseStation_spec r (hr21 r hm)).1 (hb r hm)).2

/-- Settles O35: BOUNDARY_WRITE's own rule, by whether its two bytes make a record. -/
theorem boundaryWriteReplacesRecord : Obligations.BoundaryWriteReplacesRecord := by
  intro p seq lanes shoulder s h ha refused
  refine ⟨fun hc => ?_, fun hc => ⟨fun hg => ?_, fun hg => ?_⟩⟩
  · refine congrArg _ (supervisory_refused h ha fun u hu => ?_)
    unfold boundaryBody
    exact if_pos (by rwa [hu])
  · refine congrArg _ (supervisory_stored h ha
      (fun c => { c with boundary := some ⟨lanes.toNat, decide (shoulder.toNat = 1)⟩ }) ?_)
    simp only [boundaryBody, State.setPort_store, hc, parseBoundary_eq, if_pos hg]
    rfl
  · refine congrArg _ (supervisory_refused h ha fun u hu => ?_)
    simp [boundaryBody, hu, hc, parseBoundary_eq, if_neg hg, refuse]

/-- Settles O36: the body of an accepted COMMIT gives no answer. -/
theorem commitStartsValidation : Obligations.CommitStartsValidation := by
  intro p seq s h ha
  refine ⟨fun hc => ?_, fun hc => ?_⟩
  · exact congrArg _ ((takeFrame_serving s p _ _ _ h).trans (carryOut_silent _ _ _ _
      ((judged_supervisory s p _ _ _ ha).trans (if_neg (not_not.2 hc)))))
  · refine congrArg _ (supervisory_refused h ha fun u hu => ?_)
    unfold commitBody
    exact if_pos (by rwa [hu])
end

section
/-! SUPPORT. PARAM_SET: the pairs its bytes spell, the pair that offends, and the parameters it leaves (R12 to R16). -/

namespace Sys2Proof.Machine

/-! ## The pairs of a payload -/

theorem byte_toNat (n : Nat) : (byte n).toNat = n % 256 := BitVec.toNat_ofNat n 8

/-- Whole pairs of three bytes, read back from the payload they make. -/
theorem pairsOf_flatMap {α : Type} (xs : List α) (f : α → List Byte) (hf : ∀ x, (f x).length = 3) :
    decide ((xs.flatMap f).length % 3 = 0) = true ∧
      pairsOf (xs.flatMap f) = xs.map fun x => (at' (f x) 0, word (f x) 1) := by
  have hr : ∀ r ∈ xs.map f, r.length = 3 := by
    intro r h
    obtain ⟨x, -, rfl⟩ := List.mem_map.1 h
    exact hf x
  have hl : (xs.flatMap f).length = (xs.map f).length * 3 := flatten_length 3 _ hr
  have hc : chunks 3 (xs.flatMap f).length (xs.flatMap f) = xs.map f :=
    chunks_flatten 3 (by decide) _ hr _ (by rw [hl]; omega)
  refine ⟨by rw [decide_eq_true_iff, hl]; omega, ?_⟩
  unfold pairsOf
  rw [hc, List.map_map]
  rfl

/-- An identity byte and a value of 16 bits read back (R169, R175). -/
theorem pair_of_bytes (i : ParamId) (v : Nat) (hv : v < 65536) :
    (at' (byte i.code :: be16 v) 0, word (byte i.code :: be16 v) 1) = (i.code, v) := by
  have hi := i.code_lt
  have h0 : at' (byte i.code :: be16 v) 0 = i.code := (byte_toNat _).trans (Nat.mod_eq_of_lt (by omega))
  have h1 : word (byte i.code :: be16 v) 1 = (byte (v / 256)).toNat * 256 + (byte v).toNat := rfl
  rw [h0, h1, byte_toNat, byte_toNat]
  congr 1
  omega

/-! ## The offending pair (R12) -/

/-- The pair at a place names no identity, or one of those seen before or in an earlier pair. -/
def Offends (seen : List Nat) (xs : List (Nat × Nat)) (j : Nat) : Prop :=
  ∃ x, xs[j]? = some x ∧ (27 ≤ x.1 ∨ x.1 ∈ seen ∨ ∃ i < j, ∃ y, xs[i]? = some y ∧ y.1 = x.1)

theorem offends_zero (seen : List Nat) (x : Nat × Nat) (xs : List (Nat × Nat)) :
    Offends seen (x :: xs) 0 ↔ 27 ≤ x.1 ∨ x.1 ∈ seen := by
  simp [Offends]

/-- The first pair joins those seen before. -/
theorem offends_succ (seen : List Nat) (x : Nat × Nat) (xs : List (Nat × Nat)) (j : Nat) :
    Offends seen (x :: xs) (j + 1) ↔ Offends (x.1 :: seen) xs j := by
  unfold Offends
  refine exists_congr fun z => and_congr Iff.rfl (or_congr Iff.rfl ?_)
  constructor
  · rintro (h | ⟨i, hi, y, hy, e⟩)
    · exact Or.inl (List.mem_cons_of_mem _ h)
    · cases i with
      | zero => cases hy; exact Or.inl (e ▸ List.mem_cons_self)
      | succ i => exact Or.inr ⟨i, by omega, y, hy, e⟩
  · rintro (h | ⟨i, hi, y, hy, e⟩)
    · rcases List.mem_cons.1 h with h | h
      · exact Or.inr ⟨0, by omega, x, rfl, h.symm⟩
      · exact Or.inl h
    · exact Or.inr ⟨i + 1, by omega, y, hy, e⟩

/-- The pair at a place among the bytes sent offends: by its identity, or as a later one of its identity. -/
theorem offends_sent (sent : List (Byte × Byte × Byte)) (j : Nat) :
    (∃ x, sent[j]? = some x ∧ (27 ≤ x.1.toNat ∨ ∃ i < j, ∃ y, sent[i]? = some y ∧ y.1 = x.1)) ↔
      Offends [] (sent.map fun x => (x.1.toNat, x.2.1.toNat * 256 + x.2.2.toNat)) j := by
  simp only [Offends, List.getElem?_map, Option.map_eq_some_iff, List.not_mem_nil, false_or]
  constructor
  · rintro ⟨x, hx, h⟩
    refine ⟨_, ⟨x, hx, rfl⟩, h.imp_right ?_⟩
    rintro ⟨i, hi, y, hy, e⟩
    exact ⟨i, hi, _, ⟨y, hy, rfl⟩, congrArg BitVec.toNat e⟩
  · rintro ⟨_, ⟨x, hx, rfl⟩, h⟩
    refine ⟨x, hx, h.imp_right ?_⟩
    rintro ⟨i, hi, _, ⟨y, hy, rfl⟩, e⟩
    exact ⟨i, hi, y, hy, BitVec.eq_of_toNat_eq e⟩

theorem offendingPair_cons (seen : List Nat) (k : Nat) (x : Nat × Nat) (xs : List (Nat × Nat)) :
    (Offends seen (x :: xs) 0 → offendingPair seen k (x :: xs) = some k) ∧
    (¬ Offends seen (x :: xs) 0 → offendingPair seen k (x :: xs) = offendingPair (x.1 :: seen) (k + 1) xs) := by
  have h : ((ParamId.ofCode x.1).isNone || seen.contains x.1) = true ↔ Offends seen (x :: xs) 0 := by
    rw [Bool.or_eq_true, ParamId.ofCode_isNone, List.contains_iff_mem, offends_zero]
  exact ⟨fun o => if_pos (h.2 o), fun o => if_neg fun e => o (h.1 e)⟩

/-- R12: the first pair that offends is the one reported. -/
theorem offendingPair_some (xs : List (Nat × Nat)) (seen : List Nat) (k j : Nat) (h : Offends seen xs j)
    (hj : ∀ i < j, ¬ Offends seen xs i) : offendingPair seen k xs = some (k + j) := by
  induction xs generalizing seen k j with
  | nil =>
    obtain ⟨x, hx, -⟩ := h
    cases hx
  | cons x xs ih =>
    obtain ⟨first, rest⟩ := offendingPair_cons seen k x xs
    cases j with
    | zero => exact first h
    | succ j =>
      rw [rest (hj 0 (by omega)), ih (x.1 :: seen) (k + 1) j ((offends_succ ..).1 h)
        fun i hi o => hj (i + 1) (by omega) ((offends_succ ..).2 o)]
      congr 1
      omega

/-- Pairs that name each identity once offend nowhere. -/
theorem offendingPair_none (pairs : List (ParamId × Nat)) (hn : (pairs.map (·.1)).Nodup) (seen : List Nat)
    (hs : ∀ x ∈ pairs, x.1.code ∉ seen) (k : Nat) :
    offendingPair seen k (pairs.map fun x => (x.1.code, x.2)) = none := by
  induction pairs generalizing seen k with
  | nil => rfl
  | cons x pairs ih =>
    rw [List.map_cons, List.nodup_cons] at hn
    have hx : ¬ Offends seen ((x :: pairs).map fun x => (x.1.code, x.2)) 0 := by
      rw [List.map_cons, offends_zero]
      rintro (h | h)
      · exact absurd x.1.code_lt (by simpa using h)
      · exact hs x List.mem_cons_self h
    rw [List.map_cons] at hx ⊢
    refine ((offendingPair_cons ..).2 hx).trans (ih hn.2 _ (fun y hy hm => ?_) _)
    rcases List.mem_cons.1 hm with e | e
    · exact hn.1 (List.mem_map.2 ⟨y, hy, ParamId.code_inj.1 e⟩)
    · exact hs y (List.mem_cons_of_mem _ hy) e

theorem knownPairs_codes (pairs : List (ParamId × Nat)) :
    knownPairs (pairs.map fun x => (x.1.code, x.2)) = pairs := by
  unfold knownPairs
  rw [List.filterMap_map]
  simp [ParamId.ofCode_code]

/-! ## The parameters stored (R13 to R15) -/

theorem setParam_length (ps : Params) (i : ParamId) (v : Nat) : (setParam ps i v).length = ps.length :=
  List.length_set

/-- The value a parameter has once pairs that name each identity once are stored. -/
theorem paramValue_applyPairs (pairs : List (ParamId × Nat)) (hn : (pairs.map (·.1)).Nodup) (ps : Params)
    (hl : ps.length = 27) (i : ParamId) :
    paramValue (applyPairs ps pairs) i = (pairs.lookup i).elim (paramValue ps i) (clampParam i) := by
  induction pairs generalizing ps with
  | nil => rfl
  | cons x pairs ih =>
    rw [List.map_cons, List.nodup_cons] at hn
    have step : applyPairs ps (x :: pairs) = applyPairs (setParam ps x.1 (clampParam x.1 x.2)) pairs := rfl
    rw [step, ih hn.2 _ ((setParam_length ..).trans hl), paramValue_setParam ps hl, List.lookup_cons]
    by_cases e : i = x.1
    · have hnone : pairs.lookup i = none := by
        rw [List.lookup_eq_none_iff]
        intro y hy
        rw [bne_iff_ne]
        exact fun h => hn.1 (List.mem_map.2 ⟨y, hy, h.symm.trans e⟩)
      subst e
      rw [hnone, beq_self_eq_true]
      simp
    · rw [beq_eq_false_iff_ne.2 e, if_neg e]

/-- R15: the first constraint that the values of a set break. -/
theorem brokenConstraint_eq (ps : Params) (value : ParamId → Nat) (h : ∀ i, paramValue ps i = value i) :
    brokenConstraint ps =
      (constraints.find? fun c => decide (value c.greater < value c.lesser + c.margin)).map (·.reported) := by
  unfold brokenConstraint
  congr 2
  funext c
  simp only [Constraint.holds, h, ← decide_not, Nat.not_le]

/-! ## The command -/

section

variable {s : State} {p : Port} {seq : Byte} (h : s.serving p = true) (ha : (s.port p).authority = .supervisory)
include h ha

theorem paramSet_empty :
    exec (.paramSet p seq []) s = .next (s.setPort p (s.answered p 0x24 seq (.invalid, []))) :=
  congrArg _ (supervisory_refused h ha fun _ _ => rfl)

/-- R12, where a pair offends. -/
theorem paramSet_offending (sent : List (Byte × Byte × Byte)) (k : Nat)
    (ho : Offends [] (sent.map fun x => (x.1.toNat, x.2.1.toNat * 256 + x.2.2.toNat)) k)
    (hj : ∀ j < k, ¬ Offends [] (sent.map fun x => (x.1.toNat, x.2.1.toNat * 256 + x.2.2.toNat)) j) :
    exec (.paramSet p seq (sent.flatMap fun x => [x.1, x.2.1, x.2.2])) s =
      .next (s.setPort p (s.answered p 0x24 seq (.invalid, [byte k]))) := by
  obtain ⟨hform, hpairs⟩ := pairsOf_flatMap sent (fun x => [x.1, x.2.1, x.2.2]) fun _ => rfl
  have hpairs : pairsOf (sent.flatMap fun x => [x.1, x.2.1, x.2.2]) =
    sent.map fun x => (x.1.toNat, x.2.1.toNat * 256 + x.2.2.toNat) := hpairs
  show Host.Outcome.next (s.takeFrame p 0x24 seq (judged p .supervisory (decide _) (paramBody (pairsOf _)))) = _
  rw [hform, hpairs]
  have hne : (sent.map fun x => (x.1.toNat, x.2.1.toNat * 256 + x.2.2.toNat)).isEmpty = false := by
    obtain ⟨x, hx, -⟩ := ho
    cases sent with
    | nil => cases hx
    | cons y sent => rfl
  refine congrArg _ (supervisory_refused h ha fun u _ => ?_)
  simp only [paramBody, hne, offendingPair_some _ [] 0 k ho hj, Nat.zero_add]
  rfl

end

section

variable {pairs : List (ParamId × Nat)} (hne : pairs ≠ []) (hn : (pairs.map (·.1)).Nodup)

/-- The payload of pairs of 16 bits is read back as those pairs. -/
theorem exec_paramSet (p : Port) (seq : Byte) (s : State) (hv : ∀ x ∈ pairs, x.2 < 65536) :
    exec (.paramSet p seq (pairs.flatMap fun x => byte x.1.code :: be16 x.2)) s = .next (s.takeFrame p 0x24 seq
      (judged p .supervisory true (paramBody (pairs.map fun x => (x.1.code, x.2))))) := by
  obtain ⟨hform, hpairs⟩ := pairsOf_flatMap pairs (fun x => byte x.1.code :: be16 x.2) fun _ => rfl
  rw [List.map_congr_left fun x hx => pair_of_bytes x.1 x.2 (hv x hx)] at hpairs
  show Host.Outcome.next (s.takeFrame p 0x24 seq (judged p .supervisory (decide _) (paramBody (pairsOf _)))) = _
  rw [hform, hpairs]

include hne hn

/-- R14 and R16: with every constraint met the pairs are stored whole. -/
theorem paramBody_stored (u : State) (hb : brokenConstraint (applyPairs u.store.params pairs) = none) :
    paramBody (pairs.map fun x => (x.1.code, x.2)) u =
      ((u.withStore fun c => { c with params := applyPairs u.store.params pairs }).markPending,
        some (paramAnswer (clampedPairs pairs))) := by
  simp only [paramBody, List.isEmpty_map, List.isEmpty_eq_false_iff.2 hne,
    offendingPair_none pairs hn [] (fun _ _ h => nomatch h) 0, knownPairs_codes, hb]
  rfl

/-- R14 and R15: where a constraint fails, nothing is stored. -/
theorem paramBody_broken (u : State) (i : ParamId) (hb : brokenConstraint (applyPairs u.store.params pairs) = some i) :
    paramBody (pairs.map fun x => (x.1.code, x.2)) u = (u, some (.constraint, [byte i.code])) := by
  simp only [paramBody, List.isEmpty_map, List.isEmpty_eq_false_iff.2 hne,
    offendingPair_none pairs hn [] (fun _ _ h => nomatch h) 0, knownPairs_codes, hb]
  rfl

end

end Sys2Proof.Machine

open Sys2Proof Sys2Proof.Machine

/-- Settles O38: the clauses follow the checks of PARAM_SET in their order, and the last two turn on the values that the
pairs leave. -/
theorem paramSetStoresClampedOrRefuses : Obligations.ParamSetStoresClampedOrRefuses := by
  intro p seq pairs s h ha
  refine ⟨paramSet_empty h ha, fun sent k hk hj => paramSet_offending h ha sent k ((offends_sent sent k).1 hk)
    fun j hlt => (offends_sent sent j).not.1 (hj j hlt), ?_⟩
  intro hl hne hn hv payload value broken clamped
  have hvalue (i : ParamId) : paramValue (applyPairs s.store.params pairs) i = value i := by
    rw [paramValue_applyPairs pairs hn _ hl]
    show _ = match pairs.lookup i with
      | some v => clampParam i v
      | none => s.param i
    cases pairs.lookup i <;> rfl
  have hbroken := brokenConstraint_eq _ value hvalue
  have hexec := exec_paramSet p seq s hv
  refine ⟨fun hc => ?_, fun c hc => ?_⟩
  · have hnone : brokenConstraint (applyPairs s.store.params pairs) = none := by
      rw [hbroken, Option.map_eq_none_iff, List.find?_eq_none]
      exact fun c hm => Bool.eq_false_iff.1 (hc c hm)
    refine ⟨_, hexec.trans (congrArg _ (supervisory_answered h ha (paramBody_stored hne hn _ hnone)
      ((State.setPort_port ..).trans (if_pos rfl)))), hvalue, (applyPairs_length ..).trans hl, rfl, ?_, fun q hq => ?_⟩
    · rw [State.setPort_port, if_pos rfl]
      show s.answered p 0x24 seq (paramAnswer clamped) = _
      cases clamped <;> rfl
    · rw [State.setPort_port, if_neg hq]
      exact (State.setPort_port ..).trans (if_neg hq)
  · have hsome : brokenConstraint (applyPairs s.store.params pairs) = some c.reported := by
      rw [hbroken]
      exact congrArg (Option.map _) hc
    exact hexec.trans (congrArg _ (supervisory_refused h ha fun u hu =>
      paramBody_broken hne hn u _ (by rw [hu, hsome])))
end

section
/-! SUPPORT. The end of a validation (R9, R10, R163): the port it answers, and what each block begins with on the
committed section. -/

namespace Sys2Proof.Machine

/-! ## Ascending lists -/

theorem insertSorted_eq (x : Nat) (xs : List Nat) : insertSorted x xs = xs.orderedInsert (· ≤ ·) x := by
  induction xs with
  | nil => rfl
  | cons y ys ih => rw [insertSorted, List.orderedInsert_cons, ih]

theorem sortNats_eq (xs : List Nat) : sortNats xs = xs.insertionSort (· ≤ ·) := by
  unfold sortNats List.insertionSort
  congr 1
  funext x ys
  exact insertSorted_eq x ys

/-! ## The committed section -/

/-- The store that a passed validation leaves (R10). -/
def Store.lock (c : Store) : Store := { c with commit := .locked, geometry := some c.derive }

theorem lock_committed {c : Store} (h : c.validate = none) : c.lock.Committed :=
  ⟨Option.some_ne_none _, locked_whole h⟩

theorem mem_usedStations (c : Store) (k : Nat) (r : StationRecord) :
    (k, r) ∈ c.usedStations ↔ k < 16 ∧ c.station k = some r := by
  unfold Store.usedStations
  simp only [List.mem_filterMap, List.mem_range, Option.map_eq_some_iff, Prod.mk.injEq]
  constructor
  · rintro ⟨k, hk, r, hr, rfl, rfl⟩
    exact ⟨hk, hr⟩
  · rintro ⟨hk, hr⟩
    exact ⟨k, hk, r, hr, rfl, rfl⟩

/-- The used stations are as many as their slots. -/
theorem usedStations_length (c : Store) :
    c.usedStations.length = ((List.range 16).filter fun k => (c.station k).isSome).length := by
  unfold Store.usedStations
  generalize List.range 16 = ks
  induction ks with
  | nil => rfl
  | cons k ks ih =>
    rw [List.filterMap_cons, List.filter_cons]
    cases c.station k with
    | none => exact ih
    | some r => exact congrArg (· + 1) ih

/-- R26: a committed section has a demand for each site and one for EXIT. -/
theorem spots_length (c : Store) (h : c.Committed) : c.spots.length = c.siteCount + 1 := by
  obtain ⟨hg, hw⟩ := h
  obtain ⟨g, hg'⟩ := Option.ne_none_iff_exists'.1 hg
  obtain ⟨b, hb⟩ := Option.ne_none_iff_exists'.1 (hw.2.2 hg)
  have hc : c.siteCount = g.n := by unfold Store.siteCount; rw [hg']
  have hl := (configured_eq c hw).1
  have hs : ((List.range g.n).filterMap fun i => (c.site i).map fun r => r.spot i) =
      c.configured.map fun x => x.2.spot x.1 := by
    unfold Store.configured
    rw [List.map_filterMap, hc]
    simp [Function.comp_def]
  unfold Store.spots
  rw [hg', hb]
  dsimp only
  rw [hs]
  simp [hl]

/-- With no entry stored nothing is demanded (R36 to R39). -/
theorem demandAt_nil (ports : PerPort PortRec) (spot : Spot) :
    demandAt ports [] spot = ⟨none, [], false, none, none⟩ := by
  simp [demandAt]

/-- R133: a sign unit has exactly the elements its site displays. -/
theorem mem_unitElements (r : SiteRecord) (e : ElemId) : e ∈ r.unitElements ↔ r.Displays e := by
  unfold SiteRecord.unitElements SiteRecord.Displays
  have hp := mem_positions r.kind
  cases hk : r.kind <;> cases hs : r.sign <;> cases e <;> simp_all [SiteKind.Present]

/-! ## What each block begins with -/

theorem begin_unit {s : State} {u : UnitRec} (hu : u ∈ s.begin.units) :
    ∃ d ∈ s.store.derive.units, ∃ es, u = d.record es ∧
      ∀ i, d.owner = .sign i → ∀ r ∈ s.store.site i, es = r.unitElements := by
  obtain ⟨d, hd, rfl⟩ := List.mem_map.1 hu
  refine ⟨d, hd, _, rfl, fun i hi r hr => ?_⟩
  rw [hi]
  show ((s.store.site i).map SiteRecord.unitElements).getD [] = _
  rw [Option.mem_def.1 hr]
  rfl

/-- R125: each unit is PROBING and has reported nothing. -/
theorem begin_units_fresh (s : State) : ∀ u ∈ s.begin.units, u.state = .probing ∧ u.boot = none ∧ u.good = 0 ∧
    u.miss = 0 ∧ ∀ e ∈ u.elements, e.reported = none ∧ e.mark = .clear ∧ e.available = false := by
  intro u hu
  obtain ⟨d, -, es, rfl, -⟩ := begin_unit hu
  refine ⟨rfl, rfl, rfl, rfl, fun e he => ?_⟩
  obtain ⟨x, -, rfl⟩ := List.mem_map.1 he
  exact ⟨rfl, rfl, rfl⟩

/-- R133: a sign unit has the elements its site displays. -/
theorem begin_units_elements (s : State) : ∀ u ∈ s.begin.units, ∀ i, u.owner = .sign i → ∀ r ∈ s.store.site i, ∀ e,
    (∃ x ∈ u.elements, x.name = e) ↔ r.Displays e := by
  intro u hu i hi r hr e
  obtain ⟨d, -, es, rfl, hes⟩ := begin_unit hu
  rw [← mem_unitElements, ← hes i hi r hr]
  show (∃ x ∈ es.map _, _) ↔ _
  simp

theorem begin_station {s : State} {x : Station} (hx : x ∈ s.begin.stations) :
    ∃ k r, k < 16 ∧ s.store.station k = some r ∧ x = newStation k r.lanes.length 0 0 := by
  obtain ⟨⟨k, r⟩, hm, rfl⟩ := List.mem_map.1 hx
  obtain ⟨hk, hr⟩ := (mem_usedStations _ _ _).1 hm
  exact ⟨k, r, hk, hr, rfl⟩

/-- R83: each station is in its first form. -/
theorem begin_stations_first (s : State) :
    ∀ x ∈ s.begin.stations, x = { firstForm x with rejected := 0, chatter := 0 } := by
  intro x hx
  obtain ⟨k, r, -, -, rfl⟩ := begin_station hx
  rw [← newStation_eq]
  show _ = newStation k (List.replicate _ _).length 0 0
  rw [List.length_replicate]

theorem begin_stations_lanes (s : State) :
    ∀ x ∈ s.begin.stations, ∀ y ∈ s.store.station x.slot, x.lanes.length = y.lanes.length := by
  intro x hx y hy
  obtain ⟨k, r, -, hr, rfl⟩ := begin_station hx
  cases hr.symm.trans hy
  exact List.length_replicate

theorem begin_slots (s : State) (k : Nat) :
    k ∈ s.begin.stations.map (·.slot) ↔ k < 16 ∧ s.store.station k ≠ none := by
  constructor
  · intro h
    obtain ⟨x, hx, rfl⟩ := List.mem_map.1 h
    obtain ⟨k, r, hk, hr, rfl⟩ := begin_station hx
    exact ⟨hk, fun hn => by cases hr.symm.trans hn⟩
  · rintro ⟨hk, hn⟩
    obtain ⟨r, hr⟩ := Option.ne_none_iff_exists'.1 hn
    exact List.mem_map.2 ⟨newStation k r.lanes.length 0 0,
      List.mem_map.2 ⟨(k, r), (mem_usedStations _ _ _).2 ⟨hk, hr⟩, rfl⟩, rfl⟩

theorem begin_site {s : State} {i : Nat} {d : DeliverySite} (h : s.begin.site i = some d) :
    d = newDeliverySite (planSite s.store.lock.resetPlan i) := by
  have h : ((List.range s.store.lock.siteCount).map fun i => newDeliverySite (planSite s.store.lock.resetPlan i))[i]? =
    some d := h
  rw [List.getElem?_map] at h
  obtain ⟨j, hj, rfl⟩ := Option.map_eq_some_iff.1 h
  obtain ⟨hlt, rfl⟩ := List.getElem?_eq_some_iff.1 hj
  rw [List.getElem_range]

/-- R142: no site has anything confirmed, commanded or in parts. -/
theorem begin_sites_empty (s : State) : ∀ d ∈ s.begin.delivery.sites, d.confirmed = [] ∧ d.commanded = none ∧
    d.applied = none ∧ d.inFlight = false ∧ d.tightening = none ∧ d.relaxing = none ∧ d.darkening = none := by
  intro d hd
  obtain ⟨i, -, rfl⟩ := List.mem_map.1 hd
  exact ⟨rfl, rfl, rfl, rfl, rfl, rfl, rfl⟩

/-- R143: each site wants what the plan in its reset form shows. -/
theorem begin_wanted (s : State) (i : Nat) (d : DeliverySite) (h : s.begin.site i = some d) (e : ElemId) (v : ElemVal) :
    d.wanted.lookup e = some v ↔ (planSite s.begin.evaluator.plan i).Shows e v := by
  rw [begin_site h]
  exact resetPlan_wanted _ i e v

/-- R57: no element is available. -/
theorem begin_available (s : State) : ∀ xs ∈ s.begin.evaluator.available, xs = [] := by
  intro xs hx
  obtain ⟨x, -, rfl⟩ := List.mem_map.1 hx
  rfl

/-- R36 to R39: with no entry stored nothing is demanded. -/
theorem begin_demand (s : State) (h : s.table.entries = []) :
    ∀ d ∈ s.begin.table.demand, d = ⟨none, [], false, none, none⟩ := by
  intro d hd
  obtain ⟨x, -, rfl⟩ := List.mem_map.1 hd
  show demandAt _ s.table.entries x = _
  rw [h, demandAt_nil]

/-- R122: line l begins a poll cycle numbered 0 with all its units due. -/
theorem begin_cycle (s : State) (l : LineId) : ∃ c, (s.begin.line l).cycle = some c ∧ c.number = 0 ∧ c.start = s.now ∧
    c.period = s.param (pollCycleId l) ∧ c.due.Pairwise (· ≤ ·) ∧
    ∀ a, a ∈ c.due ↔ ∃ u ∈ s.begin.units, u.line = l ∧ u.address = a := by
  refine ⟨s.begin.newCycle l 0, by cases l <;> rfl, rfl, rfl, rfl, ?_, fun a => ?_⟩
  · show (sortNats _).Pairwise _
    rw [sortNats_eq]
    exact List.pairwise_insertionSort _ _
  · show a ∈ sortNats _ ↔ _
    rw [sortNats_eq, List.mem_insertionSort]
    simp [and_assoc]

theorem begin_port (s : State) (q : Port) : s.begin.port q = (s.port q).raise .mode := State.notifyAll_port _ _ q

/-! ## The port that is answered -/

/-- The port whose command slot alone holds a COMMIT is the one answered. -/
theorem committer_eq {s : State} {p : Port} {seq : Byte} (hp : (s.port p).command = some ⟨0x23, seq⟩)
    (hq : ∀ q, q ≠ p → ∀ c, (s.port q).command = some c → c.code ≠ 0x23) : s.committer = some p := by
  have hf : (fun q => match (s.port q).command with
      | none => false
      | some c => decide (c.code = commitCode)) = fun q => decide (q = p) := by
    funext q
    by_cases e : q = p
    · rw [e, hp, decide_eq_true rfl]
      rfl
    · rw [decide_eq_false e]
      cases hc : (s.port q).command with
      | none => rfl
      | some c => exact decide_eq_false (hq q e c hc)
  have hall : allPorts.find? (fun q => decide (q = p)) = some p := by cases p <;> rfl
  exact (congrArg allPorts.find? hf).trans hall

/-- A reply placed on a port whose command slot holds a COMMIT (R173). -/
theorem placeReply_commit {s : State} {p : Port} {seq : Byte} (hp : (s.port p).command = some ⟨0x23, seq⟩)
    (a : Answer) :
    s.placeReply p a = s.setPort p { s.port p with command := none, reply := some ⟨0xA3, seq, a.1, a.2⟩ } := by
  simp only [State.placeReply, hp]
  rfl

/-- The end of a validation, with its answer on the port that sent the COMMIT. -/
theorem exec_validationEnd {s : State} {p : Port} {seq : Byte} (hc : s.store.commit = .validating)
    (hp : (s.port p).command = some ⟨0x23, seq⟩)
    (hq : ∀ q, q ≠ p → ∀ c, (s.port q).command = some c → c.code ≠ 0x23) :
    exec .commitValidationEnd s = .next (s.endValidation.1.placeReply p s.endValidation.2) := by
  show Host.Outcome.next (if s.store.commit = .validating then _ else s) = _
  rw [if_pos hc]
  have h := committer_eq hp hq
  rw [h]

end Sys2Proof.Machine

open Sys2Proof Sys2Proof.Machine

/-- Settles O37: a failed check leaves the store OPEN, and what each block begins with is read off `State.begin`. -/
theorem validationEndLocksOrRefuses : Obligations.ValidationEndLocksOrRefuses := by
  intro p seq h s hc hp hq hlt hh hn n replied
  have hu : s.store.highestUsed = h := highestUsed_eq s.store h hlt hh hn
  have hexec := exec_validationEnd hc hp hq
  obtain ⟨sound, failed⟩ := validate_spec s.store h hu
  refine ⟨fun check kind index h1 h5 passed reported => ?_, fun passed => ?_⟩
  · obtain ⟨r, rfl, hv⟩ := failed check kind index h1 h5 passed reported
    have hend : s.endValidation = (s.withStore fun c => { c with commit := .openState },
        (.constraint, [byte r.code, byte index])) := by
      unfold State.endValidation
      rw [hv]
    rw [hexec, hend, placeReply_commit (s := s.withStore _) hp]
    rfl
  · have hv := sound passed
    have hcom := lock_committed hv
    have hcount : s.store.lock.siteCount = n := congrArg (· + 1) hu
    have hused : s.begin.store.stationCount = ((List.range 16).filter fun k => (s.store.station k).isSome).length :=
      (List.length_map ..).trans (usedStations_length s.store)
    have hcommand : (s.begin.port p).command = some ⟨0x23, seq⟩ := by rw [begin_port, PortRec.raise_command, hp]
    have hrun : exec .commitValidationEnd s = .next (s.begin.setPort p (replied ((s.port p).raise .mode)
        (.ok, [byte n, byte ((List.range 16).filter fun k => (s.store.station k).isSome).length]))) := by
      have hend : s.endValidation =
          (s.begin, (.ok, [byte s.begin.store.siteCount, byte s.begin.store.stationCount])) := by
        unfold State.endValidation
        rw [hv]
      rw [hexec, hend, placeReply_commit hcommand, begin_port, hused, ← hcount]
      rfl
    have hsites : s.begin.delivery.sites.length = n := (List.length_map ..).trans (List.length_range.trans hcount)
    have havailable : s.begin.evaluator.available.length = n :=
      (List.length_map ..).trans ((configured_eq _ hcom.2).1.trans hcount)
    have hdemand : s.begin.table.demand.length = n + 1 :=
      (List.length_map ..).trans ((spots_length _ hcom).trans (congrArg (· + 1) hcount))
    refine ⟨s.store.derive, _, hrun, derive_spec s.store h hu (passed 2 (by decide) (by decide)), rfl, rfl,
      List.map_map.trans rfl, begin_units_fresh s, begin_units_elements s, begin_stations_first s,
      begin_stations_lanes s, begin_slots s, hsites, rfl, rfl, rfl, begin_sites_empty s, begin_wanted s, havailable,
      begin_available s, rfl, rfl, resetPlan_reset _ hcom, rfl, hdemand, begin_demand s, begin_cycle s,
      fun q hne => ?_, _, rfl, ?_⟩
    · rw [State.setPort_port, if_neg hne, begin_port]
    · rw [State.setPort_port, if_pos rfl]
end

section
/-! SUPPORT. Where the entries of the request table stand (R17, R18): the slots and keys that `TableInv` speaks of, and
what a change of the table does to them. -/

namespace Sys2Proof.Machine

/-! ## Slots and keys -/

/-- The slot and the key of an entry. -/
def Entry.place (e : Entry) : Nat × Requester × Nat := (e.slot, e.requester, e.tag)

/-- R17: whether a key may stand in a slot: a port's in the pool, a station's in its own slot. -/
def MayStand (x : Nat × Requester × Nat) : Prop :=
  match x.2.1 with
  | .port _ => x.1 < Config.poolSlots
  | .qp => x.1 = qpSlot x.2.2 ∧ x.2.2 < 16

/-- How many of some places are a port's. -/
def heldBy (xs : List (Nat × Requester × Nat)) (p : Port) : Nat :=
  xs.countP fun x => decide (x.2.1 = .port p)

/-- What `TableInv` says of the places of the entries. -/
structure PlacesSound (xs : List (Nat × Requester × Nat)) : Prop where
  slots : (xs.map (·.1)).Nodup
  keys : (xs.map (·.2)).Nodup
  stand : ∀ x ∈ xs, MayStand x
  quota : ∀ p, heldBy xs p ≤ Config.quota

theorem heldBy_place (t : Table) (p : Port) : heldBy (t.entries.map Entry.place) p = t.count p := by
  unfold heldBy Table.count
  rw [List.countP_map, ← List.countP_eq_length_filter]
  rfl

/-- The invariant in terms of the places of the entries and the slots of the stations. -/
theorem tableInv_iff (s : State) : TableInv s ↔ PlacesSound (s.table.entries.map Entry.place) ∧
    s.table.nextArrival < 4294967296 ∧ ∀ k ∈ s.stations.map (·.slot), k < 16 := by
  have slots : (s.table.entries.map Entry.place).map (·.1) = s.table.entries.map (·.slot) := by
    rw [List.map_map]; rfl
  have keys : (s.table.entries.map Entry.place).map (·.2) = s.table.entries.map fun e => (e.requester, e.tag) := by
    rw [List.map_map]; rfl
  constructor
  · rintro ⟨hslots, hkeys, hstand, hquota, harrival, hstations⟩
    refine ⟨⟨slots ▸ hslots, keys ▸ hkeys, ?_, fun p => heldBy_place s.table p ▸ hquota p⟩, harrival, ?_⟩
    · exact List.forall_mem_map.2 hstand
    · exact List.forall_mem_map.2 hstations
  · rintro ⟨h, harrival, hstations⟩
    exact ⟨slots ▸ h.slots, keys ▸ h.keys, List.forall_mem_map.1 h.stand,
      fun p => heldBy_place s.table p ▸ h.quota p, harrival, List.forall_mem_map.1 hstations⟩

/-- Fewer entries stand where more may. -/
theorem PlacesSound.sublist {xs ys : List (Nat × Requester × Nat)} (h : PlacesSound ys) (hs : xs.Sublist ys) :
    PlacesSound xs where
  slots := h.slots.sublist (hs.map _)
  keys := h.keys.sublist (hs.map _)
  stand x hx := h.stand x (hs.subset hx)
  quota p := (hs.countP_le).trans (h.quota p)

/-- One more entry, in a slot and with a key that no other has, and within its port's quota. -/
theorem PlacesSound.append {xs : List (Nat × Requester × Nat)} {y : Nat × Requester × Nat} (h : PlacesSound xs)
    (hslot : ∀ x ∈ xs, x.1 ≠ y.1) (hkey : ∀ x ∈ xs, x.2 ≠ y.2) (hy : MayStand y)
    (hquota : ∀ p, y.2.1 = .port p → heldBy xs p < Config.quota) : PlacesSound (xs ++ [y]) where
  slots := by
    rw [List.map_append, List.map_singleton, List.nodup_append]
    refine ⟨h.slots, List.nodup_singleton _, ?_⟩
    simpa using fun a b c hx => hslot (a, b, c) hx
  keys := by
    rw [List.map_append, List.map_singleton, List.nodup_append]
    refine ⟨h.keys, List.nodup_singleton _, ?_⟩
    simpa using fun a b c hx => hkey (c, a, b) hx
  stand x hx := by
    rcases List.mem_append.1 hx with hx | hx
    · exact h.stand x hx
    · rw [List.mem_singleton.1 hx]; exact hy
  quota p := by
    unfold heldBy
    rw [List.countP_append, List.countP_singleton]
    split
    · rename_i hp
      exact hquota p (of_decide_eq_true hp)
    · exact h.quota p

/-! ## Entries removed and stored -/

/-- Two entries of the same key are one. -/
theorem PlacesSound.eq_of_key {es : List Entry} (h : PlacesSound (es.map Entry.place)) {a b : Entry} (ha : a ∈ es)
    (hb : b ∈ es) (hr : a.requester = b.requester) (ht : a.tag = b.tag) : a = b := by
  have hn := h.keys
  rw [List.map_map] at hn
  exact List.inj_on_of_nodup_map hn ha hb (Prod.ext hr ht)

/-- R18: an entry stored in its slot, whose key no entry of another slot has. -/
theorem PlacesSound.store {t : Table} {e : Entry} (h : PlacesSound (t.entries.map Entry.place))
    (hkey : ∀ x ∈ t.entries, x.requester = e.requester → x.tag = e.tag → x.slot = e.slot) (he : MayStand e.place)
    (hquota : ∀ p, e.requester = .port p → t.count p < Config.quota ∨
      ∃ x ∈ t.entries, x.slot = e.slot ∧ x.requester = .port p) :
    PlacesSound ((t.store e).entries.map Entry.place) := by
  have rest : PlacesSound ((t.entries.filter fun x => decide (x.slot ≠ e.slot)).map Entry.place) :=
    h.sublist (List.filter_sublist.map _)
  unfold Table.store
  rw [List.map_append, List.map_singleton]
  refine rest.append ?_ ?_ he fun p hp => ?_
  · rw [List.forall_mem_map]
    exact fun x hx => of_decide_eq_true (List.mem_filter.1 hx).2
  · rw [List.forall_mem_map]
    intro x hx hk
    obtain ⟨hm, hs⟩ := List.mem_filter.1 hx
    exact of_decide_eq_true hs (hkey x hm (congrArg Prod.fst hk) (congrArg Prod.snd hk))
  · have fewer : heldBy ((t.entries.filter fun x => decide (x.slot ≠ e.slot)).map Entry.place) p ≤ t.count p :=
      heldBy_place t p ▸ (List.filter_sublist.map _).countP_le
    rcases hquota p hp with hq | ⟨x, hx, hs, hr⟩
    · exact fewer.trans_lt hq
    · have hlt : heldBy ((t.entries.filter fun x => decide (x.slot ≠ e.slot)).map Entry.place) p < t.count p := by
        rw [heldBy_place { t with entries := t.entries.filter fun x => decide (x.slot ≠ e.slot) }]
        unfold Table.count
        rw [List.filter_comm, List.length_filter_lt_length_iff_exists]
        exact ⟨x, List.mem_filter.2 ⟨hx, decide_eq_true hr⟩, by simpa using hs⟩
      exact hlt.trans_le (heldBy_place t p ▸ h.quota p)

end Sys2Proof.Machine
end

section
/-! SUPPORT. What keeps the invariant of the request table (R17, R18), said once for each shared operation: the changes of
the table, and the handings of the field side and of delivery, of which queue protection's alone change an entry. -/

namespace Sys2Proof.Machine

/-! ## Keeping the invariant -/

/-- The invariant of the request table goes over from one state to the other. -/
def TableKept (s t : State) : Prop := TableInv s → TableInv t

theorem TableKept.refl (s : State) : TableKept s s := id

theorem TableKept.trans {s t u : State} (h : TableKept s t) (g : TableKept t u) : TableKept s u := g ∘ h

/-- Entries that stand where others stood, fewer of them perhaps, beside the same stations. -/
theorem TableKept.of_places {s t : State}
    (he : (t.table.entries.map Entry.place).Sublist (s.table.entries.map Entry.place))
    (ha : t.table.nextArrival = s.table.nextArrival) (hs : t.stations.map (·.slot) = s.stations.map (·.slot)) :
    TableKept s t := fun h => by
  obtain ⟨hp, hn, hk⟩ := (tableInv_iff s).1 h
  exact (tableInv_iff t).2 ⟨hp.sublist he, ha ▸ hn, hs ▸ hk⟩

/-- The table and the stations' slots left as they are. -/
theorem TableKept.of_same {s t : State} (ht : t.table = s.table)
    (hs : t.stations.map (·.slot) = s.stations.map (·.slot)) : TableKept s t :=
  .of_places (by rw [ht]) (by rw [ht]) hs

/-- A handing that leaves the table. -/
theorem Handing.tableKept {s t : State} (h : Handing s t) (ht : t.table = s.table) : TableKept s t :=
  .of_same ht h.side.slots

/-- What changes parts and queues alone. -/
theorem PartsOnly.tableKept {s t : State} (h : PartsOnly s t) : TableKept s t :=
  .of_same (by rw [h.eq]) (by rw [h.eq])

theorem OnlyPort.tableKept {p : Port} {s t : State} (h : OnlyPort p s t) : TableKept s t :=
  .of_same (by rw [h]; rfl) (by rw [h]; rfl)

/-- An event whose condition does not hold changes nothing (log entry 6). -/
theorem TableKept.ite {b : Prop} [Decidable b] {s t : State} (h : TableKept s t) :
    TableKept s (if b then t else s) := by
  split
  · exact h
  · exact .refl s

/-- A change made for every element of a list keeps the invariant when each does. -/
theorem TableKept.foldl {α : Type} (xs : List α) (f : α → State → State) (h : ∀ x t, TableKept t (f x t)) (s : State) :
    TableKept s (xs.foldl (fun t x => f x t) s) := by
  induction xs generalizing s with
  | nil => exact .refl s
  | cons x xs ih => exact (h x s).trans (ih (f x s))

/-! ## Changes of the table -/

/-- A change of the table to entries that stand where others stood. -/
theorem changeTable_shrunk {s : State} {t : Table}
    (he : (t.entries.map Entry.place).Sublist (s.table.entries.map Entry.place))
    (ha : t.nextArrival = s.table.nextArrival) : TableKept s (s.changeTable t) :=
  .of_places (by rwa [changeTable_entries]) (by rwa [changeTable_nextArrival]) (by rw [changeTable_stations])

/-- R34: entries removed. -/
theorem changeTable_remove (s : State) (gone : Entry → Bool) : TableKept s (s.changeTable (s.table.remove gone)) :=
  changeTable_shrunk (List.filter_sublist.map _) rfl

/-- R18: an entry stored. -/
theorem changeTable_store {s : State} {e : Entry}
    (hp : PlacesSound ((s.table.store e).entries.map Entry.place)) : TableKept s (s.changeTable (s.table.store e)) :=
  fun h => by
    obtain ⟨-, -, hk⟩ := (tableInv_iff s).1 h
    refine (tableInv_iff _).2 ⟨by rwa [changeTable_entries], ?_, by rwa [changeTable_stations]⟩
    rw [changeTable_nextArrival]
    exact Nat.mod_lt _ (by decide)

/-- R47: entries thawed stay where they stand. -/
theorem thaw_places (t : Table) (p : Port) : (t.thaw p).entries.map Entry.place = t.entries.map Entry.place := by
  unfold Table.thaw
  rw [List.map_map]
  refine List.map_congr_left fun e _ => ?_
  simp only [Function.comp]
  split <;> rfl

/-- R46: entries frozen stay where they stand, and DROP entries go. -/
theorem silence_places (t : Table) (p : Port) :
    ((t.silence p).entries.map Entry.place).Sublist (t.entries.map Entry.place) := by
  have same : (t.silence p).entries.map Entry.place =
      (t.entries.filter fun e => !(e.ownedBy p && decide (e.ask.policy = .drop))).map Entry.place := by
    unfold Table.silence
    rw [List.map_map]
    refine List.map_congr_left fun e _ => ?_
    simp only [Function.comp]
    split <;> rfl
  rw [same]
  exact List.filter_sublist.map _

/-! ## Handings of queue protection (R28, R104) -/

theorem setStation_tableKept (s : State) (x : Station) : TableKept s (s.setStation x) :=
  (setStation_handing s x).tableKept rfl

/-- R28: what is handed for a station goes to the station's own slot, under its own key. -/
theorem handQp_tableKept (s : State) (k : Nat) (m : Option QpImage) (hk : k < 16) : TableKept s (s.handQp k m) := by
  have stored (a : Ask) : TableKept s (s.changeTable (s.table.store ⟨qpSlot k, .qp, k, a, none, 0, .active⟩)) :=
    fun h => by
      obtain ⟨hp, -, -⟩ := (tableInv_iff s).1 h
      refine changeTable_store (hp.store (fun x hx hr ht => ?_) ⟨rfl, hk⟩ fun p hq => nomatch hq) h
      have hs := hp.stand _ (List.mem_map_of_mem hx)
      unfold MayStand Entry.place at hs
      rw [hr, ht] at hs
      exact hs.1
  unfold State.handQp Table.hand
  cases s.table.inSlot (qpSlot k) with
  | none =>
    cases m with
    | none => exact .refl s
    | some m => exact stored _
  | some e =>
    cases m with
    | none => exact changeTable_remove _ _
    | some m =>
      dsimp only
      by_cases he : e.ask = m.ask
      · rw [if_pos he]; exact .refl s
      · rw [if_neg he]; exact stored _

/-- A station on record has one of the 16 station slots. -/
theorem TableInv.station_lt {s : State} (h : TableInv s) {k : Nat} {x : Station} (hx : s.station k = some x) : k < 16 := by
  obtain ⟨-, -, -, -, -, hs⟩ := h
  exact station_slot hx ▸ hs x (List.mem_of_find?_eq_some hx)

theorem handStation_tableKept (s : State) (k : Nat) : TableKept s (s.handStation k) := fun h => by
  unfold State.handStation
  split
  · exact h
  · rename_i x hx
    exact handQp_tableKept _ _ _ (h.station_lt hx) (setStation_tableKept _ _ h)

theorem notifyAll_tableKept (s : State) (n : Notice) : TableKept s (s.notifyAll n) :=
  (notifyAll_handing s n).tableKept rfl

theorem noticeStation_tableKept (s : State) (a b : StationState) : TableKept s (s.noticeStation a b) := by
  unfold State.noticeStation
  split
  · exact .refl s
  · exact notifyAll_tableKept _ _

theorem dataReply_tableKept (s : State) (k : Nat) (d : DataReply) (u : UnitState) (r : Bool) :
    TableKept s (s.dataReply k d u r) := by
  unfold State.dataReply
  split
  · split
    · exact setStation_tableKept _ _
    · split
      · exact setStation_tableKept _ _
      · split
        · exact setStation_tableKept _ _
        · dsimp only
          split
          · exact setStation_tableKept _ _
          · exact ((setStation_tableKept _ _).trans (noticeStation_tableKept _ _ _)).trans (handStation_tableKept _ _)
  · exact .refl s

theorem stationUnitChanged_tableKept (s : State) (k : Nat) (a b : UnitState) :
    TableKept s (s.stationUnitChanged k a b) := by
  unfold State.stationUnitChanged
  split
  · exact .refl s
  · split
    · split
      · exact setStation_tableKept _ _
      · exact .refl s
    · exact .refl s
    · have first (x y : Station) := (setStation_tableKept s y).trans (noticeStation_tableKept _ x.state y.state)
      dsimp only
      split
      · exact first _ _
      · exact (first _ _).trans (handStation_tableKept _ _)

/-! ## The unit table and delivery change no entry -/

theorem storeUnit_tableKept (s : State) (i : Nat) (u : UnitRec) : TableKept s (s.storeUnit i u) := by
  refine (storeUnit_handing s i u).tableKept ?_
  unfold State.storeUnit
  dsimp only
  split
  · split <;> rfl
  · rfl

theorem reportMismatch_tableKept (s : State) (i : Nat) (es : List ElemId) : TableKept s (s.reportMismatch i es) := by
  unfold State.reportMismatch
  split
  · dsimp only
    split
    · exact storeUnit_tableKept _ _ _
    · exact (storeUnit_tableKept _ _ _).trans (notifyAll_tableKept _ _)
  · exact .refl s

theorem noticeUnit_tableKept (s : State) (b : Bool) : TableKept s (s.noticeUnit b) := by
  unfold State.noticeUnit
  split
  · exact notifyAll_tableKept _ _
  · exact .refl s

theorem withDelivery_tableKept (s : State) (d : Delivery) : TableKept s { s with delivery := d } := .of_same rfl rfl

theorem modifySite_tableKept (s : State) (i : Nat) (f : DeliverySite → DeliverySite) : TableKept s (s.modifySite i f) :=
  (modifySite_parts s i f).tableKept

theorem clearParts_tableKept (s : State) : TableKept s s.clearParts :=
  (withdraws_parts s).tableKept.trans (withDelivery_tableKept _ _)

theorem enterShadow_tableKept (s : State) : TableKept s s.enterShadow :=
  ((TableKept.of_same (t := { s with mode := .shadow }.notifyAll .mode) rfl rfl).trans (clearParts_tableKept _)).trans
    (withDelivery_tableKept _ _)

theorem judgeCompletion_tableKept (s : State) : TableKept s s.judgeCompletion := by
  have done := (withDelivery_tableKept s s.delivery.complete).trans (notifyAll_tableKept _ .delivered)
  unfold State.judgeCompletion
  split
  · dsimp only
    split
    · exact done
    · exact done.trans (enterShadow_tableKept _)
  · exact .refl s

theorem settleDelivery_tableKept (s : State) : TableKept s s.settleDelivery :=
  (judgeReleases_parts s).tableKept.trans (judgeCompletion_tableKept _)

theorem confirmKind_tableKept (s : State) (i : Nat) (k : PartKind) : TableKept s (s.confirmKind i k) := by
  unfold State.confirmKind
  split
  · exact .refl s
  · split
    · exact .refl s
    · split
      · exact ((withdrawKind_parts _ _ _).trans (modifySite_parts _ _ _)).tableKept
      · exact .refl s

theorem confirm_tableKept (s : State) (i : Nat) : TableKept s (s.confirm i) :=
  ((confirmKind_tableKept _ _ _).trans (confirmKind_tableKept _ _ _)).trans (confirmKind_tableKept _ _ _)

theorem readback_tableKept (s : State) (i : Nat) (r : StateReply) (a b : Bool) : TableKept s (s.readback i r a b) := by
  have first : TableKept s (s.takeReadback i r) := modifySite_tableKept _ _ _
  have reformed (t : State) : TableKept t (t.reform i).settleDelivery :=
    (reform_parts t i).tableKept.trans (settleDelivery_tableKept _)
  have confirmed (t : State) : TableKept t (t.confirm i).settleDelivery :=
    (confirm_tableKept t i).trans (settleDelivery_tableKept _)
  unfold State.readback
  dsimp only
  split
  · exact ((first.trans (modifySite_tableKept _ _ _)).trans (confirmed _)).trans (reformed _)
  · split
    · exact ((first.trans (confirmed _)).trans (withDelivery_tableKept _ _)).trans (reformed _)
    · exact first.trans (confirmed _)

theorem setStarted_tableKept (s : State) (c : SetCommand) : TableKept s (s.setStarted c) :=
  (modifySite_tableKept _ _ _).trans (settleDelivery_tableKept _)

theorem endPart_tableKept (s : State) (i : Nat) (k : PartKind) (b : Bool) : TableKept s (s.endPart i k b) := by
  unfold State.endPart
  split
  · exact .refl s
  · split
    · exact .refl s
    · split
      · exact .refl s
      · split
        · exact modifySite_tableKept _ _ _
        · split
          · exact modifySite_tableKept _ _ _
          · exact (reportMismatch_tableKept _ _ _).trans (abandon_parts _ _ _ _ _).tableKept

theorem reformIfDiffering_tableKept (s : State) (i : Nat) : TableKept s (s.reformIfDiffering i) := by
  unfold State.reformIfDiffering
  split
  · exact .refl s
  · exact .ite (reform_parts s i).tableKept

theorem setEnded_tableKept (s : State) (c : SetCommand) (b : Bool) : TableKept s (s.setEnded c b) := by
  unfold State.setEnded
  split
  · exact .refl s
  · split
    · exact (((modifySite_tableKept _ _ _).trans (endPart_tableKept _ _ _ _)).trans
        (reformIfDiffering_tableKept _ _)).trans (settleDelivery_tableKept _)
    · exact settleDelivery_tableKept _

theorem takeEpoch_tableKept (s : State) : TableKept s s.takeEpoch := by
  unfold State.takeEpoch
  split
  · exact .refl s
  · dsimp only
    split
    · exact ((withDelivery_tableKept s _).trans (forSites_parts _ _ fun i t => reform_parts t i).tableKept).trans
        (settleDelivery_tableKept _)
    · exact withDelivery_tableKept s _

theorem takeEpochZero_tableKept (s : State) (d : DeliveryState) : TableKept s (s.takeEpochZero d) :=
  (clearParts_tableKept s).trans (withDelivery_tableKept _ _)

theorem formDark_tableKept (s : State) : TableKept s s.formDark :=
  ((clearParts_tableKept s).trans (withDelivery_tableKept _ _)).trans
    ((forSites_parts _ _ fun i t => reform_parts t i).trans (judgeReleases_parts _)).tableKept

/-! ## What the field lines hand the unit table -/

theorem unitChanged_tableKept (s : State) (o : UnitOwner) (a b : UnitState) : TableKept s (s.unitChanged o a b) := by
  unfold State.unitChanged
  split
  · exact .refl s
  · split
    · exact .ite (unitLost_parts s _).tableKept
    · exact stationUnitChanged_tableKept _ _ _ _

theorem handOn_tableKept (s : State) (o : UnitOwner) (st : UnitState) (r : FieldReply) (a b : Bool) :
    TableKept s (s.handOn o st r a b) := by
  unfold State.handOn
  split
  · exact readback_tableKept _ _ _ _ _
  · exact dataReply_tableKept _ _ _ _ _
  · exact .refl s

theorem goodReply_tableKept (s : State) (i : Nat) (r : FieldReply) (b : Bool) : TableKept s (s.goodReply i r b) := by
  unfold State.goodReply
  split
  · exact .refl s
  · exact (((storeUnit_tableKept _ _ _).trans (unitChanged_tableKept _ _ _ _)).trans
      (handOn_tableKept _ _ _ _ _ _)).trans (noticeUnit_tableKept _ _)

theorem unitMissed_tableKept (s : State) (i : Nat) : TableKept s (s.unitMissed i) := by
  unfold State.unitMissed
  split
  · exact .refl s
  · exact (((storeUnit_tableKept _ _ _).trans (unitChanged_tableKept _ _ _ _)).trans
      (settleDelivery_tableKept _)).trans (noticeUnit_tableKept _ _)

theorem reportLine_tableKept (s : State) (l : LineId) (f : UnitRec → UnitRec) : TableKept s (s.reportLine l f) := by
  unfold State.reportLine
  refine TableKept.trans (TableKept.trans (TableKept.trans (.foldl _ _ (fun i t => ?_) s)
    (.foldl _ _ (fun i t => ?_) _)) (settleDelivery_tableKept _)) (noticeUnit_tableKept _ _)
  · split
    · exact .refl t
    · exact .ite (storeUnit_tableKept _ _ _)
  · split
    · exact unitChanged_tableKept _ _ _ _
    · exact .refl t

theorem reportEnd_tableKept (s : State) (c : Option SetCommand) (b : Bool) : TableKept s (s.reportEnd c b) := by
  unfold State.reportEnd
  split
  · exact .refl s
  · exact setEnded_tableKept _ _ _

theorem setLine_tableKept (s : State) (l : LineId) (r : LineRec) : TableKept s (s.setLine l r) :=
  (setLine_parts s l r).tableKept

theorem takeValidReply_tableKept (s : State) (l : LineId) (t : Transaction) (r : FieldReply) :
    TableKept s (s.takeValidReply l t r) := by
  unfold State.takeValidReply
  exact ((setLine_tableKept _ _ _).trans (goodReply_tableKept _ _ _ _)).trans (reportEnd_tableKept _ _ _)

theorem failAttempt_tableKept (s : State) (l : LineId) (t : Transaction) : TableKept s (s.failAttempt l t) := by
  unfold State.failAttempt
  split
  · exact ((setLine_tableKept _ _ _).trans (unitMissed_tableKept _ _)).trans (reportEnd_tableKept _ _ _)
  · exact setLine_tableKept _ _ _

theorem startWork_tableKept (s : State) (l : LineId) (w : Work) : TableKept s (s.startWork l w) := by
  cases w with
  | retry t => exact setLine_tableKept _ _ _
  | set c => exact (setLine_tableKept _ _ _).trans (setStarted_tableKept _ _)
  | poll a => exact setLine_tableKept _ _ _

theorem onLine_tableKept (s : State) (l : LineId) (f : LineRec → LineRec) : TableKept s (s.onLine l f) :=
  .ite (setLine_tableKept _ _ _)

end Sys2Proof.Machine
end

section
/-! SUPPORT. The invariant of the request table under every command and event: the commands of the table itself, and all
others, which move entries only through liveness and queue protection. -/

namespace Sys2Proof.Machine

/-! ## A good frame on a port -/

theorem setPort_tableKept (s : State) (p : Port) (r : PortRec) : TableKept s (s.setPort p r) := .of_same rfl rfl

/-- A return of a SILENT port thaws its entries where they stand (R47). -/
theorem goodFrameTaken_tableKept (s : State) (p : Port) : TableKept s (s.goodFrameTaken p) := by
  have restarted : TableKept s (s.restartKeepalive p) := setPort_tableKept _ _ _
  have others (u : State) : TableKept u (u.notifyOthers p .port) := .of_same rfl rfl
  unfold State.goodFrameTaken
  split
  · exact restarted
  · unfold State.returnPort
    refine TableKept.trans ?_ (others _)
    split
    · exact restarted.trans (changeTable_shrunk (by rw [thaw_places]) rfl)
    · exact restarted

/-- A good frame keeps the invariant where its command's body does. -/
theorem takeFrame_tableKept (s : State) (p : Port) (code seq : Byte) (body : CommandBody)
    (h : ∀ u, TableKept u (body u).1) : TableKept s (s.takeFrame p code seq body) := by
  unfold State.takeFrame
  split
  · have taken (r : PortRec) := (goodFrameTaken_tableKept s p).trans (setPort_tableKept _ p r)
    dsimp only
    split
    · exact taken _
    · exact ((taken _).trans (h _)).trans (carryOut_onlyPort _ _ _).tableKept
  · exact .refl s

/-- A judged command keeps the invariant where its own rule does. -/
theorem command_tableKept (s : State) (p : Port) (code seq : Byte) (needed : Authority) (form : Bool)
    (body : CommandBody) (h : ∀ u, TableKept u (body u).1) :
    TableKept s (s.takeFrame p code seq (judged p needed form body)) := by
  refine takeFrame_tableKept s p code seq _ fun u => ?_
  unfold judged
  split
  · exact .refl u
  split
  · exact .refl u
  · exact h u

/-! ## Commands of the request table -/

/-- A key found is that of an entry of the table. -/
theorem find_some {t : Table} {q : Requester} {tag : Nat} {e : Entry} (h : t.find q tag = some e) :
    e ∈ t.entries ∧ e.requester = q ∧ e.tag = tag :=
  ⟨List.mem_of_find?_eq_some h, by simpa using List.find?_some h⟩

/-- A key not found is that of no entry of the table. -/
theorem find_none {t : Table} {q : Requester} {tag : Nat} :
    t.find q tag = none ↔ ∀ e ∈ t.entries, ¬ (e.requester = q ∧ e.tag = tag) := by
  unfold Table.find
  rw [List.find?_eq_none]
  simp only [decide_eq_true_eq]

/-- R24: the slot taken for a new entry is in the pool. -/
theorem freeSlot_lt {t : Table} {k : Nat} (h : t.freeSlot = some k) : k < Config.poolSlots :=
  List.mem_range.1 (List.mem_of_find?_eq_some h)

/-- R24, R25: a REQUEST stores its entry in the slot of its key, or, with a new key, in a pool slot within the quota. -/
theorem storeRequest_tableKept (r : RequestFields) (p : Port) (slot : Nat) (b : Bool) (s : State)
    (h : (∃ e, s.table.find (.port p) r.tag = some e ∧ e.slot = slot) ∨
      s.table.find (.port p) r.tag = none ∧ slot < Config.poolSlots ∧ s.table.count p < Config.quota) :
    TableKept s (storeRequest r p slot b s).1 := fun hs => by
  obtain ⟨hp, -, -⟩ := (tableInv_iff s).1 hs
  refine changeTable_store ?_ hs
  rcases h with ⟨e, hf, rfl⟩ | ⟨hf, hslot, hq⟩
  · obtain ⟨he, hr, ht⟩ := find_some hf
    have stand := hp.stand _ (List.mem_map_of_mem he)
    unfold MayStand Entry.place at stand
    rw [hr] at stand
    refine hp.store (fun x hx hxr hxt => ?_) stand fun q hq => Or.inr ⟨e, he, rfl, hr.trans hq⟩
    rw [hp.eq_of_key hx he (hxr.trans hr.symm) (hxt.trans ht.symm)]
    rfl
  · refine hp.store (fun x hx hxr hxt => absurd ⟨hxr, hxt⟩ (find_none.1 hf x hx)) hslot fun q hq' => Or.inl ?_
    cases hq'
    exact hq

theorem requestBody_tableKept (p : Port) (r : RequestFields) (s : State) : TableKept s (requestBody p r s).1 := by
  unfold requestBody
  split
  · exact .refl s
  split
  · exact .refl s
  split
  · exact .refl s
  split
  · exact .refl s
  split
  · rename_i e hf
    exact storeRequest_tableKept _ _ _ _ _ (Or.inl ⟨e, hf, rfl⟩)
  rename_i hf
  split
  · exact .refl s
  rename_i slot hslot
  split
  · exact .refl s
  · rename_i hq
    exact storeRequest_tableKept _ _ _ _ _ (Or.inr ⟨hf, freeSlot_lt hslot, Nat.lt_of_not_le hq⟩)

theorem withdrawBody_tableKept (p : Port) (tag : Nat) (s : State) : TableKept s (withdrawBody p tag s).1 := by
  unfold withdrawBody
  split
  · exact .refl s
  split
  · exact .refl s
  · exact changeTable_remove _ _

theorem withdrawAllBody_tableKept (p : Port) (s : State) : TableKept s (withdrawAllBody p s).1 := by
  unfold withdrawAllBody
  split
  · exact .refl s
  · exact changeTable_remove _ _

theorem releaseBody_tableKept (p : Port) (requester first last : Nat) (s : State) :
    TableKept s (releaseBody p requester first last s).1 := by
  unfold releaseBody
  dsimp only
  split
  · exact .refl s
  split
  · exact .refl s
  split
  · exact .refl s
  · unfold releaseEntries answer
    dsimp only
    split
    · exact changeTable_remove _ _
    · exact (changeTable_remove _ _).trans (setPort_tableKept _ _ _)

theorem inhibitBody_tableKept (k seconds : Nat) (s : State) : TableKept s (inhibitBody k seconds s).1 := by
  unfold inhibitBody
  split
  · exact .refl s
  split
  · exact .refl s
  split
  · exact .refl s
  · show TableKept s (s.setInhibit _ _)
    unfold State.setInhibit
    split
    · exact .refl s
    · exact (setStation_tableKept _ _).trans (handStation_tableKept _ _)

/-! ## Commands that change no entry -/

theorem drawCompletion_tableKept (s : State) : TableKept s s.drawCompletion := by
  unfold State.drawCompletion
  split
  · exact .of_same rfl rfl
  · exact .refl s

theorem readPlanBody_tableKept (first last : Nat) (s : State) : TableKept s (readPlanBody first last s).1 := by
  unfold readPlanBody
  dsimp only
  split
  · exact .refl s
  · split <;> exact .refl s

theorem readUnitsBody_tableKept (first last : Nat) (s : State) : TableKept s (readUnitsBody first last s).1 := by
  unfold readUnitsBody
  split <;> exact .refl s

theorem readStationsBody_tableKept (first last : Nat) (s : State) : TableKept s (readStationsBody first last s).1 := by
  unfold readStationsBody
  split <;> exact .refl s

theorem readDeliveryBody_tableKept (first last : Nat) (s : State) : TableKept s (readDeliveryBody first last s).1 := by
  unfold readDeliveryBody
  dsimp only
  split
  · exact drawCompletion_tableKept s
  · split
    · exact .refl s
    · exact drawCompletion_tableKept s

theorem countersBody_tableKept (p : Port) (request : Byte) (s : State) : TableKept s (countersBody p request s).1 := by
  unfold countersBody answer
  dsimp only
  split
  · refine .of_same rfl ?_
    show (s.stations.map _).map _ = _
    rw [List.map_map]
    rfl
  · exact .refl s

theorem geometryBody_tableKept {α : Type} (p : Port) (slots given : Nat) (records : List (Placed α))
    (place : Nat → List (Option α) → Store → Store) (s : State) :
    TableKept s (geometryBody p slots given records place s).1 := by
  unfold geometryBody
  dsimp only
  split
  · exact .refl s
  split
  · exact .refl s
  split
  · exact .refl s
  split
  · exact .refl s
  · exact .of_same rfl rfl

theorem boundaryBody_tableKept (payload : List Byte) (s : State) : TableKept s (boundaryBody payload s).1 := by
  unfold boundaryBody
  split
  · exact .refl s
  split
  · exact .refl s
  · exact .of_same rfl rfl

theorem commitBody_tableKept (s : State) : TableKept s (commitBody s).1 := by
  unfold commitBody
  split
  · exact .refl s
  · exact .of_same rfl rfl

theorem paramBody_tableKept (pairs : List (Nat × Nat)) (s : State) : TableKept s (paramBody pairs s).1 := by
  unfold paramBody
  split
  · exact .refl s
  split
  · exact .refl s
  dsimp only
  split
  · exact .refl s
  · exact .of_same rfl rfl

/-- R10: the stations begun on a committed section have the used station slots. -/
theorem begin_tableKept (s : State) : TableKept s s.begin := fun h => by
  obtain ⟨hp, hn, -⟩ := (tableInv_iff s).1 h
  exact (tableInv_iff _).2 ⟨hp, hn, fun k hk => ((begin_slots s k).1 hk).1⟩

theorem endValidation_tableKept (s : State) : TableKept s s.endValidation.1 := by
  unfold State.endValidation
  split
  · exact .of_same rfl rfl
  · exact begin_tableKept s

/-! ## Modes and RESTART -/

theorem goLive_tableKept (s : State) : TableKept s s.goLive :=
  (TableKept.of_same (t := (s.replacePlan s.adoptedPlan).changeMode .live) rfl rfl).trans (takeEpochZero_tableKept _ _)

theorem goDark_tableKept (s : State) : TableKept s s.goDark :=
  ((TableKept.of_same (t := s.changeMode .darkening) rfl rfl).trans (formDark_tableKept _)).trans
    (judgeCompletion_tableKept _)

theorem setMode_tableKept (s : State) (t : ModeTarget) : TableKept s (s.setMode t).1 := by
  rcases setMode_cases s t with h | ⟨-, h | h⟩ <;> rw [h]
  · exact .refl s
  · exact goLive_tableKept s
  · exact goDark_tableKept s

theorem setModeBody_tableKept (p : Port) (payload : List Byte) (s : State) :
    TableKept s (setModeBody p payload s).1 := by
  show TableKept s (s.judgeSetMode p payload).1
  unfold State.judgeSetMode
  split
  · exact .refl s
  split
  · exact .refl s
  split
  · exact .refl s
  · exact setMode_tableKept s _

theorem restartPlan_tableKept (s : State) : TableKept s s.restartPlan := by
  have replaced (plan : List PlanSite) : TableKept s (s.replacePlan plan) := .of_same rfl rfl
  unfold State.restartPlan
  split
  · exact .refl s
  · exact (replaced _).trans (takeEpochZero_tableKept _ _)
  · exact (replaced _).trans (takeEpochZero_tableKept _ _)
  · exact (replaced _).trans (formDark_tableKept _)

/-- R168: a RESTART empties the table and begins the stations anew in their slots. -/
theorem restarted_tableKept (s : State) : TableKept s s.restarted := by
  have table : TableKept s s.restartTable := changeTable_shrunk (List.nil_sublist _) rfl
  have ports (u : State) : TableKept u u.restartPorts := .of_same rfl rfl
  have units (u : State) : TableKept u u.restartUnits := .foldl _ _ (fun i t => by
    split
    · exact .refl t
    · exact storeUnit_tableKept _ _ _) _
  have stations (u : State) : TableKept u u.restartStations := .of_same rfl (by
    show (u.stations.map _).map _ = _
    rw [List.map_map]
    rfl)
  have others (u : State) : TableKept u u.restartLines.restartDelivery := .of_same rfl rfl
  have flags (u : State) : TableKept u { u with cause := .restart }.restartFlags := .of_same rfl rfl
  exact (((((table.trans (ports _)).trans (units _)).trans (stations _)).trans (others _)).trans
    (restartPlan_tableKept _)).trans (flags _)

theorem restartBody_tableKept (s : State) : TableKept s (restartBody s).1 := by
  unfold restartBody
  split
  · exact .refl s
  · exact restarted_tableKept s

/-! ## Transactions that carry no command, timers and passes -/

theorem onPort_tableKept (s : State) (p : Port) (f : PortRec → PortRec) : TableKept s (s.onPort p f) :=
  .ite (setPort_tableKept _ _ _)

/-- R46: a port falling silent drops and freezes entries where they stand. -/
theorem fallSilent_tableKept (s : State) (p : Port) : TableKept s (s.fallSilent p) := by
  have others (u : State) : TableKept u (u.notifyOthers p .port) := .of_same rfl rfl
  refine TableKept.trans ?_ (others _)
  generalize hu : s.setPort p { s.port p with
    liveness := .silent, deadline := none, silences := countUp (s.port p).silences } = u
  have silent : TableKept s u := hu ▸ setPort_tableKept _ _ _
  refine silent.trans ?_
  split
  · have changed : TableKept u (u.changeTable (u.table.silence p)) := changeTable_shrunk (silence_places _ _) rfl
    dsimp only
    split
    · exact changed.trans (setPort_tableKept _ _ _)
    · exact changed
  · exact .refl u

theorem notifyOwner_tableKept (s : State) (r : Requester) (n : Notice) : TableKept s (s.notifyOwner r n) := by
  cases r with
  | port p => exact setPort_tableKept _ _ _
  | qp => exact .refl s

theorem endFaultHold_tableKept (s : State) (x : Station) : TableKept s (s.endFaultHold x) := by
  have first := setStation_tableKept s { x with faultOver := true }
  unfold State.endFaultHold
  dsimp only
  split
  · exact (first.trans (handStation_tableKept _ _)).trans (notifyAll_tableKept _ _)
  · exact first

theorem endPass_tableKept (s : State) (p : Pass) : TableKept s (s.endPass p) := by
  have shown (plan : List PlanSite) (epoch : Nat) (u : State) : TableKept u
      ({ u with evaluator := { u.evaluator with plan := plan, epoch := epoch } }.notifyAll .plan) := .of_same rfl rfl
  have idle : TableKept s { s with evaluator := { s.evaluator with running := none } } := .of_same rfl rfl
  unfold State.endPass
  dsimp only
  split
  · exact idle
  split
  · exact (idle.trans (shown _ _ _)).trans (takeEpoch_tableKept _)
  · exact .of_same rfl rfl

/-! ## Every command and event -/

/-- Every command and event keeps the invariant of the request table. -/
theorem exec_tableKept (c : Instr) (s : State) : ∃ t, exec c s = .next t ∧ TableKept s t := by
  cases c with
  | powerOnReset straps => exact ⟨_, rfl, fun _ => afterReset_tableInv _ _ _ _ _ _⟩
  | pinReset straps n =>
    refine ⟨_, rfl, ?_⟩
    split
    · exact .refl s
    · exact fun _ => afterReset_tableInv _ _ _ _ _ _
  | resetRelease =>
    have released : TableKept s s.release := fun _ =>
      (tableInv_iff _).2 ((tableInv_iff _).1 (afterReset_tableInv s.now .held .power usualStraps s.drawn s.pending))
    exact ⟨_, rfl, .ite released⟩
  | portsReady => exact ⟨_, rfl, .ite (.of_same rfl rfl)⟩
  | voidTransaction p sdi => exact ⟨_, rfl, onPort_tableKept _ _ _⟩
  | readTransaction p n => exact ⟨_, rfl, onPort_tableKept _ _ _⟩
  | badFrame p frame => exact ⟨_, rfl, onPort_tableKept _ _ _⟩
  | overrun p => exact ⟨_, rfl, .ite ((goodFrameTaken_tableKept _ _).trans (setPort_tableKept _ _ _))⟩
  | unknownCommand p code seq payload =>
    refine ⟨_, rfl, ?_⟩
    split
    · exact .refl s
    · exact takeFrame_tableKept _ _ _ _ _ fun u => .refl u
  | status p seq payload => exact ⟨_, rfl, command_tableKept _ _ _ _ _ _ _ fun u => setPort_tableKept _ _ _⟩
  | keepalive p seq payload => exact ⟨_, rfl, command_tableKept _ _ _ _ _ _ _ fun u => .refl u⟩
  | readPlan p seq payload => exact ⟨_, rfl, command_tableKept _ _ _ _ _ _ _ (readPlanBody_tableKept _ _)⟩
  | readEntries p seq payload => exact ⟨_, rfl, command_tableKept _ _ _ _ _ _ _ fun u => .refl u⟩
  | readUnits p seq payload => exact ⟨_, rfl, command_tableKept _ _ _ _ _ _ _ (readUnitsBody_tableKept _ _)⟩
  | readStations p seq payload => exact ⟨_, rfl, command_tableKept _ _ _ _ _ _ _ (readStationsBody_tableKept _ _)⟩
  | readDelivery p seq payload => exact ⟨_, rfl, command_tableKept _ _ _ _ _ _ _ (readDeliveryBody_tableKept _ _)⟩
  | notices p seq payload =>
    exact ⟨_, rfl, command_tableKept _ _ _ _ _ _ _ fun u =>
      (setPort_tableKept _ _ _).trans (drawCompletion_tableKept _)⟩
  | setNoticeMask p seq payload => exact ⟨_, rfl, command_tableKept _ _ _ _ _ _ _ fun u => setPort_tableKept _ _ _⟩
  | counters p seq payload => exact ⟨_, rfl, command_tableKept _ _ _ _ _ _ _ (countersBody_tableKept _ _)⟩
  | request p seq payload => exact ⟨_, rfl, command_tableKept _ _ _ _ _ _ _ (requestBody_tableKept _ _)⟩
  | withdraw p seq payload => exact ⟨_, rfl, command_tableKept _ _ _ _ _ _ _ (withdrawBody_tableKept _ _)⟩
  | withdrawAll p seq => exact ⟨_, rfl, command_tableKept _ _ _ _ _ _ _ (withdrawAllBody_tableKept _)⟩
  | release p seq payload => exact ⟨_, rfl, command_tableKept _ _ _ _ _ _ _ (releaseBody_tableKept _ _ _ _)⟩
  | inhibitQp p seq payload => exact ⟨_, rfl, command_tableKept _ _ _ _ _ _ _ (inhibitBody_tableKept _ _)⟩
  | geometryWrite p seq payload => exact ⟨_, rfl, command_tableKept _ _ _ _ _ _ _ (geometryBody_tableKept _ _ _ _ _)⟩
  | stationWrite p seq payload => exact ⟨_, rfl, command_tableKept _ _ _ _ _ _ _ (geometryBody_tableKept _ _ _ _ _)⟩
  | boundaryWrite p seq payload => exact ⟨_, rfl, command_tableKept _ _ _ _ _ _ _ (boundaryBody_tableKept _)⟩
  | commit p seq payload => exact ⟨_, rfl, command_tableKept _ _ _ _ _ _ _ commitBody_tableKept⟩
  | commitValidationEnd =>
    refine ⟨_, rfl, .ite ?_⟩
    split
    · exact endValidation_tableKept s
    · exact (endValidation_tableKept s).trans (placeReply_onlyPort _ _ _).tableKept
  | paramSet p seq payload => exact ⟨_, rfl, command_tableKept _ _ _ _ _ _ _ (paramBody_tableKept _)⟩
  | setModeLive p seq payload => exact ⟨_, rfl, takeFrame_tableKept _ _ _ _ _ (setModeBody_tableKept _ _)⟩
  | setModeShadow p seq payload => exact ⟨_, rfl, takeFrame_tableKept _ _ _ _ _ (setModeBody_tableKept _ _)⟩
  | restart p seq payload => exact ⟨_, rfl, command_tableKept _ _ _ _ _ _ _ restartBody_tableKept⟩
  | portSilent p => exact ⟨_, rfl, .ite (fallSilent_tableKept _ _)⟩
  | entryExpiry slot =>
    refine ⟨_, rfl, ?_⟩
    split
    · exact .refl s
    · exact .ite ((changeTable_remove _ _).trans (notifyOwner_tableKept _ _ _))
  | holdDeadlineExpiry => exact ⟨_, rfl, .ite (.of_same rfl rfl)⟩
  | passStart => exact ⟨_, rfl, .ite (.of_same rfl rfl)⟩
  | passEnd =>
    refine ⟨_, rfl, ?_⟩
    split
    · exact .refl s
    · exact endPass_tableKept _ _
  | faultHoldExpiry k =>
    refine ⟨_, rfl, ?_⟩
    split
    · exact .refl s
    · exact .ite (endFaultHold_tableKept _ _)
  | inhibitExpiry k =>
    refine ⟨_, rfl, ?_⟩
    split
    · exact .refl s
    · exact .ite ((setStation_tableKept _ _).trans (handStation_tableKept _ _))
  | lineQuiet l cut => exact ⟨_, rfl, .ite (setLine_tableKept _ _ _)⟩
  | frameStart l =>
    refine ⟨_, rfl, ?_⟩
    split
    · exact .refl s
    · exact startWork_tableKept _ _ _
  | frameSent l => exact ⟨_, rfl, onLine_tableKept _ _ _⟩
  | validReply l frame =>
    refine ⟨_, rfl, ?_⟩
    split
    · exact takeValidReply_tableKept _ _ _ _
    · exact .refl s
  | replyFrameError l frame =>
    refine ⟨_, rfl, ?_⟩
    split
    · exact setLine_tableKept _ _ _
    · exact setLine_tableKept _ _ _
    · exact .refl s
  | invertedReply l => exact ⟨_, rfl, .ite (setLine_tableKept _ _ _)⟩
  | falseActivity l frame =>
    refine ⟨_, rfl, ?_⟩
    split
    · exact onLine_tableKept _ _ _
    · split
      · exact setLine_tableKept _ _ _
      · exact .refl s
  | replyWindowEnd l =>
    refine ⟨_, rfl, ?_⟩
    split
    · exact .refl s
    · exact .ite (failAttempt_tableKept _ _ _)
  | lineJam l => exact ⟨_, rfl, .ite ((setLine_tableKept _ _ _).trans (reportLine_tableKept _ _ _))⟩
  | jamContinues l => exact ⟨_, rfl, .ite ((setLine_tableKept _ _ _).trans (reportLine_tableKept _ _ _))⟩
  | lineUnjam l => exact ⟨_, rfl, .ite (setLine_tableKept _ _ _)⟩
  | pollCycleStart l =>
    refine ⟨_, rfl, ?_⟩
    split
    · exact .refl s
    · exact setLine_tableKept _ _ _
  | lineActivity l => exact ⟨_, rfl, onLine_tableKept _ _ _⟩

/-- The idle part changes no entry (log entry 8). -/
theorem idle_tableKept (s : State) : TableKept s s.idle := by
  unfold State.idle
  split <;> exact .of_same rfl rfl

end Sys2Proof.Machine

open Sys2Proof Sys2Proof.Machine

/-- Settles O58: the idle part leaves the table, and every command and event keeps what R17 and R18 say of it. -/
theorem tableInvKeptByEveryStep : Obligations.TableInvKeptByEveryStep := by
  intro s t hs h
  unfold step at h
  split at h
  · cases h
    exact idle_tableKept s hs
  · rename_i c rest _
    obtain ⟨u, hu, hk⟩ := exec_tableKept c { s with pending := rest }
    cases hu.symm.trans h
    exact hk hs
end

section
/-! SUPPORT. A command that changes the request table, on a port that serves it: the table changed, the demand derived once
(R35), and the reply in the sender's record. -/

namespace Sys2Proof.Machine

/-! ## A permitted command on a serving port -/

/-- A permitted command of a form it has is answered by its own rule (R43, R45, R173). -/
theorem permitted_answered {s t : State} {p : Port} {code seq : Byte} {needed : Authority} {body : CommandBody}
    {a : Answer} (h : s.serving p = true) (ha : needed.rank ≤ (s.port p).authority.rank)
    (hb : body (s.setPort p (s.dispatched p code seq)) = (t, some a)) (ht : t.port p = s.dispatched p code seq) :
    s.takeFrame p code seq (judged p needed true body) = t.setPort p (s.answered p code seq a) := by
  obtain ⟨-, -, hc⟩ := (serving_iff s p).1 h
  have passes := judged_passes p needed body (s.setPort p (s.dispatched p code seq)) (by
    rw [State.setPort_port, if_pos rfl]
    exact Nat.not_lt.2 ha)
  rw [takeFrame_serving s p code seq _ h, carryOut_answer _ t p _ a ⟨code, seq⟩ (passes.trans hb) (by rw [ht]; rfl), ht,
    dispatched_reply s p code seq a hc]

/-- A permitted command that changes nothing but is answered. -/
theorem permitted_refused {s : State} {p : Port} {code seq : Byte} {needed : Authority} {body : CommandBody}
    {a : Answer} (h : s.serving p = true) (ha : needed.rank ≤ (s.port p).authority.rank)
    (hb : body (s.setPort p (s.dispatched p code seq)) = (s.setPort p (s.dispatched p code seq), some a)) :
    s.takeFrame p code seq (judged p needed true body) = s.setPort p (s.answered p code seq a) := by
  rw [permitted_answered h ha hb (by rw [State.setPort_port, if_pos rfl]), State.setPort_setPort]

/-! ## The table changed and one port's record replaced -/

/-- The demand does not depend on what else a port's record holds (R39). -/
theorem demandAt_set (s : State) (p : Port) (r : PortRec) (hr : r.authority = (s.port p).authority)
    (entries : List Entry) : demandAt (s.ports.set p r) entries = demandAt s.ports entries :=
  funext fun spot => demandAt_authority (fun q => by
    rw [PerPort.get_set]
    split
    · subst_vars; exact hr
    · rfl) entries spot

/-- A table changed beside a port's record of the same authority. -/
theorem setPort_changeTable (s : State) (p : Port) (r : PortRec) (t : Table)
    (hr : r.authority = (s.port p).authority) : (s.setPort p r).changeTable t = (s.changeTable t).setPort p r := by
  rw [changeTable_eq, changeTable_eq]
  unfold State.setPort
  dsimp only
  rw [demandAt_set s p r hr]

/-- What such a change leaves, and the demand that follows it (R35). -/
theorem changeTable_setPort_spec (s : State) (p : Port) (r : PortRec) (t : Table)
    (hr : r.authority = (s.port p).authority) (ht : t.demand = s.table.demand) :
    OnlyTable s ((s.changeTable t).setPort p r) ∧ ((s.changeTable t).setPort p r).table.entries = t.entries ∧
    ((s.changeTable t).setPort p r).table.nextArrival = t.nextArrival ∧
    DemandFollows s ((s.changeTable t).setPort p r) ∧ ((s.changeTable t).setPort p r).port p = r ∧
    ∀ q, q ≠ p → ((s.changeTable t).setPort p r).port q = s.port q := by
  refine ⟨(changeTable_onlyTable s t).trans (setPort_onlyTable _ _ _), changeTable_entries s t,
    changeTable_nextArrival s t, ?_, by rw [State.setPort_port, if_pos rfl],
    fun q hq => by rw [State.setPort_port, if_neg hq, changeTable_port]⟩
  obtain ⟨hd, hp⟩ := changeTable_demandFollows s t ht
  refine ⟨?_, hp⟩
  rw [State.setPort_table, hd]
  exact congrArg (fun f => (s.changeTable t).store.spots.map f)
    (demandAt_set (s.changeTable t) p r (by rw [changeTable_port, hr]) _).symm

/-- A permitted command that changes the table and is answered. -/
theorem permitted_changes {s : State} {p : Port} {code seq : Byte} {needed : Authority} {body : CommandBody}
    {a : Answer} {t : Table} (h : s.serving p = true) (ha : needed.rank ≤ (s.port p).authority.rank)
    (hb : body (s.setPort p (s.dispatched p code seq)) =
      ((s.setPort p (s.dispatched p code seq)).changeTable t, some a)) :
    s.takeFrame p code seq (judged p needed true body) = (s.changeTable t).setPort p (s.answered p code seq a) := by
  rw [setPort_changeTable s p (s.dispatched p code seq) t rfl] at hb
  rw [permitted_answered h ha hb (by rw [State.setPort_port, if_pos rfl]), State.setPort_setPort]

end Sys2Proof.Machine
end

section
/-! SUPPORT. The commands and timers of the request table: WITHDRAW (R29, R30), the expiry of an entry (R31), REQUEST
(R20 to R25) and READ_ENTRIES (R40). -/

namespace Sys2Proof.Machine

/-! ## WITHDRAW (R29, R30) -/

theorem exec_withdraw (p : Port) (seq tag : Byte) (s : State) : exec (.withdraw p seq [tag]) s =
    .next (s.takeFrame p 0x11 seq (judged p .field true (withdrawBody p tag.toNat))) := rfl

theorem exec_withdrawAll (p : Port) (seq : Byte) (s : State) : exec (.withdrawAll p seq) s =
    .next (s.takeFrame p 0x11 seq (judged p .field true (withdrawAllBody p))) := rfl

theorem withdrawBody_wrongMode (p : Port) (tag : Nat) (s : State) (h : s.mode = .unconfigured) :
    withdrawBody p tag s = (s, some (.wrongMode, [])) := if_pos h

theorem withdrawAllBody_wrongMode (p : Port) (s : State) (h : s.mode = .unconfigured) :
    withdrawAllBody p s = (s, some (.wrongMode, [])) := if_pos h

/-- R29: the sender's entry with the tag goes. -/
theorem withdrawBody_found (p : Port) (tag : Nat) (s : State) (h : s.mode ≠ .unconfigured)
    (he : ∃ e ∈ s.table.entries, e.requester = .port p ∧ e.tag = tag) : withdrawBody p tag s =
      (s.changeTable (s.table.remove fun e => decide (e.requester = .port p ∧ e.tag = tag)), some (.ok, [1])) := by
  obtain ⟨e, hm, hk⟩ := he
  cases hf : s.table.find (.port p) tag with
  | none => exact absurd hk (find_none.1 hf e hm)
  | some x => simp only [withdrawBody, if_neg h, hf, answer]

/-- R29: no entry of the sender has the tag. -/
theorem withdrawBody_notFound (p : Port) (tag : Nat) (s : State) (h : s.mode ≠ .unconfigured)
    (he : ∀ e ∈ s.table.entries, ¬ (e.requester = .port p ∧ e.tag = tag)) :
    withdrawBody p tag s = (s, some (.notFound, [])) := by
  simp only [withdrawBody, if_neg h, find_none.2 he, refuse]

/-- R30: every entry of the sender goes, and the answer tells how many. -/
theorem withdrawAllBody_removes (p : Port) (s : State) (h : s.mode ≠ .unconfigured) : withdrawAllBody p s =
    (s.changeTable (s.table.remove fun e => e.ownedBy p), some (.ok, [byte (s.table.count p)])) := if_neg h

/-! ## The expiry of an entry (R31) -/

theorem exec_entryExpiry (slot : Nat) (s : State) (e : Entry) (h : s.table.inSlot slot = some e) :
    exec (.entryExpiry slot) s = .next (if ranOut s.now e.expiry then
      (s.changeTable (s.table.remove fun x => decide (x.slot = slot))).notifyOwner e.requester .entry else s) := by
  show Host.Outcome.next _ = _
  rw [h]

theorem notifyOwner_port (s : State) (p : Port) (n : Notice) :
    s.notifyOwner (.port p) n = s.setPort p ((s.port p).raise n) := rfl

/-! ## REQUEST (R20 to R25) -/

theorem exec_request (p : Port) (seq : Byte) (payload : List Byte) (s : State) (h : payload.length = 10) :
    exec (.request p seq payload) s =
      .next (s.takeFrame p 0x10 seq (judged p .field true (requestBody p (requestFields payload)))) := by
  show Host.Outcome.next _ = _
  rw [decide_eq_true h]

/-- The checks of R20 in the rules' own words, on the state in which a REQUEST is dispatched. -/
theorem requestBody_eq (s : State) (p : Port) (seq : Byte) (payload : List Byte) :
    requestBody p (requestFields payload) (s.setPort p (s.dispatched p 0x10 seq)) =
    let u := s.setPort p (s.dispatched p 0x10 seq)
    if s.mode = .unconfigured then (u, some (.wrongMode, []))
    else if carries payload 3 = true ∧ (s.port p).authority ≠ .supervisory then (u, some (.notPermitted, []))
    else if ¬ RangePasses s.store.siteCount (num payload 1) (num payload 2) then (u, some (.badRange, []))
    else if ¬ PartsPass payload then (u, some (.invalid, []))
    else match s.table.find (.port p) (num payload 0) with
      | some e => storeRequest (requestFields payload) p e.slot true u
      | none => match s.table.freeSlot with
        | none => (u, some (.tableFull, []))
        | some slot =>
          if 32 ≤ s.table.count p then (u, some (.quota, []))
          else storeRequest (requestFields payload) p slot false u := by
  have sender : ((s.setPort p (s.dispatched p 0x10 seq)).port p).authority = (s.port p).authority := by
    rw [State.setPort_port, if_pos rfl]
    rfl
  unfold requestBody refuse
  rw [sender]
  simp only [has_eq, ← rangeGood_iff, ← partsGood_iff, Bool.not_eq_true', Bool.and_eq_true, decide_eq_true_eq,
    Bool.not_eq_true] <;>
    rfl

/-- R24: the lowest-numbered free slot of the pool. -/
theorem freeSlot_some {t : Table} {k : Nat} :
    t.freeSlot = some k ↔ k < 48 ∧ t.inSlot k = none ∧ ∀ j < k, t.inSlot j ≠ none := by
  unfold Table.freeSlot
  rw [List.find?_range_eq_some, List.mem_range]
  simp only [Option.isNone_iff_eq_none, Bool.not_eq_true', Option.isNone_eq_false_iff, Option.isSome_iff_ne_none]
  exact and_left_comm

theorem freeSlot_none {t : Table} : t.freeSlot = none ↔ ∀ j < 48, t.inSlot j ≠ none := by
  unfold Table.freeSlot
  rw [List.find?_eq_none]
  simp only [List.mem_range, Option.isNone_iff_eq_none]
  rfl

/-- A slot that holds no entry. -/
theorem inSlot_none {t : Table} {k : Nat} : t.inSlot k = none ↔ ∀ e ∈ t.entries, e.slot ≠ k := by
  unfold Table.inSlot
  rw [List.find?_eq_none]
  simp only [decide_eq_true_eq, ne_eq]

/-- The entry a REQUEST stores in a slot, as R18, R23 and R24 word it. -/
def requestEntry (s : State) (p : Port) (payload : List Byte) (slot : Nat) : Entry :=
  ⟨slot, .port p, num payload 0, storedAsk s.store.siteCount payload,
    if num2 payload 8 = 0 then none else some (s.now + num2 payload 8 * 1000), s.table.nextArrival, .active⟩

/-- A REQUEST stored and answered, as R18, R23 and R176 word it. -/
theorem storeRequest_eq (p : Port) (payload : List Byte) (slot : Nat) (b : Bool) (s : State) (h : PartsPass payload) :
    storeRequest (requestFields payload) p slot b s =
      (s.changeTable (s.table.store (requestEntry s p payload slot)),
        some (if clampMarks s.store.siteCount payload = 0 then .ok else .clamped,
          byte slot :: (be32 s.table.nextArrival ++ [yes b, byte (clampMarks s.store.siteCount payload)]))) := by
  unfold storeRequest answer
  dsimp only
  rw [marks_eq _ _ h]
  have stored : s.table.store ((requestFields payload).entry s.store.siteCount s.now p slot) =
      s.table.store (requestEntry s p payload slot) := by
    unfold RequestFields.entry
    rw [ask_eq]
    rfl
  rw [stored]
  by_cases hm : clampMarks s.store.siteCount payload = 0 <;> simp [clampReason, hm, flagByte_eq]

/-! ## READ_ENTRIES (R40, R176) -/

/-- Every port that serves may send what a MONITOR may (R42, R43). -/
theorem monitor_le {s : State} {p : Port} (h : s.serving p = true) :
    Authority.monitor.rank ≤ (s.port p).authority.rank := by
  have enabled := enabled_of_hears s p ((serving_iff s p).1 h).1
  unfold PortRec.enabled at enabled
  cases ha : (s.port p).authority with
  | disabled => simp [ha] at enabled
  | monitor => decide
  | field => decide
  | supervisory => decide

theorem entryRecordBytes_length (s : State) (e : Entry) : (entryRecordBytes s e).length = 18 := rfl

/-- The payload of a READ_ENTRIES as R176 lays it out. -/
theorem entryBytes_eq (s : State) (start : Byte) : s.entryBytes start.toNat =
    [byte s.table.entries.length, if start.toNat < s.table.entries.length then start else 0xFF] ++
      ((s.table.entries.drop start.toNat).take 13).flatMap (entryRecordBytes s) := by
  have head : (if ((s.table.entries.drop start.toNat).take 13).isEmpty then 0xFF else byte start.toNat) =
      if start.toNat < s.table.entries.length then start else 0xFF := by
    have same : byte start.toNat = start := BitVec.ofNat_toNat ..
    rw [same]
    by_cases hlt : start.toNat < s.table.entries.length
    · rw [List.drop_eq_getElem_cons hlt, if_pos hlt]
      rfl
    · rw [List.drop_eq_nil_of_le (Nat.not_lt.1 hlt), if_neg hlt]
      rfl
  unfold State.entryBytes
  dsimp only
  rw [head, funext (entryRecord_eq s)]

end Sys2Proof.Machine

open Sys2Proof Sys2Proof.Machine

/-- Settles O29: both forms go through the mode check, and what passes it removes by the sender's key or name. -/
theorem withdrawRemovesOwnEntries : Obligations.WithdrawRemovesOwnEntries := by
  intro p seq tag s h ha
  rw [exec_withdraw, exec_withdrawAll]
  refine ⟨fun hm => ⟨congrArg _ (permitted_refused h ha (withdrawBody_wrongMode _ _ _ hm)),
    congrArg _ (permitted_refused h ha (withdrawAllBody_wrongMode _ _ hm))⟩, fun hm => ⟨fun he => ?_, fun he => ?_, ?_⟩⟩
  · exact ⟨_, congrArg _ (permitted_changes h ha (withdrawBody_found p tag.toNat _ hm he)),
      changeTable_setPort_spec _ _ _ _ rfl rfl⟩
  · exact congrArg _ (permitted_refused h ha (withdrawBody_notFound p tag.toNat _ hm he))
  · have others : (s.table.remove fun e => e.ownedBy p).entries =
        s.table.entries.filter fun e => decide (e.requester ≠ .port p) :=
      List.filter_congr fun e _ => (decide_not).symm
    rw [← others]
    exact ⟨_, congrArg _ (permitted_changes h ha (withdrawAllBody_removes p _ hm)),
      changeTable_setPort_spec _ _ _ _ rfl rfl⟩

/-- Settles O31: a deadline that has run out removes the entry in the slot and tells its owner. -/
theorem entryExpiryRemovesEntry : Obligations.EntryExpiryRemovesEntry := by
  intro slot p e d s hslot hp hd
  rw [exec_entryExpiry slot s e hslot, hp, hd]
  refine ⟨fun hle => ?_, fun hlt => ?_⟩
  · rw [if_pos (show ranOut s.now (some d) = true from decide_eq_true hle)]
    have others : (s.table.remove fun x => decide (x.slot = slot)).entries =
        s.table.entries.filter fun x => decide (x.slot ≠ slot) := List.filter_congr fun x _ => (decide_not).symm
    rw [← others]
    rw [notifyOwner_port, changeTable_port]
    exact ⟨_, rfl, changeTable_setPort_spec _ _ _ _ (PortRec.raise_authority _ _) rfl⟩
  · rw [if_neg (show ¬ ranOut s.now (some d) = true from fun hr => absurd (of_decide_eq_true hr) (Nat.not_le.2 hlt))]

/-- Settles O28: the checks of R20 in their order, and the refusals of a new key. -/
theorem requestRefusedInOrder : Obligations.RequestRefusedInOrder := by
  intro p seq payload s h hlen ha refused
  have checks := requestBody_eq s p seq payload
  have refuses {why : Reason} (hb : requestBody p (requestFields payload) (s.setPort p (s.dispatched p 0x10 seq)) =
      (s.setPort p (s.dispatched p 0x10 seq), some (why, []))) : refused why :=
    (exec_request p seq payload s hlen).trans (congrArg _ (permitted_refused h ha hb))
  dsimp only at checks
  split
  case isTrue hm => exact refuses (checks.trans (if_pos hm))
  case isFalse hm =>
  rw [if_neg hm] at checks
  split
  case isTrue ho => exact refuses (checks.trans (if_pos ho))
  case isFalse ho =>
  rw [if_neg ho] at checks
  split
  case isTrue hr => exact refuses (checks.trans (if_pos hr))
  case isFalse hr =>
  rw [if_neg hr] at checks
  split
  case isTrue hp => exact refuses (checks.trans (if_pos hp))
  case isFalse hp =>
  rw [if_neg hp] at checks
  intro hkey
  rw [find_none.2 hkey] at checks
  refine ⟨fun hfull => refuses ?_, fun j hj hfree hq => refuses ?_⟩
  · rw [freeSlot_none.2 hfull] at checks
    exact checks
  · cases hs : s.table.freeSlot with
    | none => exact absurd hfree (freeSlot_none.1 hs j hj)
    | some k =>
      rw [hs] at checks
      exact checks.trans (if_pos hq)

/-- Settles O27: what passes the checks is stored in the slot of its key, or with a new key in the lowest free slot. -/
theorem requestStoresEntry : Obligations.RequestStoresEntry := by
  intro p seq payload s h hlen ha hm n tag ho hr hp stored reply
  have checks := requestBody_eq s p seq payload
  dsimp only at checks
  rw [if_neg hm, if_neg (fun hx => hx.2 (ho hx.1)), if_neg (not_not.2 hr), if_neg (not_not.2 hp)] at checks
  rw [exec_request p seq payload s hlen]
  constructor
  · intro slot hkey hslot hfree hlowest hq
    rw [find_none.2 hkey, freeSlot_some.2 ⟨hslot, hfree, hlowest⟩] at checks
    have kept : (s.table.entries.filter fun x => decide (x.slot ≠ slot)) = s.table.entries :=
      List.filter_eq_self.2 fun x hx => decide_eq_true (inSlot_none.1 hfree x hx)
    rw [← kept]
    exact ⟨_, congrArg _ (permitted_changes h ha ((checks.trans (if_neg (Nat.not_le.2 hq))).trans
      (storeRequest_eq p payload slot false _ hp))), changeTable_setPort_spec _ _ _ _ rfl rfl⟩
  · intro e he
    rw [he] at checks
    exact ⟨_, congrArg _ (permitted_changes h ha (checks.trans (storeRequest_eq p payload e.slot true _ hp))),
      changeTable_setPort_spec _ _ _ _ rfl rfl⟩

/-- Settles O22: a READ_ENTRIES is answered with the entries from its start index on, and changes nothing. -/
theorem readEntriesListsArrivalOrder : Obligations.ReadEntriesListsArrivalOrder := by
  intro p seq start s h
  refine ⟨if start.toNat < s.table.entries.length then start else 0xFF, ?_, rfl, ?_⟩
  · exact congrArg Host.Outcome.next ((permitted_refused h (monitor_le h) rfl).trans
      (congrArg (fun bytes => s.setPort p (s.answered p 0x04 seq (.ok, bytes))) (entryBytes_eq s start)))
  · rw [List.length_append, List.length_flatMap, List.map_congr_left fun e _ => entryRecordBytes_length s e,
      List.map_const', List.sum_replicate, smul_eq_mul, Nat.mul_comm]
    rfl
end

section
/-! SUPPORT. The demand at a site as R36 to R39 word it: the lowest limit part, the union of the closure parts, and the
legend of highest rank with its supplier. -/

namespace Sys2Proof.Machine

/-! ## Limit demand (R36) -/

/-- Limit parts that tighten a limit bring it to the lowest of them. -/
theorem foldl_tighten_some (es : List Entry) (v : Nat) :
    es.foldl (fun l e => tighten l e.ask.limit) (some v) = some ((es.filterMap fun e => e.ask.limit).foldl min v) := by
  induction es generalizing v with
  | nil => rfl
  | cons e es ih =>
    rw [List.foldl_cons, List.filterMap_cons]
    cases e.ask.limit with
    | none => exact ih v
    | some w => exact ih (min v w)

/-- R36: the lowest limit part, none without one. -/
theorem foldl_tighten (es : List Entry) :
    es.foldl (fun l e => tighten l e.ask.limit) none = (es.filterMap fun e => e.ask.limit).min? := by
  induction es with
  | nil => rfl
  | cons e es ih =>
    rw [List.foldl_cons, List.filterMap_cons]
    cases e.ask.limit with
    | none => exact ih
    | some w => exact (foldl_tighten_some es w).trans List.min?_cons'.symm

/-- R36 at a spot where a limit part has meaning. -/
theorem demandAt_limit (ports : PerPort PortRec) (entries : List Entry) (spot : Spot) (h : spot.takesLimit = true) :
    (demandAt ports entries spot).limit =
      ((entries.filter fun e => decide (e.ask.first ≤ spot.index ∧ spot.index ≤ e.ask.last)).filterMap
        fun e => e.ask.limit).min? := by
  unfold demandAt
  dsimp only
  rw [if_pos h]
  exact foldl_tighten _

/-! ## Closure and shoulder-open demand (R37, R38) -/

/-- R37: the lanes present that some covering entry closes. -/
theorem mem_demandAt_closed (ports : PerPort PortRec) (entries : List Entry) (spot : Spot) (l : Nat) :
    l ∈ (demandAt ports entries spot).closed ↔ l ∈ spot.present ∧
      ∃ e, (e ∈ entries ∧ e.ask.first ≤ spot.index ∧ spot.index ≤ e.ask.last) ∧
        ∃ lanes, e.ask.closure = some lanes ∧ l ∈ lanes := by
  have part (c : Option (List Nat)) : (c.getD []).contains l = true ↔ ∃ lanes, c = some lanes ∧ l ∈ lanes := by
    cases c <;> simp
  unfold demandAt Ask.covers
  simp only [List.mem_filter, List.any_eq_true, decide_eq_true_eq, part]

/-- R38: whether a covering entry opens the shoulder where a spot has one. -/
theorem demandAt_opening (ports : PerPort PortRec) (entries : List Entry) (spot : Spot) :
    (demandAt ports entries spot).opening = true ↔ spot.takesOpening = true ∧
      ∃ e, (e ∈ entries ∧ e.ask.first ≤ spot.index ∧ spot.index ≤ e.ask.last) ∧ e.ask.shoulderOpen = true := by
  unfold demandAt Ask.covers
  simp only [Bool.and_eq_true, List.any_eq_true, List.mem_filter, decide_eq_true_eq]

theorem hasShoulder_iff (k : SiteKind) : k.hasShoulder = true ↔ ∃ n, k = .gantry n true := by
  cases k <;> simp [SiteKind.hasShoulder]

/-! ## Legend demand (R39) -/

/-- R39: whether an entry with this legend takes the place of a supplier so far, which is older. -/
def Outranks (ports : PerPort PortRec) (b : Legend) (r : Requester) (g : Legend) (q : Requester) : Prop :=
  b.rank < g.rank ∨ b.rank = g.rank ∧ tieRank ports r < tieRank ports q

/-- An entry with no legend part leaves the supplier. -/
theorem betterSupplier_none (ports : PerPort PortRec) (best : Option (Legend × Requester × Nat)) (e : Entry)
    (h : e.ask.legend = none) : betterSupplier ports best e = best := by
  simp only [betterSupplier, h]

/-- The first entry with a legend part supplies it, and a later one that outranks the supplier so far. -/
theorem betterSupplier_takes (ports : PerPort PortRec) (best : Option (Legend × Requester × Nat)) (e : Entry)
    (g : Legend) (h : e.ask.legend = some g)
    (hb : ∀ b r tag, best = some (b, r, tag) → Outranks ports b r g e.requester) :
    betterSupplier ports best e = some (g, e.requester, e.tag) := by
  cases best with
  | none => simp only [betterSupplier, h]
  | some x =>
    obtain ⟨b, r, tag⟩ := x
    simp only [betterSupplier, h]
    exact if_pos (hb b r tag rfl)

/-- An entry that does not outrank the supplier leaves it. -/
theorem betterSupplier_stays (ports : PerPort PortRec) (b : Legend) (r : Requester) (tag : Nat) (e : Entry) (g : Legend)
    (h : e.ask.legend = some g) (hb : ¬ Outranks ports b r g e.requester) :
    betterSupplier ports (some (b, r, tag)) e = some (b, r, tag) := by
  simp only [betterSupplier, h]
  exact if_neg hb

/-- The supplier among some entries is one of them. -/
theorem supplier_mem (ports : PerPort PortRec) (es : List Entry) (best : Option (Legend × Requester × Nat))
    (x : Legend × Requester × Nat) (h : es.foldl (betterSupplier ports) best = some x) :
    best = some x ∨ ∃ e ∈ es, e.ask.legend = some x.1 ∧ e.requester = x.2.1 := by
  induction es generalizing best with
  | nil => exact Or.inl h
  | cons e es ih =>
    rcases ih _ h with hs | ⟨f, hf, hx⟩
    · cases hl : e.ask.legend with
      | none =>
        rw [betterSupplier_none ports best e hl] at hs
        exact Or.inl hs
      | some g =>
        by_cases hb : ∀ b r tag, best = some (b, r, tag) → Outranks ports b r g e.requester
        · rw [betterSupplier_takes ports best e g hl hb] at hs
          cases hs
          exact Or.inr ⟨e, List.mem_cons_self, hl, rfl⟩
        · push Not at hb
          obtain ⟨b, r, tag, rfl, hb⟩ := hb
          rw [betterSupplier_stays ports b r tag e g hl hb] at hs
          exact Or.inl hs
    · exact Or.inr ⟨f, List.mem_cons_of_mem _ hf, hx⟩

/-- A supplier that no later entry outranks stays. -/
theorem supplier_stays (ports : PerPort PortRec) (es : List Entry) (b : Legend) (r : Requester) (tag : Nat)
    (h : ∀ e ∈ es, ∀ g, e.ask.legend = some g → ¬ Outranks ports b r g e.requester) :
    es.foldl (betterSupplier ports) (some (b, r, tag)) = some (b, r, tag) := by
  induction es with
  | nil => rfl
  | cons e es ih =>
    have kept : betterSupplier ports (some (b, r, tag)) e = some (b, r, tag) := by
      cases hl : e.ask.legend with
      | none => exact betterSupplier_none ports _ e hl
      | some g => exact betterSupplier_stays ports b r tag e g hl (h e List.mem_cons_self g hl)
    rw [List.foldl_cons, kept]
    exact ih fun f hf => h f (List.mem_cons_of_mem _ hf)

/-- R39: an entry that outranks every older one with a legend part, and that no newer one outranks, is the supplier. -/
theorem supplier_of_highest (ports : PerPort PortRec) (older newer : List Entry) (e : Entry) (g : Legend)
    (he : e.ask.legend = some g)
    (ho : ∀ x ∈ older, ∀ b, x.ask.legend = some b → Outranks ports b x.requester g e.requester)
    (hn : ∀ x ∈ newer, ∀ b, x.ask.legend = some b → ¬ Outranks ports g e.requester b x.requester) :
    (older ++ e :: newer).foldl (betterSupplier ports) none = some (g, e.requester, e.tag) := by
  rw [List.foldl_append, List.foldl_cons, betterSupplier_takes ports _ e g he]
  · exact supplier_stays ports newer g e.requester e.tag hn
  · intro b r tag hb
    rcases supplier_mem ports older none _ hb with hx | ⟨x, hx, hl, rfl⟩
    · cases hx
    · exact ho x hx b hl

/-- Entries of which none has a legend part supply none. -/
theorem supplier_none (ports : PerPort PortRec) (es : List Entry) (h : ∀ e ∈ es, ∀ g, e.ask.legend ≠ some g) :
    es.foldl (betterSupplier ports) none = none := by
  cases hs : es.foldl (betterSupplier ports) none with
  | none => rfl
  | some x =>
    rcases supplier_mem ports es none x hs with hx | ⟨e, he, hl, -⟩
    · cases hx
    · exact absurd hl (h e he _)

/-- The legend demand and its source, from the supplier among the covering entries. -/
theorem demandAt_supplier (ports : PerPort PortRec) (entries : List Entry) (spot : Spot) (h : spot.takesLegend = true)
    (x : Option (Legend × Requester × Nat))
    (hx : (entries.filter fun e => e.ask.covers spot.index).foldl (betterSupplier ports) none = x) :
    (demandAt ports entries spot).legend = x.map (·.1) ∧ (demandAt ports entries spot).source = x.map (·.2) := by
  unfold demandAt
  dsimp only
  rw [if_pos h, hx]
  exact ⟨rfl, rfl⟩

/-- Where a legend part has no meaning there is no legend demand (R26, R39). -/
theorem demandAt_legendless (ports : PerPort PortRec) (entries : List Entry) (spot : Spot)
    (h : spot.takesLegend = false) :
    (demandAt ports entries spot).legend = none ∧ (demandAt ports entries spot).source = none := by
  unfold demandAt
  dsimp only
  rw [if_neg (by rw [h]; decide)]
  exact ⟨rfl, rfl⟩

end Sys2Proof.Machine

open Sys2Proof Sys2Proof.Machine

/-- Settles O44: tightening over the covering entries leaves the lowest limit part, and the choice of R39 over them in
arrival order the entry that outranks the older ones and that no newer one outranks. -/
theorem limitDemandIsLowest : Obligations.LimitDemandIsLowest := by
  intro ports entries r b i covering asks tie d
  have tie_eq (e : Entry) : tie e = tieRank ports e.requester := by
    show (match e.requester with | .port p => _ | .qp => _) = _
    cases e.requester <;> rfl
  have asks_of {xs : List Entry} {x : Entry} {g : Legend} (hx : x ∈ xs.filter fun e => e.ask.covers i)
      (hg : x.ask.legend = some g) : x ∈ xs ∧ asks x g := by
    obtain ⟨hm, hc⟩ := List.mem_filter.1 hx
    obtain ⟨hfirst, hlast⟩ := of_decide_eq_true hc
    exact ⟨hm, hfirst, hlast, hg⟩
  refine ⟨fun hk => ?_, fun hk => ?_, demandAt_limit ports entries b.spot rfl, ?_, ?_,
    (demandAt_legendless ports entries b.spot rfl).1, (demandAt_legendless ports entries b.spot rfl).2⟩
  · have none_taken : (r.spot i).takesLimit = false := by
      show r.kind.hasLimit = false
      rw [hk]
      rfl
    show (if (r.spot i).takesLimit then _ else none) = none
    rw [none_taken]
    rfl
  · refine demandAt_limit ports entries (r.spot i) ?_
    show r.kind.hasLimit = true
    cases h : r.kind with
    | gantry n shoulder => rfl
    | verge => rfl
    | message => exact absurd h hk
  · rintro older e newer g hs rfl ⟨hfirst, hlast, hg⟩ ho hn
    refine demandAt_supplier ports _ (r.spot i) hs (some (g, e.requester, e.tag)) ?_
    have covered : e.ask.covers i = true := decide_eq_true ⟨hfirst, hlast⟩
    have divided : (older ++ e :: newer).filter (fun x => x.ask.covers i) =
        older.filter (fun x => x.ask.covers i) ++ e :: newer.filter fun x => x.ask.covers i := by
      rw [List.filter_append, List.filter_cons, if_pos covered]
    rw [show (r.spot i).index = i from rfl, divided]
    refine supplier_of_highest ports _ _ e g hg (fun x hx h hl => ?_) fun x hx h hl hout => ?_
    · obtain ⟨hm, ha⟩ := asks_of hx hl
      have := ho x hm h ha
      rwa [tie_eq, tie_eq] at this
    · obtain ⟨hm, ha⟩ := asks_of hx hl
      have := hn x hm h ha
      rw [tie_eq, tie_eq] at this
      unfold Outranks at hout
      omega
  · rintro (hs | hne)
    · exact demandAt_legendless ports entries (r.spot i) hs
    · cases hs : r.sign with
      | false => exact demandAt_legendless ports entries (r.spot i) hs
      | true =>
        refine demandAt_supplier ports entries (r.spot i) hs none (supplier_none ports _ fun e he g hl => ?_)
        obtain ⟨hm, ha⟩ := asks_of he hl
        exact hne e hm g ha

/-- Settles O45: the closed lanes are those of the present ones that a covering entry names, and a shoulder opens where one
stands. -/
theorem closureAndOpeningDemandAreUnions : Obligations.ClosureAndOpeningDemandAreUnions := by
  intro ports entries r b i l covers closes lane
  refine ⟨fun n shoulder hk => ?_, fun hk => ?_, (positions_nodup r.kind).filter _, ?_,
    (lanePositions_nodup b.running b.shoulder).filter _, ?_, rfl⟩
  · have present : l ∈ (r.spot i).present ↔ lane n shoulder := by
      show l ∈ r.kind.positions ↔ _
      rw [hk]
      exact mem_lanePositions n shoulder l
    rw [mem_demandAt_closed, present]
    rfl
  · have nothing : r.kind.positions = [] := by rcases hk with hk | hk <;> rw [hk] <;> rfl
    show r.kind.positions.filter _ = []
    rw [nothing]
    rfl
  · rw [mem_demandAt_closed, show l ∈ b.spot.present ↔ lane b.running b.shoulder from mem_lanePositions _ _ l]
    rfl
  · rw [demandAt_opening, show (r.spot i).takesOpening = r.kind.hasShoulder from rfl, hasShoulder_iff]
    rfl
end

section
/-! SUPPORT. What stays of the ports' records: what the handings between the blocks leave of them, and what keeps
a port's authority (R41) and the invariant of the ports (R42, R44, R46). -/

namespace Sys2Proof.Machine

/-! ## One port's record left alone -/

/-- A port's record left but for its counters, mask, overrun flag and bytes shifted, and for the flags of a port that is
not DISABLED. -/
structure PortRec.Left (r x : PortRec) : Prop where
  authority : x.authority = r.authority
  liveness : x.liveness = r.liveness
  deadline : x.deadline = r.deadline
  command : x.command = r.command
  reply : x.reply = r.reply
  flags : r.authority = .disabled → r.flags = 0 → x.flags = 0

theorem PortRec.Left.refl (r : PortRec) : r.Left r := ⟨rfl, rfl, rfl, rfl, rfl, fun _ h => h⟩

theorem PortRec.Left.trans {r x y : PortRec} (h : r.Left x) (g : x.Left y) : r.Left y where
  authority := g.authority.trans h.authority
  liveness := g.liveness.trans h.liveness
  deadline := g.deadline.trans h.deadline
  command := g.command.trans h.command
  reply := g.reply.trans h.reply
  flags hd hf := g.flags (h.authority.trans hd) (h.flags hd hf)

theorem PortRec.enabled_iff (r : PortRec) : r.enabled = true ↔ r.authority ≠ .disabled := decide_eq_true_iff

/-- A port whose flags change is left so far as it is not DISABLED (R42, R181). -/
theorem PortRec.left_of_flags (r : PortRec) (f : BitVec 8) (h : r.enabled = true ∨ f = 0) :
    r.Left { r with flags := f } :=
  ⟨rfl, rfl, rfl, rfl, rfl, fun hd _ => h.resolve_left fun he => r.enabled_iff.1 he hd⟩

theorem PortRec.raise_left (r : PortRec) (n : Notice) : r.Left (r.raise n) := by
  unfold PortRec.raise
  split
  · exact r.left_of_flags _ (Or.inl ‹_›)
  · exact .refl r

theorem PortRec.resetAlone_left (r : PortRec) : r.Left r.resetAlone := by
  unfold PortRec.resetAlone
  split
  · exact r.left_of_flags _ (Or.inl ‹_›)
  · exact .refl r

/-! ## The ports left alone -/

/-- The ports, and where the part stands in a reset, as the handings between the blocks leave them. -/
structure PortsLeft (s t : State) : Prop where
  phase : t.phase = s.phase
  records : ∀ q, (s.port q).Left (t.port q)

theorem PortsLeft.refl (s : State) : PortsLeft s s := ⟨rfl, fun _ => .refl _⟩

theorem PortsLeft.trans {s t u : State} (h : PortsLeft s t) (g : PortsLeft t u) : PortsLeft s u :=
  ⟨g.phase.trans h.phase, fun q => (h.records q).trans (g.records q)⟩

/-- The same ports. -/
theorem PortsLeft.of_ports {s t : State} (hp : t.phase = s.phase) (h : t.ports = s.ports) : PortsLeft s t :=
  ⟨hp, fun q => by
    unfold State.port
    rw [h]
    exact .refl _⟩

theorem PortsLeft.ite {c : Prop} [Decidable c] {s t : State} (h : PortsLeft s t) :
    PortsLeft s (if c then t else s) := by
  split
  · exact h
  · exact .refl s

/-- A handing between the blocks of the field side changes of the ports the flags alone. -/
theorem Handing.portsLeft {s t : State} (h : Handing s t) : PortsLeft s t where
  phase := h.side.phase
  records q := by
    cases he : (s.port q).enabled with
    | true =>
      rw [h.side.ports q]
      exact PortRec.left_of_flags _ _ (Or.inl he)
    | false =>
      rw [h.side.disabled q he]
      exact .refl _

theorem PartsOnly.portsLeft {s t : State} (h : PartsOnly s t) : PortsLeft s t := .of_ports (by rw [h.eq]) h.ports

theorem setPort_portsLeft (s : State) (p : Port) (r : PortRec) (h : (s.port p).Left r) :
    PortsLeft s (s.setPort p r) := ⟨rfl, fun q => by
  rw [State.setPort_port]
  split
  · subst_vars; exact h
  · exact .refl _⟩

theorem notify_portsLeft (s : State) (p : Port) (n : Notice) : PortsLeft s (s.notify p n) :=
  setPort_portsLeft s p _ (PortRec.raise_left _ _)

theorem notifyAll_portsLeft (s : State) (n : Notice) : PortsLeft s (s.notifyAll n) := (notifyAll_handing s n).portsLeft

theorem notifyOthers_portsLeft (s : State) (p : Port) (n : Notice) : PortsLeft s (s.notifyOthers p n) :=
  ⟨rfl, fun q => by
    rw [State.notifyOthers_port]
    split
    · exact .refl _
    · exact PortRec.raise_left _ _⟩

theorem changeTable_portsLeft (s : State) (t : Table) : PortsLeft s (s.changeTable t) := by
  rw [changeTable_eq]
  exact .of_ports rfl rfl

theorem setLine_portsLeft (s : State) (l : LineId) (r : LineRec) : PortsLeft s (s.setLine l r) := .of_ports rfl rfl

/-! ## The authority and the invariant kept -/

/-- R42, R44, R46: what `PortsInv` says of one port's record, by where the part stands in a reset. -/
def PortRec.Sound (phase : ResetPhase) (r : PortRec) : Prop :=
  (r.authority = .disabled → r.flags = 0 ∧ r.command = none ∧ r.reply = none ∧ r.deadline = none) ∧
  (r.liveness = .silent → r.deadline = none) ∧
  (phase ≠ .ready → r.liveness = .active ∧ r.command = none ∧ r.reply = none ∧ r.deadline = none)

theorem portsInv_iff (s : State) : PortsInv s ↔ ∀ q, (s.port q).Sound s.phase := Iff.rfl

/-- In a ready part a port that is not DISABLED is sound where it is not SILENT with a deadline. -/
theorem PortRec.sound_of_enabled {r : PortRec} (he : r.authority ≠ .disabled)
    (h : r.liveness = .silent → r.deadline = none) : r.Sound .ready :=
  ⟨fun hd => absurd hd he, h, fun hn => absurd rfl hn⟩

/-- R41 and the invariant of the ports: every port's authority stays, and the invariant holds after where it held
before. -/
structure PortsKept (s t : State) : Prop where
  authority : ∀ q, (t.port q).authority = (s.port q).authority
  inv : PortsInv s → PortsInv t

theorem PortsKept.refl (s : State) : PortsKept s s := ⟨fun _ => rfl, id⟩

theorem PortsKept.trans {s t u : State} (h : PortsKept s t) (g : PortsKept t u) : PortsKept s u :=
  ⟨fun q => (g.authority q).trans (h.authority q), g.inv ∘ h.inv⟩

theorem PortsKept.ite {c : Prop} [Decidable c] {s t : State} (h : c → PortsKept s t) :
    PortsKept s (if c then t else s) := by
  split
  · exact h ‹_›
  · exact .refl s

/-- What leaves the ports alone keeps their invariant. -/
theorem PortsLeft.kept {s t : State} (h : PortsLeft s t) : PortsKept s t where
  authority q := (h.records q).authority
  inv hs q := by
    obtain ⟨disabled, silent, unready⟩ := hs q
    have x := h.records q
    rw [x.authority, x.liveness, x.deadline, x.command, x.reply, h.phase]
    refine ⟨fun hd => ?_, silent, unready⟩
    obtain ⟨hf, rest⟩ := disabled hd
    exact ⟨x.flags hd hf, rest⟩

/-- Whether a port takes transactions depends on its authority and the phase alone (R42, R162). -/
theorem hears_congr {s t : State} {p : Port} (hp : t.phase = s.phase)
    (ha : (t.port p).authority = (s.port p).authority) : t.hears p = s.hears p := by
  simp only [State.hears, PortRec.enabled, hp, ha]

theorem hears_iff (s : State) (p : Port) :
    s.hears p = true ↔ s.phase = .ready ∧ (s.port p).authority ≠ .disabled := by
  simp only [State.hears, PortRec.enabled, Bool.and_eq_true, decide_eq_true_eq]

/-- A record changed at a port that takes transactions, its authority kept, and not SILENT with a deadline. -/
theorem setPort_portsKept {s : State} {p : Port} {r : PortRec} (ha : r.authority = (s.port p).authority)
    (h : PortsInv s → s.hears p = true ∧ (r.liveness = .silent → r.deadline = none)) :
    PortsKept s (s.setPort p r) where
  authority q := by
    rw [State.setPort_port]
    split
    · subst_vars; exact ha
    · rfl
  inv hs := (portsInv_iff _).2 fun q => by
    obtain ⟨hh, hq⟩ := h hs
    obtain ⟨hr, he⟩ := (hears_iff s p).1 hh
    rw [State.setPort_port]
    split
    · rw [State.setPort_phase, hr]
      exact PortRec.sound_of_enabled (fun hd => he (ha.symm.trans hd)) hq
    · exact hs q

/-- A port with a command in its slot, or with its deadline running, takes transactions (R42, R44). -/
theorem hears_of_busy {s : State} {p : Port} (hs : PortsInv s)
    (h : (s.port p).command ≠ none ∨ (s.port p).deadline ≠ none) : s.hears p = true := by
  obtain ⟨disabled, -, unready⟩ := hs p
  refine (hears_iff s p).2 ⟨Classical.byContradiction fun hn => ?_, fun hd => ?_⟩
  · obtain ⟨-, hc, -, ht⟩ := unready hn
    exact h.elim (· hc) (· ht)
  · obtain ⟨-, hc, -, ht⟩ := disabled hd
    exact h.elim (· hc) (· ht)

/-- A change of a port that takes transactions which leaves its authority, liveness and deadline. -/
theorem onPort_portsKept (s : State) (p : Port) (f : PortRec → PortRec)
    (h : ∀ r, (f r).authority = r.authority ∧ (f r).liveness = r.liveness ∧ (f r).deadline = r.deadline) :
    PortsKept s (s.onPort p f) :=
  .ite fun hh => by
    obtain ⟨ha, hl, hd⟩ := h (s.port p)
    refine setPort_portsKept ha fun hs => ⟨hh, ?_⟩
    rw [hl, hd]
    obtain ⟨-, silent, -⟩ := hs p
    exact silent

/-- R53: every enabled port ACTIVE with its deadline running, in a part that is ready. -/
theorem restartPorts_port (s : State) (q : Port) : s.restartPorts.port q = if (s.port q).enabled then
    { s.port q with liveness := .active, deadline := some (s.keepDeadline q) } else s.port q := PerPort.get_map ..

theorem restartPorts_portsKept (s : State) (h : s.phase = .ready) : PortsKept s s.restartPorts where
  authority q := by
    rw [restartPorts_port]
    split <;> rfl
  inv hs := (portsInv_iff _).2 fun q => by
    rw [restartPorts_port]
    split
    · rename_i he
      show PortRec.Sound s.phase _
      rw [h]
      exact PortRec.sound_of_enabled ((s.port q).enabled_iff.1 he) fun hl => by cases hl
    · exact hs q

/-- A reply placed on a port whose command slot holds a command (R173). -/
theorem placeReply_portsKept (s : State) (p : Port) (a : Answer) : PortsKept s (s.placeReply p a) := by
  unfold State.placeReply
  dsimp only
  split
  · exact .refl s
  · rename_i c hc
    refine setPort_portsKept rfl fun hs => ⟨hears_of_busy hs (Or.inl (by simp [hc])), ?_⟩
    obtain ⟨-, silent, -⟩ := hs p
    exact silent

end Sys2Proof.Machine
end

section
/-! SUPPORT. What the rule of a command leaves of the ports, and what a good frame does to them: the liveness of its own
port restarted (R45, R47), and nothing lost of their invariant. -/

namespace Sys2Proof.Machine

/-! ## A good frame on a port -/

/-- What the rule of a command leaves: the ports as they stand, or, of a RESTART, each enabled port ACTIVE with its
deadline running (R53). -/
def RuleLeaves (s t : State) : Prop := PortsLeft s t ∨ PortsLeft s.restartPorts t

theorem RuleLeaves.refl (s : State) : RuleLeaves s s := Or.inl (.refl s)

theorem RuleLeaves.kept {s t : State} (h : RuleLeaves s t) (hr : s.phase = .ready) : PortsKept s t :=
  h.elim (·.kept) fun g => (restartPorts_portsKept s hr).trans g.kept

/-- A rule leaves a port ACTIVE with one KEEP_WINDOW to go as it is. -/
theorem RuleLeaves.clock {s t : State} {p : Port} (h : RuleLeaves s t) (hl : (s.port p).liveness = .active)
    (hd : (s.port p).deadline = some (s.keepDeadline p)) :
    (t.port p).liveness = .active ∧ (t.port p).deadline = some (s.keepDeadline p) := by
  rcases h with h | h
  · exact ⟨(h.records p).liveness.trans hl, (h.records p).deadline.trans hd⟩
  · have restarted : (s.restartPorts.port p).liveness = .active ∧
        (s.restartPorts.port p).deadline = some (s.keepDeadline p) := by
      rw [restartPorts_port]
      split
      · exact ⟨rfl, rfl⟩
      · exact ⟨hl, hd⟩
    exact ⟨(h.records p).liveness.trans restarted.1, (h.records p).deadline.trans restarted.2⟩

/-- R45, R47: a good frame leaves its port ACTIVE with its deadline running, whether it was SILENT or not. -/
theorem goodFrameTaken_port (s : State) (p : Port) : (s.goodFrameTaken p).port p =
    { s.port p with liveness := .active, deadline := some (s.keepDeadline p) } := by
  have restarted : (s.restartKeepalive p).port p =
      { s.port p with liveness := .active, deadline := some (s.keepDeadline p) } :=
    (State.setPort_port ..).trans (if_pos rfl)
  unfold State.goodFrameTaken
  split
  · exact restarted
  · unfold State.returnPort
    rw [State.notifyOthers_port, if_pos rfl]
    split
    · exact (changeTable_port ..).trans restarted
    · exact restarted

theorem goodFrameTaken_keepDeadline (s : State) (p q : Port) :
    (s.goodFrameTaken p).keepDeadline q = s.keepDeadline q := by
  have h := goodFrameTaken_onlyTable s p
  unfold OnlyTable at h
  rw [h]
  rfl

theorem goodFrameTaken_hears (s : State) (p : Port) : (s.goodFrameTaken p).hears p = s.hears p := by
  have h := goodFrameTaken_onlyTable s p
  unfold OnlyTable at h
  exact hears_congr (by rw [h]) (by rw [goodFrameTaken_port])

theorem goodFrameTaken_portsKept (s : State) (p : Port) (h : s.hears p = true) : PortsKept s (s.goodFrameTaken p) := by
  have restarted : PortsKept s (s.restartKeepalive p) := setPort_portsKept rfl fun _ => ⟨h, fun hl => by cases hl⟩
  unfold State.goodFrameTaken
  split
  · exact restarted
  · unfold State.returnPort
    refine PortsKept.trans ?_ (notifyOthers_portsLeft _ _ _).kept
    split
    · exact restarted.trans (changeTable_portsLeft _ _).kept
    · exact restarted

theorem PortRec.dispatch_eq (r : PortRec) (code seq : Byte) : r.dispatch code seq = { r with
    reply := none
    command := some ⟨code, seq⟩
    commands := (r.dispatch code seq).commands
    overrun := (r.dispatch code seq).overrun
    overruns := (r.dispatch code seq).overruns } := by
  unfold PortRec.dispatch
  dsimp only
  split <;> rfl

/-- The state in which a good frame's command is carried out. -/
def State.received (s : State) (p : Port) (code seq : Byte) : State :=
  (s.goodFrameTaken p).setPort p (((s.goodFrameTaken p).port p).dispatch code seq)

theorem received_port (s : State) (p : Port) (code seq : Byte) : (s.received p code seq).port p =
    ((s.goodFrameTaken p).port p).dispatch code seq := (State.setPort_port ..).trans (if_pos rfl)

/-- On a port that takes transactions a good frame is an overrun or has its command carried out (R173). -/
theorem takeFrame_heard (s : State) (p : Port) (code seq : Byte) (body : CommandBody) (h : s.hears p = true) :
    s.takeFrame p code seq body = if ((s.goodFrameTaken p).port p).executing
      then (s.goodFrameTaken p).setPort p ((s.goodFrameTaken p).port p).overran
      else (s.received p code seq).carryOut p body := if_pos h

theorem overran_portsKept (s : State) (p : Port) (h : s.hears p = true) :
    PortsKept s ((s.goodFrameTaken p).setPort p ((s.goodFrameTaken p).port p).overran) := by
  refine (goodFrameTaken_portsKept s p h).trans (setPort_portsKept rfl fun _ => ⟨by rw [goodFrameTaken_hears, h], ?_⟩)
  rw [goodFrameTaken_port]
  exact fun hl => by cases hl

theorem received_portsKept (s : State) (p : Port) (code seq : Byte) (h : s.hears p = true) :
    PortsKept s (s.received p code seq) := by
  refine (goodFrameTaken_portsKept s p h).trans
    (setPort_portsKept (by rw [PortRec.dispatch_eq]) fun _ => ⟨by rw [goodFrameTaken_hears, h], ?_⟩)
  rw [PortRec.dispatch_eq, goodFrameTaken_port]
  exact fun hl => by cases hl

theorem carryOut_portsKept (s : State) (p : Port) (body : CommandBody) (h : PortsKept s (body s).1) :
    PortsKept s (s.carryOut p body) := by
  unfold State.carryOut
  split
  · rename_i t ht
    rwa [ht] at h
  · rename_i t a ht
    rw [ht] at h
    exact h.trans (placeReply_portsKept _ _ _)

/-- A good frame keeps every port's authority and the invariant of the ports. -/
theorem takeFrame_portsKept (s : State) (p : Port) (code seq : Byte) (body : CommandBody)
    (h : ∀ u, RuleLeaves u (body u).1) : PortsKept s (s.takeFrame p code seq body) := by
  cases hh : s.hears p with
  | false =>
    rw [takeFrame_unheard s p code seq body hh]
    exact .refl s
  | true =>
    rw [takeFrame_heard s p code seq body hh]
    split
    · exact overran_portsKept s p hh
    · have ready : (s.received p code seq).phase = .ready := by
        have heard : (s.goodFrameTaken p).hears p = true := by rw [goodFrameTaken_hears, hh]
        exact ((hears_iff _ p).1 heard).1
      exact (received_portsKept s p code seq hh).trans (carryOut_portsKept _ p body ((h _).kept ready))

/-- What a command leaves of its port's liveness and deadline its reply leaves too. -/
theorem carryOut_clock (s : State) (p : Port) (body : CommandBody) :
    ((s.carryOut p body).port p).liveness = ((body s).1.port p).liveness ∧
      ((s.carryOut p body).port p).deadline = ((body s).1.port p).deadline := by
  unfold State.carryOut
  split
  · rename_i t ht
    rw [ht]
    exact ⟨rfl, rfl⟩
  · rename_i t a ht
    rw [ht]
    unfold State.placeReply
    dsimp only
    split
    · exact ⟨rfl, rfl⟩
    · rw [State.setPort_port, if_pos rfl]
      exact ⟨rfl, rfl⟩

/-- R45, R16: a good frame leaves its port ACTIVE, its deadline one KEEP_WINDOW from now by the window before its
command acts. -/
theorem takeFrame_clock (s : State) (p : Port) (code seq : Byte) (body : CommandBody)
    (h : ∀ u, RuleLeaves u (body u).1) (hh : s.hears p = true) :
    ((s.takeFrame p code seq body).port p).liveness = .active ∧
      ((s.takeFrame p code seq body).port p).deadline = some (s.keepDeadline p) := by
  rw [takeFrame_heard s p code seq body hh]
  split
  · rw [State.setPort_port, if_pos rfl, goodFrameTaken_port]
    exact ⟨rfl, rfl⟩
  · have window : (s.received p code seq).keepDeadline p = s.keepDeadline p := goodFrameTaken_keepDeadline s p p
    obtain ⟨hl, hd⟩ := carryOut_clock (s.received p code seq) p body
    rw [hl, hd, ← window]
    refine (h _).clock ?_ ?_ <;> rw [received_port, PortRec.dispatch_eq, goodFrameTaken_port]
    rw [window]

/-! ## Commands that every authority may send -/

theorem statusBody_portsLeft (p : Port) (s : State) : PortsLeft s (statusBody p s).1 :=
  setPort_portsLeft s p _ ⟨rfl, rfl, rfl, rfl, rfl, fun _ h => h⟩

theorem setNoticeMaskBody_portsLeft (p : Port) (mask : Byte) (s : State) : PortsLeft s (setNoticeMaskBody p mask s).1 :=
  setPort_portsLeft s p _ ⟨rfl, rfl, rfl, rfl, rfl, fun _ h => h⟩

theorem drawCompletion_portsLeft (s : State) : PortsLeft s s.drawCompletion := by
  unfold State.drawCompletion
  split
  · exact .of_ports rfl rfl
  · exact .refl s

theorem noticesBody_portsLeft (p : Port) (s : State) : PortsLeft s (noticesBody p s).1 :=
  (setPort_portsLeft s p _ (PortRec.left_of_flags _ _ (Or.inr rfl))).trans (drawCompletion_portsLeft _)

theorem readPlanBody_portsLeft (first last : Nat) (s : State) : PortsLeft s (readPlanBody first last s).1 := by
  unfold readPlanBody
  dsimp only
  split
  · exact .refl s
  · split <;> exact .refl s

theorem readUnitsBody_portsLeft (first last : Nat) (s : State) : PortsLeft s (readUnitsBody first last s).1 := by
  unfold readUnitsBody
  split <;> exact .refl s

theorem readStationsBody_portsLeft (first last : Nat) (s : State) : PortsLeft s (readStationsBody first last s).1 := by
  unfold readStationsBody
  split <;> exact .refl s

theorem readDeliveryBody_portsLeft (first last : Nat) (s : State) : PortsLeft s (readDeliveryBody first last s).1 := by
  unfold readDeliveryBody
  dsimp only
  split
  · exact drawCompletion_portsLeft s
  · split
    · exact .refl s
    · exact drawCompletion_portsLeft s

/-- R180: clearing the counters leaves of each port all but those. -/
theorem clearCounters_portsLeft (s : State) : PortsLeft s s.clearCounters := ⟨rfl, fun q => by
  rw [show s.clearCounters.port q = (s.port q).clearCounters from PerPort.get_map ..]
  exact ⟨rfl, rfl, rfl, rfl, rfl, fun _ h => h⟩⟩

theorem countersBody_portsLeft (p : Port) (request : Byte) (s : State) : PortsLeft s (countersBody p request s).1 :=
  .ite (clearCounters_portsLeft s)

/-! ## Commands of the request table -/

theorem requestBody_portsLeft (p : Port) (r : RequestFields) (s : State) : PortsLeft s (requestBody p r s).1 := by
  unfold requestBody
  split
  · exact .refl s
  split
  · exact .refl s
  split
  · exact .refl s
  split
  · exact .refl s
  split
  · exact changeTable_portsLeft _ _
  split
  · exact .refl s
  split
  · exact .refl s
  · exact changeTable_portsLeft _ _

theorem withdrawBody_portsLeft (p : Port) (tag : Nat) (s : State) : PortsLeft s (withdrawBody p tag s).1 := by
  unfold withdrawBody
  split
  · exact .refl s
  split
  · exact .refl s
  · exact changeTable_portsLeft _ _

theorem withdrawAllBody_portsLeft (p : Port) (s : State) : PortsLeft s (withdrawAllBody p s).1 := by
  unfold withdrawAllBody
  split
  · exact .refl s
  · exact changeTable_portsLeft _ _

theorem releaseBody_portsLeft (p : Port) (requester first last : Nat) (s : State) :
    PortsLeft s (releaseBody p requester first last s).1 := by
  unfold releaseBody
  dsimp only
  split
  · exact .refl s
  split
  · exact .refl s
  split
  · exact .refl s
  · unfold releaseEntries answer
    dsimp only
    split
    · exact changeTable_portsLeft _ _
    · exact (changeTable_portsLeft _ _).trans (notify_portsLeft _ _ _)

theorem inhibitBody_portsLeft (k seconds : Nat) (s : State) : PortsLeft s (inhibitBody k seconds s).1 := by
  unfold inhibitBody
  split
  · exact .refl s
  split
  · exact .refl s
  split
  · exact .refl s
  · show PortsLeft s (s.setInhibit _ _)
    unfold State.setInhibit
    split
    · exact .refl s
    · exact ((setStation_handing _ _).trans (handStation_handing _ _)).portsLeft

/-! ## Commands of the configuration store -/

theorem geometryBody_portsLeft {α : Type} (p : Port) (slots given : Nat) (records : List (Placed α))
    (place : Nat → List (Option α) → Store → Store) (s : State) :
    PortsLeft s (geometryBody p slots given records place s).1 := by
  unfold geometryBody
  dsimp only
  split
  · exact .refl s
  split
  · exact .refl s
  split
  · exact .refl s
  split
  · exact .refl s
  · exact .of_ports rfl rfl

theorem boundaryBody_portsLeft (payload : List Byte) (s : State) : PortsLeft s (boundaryBody payload s).1 := by
  unfold boundaryBody
  split
  · exact .refl s
  split
  · exact .refl s
  · exact .of_ports rfl rfl

theorem commitBody_portsLeft (s : State) : PortsLeft s (commitBody s).1 := by
  unfold commitBody
  split
  · exact .refl s
  · exact .of_ports rfl rfl

theorem paramBody_portsLeft (pairs : List (Nat × Nat)) (s : State) : PortsLeft s (paramBody pairs s).1 := by
  unfold paramBody
  split
  · exact .refl s
  split
  · exact .refl s
  dsimp only
  split
  · exact .refl s
  · exact .of_ports rfl rfl

theorem endValidation_portsLeft (s : State) : PortsLeft s s.endValidation.1 := by
  unfold State.endValidation
  split
  · exact .of_ports rfl rfl
  · exact ⟨rfl, fun q => by
      show (s.port q).Left (s.begin.port q)
      rw [begin_port]
      exact PortRec.raise_left _ _⟩

/-! ## Modes and RESTART -/

theorem changeMode_portsLeft (s : State) (m : Mode) : PortsLeft s (s.changeMode m) :=
  (PortsLeft.of_ports (s := s) (t := { s with mode := m }) rfl rfl).trans (notifyAll_portsLeft _ _)

theorem takeEpochZero_portsLeft (s : State) (d : DeliveryState) : PortsLeft s (s.takeEpochZero d) :=
  (withdraws_parts s).portsLeft.trans (.of_ports rfl rfl)

theorem formDark_portsLeft (s : State) : PortsLeft s s.formDark :=
  have dark : PortsLeft (s.forSites fun i st => st.withdraw i) s.toDark := .of_ports rfl rfl
  ((withdraws_parts s).portsLeft.trans dark).trans
    ((forSites_parts _ _ fun i t => reform_parts t i).trans (judgeReleases_parts _)).portsLeft

theorem setMode_portsLeft (s : State) (t : ModeTarget) : PortsLeft s (s.setMode t).1 := by
  have adopted : PortsLeft s (s.replacePlan s.adoptedPlan) := .of_ports rfl rfl
  rcases setMode_cases s t with h | ⟨-, h | h⟩ <;> rw [h]
  · exact .refl s
  · exact (adopted.trans (changeMode_portsLeft _ _)).trans (takeEpochZero_portsLeft _ _)
  · exact ((changeMode_portsLeft s _).trans (formDark_portsLeft _)).trans (judgeCompletion_handing _).portsLeft

theorem setModeBody_portsLeft (p : Port) (payload : List Byte) (s : State) :
    PortsLeft s (setModeBody p payload s).1 := by
  show PortsLeft s (s.judgeSetMode p payload).1
  unfold State.judgeSetMode
  split
  · exact .refl s
  split
  · exact .refl s
  split
  · exact .refl s
  · exact setMode_portsLeft s _

theorem restartPlan_portsLeft (s : State) : PortsLeft s s.restartPlan := by
  have replaced (plan : List PlanSite) : PortsLeft s (s.replacePlan plan) := .of_ports rfl rfl
  unfold State.restartPlan
  split
  · exact .refl s
  · exact (replaced _).trans (takeEpochZero_portsLeft _ _)
  · exact (replaced _).trans (takeEpochZero_portsLeft _ _)
  · exact (replaced _).trans (formDark_portsLeft _)

/-- R53, R168: a RESTART makes every enabled port ACTIVE with its deadline running, and leaves the ports else. -/
theorem restarted_portsLeft (s : State) : PortsLeft s.restartPorts s.restarted := by
  have table : PortsLeft s.restartPorts s.restartTable.restartPorts := by
    unfold State.restartTable
    rw [changeTable_eq]
    exact .of_ports rfl rfl
  have others (u : State) : PortsLeft u u.restartStations.restartLines.restartDelivery := .of_ports rfl rfl
  have flags (u : State) : PortsLeft u { u with cause := .restart }.restartFlags := ⟨rfl, fun q => by
    rw [show (State.restartFlags { u with cause := .restart }).port q = (u.port q).resetAlone from PerPort.get_map ..]
    exact PortRec.resetAlone_left _⟩
  exact (((table.trans (restartUnits_handing _).portsLeft).trans (others _)).trans (restartPlan_portsLeft _)).trans
    (flags _)

theorem restartBody_ruleLeaves (s : State) : RuleLeaves s (restartBody s).1 := by
  unfold restartBody
  split
  · exact .refl s
  · exact Or.inr (restarted_portsLeft s)

end Sys2Proof.Machine
end

section
/-! SUPPORT. The one rule of every command a good frame carries: it is taken on its port (R42, R162), refused to an
authority below its group (R43) and in a form it does not have (R175), and else leaves the ports alone. -/

namespace Sys2Proof.Machine

/-! ## A command with its frame -/

/-- The payload of the good frame that carries a command. -/
def sentPayload : Instr → List Byte
  | .unknownCommand _ _ _ payload | .status _ _ payload | .keepalive _ _ payload | .readPlan _ _ payload
  | .readEntries _ _ payload | .readUnits _ _ payload | .readStations _ _ payload | .readDelivery _ _ payload
  | .notices _ _ payload | .setNoticeMask _ _ payload | .counters _ _ payload | .request _ _ payload
  | .withdraw _ _ payload | .release _ _ payload | .inhibitQp _ _ payload | .geometryWrite _ _ payload
  | .stationWrite _ _ payload | .boundaryWrite _ _ payload | .commit _ _ payload | .paramSet _ _ payload
  | .setModeLive _ _ payload | .setModeShadow _ _ payload | .restart _ _ payload => payload
  | _ => []

/-- R177: the code of an UNKNOWN_COMMAND names no command. -/
def CodeApt (c : Instr) : Prop := ∀ p code seq payload, c = .unknownCommand p code seq payload → code ∉ knownCodes

theorem codeApt_of_wellFormed {c : Instr} (h : wellFormed c = true) : CodeApt c := by
  rintro p code seq payload rfl
  exact of_decide_eq_true (Bool.and_eq_true _ _ ▸ h).1

/-- A command's frame spells it again, for each code of section 10.3. -/
theorem commandOf_known (p : Port) (code seq : Byte) (payload : List Byte) (h : code ∈ knownCodes) :
    sentFrame (commandOf p code seq payload) = some ⟨p, code, seq⟩ ∧
      sentPayload (commandOf p code seq payload) = payload ∧ CodeApt (commandOf p code seq payload) := by
  have withdraw : commandOf p 0x11 seq payload =
      if payload = [] then .withdrawAll p seq else .withdraw p seq payload := rfl
  have setMode : commandOf p 0x25 seq payload =
      if payload = [1] then .setModeShadow p seq payload else .setModeLive p seq payload := rfl
  simp only [knownCodes, List.mem_cons, List.not_mem_nil, or_false] at h
  rcases h with rfl | rfl | rfl | rfl | rfl | rfl | rfl | rfl | rfl | rfl | rfl | rfl | rfl | rfl | rfl | rfl | rfl |
    rfl | rfl | rfl | rfl
  on_goal 12 =>
    rw [withdraw]
    split
    · rename_i hp
      exact ⟨rfl, hp.symm, fun _ _ _ _ e => nomatch e⟩
  on_goal 20 =>
    rw [setMode]
    split
  all_goals exact ⟨rfl, rfl, fun _ _ _ _ e => nomatch e⟩

/-! ## The form of a command (R175) -/

theorem lenAllowed_empty {code : Byte} (h : code ∈ ([0x01, 0x02, 0x08, 0x23, 0x26] : List Byte)) (payload : List Byte) :
    lenAllowed code payload.length = payload.isEmpty := by
  unfold lenAllowed
  rw [if_pos h]
  cases payload <;> rfl

theorem lenAllowed_one {code : Byte} (h : code ∈ ([0x04, 0x09, 0x0A, 0x25] : List Byte)) (n : Nat) :
    lenAllowed code n = decide (n = 1) := by
  simp only [List.mem_cons, List.not_mem_nil, or_false] at h
  rcases h with rfl | rfl | rfl | rfl <;> rfl

theorem lenAllowed_two {code : Byte} (h : code ∈ ([0x03, 0x05, 0x06, 0x07, 0x22] : List Byte)) (n : Nat) :
    lenAllowed code n = decide (n = 2) := by
  simp only [List.mem_cons, List.not_mem_nil, or_false] at h
  rcases h with rfl | rfl | rfl | rfl | rfl <;> rfl

theorem lenAllowed_three {code : Byte} (h : code ∈ ([0x12, 0x13] : List Byte)) (n : Nat) :
    lenAllowed code n = decide (n = 3) := by
  simp only [List.mem_cons, List.not_mem_nil, or_false] at h
  rcases h with rfl | rfl <;> rfl

/-! ## The rule of a command -/

/-- What a refusal carries: the mode for a SET_MODE (R164), and nothing for any other command (R177). -/
def refusalBytes (s : State) (code : Byte) : List Byte := if code = 0x25 then [byte s.mode.code] else []

/-- The rule by which a good frame's command is carried out. -/
structure CommandRule (c : Instr) (f : Sent) (body : CommandBody) : Prop where
  taken : CodeApt c → ∀ s, exec c s = .next (s.takeFrame f.port f.code f.seq body)
  ignored : ¬ CodeApt c → ∀ s, exec c s = .next s
  low : ∀ s, Authority.monitor.rank ≤ (s.port f.port).authority.rank →
    (s.port f.port).authority.rank < (permittedTo c).rank →
    body s = (s, some (.notPermitted, refusalBytes s f.code))
  formless : CodeApt c → f.code ∈ knownCodes → lenAllowed f.code (sentPayload c).length = false →
    ∀ s, (permittedTo c).rank ≤ (s.port f.port).authority.rank → body s = (s, some (.invalid, refusalBytes s f.code))
  ports : ∀ s, RuleLeaves s (body s).1

/-- R43, R175, R177: the rule of a command that is judged by its authority, then by its form. -/
theorem CommandRule.judged {c : Instr} {p : Port} {code seq : Byte} {needed : Authority} {form : Bool}
    {body : CommandBody} (hx : ∀ s, exec c s = .next (s.takeFrame p code seq (judged p needed form body)))
    (hf : form = true → lenAllowed code (sentPayload c).length = true) (hp : ∀ s, RuleLeaves s (body s).1)
    (ha : CodeApt c := by exact fun _ _ _ _ e => nomatch e) (hn : permittedTo c = needed := by rfl)
    (hc : code ≠ 0x25 := by decide) : CommandRule c ⟨p, code, seq⟩ (Machine.judged p needed form body) where
  taken _ := hx
  ignored h := absurd ha h
  low s _ hl := by
    rw [judged_low p needed form body s (hn ▸ hl)]
    exact congrArg (fun b => (s, some (Reason.notPermitted, b))) (if_neg hc).symm
  formless _ _ hlen s hr := by
    have hform : form = false := by
      cases form with
      | false => rfl
      | true => exact absurd (hf rfl) (by simp [hlen])
    rw [hform, judged_formless p needed body s (Nat.not_lt.2 (hn ▸ hr))]
    exact congrArg (fun b => (s, some (Reason.invalid, b))) (if_neg hc).symm
  ports s := by
    unfold Machine.judged
    split
    · exact .refl s
    split
    · exact .refl s
    · exact hp s

/-- The rule of a judged command that leaves the ports as they stand. -/
theorem CommandRule.plain {c : Instr} {p : Port} {code seq : Byte} {needed : Authority} {form : Bool}
    {body : CommandBody} (hx : ∀ s, exec c s = .next (s.takeFrame p code seq (Machine.judged p needed form body)))
    (hf : form = true → lenAllowed code (sentPayload c).length = true) (hp : ∀ s, PortsLeft s (body s).1)
    (ha : CodeApt c := by exact fun _ _ _ _ e => nomatch e) (hn : permittedTo c = needed := by rfl)
    (hc : code ≠ 0x25 := by decide) : CommandRule c ⟨p, code, seq⟩ (Machine.judged p needed form body) :=
  .judged hx hf (fun s => Or.inl (hp s)) ha hn hc

/-- R164: the checks of a SET_MODE, every reply carrying the mode. -/
theorem CommandRule.setMode {c : Instr} {p : Port} {seq : Byte} {payload : List Byte}
    (hx : ∀ s, exec c s = .next (s.takeFrame p 0x25 seq (setModeBody p payload))) (ha : CodeApt c)
    (hn : permittedTo c = .supervisory) (hp : sentPayload c = payload) :
    CommandRule c ⟨p, 0x25, seq⟩ (setModeBody p payload) where
  taken _ := hx
  ignored h := absurd ha h
  low s _ hl := by
    simp only [setModeBody, State.judgeSetMode, if_pos (hn ▸ hl)]
    rfl
  formless _ _ hlen s hr := by
    have hne : payload.length ≠ 1 := fun h1 => by
      have one : lenAllowed 0x25 (sentPayload c).length = decide ((sentPayload c).length = 1) :=
        lenAllowed_one (by decide) _
      rw [one, hp, decide_eq_true h1] at hlen
      cases hlen
    simp only [setModeBody, State.judgeSetMode, if_neg (Nat.not_lt.2 (hn ▸ hr)), if_pos hne]
    rfl
  ports s := Or.inl (setModeBody_portsLeft p payload s)

/-- R177: the rule of a code that names no command. -/
theorem CommandRule.unknown (p : Port) (code seq : Byte) (payload : List Byte) :
    CommandRule (.unknownCommand p code seq payload) ⟨p, code, seq⟩ (refuse .unknownCommand) where
  taken h _ := congrArg Host.Outcome.next (if_neg (h p code seq payload rfl))
  ignored h s := by
    have known : code ∈ knownCodes := Classical.byContradiction fun hn => h fun _ _ _ _ e => by cases e; exact hn
    exact congrArg Host.Outcome.next (if_pos known)
  low s hm hl := absurd hm (Nat.not_le.2 hl)
  formless h hk := absurd hk (h p code seq payload rfl)
  ports s := .refl s

/-- Each command that a good frame carries has its rule. -/
theorem exec_command (c : Instr) (f : Sent) (h : sentFrame c = some f) : ∃ body, CommandRule c f body := by
  cases c with
  | unknownCommand p code seq payload => cases h; exact ⟨_, .unknown p code seq payload⟩
  | status p seq payload =>
    cases h
    exact ⟨_, .plain (fun _ => rfl) (lenAllowed_empty (by decide) _).trans (statusBody_portsLeft p)⟩
  | keepalive p seq payload =>
    cases h
    exact ⟨_, .plain (fun _ => rfl) (lenAllowed_empty (by decide) _).trans .refl⟩
  | readPlan p seq payload =>
    cases h
    exact ⟨_, .plain (fun _ => rfl) (lenAllowed_two (by decide) _).trans (readPlanBody_portsLeft _ _)⟩
  | readEntries p seq payload =>
    cases h
    exact ⟨_, .plain (fun _ => rfl) (lenAllowed_one (by decide) _).trans .refl⟩
  | readUnits p seq payload =>
    cases h
    exact ⟨_, .plain (fun _ => rfl) (lenAllowed_two (by decide) _).trans (readUnitsBody_portsLeft _ _)⟩
  | readStations p seq payload =>
    cases h
    exact ⟨_, .plain (fun _ => rfl) (lenAllowed_two (by decide) _).trans (readStationsBody_portsLeft _ _)⟩
  | readDelivery p seq payload =>
    cases h
    exact ⟨_, .plain (fun _ => rfl) (lenAllowed_two (by decide) _).trans (readDeliveryBody_portsLeft _ _)⟩
  | notices p seq payload =>
    cases h
    exact ⟨_, .plain (fun _ => rfl) (lenAllowed_empty (by decide) _).trans (noticesBody_portsLeft p)⟩
  | setNoticeMask p seq payload =>
    cases h
    exact ⟨_, .plain (fun _ => rfl) (lenAllowed_one (by decide) _).trans (setNoticeMaskBody_portsLeft p _)⟩
  | counters p seq payload =>
    cases h
    exact ⟨_, .plain (fun _ => rfl) (lenAllowed_one (by decide) _).trans (countersBody_portsLeft p _)⟩
  | request p seq payload =>
    cases h
    exact ⟨_, .plain (fun _ => rfl) id (requestBody_portsLeft p _)⟩
  | withdraw p seq payload =>
    cases h
    exact ⟨_, .plain (fun _ => rfl) (fun hf => decide_eq_true (Nat.le_of_eq (of_decide_eq_true hf)))
      (withdrawBody_portsLeft p _)⟩
  | withdrawAll p seq =>
    cases h
    exact ⟨_, .plain (fun _ => rfl) id (withdrawAllBody_portsLeft p)⟩
  | release p seq payload =>
    cases h
    exact ⟨_, .plain (fun _ => rfl) (lenAllowed_three (by decide) _).trans (releaseBody_portsLeft p _ _ _)⟩
  | inhibitQp p seq payload =>
    cases h
    exact ⟨_, .plain (fun _ => rfl) (lenAllowed_three (by decide) _).trans (inhibitBody_portsLeft _ _)⟩
  | geometryWrite p seq payload =>
    cases h
    exact ⟨_, .plain (fun _ => rfl) id (geometryBody_portsLeft p _ _ _ _)⟩
  | stationWrite p seq payload =>
    cases h
    exact ⟨_, .plain (fun _ => rfl) id (geometryBody_portsLeft p _ _ _ _)⟩
  | boundaryWrite p seq payload =>
    cases h
    exact ⟨_, .plain (fun _ => rfl) (lenAllowed_two (by decide) _).trans (boundaryBody_portsLeft _)⟩
  | commit p seq payload =>
    cases h
    exact ⟨_, .plain (fun _ => rfl) (lenAllowed_empty (by decide) _).trans commitBody_portsLeft⟩
  | paramSet p seq payload =>
    cases h
    exact ⟨_, .plain (fun _ => rfl) id (paramBody_portsLeft _)⟩
  | setModeLive p seq payload =>
    cases h
    exact ⟨_, .setMode (fun _ => rfl) (fun _ _ _ _ e => nomatch e) rfl rfl⟩
  | setModeShadow p seq payload =>
    cases h
    exact ⟨_, .setMode (fun _ => rfl) (fun _ _ _ _ e => nomatch e) rfl rfl⟩
  | restart p seq payload =>
    cases h
    exact ⟨_, .judged (fun _ => rfl) (lenAllowed_empty (by decide) _).trans restartBody_ruleLeaves⟩
  | _ => cases h

end Sys2Proof.Machine
end

section
/-! SUPPORT. What every command and event but a power-on or pin reset keeps of the ports: their authority (R41) and
their invariant (R42, R44, R46). -/

namespace Sys2Proof.Machine

/-! ## Commands -/

/-- R42, R162: a command on a port that does not take transactions changes nothing. -/
theorem command_unheard {c : Instr} {f : Sent} {s : State} (h : sentFrame c = some f) (hh : s.hears f.port = false) :
    exec c s = .next s := by
  obtain ⟨body, rule⟩ := exec_command c f h
  by_cases ha : CodeApt c
  · rw [rule.taken ha, takeFrame_unheard _ _ _ _ _ hh]
  · exact rule.ignored ha s

theorem command_portsKept {c : Instr} {f : Sent} (s : State) (h : sentFrame c = some f) :
    ∃ t, exec c s = .next t ∧ PortsKept s t := by
  obtain ⟨body, rule⟩ := exec_command c f h
  by_cases ha : CodeApt c
  · exact ⟨_, rule.taken ha s, takeFrame_portsKept _ _ _ _ _ rule.ports⟩
  · exact ⟨_, rule.ignored ha s, .refl s⟩

/-- R175, R177: a permitted command with a LEN of no form it has is refused on its port, and changes nothing else. -/
theorem command_formless {s : State} {p : Port} {code seq : Byte} {payload : List Byte} (h : s.serving p = true)
    (hk : code ∈ knownCodes) (hlen : lenAllowed code payload.length = false)
    (hr : (permittedTo (commandOf p code seq payload)).rank ≤ (s.port p).authority.rank) :
    exec (commandOf p code seq payload) s =
      .next (s.setPort p (s.answered p code seq (.invalid, refusalBytes s code))) := by
  obtain ⟨hf, hp, ha⟩ := commandOf_known p code seq payload hk
  obtain ⟨body, rule⟩ := exec_command _ _ hf
  have refused := rule.formless ha hk (by rw [hp]; exact hlen) (s.setPort p (s.dispatched p code seq)) (by
    rw [State.setPort_port, if_pos rfl]
    exact hr)
  rw [rule.taken ha, takeFrame_answered s p code seq body _ h refused]
  rfl

/-! ## Resets, readiness and silence -/

/-- R41, R161: a release keeps each port's authority. -/
theorem release_port (s : State) (q : Port) : s.release.port q = (s.port q).cleared := PerPort.get_map ..

theorem release_portsKept (s : State) : PortsKept s s.release where
  authority q := by rw [release_port]; rfl
  inv _ q := by
    rw [release_port]
    exact ⟨fun _ => ⟨rfl, rfl, rfl, rfl⟩, fun _ => rfl, fun _ => ⟨rfl, rfl, rfl, rfl⟩⟩

/-- R162: the part ready, each port's record as readiness leaves it. -/
def State.madeReady (s : State) : State := { s with phase := .ready, ports := s.ports.map s.readied }

theorem exec_portsReady (s : State) :
    exec .portsReady s = .next (if s.readyDue then s.madeReady else s) := rfl

theorem madeReady_port (s : State) (q : Port) : s.madeReady.port q = s.readied q (s.port q) := PerPort.get_map ..

/-- R44, R162: the ports becoming ready, of which none was SILENT before. -/
theorem portsReady_portsKept (s : State) (h : s.readyDue = true) : PortsKept s s.madeReady where
  authority q := by
    rw [madeReady_port]
    unfold State.readied
    split
    · exact (PortRec.resetAlone_left _).authority
    · rfl
  inv hs := (portsInv_iff _).2 fun q => by
    have settling : s.phase ≠ .ready := fun e => by simp [State.readyDue, e] at h
    obtain ⟨disabled, -, unready⟩ := hs q
    obtain ⟨hl, -, -, hd⟩ := unready settling
    rw [madeReady_port]
    show PortRec.Sound .ready _
    unfold State.readied
    split
    · rename_i he
      have left := PortRec.resetAlone_left (s.port q)
      have enabled := (s.port q).enabled_iff.1 he
      refine PortRec.sound_of_enabled (fun ha => enabled (left.authority.symm.trans ha)) fun hq => ?_
      cases (left.liveness.trans hl).symm.trans hq
    · exact ⟨disabled, fun _ => hd, fun hn => absurd rfl hn⟩

/-- R46: a port falling silent runs no deadline. -/
theorem fallSilent_portsKept (s : State) (p : Port) (h : (s.port p).deadline ≠ none) :
    PortsKept s (s.fallSilent p) := by
  refine PortsKept.trans ?_ (notifyOthers_portsLeft _ _ _).kept
  generalize hu : s.setPort p { s.port p with
    liveness := .silent, deadline := none, silences := countUp (s.port p).silences } = u
  have silent : PortsKept s u := hu ▸ setPort_portsKept rfl fun hs => ⟨hears_of_busy hs (Or.inr h), fun _ => rfl⟩
  refine silent.trans (PortsLeft.kept ?_)
  split
  · have changed := changeTable_portsLeft u (u.table.silence p)
    dsimp only
    split
    · exact changed.trans (notify_portsLeft _ _ _)
    · exact changed
  · exact .refl u

/-! ## Timers, passes and field lines -/

theorem notifyOwner_portsLeft (s : State) (r : Requester) (n : Notice) : PortsLeft s (s.notifyOwner r n) := by
  cases r with
  | port p => exact notify_portsLeft s p n
  | qp => exact .refl s

theorem endFaultHold_portsLeft (s : State) (x : Station) : PortsLeft s (s.endFaultHold x) := by
  have first := setStation_handing s { x with faultOver := true }
  unfold State.endFaultHold
  dsimp only
  split
  · exact ((first.trans (handStation_handing _ _)).trans (notifyAll_handing _ _)).portsLeft
  · exact first.portsLeft

theorem endPass_portsLeft (s : State) (p : Pass) : PortsLeft s (s.endPass p) := by
  have told (e : Evaluator) : PortsLeft s { s with evaluator := e } := .of_ports rfl rfl
  unfold State.endPass
  dsimp only
  split
  · exact told _
  split
  · exact ((told _).trans (notifyAll_portsLeft _ .plan)).trans (takeEpoch_handing _).portsLeft
  · exact told _

/-- A record given to a line and then a handing. -/
theorem PortsLeft.of_line {s t : State} {l : LineId} {r : LineRec} (h : Handing (s.setLine l r) t) : PortsLeft s t :=
  (setLine_portsLeft s l r).trans h.portsLeft

theorem onLine_portsLeft (s : State) (l : LineId) (f : LineRec → LineRec) : PortsLeft s (s.onLine l f) :=
  .ite (setLine_portsLeft _ _ _)

theorem startWork_portsLeft (s : State) (l : LineId) (w : Work) : PortsLeft s (s.startWork l w) := by
  cases w with
  | retry t => exact setLine_portsLeft _ _ _
  | set c => exact .of_line (startWork_set s l c)
  | poll a => exact setLine_portsLeft _ _ _

theorem failAttempt_portsLeft (s : State) (l : LineId) (t : Transaction) : PortsLeft s (s.failAttempt l t) := by
  cases h : t.retry with
  | true => exact .of_line (failAttempt_retry s l t h)
  | false =>
    rw [failAttempt_first s l t h]
    exact setLine_portsLeft _ _ _

/-! ## Every command and event -/

/-- Every command and event but a power-on or pin reset keeps every port's authority and the invariant of the ports. -/
theorem exec_portsKept (c : Instr) (s : State) (hp : ∀ x, c ≠ .powerOnReset x) (hn : ∀ x n, c ≠ .pinReset x n) :
    ∃ t, exec c s = .next t ∧ PortsKept s t := by
  cases c with
  | powerOnReset straps => exact absurd rfl (hp straps)
  | pinReset straps n => exact absurd rfl (hn straps n)
  | resetRelease => exact ⟨_, rfl, .ite fun _ => release_portsKept s⟩
  | portsReady => exact ⟨_, exec_portsReady s, .ite (portsReady_portsKept s)⟩
  | voidTransaction p sdi => exact ⟨_, rfl, onPort_portsKept s p _ fun _ => ⟨rfl, rfl, rfl⟩⟩
  | readTransaction p n => exact ⟨_, rfl, onPort_portsKept s p _ fun _ => ⟨rfl, rfl, rfl⟩⟩
  | badFrame p frame =>
    refine ⟨_, rfl, onPort_portsKept s p _ fun r => ?_⟩
    unfold PortRec.reject
    dsimp only
    split
    · exact ⟨rfl, rfl, rfl⟩
    · split <;> exact ⟨rfl, rfl, rfl⟩
  | overrun p => exact ⟨_, rfl, .ite (overran_portsKept s p)⟩
  | commitValidationEnd =>
    refine ⟨_, rfl, .ite fun _ => ?_⟩
    split
    · exact (endValidation_portsLeft s).kept
    · exact (endValidation_portsLeft s).kept.trans (placeReply_portsKept _ _ _)
  | portSilent p =>
    refine ⟨_, rfl, .ite fun hdue => fallSilent_portsKept s p fun hd => ?_⟩
    rw [hd] at hdue
    simp [ranOut] at hdue
  | unknownCommand | status | keepalive | readPlan | readEntries | readUnits | readStations | readDelivery | notices
  | setNoticeMask | counters | request | withdraw | withdrawAll | release | inhibitQp | geometryWrite | stationWrite
  | boundaryWrite | commit | paramSet | setModeLive | setModeShadow | restart => exact command_portsKept s rfl
  | entryExpiry slot =>
    refine ⟨_, rfl, PortsLeft.kept ?_⟩
    split
    · exact .refl s
    · exact .ite ((changeTable_portsLeft _ _).trans (notifyOwner_portsLeft _ _ _))
  | holdDeadlineExpiry => exact ⟨_, rfl, PortsLeft.kept (.ite (.of_ports rfl rfl))⟩
  | passStart => exact ⟨_, rfl, PortsLeft.kept (.ite (.of_ports rfl rfl))⟩
  | passEnd =>
    refine ⟨_, rfl, PortsLeft.kept ?_⟩
    split
    · exact .refl s
    · exact endPass_portsLeft _ _
  | faultHoldExpiry k =>
    refine ⟨_, rfl, PortsLeft.kept ?_⟩
    split
    · exact .refl s
    · exact .ite (endFaultHold_portsLeft _ _)
  | inhibitExpiry k =>
    refine ⟨_, rfl, PortsLeft.kept ?_⟩
    split
    · exact .refl s
    · exact .ite (((setStation_handing _ _).trans (handStation_handing _ _)).portsLeft)
  | lineQuiet l cut => exact ⟨_, rfl, PortsLeft.kept (.ite (setLine_portsLeft _ _ _))⟩
  | frameStart l =>
    refine ⟨_, rfl, PortsLeft.kept ?_⟩
    split
    · exact .refl s
    · exact startWork_portsLeft _ _ _
  | frameSent l => exact ⟨_, rfl, (onLine_portsLeft _ _ _).kept⟩
  | validReply l frame =>
    refine ⟨_, rfl, PortsLeft.kept ?_⟩
    split
    · exact .of_line (takeValidReply_handing _ _ _ _)
    · exact .refl s
  | replyFrameError l frame =>
    refine ⟨_, rfl, PortsLeft.kept ?_⟩
    split
    · exact setLine_portsLeft _ _ _
    · exact setLine_portsLeft _ _ _
    · exact .refl s
  | invertedReply l => exact ⟨_, rfl, PortsLeft.kept (.ite (setLine_portsLeft _ _ _))⟩
  | falseActivity l frame =>
    refine ⟨_, rfl, PortsLeft.kept ?_⟩
    split
    · exact onLine_portsLeft _ _ _
    · split
      · exact setLine_portsLeft _ _ _
      · exact .refl s
  | replyWindowEnd l =>
    refine ⟨_, rfl, PortsLeft.kept ?_⟩
    split
    · exact .refl s
    · exact .ite (failAttempt_portsLeft _ _ _)
  | lineJam l => exact ⟨_, rfl, PortsLeft.kept (.ite (.of_line (jam_handing _ _ _ _)))⟩
  | jamContinues l => exact ⟨_, rfl, PortsLeft.kept (.ite (.of_line (jam_handing _ _ _ _)))⟩
  | lineUnjam l => exact ⟨_, rfl, PortsLeft.kept (.ite (setLine_portsLeft _ _ _))⟩
  | pollCycleStart l =>
    refine ⟨_, rfl, PortsLeft.kept ?_⟩
    split
    · exact .refl s
    · exact setLine_portsLeft _ _ _
  | lineActivity l => exact ⟨_, rfl, (onLine_portsLeft _ _ _).kept⟩

end Sys2Proof.Machine

open Sys2Proof Sys2Proof.Machine

/-- Settles O57: the idle part leaves the ports, a reset state has them idle, and all else keeps what R42, R44 and R46
say of them. -/
theorem portsInvKeptByEveryStep : Obligations.PortsInvKeptByEveryStep := by
  intro s t hs h
  unfold step at h
  split at h
  · cases h
    have idle : PortsLeft s s.idle := by
      unfold State.idle
      split <;> exact .of_ports rfl rfl
    exact idle.kept.inv hs
  · rename_i c rest _
    by_cases hp : ∃ x, c = .powerOnReset x
    · obtain ⟨x, rfl⟩ := hp
      cases h
      exact afterReset_portsInv _ _ _ _ _ _
    by_cases hn : ∃ x n, c = .pinReset x n
    · obtain ⟨x, n, rfl⟩ := hn
      cases h
      split
      · exact hs
      · exact afterReset_portsInv _ _ _ _ _ _
    obtain ⟨u, hu, hk⟩ := exec_portsKept c { s with pending := rest } (fun x e => hp ⟨x, e⟩) fun x n e => hn ⟨x, n, e⟩
    cases hu.symm.trans h
    exact hk.inv hs

/-- Settles O4: the straps are sampled by a reset alone, and nothing else writes an authority. -/
theorem authorityHeldUntilReset : Obligations.AuthorityHeldUntilReset := by
  intro c s t hp hn h
  obtain ⟨u, hu, hk⟩ := exec_portsKept c s hp hn
  cases hu.symm.trans h
  exact hk.authority

/-- Settles O9: a port that does not hear takes no frame, and no other event of its wires. -/
theorem unheardPortChangesNothing : Obligations.UnheardPortChangesNothing := by
  intro c p s ht hh
  have closed : ¬ s.hears p = true := by simp [hh]
  cases c with
  | voidTransaction | readTransaction | badFrame | overrun => cases ht; exact congrArg Host.Outcome.next (if_neg closed)
  | unknownCommand | status | keepalive | readPlan | readEntries | readUnits | readStations | readDelivery | notices
  | setNoticeMask | counters | request | withdraw | withdrawAll | release | inhibitQp | geometryWrite | stationWrite
  | boundaryWrite | commit | paramSet | setModeLive | setModeShadow | restart =>
    cases ht
    exact command_unheard rfl hh
  | _ => cases ht

/-- Settles O14: the deadline is restarted before the command is dispatched, and no command's rule sets another. -/
theorem goodFrameRestartsKeepalive : Obligations.GoodFrameRestartsKeepalive := by
  intro c f s t hf hw hh h
  obtain ⟨body, rule⟩ := exec_command c f hf
  cases (rule.taken (codeApt_of_wellFormed hw) s).symm.trans h
  exact takeFrame_clock s _ _ _ body rule.ports hh

/-- Settles O17: authority is judged first, so the refusal alone changes the sender's record. -/
theorem lowAuthorityIsNotPermitted : Obligations.LowAuthorityIsNotPermitted := by
  intro c f s hf hw h hlow
  obtain ⟨body, rule⟩ := exec_command c f hf
  have sender : (s.setPort f.port (s.dispatched f.port f.code f.seq)).port f.port = s.dispatched f.port f.code f.seq :=
    (State.setPort_port ..).trans (if_pos rfl)
  rw [rule.taken (codeApt_of_wellFormed hw), takeFrame_answered s _ _ _ body _ h
    (rule.low _ (by rw [sender]; exact monitor_le h) (by rw [sender]; exact hlow))]
  rfl

/-- Settles O19: KEEPALIVE and an unknown code answer at once, and a LEN of no form is refused by the rule of its
command. -/
theorem keepaliveAndUnknownCommandAnswered : Obligations.KeepaliveAndUnknownCommandAnswered := by
  intro p seq code payload s h
  have monitor := monitor_le h
  refine ⟨congrArg _ (permitted_refused h monitor rfl), fun hne => ?_, fun hk => ?_, command_formless h⟩
  · have hlen : lenAllowed 0x02 payload.length = false := by
      rw [lenAllowed_empty (by decide), List.isEmpty_eq_false_iff]
      exact hne
    exact command_formless h (code := 0x02) (by decide) hlen monitor
  · have apt : CodeApt (.unknownCommand p code seq payload) := fun _ _ _ _ e => by cases e; exact hk
    rw [(CommandRule.unknown p code seq payload).taken apt, takeFrame_answered s p code seq _ _ h rfl]
end

section
/-! SUPPORT. What a port's silence and return, and a RELEASE, do to the request table and to the other ports (R46, R47,
R49 to R51), and that the demand follows (R35). -/

namespace Sys2Proof.Machine

/-! ## The demand beside the ports and the states of entries -/

/-- Ports that agree in authority leave the demand as it follows the entries (R39). -/
theorem DemandFollows.ports {s t : State} {ports : PerPort PortRec} (h : DemandFollows s t)
    (ha : ∀ p, (ports.get p).authority = (t.port p).authority) : DemandFollows s { t with ports := ports } := by
  obtain ⟨hd, hp⟩ := h
  refine ⟨hd.trans ?_, hp⟩
  exact List.map_congr_left fun x _ => (demandAt_authority ha _ x).symm

theorem DemandFollows.notify {s t : State} (h : DemandFollows s t) (p : Port) (n : Notice) :
    DemandFollows s (t.notify p n) := h.ports fun q => by
  rw [show (t.ports.set p ((t.port p).raise n)).get q = (t.notify p n).port q from rfl, State.notify_port]
  split
  · subst_vars
    exact PortRec.raise_authority _ _
  · rfl

theorem DemandFollows.notifyOthers {s t : State} (h : DemandFollows s t) (p : Port) (n : Notice) :
    DemandFollows s (t.notifyOthers p n) := h.ports fun q => by
  show ((t.notifyOthers p n).port q).authority = _
  rw [State.notifyOthers_port]
  split
  · rfl
  · exact PortRec.raise_authority _ _

/-- The demand does not depend on whether an entry is ACTIVE or FROZEN (R35 to R39). -/
theorem demandAt_map (ports : PerPort PortRec) (g : Entry → Entry)
    (h : ∀ e, (g e).ask = e.ask ∧ (g e).requester = e.requester ∧ (g e).tag = e.tag) (entries : List Entry)
    (spot : Spot) : demandAt ports (entries.map g) spot = demandAt ports entries spot := by
  have hask : ∀ e, (g e).ask = e.ask := fun e => (h e).1
  have better : (fun best e => betterSupplier ports best (g e)) = betterSupplier ports := by
    funext best e
    obtain ⟨h1, h2, h3⟩ := h e
    unfold betterSupplier
    rw [h1, h2, h3]
  unfold demandAt
  simp only [List.filter_map, List.foldl_map, List.any_map, Function.comp_def, hask, better]

theorem thaw_entries (t : Table) (p : Port) : (t.thaw p).entries =
    t.entries.map fun e => if e.requester = .port p then { e with state := .active } else e :=
  List.map_congr_left fun e _ => by simp only [Entry.ownedBy, decide_eq_true_eq]

theorem demandAt_thaw (ports : PerPort PortRec) (t : Table) (p : Port) (spot : Spot) :
    demandAt ports (t.thaw p).entries spot = demandAt ports t.entries spot :=
  demandAt_map ports _ (fun e => by split <;> exact ⟨rfl, rfl, rfl⟩) _ spot

/-! ## The return of a SILENT port (R47) -/

theorem goodFrameTaken_active {s : State} {p : Port} (h : (s.port p).liveness = .active) :
    s.goodFrameTaken p = s.restartKeepalive p := by
  unfold State.goodFrameTaken
  rw [h]

theorem goodFrameTaken_silent {s : State} {p : Port} (h : (s.port p).liveness = .silent) :
    s.goodFrameTaken p = s.returnPort p := by
  unfold State.goodFrameTaken
  rw [h]

/-- A good frame taken at the same moment as another finds its port as the other left it. -/
theorem goodFrameTaken_again (s : State) (p : Port) :
    (s.goodFrameTaken p).goodFrameTaken p = s.goodFrameTaken p := by
  have hp := goodFrameTaken_port s p
  have hk := goodFrameTaken_keepDeadline s p p
  generalize s.goodFrameTaken p = u at hp hk
  have same : { u.port p with liveness := .active, deadline := some (u.keepDeadline p) } = u.port p := by
    rw [hp, hk]
  rw [goodFrameTaken_active (by rw [hp])]
  unfold State.restartKeepalive
  rw [same, State.setPort_self]

/-- A frame heard is taken as on the port it has already made ACTIVE (R45, R47). -/
theorem takeFrame_again (s : State) (p : Port) (code seq : Byte) (body : CommandBody) (h : s.hears p = true) :
    (s.goodFrameTaken p).takeFrame p code seq body = s.takeFrame p code seq body := by
  rw [takeFrame_heard _ p code seq body h, takeFrame_heard _ p code seq body (by rw [goodFrameTaken_hears, h])]
  unfold State.received
  rw [goodFrameTaken_again]

/-- OVERRUN on a port that hears (R173; log entry 38). -/
theorem exec_overrun {s : State} {p : Port} (h : s.hears p = true) : exec (.overrun p) s =
    .next ((s.goodFrameTaken p).setPort p ((s.goodFrameTaken p).port p).overran) :=
  congrArg Host.Outcome.next (if_pos h)

/-- R45, R47: what comes of a good frame is what comes of it on the port already made ACTIVE. -/
theorem exec_again {s : State} {p : Port} {c : Instr} (h : s.hears p = true)
    (hc : (∃ f, sentFrame c = some f ∧ f.port = p ∧ wellFormed c = true) ∨ c = .overrun p) :
    exec c s = exec c (s.goodFrameTaken p) := by
  rcases hc with ⟨f, hf, rfl, hw⟩ | rfl
  · obtain ⟨body, rule⟩ := exec_command c f hf
    have taken := rule.taken (codeApt_of_wellFormed hw)
    rw [taken, taken, takeFrame_again s f.port _ _ body h]
  · rw [exec_overrun h, exec_overrun (by rw [goodFrameTaken_hears, h]), goodFrameTaken_again]

/-- The record of a port just made ACTIVE (R45). -/
def State.returning (s : State) (p : Port) : PortRec :=
  { s.port p with liveness := .active, deadline := some (s.keepDeadline p) }

theorem returnPort_owner {s : State} {p : Port} (h : 2 ≤ (s.port p).authority.rank) : s.returnPort p =
    ((s.changeTable (s.table.thaw p)).setPort p (s.returning p)).notifyOthers p .port := by
  unfold State.returnPort
  dsimp only
  rw [if_pos (show (s.port p).authority.owns = true from decide_eq_true h)]
  exact congrArg (State.notifyOthers · p .port) (setPort_changeTable s p (s.returning p) _ rfl)

theorem returnPort_monitor {s : State} {p : Port} (h : ¬ 2 ≤ (s.port p).authority.rank) :
    s.returnPort p = (s.setPort p (s.returning p)).notifyOthers p .port := by
  unfold State.returnPort
  dsimp only
  rw [if_neg (show ¬ (s.port p).authority.owns = true from fun ho => h (of_decide_eq_true ho))]
  rfl

/-- A demand derived before a thaw stands after it, and the evaluator is told nothing (R35). -/
theorem changeTable_thaw (s : State) (p : Port) (h : DemandDerived s) :
    (s.changeTable (s.table.thaw p)).table.demand = s.table.demand ∧
      (s.changeTable (s.table.thaw p)).evaluator = s.evaluator := by
  have same : s.store.spots.map (demandAt s.ports (s.table.thaw p).entries) = s.table.demand :=
    (List.map_congr_left fun x _ => demandAt_thaw _ _ _ x).trans h.symm
  have unchanged : decide (s.table.demand.map Demand.read ≠ (s.table.thaw p).demand.map Demand.read) = false :=
    decide_eq_false (not_not.2 rfl)
  rw [changeTable_eq]
  dsimp only
  rw [same, unchanged, Bool.or_false]
  exact ⟨rfl, rfl⟩

/-- R47: what the return of a SILENT port leaves of all but its own record. -/
theorem returnPort_returned (s : State) (p : Port) : Returned p s (s.returnPort p) := by
  by_cases h : 2 ≤ (s.port p).authority.rank
  · obtain ⟨only, entries, arrival, follows, -, others⟩ :=
      changeTable_setPort_spec s p (s.returning p) (s.table.thaw p) rfl rfl
    rw [returnPort_owner h]
    exact {
      only := only.trans (notifyOthers_onlyTable _ _ _)
      others := fun q hq => by rw [State.notifyOthers_port, if_neg hq, others q hq]
      kept := fun hn => absurd h (Nat.not_le.2 hn)
      entries := fun _ => entries.trans (thaw_entries _ _)
      arrival := arrival
      derived := fun _ => follows.notifyOthers p .port
      demand := changeTable_thaw s p }
  · rw [returnPort_monitor h]
    exact {
      only := rfl
      others := fun q hq => by rw [State.notifyOthers_port, if_neg hq, State.setPort_port, if_neg hq]
      kept := fun _ => ⟨rfl, rfl⟩
      entries := fun hn => absurd hn h
      arrival := rfl
      derived := fun hn => absurd hn h
      demand := fun _ => ⟨rfl, rfl⟩ }

/-! ## A port falling SILENT (R46) -/

/-- The record of a port just fallen SILENT (R46). -/
def State.lapsed (s : State) (p : Port) : PortRec :=
  { s.port p with liveness := .silent, deadline := none, silences := countUp (s.port p).silences }

theorem fallSilent_monitor {s : State} {p : Port} (h : (s.port p).authority.owns = false) :
    s.fallSilent p = (s.setPort p (s.lapsed p)).notifyOthers p .port := by
  unfold State.fallSilent
  dsimp only
  rw [h]
  rfl

theorem fallSilent_owner {s : State} {p : Port} (h : (s.port p).authority.owns = true) : s.fallSilent p =
    ((s.changeTable (s.table.silence p)).setPort p
      (if s.table.hasDrop p then (s.lapsed p).raise .entry else s.lapsed p)).notifyOthers p .port := by
  have changed : (s.setPort p (s.lapsed p)).changeTable (s.table.silence p) =
      (s.changeTable (s.table.silence p)).setPort p (s.lapsed p) := setPort_changeTable s p (s.lapsed p) _ rfl
  have told : ((s.changeTable (s.table.silence p)).setPort p (s.lapsed p)).notify p .entry =
      (s.changeTable (s.table.silence p)).setPort p ((s.lapsed p).raise .entry) := by
    unfold State.notify
    rw [State.setPort_port, if_pos rfl, State.setPort_setPort]
  unfold State.fallSilent
  dsimp only
  rw [if_pos h]
  refine congrArg (State.notifyOthers · p .port) ?_
  show (if s.table.hasDrop p then ((s.setPort p (s.lapsed p)).changeTable (s.table.silence p)).notify p .entry
    else (s.setPort p (s.lapsed p)).changeTable (s.table.silence p)) = _
  rw [changed, told]
  split <;> rfl

/-- R46: the DROP entries of a port that fell SILENT gone, its HOLD entries FROZEN. -/
theorem silence_entries (t : Table) (p : Port) : (t.silence p).entries =
    (t.entries.filter fun e => !decide (e.requester = .port p ∧ e.ask.policy = .drop)).map fun e =>
      if e.requester = .port p then { e with state := .frozen } else e := by
  unfold Table.silence Entry.ownedBy
  simp only [← Bool.decide_and, decide_eq_true_eq]

theorem hasDrop_eq (t : Table) (p : Port) : t.hasDrop p =
    t.entries.any fun e => decide (e.requester = .port p ∧ e.ask.policy = .drop) := by
  unfold Table.hasDrop Entry.ownedBy
  simp only [← Bool.decide_and]

/-! ## RELEASE (R49 to R51) -/

theorem PortRec.raise_placed (r : PortRec) (n : Notice) (c : Option Command) (x : Option Reply) :
    PortRec.raise n { r with command := c, reply := x } = { r.raise n with command := c, reply := x } := by
  unfold PortRec.raise
  show (if r.enabled then _ else _) = _
  split <;> rfl

/-- A notice set at some port while a command was carried out stands beside its reply. -/
theorem notify_answered (s : State) (p x : Port) (n : Notice) (r : PortRec) (reply : Reply)
    (hp : s.port p = r) :
    (s.notify x n).setPort p { (s.notify x n).port p with command := none, reply := some reply } =
      (s.setPort p { r with command := none, reply := some reply }).notify x n := by
  subst hp
  have ports {t u : State} (h : ∀ q, t.port q = u.port q) (hs : t = { s with ports := t.ports })
      (hu : u = { s with ports := u.ports }) : t = u := by rw [hs, hu, PerPort.ext_get h]
  refine ports (fun q => ?_) rfl rfl
  simp only [State.setPort_port, State.notify_port]
  by_cases hq : q = p
  · subst hq
    by_cases hx : q = x
    · subst hx
      simp only [if_true, PortRec.raise_placed]
    · simp only [if_true, if_neg hx]
  · by_cases hx : q = x
    · subst hx
      simp only [if_true, if_neg hq]
    · simp only [if_neg hq, if_neg hx]

/-- A RELEASE of three bytes goes to the checks of R49. -/
theorem exec_release (p : Port) (seq who first last : Byte) (s : State) : exec (.release p seq [who, first, last]) s =
    .next (s.takeFrame p 0x12 seq (judged p .field true (releaseBody p who.toNat first.toNat last.toNat))) := rfl

theorem Port.ofCode_code (x : Port) : Port.ofCode (Port.code x) = some x := by cases x <;> rfl

/-- R49: a requester byte above 2 names no port. -/
theorem Port.ofCode_none {n : Nat} : Port.ofCode n = none ↔ 2 < n := List.getElem?_eq_none_iff

/-- R50: an entry that shares a site with a range, as the rule words it. -/
def sharesSite (n first last : Nat) (e : Entry) : Bool :=
  (List.range n ++ [32]).any fun i => decide (e.ask.first ≤ i ∧ i ≤ e.ask.last ∧ first ≤ i ∧ i ≤ last)

theorem considered_eq (e : Entry) (x : Port) (n first last : Nat) :
    e.considered x n first last = (decide (e.requester = .port x) && sharesSite n first last e) := by
  unfold Entry.considered Entry.ownedBy Ask.shares Ask.covers sharesSite Config.exitIndex
  simp only [← Bool.decide_and, and_assoc]

/-- What is left of the considered entries is what the sender may not release (R51). -/
theorem length_left {α : Type} (c m : α → Bool) (xs : List α) :
    (xs.filter c).length - ((xs.filter c).filter m).length = (xs.filter fun e => c e && !m e).length := by
  have parts := List.length_eq_length_filter_add (l := xs.filter c) m
  have rest : (xs.filter c).filter (fun e => !m e) = xs.filter fun e => c e && !m e := by
    rw [List.filter_filter]
    exact List.filter_congr fun e _ => Bool.and_comm ..
  rw [← rest]
  omega

/-- R50: who may release an entry depends on the authorities of the ports alone. -/
theorem mayRelease_setPort (s : State) (p q x : Port) (r : PortRec) (hr : r.authority = (s.port p).authority)
    (e : Entry) : (s.setPort p r).mayRelease q x e = s.mayRelease q x e := by
  have same (y : Port) : ((s.setPort p r).port y).authority = (s.port y).authority := by
    rw [State.setPort_port]
    split
    · subst_vars
      exact hr
    · rfl
  unfold State.mayRelease
  rw [same, same]

/-- R51: what a RELEASE removes, where it tells the port of the entries, and what it answers. -/
theorem releaseEntries_eq {p x : Port} {first ends last : Nat} {s : State} {considered may : Entry → Bool}
    (hc : ∀ e, e.considered x s.store.siteCount first ends = considered e) (hm : ∀ e, s.mayRelease p x e = may e) :
    let gone := s.table.entries.filter fun e => considered e && may e
    let left := s.table.entries.filter fun e => considered e && !may e
    let t := s.changeTable (s.table.remove fun e => considered e && may e)
    releaseEntries p x first ends (decide (ends ≠ last)) s = (if gone ≠ [] then t.notify x .entry else t,
      some (if ends = last then .ok else .clamped,
        [byte gone.length, byte left.length, if ends = last then 0 else 1])) := by
  intro gone left t
  have removed : (s.table.entries.filter considered).filter may = gone := by
    rw [List.filter_filter]
    exact List.filter_congr fun e _ => Bool.and_comm ..
  have stayed : (s.table.entries.filter considered).length - gone.length = left.length := by
    rw [← removed]
    exact length_left considered may s.table.entries
  unfold releaseEntries answer clampReason flagByte
  simp only [funext hm, hc, hm, removed, stayed, List.isEmpty_iff]
  by_cases he : ends = last
  · simp only [he, ne_eq, not_true_eq_false, decide_false, Bool.false_eq_true, if_false, if_true, ite_not, t]
  · simp only [he, ne_eq, not_false_eq_true, decide_true, if_true, if_false, ite_not, t]

/-- The checks of R49 in their order. -/
theorem releaseBody_eq (p : Port) (who first last : Nat) (s : State) : releaseBody p who first last s =
    if s.mode = .unconfigured then (s, some (.wrongMode, []))
    else if 2 < who then (s, some (.invalid, []))
    else if ¬ RangePasses s.store.siteCount first last then (s, some (.badRange, []))
    else match Port.ofCode who with
      | none => (s, some (.invalid, []))
      | some x => releaseEntries p x first (rangeEnd s.store.siteCount last)
          (decide (rangeEnd s.store.siteCount last ≠ last)) s := by
  unfold releaseBody refuse
  simp only [← clampLast_eq, ← rangeGood_iff, ← Port.ofCode_none]
  split
  · rfl
  · cases Port.ofCode who <;> simp

/-- A permitted command that changes the table, sets a notice at some port and is answered. -/
theorem permitted_tells {s : State} {p x : Port} {code seq : Byte} {needed : Authority} {body : CommandBody}
    {a : Answer} {t : Table} {n : Notice} (h : s.serving p = true) (ha : needed.rank ≤ (s.port p).authority.rank)
    (hb : body (s.setPort p (s.dispatched p code seq)) =
      (((s.setPort p (s.dispatched p code seq)).changeTable t).notify x n, some a)) :
    s.takeFrame p code seq (judged p needed true body) =
      ((s.changeTable t).setPort p (s.answered p code seq a)).notify x n := by
  obtain ⟨-, -, hc⟩ := (serving_iff s p).1 h
  have record : ((s.changeTable t).setPort p (s.dispatched p code seq)).port p = s.dispatched p code seq :=
    (State.setPort_port ..).trans (if_pos rfl)
  have busy : ((((s.changeTable t).setPort p (s.dispatched p code seq)).notify x n).port p).command =
      some ⟨code, seq⟩ := by
    rw [State.notify_port]
    split
    · subst_vars
      rw [PortRec.raise_command, record]
      rfl
    · rw [record]
      rfl
  have passes := judged_passes p needed body (s.setPort p (s.dispatched p code seq)) (by
    rw [State.setPort_port, if_pos rfl]
    exact Nat.not_lt.2 ha)
  rw [setPort_changeTable s p (s.dispatched p code seq) t rfl] at hb
  rw [takeFrame_serving s p code seq _ h, carryOut_answer _ _ p _ a ⟨code, seq⟩ (passes.trans hb) busy,
    notify_answered _ p x n _ _ record, dispatched_reply s p code seq a hc, State.setPort_setPort]

/-- What a permitted command leaves that changes the table, is answered, and on a condition sets a notice at some port
(R33, R35). -/
theorem permitted_outcome {s : State} {p x : Port} {code seq : Byte} {needed : Authority} {body : CommandBody}
    {a : Answer} {t : Table} {n : Notice} {tells : Prop} [Decidable tells] (h : s.serving p = true)
    (ha : needed.rank ≤ (s.port p).authority.rank) (ht : t.demand = s.table.demand)
    (hb : body (s.setPort p (s.dispatched p code seq)) =
      (if tells then ((s.setPort p (s.dispatched p code seq)).changeTable t).notify x n
        else (s.setPort p (s.dispatched p code seq)).changeTable t, some a)) :
    let u := s.takeFrame p code seq (judged p needed true body)
    OnlyTable s u ∧ u.table.entries = t.entries ∧ u.table.nextArrival = t.nextArrival ∧ DemandFollows s u ∧
      ∀ q, u.port q = (if q = x ∧ tells then PortRec.raise n else id)
        (if q = p then s.answered p code seq a else s.port q) := by
  intro u
  obtain ⟨only, entries, arrival, follows, -⟩ := changeTable_setPort_spec s p (s.answered p code seq a) t rfl ht
  have record (q : Port) : ((s.changeTable t).setPort p (s.answered p code seq a)).port q =
      if q = p then s.answered p code seq a else s.port q := by rw [State.setPort_port, changeTable_port]
  by_cases htell : tells
  · have hu : u = ((s.changeTable t).setPort p (s.answered p code seq a)).notify x n :=
      permitted_tells h ha (hb.trans (congrArg (·, _) (if_pos htell)))
    rw [hu]
    refine ⟨only.trans (setPort_onlyTable _ _ _), entries, arrival, follows.notify x n, fun q => ?_⟩
    rw [State.notify_port, record, record]
    by_cases hq : q = x
    · subst hq
      simp only [htell, and_self, if_true]
    · simp only [hq, false_and, if_false, id]
  · have hu : u = (s.changeTable t).setPort p (s.answered p code seq a) :=
      permitted_changes h ha (hb.trans (congrArg (·, _) (if_neg htell)))
    rw [hu]
    refine ⟨only, entries, arrival, follows, fun q => ?_⟩
    simp only [record, htell, and_false, if_false, id]

/-! ## The reset state (R161) -/

theorem afterReset_port (now : Nat) (phase : ResetPhase) (cause : ResetCause) (straps : Straps) (drawn : Nat)
    (pending : List Instr) (p : Port) :
    (State.afterReset now phase cause straps drawn pending).port p = .initial (Straps.pair straps p) := by
  cases p <;> rfl

theorem afterReset_line (now : Nat) (phase : ResetPhase) (cause : ResetCause) (straps : Straps) (drawn : Nat)
    (pending : List Instr) (l : LineId) :
    (State.afterReset now phase cause straps drawn pending).line l = .initial := by cases l <;> rfl

/-- A reset leaves every block at its reset values. -/
theorem afterReset_values (now : Nat) (phase : ResetPhase) (cause : ResetCause) (straps : Straps) (drawn : Nat)
    (pending : List Instr) : ResetValues (State.afterReset now phase cause straps drawn pending) where
  mode := rfl
  records := ⟨List.getElem?_getD_replicate_default_eq none 32, List.getElem?_getD_replicate_default_eq none 16, rfl⟩
  params i := by cases i <;> rfl
  commit := ⟨rfl, rfl, rfl⟩
  table := ⟨rfl, rfl, rfl⟩
  ports p := by
    rw [afterReset_port]
    exact ⟨rfl, rfl, rfl, rfl, rfl, rfl, rfl, rfl, rfl, rfl, rfl⟩
  evaluator := ⟨rfl, rfl, rfl, rfl⟩
  stations := rfl
  units := rfl
  delivery := ⟨rfl, rfl, rfl, rfl, rfl, rfl, rfl, rfl⟩
  lines l := by
    rw [afterReset_line]
    exact ⟨⟨rfl, rfl, rfl⟩, rfl, ⟨rfl, rfl, rfl⟩, ⟨rfl, rfl, rfl⟩, rfl⟩

end Sys2Proof.Machine

open Sys2Proof Sys2Proof.Machine

/-- Settles O18: a frame on a SILENT port is taken as on the port that it has returned. -/
theorem returnOfSilentPort : Obligations.ReturnOfSilentPort := by
  intro p seq s hh hl
  have again (c : Instr) := exec_again (c := c) hh
  have record := goodFrameTaken_port s p
  have heard : (s.goodFrameTaken p).hears p = true := by rw [goodFrameTaken_hears, hh]
  have window := goodFrameTaken_keepDeadline s p p
  rw [goodFrameTaken_silent hl] at again record heard window
  have back := returnPort_returned s p
  refine ⟨⟨_, back, heard, record, again⟩, fun hc => ?_⟩
  generalize s.returnPort p = u at again record heard window back
  have serving : u.serving p = true := (serving_iff u p).2 ⟨heard, by rw [record], by rw [record]; exact hc⟩
  have answered : u.answered p 0x02 seq (.ok, []) =
      { s.answered p 0x02 seq (.ok, []) with liveness := .active } := by
    have due : u.now + u.param (keepWindowId p) * 1000 = s.now + s.param (keepWindowId p) * 1000 := window
    unfold State.answered
    rw [due, record]
  refine ⟨u.setPort p (u.answered p 0x02 seq (.ok, [])), ?_, back.only.trans (setPort_onlyTable _ _ _), ?_,
    fun q hq => ?_, back.arrival, ?_⟩
  · rw [again _ (Or.inl ⟨_, rfl, rfl, rfl⟩)]
    exact congrArg _ (permitted_refused serving (monitor_le serving) rfl)
  · rw [State.setPort_port, if_pos rfl, answered]
  · rw [State.setPort_port, if_neg hq, back.others q hq]
  · split
    · exact back.entries ‹_›
    · obtain ⟨table, -⟩ := back.kept (Nat.lt_of_not_le ‹_›)
      exact congrArg Table.entries table

/-- Settles O32: the table of an owning port changes once, and the notices follow. -/
theorem silenceDropsAndFreezes : Obligations.SilenceDropsAndFreezes := by
  intro p d s hl hd hle owns drops
  have due : (decide ((s.port p).liveness = .active) && ranOut s.now (s.port p).deadline) = true := by
    rw [hl, hd]
    exact decide_eq_true hle
  refine ⟨s.fallSilent p, congrArg Host.Outcome.next (if_pos due), ?_⟩
  cases ho : (s.port p).authority.owns with
  | false =>
    have none_owned : owns = false := ho
    rw [fallSilent_monitor ho, none_owned]
    refine ⟨rfl, rfl, fun _ => rfl, nofun, ?_, fun q hq => ?_⟩
    · rw [State.notifyOthers_port, if_pos rfl, State.setPort_port, if_pos rfl]
      rfl
    · rw [State.notifyOthers_port, if_neg hq, State.setPort_port, if_neg hq]
  | true =>
    have owned : owns = true := ho
    have same : (if s.table.hasDrop p then (s.lapsed p).raise .entry else s.lapsed p).authority =
        (s.port p).authority := by
      split
      · exact PortRec.raise_authority _ _
      · rfl
    obtain ⟨only, entries, arrival, follows, record, others⟩ :=
      changeTable_setPort_spec s p _ (s.table.silence p) same rfl
    rw [fallSilent_owner ho, owned]
    refine ⟨only.trans (notifyOthers_onlyTable _ _ _), arrival, nofun, fun _ => ⟨follows.notifyOthers p .port,
      entries.trans (silence_entries _ _)⟩, ?_, fun q hq => ?_⟩
    · rw [State.notifyOthers_port, if_pos rfl, record, hasDrop_eq, Bool.true_and]
      split <;> rfl
    · rw [State.notifyOthers_port, if_neg hq, others q hq]

/-- Settles O7: the reset values are read off the state a reset leaves. -/
theorem resetsClearEveryBlock : Obligations.ResetsClearEveryBlock := by
  intro x n s
  have authority (cause : ResetCause) (p : Port) :
      ((State.afterReset s.now .held cause x s.drawn s.pending).port p).authority =
        strapAuthority (Straps.pair x p) := by
    rw [afterReset_port]
    rfl
  refine ⟨⟨_, rfl, afterReset_values .., rfl, rfl, authority .power⟩, fun hn => ?_, fun hn => ?_⟩
  · exact ⟨_, congrArg Host.Outcome.next (if_neg (Nat.not_lt.2 hn)), afterReset_values .., rfl, rfl, authority .pin⟩
  · exact congrArg Host.Outcome.next (if_pos hn)

/-- Settles O30: the checks of R49 in their order, then the entries that R50 considers and lets the sender release. -/
theorem releaseRemovesReleasableEntries : Obligations.ReleaseRemovesReleasableEntries := by
  intro p seq who first last s h ha n refused
  have checks := releaseBody_eq p who.toNat first.toNat last.toNat (s.setPort p (s.dispatched p 0x12 seq))
  have refuses {why : Reason} (hb : releaseBody p who.toNat first.toNat last.toNat
      (s.setPort p (s.dispatched p 0x12 seq)) = (s.setPort p (s.dispatched p 0x12 seq), some (why, []))) :
      refused why := (exec_release p seq who first last s).trans (congrArg _ (permitted_refused h ha hb))
  split
  case isTrue hm => exact refuses (checks.trans (if_pos hm))
  case isFalse hm =>
  rw [if_neg (show ¬ (s.setPort p (s.dispatched p 0x12 seq)).mode = .unconfigured from hm)] at checks
  split
  case isTrue hw => exact refuses (checks.trans (if_pos hw))
  case isFalse hw =>
  rw [if_neg hw] at checks
  split
  case isTrue hr => exact refuses (checks.trans (if_pos hr))
  case isFalse hr =>
  rw [if_neg (show ¬ ¬ RangePasses (s.setPort p (s.dispatched p 0x12 seq)).store.siteCount first.toNat last.toNat
    from hr)] at checks
  intro x hx ends shares considered may gone left
  have named : Port.ofCode who.toNat = some x := hx ▸ Port.ofCode_code x
  rw [named] at checks
  have body := checks.trans (releaseEntries_eq (considered := considered) (may := may)
    (fun e => considered_eq e x n _ _) fun e => mayRelease_setPort s p p x (s.dispatched p 0x12 seq) rfl e)
  exact ⟨_, exec_release p seq who first last s, permitted_outcome (needed := .field)
    (t := s.table.remove fun e => considered e && may e) h ha rfl body⟩
end

section
/-! SUPPORT. A site re-formed for the plan: what every re-form leaves of it, and what one makes of a site whose unit cannot
take commands (R145, R146). -/

namespace Sys2Proof.Machine

/-! ## A site re-formed for the plan (R146) -/

/-- What no re-form changes of a site: the images its sign showed and was sent. -/
structure DeliverySite.SameSign (d e : DeliverySite) : Prop where
  confirmed : e.confirmed = d.confirmed
  applied : e.applied = d.applied
  commanded : e.commanded = d.commanded

theorem DeliverySite.SameSign.trans {d e f : DeliverySite} (h : d.SameSign e) (g : e.SameSign f) : d.SameSign f :=
  ⟨g.confirmed.trans h.confirmed, g.applied.trans h.applied, g.commanded.trans h.commanded⟩

theorem DeliverySite.SameBut.sign {d e : DeliverySite} {k : PartKind} (h : d.SameBut k e) : d.SameSign e :=
  ⟨h.confirmed, h.applied, h.commanded⟩

theorem DeliverySite.Like.sign {d e : DeliverySite} (h : d.Like e) : d.SameSign e :=
  ⟨h.confirmed, h.applied, h.commanded⟩

theorem PartsOnly.silentSign {s t : State} (h : PartsOnly s t) (i : Nat) : t.silentSign i = s.silentSign i := by
  unfold State.silentSign
  rw [h.signState]

/-- The part of a kind abandoned, and the elements that leave with it (R146, R151, R152). -/
theorem DeliverySite.sameSign_abandon (d : DeliverySite) (k : PartKind) (p : Part) (w : Image) :
    d.SameSign { d.setPart k (some p) with wanted := w } :=
  ⟨setPart_confirmed d k _, setPart_applied d k _, setPart_commanded d k _⟩

/-- R146: one kind of part re-formed where the site's unit cannot take commands: but for a command that still serves, the
part is absent or given up, and the elements that call for it leave the wanted image. -/
theorem reformKind_silent (s : State) (i : Nat) (k : PartKind) (d : DeliverySite) (hd : s.site i = some d)
    (hs : s.silentSign i = true) :
    ∃ e, (s.reformKind i k).site i = some e ∧ d.SameSign e ∧
      (d.sentStays k (d.differing (s.store.elements i) k) = false → pendingPart (e.part k) = false ∧
        ∀ x, e.wanted.lookup x =
          if x ∈ d.differing (s.store.elements i) k then none else d.wanted.lookup x) := by
  have silent : decide (s.signState i = UnitState.lost ∨ s.signState i = UnitState.probing) = true := hs
  unfold State.reformKind
  rw [hd]
  dsimp only
  rw [if_pos (c := decide (s.signState i = UnitState.lost ∨ s.signState i = UnitState.probing) = true) silent]
  generalize d.differing (s.store.elements i) k = xs
  split
  case isTrue hx =>
    obtain ⟨e, he, hb, hp⟩ := withdrawKind_setPart s i k none d hd
    rw [List.isEmpty_iff.1 hx]
    exact ⟨e, he, hb.sign, fun _ => ⟨by rw [hp]; rfl, fun x => by rw [hb.wanted]; simp⟩⟩
  case isFalse hx =>
    split
    case isTrue hst =>
      refine ⟨_, by rw [modifySite_site, if_pos rfl, hd]; rfl, (d.sameBut_setPart k _).sign, fun h => ?_⟩
      rw [hst] at h
      cases h
    case isFalse hst =>
      obtain ⟨a, ha, hl⟩ : ∃ a, (s.withdrawKind i k).site i = some a ∧ d.Like a := by
        rcases (withdrawKind_site s i k d hd).1 with h | h
        · exact ⟨_, h, .refl d⟩
        · exact ⟨_, h, d.like_uncommand k⟩
      refine ⟨_, by rw [abandon_site, if_pos rfl, ha]; rfl, hl.sign.trans (a.sameSign_abandon k _ _), fun _ => ⟨?_, ?_⟩⟩
      · rw [part_withWanted, part_setPart, if_pos rfl]
        rfl
      · intro x
        rw [← hl.wanted]
        exact lookup_without a.wanted xs x

/-- R146: a re-form of one kind leaves what the sign showed and was sent. -/
theorem reformKind_sign (s : State) (i : Nat) (k : PartKind) (d : DeliverySite) (hd : s.site i = some d) :
    ∃ e, (s.reformKind i k).site i = some e ∧ d.SameSign e := by
  by_cases hs : s.silentSign i = true
  · obtain ⟨e, he, h, -⟩ := reformKind_silent s i k d hd hs
    exact ⟨e, he, h⟩
  · unfold State.silentSign at hs
    rw [decide_eq_true_iff, not_or] at hs
    obtain ⟨e, he, h, -⟩ := reformKind_at s i k d hd hs.1 hs.2
    exact ⟨e, he, h.sign⟩

/-- R145: an element that is wanted and does not differ is shown. -/
theorem wanted_settled_iff (d : DeliverySite) (x : ElemId) (v : ElemVal) :
    d.wanted.lookup x = some v ∧ ¬ d.Differs x ↔ d.wanted.lookup x = some v ∧ d.confirmed.lookup x = some v := by
  refine and_congr_right fun hw => ?_
  unfold DeliverySite.Differs
  rw [hw]
  simp

/-- R146: the elements taken out with a tightening part and then with a relaxing one are those that differ. -/
theorem wanted_without_differing {d a b : DeliverySite} {es : List ElemId} (hc : a.confirmed = d.confirmed)
    (ha : ∀ x, a.wanted.lookup x = if x ∈ d.differing es .tightening then none else d.wanted.lookup x)
    (hb : ∀ x, b.wanted.lookup x = if x ∈ a.differing es .relaxing then none else a.wanted.lookup x)
    {x : ElemId} (hx : x ∈ es) {v : ElemVal} :
    b.wanted.lookup x = some v ↔ d.wanted.lookup x = some v ∧ d.confirmed.lookup x = some v := by
  rw [← wanted_settled_iff, hb]
  by_cases tight : x ∈ d.differing es .tightening
  · have gone : a.wanted.lookup x = none := by rw [ha, if_pos tight]
    rw [gone, ite_self]
    exact iff_of_false nofun fun h => h.2 ((mem_differing ..).1 tight).2.1
  · have kept : a.wanted.lookup x = d.wanted.lookup x := by rw [ha, if_neg tight]
    have loose : ¬ d.Tightens x := fun h => tight ((mem_differing ..).2 ⟨hx, h⟩)
    have calls : a.Calls .relaxing x ↔ d.Differs x := by
      show a.Differs x ∧ ¬ a.Tightens x ↔ _
      unfold DeliverySite.Tightens DeliverySite.Differs at loose ⊢
      rw [kept, hc]
      exact and_iff_left loose
    rw [kept]
    by_cases differs : d.Differs x
    · rw [if_pos ((mem_differing ..).2 ⟨hx, calls.2 differs⟩)]
      exact iff_of_false nofun fun h => h.2 differs
    · rw [if_neg fun h => differs (calls.1 ((mem_differing ..).1 h).2)]
      exact (and_iff_left differs).symm

/-- R146: a part that is not SENT does not stay so. -/
theorem sentStays_unsent {d : DeliverySite} {k : PartKind} (h : ∀ p, d.part k = some p → p.state ≠ .sent)
    (es : List ElemId) : d.sentStays k es = false := by
  unfold DeliverySite.sentStays
  cases hp : d.part k with
  | none => rfl
  | some p => simp [h p hp]

section
variable {s : State} (hm : s.mode.delivers = true) (ht : s.delivery.target = .plan)
include hm ht

/-- R146: for the plan the kinds of part are tightening and relaxing. -/
theorem reform_plan (i : Nat) : s.reform i = (s.reformKind i .tightening).reformKind i .relaxing := by
  unfold State.reform
  rw [if_pos hm, ht]

theorem reform_sign (i : Nat) (d : DeliverySite) (hd : s.site i = some d) :
    ∃ e, (s.reform i).site i = some e ∧ d.SameSign e := by
  obtain ⟨a, ha, h⟩ := reformKind_sign s i .tightening d hd
  obtain ⟨b, hb, g⟩ := reformKind_sign _ i .relaxing a ha
  rw [reform_plan hm ht]
  exact ⟨b, hb, h.trans g⟩

/-- R146: a site without SENT parts whose unit cannot take commands wants, once re-formed, only what its sign already
shows. -/
theorem reform_silent (i : Nat) (r : SiteRecord) (d : DeliverySite) (hr : s.store.site i = some r)
    (hd : s.site i = some d) (hs : s.silentSign i = true) (hn : ∀ k p, d.part k = some p → p.state ≠ .sent) :
    ∃ e, (s.reform i).site i = some e ∧ pendingPart e.tightening = false ∧ pendingPart e.relaxing = false ∧
      ∀ x, r.Holds x → ∀ v,
        e.wanted.lookup x = some v ↔ d.wanted.lookup x = some v ∧ d.confirmed.lookup x = some v := by
  have elements : s.store.elements i = r.elements := by unfold Store.elements; rw [hr]
  have left := reformKind_parts s i .tightening
  obtain ⟨a, ha, asign, agone⟩ := reformKind_silent s i .tightening d hd hs
  obtain ⟨a', ha', aothers, -⟩ := reformKind_unqueued s i .tightening d hd
  cases ha.symm.trans ha'
  obtain ⟨b, hb, -, bgone⟩ := reformKind_silent _ i .relaxing a ha ((left.silentSign i).trans hs)
  obtain ⟨b', hb', bothers, -⟩ := reformKind_unqueued _ i .relaxing a ha
  cases hb.symm.trans hb'
  obtain ⟨apart, awanted⟩ := agone (sentStays_unsent (hn .tightening) _)
  obtain ⟨bpart, bwanted⟩ := bgone (sentStays_unsent (aothers .relaxing (by decide) ▸ hn .relaxing) _)
  rw [left.store, elements] at bwanted
  rw [elements] at awanted
  rw [reform_plan hm ht]
  refine ⟨b, hb, (congrArg pendingPart (bothers .tightening (by decide))).trans apart, bpart,
    fun x hx _ => wanted_without_differing asign.confirmed awanted bwanted ((mem_elements r x).2 hx)⟩

/-- R156: a re-form where the site's unit can take commands abandons nothing. -/
theorem reform_counts (i : Nat) (hs : s.silentSign i = false) :
    (s.reform i).delivery.abandoned = s.delivery.abandoned := by
  have modify (u : State) (f : DeliverySite → DeliverySite) :
      (u.modifySite i f).delivery.abandoned = u.delivery.abandoned := by
    unfold State.modifySite
    split <;> rfl
  have kind (u : State) (k : PartKind) (hu : u.silentSign i = false) :
      (u.reformKind i k).delivery.abandoned = u.delivery.abandoned := by
    have heard : ¬ decide (u.signState i = UnitState.lost ∨ u.signState i = UnitState.probing) = true :=
      Bool.eq_false_iff.1 hu
    unfold State.reformKind
    split
    · rfl
    · dsimp only
      rw [if_neg heard]
      repeat' split
      · exact (modify _ _).trans (withdrawKind_counts u i k).1
      · exact modify _ _
      · exact modify _ _
      · exact (modify _ _).trans (withdrawKind_counts u i k).1
  rw [reform_plan hm ht, kind _ _ (((reformKind_parts s i .tightening).silentSign i).trans hs), kind _ _ hs]

end
end Sys2Proof.Machine
end

section
/-! SUPPORT. What delivery makes of a published epoch: its sites re-formed, what may go released, and its completion (R143,
R146, R147, R155, R156). -/

namespace Sys2Proof.Machine

/-! ## Releases and completion for the plan (R147, R156) -/

/-- R146: a part that is only queued, or made WAITING again, is still the one the re-form left. -/
theorem Reformed.like {r : SiteRecord} {d e f : DeliverySite} {k : PartKind} (h : Reformed r d e k) (l : e.Like f) :
    Reformed r d f k := by
  have calls (x : ElemId) : f.Calls k x ↔ e.Calls k x := calls_congr l.wanted l.confirmed k x
  constructor
  · intro none
    exact l.absent k (h.absent fun x hx hc => none x hx ((calls x).2 hc))
  · rintro ⟨x, hx, hc⟩
    obtain ⟨p, hp, unresolved, elements, resends, first, sent⟩ := h.formed ⟨x, hx, (calls x).1 hc⟩
    obtain ⟨q, hq, pq⟩ := l.part k p hp
    refine ⟨q, hq, (unresolved_iff _).2 (pq.pending.trans ((unresolved_iff _).1 unresolved)), fun y => ?_,
      fun o ho ou => pq.resends.trans (resends o ho ou), fun hn => pq.resends.trans (first hn), fun hs => ?_⟩
    · rw [pq.elements, elements, calls]
    · rw [pq.elements, l.wanted]
      exact sent (pq.state.elim (fun same => same.symm.trans hs) And.left)

/-- R143, R146 and R155: what an epoch makes of a site stands once releases are judged. -/
theorem EpochTaken.like {s : State} {i : Nat} {r : SiteRecord} {x : PlanSite} {d e f : DeliverySite}
    (h : EpochTaken s i r x d e) (l : e.Like f) : EpochTaken s i r x d f where
  keeps := ⟨l.confirmed.trans h.keeps.1, l.applied.trans h.keeps.2.1, l.commanded.trans h.keeps.2.2⟩
  reached hs := by
    obtain ⟨wanted, tightening, relaxing⟩ := h.reached hs
    rw [l.wanted]
    exact ⟨wanted, tightening.like l, relaxing.like l⟩
  unreached hs hn := by
    obtain ⟨wanted, tightening, relaxing⟩ := h.unreached hs hn
    have resolved (k : PartKind) : Unresolved (f.part k) ↔ Unresolved (e.part k) := by
      rw [unresolved_iff, unresolved_iff, l.pendingPart]
    rw [l.wanted]
    exact ⟨wanted, fun hu => tightening ((resolved .tightening).1 hu), fun hu => relaxing ((resolved .relaxing).1 hu)⟩

/-- Releases depend on the sites' records alone. -/
theorem Released.of_sites {s t : State} (h : Released s) (hs : ∀ i, t.site i = s.site i) : Released t := by
  have pends (i : Nat) (k : PartKind) : t.Pends i k ↔ s.Pends i k := by unfold State.Pends; rw [hs]
  have release (i : Nat) (k : PartKind) : t.MayRelease i k ↔ s.MayRelease i k := by
    cases k <;> simp only [State.MayRelease, pends]
  intro i k d p hd hp hw hf hm
  exact h i k d p (hs i ▸ hd) hp hw hf ((release i k).1 hm)

/-- A delivery DONE, with its notice at every port (R156). -/
def State.concluded (s : State) : State := { s with delivery := s.delivery.complete }.notifyAll .delivered

@[simp] theorem concluded_delivery (s : State) : s.concluded.delivery = s.delivery.complete := rfl
@[simp] theorem concluded_port (s : State) (q : Port) : s.concluded.port q = (s.port q).raise .delivered :=
  State.notifyAll_port ..
theorem concluded_frame (s : State) :
    s.concluded = { s with ports := s.concluded.ports, delivery := s.delivery.complete } := rfl

@[simp] theorem Delivery.complete_state (d : Delivery) : d.complete.state = .done := rfl
@[simp] theorem Delivery.complete_epoch (d : Delivery) : d.complete.epoch = d.epoch := rfl
@[simp] theorem Delivery.complete_abandoned (d : Delivery) : d.complete.abandoned = d.abandoned := rfl
@[simp] theorem Delivery.complete_completion (d : Delivery) :
    d.complete.completion = some ⟨d.target, d.epoch, d.abandoned⟩ := rfl
@[simp] theorem Delivery.complete_busy (d : Delivery) : d.complete.Busy ↔ d.Busy := Iff.rfl

/-- R156: a completion judged for the plan: nothing, or the delivery DONE with its record and its notice. -/
theorem judgeCompletion_cases (s : State) (ht : s.delivery.target = .plan) :
    s.judgeCompletion = s ∧ (s.delivery.state = .delivering → s.delivery.Busy) ∨
      ¬ s.delivery.Busy ∧ s.judgeCompletion = s.concluded := by
  rw [busy_iff]
  unfold State.judgeCompletion
  split
  case isTrue h =>
    rw [ht]
    exact Or.inr ⟨by simp_all, rfl⟩
  case isFalse h => exact Or.inl ⟨rfl, by simpa using h⟩

/-! ## An epoch taken (R155) -/

/-- The state in which the sites are re-formed for the plan's epoch in LIVE. -/
def State.towardPlan (s : State) : State :=
  { s.wantPlan with delivery :=
      { s.wantPlan.delivery with epoch := s.evaluator.epoch, abandoned := 0, state := .delivering } }

/-- The sites re-formed for the plan's epoch, and what may go released. -/
def State.planFormed (s : State) : State := (s.towardPlan.forSites fun i st => st.reform i).judgeReleases

theorem towardPlan_site (s : State) (i : Nat) : s.towardPlan.site i =
    (s.site i).map fun d => { d with wanted := (planSite s.evaluator.plan i).wanted } :=
  mapSites_site s _ i

theorem planFormed_parts (s : State) : PartsOnly s.towardPlan s.planFormed :=
  (forSites_parts _ _ fun i t => reform_parts t i).trans (judgeReleases_parts _)

/-- Before completion is judged delivery and the SET queues alone have changed. -/
theorem planFormed_frame (s : State) :
    s.planFormed = { s with delivery := s.planFormed.delivery, lines := s.planFormed.lines } := by
  have start : s.towardPlan = { s with delivery := s.towardPlan.delivery } := rfl
  have parts := (planFormed_parts s).eq
  rw [start] at parts
  exact parts

theorem planFormed_port (s : State) (q : Port) : s.planFormed.port q = s.port q := by
  rw [planFormed_frame]
  rfl

theorem planFormed_target (s : State) : s.planFormed.delivery.target = s.delivery.target :=
  (planFormed_parts s).target

theorem planFormed_epoch (s : State) : s.planFormed.delivery.epoch = s.evaluator.epoch := by
  rw [(planFormed_parts s).delivery]
  rfl

theorem takeEpoch_dark (s : State) (ht : s.delivery.target = .dark) : s.takeEpoch = s := by
  unfold State.takeEpoch
  rw [ht]

theorem takeEpoch_live (s : State) (ht : s.delivery.target = .plan) (hm : s.mode = .live) :
    s.takeEpoch = s.planFormed.judgeCompletion := by
  unfold State.takeEpoch
  simp only [ht, hm, if_true]
  rfl

/-- R155: out of LIVE the wanted images alone move. -/
theorem takeEpoch_wanted (s : State) (ht : s.delivery.target = .plan) (hm : s.mode ≠ .live) :
    s.takeEpoch = { s.wantPlan with delivery :=
      { s.wantPlan.delivery with epoch := s.evaluator.epoch, abandoned := 0 } } := by
  unfold State.takeEpoch
  simp only [ht]
  exact if_neg hm

/-- The epoch in LIVE: what it forms and releases, and, where nothing is left to deliver, the delivery DONE. -/
theorem takeEpoch_live_cases (s : State) (ht : s.delivery.target = .plan) (hm : s.mode = .live) :
    s.takeEpoch = s.planFormed ∧ s.planFormed.delivery.Busy ∨ ¬ s.planFormed.delivery.Busy ∧
      s.takeEpoch = s.planFormed.concluded := by
  have parts := planFormed_parts s
  rw [takeEpoch_live s ht hm]
  exact (judgeCompletion_cases _ (parts.target.trans ht)).imp_left fun h => ⟨h.1, h.2 parts.state⟩

/-- An epoch taken changes delivery, the SET queues and the ports' flags alone. -/
theorem takeEpoch_frame (s : State) : s.takeEpoch =
    { s with ports := s.takeEpoch.ports, delivery := s.takeEpoch.delivery, lines := s.takeEpoch.lines } := by
  cases ht : s.delivery.target with
  | dark => rw [takeEpoch_dark s ht]
  | plan =>
    by_cases hm : s.mode = .live
    · rcases takeEpoch_live_cases s ht hm with ⟨h, -⟩ | ⟨-, h⟩
      · rw [h, planFormed_frame]
      · rw [h, concluded_frame, planFormed_frame]
    · rw [takeEpoch_wanted s ht hm]
      rfl

theorem takeEpoch_evaluator (s : State) : s.takeEpoch.evaluator = s.evaluator := by
  rw [takeEpoch_frame]

/-- An epoch taken clears no flag. -/
theorem takeEpoch_flag (s : State) (q : Port) (n : Notice) (h : (s.port q).flags &&& n.flag = n.flag) :
    (s.takeEpoch.port q).flags &&& n.flag = n.flag := by
  cases ht : s.delivery.target with
  | dark =>
    rw [takeEpoch_dark s ht]
    exact h
  | plan =>
    by_cases hm : s.mode = .live
    · rcases takeEpoch_live_cases s ht hm with ⟨e, -⟩ | ⟨-, e⟩
      · rw [e, planFormed_port]
        exact h
      · rw [e, concluded_port, planFormed_port]
        exact PortRec.raise_keeps _ _ _ h
    · rw [takeEpoch_wanted s ht hm]
      exact h

/-- R155: the epoch taken is the plan's. -/
theorem takeEpoch_epoch (s : State) (ht : s.delivery.target = .plan) :
    s.takeEpoch.delivery.epoch = s.evaluator.epoch := by
  by_cases hm : s.mode = .live
  · rcases takeEpoch_live_cases s ht hm with ⟨h, -⟩ | ⟨-, h⟩
    · rw [h, planFormed_epoch]
    · rw [h, concluded_delivery, Delivery.complete_epoch, planFormed_epoch]
  · rw [takeEpoch_wanted s ht hm]

section
variable (s : State) (ht : s.delivery.target = .plan) (hm : s.mode = .live)
include ht hm

theorem takeEpoch_site (i : Nat) : s.takeEpoch.site i = s.planFormed.site i := by
  rw [takeEpoch_live s ht hm]
  exact (judgeCompletion_plan _ ((planFormed_parts s).target.trans ht)).1 i

/-- R147: what may go is released. -/
theorem takeEpoch_released : Released s.takeEpoch :=
  (judgeReleases_released _).of_sites (takeEpoch_site s ht hm)

/-- R156: the delivery of an epoch goes on, or is DONE with its record and its notice. -/
theorem takeEpoch_completion :
    s.takeEpoch.delivery.state = .delivering ∧ s.takeEpoch.delivery.Busy ∨
    s.takeEpoch.delivery.state = .done ∧ ¬ s.takeEpoch.delivery.Busy ∧
      s.takeEpoch.delivery.completion =
        some ⟨.plan, s.takeEpoch.delivery.epoch, s.takeEpoch.delivery.abandoned⟩ ∧
      ∀ q, (s.port q).authority ≠ .disabled → (s.takeEpoch.port q).flags &&& 0x02 = 0x02 := by
  rcases takeEpoch_live_cases s ht hm with ⟨h, busy⟩ | ⟨idle, h⟩
  · rw [h]
    exact Or.inl ⟨(planFormed_parts s).state, busy⟩
  · refine Or.inr ?_
    rw [h, concluded_delivery, Delivery.complete_busy, Delivery.complete_completion, Delivery.complete_epoch,
      Delivery.complete_abandoned, planFormed_target, ht]
    refine ⟨rfl, idle, rfl, fun q hq => ?_⟩
    have raised := PortRec.raise_flag (s.port q) .delivered ((PortRec.enabled_iff _).2 hq)
    rw [concluded_port, planFormed_port]
    exact raised

/-- R156: where every sign's unit can take commands an epoch abandons nothing. -/
theorem takeEpoch_abandons_none (hs : ∀ i < s.delivery.sites.length, s.Reaches i) :
    s.takeEpoch.delivery.abandoned = 0 := by
  have heard (i : Nat) (hi : i < s.delivery.sites.length) : s.silentSign i = false := by
    rw [← Bool.not_eq_true, silentSign_iff]
    exact not_not.2 (hs i hi)
  have loop (xs : List Nat) (hx : ∀ i ∈ xs, i < s.delivery.sites.length) (u : State) (hu : PartsOnly s.towardPlan u) :
      (xs.foldl (fun st i => st.reform i) u).delivery.abandoned = u.delivery.abandoned := by
    induction xs generalizing u with
    | nil => rfl
    | cons i xs ih =>
      have mode : u.mode.delivers = true := by rw [hu.mode]; exact congrArg Mode.delivers hm
      have silent : u.silentSign i = false := (hu.silentSign i).trans (heard i (hx i (List.mem_cons_self ..)))
      exact (ih (fun j hj => hx j (List.mem_cons_of_mem _ hj)) _ (hu.trans (reform_parts u i))).trans
        (reform_counts mode (hu.target.trans ht) i silent)
  have sites : s.towardPlan.delivery.sites.length = s.delivery.sites.length := List.length_mapIdx
  have formed : s.planFormed.delivery.abandoned = 0 := by
    unfold State.planFormed State.forSites
    rw [(judgeReleases_counts _).1, sites, loop _ (fun i hi => List.mem_range.1 hi) _ (.refl _)]
    rfl
  rcases takeEpoch_live_cases s ht hm with ⟨h, -⟩ | ⟨-, h⟩
  · rw [h, formed]
  · rw [h, concluded_delivery, Delivery.complete_abandoned, formed]

/-- R143, R146 and R155: what an epoch taken in LIVE makes of a site. -/
theorem takeEpoch_taken (i : Nat) (r : SiteRecord) (d : DeliverySite) (hr : s.store.site i = some r)
    (hd : s.site i = some d)
    (hw : ∀ e v, (planSite s.evaluator.plan i).wanted.lookup e = some v ↔ (planSite s.evaluator.plan i).Shows e v) :
    ∃ e, s.takeEpoch.site i = some e ∧ EpochTaken s i r (planSite s.evaluator.plan i) d e := by
  have start := (towardPlan_site s i).trans (congrArg _ hd)
  obtain ⟨a, before, after⟩ := forSites_at s.towardPlan (fun i st => st.reform i) i
    (fun j t h => reform_untouched t i j h) (site_some_lt start)
  have mode : a.mode.delivers = true := by rw [before.parts.mode]; exact congrArg Mode.delivers hm
  have target : a.delivery.target = .plan := before.parts.target.trans ht
  have store : a.store.site i = some r := by rw [before.parts.store]; exact hr
  have site := before.site.trans start
  have silent : a.silentSign i = s.silentSign i := before.parts.silentSign i
  obtain ⟨e, he, same⟩ := reform_sign mode target i _ site
  have taken : EpochTaken s i r (planSite s.evaluator.plan i) d e := by
    refine ⟨⟨same.confirmed, same.applied, same.commanded⟩, fun reached => ?_, fun unreached hn => ?_⟩
    · have heard : ¬ a.silentSign i = true := by rw [silent, silentSign_iff]; exact not_not.2 reached
      unfold State.silentSign at heard
      rw [decide_eq_true_iff, not_or] at heard
      obtain ⟨e', he', wanted, -, -, -, -, tightening, relaxing⟩ :=
        reform_reformed a i r _ mode target store site heard.1 heard.2
      cases he.symm.trans he'
      rw [wanted]
      exact ⟨hw, ⟨tightening.absent, tightening.formed⟩, ⟨relaxing.absent, relaxing.formed⟩⟩
    · obtain ⟨e', he', tightening, relaxing, wanted⟩ := reform_silent mode target i r _ store site
        (silent.trans ((silentSign_iff s i).2 unreached)) fun k p hp => hn k p (by rwa [part_withWanted] at hp)
      cases he.symm.trans he'
      refine ⟨fun x hx v => (wanted x hx v).trans (and_congr_left' (hw x v)), ?_, ?_⟩
      · rw [unresolved_iff, tightening]; exact Bool.false_ne_true
      · rw [unresolved_iff, relaxing]; exact Bool.false_ne_true
  obtain ⟨f, hf, like, -⟩ := judgeReleases_at _ i e (after.site.trans he)
  exact ⟨f, (takeEpoch_site s ht hm i).trans hf, taken.like like⟩

end

/-- R143 and R155: out of LIVE a site's wanted image is the plan's. -/
theorem takeEpoch_wanted_site (s : State) (ht : s.delivery.target = .plan) (hm : s.mode ≠ .live) (i : Nat) :
    s.takeEpoch.site i = (s.site i).map fun d => { d with wanted := (planSite s.evaluator.plan i).wanted } := by
  rw [takeEpoch_wanted s ht hm]
  exact mapSites_site s _ i

end Sys2Proof.Machine
end

section
/-! SUPPORT. The events of the plan evaluator: a hold deadline noticed, a pass started (R59, R62), and at the end of a pass
its plan published or its reports taken into the current one (R56, R60, R61). -/

namespace Sys2Proof.Machine

/-! ## Hold deadlines and the start of a pass (R59, R62) -/

theorem holdDue_iff (e : Evaluator) (now : Nat) :
    e.holdDue now = true ↔ ∃ x ∈ e.plan, ∃ d ∈ x.deadlines, e.holdSeen < d ∧ d ≤ now := by
  unfold Evaluator.holdDue
  simp only [List.any_eq_true, List.mem_flatMap, decide_eq_true_eq]
  exact ⟨fun ⟨d, ⟨x, hx, hd⟩, h⟩ => ⟨x, hx, d, hd, h⟩, fun ⟨x, hx, d, hd, h⟩ => ⟨d, ⟨x, hx, hd⟩, h⟩⟩

theorem passDue_iff (s : State) : s.passDue = true ↔
    s.evaluator.running = none ∧ s.evaluator.pending = true ∧ s.mode ≠ .unconfigured := by
  unfold State.passDue
  rw [Bool.and_eq_true, Bool.and_eq_true, Option.isNone_iff_eq_none, decide_eq_true_eq, and_assoc]

/-! ## Publication (R56, R60) -/

/-- The plan published, before delivery takes its epoch (R56). -/
def State.published (s : State) (plan : List PlanSite) : State :=
  { s with evaluator :=
    { s.evaluator with running := none, plan := plan, epoch := nextEpoch s.evaluator.epoch } }.notifyAll .plan

theorem published_port (s : State) (plan : List PlanSite) (q : Port) :
    (s.published plan).port q = (s.port q).raise .plan := PerPort.get_map ..

theorem nextEpoch_eq (n : Nat) : nextEpoch n = if n < 65535 then n + 1 else 1 := by
  unfold nextEpoch Config.counterMax
  split <;> split <;> omega

theorem published_authority (s : State) (plan : List PlanSite) (q : Port) :
    ((s.published plan).port q).authority = (s.port q).authority := by
  rw [published_port, PortRec.raise_authority]

theorem published_evaluator (s : State) (plan : List PlanSite) : (s.published plan).evaluator = { s.evaluator with
    running := none
    plan := plan
    epoch := if s.evaluator.epoch < 65535 then s.evaluator.epoch + 1 else 1 } := by
  rw [← nextEpoch_eq]
  rfl

theorem published_handing (s : State) (plan : List PlanSite) :
    Handing { s with evaluator := (s.published plan).evaluator } (s.published plan).takeEpoch :=
  (notifyAll_handing _ .plan).trans (takeEpoch_handing _)

theorem endPass_overtaken (s : State) (x : Pass) (h : x.overtaken = true) :
    s.endPass x = { s with evaluator := { s.evaluator with running := none } } := if_pos h

theorem endPass_published (s : State) (x : Pass) (h : x.overtaken = false)
    (hd : PlansDiffer s.evaluator.plan (runPass s.store x)) :
    s.endPass x = (s.published (runPass s.store x)).takeEpoch :=
  (if_neg (Bool.eq_false_iff.1 h)).trans (if_pos ((plansDiffer_iff _ _).2 hd))

theorem endPass_kept (s : State) (x : Pass) (h : x.overtaken = false)
    (hd : ¬ PlansDiffer s.evaluator.plan (runPass s.store x)) :
    s.endPass x = { s with evaluator :=
      { s.evaluator with running := none, plan := (s.evaluator.keepPlan (runPass s.store x)).plan } } :=
  (if_neg (Bool.eq_false_iff.1 h)).trans (if_neg fun hp => hd ((plansDiffer_iff _ _).1 hp))

theorem exec_passEnd (s : State) (x : Pass) (h : s.evaluator.running = some x) :
    exec .passEnd s = .next (s.endPass x) := by
  show execPassEnd s = _
  unfold execPassEnd
  rw [h]

/-! ## A pass that publishes nothing (R56) -/

theorem takeReports_visible (x y : PlanSite) : (takeReports x y).visible = x.visible := by
  unfold takeReports PlanSite.visible
  simp [Option.map_map, List.map_map, Function.comp_def]

theorem takeReports_deadlines (x y : PlanSite) : (takeReports x y).deadlines = x.deadlines := by
  unfold takeReports PlanSite.deadlines
  simp [Option.bind_map, List.filterMap_map]

/-- What the reports do not touch of a record stands throughout the plan. -/
theorem keepPlan_map {β : Type} (f : PlanSite → β) (hf : ∀ x y, f (takeReports x y) = f x) (e : Evaluator)
    (plan : List PlanSite) : (e.keepPlan plan).plan.map f = e.plan.map f := by
  refine List.ext_getElem (by simp [Evaluator.keepPlan]) fun i _ _ => ?_
  simp [Evaluator.keepPlan, hf]

theorem keepPlan_site (e : Evaluator) (plan : List PlanSite) (i : Nat) (hi : i < e.plan.length) :
    planSite (e.keepPlan plan).plan i = takeReports (planSite e.plan i) (planSite plan i) := by
  simp [Evaluator.keepPlan, planSite, hi]

/-- R56: its reports make no plan differ. -/
theorem keepPlan_same (e : Evaluator) (plan : List PlanSite) : ¬ PlansDiffer (e.keepPlan plan).plan e.plan := by
  rw [← plansDiffer_iff]
  unfold plansDiffer
  rw [decide_eq_true_iff, not_not]
  exact keepPlan_map _ takeReports_visible e plan

end Sys2Proof.Machine

open Sys2Proof Sys2Proof.Machine

/-- Settles O43: the pass's plan is published and delivery takes its epoch, or its reports alone are taken. -/
theorem passEndPublishesDifferingPlan : Obligations.PassEndPublishesDifferingPlan := by
  intro x s hx plan
  have ends := exec_passEnd s x hx
  refine ⟨fun hw => runPass_rules s.store hw x, fun ho => ?_, fun ho hd => ?_, fun ho hd => ?_⟩
  · rw [ends, endPass_overtaken s x ho]
  · have published : exec .passEnd s = .next (s.published plan).takeEpoch :=
      ends.trans (congrArg _ (endPass_published s x ho hd))
    have evaluator := takeEpoch_evaluator (s.published plan)
    have handing := published_handing s plan
    have shown (hw : s.store.Whole) (i : Nat) := wanted_iff (planSite plan i) (runPass_names_once s.store hw x i)
    refine ⟨_, published, evaluator.trans (published_evaluator s plan), fun ht => ?_, fun ht => ?_, handing.queues,
      fun ht hm hw => ⟨takeEpoch_released (s.published plan) ht hm, ?_,
        takeEpoch_abandons_none (s.published plan) ht hm, fun i _ r hr d hd => ?_⟩,
      fun ht hm => ?_, ?_, fun q => ⟨handing.side.ports q, fun hq => ?_, fun hq => ?_⟩⟩
    · rw [takeEpoch_epoch (s.published plan) ht, evaluator]
    · rw [takeEpoch_dark (s.published plan) ht]
      exact ⟨rfl, rfl⟩
    · have done := takeEpoch_completion (s.published plan) ht hm
      simp only [published_authority] at done
      exact done
    · obtain ⟨e, he, taken⟩ := takeEpoch_taken (s.published plan) ht hm i r d hr hd (shown hw i)
      exact ⟨e, he, ⟨taken.keeps, taken.reached, taken.unreached⟩, fun dark k p hp hq hu =>
        takeEpoch_waits (s.published plan) ht hm i d e hd dark he k p hp hq hu⟩
    · have site := takeEpoch_wanted_site (s.published plan) ht hm
      rw [takeEpoch_wanted (s.published plan) ht hm] at site ⊢
      exact ⟨rfl, rfl, fun i d hd => ⟨_, (site i).trans (congrArg _ hd), rfl, fun hw => shown hw i⟩⟩
    · rw [evaluator]
      exact takeEpoch_frame (s.published plan)
    · exact handing.side.disabled q (decide_eq_false (not_not.2 hq))
    · refine takeEpoch_flag (s.published plan) q .plan ?_
      rw [published_port]
      exact PortRec.raise_flag _ _ ((PortRec.enabled_iff _).2 hq)
  · have kept := ends.trans (congrArg _ (endPass_kept s x ho hd))
    refine ⟨_, kept, rfl, keepPlan_same s.evaluator plan, keepPlan_map _ takeReports_deadlines .., fun i hi => ?_⟩
    show ReportsTaken _ _ (planSite (s.evaluator.keepPlan plan).plan i)
    rw [keepPlan_site _ _ i hi]
    exact takeReports_taken _ _

/-- Settles O42: deadlines that ran out are noticed once, and a pass starts on the inputs where one is due. -/
theorem holdExpiryAndPassStart : Obligations.HoldExpiryAndPassStart := by
  intro s
  refine ⟨fun h => ?_, fun running pending mode => ?_, fun h => ?_⟩
  · exact congrArg Host.Outcome.next (if_pos ((holdDue_iff _ _).2 h))
  · exact congrArg Host.Outcome.next (if_pos ((passDue_iff s).2 ⟨running, pending, mode⟩))
  · refine congrArg Host.Outcome.next (if_neg fun due => ?_)
    obtain ⟨running, pending, mode⟩ := (passDue_iff s).1 due
    rcases h with h | h | h
    · simp [running] at h
    · simp [pending] at h
    · exact mode h
end

section
/-! SUPPORT. READ_PLAN: the sites a range lists, its clamp, and the payload of R176 (R21, R23, R82). -/

namespace Sys2Proof.Machine

/-! ## READ_PLAN (R82, R176) -/

theorem lanePlaceBytes_length (now : Nat) (x : Option LaneElem) : (lanePlaceBytes now x).length = 4 := by
  cases x <;> rfl

theorem shownBytes_length {α : Type} (now : Nat) (code : α → Byte) (x : Option (PlanElem α)) :
    (shownBytes now code x).length = 4 := by
  cases x <;> rfl

/-- R176: a READ_PLAN record takes 34 bytes. -/
theorem planRecordBytes_length (s : State) (i : Nat) : (planRecordBytes s i).length = 34 := by
  unfold planRecordBytes
  simp only [List.length_append, List.length_cons, List.length_nil, List.length_flatMap, lanePlaceBytes_length,
    shownBytes_length]
  rfl

/-- The payload of a READ_PLAN as R176 lays it out. -/
theorem planBytes_eq (s : State) (sites : List Nat) : s.planBytes sites = be16 s.evaluator.epoch ++
    [yes s.evaluator.running.isSome, yes s.evaluator.pending, orFF sites.head?, orFF sites.getLast?] ++
    sites.flatMap (planRecordBytes s) := by
  unfold State.planBytes firstLast
  rw [optByte_eq, optByte_eq, funext (planRecord_eq s), List.append_assoc (be16 s.evaluator.epoch)]
  rfl

theorem planPayload_length (s : State) (head : List Byte) (sites : List Nat) :
    (be16 s.evaluator.epoch ++ head ++ sites.flatMap (planRecordBytes s)).length =
      2 + head.length + 34 * sites.length := by
  rw [List.length_append, List.length_append, List.length_flatMap,
    List.map_congr_left fun i _ => planRecordBytes_length s i, List.map_const', List.sum_replicate, smul_eq_mul,
    Nat.mul_comm]
  rfl

/-- R23: a range that passes is clamped where its end lies from N to 31. -/
theorem clampReason_last {n first last : Nat} (h : RangePasses n first last) :
    clampReason (decide (clampLast n last ≠ last)) = if n ≤ last ∧ last ≤ 31 then .clamped else .ok := by
  have moved : clampLast n last ≠ last ↔ n ≤ last ∧ last ≤ 31 := by
    rw [clampLast_eq]
    unfold rangeEnd
    split <;> omega
  unfold clampReason
  simp only [moved, decide_eq_true_eq]

/-- R21 and R82: the sites a range that passes lists, and EXIT where it reaches 32. -/
theorem planSites_eq {n first last : Nat} (h : RangePasses n first last) : planSites n first (clampLast n last) =
    ((List.range n).filter fun i => decide (first ≤ i ∧ i ≤ rangeEnd n last)) ++ if last = 32 then [32] else [] := by
  have exit : (first ≤ Config.exitIndex ∧ Config.exitIndex ≤ rangeEnd n last) ↔ last = 32 := by
    unfold Config.exitIndex rangeEnd
    split <;> omega
  unfold planSites
  rw [clampLast_eq]
  simp only [exit]
  rfl

theorem exec_readPlan (p : Port) (seq first last : Byte) (s : State) : exec (.readPlan p seq [first, last]) s =
    .next (s.takeFrame p 0x03 seq (judged p .monitor true (readPlanBody first.toNat last.toNat))) := rfl

section
variable {s : State} {first last : Nat}

theorem readPlanBody_unconfigured (h : s.mode = .unconfigured) :
    readPlanBody first last s = (s, some (.ok, s.planBytes [])) := if_pos h

theorem readPlanBody_badRange (h : s.mode ≠ .unconfigured) (hr : ¬ RangePasses s.store.siteCount first last) :
    readPlanBody first last s = (s, some (.badRange, [])) :=
  (if_neg h).trans (if_pos (by rw [Bool.not_eq_true', ← Bool.not_eq_true, rangeGood_iff]; exact hr))

theorem readPlanBody_lists (h : s.mode ≠ .unconfigured) (hr : RangePasses s.store.siteCount first last) :
    readPlanBody first last s = (s, some (if s.store.siteCount ≤ last ∧ last ≤ 31 then .clamped else .ok,
      s.planBytes ((((List.range s.store.siteCount).filter fun i =>
        decide (first ≤ i ∧ i ≤ rangeEnd s.store.siteCount last)) ++ if last = 32 then [32] else []).take 6))) := by
  rw [← planSites_eq hr, ← clampReason_last hr]
  exact (if_neg h).trans (if_neg (by rw [(rangeGood_iff _ _ _).2 hr]; decide))

end
end Sys2Proof.Machine

open Sys2Proof Sys2Proof.Machine

/-- Settles O21: a READ_PLAN is answered by its range, and changes nothing. -/
theorem readPlanListsRange : Obligations.ReadPlanListsRange := by
  intro p seq first last s h n ends listed payload
  have replies {reason : Reason} {bytes : List Byte}
      (hb : readPlanBody first.toNat last.toNat (s.setPort p (s.dispatched p 0x03 seq)) =
        (s.setPort p (s.dispatched p 0x03 seq), some (reason, bytes))) :
      exec (.readPlan p seq [first, last]) s = .next (s.setPort p (s.answered p 0x03 seq (reason, bytes))) :=
    (exec_readPlan p seq first last s).trans (congrArg _ (permitted_refused h (monitor_le h) hb))
  have laidOut (sites : List Nat) : s.planBytes sites = payload sites := planBytes_eq s sites
  refine ⟨fun hm => ?_, fun hm bad => ?_, fun hm inside order start => ?_, fun sites => planPayload_length s _ sites⟩
  · rw [← laidOut]
    exact replies (readPlanBody_unconfigured hm)
  · have fails : ¬ RangePasses s.store.siteCount first.toNat last.toNat := by
      rintro ⟨inside, order, start⟩
      omega
    exact replies (readPlanBody_badRange hm fails)
  · rw [← laidOut]
    exact replies (readPlanBody_lists hm ⟨inside, order, start⟩)
end

section
/-! SUPPORT. READ_UNITS and READ_STATIONS: the checked range, and the payloads of R176 (R107, R141). -/

namespace Sys2Proof.Machine

/-! ## The range of a read (R107, R141) -/

/-- Outside UNCONFIGURED a range that is out of order or ends above the last index is refused. -/
theorem spanRefused_iff (s : State) (greatest first last : Nat) :
    (decide (s.mode ≠ .unconfigured) && !spanGood greatest first last) = true ↔
      s.mode ≠ .unconfigured ∧ (last < first ∨ greatest < last) := by
  have bad : ¬ (first ≤ last ∧ last ≤ greatest) ↔ last < first ∨ greatest < last := by omega
  simp only [spanGood, Bool.and_eq_true, decide_eq_true_eq, Bool.not_eq_true', decide_eq_false_iff_not, bad]

theorem exec_readUnits (p : Port) (seq first last : Byte) (s : State) : exec (.readUnits p seq [first, last]) s =
    .next (s.takeFrame p 0x05 seq (judged p .monitor true (readUnitsBody first.toNat last.toNat))) := rfl

theorem exec_readStations (p : Port) (seq first last : Byte) (s : State) :
    exec (.readStations p seq [first, last]) s =
      .next (s.takeFrame p 0x06 seq (judged p .monitor true (readStationsBody first.toNat last.toNat))) := rfl

section
variable {s : State} {first last : Nat}

theorem readUnitsBody_badRange (hm : s.mode ≠ .unconfigured) (bad : last < first ∨ 47 < last) :
    readUnitsBody first last s = (s, some (.badRange, [])) := if_pos ((spanRefused_iff s _ _ _).2 ⟨hm, bad⟩)

theorem readStationsBody_badRange (hm : s.mode ≠ .unconfigured) (bad : last < first ∨ 15 < last) :
    readStationsBody first last s = (s, some (.badRange, [])) := if_pos ((spanRefused_iff s _ _ _).2 ⟨hm, bad⟩)

/-- A range that needs no check, or passes it, is not refused. -/
theorem not_spanRefused {greatest : Nat} (h : s.mode = .unconfigured ∨ first ≤ last ∧ last ≤ greatest) :
    ¬ (decide (s.mode ≠ .unconfigured) && !spanGood greatest first last) = true := by
  rw [spanRefused_iff]
  rintro ⟨hm, bad⟩
  rcases h with h | ⟨order, inside⟩
  · exact hm h
  · omega

theorem readUnitsBody_lists (h : s.mode = .unconfigured ∨ first ≤ last ∧ last ≤ 47) :
    readUnitsBody first last s = (s, some (.ok, s.unitBytes first last)) := if_neg (not_spanRefused h)

theorem readStationsBody_lists (h : s.mode = .unconfigured ∨ first ≤ last ∧ last ≤ 15) :
    readStationsBody first last s = (s, some (.ok, s.stationBytes first last)) := if_neg (not_spanRefused h)

end

/-! ## Records and payloads (R176) -/

/-- Records of one length after a head. -/
theorem length_append_flatMap {α : Type} (head : List Byte) (xs : List α) (f : α → List Byte) (n : Nat)
    (h : ∀ x ∈ xs, (f x).length = n) : (head ++ xs.flatMap f).length = head.length + n * xs.length := by
  rw [List.length_append, List.length_flatMap, List.map_congr_left h, List.map_const', List.sum_replicate, smul_eq_mul,
    Nat.mul_comm]

theorem elementPlaceBytes_length (u : UnitRec) (e : ElemId) : (elementPlaceBytes u e).length = 2 := by
  unfold elementPlaceBytes
  split <;> rfl

/-- R176: a READ_UNITS record takes 30 bytes. -/
theorem unitRecordBytes_length (u : UnitRec) (slot : Nat) : (unitRecordBytes u slot).length = 30 := by
  unfold unitRecordBytes
  cases u.owner <;> simp only [List.length_append, List.length_flatMap, elementPlaceBytes_length] <;> rfl

/-- R176: a READ_STATIONS record takes 51 bytes. -/
theorem stationRecordBytes_length (s : State) (x : Station) : (stationRecordBytes s x).length = 51 := by
  unfold stationRecordBytes
  refine (length_append_flatMap _ _ _ 5 fun j _ => ?_).trans ?_
  · split <;> rfl
  · cases s.table.inSlot (48 + x.slot) <;> rfl

/-- The payload of a READ_UNITS as R176 lays it out. -/
theorem unitsPayload_eq (s : State) (first last : Nat) :
    let listed := ((List.range s.units.length).filter fun i => decide (first ≤ i ∧ i ≤ last)).take 7
    s.unitBytes first last = [orFF listed.head?, orFF listed.getLast?] ++
      listed.flatMap fun i => ((s.unit i).map fun u => unitRecordBytes u i).getD [] := by
  unfold State.unitBytes firstLast
  simp only [optByte_eq, unitBytes_eq]

/-- The payload of a READ_STATIONS as R176 lays it out. -/
theorem stationsPayload_eq (s : State) (first last : Nat) :
    let listed := (s.stations.filter fun x => decide (first ≤ x.slot ∧ x.slot ≤ last)).take 4
    s.stationBytes first last = [orFF (listed.head?.map (·.slot)), orFF (listed.getLast?.map (·.slot))] ++
      listed.flatMap (stationRecordBytes s) := by
  unfold State.stationBytes firstLast
  simp only [optByte_eq, List.head?_map, List.getLast?_map, funext (stationRecord_eq s)]

/-- Every slot of the unit list has its record. -/
theorem unitPlace_length (s : State) (i : Nat) (h : i < s.units.length) :
    (((s.unit i).map fun u => unitRecordBytes u i).getD []).length = 30 := by
  rw [show s.unit i = some s.units[i] from List.getElem?_eq_getElem h]
  exact unitRecordBytes_length _ _

end Sys2Proof.Machine

open Sys2Proof Sys2Proof.Machine

/-- Settles O23: both reads are answered by their range, and the records listed are of one length each. -/
theorem readUnitsAndStationsListRange : Obligations.ReadUnitsAndStationsListRange := by
  intro p seq first last s h units stations unitBytes stationBytes
  have unitsReply {a : Answer} (hb : readUnitsBody first.toNat last.toNat (s.setPort p (s.dispatched p 0x05 seq)) =
      (s.setPort p (s.dispatched p 0x05 seq), some a)) :
      exec (.readUnits p seq [first, last]) s = .next (s.setPort p (s.answered p 0x05 seq a)) :=
    (exec_readUnits p seq first last s).trans (congrArg _ (permitted_refused h (monitor_le h) hb))
  have stationsReply {a : Answer}
      (hb : readStationsBody first.toNat last.toNat (s.setPort p (s.dispatched p 0x06 seq)) =
        (s.setPort p (s.dispatched p 0x06 seq), some a)) :
      exec (.readStations p seq [first, last]) s = .next (s.setPort p (s.answered p 0x06 seq a)) :=
    (exec_readStations p seq first last s).trans (congrArg _ (permitted_refused h (monitor_le h) hb))
  have unitsLaidOut : s.unitBytes first.toNat last.toNat = unitBytes := unitsPayload_eq s _ _
  have stationsLaidOut : s.stationBytes first.toNat last.toNat = stationBytes := stationsPayload_eq s _ _
  refine ⟨fun hm bad => unitsReply (readUnitsBody_badRange hm bad), fun range => ⟨?_, ?_⟩,
    fun hm bad => stationsReply (readStationsBody_badRange hm bad), fun range => ⟨?_, ?_⟩⟩
  · rw [← unitsLaidOut]
    exact unitsReply (readUnitsBody_lists range)
  · refine length_append_flatMap _ _ _ 30 fun i hi => unitPlace_length s i ?_
    exact List.mem_range.1 (List.mem_filter.1 (List.mem_of_mem_take hi)).1
  · rw [← stationsLaidOut]
    exact stationsReply (readStationsBody_lists range)
  · exact length_append_flatMap _ _ _ 51 fun x _ => stationRecordBytes_length s x
end

section
/-! SUPPORT. A station's image handed to the request table: what the handing changes and leaves (R28, R102 to R104), at
INHIBIT_QP (R105) and at the running out of a fault hold or an inhibit (R99, R106). -/

namespace Sys2Proof.Machine

/-! ## A station's record -/

theorem setStation_others (s : State) (x : Station) (j : Nat) (h : j ≠ x.slot) :
    (s.setStation x).station j = s.station j := by
  have slots : (fun y : Station => decide (y.slot = j)) ∘ (fun y => if y.slot = x.slot then x else y) =
      fun y => decide (y.slot = j) := by
    funext y
    by_cases hy : y.slot = x.slot <;> simp [hy]
  have found : (s.setStation x).station j = (s.station j).map fun y => if y.slot = x.slot then x else y := by
    unfold State.station State.setStation
    rw [List.find?_map, slots]
  rw [found]
  cases hs : s.station j with
  | none => rfl
  | some y => exact congrArg some (if_neg (station_slot hs ▸ h))

theorem setStation_setStation (s : State) (x y : Station) (h : y.slot = x.slot) :
    (s.setStation x).setStation y = s.setStation y := by
  unfold State.setStation
  simp only [List.map_map]
  congr 1
  refine List.map_congr_left fun z _ => ?_
  by_cases hz : z.slot = x.slot <;> simp [hz, h]

/-! ## The handing of an image (R28, R104) -/

theorem handStation_eq {s : State} {k : Nat} {x : Station} (h : s.station k = some x) : s.handStation k =
    (s.setStation { x with handed := s.stationImage x }).handQp k (s.stationImage x) := by
  unfold State.handStation
  rw [h]

/-- R28: ABSENT handed for a station takes its entry away. -/
theorem handQp_absent (s : State) (k : Nat) : (s.handQp k none).table.entries =
    s.table.entries.filter fun e => decide (e.slot ≠ qpSlot k) := by
  unfold State.handQp Table.hand
  cases hs : s.table.inSlot (qpSlot k) with
  | none => exact (List.filter_eq_self.2 fun e he => decide_eq_true (inSlot_none.1 hs e he)).symm
  | some e =>
    refine (changeTable_entries _ _).trans (List.filter_congr fun e _ => ?_)
    exact decide_not.symm

/-- R28: a handing leaves every slot but the station's own. -/
theorem handQp_others (s : State) (k : Nat) (m : Option QpImage) (j : Nat) (h : j ≠ qpSlot k) :
    (s.handQp k m).table.inSlot j = s.table.inSlot j := by
  unfold State.handQp
  split
  · rfl
  · rw [changeTable_inSlot]
    exact hand_inSlot _ _ _ _ ‹_› j h

theorem handQp_ports (s : State) (k : Nat) (m : Option QpImage) : (s.handQp k m).ports = s.ports := by
  unfold State.handQp
  split
  · rfl
  · rw [changeTable_eq]

/-- Nothing but the request table, the stations, the evaluator's pending flag and the ports differs. -/
def OnlyStations (s t : State) : Prop :=
  t = { s with
    table := t.table
    ports := t.ports
    stations := t.stations
    evaluator := { s.evaluator with pending := t.evaluator.pending } }

theorem OnlyStations.trans {s t u : State} (h : OnlyStations s t) (g : OnlyStations t u) : OnlyStations s u := by
  unfold OnlyStations at h g ⊢
  rw [g, h]

theorem OnlyTable.onlyStations {s t : State} (h : OnlyTable s t) : OnlyStations s t := by
  have kept : t.stations = s.stations := by rw [h]
  unfold OnlyStations
  rw [kept]
  exact h

theorem setStation_onlyStations (s : State) (x : Station) : OnlyStations s (s.setStation x) := rfl

theorem notifyAll_onlyStations (s : State) (n : Notice) : OnlyStations s (s.notifyAll n) := rfl

theorem setPort_onlyStations (s : State) (p : Port) (r : PortRec) : OnlyStations s (s.setPort p r) := rfl

/-- What is left by the record of station k replaced by x and the image of x handed (R28, R102 to R104). -/
structure StationHanded (s t : State) (k : Nat) (x : Station) (m : Option QpImage) : Prop where
  image : EntryImage s x m
  only : OnlyStations s t
  ports : t.ports = s.ports
  station : t.station k = some { x with handed := m }
  others : ∀ j, j ≠ k → t.station j = s.station j
  asks : (t.table.inSlot (48 + k)).map (·.ask) = m.map askOf
  absent : m = none → t.table.entries = s.table.entries.filter fun e => decide (e.slot ≠ 48 + k)
  slots : ∀ j, j ≠ 48 + k → t.table.inSlot j = s.table.inSlot j
  follows : DemandDerived s → DemandFollows s t

theorem StationHanded.handed {s t : State} {x : Station} {m : Option QpImage} (h : StationHanded s t x.slot x m) :
    Handed s t x := ⟨m, h.image, h.station, h.asks⟩

theorem handStation_setStation {s : State} {old x : Station} (h : s.station x.slot = some old) :
    (s.setStation x).handStation x.slot =
      (s.setStation { x with handed := s.stationImage x }).handQp x.slot (s.stationImage x) :=
  (handStation_eq (setStation_station s _ old x h rfl)).trans
    (congrArg (State.handQp · _ _) (setStation_setStation s x { x with handed := s.stationImage x } rfl))

theorem StationHanded.port {s t : State} {k : Nat} {x : Station} {m : Option QpImage} (h : StationHanded s t k x m)
    (q : Port) : t.port q = s.port q := congrArg (PerPort.get · q) h.ports

theorem StationHanded.without_ports {s t : State} {k : Nat} {x : Station} {m : Option QpImage}
    (h : StationHanded s t k x m) : t = { s with
      table := t.table
      stations := t.stations
      evaluator := { s.evaluator with pending := t.evaluator.pending } } := by
  have only := h.only
  unfold OnlyStations at only
  rw [h.ports] at only
  exact only

/-- The station's slot holds an entry exactly where an image was handed. -/
theorem StationHanded.held {s t : State} {k : Nat} {x : Station} {m : Option QpImage} (h : StationHanded s t k x m) :
    (t.table.inSlot (48 + k)).isSome = m.isSome := by
  have asks := congrArg Option.isSome h.asks
  rwa [Option.isSome_map, Option.isSome_map] at asks

theorem StationHanded.entry {s t : State} {k : Nat} {x : Station} {m : Option QpImage} {q : QpImage}
    (h : StationHanded s t k x m) (hq : m = some q) : ∃ e, t.table.inSlot (48 + k) = some e ∧ e.ask = askOf q := by
  have asks := h.asks
  rw [hq] at asks
  exact Option.map_eq_some_iff.1 asks

/-- A station's record replaced, and the image that its new record warrants handed. -/
theorem setStation_handStation {s : State} {k : Nat} {old x : Station} (h : s.station k = some old) (hk : x.slot = k) :
    StationHanded s ((s.setStation x).handStation k) k x (s.stationImage x) := by
  subst hk
  rw [handStation_setStation h]
  generalize hm : s.stationImage x = m
  have table := handQp_onlyTable (s.setStation { x with handed := m }) x.slot m
  have stations (j : Nat) : ((s.setStation { x with handed := m }).handQp x.slot m).station j =
      (s.setStation { x with handed := m }).station j := by
    unfold State.station
    rw [table]
  exact {
    image := hm ▸ stationImage_spec s x
    only := (setStation_onlyStations _ _).trans table.onlyStations
    ports := handQp_ports _ _ _
    station := (stations _).trans (setStation_station s _ old { x with handed := m } h rfl)
    others := fun j hj => (stations j).trans (setStation_others s { x with handed := m } j hj)
    asks := handQp_inSlot _ _ _
    absent := fun hn => by
      subst hn
      exact handQp_absent _ _
    slots := fun j hj => handQp_others _ _ _ j hj
    follows := handQp_demandFollows (s.setStation { x with handed := m }) _ _ }

/-- A station whose entry is not warranted is handed ABSENT (R102). -/
theorem stationImage_absent {s : State} {x : Station} (h : ¬ Warranted s x) : s.stationImage x = none :=
  (stationImage_spec s x).absent h

/-! ## The timers of a station (R99, R106) -/

theorem exec_faultHoldExpiry {s : State} {k : Nat} {x : Station} (h : s.station k = some x) :
    exec (.faultHoldExpiry k) s = .next (if x.faultHoldDue s.now then s.endFaultHold x else s) := by
  show Host.Outcome.next _ = _
  rw [h]

theorem exec_inhibitExpiry {s : State} {k : Nat} {x : Station} (h : s.station k = some x) :
    exec (.inhibitExpiry k) s = .next
      (if ranOut s.now x.inhibit then (s.setStation { x with inhibit := none }).handStation k else s) := by
  show Host.Outcome.next _ = _
  rw [h]

/-- R99: a fault hold that has run out and is not taken yet is due in BLIND. -/
theorem faultHoldDue_iff (x : Station) (now : Nat) : x.faultHoldDue now = true ↔
    x.state = .blind ∧ (∃ d, x.faultHold = some d ∧ d ≤ now) ∧ x.faultOver = false := by
  unfold Station.faultHoldDue ranOut
  cases x.faultHold <;> simp [and_assoc]

/-- Whether a BLIND station remembers a queue (R99). -/
theorem effective_queuing_blind {x : Station} (h : x.state = .blind) :
    x.effective.queuing = true ↔ x.remembered = some .queue ∨ x.remembered = some .stopped := by
  unfold Station.effective
  rw [h]
  rcases x.remembered with _ | st
  · simp [StationState.queuing]
  · cases st <;> simp [StationState.queuing]

/-- R99: the entry of a remembered queue goes, with the QUEUE notice. -/
theorem endFaultHold_hands {s : State} {x : Station} (hi : x.inhibit = none) (hq : x.effective.queuing = true) :
    s.endFaultHold x = ((s.setStation { x with faultOver := true }).handStation x.slot).notifyAll .queue :=
  if_pos (by rw [hi, hq]; rfl)

/-- R99: under an inhibit, or with no remembered queue, the running out is taken and no more. -/
theorem endFaultHold_quiet {s : State} {x : Station} (h : x.inhibit ≠ none ∨ ¬ x.effective.queuing = true) :
    s.endFaultHold x = s.setStation { x with faultOver := true } :=
  if_neg fun hc => by
    obtain ⟨hi, hq⟩ := (Bool.and_eq_true _ _).mp hc
    exact h.elim (fun hn => hn (Option.isNone_iff_eq_none.1 hi)) (fun hn => hn hq)

theorem DemandFollows.notifyAll {s t : State} (h : DemandFollows s t) (n : Notice) : DemandFollows s (t.notifyAll n) :=
  h.ports fun q => by
    show ((t.notifyAll n).port q).authority = _
    rw [State.notifyAll_port]
    exact PortRec.raise_authority _ _

end Sys2Proof.Machine

open Sys2Proof Sys2Proof.Machine

/-- Settles O46: the rules of samples and of the station machine, and the two timers, which replace the station's record
and hand the image it then warrants; after its fault hold a BLIND station warrants none. -/
theorem stationTimersHandImages : Obligations.StationTimersHandImages := by
  refine ⟨laneRule, sampleRule, machineRules, fun k d x s hx ran => ?_⟩
  obtain rfl := station_slot hx
  rw [exec_faultHoldExpiry hx, exec_inhibitExpiry hx]
  have due (blind : x.state = .blind) (hold : x.faultHold = some d) (first : x.faultOver = false) :
      x.faultHoldDue s.now = true := (faultHoldDue_iff x s.now).2 ⟨blind, ⟨d, hold, ran⟩, first⟩
  refine ⟨fun blind queue free hold first => ?_, fun blind quiet hold first => ?_, fun taken => ?_, fun inhibited => ?_⟩
  · have unwarranted : ¬ Warranted s { x with faultOver := true } := by
      rintro ⟨-, hw⟩
      simp only [blind, hold, Option.some.injEq] at hw
      obtain hw | hw | ⟨-, -, e, rfl, he⟩ := hw
      · cases hw
      · cases hw
      · exact absurd ran (Nat.not_le.2 he)
    have handing := setStation_handStation (x := { x with faultOver := true }) hx rfl
    rw [stationImage_absent unwarranted] at handing
    rw [if_pos (due blind hold first), endFaultHold_hands free ((effective_queuing_blind blind).2 queue)]
    refine ⟨_, rfl, handing.station, handing.others, handing.absent rfl, fun hd => (handing.follows hd).notifyAll _,
      handing.only.trans (notifyAll_onlyStations _ _), fun q => ?_⟩
    rw [State.notifyAll_port, handing.port]
  · rw [if_pos (due blind hold first), endFaultHold_quiet]
    refine quiet.imp id fun unqueued => ?_
    rw [effective_queuing_blind blind]
    rcases unqueued with hr | hr <;> simp [hr]
  · rw [if_neg]
    rw [faultHoldDue_iff, taken]
    rintro ⟨-, -, h⟩
    cases h
  · have handing := setStation_handStation (x := { x with inhibit := none }) hx rfl
    rw [if_pos (show ranOut s.now x.inhibit = true from by rw [inhibited]; exact decide_eq_true ran)]
    exact ⟨_, rfl, handing.handed, handing.follows, handing.others, handing.without_ports⟩
end

section
/-! SUPPORT. INHIBIT_QP: its checks in their order, and the handing that an inhibit set or ended brings (R105). -/

namespace Sys2Proof.Machine

/-! ## A handing beside a port's record -/

theorem handQp_setPort (s : State) (p : Port) (r : PortRec) (k : Nat) (m : Option QpImage)
    (hr : r.authority = (s.port p).authority) : (s.setPort p r).handQp k m = (s.handQp k m).setPort p r := by
  unfold State.handQp
  rw [State.setPort_table]
  split
  · rfl
  · exact setPort_changeTable s p r _ hr

theorem handStation_setPort (s : State) (p : Port) (r : PortRec) (k : Nat)
    (hr : r.authority = (s.port p).authority) : (s.setPort p r).handStation k = (s.handStation k).setPort p r := by
  unfold State.handStation
  rw [State.setPort_station]
  split
  · rfl
  · exact handQp_setPort (s.setStation _) p r k _ hr

theorem DemandFollows.setPort {s t : State} {p : Port} {r : PortRec} (h : DemandFollows s t)
    (hr : r.authority = (t.port p).authority) : DemandFollows s (t.setPort p r) := h.ports fun q => by
  rw [PerPort.get_set]
  split
  · subst_vars
    exact hr
  · rfl

/-! ## The inhibit (R105) -/

/-- R105: an inhibit of 0 where none is set changes nothing. -/
theorem setInhibit_none {s : State} {x : Station} (h : x.inhibit = none) : s.setInhibit x none = s :=
  if_pos (by rw [h]; rfl)

/-- R105: an inhibit set, or one ended, hands the image that is then warranted. -/
theorem setInhibit_handed {s : State} {k : Nat} {x : Station} {deadline : Option Nat} (hx : s.station k = some x)
    (h : deadline ≠ none ∨ x.inhibit ≠ none) :
    StationHanded s (s.setInhibit x deadline) k { x with inhibit := deadline }
      (s.stationImage { x with inhibit := deadline }) := by
  have slot : x.slot = k := station_slot hx
  have hands : s.setInhibit x deadline = (s.setStation { x with inhibit := deadline }).handStation k := by
    rw [← slot]
    refine if_neg fun hc => ?_
    obtain ⟨hd, hi⟩ := (Bool.and_eq_true _ _).mp hc
    rw [Option.isNone_iff_eq_none] at hd hi
    exact h.elim (· hd) (· hi)
  rw [hands]
  exact setStation_handStation hx slot

theorem setInhibit_setPort (s : State) (p : Port) (r : PortRec) (x : Station) (deadline : Option Nat)
    (hr : r.authority = (s.port p).authority) :
    (s.setPort p r).setInhibit x deadline = (s.setInhibit x deadline).setPort p r := by
  unfold State.setInhibit
  split
  · rfl
  · exact handStation_setPort (s.setStation _) p r x.slot hr

/-! ## INHIBIT_QP (R105) -/

theorem exec_inhibitQp (p : Port) (seq k high low : Byte) (s : State) : exec (.inhibitQp p seq [k, high, low]) s =
    .next (s.takeFrame p 0x13 seq
      (judged p .field true (inhibitBody k.toNat (high.toNat * 256 + low.toNat)))) := rfl

section
variable {s : State} {k seconds : Nat}

theorem inhibitBody_wrongMode (hm : s.mode = .unconfigured) :
    inhibitBody k seconds s = (s, some (.wrongMode, [])) := if_pos hm

theorem inhibitBody_badRange (hm : s.mode ≠ .unconfigured) (hk : 15 < k) :
    inhibitBody k seconds s = (s, some (.badRange, [])) := (if_neg hm).trans (if_pos hk)

theorem inhibitBody_notFound (hm : s.mode ≠ .unconfigured) (hk : ¬ 15 < k) (hx : s.station k = none) :
    inhibitBody k seconds s = (s, some (.notFound, [])) := by
  simp only [inhibitBody, if_neg hm, if_neg hk, hx, refuse]

/-- What a used station's INHIBIT_QP does and answers, as R105 and R176 word it. -/
theorem inhibitBody_found {x : Station} (hm : s.mode ≠ .unconfigured) (hk : ¬ 15 < k) (hx : s.station k = some x) :
    let deadline := inhibitDeadline s.now seconds
    inhibitBody k seconds s = (s.setInhibit x deadline, some (if 3600 < seconds then .clamped else .ok,
      byte x.state.code :: (leftBytes s.now deadline ++
        [yes ((s.setInhibit x deadline).table.inSlot (48 + k)).isSome]))) := by
  simp only [inhibitBody, if_neg hm, if_neg hk, hx, answer, clampReason, decide_eq_true_eq, secondsBytes_eq]
  rfl

end

theorem leftBytes_none (now : Nat) : leftBytes now none = [0, 0] := show be16 0 = [0, 0] by decide

/-- An INHIBIT_QP of a used station on a port that serves and may send it (R45, R105, R173). -/
theorem exec_inhibitQp_found {p : Port} {seq k high low : Byte} {s : State} {x : Station} (h : s.serving p = true)
    (ha : Authority.field.rank ≤ (s.port p).authority.rank) (hm : s.mode ≠ .unconfigured) (hk : ¬ 15 < k.toNat)
    (hx : s.station k.toNat = some x) :
    let seconds := high.toNat * 256 + low.toNat
    let deadline := inhibitDeadline s.now seconds
    exec (.inhibitQp p seq [k, high, low]) s = .next ((s.setInhibit x deadline).setPort p (s.answered p 0x13 seq
      (if 3600 < seconds then .clamped else .ok, byte x.state.code :: (leftBytes s.now deadline ++
        [yes ((s.setInhibit x deadline).table.inSlot (48 + k.toNat)).isSome])))) := by
  intro seconds deadline
  have body := inhibitBody_found (s := s.setPort p (s.dispatched p 0x13 seq)) (seconds := seconds) hm hk hx
  dsimp only at body
  rw [setInhibit_setPort s p (s.dispatched p 0x13 seq) x _ rfl] at body
  rw [exec_inhibitQp, permitted_answered h ha body (by rw [State.setPort_port, if_pos rfl]), State.setPort_setPort]
  rfl

end Sys2Proof.Machine

open Sys2Proof Sys2Proof.Machine

/-- Settles O33: the checks of R105 in their order, then the station's record replaced and the image it then warrants
handed, which is ABSENT under an inhibit. -/
theorem inhibitSetsOrEndsInhibit : Obligations.InhibitSetsOrEndsInhibit := by
  intro p seq k high low s h ha refused seconds slot
  have refuses {why : Reason} (hb : inhibitBody k.toNat seconds (s.setPort p (s.dispatched p 0x13 seq)) =
      (s.setPort p (s.dispatched p 0x13 seq), some (why, []))) : refused why :=
    (exec_inhibitQp p seq k high low s).trans (congrArg _ (permitted_refused h ha hb))
  split
  case isTrue hm => exact refuses (inhibitBody_wrongMode hm)
  case isFalse hm =>
  split
  case isTrue hk => exact refuses (inhibitBody_badRange hm hk)
  case isFalse hk =>
  refine ⟨fun hx => refuses (inhibitBody_notFound hm hk hx), fun x hx => ?_⟩
  have found := exec_inhibitQp_found (seq := seq) (high := high) (low := low) h ha hm hk hx
  dsimp only at found
  refine ⟨fun none_sent none_set => ?_, fun acts => ?_⟩
  · have off : inhibitDeadline s.now (high.toNat * 256 + low.toNat) = none := if_pos none_sent
    have unclamped : ¬ 3600 < high.toNat * 256 + low.toNat := by
      rw [show high.toNat * 256 + low.toNat = 0 from none_sent]
      decide
    rw [off, setInhibit_none none_set, if_neg unclamped, leftBytes_none] at found
    exact found
  · have set_or_ended : inhibitDeadline s.now seconds ≠ none ∨ x.inhibit ≠ none :=
      acts.imp (fun hs he => Option.some_ne_none _ ((if_neg hs).symm.trans he)) id
    have handing := setInhibit_handed hx set_or_ended
    generalize s.stationImage { x with inhibit := inhibitDeadline s.now seconds } = m at handing
    refine ⟨_, m, found, handing.image, handing.only.trans (setPort_onlyStations _ _ _), handing.station,
      handing.others, fun hs => handing.image.absent fun hw => ?_, handing.absent, fun q hq => handing.entry hq,
      handing.slots, fun hd => (handing.follows hd).setPort ?_, ?_, fun q hq => ?_⟩
    · exact Option.some_ne_none _ ((if_neg hs).symm.trans hw.1)
    · rw [handing.port]
      rfl
    · rw [State.setPort_port, if_pos rfl, handing.held]
      rfl
    · rw [State.setPort_port, if_neg hq, handing.port]
end

section
/-! SUPPORT. What of a field line `LinesInv` speaks (R112, R117): its driver, its state and its transaction. Every command
but the resets leaves these alone; the events of a line change them as the rules of frames, windows and jams say. -/

namespace Sys2Proof.Machine

/-! ## Lines left at work -/

/-- A line's driver, state and transaction are those of another record. -/
structure LineRec.SameWork (r x : LineRec) : Prop where
  driving : x.driving = r.driving
  state : x.state = r.state
  transaction : x.transaction = r.transaction

theorem LineRec.SameWork.refl (r : LineRec) : r.SameWork r := ⟨rfl, rfl, rfl⟩

theorem LineRec.SameWork.trans {r x y : LineRec} (h : r.SameWork x) (g : x.SameWork y) : r.SameWork y :=
  ⟨g.driving.trans h.driving, g.state.trans h.state, g.transaction.trans h.transaction⟩

/-- R112 and R117 of one line. -/
def LineRec.Sound (r : LineRec) : Prop :=
  (r.driving = true ↔ ∃ t, r.transaction = some t ∧ t.stage = .sending) ∧ (r.state = .jammed → r.transaction = none)

theorem LineRec.SameWork.sound {r x : LineRec} (h : r.SameWork x) (hr : r.Sound) : x.Sound := by
  unfold LineRec.Sound at *
  rw [h.driving, h.state, h.transaction]
  exact hr

/-- Every line's driver, state and transaction are left. -/
def LinesLeft (s t : State) : Prop := ∀ l, (s.line l).SameWork (t.line l)

theorem LinesLeft.refl (s : State) : LinesLeft s s := fun _ => .refl _

theorem LinesLeft.trans {s t u : State} (h : LinesLeft s t) (g : LinesLeft t u) : LinesLeft s u :=
  fun l => (h l).trans (g l)

theorem LinesLeft.of_lines {s t : State} (h : t.lines = s.lines) : LinesLeft s t := fun l => by
  unfold State.line
  rw [h]
  exact .refl _

theorem QueuesOnly.linesLeft {s t : State} (h : QueuesOnly s t) : LinesLeft s t := fun l => by
  rw [(h l).1]
  exact ⟨rfl, rfl, rfl⟩

theorem Handing.linesLeft {s t : State} (h : Handing s t) : LinesLeft s t := h.queues.linesLeft

theorem OnlyTable.linesLeft {s t : State} (h : OnlyTable s t) : LinesLeft s t := .of_lines (by rw [h])

theorem OnlyPort.linesLeft {p : Port} {s t : State} (h : OnlyPort p s t) : LinesLeft s t := .of_lines (by rw [h]; rfl)

/-- An event whose condition does not hold changes nothing (log entry 6). -/
theorem LinesLeft.ite {b : Prop} [Decidable b] {s t : State} (h : LinesLeft s t) :
    LinesLeft s (if b then t else s) := by
  split
  · exact h
  · exact .refl s

/-- A change of every line's record that leaves its work. -/
theorem LinesLeft.of_map {s t : State} (f : LineId → LineRec → LineRec) (h : t.lines = s.lines.map f)
    (hf : ∀ (l : LineId) (r : LineRec), r.SameWork (f l r)) : LinesLeft s t := fun l => by
  unfold State.line
  rw [h, PerLine.get_map]
  exact hf l _

/-! ## Commands -/

/-- A good frame leaves the lines at work where its command's body does. -/
theorem takeFrame_linesLeft (s : State) (p : Port) (code seq : Byte) (body : CommandBody)
    (h : ∀ u, LinesLeft u (body u).1) : LinesLeft s (s.takeFrame p code seq body) := by
  rcases takeFrame_cases s p code seq body with ht | ⟨u, hu, ht⟩
  · exact ht.linesLeft
  · exact (hu.linesLeft.trans (h u)).trans ht.linesLeft

theorem command_linesLeft (s : State) (p : Port) (code seq : Byte) (needed : Authority) (form : Bool)
    (body : CommandBody) (h : ∀ u, LinesLeft u (body u).1) :
    LinesLeft s (s.takeFrame p code seq (judged p needed form body)) := by
  refine takeFrame_linesLeft s p code seq _ fun u => ?_
  unfold judged
  split
  · exact .refl u
  split
  · exact .refl u
  · exact h u

theorem changeTable_linesLeft (s : State) (t : Table) : LinesLeft s (s.changeTable t) :=
  (changeTable_onlyTable _ _).linesLeft

theorem drawCompletion_linesLeft (s : State) : LinesLeft s s.drawCompletion := by
  unfold State.drawCompletion
  split <;> exact .of_lines rfl

theorem readPlanBody_linesLeft (first last : Nat) (s : State) : LinesLeft s (readPlanBody first last s).1 := by
  unfold readPlanBody
  dsimp only
  split
  · exact .refl s
  · split <;> exact .refl s

theorem readUnitsBody_linesLeft (first last : Nat) (s : State) : LinesLeft s (readUnitsBody first last s).1 := by
  unfold readUnitsBody
  split <;> exact .refl s

theorem readStationsBody_linesLeft (first last : Nat) (s : State) : LinesLeft s (readStationsBody first last s).1 := by
  unfold readStationsBody
  split <;> exact .refl s

theorem readDeliveryBody_linesLeft (first last : Nat) (s : State) : LinesLeft s (readDeliveryBody first last s).1 := by
  unfold readDeliveryBody
  dsimp only
  split
  · exact drawCompletion_linesLeft s
  split
  · exact .refl s
  · exact drawCompletion_linesLeft s

theorem noticesBody_linesLeft (p : Port) (s : State) : LinesLeft s (noticesBody p s).1 :=
  (LinesLeft.of_lines (t := s.setPort p { s.port p with flags := 0 }) rfl).trans (drawCompletion_linesLeft _)

theorem clearCounters_linesLeft (s : State) : LinesLeft s s.clearCounters := .of_map (fun _ r => r.clearCounters) rfl fun _ _ => ⟨rfl, rfl, rfl⟩

theorem countersBody_linesLeft (p : Port) (request : Byte) (s : State) : LinesLeft s (countersBody p request s).1 :=
  .ite (clearCounters_linesLeft s)

theorem requestBody_linesLeft (p : Port) (r : RequestFields) (s : State) : LinesLeft s (requestBody p r s).1 := by
  unfold requestBody
  split
  · exact .refl s
  split
  · exact .refl s
  split
  · exact .refl s
  split
  · exact .refl s
  split
  · exact changeTable_linesLeft _ _
  split
  · exact .refl s
  split
  · exact .refl s
  · exact changeTable_linesLeft _ _

theorem withdrawBody_linesLeft (p : Port) (tag : Nat) (s : State) : LinesLeft s (withdrawBody p tag s).1 := by
  unfold withdrawBody
  split
  · exact .refl s
  split
  · exact .refl s
  · exact changeTable_linesLeft _ _

theorem withdrawAllBody_linesLeft (p : Port) (s : State) : LinesLeft s (withdrawAllBody p s).1 := by
  unfold withdrawAllBody
  split
  · exact .refl s
  · exact changeTable_linesLeft _ _

theorem releaseBody_linesLeft (p : Port) (requester first last : Nat) (s : State) :
    LinesLeft s (releaseBody p requester first last s).1 := by
  unfold releaseBody
  dsimp only
  split
  · exact .refl s
  split
  · exact .refl s
  split
  · exact .refl s
  · unfold releaseEntries answer
    dsimp only
    split
    · exact changeTable_linesLeft _ _
    · exact (changeTable_linesLeft _ _).trans (.of_lines rfl)

theorem inhibitBody_linesLeft (k seconds : Nat) (s : State) : LinesLeft s (inhibitBody k seconds s).1 := by
  unfold inhibitBody
  split
  · exact .refl s
  split
  · exact .refl s
  split
  · exact .refl s
  · show LinesLeft s (s.setInhibit _ _)
    unfold State.setInhibit
    split
    · exact .refl s
    · exact ((setStation_handing _ _).trans (handStation_handing _ _)).linesLeft

theorem geometryBody_linesLeft {α : Type} (p : Port) (slots given : Nat) (records : List (Placed α))
    (place : Nat → List (Option α) → Store → Store) (s : State) :
    LinesLeft s (geometryBody p slots given records place s).1 := by
  unfold geometryBody
  dsimp only
  split
  · exact .refl s
  split
  · exact .refl s
  split
  · exact .refl s
  split
  · exact .refl s
  · exact .of_lines rfl

theorem boundaryBody_linesLeft (payload : List Byte) (s : State) : LinesLeft s (boundaryBody payload s).1 := by
  unfold boundaryBody
  split
  · exact .refl s
  split
  · exact .refl s
  · exact .of_lines rfl

theorem commitBody_linesLeft (s : State) : LinesLeft s (commitBody s).1 := by
  unfold commitBody
  split
  · exact .refl s
  · exact .of_lines rfl

theorem paramBody_linesLeft (pairs : List (Nat × Nat)) (s : State) : LinesLeft s (paramBody pairs s).1 := by
  unfold paramBody
  split
  · exact .refl s
  split
  · exact .refl s
  dsimp only
  split
  · exact .refl s
  · exact .of_lines rfl

/-- The end of a validation gives each line its first poll cycle at most (R10). -/
theorem endValidation_linesLeft (s : State) : LinesLeft s s.endValidation.1 := by
  unfold State.endValidation
  split
  · exact .of_lines rfl
  · exact .of_map (fun l r => { r with cycle := (s.begin.line l).cycle }) (PerLine.ext_get fun l => by cases l <;> rfl)
      fun _ _ => ⟨rfl, rfl, rfl⟩

theorem takeEpochZero_linesLeft (s : State) (d : DeliveryState) : LinesLeft s (s.takeEpochZero d) :=
  (clearParts_handing s).linesLeft.trans (.of_lines rfl)

theorem setMode_linesLeft (s : State) (t : ModeTarget) : LinesLeft s (s.setMode t).1 := by
  rcases setMode_cases s t with h | ⟨-, h | h⟩ <;> rw [h]
  · exact .refl s
  · exact (LinesLeft.of_lines (t := (s.replacePlan s.adoptedPlan).changeMode .live) rfl).trans
      (takeEpochZero_linesLeft _ _)
  · exact (goDark_queues s).linesLeft

theorem setModeBody_linesLeft (p : Port) (payload : List Byte) (s : State) :
    LinesLeft s (setModeBody p payload s).1 := by
  show LinesLeft s (s.judgeSetMode p payload).1
  unfold State.judgeSetMode
  split
  · exact .refl s
  split
  · exact .refl s
  split
  · exact .refl s
  · exact setMode_linesLeft s _

theorem restartPlan_linesLeft (s : State) : LinesLeft s s.restartPlan := by
  have replaced (plan : List PlanSite) : LinesLeft s (s.replacePlan plan) := .of_lines rfl
  unfold State.restartPlan
  split
  · exact .refl s
  · exact (replaced _).trans (takeEpochZero_linesLeft _ _)
  · exact (replaced _).trans (takeEpochZero_linesLeft _ _)
  · exact (replaced _).trans (formDark_queues _).linesLeft

/-- R111: a RESTART empties the SET queues and lets a transaction in progress run on. -/
theorem restarted_linesLeft (s : State) : LinesLeft s s.restarted := by
  have table : LinesLeft s s.restartTable := changeTable_linesLeft _ _
  have ports (u : State) : LinesLeft u u.restartPorts := .of_lines rfl
  have units (u : State) : LinesLeft u u.restartUnits := (restartUnits_handing u).linesLeft
  have others (u : State) : LinesLeft u u.restartStations.restartLines.restartDelivery :=
    .of_map (fun _ r => { r with queue := [] }) rfl fun _ _ => ⟨rfl, rfl, rfl⟩
  have flags (u : State) : LinesLeft u { u with cause := .restart }.restartFlags := .of_lines rfl
  exact ((((table.trans (ports _)).trans (units _)).trans (others _)).trans (restartPlan_linesLeft _)).trans (flags _)

theorem restartBody_linesLeft (s : State) : LinesLeft s (restartBody s).1 := by
  unfold restartBody
  split
  · exact .refl s
  · exact restarted_linesLeft s

/-! ## Timers and passes -/

theorem onPort_linesLeft (s : State) (p : Port) (f : PortRec → PortRec) : LinesLeft s (s.onPort p f) :=
  .ite (.of_lines rfl)

theorem fallSilent_linesLeft (s : State) (p : Port) : LinesLeft s (s.fallSilent p) := by
  have others (u : State) : LinesLeft u (u.notifyOthers p .port) := .of_lines rfl
  refine LinesLeft.trans ?_ (others _)
  generalize hu : s.setPort p { s.port p with
    liveness := .silent, deadline := none, silences := countUp (s.port p).silences } = u
  have silent : LinesLeft s u := .of_lines (by rw [← hu]; rfl)
  refine silent.trans ?_
  split
  · have changed := changeTable_linesLeft u (u.table.silence p)
    dsimp only
    split
    · exact changed.trans (.of_lines rfl)
    · exact changed
  · exact .refl u

theorem notifyOwner_linesLeft (s : State) (r : Requester) (n : Notice) : LinesLeft s (s.notifyOwner r n) := by
  cases r <;> exact .of_lines rfl

theorem endFaultHold_linesLeft (s : State) (x : Station) : LinesLeft s (s.endFaultHold x) := by
  have first := setStation_handing s { x with faultOver := true }
  unfold State.endFaultHold
  dsimp only
  split
  · exact ((first.trans (handStation_handing _ _)).trans (notifyAll_handing _ _)).linesLeft
  · exact first.linesLeft

theorem endPass_linesLeft (s : State) (p : Pass) : LinesLeft s (s.endPass p) := by
  unfold State.endPass
  dsimp only
  split
  · exact .of_lines rfl
  split
  · have idle : LinesLeft s { s with evaluator := { s.evaluator with running := none } } := .of_lines rfl
    exact idle.trans (publish_queues _ _).linesLeft
  · exact .of_lines rfl

end Sys2Proof.Machine
end

section
/-! SUPPORT. R112 and R117 kept by the events of a field line, and by every step. -/

namespace Sys2Proof.Machine

/-! ## The events of a line -/

theorem linesInv_iff (s : State) : LinesInv s ↔ ∀ l, (s.line l).Sound := Iff.rfl

/-- What keeps R112 and R117. -/
def LinesKept (s t : State) : Prop := LinesInv s → LinesInv t

theorem LinesKept.refl (s : State) : LinesKept s s := id

theorem LinesLeft.kept {s t : State} (h : LinesLeft s t) : LinesKept s t := fun hs l => (h l).sound (hs l)

/-- One line's record replaced by a sound one, and then work left. -/
theorem LinesKept.of_line {s t : State} {l : LineId} {r : LineRec} (hr : (s.line l).Sound → r.Sound)
    (h : LinesLeft (s.setLine l r) t) : LinesKept s t := fun hs => by
  refine h.kept ((linesInv_iff _).2 fun m => ?_)
  rw [State.setLine_line]
  split
  · exact hr (hs l)
  · exact hs m

theorem setLine_linesKept {s : State} {l : LineId} {r : LineRec} (hr : (s.line l).Sound → r.Sound) :
    LinesKept s (s.setLine l r) := .of_line hr (.refl _)

theorem onLine_linesKept (s : State) (l : LineId) (f : LineRec → LineRec)
    (hf : (s.line l).Sound → (f (s.line l)).Sound) : LinesKept s (s.onLine l f) := by
  unfold State.onLine
  split
  · exact setLine_linesKept hf
  · exact .refl s

theorem LineRec.activity_sameWork (r : LineRec) (now : Nat) : r.SameWork (r.activity now) := by
  rw [LineRec.activity_eq]
  exact ⟨rfl, rfl, rfl⟩

theorem LineRec.countBurst_sameWork (r : LineRec) : r.SameWork r.countBurst := by
  unfold LineRec.countBurst
  split <;> exact ⟨rfl, rfl, rfl⟩

theorem endFrame_sameWork (s : State) (l : LineId) (cut : List Byte) : (s.line l).SameWork (s.endFrame l cut) := by
  unfold State.endFrame
  dsimp only
  split
  · exact .refl _
  split
  · exact LineRec.countBurst_sameWork _
  split <;> exact ⟨rfl, rfl, rfl⟩

theorem LineRec.inverted_sameWork (r : LineRec) : r.SameWork r.inverted := by
  unfold LineRec.inverted
  split <;> exact ⟨rfl, rfl, rfl⟩

/-- R112: a NORMAL line that sends a frame drives it. -/
theorem LineRec.send_sound (r : LineRec) (t : Transaction) (hs : r.state = .normal) (ht : t.stage = .sending) :
    (r.send t).Sound := by
  rw [LineRec.send_eq]
  refine ⟨iff_of_true rfl ⟨t, rfl, ht⟩, fun hj => ?_⟩
  cases hs.symm.trans hj

/-- R108, R113: at the end of a frame its transaction waits for the reply. -/
theorem LineRec.frameSent_sound (r : LineRec) (now : Nat) (h : r.Sound) : (r.frameSent now).Sound := by
  obtain ⟨hd, hj⟩ := h
  unfold LineRec.frameSent
  split
  · refine ⟨iff_of_false Bool.false_ne_true ?_, fun hs => by rw [hj hs]; rfl⟩
    rintro ⟨t, ht, hst⟩
    obtain ⟨y, -, rfl⟩ := Option.map_eq_some_iff.1 ht
    cases hst
  · exact ⟨hd, hj⟩

/-- A line that carries no transaction and is not driven. -/
theorem LineRec.sound_of_idle {r : LineRec} (hd : r.driving = false) (ht : r.transaction = none) : r.Sound :=
  ⟨iff_of_false (by simp [hd]) (by simp [ht]), fun _ => ht⟩

/-- While a reply window is open no frame goes out. -/
theorem LineRec.Sound.quiet_of_openWindow {r : LineRec} (h : r.Sound) {t : Transaction} (hw : r.openWindow = some t) :
    r.driving = false ∧ r.state = .normal := by
  obtain ⟨ht, d, hd⟩ := transaction_of_openWindow hw
  obtain ⟨driven, jammed⟩ := h
  constructor
  · refine Bool.eq_false_iff.2 fun hx => ?_
    obtain ⟨y, hy, hs⟩ := driven.1 hx
    cases ht.symm.trans hy
    cases hd.symm.trans hs
  · cases hs : r.state with
    | normal => rfl
    | jammed => cases ht.symm.trans (jammed hs)

theorem startWork_linesKept (s : State) (l : LineId) (w : Work) (h : (s.line l).state = .normal) :
    LinesKept s (s.startWork l w) := by
  cases w with
  | retry t => exact setLine_linesKept fun _ => LineRec.send_sound _ _ h rfl
  | set c =>
    exact .of_line (r := (((s.line l).markProgress c.site true).strike (s.addressOf c.site) s.now).send
      (s.setTransaction c)) (fun _ => LineRec.send_sound _ _ h rfl) (startWork_set s l c).linesLeft
  | poll a => exact setLine_linesKept fun _ => LineRec.send_sound _ _ h rfl

theorem endTransaction_sound {r : LineRec} (h : r.Sound) {t : Transaction} (hw : r.openWindow = some t) :
    r.endTransaction.Sound :=
  LineRec.sound_of_idle (h.quiet_of_openWindow hw).1 rfl

theorem takeValidReply_linesKept (s : State) (l : LineId) (t : Transaction) (r : FieldReply)
    (hw : (s.line l).openWindow = some t) : LinesKept s (s.takeValidReply l t r) := by
  refine .of_line (fun h => LineRec.sound_of_idle ?_ rfl) (takeValidReply_handing s l t r).linesLeft
  exact ((LineRec.activity_sameWork _ _).driving).trans (h.quiet_of_openWindow hw).1

theorem failAttempt_linesKept (s : State) (l : LineId) (t : Transaction) (hw : (s.line l).openWindow = some t) :
    LinesKept s (s.failAttempt l t) := by
  cases hr : t.retry with
  | true => exact .of_line (fun h => endTransaction_sound h hw) (failAttempt_retry s l t hr).linesLeft
  | false =>
    rw [failAttempt_first s l t hr]
    refine setLine_linesKept fun h => ?_
    obtain ⟨hd, hn⟩ := h.quiet_of_openWindow hw
    refine ⟨iff_of_false (by simp [hd]) ?_, fun hj => ?_⟩
    · rintro ⟨y, hy, hs⟩
      cases hy
      cases hs
    · cases hn.symm.trans hj

/-- R131: what a line reports of its units is no part of any line's work. -/
theorem reportLine_linesKept (s : State) (l : LineId) (r : LineRec) (f : UnitRec → UnitRec)
    (hr : (s.line l).Sound → r.Sound) : LinesKept s ((s.setLine l r).reportLine l f) :=
  .of_line (r := r) hr (jam_handing s l r f).linesLeft

/-- R118: the report of a continuing jam leaves the line as it is. -/
theorem LineRec.reportGiven_sameWork (r : LineRec) : r.SameWork r.reportGiven := ⟨rfl, rfl, rfl⟩

/-- R119: a line NORMAL again carries what it carried. -/
theorem unjammed_sound (s : State) (l : LineId) (h : (s.line l).Sound) : (s.unjammed l).Sound := by
  obtain ⟨hd, -⟩ := h
  exact ⟨hd, nofun⟩

theorem nextCycle_sameWork (s : State) (l : LineId) (c : PollCycle) : (s.line l).SameWork (s.nextCycle l c) :=
  ⟨rfl, rfl, rfl⟩

/-! ## Each event of a line -/

theorem execLineQuiet_linesKept (l : LineId) (cut : List Byte) (s : State) :
    ∃ t, execLineQuiet l cut s = .next t ∧ LinesKept s t := by
  refine ⟨_, rfl, ?_⟩
  split
  · exact setLine_linesKept ((endFrame_sameWork s l cut).trans ⟨rfl, rfl, rfl⟩).sound
  · exact .refl s

theorem execFrameStart_linesKept (l : LineId) (s : State) :
    ∃ t, execFrameStart l s = .next t ∧ LinesKept s t := by
  refine ⟨_, rfl, ?_⟩
  split
  · exact .refl s
  · rename_i w hw
    refine startWork_linesKept _ _ _ ?_
    unfold State.workDue LineRec.clear at hw
    split at hw
    · rename_i hc
      simp only [Bool.and_eq_true, decide_eq_true_eq] at hc
      exact hc.2.1.1
    · cases hw

theorem execFrameSent_linesKept (l : LineId) (s : State) :
    ∃ t, execFrameSent l s = .next t ∧ LinesKept s t :=
  ⟨_, rfl, onLine_linesKept _ _ _ (LineRec.frameSent_sound _ _)⟩

theorem execValidReply_linesKept (l : LineId) (frame : List Byte) (s : State) :
    ∃ t, execValidReply l frame s = .next t ∧ LinesKept s t := by
  refine ⟨_, rfl, ?_⟩
  split
  · rename_i hw _
    exact takeValidReply_linesKept _ _ _ _ hw
  · exact .refl s

theorem execReplyFrameError_linesKept (l : LineId) (frame : List Byte) (s : State) :
    ∃ t, execReplyFrameError l frame s = .next t ∧ LinesKept s t := by
  have counted : LinesKept s (s.setLine l ((s.line l).activity s.now).countFrameError) :=
    setLine_linesKept ((LineRec.activity_sameWork _ _).trans ⟨rfl, rfl, rfl⟩).sound
  refine ⟨_, rfl, ?_⟩
  split
  · exact counted
  · exact counted
  · exact .refl s

theorem execInvertedReply_linesKept (l : LineId) (s : State) :
    ∃ t, execInvertedReply l s = .next t ∧ LinesKept s t := by
  refine ⟨_, rfl, ?_⟩
  split
  · exact setLine_linesKept ((LineRec.activity_sameWork _ _).trans (LineRec.inverted_sameWork _)).sound
  · exact .refl s

theorem execFalseActivity_linesKept (l : LineId) (frame : List Byte) (s : State) :
    ∃ t, execFalseActivity l frame s = .next t ∧ LinesKept s t := by
  refine ⟨_, rfl, ?_⟩
  split
  · exact onLine_linesKept _ _ _ ((LineRec.activity_sameWork _ _).trans (LineRec.countBurst_sameWork _)).sound
  · split
    · exact setLine_linesKept ((LineRec.activity_sameWork _ _).trans ⟨rfl, rfl, rfl⟩).sound
    · exact .refl s

theorem execReplyWindowEnd_linesKept (l : LineId) (s : State) :
    ∃ t, execReplyWindowEnd l s = .next t ∧ LinesKept s t := by
  refine ⟨_, rfl, ?_⟩
  split
  · exact .refl s
  · rename_i hw
    split
    · exact failAttempt_linesKept _ _ _ hw
    · exact .refl s

theorem execLineJam_linesKept (l : LineId) (s : State) :
    ∃ t, execLineJam l s = .next t ∧ LinesKept s t := by
  refine ⟨_, rfl, ?_⟩
  split
  · rename_i hj
    refine reportLine_linesKept _ _ _ _ fun _ => LineRec.sound_of_idle ?_ rfl
    unfold LineRec.jamDue at hj
    simp only [Bool.and_eq_true, Bool.not_eq_true'] at hj
    exact hj.1.1.2
  · exact .refl s

theorem execJamContinues_linesKept (l : LineId) (s : State) :
    ∃ t, execJamContinues l s = .next t ∧ LinesKept s t := by
  refine ⟨_, rfl, ?_⟩
  split
  · exact reportLine_linesKept _ _ _ _ (LineRec.reportGiven_sameWork _).sound
  · exact .refl s

theorem execLineUnjam_linesKept (l : LineId) (s : State) :
    ∃ t, execLineUnjam l s = .next t ∧ LinesKept s t := by
  refine ⟨_, rfl, ?_⟩
  split
  · exact setLine_linesKept (unjammed_sound s l)
  · exact .refl s

theorem execPollCycleStart_linesKept (l : LineId) (s : State) :
    ∃ t, execPollCycleStart l s = .next t ∧ LinesKept s t := by
  refine ⟨_, rfl, ?_⟩
  split
  · exact .refl s
  · exact setLine_linesKept (nextCycle_sameWork _ _ _).sound

theorem execLineActivity_linesKept (l : LineId) (s : State) :
    ∃ t, execLineActivity l s = .next t ∧ LinesKept s t :=
  ⟨_, rfl, onLine_linesKept _ _ _ (LineRec.activity_sameWork _ _).sound⟩

/-! ## Every command and event -/

/-- Every command and event keeps R112 and R117. -/
theorem exec_linesKept (c : Instr) (s : State) : ∃ t, exec c s = .next t ∧ LinesKept s t := by
  cases c with
  | powerOnReset straps => exact ⟨_, rfl, fun _ => afterReset_linesInv _ _ _ _ _ _⟩
  | pinReset straps n =>
    refine ⟨_, rfl, ?_⟩
    split
    · exact .refl s
    · exact fun _ => afterReset_linesInv _ _ _ _ _ _
  | resetRelease =>
    refine ⟨_, rfl, ?_⟩
    split
    · exact fun _ => afterReset_linesInv s.now .held .power usualStraps s.drawn s.pending
    · exact .refl s
  | portsReady => exact ⟨_, rfl, LinesLeft.kept (.ite (.of_lines rfl))⟩
  | voidTransaction p sdi => exact ⟨_, rfl, (onPort_linesLeft _ _ _).kept⟩
  | readTransaction p n => exact ⟨_, rfl, (onPort_linesLeft _ _ _).kept⟩
  | badFrame p frame => exact ⟨_, rfl, (onPort_linesLeft _ _ _).kept⟩
  | overrun p =>
    exact ⟨_, rfl, LinesLeft.kept (.ite ((goodFrameTaken_onlyTable _ _).linesLeft.trans (.of_lines rfl)))⟩
  | unknownCommand p code seq payload =>
    refine ⟨_, rfl, LinesLeft.kept ?_⟩
    split
    · exact .refl s
    · exact takeFrame_linesLeft _ _ _ _ _ .refl
  | status p seq payload => exact ⟨_, rfl, (command_linesLeft _ _ _ _ _ _ _ fun _ => .of_lines rfl).kept⟩
  | keepalive p seq payload => exact ⟨_, rfl, (command_linesLeft _ _ _ _ _ _ _ .refl).kept⟩
  | readPlan p seq payload => exact ⟨_, rfl, (command_linesLeft _ _ _ _ _ _ _ (readPlanBody_linesLeft _ _)).kept⟩
  | readEntries p seq payload => exact ⟨_, rfl, (command_linesLeft _ _ _ _ _ _ _ .refl).kept⟩
  | readUnits p seq payload => exact ⟨_, rfl, (command_linesLeft _ _ _ _ _ _ _ (readUnitsBody_linesLeft _ _)).kept⟩
  | readStations p seq payload =>
    exact ⟨_, rfl, (command_linesLeft _ _ _ _ _ _ _ (readStationsBody_linesLeft _ _)).kept⟩
  | readDelivery p seq payload =>
    exact ⟨_, rfl, (command_linesLeft _ _ _ _ _ _ _ (readDeliveryBody_linesLeft _ _)).kept⟩
  | notices p seq payload =>
    exact ⟨_, rfl, (command_linesLeft _ _ _ _ _ _ _ (noticesBody_linesLeft p)).kept⟩
  | setNoticeMask p seq payload => exact ⟨_, rfl, (command_linesLeft _ _ _ _ _ _ _ fun _ => .of_lines rfl).kept⟩
  | counters p seq payload => exact ⟨_, rfl, (command_linesLeft _ _ _ _ _ _ _ (countersBody_linesLeft _ _)).kept⟩
  | request p seq payload => exact ⟨_, rfl, (command_linesLeft _ _ _ _ _ _ _ (requestBody_linesLeft _ _)).kept⟩
  | withdraw p seq payload => exact ⟨_, rfl, (command_linesLeft _ _ _ _ _ _ _ (withdrawBody_linesLeft _ _)).kept⟩
  | withdrawAll p seq => exact ⟨_, rfl, (command_linesLeft _ _ _ _ _ _ _ (withdrawAllBody_linesLeft _)).kept⟩
  | release p seq payload => exact ⟨_, rfl, (command_linesLeft _ _ _ _ _ _ _ (releaseBody_linesLeft _ _ _ _)).kept⟩
  | inhibitQp p seq payload => exact ⟨_, rfl, (command_linesLeft _ _ _ _ _ _ _ (inhibitBody_linesLeft _ _)).kept⟩
  | geometryWrite p seq payload =>
    exact ⟨_, rfl, (command_linesLeft _ _ _ _ _ _ _ (geometryBody_linesLeft _ _ _ _ _)).kept⟩
  | stationWrite p seq payload =>
    exact ⟨_, rfl, (command_linesLeft _ _ _ _ _ _ _ (geometryBody_linesLeft _ _ _ _ _)).kept⟩
  | boundaryWrite p seq payload => exact ⟨_, rfl, (command_linesLeft _ _ _ _ _ _ _ (boundaryBody_linesLeft _)).kept⟩
  | commit p seq payload => exact ⟨_, rfl, (command_linesLeft _ _ _ _ _ _ _ commitBody_linesLeft).kept⟩
  | commitValidationEnd =>
    refine ⟨_, rfl, LinesLeft.kept (.ite ?_)⟩
    split
    · exact endValidation_linesLeft s
    · exact (endValidation_linesLeft s).trans (placeReply_onlyPort _ _ _).linesLeft
  | paramSet p seq payload => exact ⟨_, rfl, (command_linesLeft _ _ _ _ _ _ _ (paramBody_linesLeft _)).kept⟩
  | setModeLive p seq payload => exact ⟨_, rfl, (takeFrame_linesLeft _ _ _ _ _ (setModeBody_linesLeft _ _)).kept⟩
  | setModeShadow p seq payload => exact ⟨_, rfl, (takeFrame_linesLeft _ _ _ _ _ (setModeBody_linesLeft _ _)).kept⟩
  | restart p seq payload => exact ⟨_, rfl, (command_linesLeft _ _ _ _ _ _ _ restartBody_linesLeft).kept⟩
  | portSilent p => exact ⟨_, rfl, LinesLeft.kept (.ite (fallSilent_linesLeft _ _))⟩
  | entryExpiry slot =>
    refine ⟨_, rfl, LinesLeft.kept ?_⟩
    split
    · exact .refl s
    · exact .ite ((changeTable_linesLeft _ _).trans (notifyOwner_linesLeft _ _ _))
  | holdDeadlineExpiry => exact ⟨_, rfl, LinesLeft.kept (.ite (.of_lines rfl))⟩
  | passStart => exact ⟨_, rfl, LinesLeft.kept (.ite (.of_lines rfl))⟩
  | passEnd =>
    refine ⟨_, rfl, LinesLeft.kept ?_⟩
    split
    · exact .refl s
    · exact endPass_linesLeft _ _
  | faultHoldExpiry k =>
    refine ⟨_, rfl, LinesLeft.kept ?_⟩
    split
    · exact .refl s
    · exact .ite (endFaultHold_linesLeft _ _)
  | inhibitExpiry k =>
    refine ⟨_, rfl, LinesLeft.kept ?_⟩
    split
    · exact .refl s
    · exact .ite (((setStation_handing _ _).trans (handStation_handing _ _)).linesLeft)
  | lineQuiet l cut => exact execLineQuiet_linesKept _ _ _
  | frameStart l => exact execFrameStart_linesKept _ _
  | frameSent l => exact execFrameSent_linesKept _ _
  | validReply l frame => exact execValidReply_linesKept _ _ _
  | replyFrameError l frame => exact execReplyFrameError_linesKept _ _ _
  | invertedReply l => exact execInvertedReply_linesKept _ _
  | falseActivity l frame => exact execFalseActivity_linesKept _ _ _
  | replyWindowEnd l => exact execReplyWindowEnd_linesKept _ _
  | lineJam l => exact execLineJam_linesKept _ _
  | jamContinues l => exact execJamContinues_linesKept _ _
  | lineUnjam l => exact execLineUnjam_linesKept _ _
  | pollCycleStart l => exact execPollCycleStart_linesKept _ _
  | lineActivity l => exact execLineActivity_linesKept _ _

end Sys2Proof.Machine

open Sys2Proof Sys2Proof.Machine

/-- Settles O59: the idle part leaves the lines, and every command and event keeps what R112 and R117 say of them. -/
theorem linesInvKeptByEveryStep : Obligations.LinesInvKeptByEveryStep := by
  intro s t hs h
  unfold step at h
  split at h
  · cases h
    have idle : LinesLeft s s.idle := by
      unfold State.idle
      split <;> exact .of_lines rfl
    exact idle.kept hs
  · rename_i c rest _
    obtain ⟨u, hu, hk⟩ := exec_linesKept c { s with pending := rest }
    cases hu.symm.trans h
    exact hk hs
end

section
/-! SUPPORT. What the events that change one line's record alone make of it (R108 to R117, R119, R124). -/

namespace Sys2Proof.Machine

/-- A state that differs in one line's record alone. -/
theorem onlyLine_setLine (s : State) (l : LineId) (r : LineRec) : OnlyLine l s (s.setLine l r) := by
  unfold OnlyLine
  rw [State.setLine_line, if_pos rfl]

theorem setLine_line_self (s : State) (l : LineId) (r : LineRec) : (s.setLine l r).line l = r := by
  rw [State.setLine_line, if_pos rfl]

theorem awake_of_not_held {s : State} (h : s.phase ≠ .held) : s.awake = true := decide_eq_true h

theorem onLine_awake {s : State} (h : s.phase ≠ .held) (l : LineId) (f : LineRec → LineRec) :
    s.onLine l f = s.setLine l (f (s.line l)) := by
  unfold State.onLine
  rw [awake_of_not_held h, if_pos rfl]

/-! ## Activity (R108) -/

theorem LineRec.heard_eq (r : LineRec) (now : Nat) : r.heard now = r.activity now := rfl

@[simp] theorem LineRec.activity_counters (r : LineRec) (now : Nat) : (r.activity now).counters = r.counters := by
  rw [LineRec.activity_eq]
@[simp] theorem LineRec.activity_streak (r : LineRec) (now : Nat) : (r.activity now).streak = r.streak := by
  rw [LineRec.activity_eq]
@[simp] theorem LineRec.activity_flipNext (r : LineRec) (now : Nat) : (r.activity now).flipNext = r.flipNext := by
  rw [LineRec.activity_eq]
@[simp] theorem LineRec.activity_state (r : LineRec) (now : Nat) : (r.activity now).state = r.state := by
  rw [LineRec.activity_eq]
@[simp] theorem LineRec.activity_driving (r : LineRec) (now : Nat) : (r.activity now).driving = r.driving := by
  rw [LineRec.activity_eq]
@[simp] theorem LineRec.activity_skipping (r : LineRec) (now : Nat) : (r.activity now).skipping = r.skipping := by
  rw [LineRec.activity_eq]
@[simp] theorem LineRec.activity_burstCounted (r : LineRec) (now : Nat) :
    (r.activity now).burstCounted = r.burstCounted := by
  rw [LineRec.activity_eq]

/-- R108: what the part sends is no activity. -/
theorem LineRec.activity_driven (r : LineRec) (now : Nat) (h : r.driving = true) : r.activity now = r := by
  unfold LineRec.activity
  rw [if_pos h]

/-! ## Windows and verdicts (R113) -/

theorem LineRec.openWindow_iff (r : LineRec) (x : Transaction) :
    r.openWindow = some x ↔ r.transaction = some x ∧ ∃ d, x.stage = .window d := by
  refine ⟨transaction_of_openWindow, fun ⟨hx, d, hd⟩ => ?_⟩
  unfold LineRec.openWindow
  rw [hx]
  dsimp only
  rw [hd]

theorem verdict_iff (s : State) (l : LineId) (frame : List Byte) (v : Verdict) :
    s.verdict l frame = some v ↔ ∃ x u, (s.line l).openWindow = some x ∧ (s.line l).skipping = false ∧
      s.unit x.unit = some u ∧ v = judgeReply u.owner u.address frame := by
  unfold State.verdict
  rcases hx : (s.line l).openWindow with _ | x
  · simp
  cases hs : (s.line l).skipping with
  | true => simp
  | false =>
    rcases hu : s.unit x.unit with _ | u
    · simp [hu]
    · simp [hu, eq_comm]

theorem openWindow_of_verdict {s : State} {l : LineId} {frame : List Byte} {v : Verdict}
    (h : s.verdict l frame = some v) : ∃ x, (s.line l).openWindow = some x := by
  obtain ⟨x, _, hx, -⟩ := (verdict_iff s l frame v).1 h
  exact ⟨x, hx⟩

/-- A line on which no frame has begun is cut short of none. -/
theorem verdict_nil (s : State) (l : LineId) (v : Verdict) (h : s.verdict l [] = some v) : v = .discarded := by
  obtain ⟨x, u, -, -, -, hv⟩ := (verdict_iff s l [] v).1 h
  exact hv

/-! ## Bursts (R115) -/

/-- A burst is counted on a NORMAL line, once, and not within an inverted reply that is skipped. -/
theorem LineRec.countBurst_counted (r : LineRec) (hs : r.state = .normal) (hd : r.driving = false)
    (hk : r.skipping = false) (hb : r.burstCounted = false) : r.countBurst = r.countFalseActivity := by
  simp [LineRec.countBurst, hs, hd, hk, hb]

theorem LineRec.countBurst_again (r : LineRec) (hb : r.burstCounted = true) : r.countBurst = r := by
  simp [LineRec.countBurst, hb]

theorem LineRec.countBurst_jammed (r : LineRec) (hs : r.state = .jammed) : r.countBurst = r := by
  simp [LineRec.countBurst, hs]

/-! ## The end of a frame that quiet cuts short (R108) -/

/-- Only the counters and the mark of a counted burst change. -/
theorem endFrame_eq (s : State) (l : LineId) (cut : List Byte) :
    s.endFrame l cut = { s.line l with
      burstCounted := (s.endFrame l cut).burstCounted
      counters := (s.endFrame l cut).counters } := by
  unfold State.endFrame LineRec.countBurst
  dsimp only
  split
  · rfl
  split
  · split <;> rfl
  · split <;> rfl

theorem endFrame_nil (s : State) (l : LineId) : s.endFrame l [] = s.line l := rfl

theorem endFrame_outside {s : State} {l : LineId} {cut : List Byte} (hc : cut ≠ [])
    (h : (s.line l).openWindow = none) : s.endFrame l cut = (s.line l).countBurst := by
  unfold State.endFrame
  simp [hc, h]

theorem endFrame_incomplete {s : State} {l : LineId} {cut : List Byte} (h : s.verdict l cut = some .incomplete) :
    s.endFrame l cut = (s.line l).countFrameError := by
  obtain ⟨x, hx⟩ := openWindow_of_verdict h
  have hc : cut ≠ [] := by
    rintro rfl
    cases verdict_nil s l _ h
  unfold State.endFrame
  simp [hc, hx, h]

/-! ## Quiet (R108, R117) -/

theorem exec_lineQuiet_noisy {s : State} (hp : s.phase ≠ .held) {l : LineId} (h : (s.line l).quiet = false)
    (cut : List Byte) : exec (.lineQuiet l cut) s = .next (s.setLine l (s.endFrame l cut).becomeQuiet) := by
  show Host.Outcome.next (if s.awake && !(s.line l).quiet then _ else _) = _
  rw [awake_of_not_held hp, h]
  rfl

theorem exec_lineQuiet_quiet {s : State} {l : LineId} (h : (s.line l).quiet = true) (cut : List Byte) :
    exec (.lineQuiet l cut) s = .next s := by
  show Host.Outcome.next (if s.awake && !(s.line l).quiet then _ else _) = _
  rw [h, Bool.not_true, Bool.and_false]
  rfl

/-- The idle part takes LINE_QUIET one reading after the last activity (log entry 8). -/
theorem lineQuiet_due {s : State} (hp : s.phase ≠ .held) {l : LineId} (h : (s.line l).quiet = false)
    (hn : (s.line l).lastActive < s.now) : Instr.lineQuiet l [] ∈ s.dueEvents := by
  have due : Instr.lineQuiet l [] ∈ s.dueLine l := by
    unfold State.dueLine
    refine List.mem_append_right _ ?_
    have q : (s.line l).quietDue s.now = true := by
      unfold LineRec.quietDue
      rw [h, decide_eq_true (Nat.succ_le_of_lt hn)]
      rfl
    rw [awake_of_not_held hp, q]
    exact List.mem_singleton.2 rfl
  unfold State.dueEvents
  refine List.mem_append_right _ (List.mem_flatMap.2 ⟨l, ?_, due⟩)
  cases l <;> simp [allLines]

end Sys2Proof.Machine

open Sys2Proof Sys2Proof.Machine

/-- Settles O47: what becomes quiet is the line with the frame it cut short counted, and activity is `LineRec.activity`. -/
theorem activityAndQuiet : Obligations.ActivityAndQuiet := by
  intro l cut s hp
  have active : exec (.lineActivity l) s = .next (s.setLine l ((s.line l).activity s.now)) :=
    congrArg Host.Outcome.next (onLine_awake hp l _)
  refine ⟨active, fun hd => ?_, fun hd hs => ?_, fun hd hs => ?_, lineQuiet_due hp, fun hq => exec_lineQuiet_quiet hq cut,
    fun hq => ⟨_, exec_lineQuiet_noisy hp hq cut, onlyLine_setLine _ _ _, ?_⟩⟩
  · rw [active, LineRec.activity_driven _ _ hd, State.setLine_self]
  · rw [active, LineRec.activity_normal _ _ hd hs]
  · rw [active, LineRec.activity_jammed _ _ hd hs]
  · rw [setLine_line_self]
    refine ⟨?_, ?_, fun _ _ hv => ?_, fun ho hc hs hd hk hb => ?_⟩
    · rw [endFrame_eq]
      rfl
    · rintro rfl
      rfl
    · rw [endFrame_incomplete hv]
      rfl
    · rw [endFrame_outside hc ho, LineRec.countBurst_counted _ hs hd hk hb]
      rfl

/-- Settles O51: the verdict of a frame decides which count it raises, and its characters are activity. -/
theorem repliesThatAreNoneOnlyCount : Obligations.RepliesThatAreNoneOnlyCount := by
  intro l frame s
  refine ⟨judgeReply_rules, verdict_iff s l frame, LineRec.openWindow_iff _, fun hv => ?_, fun hw hk hn => ?_,
    fun hw hk hn => ?_, fun hv => ?_, fun hp hw hs hd hk => ?_, fun hp hw hs => ?_⟩
  · have counted : exec (.replyFrameError l frame) s =
        .next (s.setLine l ((s.line l).activity s.now).countFrameError) := by
      show execReplyFrameError l frame s = _
      unfold execReplyFrameError
      rcases hv with hv | hv <;> rw [hv]
    rw [counted, LineRec.countFrameError, LineRec.activity_counters]
    rfl
  · show execInvertedReply l s = _
    unfold execInvertedReply LineRec.inverted
    rw [hw, hk, LineRec.activity_streak, if_neg (show ¬ Config.polarityStreak ≤ _ from by simp [Config.polarityStreak]; omega)]
    rfl
  · show execInvertedReply l s = _
    unfold execInvertedReply LineRec.inverted
    rw [hw, hk, LineRec.activity_streak, if_pos (show Config.polarityStreak ≤ _ from by simp [Config.polarityStreak]; omega),
      LineRec.activity_counters, LineRec.activity_flipNext]
    rfl
  · obtain ⟨x, hx⟩ := openWindow_of_verdict hv
    show execFalseActivity l frame s = _
    unfold execFalseActivity
    rw [hx, hv]
    dsimp only
    rw [LineRec.countFalseActivity, LineRec.activity_counters]
    rfl
  · have burst : exec (.falseActivity l frame) s =
        .next (s.setLine l ((s.line l).activity s.now).countBurst) := by
      show execFalseActivity l frame s = _
      unfold execFalseActivity
      rw [hw]
      exact congrArg Host.Outcome.next (onLine_awake hp l _)
    rw [burst]
    cases hb : (s.line l).burstCounted with
    | true =>
      rw [LineRec.countBurst_again _ (by rw [LineRec.activity_burstCounted, hb])]
      rfl
    | false =>
      rw [LineRec.countBurst_counted _ (by simpa) (by simpa) (by simpa) (by simpa), LineRec.countFalseActivity,
        LineRec.activity_counters]
      rfl
  · show execFalseActivity l frame s = _
    unfold execFalseActivity
    rw [hw]
    dsimp only
    rw [onLine_awake hp, LineRec.countBurst_jammed _ (by simpa)]
    rfl
end

section
/-! SUPPORT. When a line starts a frame, and for which work (R112, R121), and its poll cycles (R122). -/

namespace Sys2Proof.Machine

/-! ## Frames started (R112, R121) -/

theorem exec_frameStart_work {s : State} {l : LineId} {w : Work} (h : s.workDue l = some w) :
    exec (.frameStart l) s = .next (s.startWork l w) := by
  show execFrameStart l s = _
  unfold execFrameStart
  rw [h]

theorem exec_frameStart_none {s : State} {l : LineId} (h : s.workDue l = none) :
    exec (.frameStart l) s = .next s := by
  show execFrameStart l s = _
  unfold execFrameStart
  rw [h]

theorem LineRec.clear_iff (r : LineRec) :
    r.clear = true ↔ r.state = .normal ∧ r.quiet = true ∧ r.driving = false := by
  simp [LineRec.clear, and_assoc]

/-- A line that can start a frame starts what its arbiter gives. -/
theorem workDue_clear {s : State} (hp : s.phase ≠ .held) {l : LineId} (hc : (s.line l).clear = true) :
    s.workDue l = arbiter s.mode (s.line l) := by
  unfold State.workDue
  rw [awake_of_not_held hp, hc]
  rfl

theorem workDue_blocked {s : State} {l : LineId} (hc : (s.line l).clear ≠ true) : s.workDue l = none := by
  unfold State.workDue
  rw [Bool.eq_false_iff.2 hc, Bool.and_false]
  rfl

/-- Without work for the arbiter no frame starts. -/
theorem workDue_idle {s : State} {l : LineId} (h : arbiter s.mode (s.line l) = none) : s.workDue l = none := by
  unfold State.workDue
  split
  · exact h
  · rfl

theorem arbiter_busy {m : Mode} {r : LineRec} {x : Transaction} (hx : r.transaction = some x)
    (hs : x.stage ≠ .retryOwed) : arbiter m r = none := by
  unfold arbiter
  rw [hx]
  simp [hs]

theorem arbiter_retry {m : Mode} {r : LineRec} {x : Transaction} (hx : r.transaction = some x)
    (hs : x.stage = .retryOwed) : arbiter m r = if x.sendable m then some (.retry x) else none := by
  unfold arbiter
  rw [hx]
  simp [hs]

theorem arbiter_set {m : Mode} {r : LineRec} {c : SetCommand} (hx : r.transaction = none)
    (hc : arbiterSet m r.queue = some c) : arbiter m r = some (.set c) := by
  unfold arbiter
  rw [hx]
  dsimp only
  rw [hc]

theorem arbiter_poll {m : Mode} {r : LineRec} (hx : r.transaction = none) (hc : arbiterSet m r.queue = none) :
    arbiter m r = (r.cycle.bind fun c => c.due.head?).map .poll := by
  unfold arbiter
  rw [hx]
  dsimp only
  rw [hc]

/-! ## Frames sent (R109, R112, R116) -/

/-- R109: the bytes of a POLL. -/
theorem pollFrame_eq (a : Nat) : fieldFrame a kindPoll [] = [0x7E, byte a, 0x10, 0] ++ crcBytes [0] := rfl

theorem LineRec.send_sense (r : LineRec) (t : Transaction) :
    (r.send t).sense = if r.flipNext then r.sense.flipped else r.sense := rfl

theorem LineRec.send_sent (r : LineRec) (t : Transaction) : (r.send t).sent = onWire (r.send t).sense t.frame := rfl

theorem LineRec.send_transaction (r : LineRec) (t : Transaction) : (r.send t).transaction = some t := rfl

theorem onWire_eq (x : Sense) (f : List Byte) : onWire x f = if x = .normal then f else f.map fun b => ~~~b := by
  cases x <;> rfl

/-- The end of a frame (R108, R113). -/
theorem exec_frameSent {s : State} (hp : s.phase ≠ .held) (l : LineId) :
    exec (.frameSent l) s = .next (s.setLine l ((s.line l).frameSent s.now)) :=
  congrArg Host.Outcome.next (onLine_awake hp l _)

/-! ## Poll cycles (R122) -/

theorem newCycle_ascending (s : State) (l : LineId) (n : Nat) : (s.newCycle l n).due.Pairwise (· ≤ ·) := by
  show (sortNats _).Pairwise _
  rw [sortNats_eq]
  exact List.pairwise_insertionSort _ _

theorem mem_newCycle (s : State) (l : LineId) (n a : Nat) :
    a ∈ (s.newCycle l n).due ↔ ∃ u ∈ s.units, u.line = l ∧ u.address = a ∧ (u.state ≠ .lost ∨ n = 0) := by
  show a ∈ sortNats _ ↔ _
  rw [sortNats_eq, List.mem_insertionSort]
  simp only [List.mem_map, List.mem_filter, Bool.and_eq_true, Bool.or_eq_true, decide_eq_true_eq]
  exact exists_congr fun u => ⟨fun ⟨⟨hu, hl, hs⟩, ha⟩ => ⟨hu, hl, ha, hs⟩, fun ⟨hu, hl, ha, hs⟩ => ⟨⟨hu, hl, hs⟩, ha⟩⟩

theorem PollCycle.over_iff (c : PollCycle) (now : Nat) : c.over now = true ↔ c.start + c.period ≤ now ∧ c.due = [] := by
  simp [PollCycle.over]

theorem PollCycle.stretched_iff (c : PollCycle) :
    c.stretched = true ↔ ∃ e, c.emptied = some e ∧ c.start + c.period < e := by
  unfold PollCycle.stretched
  cases c.emptied <;> simp

theorem exec_pollCycleStart {s : State} {l : LineId} {c : PollCycle} (hc : (s.line l).cycle = some c) :
    exec (.pollCycleStart l) s = .next (if c.over s.now then s.setLine l (s.nextCycle l c) else s) := by
  show execPollCycleStart l s = _
  unfold execPollCycleStart State.cycleDue
  rw [hc]
  dsimp only
  cases c.over s.now <;> rfl

theorem exec_lineUnjam {s : State} {l : LineId} {d : Nat} (hs : (s.line l).state = .jammed)
    (hd : (s.line l).unjamTimer = some d) :
    exec (.lineUnjam l) s = .next (if d + 500 ≤ s.now then s.setLine l (s.unjammed l) else s) := by
  have due : (s.line l).unjamDue s.now = decide (d + 500 ≤ s.now) := by
    unfold LineRec.unjamDue
    rw [hs, hd]
    rfl
  show execLineUnjam l s = _
  unfold execLineUnjam
  rw [due]
  simp only [decide_eq_true_eq]

end Sys2Proof.Machine

open Sys2Proof Sys2Proof.Machine

/-- Settles O54: `newCycle` lists the line's units in order, and each event acts exactly when it is due. -/
theorem unjamAndNextPollCycle : Obligations.UnjamAndNextPollCycle := by
  intro l s
  refine ⟨fun d hs hd => ⟨fun hn => ?_, fun hn => ⟨_, ?_, onlyLine_setLine s l (s.unjammed l), ?_⟩⟩,
    fun c hc => ⟨fun hn => ?_, fun hn he => ⟨_, ?_, onlyLine_setLine s l (s.nextCycle l c), ?_⟩⟩⟩
  · rw [exec_lineUnjam hs hd, if_neg (by omega)]
  · rw [exec_lineUnjam hs hd, if_pos hn]
  · rw [setLine_line_self]
    refine ⟨rfl, rfl, rfl, rfl, rfl, rfl, fun hg => ⟨s.newCycle l 0, if_pos hg, rfl, rfl, newCycle_ascending _ _ _, ?_⟩⟩
    intro a
    rw [mem_newCycle]
    simp
  · rw [exec_pollCycleStart hc, if_neg]
    rw [PollCycle.over_iff]
    rintro ⟨hp, he⟩
    rcases hn with hn | hn
    · omega
    · exact hn he
  · rw [exec_pollCycleStart hc, if_pos ((PollCycle.over_iff _ _).2 ⟨hn, he⟩)]
  · rw [setLine_line_self]
    refine ⟨s.newCycle l ((c.number + 1) % 4), ?_, rfl, rfl, rfl, newCycle_ascending _ _ _, mem_newCycle _ _ _⟩
    unfold State.nextCycle
    simp only [PollCycle.stretched_iff]
    rfl

/-- Settles O48: the arbiter of a clear line without a retry and a SET takes the head of the cycle's list. -/
theorem pollFrameStartsAndIsSent : Obligations.PollFrameStartsAndIsSent := by
  intro l s hp
  refine ⟨fun c a rest hs hq hd hx ha hc hdue => ?_, fun h => ?_, fun hx ha hc => ?_, fun x hx hst => ?_,
    fun x hd hx => ?_, fun hd => ?_⟩
  · have work : s.workDue l = some (.poll a) := by
      rw [workDue_clear hp ((LineRec.clear_iff _).2 ⟨hs, hq, hd⟩), arbiter_poll hx ha, hc]
      simp [hdue]
    refine ⟨_, exec_frameStart_work work, ?_⟩
    rw [startWork_poll]
    refine ⟨onlyLine_setLine _ _ _, ?_⟩
    rw [setLine_line_self]
    refine ⟨rfl, rfl, fun h => ?_, fun h => ?_, ⟨s.slotAt l a, rfl, slotAt_eq s l a⟩, c.strike a s.now, ?_, rfl, ?_⟩
    · rw [LineRec.send_sent, h]
      rfl
    · rw [LineRec.send_sent, h]
      rfl
    · show (s.line l).cycle.map _ = _
      rw [hc]
      rfl
    · show c.due.filter _ = _
      rw [hdue]
  · refine exec_frameStart_none (workDue_blocked fun hc => ?_)
    obtain ⟨hs, hq, hd⟩ := (LineRec.clear_iff _).1 hc
    rw [hs, hq, hd] at h
    simp at h
  · refine exec_frameStart_none (workDue_idle ?_)
    rw [arbiter_poll hx ha]
    rcases hcy : (s.line l).cycle with _ | c
    · rfl
    · simp [hc c hcy]
  · exact exec_frameStart_none (workDue_idle (arbiter_busy hx hst))
  · rw [exec_frameSent hp, LineRec.frameSent, if_pos hd, hx]
    rfl
  · rw [exec_frameSent hp, LineRec.frameSent, hd]
    exact congrArg _ (State.setLine_self s l)
end

section
/-! SUPPORT. The arbiter's choice among the SET commands that wait (R121), and what the start of a SET leaves of its site
(R147, R149, R156). -/

namespace Sys2Proof.Machine

/-! ## The command of lowest and of highest site (R121) -/

/-- Of a list, the element taken by comparing each with the best so far, where one is better than every other. -/
theorem foldl_best {α : Type} (better : α → α → Bool) (asymm : ∀ x y, better x y = true → better y x = false) (c : α)
    (xs : List α) (hc : ∀ x ∈ xs, x ≠ c → better c x = true) (b : α) (hb : b ≠ c → better c b = true)
    (hm : c = b ∨ c ∈ xs) : xs.foldl (fun b x => if better x b then x else b) b = c := by
  induction xs generalizing b with
  | nil => exact (hm.resolve_right List.not_mem_nil).symm
  | cons x xs ih =>
    have hx := hc x (by simp)
    refine ih (fun y hy => hc y (List.mem_cons_of_mem _ hy)) _ ?_ ?_ <;> dsimp only
    · split
      · exact hx
      · exact hb
    · by_cases hbc : b = c
      · left
        subst hbc
        by_cases e : x = b
        · rw [e, ite_self]
        · rw [if_neg]
          rw [asymm _ _ (hx e)]
          exact Bool.false_ne_true
      · rcases hm with hm | hm
        · exact absurd hm.symm hbc
        · rcases List.mem_cons.1 hm with e | hm
          · left
            rw [← e, if_pos (hb hbc)]
          · exact Or.inr hm

theorem lowestSite_first {xs : List SetCommand} {c : SetCommand} (hc : c ∈ xs)
    (hf : ∀ x ∈ xs, x ≠ c → c.site < x.site) : lowestSite xs = some c := by
  cases xs with
  | nil => cases hc
  | cons x xs =>
    have best := foldl_best (fun a b : SetCommand => decide (a.site < b.site))
      (fun a b h => by simp only [decide_eq_true_eq, decide_eq_false_iff_not] at h ⊢; omega) c xs
      (fun y hy e => decide_eq_true (hf y (by simp [hy]) e)) x (fun e => decide_eq_true (hf x (by simp) e))
      (List.mem_cons.1 hc)
    simp only [decide_eq_true_eq] at best
    exact congrArg some best

theorem highestSite_first {xs : List SetCommand} {c : SetCommand} (hc : c ∈ xs)
    (hf : ∀ x ∈ xs, x ≠ c → x.site < c.site) : highestSite xs = some c := by
  cases xs with
  | nil => cases hc
  | cons x xs =>
    have best := foldl_best (fun a b : SetCommand => decide (b.site < a.site))
      (fun a b h => by simp only [decide_eq_true_eq, decide_eq_false_iff_not] at h ⊢; omega) c xs
      (fun y hy e => decide_eq_true (hf y (by simp [hy]) e)) x (fun e => decide_eq_true (hf x (by simp) e))
      (List.mem_cons.1 hc)
    simp only [decide_eq_true_eq] at best
    exact congrArg some best

theorem SetCommand.tightens_iff (c : SetCommand) : c.tightens = true ↔ c.part = .tightening := decide_eq_true_iff

/-- A command that waits in a queue. -/
theorem mem_waiting {q : List SetCommand} {x : SetCommand} :
    x ∈ q.filter (fun c => !c.inProgress) ↔ x ∈ q ∧ x.inProgress = false := by simp

/-- R121: the tightening command of lowest site goes first. -/
theorem arbiterSet_tightening {m : Mode} {q : List SetCommand} {c : SetCommand} (hm : m.delivers = true) (hc : c ∈ q)
    (hp : c.inProgress = false) (ht : c.part = .tightening)
    (hf : ∀ x ∈ q, x.inProgress = false → x ≠ c → x.part = .tightening → c.site < x.site) :
    arbiterSet m q = some c := by
  unfold arbiterSet
  rw [if_pos hm]
  dsimp only
  rw [lowestSite_first (c := c)]
  · rfl
  · exact List.mem_filter.2 ⟨mem_waiting.2 ⟨hc, hp⟩, c.tightens_iff.2 ht⟩
  · intro x hx e
    obtain ⟨hw, hxt⟩ := List.mem_filter.1 hx
    obtain ⟨hq, hxp⟩ := mem_waiting.1 hw
    exact hf x hq hxp e (x.tightens_iff.1 hxt)

/-- R121: where no tightening command waits, the command of highest site goes first. -/
theorem arbiterSet_relaxing {m : Mode} {q : List SetCommand} {c : SetCommand} (hm : m.delivers = true) (hc : c ∈ q)
    (hp : c.inProgress = false) (ht : c.part ≠ .tightening)
    (hf : ∀ x ∈ q, x.inProgress = false → x ≠ c → x.part ≠ .tightening ∧ x.site < c.site) :
    arbiterSet m q = some c := by
  unfold arbiterSet
  rw [if_pos hm]
  dsimp only
  have none_tightens : (q.filter fun c => !c.inProgress).filter SetCommand.tightens = [] := by
    refine List.filter_eq_nil_iff.2 fun x hx h => ?_
    obtain ⟨hq, hxp⟩ := mem_waiting.1 hx
    have tight := x.tightens_iff.1 h
    by_cases e : x = c
    · exact ht (e ▸ tight)
    · exact (hf x hq hxp e).1 tight
  have highest : highestSite ((q.filter fun c => !c.inProgress).filter fun c => !c.tightens) = some c := by
    refine highestSite_first ?_ fun x hx e => ?_
    · refine List.mem_filter.2 ⟨mem_waiting.2 ⟨hc, hp⟩, ?_⟩
      rw [Bool.not_eq_true', Bool.eq_false_iff]
      exact fun h => ht (c.tightens_iff.1 h)
    · obtain ⟨hw, -⟩ := List.mem_filter.1 hx
      obtain ⟨hq, hxp⟩ := mem_waiting.1 hw
      exact (hf x hq hxp e).2
  rw [none_tightens, highest]
  rfl

theorem arbiterSet_held {m : Mode} (hm : m.delivers = false) (q : List SetCommand) : arbiterSet m q = none := by
  unfold arbiterSet
  rw [hm]
  rfl

theorem delivers_iff (m : Mode) : m.delivers = true ↔ m = .live ∨ m = .darkening := by
  cases m <;> simp [Mode.delivers]

theorem delivers_false_iff (m : Mode) : m.delivers = false ↔ m = .unconfigured ∨ m = .shadow := by
  cases m <;> simp [Mode.delivers]

/-! ## A site in flight (R147, R149, R156) -/

theorem recheck_idle {s : State} {i : Nat} (h : s.waitingOf i = none) : s.recheck i = s := by
  unfold State.waitingOf at h
  unfold State.recheck
  rw [h]

theorem releasePart_flying {s : State} {i : Nat} {d : DeliverySite} (hd : s.site i = some d) (hf : d.inFlight = true)
    (k : PartKind) : s.releasePart i k = s := by
  unfold State.releasePart
  rw [hd]
  dsimp only
  cases d.part k with
  | none => rfl
  | some p => simp [hf]

/-- R147: judging the releases leaves a site that is in flight and for whose unit no command waits. -/
theorem judgeReleases_flying {s : State} {i : Nat} {d : DeliverySite} (hd : s.site i = some d)
    (hf : d.inFlight = true) (hw : s.waitingOf i = none) :
    s.judgeReleases.site i = some d ∧ s.judgeReleases.waitingOf i = none := by
  rw [judgeReleases_eq]
  obtain ⟨a, h1, h2⟩ := forSites_at s (fun i st => st.recheck i) i (fun j s h => recheck_untouched s i j h)
    (site_some_lt hd)
  rw [recheck_idle (h1.waiting.trans hw)] at h2
  have stands := h1.trans h2
  obtain ⟨b, g1, g2⟩ := forSites_at (s.forSites fun i st => st.recheck i) (fun i st => st.releaseSite i) i
    (fun j s h => releaseSite_untouched i j s h) (site_some_lt (stands.site.trans hd))
  have hb : b.site i = some d := (stands.trans g1).site.trans hd
  have release : b.releaseSite i = b := by
    unfold State.releaseSite
    rw [releasePart_flying hb hf, releasePart_flying hb hf, releasePart_flying hb hf]
  rw [release] at g2
  have all := (stands.trans g1).trans g2
  exact ⟨all.site.trans hd, all.waiting.trans hw⟩

/-- R156: a delivery with something still to deliver goes on. -/
theorem judgeCompletion_busy {s : State} (h : s.delivery.Busy) : s.judgeCompletion = s := by
  unfold State.judgeCompletion
  rw [(busy_iff _).1 h, Bool.not_true, Bool.and_false]
  rfl

theorem busy_of_site {s : State} {i : Nat} {d : DeliverySite} (hd : s.site i = some d)
    (h : d.inFlight = true ∨ ∃ k, Unresolved (d.part k)) : s.delivery.Busy :=
  ⟨d, List.mem_of_getElem? hd, h⟩

/-- A site in flight for whose unit no command waits stays as it is when delivery settles. -/
theorem settleDelivery_flying {s : State} {i : Nat} {d : DeliverySite} (hd : s.site i = some d)
    (hf : d.inFlight = true) (hw : s.waitingOf i = none) :
    s.settleDelivery = s.judgeReleases ∧ s.settleDelivery.site i = some d ∧ s.settleDelivery.waitingOf i = none := by
  obtain ⟨h1, h2⟩ := judgeReleases_flying hd hf hw
  have e : s.settleDelivery = s.judgeReleases := judgeCompletion_busy (busy_of_site h1 (Or.inl hf))
  exact ⟨e, by rw [e]; exact h1, by rw [e]; exact h2⟩

/-- R149: what the start of a SET makes of its site. -/
def DeliverySite.started (d : DeliverySite) (c : SetCommand) : DeliverySite :=
  { d.setPart c.part ((d.part c.part).map fun p =>
      if p.pending then { p with state := .sent, queued := false } else p) with
    inFlight := true
    commanded := some ⟨c.image, c.epoch⟩ }

theorem part_started (d : DeliverySite) (c : SetCommand) (k : PartKind) :
    (d.started c).part k = if k = c.part then (d.part c.part).map fun p =>
      if p.pending then { p with state := .sent, queued := false } else p else d.part k := by
  rw [← part_setPart]
  cases k <;> rfl

/-- R149: the start of a SET for whose unit no other command waits. -/
theorem setStarted_site {s : State} {c : SetCommand} {d : DeliverySite} (hd : s.site c.site = some d)
    (hw : s.waitingOf c.site = none) : (s.setStarted c).site c.site = some (d.started c) := by
  have h : (s.modifySite c.site fun d => d.started c).site c.site = some (d.started c) := by
    rw [modifySite_site, if_pos rfl, hd]
    rfl
  exact (settleDelivery_flying h rfl (by rw [modifySite_waiting]; exact hw)).2.1

/-- R120: once the commands of a site are marked as in progress none waits. -/
theorem waitingFor_markProgress (r : LineRec) (i : Nat) : (r.markProgress i true).waitingFor i = none := by
  refine List.find?_eq_none.2 fun x hx => ?_
  obtain ⟨y, -, rfl⟩ := List.mem_map.1 hx
  split
  · simp
  · rename_i h
    simp [h]

/-! ## The frame of a SET (R109) -/

/-- The line's record as a SET's frame starts. -/
def State.setSent (s : State) (l : LineId) (c : SetCommand) : LineRec :=
  (((s.line l).markProgress c.site true).strike (s.addressOf c.site) s.now).send (s.setTransaction c)

theorem setFrame_coded (s : State) (c : SetCommand) : ∃ b, SetCoded c.image c.epoch b ∧
    (s.setTransaction c).frame = [0x7E, byte (s.addressOf c.site), 0x11, 9] ++ b ++ crcBytes (9 :: b) :=
  ⟨setPayload c.image c.epoch, setPayload_coded _ _, rfl⟩

theorem startWork_set_line (s : State) (l : LineId) (c : SetCommand) :
    (s.startWork l (.set c)).line l =
      { s.setSent l c with queue := ((s.startWork l (.set c)).line l).queue } ∧
    ((s.startWork l (.set c)).line l).queue.filter (·.inProgress) = (s.setSent l c).queue.filter (·.inProgress) :=
  line_of_handing (startWork_set s l c)

/-- R149: delivery's record of the site to which a SET starts. -/
theorem startWork_set_site {s : State} {l : LineId} {c : SetCommand} (hl : s.siteLine c.site = l) {d : DeliverySite}
    (hd : s.site c.site = some d) : (s.startWork l (.set c)).site c.site = some (d.started c) := by
  refine setStarted_site hd ?_
  unfold State.waitingOf
  show ((s.setLine l _).line (s.siteLine c.site)).waitingFor c.site = none
  rw [hl, setLine_line_self]
  exact waitingFor_markProgress (s.line l) c.site

end Sys2Proof.Machine

open Sys2Proof Sys2Proof.Machine

/-- Settles O49: the arbiter's choice, the frame it sends, and the site in flight that delivery's judgements leave alone. -/
theorem setFrameStarts : Obligations.SetFrameStarts := by
  intro l s hp hs hq hd
  have clear : (s.line l).clear = true := (LineRec.clear_iff _).2 ⟨hs, hq, hd⟩
  refine ⟨fun c hx hm ⟨⟨hc, hcp⟩, hf⟩ _ hl => ?_, fun y hy hst => ⟨fun hm => ?_, fun hcm hm => ?_⟩,
    fun hm hx t ht x hxt => ?_⟩
  · have delivers := (delivers_iff _).2 hm
    have chosen : arbiterSet s.mode (s.line l).queue = some c := by
      rcases hf with ⟨ht, hf⟩ | ⟨ht, hf⟩
      · exact arbiterSet_tightening delivers hc hcp ht fun x hx hxp => hf x ⟨hx, hxp⟩
      · exact arbiterSet_relaxing delivers hc hcp ht fun x hx hxp => hf x ⟨hx, hxp⟩
    have work : s.workDue l = some (.set c) := (workDue_clear hp clear).trans (arbiter_set hx chosen)
    refine ⟨_, exec_frameStart_work work, side_of_handing (startWork_set s l c), ?_⟩
    obtain ⟨hline, hqueue⟩ := startWork_set_line s l c
    generalize ht : s.startWork l (.set c) = t at hline hqueue
    have sense : (t.line l).sense = (s.setSent l c).sense := by rw [hline]
    have sent : (t.line l).sent = (s.setSent l c).sent := by rw [hline]
    have transaction : (t.line l).transaction = some (s.setTransaction c) := by rw [hline]; rfl
    have cycle : (t.line l).cycle = (s.line l).cycle.map fun y => y.strike (s.addressOf c.site) s.now := by
      rw [hline]; rfl
    refine ⟨?_, ?_, fun h => by rw [cycle, h]; rfl, ⟨_, transaction, rfl, rfl, rfl, rfl, rfl, setFrame_coded s c, ?_⟩,
      sense, fun y hy => ⟨y.strike (s.addressOf c.site) s.now, by rw [cycle, hy]; rfl, rfl, rfl, rfl, rfl⟩, fun d hd => ?_⟩
    · rw [sense, sent, transaction, cycle]
      exact hline
    · have marked : { c with inProgress := true } ∈ (t.line l).queue.filter (·.inProgress) := by
        rw [hqueue]
        exact List.mem_filter.2 ⟨List.mem_map.2 ⟨c, hc, if_pos rfl⟩, rfl⟩
      exact (List.mem_filter.1 marked).1
    · rw [sent, sense, ← onWire_eq]
      rfl
    · rw [← ht]
      refine ⟨_, startWork_set_site hl hd, rfl, rfl, setPart_wanted _ _ _, setPart_confirmed _ _ _, fun p hpart hu => ?_,
        fun k hk => by rw [part_started, if_neg hk]⟩
      have pending : p.pending = true := (unresolved_iff (some p)).1 hu
      rw [part_started, if_pos rfl, hpart]
      simp [pending]
  · have sendable : y.sendable s.mode = true := by
      unfold Transaction.sendable
      rcases hm with hm | hm
      · rw [hm]
        rfl
      · rw [(delivers_iff _).2 hm, Bool.or_true]
    have work : s.workDue l = some (.retry y) := by
      rw [workDue_clear hp clear, arbiter_retry hy hst, if_pos sendable]
    rw [exec_frameStart_work work, startWork_retry, ← onWire_eq]
    rfl
  · refine exec_frameStart_none (workDue_idle ?_)
    have resting : y.sendable s.mode ≠ true := by
      unfold Transaction.sendable
      rw [(delivers_false_iff _).2 hm, Bool.or_false]
      exact fun h => hcm (Option.isNone_iff_eq_none.1 h)
    rw [arbiter_retry hy hst, if_neg resting]
  · have work : s.workDue l = ((s.line l).cycle.bind fun c => c.due.head?).map .poll := by
      rw [workDue_clear hp clear, arbiter_poll hx (arbiterSet_held ((delivers_false_iff _).2 hm) _)]
    rcases ha : (s.line l).cycle.bind fun c => c.due.head? with _ | a
    · rw [ha] at work
      cases (exec_frameStart_none work).symm.trans ht
      cases hx.symm.trans hxt
    · rw [ha] at work
      cases (exec_frameStart_work work).symm.trans ht
      rw [startWork_poll, setLine_line_self, LineRec.send_transaction] at hxt
      cases hxt
      rfl
end

section
/-! SUPPORT. What the handings of the field side leave told: no flag of a port is cleared, and a delivery DONE for the plan
has left its completion and its notice (R139, R156, R181). -/

namespace Sys2Proof.Machine

/-! ## Notices and completions that stand -/

/-- A delivery DONE for the plan has left its completion and, at every port that is not DISABLED, its notice (R156). -/
def State.Told (s : State) : Prop :=
  s.delivery.target = .plan ∧ (s.delivery.state = .done →
    (∃ n, s.delivery.completion = some ⟨.plan, s.delivery.epoch, n⟩) ∧
    ∀ p, (s.port p).authority ≠ .disabled → (s.port p).flags &&& Notice.delivered.flag = Notice.delivered.flag)

/-- No flag is cleared, and what is told of a delivery stays told. -/
structure Telling (s t : State) : Prop where
  authority : ∀ p, (t.port p).authority = (s.port p).authority
  flags : ∀ p (n : Notice), (s.port p).flags &&& n.flag = n.flag → (t.port p).flags &&& n.flag = n.flag
  told : s.Told → t.Told

theorem Telling.refl (s : State) : Telling s s := ⟨fun _ => rfl, fun _ _ => id, id⟩

theorem Telling.trans {s t u : State} (h : Telling s t) (g : Telling t u) : Telling s u :=
  ⟨fun p => (g.authority p).trans (h.authority p), fun p n x => g.flags p n (h.flags p n x), fun x => g.told (h.told x)⟩

/-- The same ports, and a delivery of the same target, epoch, state and completion. -/
theorem Telling.of_same {s t : State} (hp : t.ports = s.ports) (ht : t.delivery.target = s.delivery.target)
    (he : t.delivery.epoch = s.delivery.epoch) (hs : t.delivery.state = s.delivery.state)
    (hc : t.delivery.completion = s.delivery.completion) : Telling s t := by
  have port (p : Port) : t.port p = s.port p := congrArg (PerPort.get · p) hp
  refine ⟨fun p => by rw [port], fun p n => by rw [port]; exact id, fun h => ?_⟩
  unfold State.Told at h ⊢
  simp only [ht, he, hs, hc, port]
  exact h

theorem PartsOnly.telling {s t : State} (h : PartsOnly s t) : Telling s t :=
  .of_same h.ports h.target (by rw [h.delivery]) h.state (by rw [h.delivery])

/-- A notice at every port. -/
theorem notifyAll_telling (s : State) (n : Notice) : Telling s (s.notifyAll n) where
  authority p := by rw [State.notifyAll_port, PortRec.raise_authority]
  flags p m h := by
    rw [State.notifyAll_port]
    exact PortRec.raise_keeps _ _ _ h
  told h := by
    refine ⟨h.1, fun hd => ⟨(h.2 hd).1, fun p hp => ?_⟩⟩
    rw [State.notifyAll_port] at hp ⊢
    rw [PortRec.raise_authority] at hp
    exact PortRec.raise_keeps _ _ _ ((h.2 hd).2 p hp)

/-- The flag of a notice given to every port stands at every port that is not DISABLED. -/
theorem notifyAll_flag (s : State) (n : Notice) (p : Port) (h : (s.port p).authority ≠ .disabled) :
    ((s.notifyAll n).port p).flags &&& n.flag = n.flag := by
  rw [State.notifyAll_port]
  exact PortRec.raise_flag _ _ ((PortRec.enabled_iff _).2 h)

theorem noticeUnit_telling (s : State) (b : Bool) : Telling s (s.noticeUnit b) := by
  unfold State.noticeUnit
  split
  · exact notifyAll_telling s .unit
  · exact .refl s

theorem noticeUnit_keeps (s : State) (b : Bool) : (s.noticeUnit b).units = s.units ∧
    (s.noticeUnit b).evaluator = s.evaluator ∧ (s.noticeUnit b).delivery = s.delivery ∧
    (s.noticeUnit b).lines = s.lines ∧ (s.noticeUnit b).stations = s.stations ∧ (s.noticeUnit b).store = s.store := by
  unfold State.noticeUnit
  split <;> exact ⟨rfl, rfl, rfl, rfl, rfl, rfl⟩

theorem storeUnit_keeps (s : State) (i : Nat) (u : UnitRec) : (s.storeUnit i u).delivery = s.delivery ∧
    (s.storeUnit i u).ports = s.ports ∧ (s.storeUnit i u).lines = s.lines ∧ (s.storeUnit i u).store = s.store ∧
    (s.storeUnit i u).stations = s.stations ∧ (s.storeUnit i u).mode = s.mode ∧
    (s.storeUnit i u).now = s.now := by
  unfold State.storeUnit
  dsimp only
  split
  · split <;> exact ⟨rfl, rfl, rfl, rfl, rfl, rfl, rfl⟩
  · exact ⟨rfl, rfl, rfl, rfl, rfl, rfl, rfl⟩

theorem storeUnit_telling (s : State) (i : Nat) (u : UnitRec) : Telling s (s.storeUnit i u) := by
  obtain ⟨delivery, ports, -⟩ := storeUnit_keeps s i u
  exact .of_same ports (by rw [delivery]) (by rw [delivery]) (by rw [delivery]) (by rw [delivery])

theorem noticeStation_telling (s : State) (a b : StationState) : Telling s (s.noticeStation a b) := by
  unfold State.noticeStation
  split
  · exact .refl s
  · exact notifyAll_telling s .queue

theorem handStation_telling (s : State) (k : Nat) : Telling s (s.handStation k) := by
  unfold State.handStation
  split
  · exact .refl s
  · rename_i x _
    have table := handQp_onlyTable (s.setStation { x with handed := s.stationImage x }) k (s.stationImage x)
    have delivery : ((s.setStation { x with handed := s.stationImage x }).handQp k (s.stationImage x)).delivery =
        s.delivery := by rw [table]; rfl
    exact .of_same (handQp_ports _ _ _) (by rw [delivery]) (by rw [delivery]) (by rw [delivery]) (by rw [delivery])

theorem setStation_telling (s : State) (x : Station) : Telling s (s.setStation x) := .of_same rfl rfl rfl rfl rfl

theorem stationUnitChanged_telling (s : State) (k : Nat) (a b : UnitState) :
    Telling s (s.stationUnitChanged k a b) := by
  unfold State.stationUnitChanged
  split
  · exact .refl s
  split
  · split
    · exact setStation_telling _ _
    · exact .refl s
  · exact .refl s
  · dsimp only
    have noticed := (setStation_telling s (Station.goBlind (Station.loseLanes ‹_›) s.now (s.param .qpFaultHold))).trans
      (noticeStation_telling _ (Station.state ‹_›)
        (Station.goBlind (Station.loseLanes ‹_›) s.now (s.param .qpFaultHold)).state)
    split
    · exact noticed
    · exact noticed.trans (handStation_telling _ _)

theorem unitChanged_telling (s : State) (o : UnitOwner) (a b : UnitState) : Telling s (s.unitChanged o a b) := by
  unfold State.unitChanged
  split
  · exact .refl s
  split
  · split
    · exact (unitLost_parts _ _).telling
    · exact .refl s
  · exact stationUnitChanged_telling _ _ _ _

theorem enterShadow_ports (s : State) :
    s.enterShadow.ports = (({ s with mode := .shadow } : State).notifyAll .mode).ports := by
  unfold State.enterShadow State.clearParts
  generalize ({ s with mode := .shadow } : State).notifyAll .mode = v
  exact (withdraws_parts v).ports

/-- R167: the darkening delivery done clears no flag. -/
theorem judgeCompletion_dark_flags {s : State} (ht : s.delivery.target = .dark) (p : Port) (n : Notice)
    (h : (s.port p).flags &&& n.flag = n.flag) : (s.judgeCompletion.port p).flags &&& n.flag = n.flag := by
  unfold State.judgeCompletion
  split
  · rw [ht]
    have done := (notifyAll_telling { s with delivery := s.delivery.complete } .delivered).flags p n h
    generalize { s with delivery := s.delivery.complete }.notifyAll .delivered = a at done
    have mode := (notifyAll_telling { a with mode := .shadow } .mode).flags p n done
    have port : a.enterShadow.port p = (({ a with mode := .shadow } : State).notifyAll .mode).port p :=
      congrArg (PerPort.get · p) (enterShadow_ports a)
    rwa [← port] at mode
  · exact h

/-- R156: completion leaves its record and its notice; while the target is DARK there is nothing to tell. -/
theorem judgeCompletion_telling (s : State) : Telling s s.judgeCompletion := by
  have handed := judgeCompletion_handing s
  have authority (p : Port) : (s.judgeCompletion.port p).authority = (s.port p).authority := by rw [handed.side.ports p]
  cases ht : s.delivery.target with
  | plan =>
    refine ⟨authority, fun p n h => ?_, fun h => ?_⟩ <;> rcases judgeCompletion_cases s ht with ⟨e, -⟩ | ⟨-, e⟩ <;> rw [e]
    · exact h
    · rw [concluded_port]
      exact PortRec.raise_keeps _ _ _ h
    · exact h
    · refine ⟨ht, fun _ => ⟨⟨s.delivery.abandoned, ?_⟩, fun p hp => ?_⟩⟩
      · rw [concluded_delivery, Delivery.complete_completion, ht]
        rfl
      · exact notifyAll_flag _ _ p (by rwa [concluded_port, PortRec.raise_authority] at hp)
  | dark =>
    exact ⟨authority, judgeCompletion_dark_flags ht, fun h => by cases h.1.symm.trans ht⟩

theorem settleDelivery_telling (s : State) : Telling s s.settleDelivery :=
  (judgeReleases_parts s).telling.trans (judgeCompletion_telling _)

/-- R156: after completion is judged a delivery that goes on has something to deliver. -/
theorem settleDelivery_going (s : State) (h : s.settleDelivery.delivery.state = .delivering) :
    s.settleDelivery.delivery.Busy := (judgeCompletion_going _ h).1

/-- R156: completion judged over an event. -/
theorem Telling.completionJudged {s t : State} (h : Telling s t)
    (going : t.delivery.state = .delivering → t.delivery.Busy) : CompletionJudged s t where
  going := going
  ended hs hd ht := by
    obtain ⟨-, told⟩ := h.told ⟨ht, fun e => by cases hs.symm.trans e⟩
    obtain ⟨record, flags⟩ := told hd
    exact ⟨record, fun p hp => flags p (by rwa [h.authority])⟩

/-- What is told of a delivery from a state is told from any that has the same delivery and ports. -/
theorem CompletionJudged.of_same {r s t : State} (h : CompletionJudged s t) (hd : s.delivery = r.delivery)
    (hp : s.ports = r.ports) : CompletionJudged r t where
  going := h.going
  ended := by
    have told := h.ended
    have port (p : Port) : s.port p = r.port p := congrArg (PerPort.get · p) hp
    simpa only [hd, port] using told

theorem SignLost.of_delivery {r s t : State} {c : Option SetCommand} {i : Nat} {d : DeliverySite}
    (h : SignLost s t c i d) (hd : s.delivery = r.delivery) : SignLost r t c i d where
  resolved := h.resolved
  unwanted ht := h.unwanted (by rw [hd]; exact ht)
  abandoned ht := h.abandoned (by rw [hd]; exact ht)

/-! ## Delivery's own turns -/

/-- What delivery leaves of the other blocks: the units, the stations, what the evaluator is told, and what is told. -/
structure DeliveryTurn (s t : State) : Prop where
  units : t.units = s.units
  stations : t.stations = s.stations
  available : t.evaluator.available = s.evaluator.available
  pending : t.evaluator.pending = s.evaluator.pending
  telling : Telling s t

theorem DeliveryTurn.refl (s : State) : DeliveryTurn s s := ⟨rfl, rfl, rfl, rfl, .refl s⟩

theorem DeliveryTurn.trans {s t u : State} (h : DeliveryTurn s t) (g : DeliveryTurn t u) : DeliveryTurn s u :=
  ⟨g.units.trans h.units, g.stations.trans h.stations, g.available.trans h.available, g.pending.trans h.pending,
    h.telling.trans g.telling⟩

theorem PartsOnly.turn {s t : State} (h : PartsOnly s t) : DeliveryTurn s t :=
  ⟨h.units, by rw [h.eq], by rw [h.eq], by rw [h.eq], h.telling⟩

theorem settleDelivery_turn (s : State) : DeliveryTurn s s.settleDelivery := by
  obtain ⟨units, available, pending, stations, -⟩ := settleDelivery_keeps s
  exact ⟨units, stations, available, pending, settleDelivery_telling s⟩

theorem noticeUnit_turn (s : State) (b : Bool) : DeliveryTurn s (s.noticeUnit b) := by
  obtain ⟨units, evaluator, -, -, stations, -⟩ := noticeUnit_keeps s b
  exact ⟨units, stations, by rw [evaluator], by rw [evaluator], noticeUnit_telling s b⟩

theorem reformIfDiffering_parts (s : State) (i : Nat) : PartsOnly s (s.reformIfDiffering i) := by
  unfold State.reformIfDiffering
  split
  · exact .refl s
  split
  · exact reform_parts s i
  · exact .refl s

theorem DeliveryTurn.unit {s t : State} (h : DeliveryTurn s t) (j : Nat) : t.unit j = s.unit j := by
  unfold State.unit
  rw [h.units]

theorem DeliveryTurn.station {s t : State} (h : DeliveryTurn s t) (k : Nat) : t.station k = s.station k := by
  unfold State.station
  rw [h.stations]

/-- What has been handed to the evaluator stays handed (R57). -/
theorem AvailabilityHanded.turn {s t r : State} {u v : UnitRec} (h : AvailabilityHanded s t u v)
    (ha : r.evaluator.available = t.evaluator.available)
    (hp : t.evaluator.pending = true → r.evaluator.pending = true) : AvailabilityHanded s r u v := by
  intro k hk
  obtain ⟨changed, same⟩ := h k hk
  rw [ha]
  exact ⟨fun hn => ⟨hp (changed hn).1, (changed hn).2⟩, same⟩

/-! ## The end of a SET without a reply (R151) -/

theorem endPart_missed_parts (s : State) (i : Nat) (k : PartKind) : PartsOnly s (s.endPart i k false) := by
  unfold State.endPart
  split
  · exact .refl s
  split
  · exact .refl s
  split
  · exact .refl s
  · exact modifySite_parts _ _ _

/-- The site of a SET whose transaction has ended, no longer in flight (R149). -/
def State.landed (s : State) (i : Nat) : State := s.modifySite i fun d => { d with inFlight := false }

theorem setEnded_flying {s : State} {c : SetCommand} {d : DeliverySite} (hd : s.site c.site = some d)
    (hf : d.inFlight = true) (b : Bool) : s.setEnded c b =
      (((s.landed c.site).endPart c.site c.part b).reformIfDiffering c.site).settleDelivery := by
  unfold State.setEnded
  rw [hd]
  exact if_pos hf

/-- R151: what the end of a SET is: nothing beyond the section, release and completion judged for a site that is not in
flight, and otherwise its part's end, its re-form, and these. -/
theorem setEnded_cases (s : State) (c : SetCommand) (b : Bool) :
    s.setEnded c b = s ∨ s.setEnded c b = s.settleDelivery ∨
      s.setEnded c b = (((s.landed c.site).endPart c.site c.part b).reformIfDiffering c.site).settleDelivery := by
  rcases hd : s.site c.site with _ | d
  · left
    unfold State.setEnded
    rw [hd]
  right
  cases hf : d.inFlight with
  | true => exact .inr (setEnded_flying hd hf b)
  | false =>
    left
    unfold State.setEnded
    rw [hd]
    exact if_neg (by rw [hf]; exact Bool.false_ne_true)

/-- The end of a SET without a reply is delivery's own turn. -/
theorem setEnded_missed_turn (s : State) (c : SetCommand) : DeliveryTurn s (s.setEnded c false) := by
  have landed : PartsOnly s (s.landed c.site) := modifySite_parts _ _ _
  rcases setEnded_cases s c false with h | h | h <;> rw [h]
  · exact .refl s
  · exact settleDelivery_turn s
  · exact ((landed.trans (endPart_missed_parts _ _ _)).trans (reformIfDiffering_parts _ _)).turn.trans
      (settleDelivery_turn _)

/-- A delivery that goes on after the end of a SET has something to deliver, where it had before. -/
theorem reportEnd_going (s : State) (c : Option SetCommand) (b : Bool)
    (h : s.delivery.state = .delivering → s.delivery.Busy) (hd : (s.reportEnd c b).delivery.state = .delivering) :
    (s.reportEnd c b).delivery.Busy := by
  cases c with
  | none => exact h hd
  | some c =>
    have ended : s.reportEnd (some c) b = s.setEnded c b := rfl
    rw [ended] at hd ⊢
    rcases setEnded_cases s c b with e | e | e <;> rw [e] at hd ⊢
    · exact h hd
    · exact settleDelivery_going _ hd
    · exact settleDelivery_going _ hd

theorem reportEnd_missed_turn (s : State) (c : Option SetCommand) : DeliveryTurn s (s.reportEnd c false) := by
  cases c with
  | none => exact .refl s
  | some c => exact setEnded_missed_turn s c

end Sys2Proof.Machine
end

section
/-! SUPPORT. The stations of outstations that become LOST (R98), and a report for a line's units in its two turns, the
records stored and the changes of state handed on (R131). -/

namespace Sys2Proof.Machine

/-! ## A station whose outstation is lost (R98) -/

theorem loseLanes_lanes (x : Station) : ∀ l ∈ x.loseLanes.lanes, l.standing ≠ .valid ∧ l.smoothed = none := by
  intro l hl
  obtain ⟨y, -, rfl⟩ := List.mem_map.1 hl
  refine ⟨?_, rfl⟩
  show standingOf y.fault y.stuck true false ≠ .valid
  cases y.fault <;> cases y.stuck <;> decide

theorem goBlind_blind {x : Station} (h : x.state = .blind) (now hold : Nat) : x.goBlind now hold = x := by
  unfold Station.goBlind
  rw [h]

/-- R98: the entry to BLIND. -/
theorem goBlind_enters {x : Station} (h : x.state ≠ .blind) (now hold : Nat) : x.goBlind now hold = { x.enter .blind with
    remembered := some x.state
    faultHold := some (now + hold * 1000)
    faultOver := decide (hold = 0) } := by
  unfold Station.goBlind
  split
  · exact absurd ‹_› h
  · rfl

theorem handStation_others (s : State) (k j : Nat) (h : j ≠ k) : (s.handStation k).station j = s.station j := by
  cases hx : s.station k with
  | none =>
    unfold State.handStation
    rw [hx]
  | some x =>
    obtain rfl := station_slot hx
    rw [handStation_eq hx]
    have table := handQp_onlyTable (s.setStation { x with handed := s.stationImage x }) x.slot (s.stationImage x)
    unfold State.station at *
    rw [table]
    exact setStation_others s { x with handed := s.stationImage x } j h

theorem noticeStation_station (s : State) (a b : StationState) (j : Nat) :
    (s.noticeStation a b).station j = s.station j := by
  unfold State.noticeStation
  split <;> rfl

/-- A change of an outstation's state is no matter of the other stations. -/
theorem stationUnitChanged_others (s : State) (k j : Nat) (a b : UnitState) (h : j ≠ k) :
    (s.stationUnitChanged k a b).station j = s.station j := by
  unfold State.stationUnitChanged
  cases hx : s.station k with
  | none => rfl
  | some x =>
    obtain rfl := station_slot hx
    dsimp only
    have slot : (x.loseLanes.goBlind s.now (s.param .qpFaultHold)).slot = x.slot := by
      unfold Station.goBlind
      split <;> rfl
    have changed : (s.setStation (x.loseLanes.goBlind s.now (s.param .qpFaultHold))).station j = s.station j :=
      setStation_others s _ j (by rw [slot]; exact h)
    split
    · split
      · exact setStation_others s { x with baseline := none } j h
      · rfl
    · rfl
    · split
      · exact (noticeStation_station _ _ _ _).trans changed
      · exact (handStation_others _ _ _ h).trans ((noticeStation_station _ _ _ _).trans changed)

theorem unitChanged_station (s : State) (o : UnitOwner) (a b : UnitState) (k : Nat) (h : o ≠ .outstation k) :
    (s.unitChanged o a b).station k = s.station k := by
  unfold State.unitChanged
  split
  · rfl
  split
  · split
    · unfold State.station
      rw [(unitLost_parts s _).turn.stations]
    · rfl
  · exact stationUnitChanged_others _ _ _ _ _ fun e => h (by rw [e])

theorem unitChanged_same (s : State) (o : UnitOwner) (a : UnitState) : s.unitChanged o a a = s := if_pos rfl

theorem unitChanged_outstation (s : State) (k : Nat) {a b : UnitState} (h : a ≠ b) :
    s.unitChanged (.outstation k) a b = s.stationUnitChanged k a b := if_neg h

/-- A sign's change of state that is no loss is nothing to delivery (R137). -/
theorem unitChanged_sign (s : State) (i : Nat) (a : UnitState) {b : UnitState} (h : b ≠ .lost) :
    s.unitChanged (.sign i) a b = s := by
  by_cases hab : a = b
  · exact if_pos hab
  · exact (if_neg hab).trans (if_neg h)

/-- R98: the loss of the outstation of a station that is BLIND already. -/
theorem stationUnitChanged_blind {s : State} {k : Nat} {y : Station} (hy : s.station k = some y)
    (hb : y.state = .blind) (a : UnitState) : s.stationUnitChanged k a .lost = s.setStation y.loseLanes := by
  unfold State.stationUnitChanged
  rw [hy]
  dsimp only
  rw [goBlind_blind (x := y.loseLanes) hb]
  have same : (s.setStation y.loseLanes).noticeStation y.state y.loseLanes.state = s.setStation y.loseLanes := if_pos rfl
  rw [same]
  exact if_pos rfl

/-- R98, R101 and R104: the loss of the outstation of a station that becomes BLIND by it. -/
theorem stationUnitChanged_enters {s : State} {k : Nat} {y : Station} (hy : s.station k = some y)
    (hb : y.state ≠ .blind) (a : UnitState) : s.stationUnitChanged k a .lost =
      ((s.setStation (y.loseLanes.goBlind s.now (s.param .qpFaultHold))).notifyAll .queue).handStation k := by
  have blind : (y.loseLanes.goBlind s.now (s.param .qpFaultHold)).state = .blind := by
    rw [goBlind_enters (x := y.loseLanes) hb]
    rfl
  unfold State.stationUnitChanged
  rw [hy]
  dsimp only
  unfold State.noticeStation
  rw [blind, if_neg hb, if_neg hb]

/-- R98: what the loss of an outstation leaves of its station. -/
theorem stationLost_of_changed {s : State} {k : Nat} {y : Station} (hy : s.station k = some y) {a : UnitState}
    (ha : a ≠ .lost) : StationLost s (s.unitChanged (.outstation k) a .lost) k y := by
  rw [unitChanged_outstation s k ha]
  have slot := station_slot hy
  by_cases hb : y.state = .blind
  · rw [stationUnitChanged_blind hy hb]
    have found := setStation_station s k y y.loseLanes hy slot
    exact ⟨⟨_, found, hb, loseLanes_lanes y⟩, fun h => absurd hb h, fun _ => ⟨_, found, rfl⟩⟩
  · rw [stationUnitChanged_enters hy hb, goBlind_enters (x := y.loseLanes) hb]
    generalize hx : ({ y.loseLanes.enter .blind with
      remembered := some y.loseLanes.state
      faultHold := some (s.now + s.param .qpFaultHold * 1000)
      faultOver := decide (s.param .qpFaultHold = 0) } : Station) = x
    have found : ((s.setStation x).notifyAll .queue).station k = some x :=
      setStation_station s k y x hy (by rw [← hx]; exact slot)
    obtain ⟨m, -, handed, -⟩ := handStation_handed _ k x found
    rw [station_slot found] at handed
    subst hx
    refine ⟨⟨_, handed, rfl, loseLanes_lanes y⟩, fun _ => ⟨⟨_, handed, rfl, rfl, rfl, rfl, rfl, rfl⟩, fun p hp => ?_⟩,
      fun h => absurd h hb⟩
    exact (handStation_telling _ k).flags p .queue (notifyAll_flag _ .queue p hp)

theorem StationLost.keep {s t u : State} {k : Nat} {y : Station} (h : StationLost s t k y)
    (hs : u.station k = t.station k) (ht : Telling t u) : StationLost s u k y where
  lanes := by rw [hs]; exact h.lanes
  enters hb := by
    obtain ⟨enters, flags⟩ := h.enters hb
    exact ⟨by rw [hs]; exact enters, fun p hp => ht.flags p .queue (flags p hp)⟩
  stays hb := by rw [hs]; exact h.stays hb

/-- A station that is BLIND stays so when its outstation is lost again. -/
theorem StationLost.again {s t : State} {k : Nat} {y : Station} (h : StationLost s t k y) {a : UnitState}
    (ha : a ≠ .lost) : StationLost s (t.unitChanged (.outstation k) a .lost) k y := by
  obtain ⟨z, hz, hb, -⟩ := h.lanes
  have told := unitChanged_telling t (.outstation k) a .lost
  rw [unitChanged_outstation t k ha, stationUnitChanged_blind hz hb] at told ⊢
  have slot : z.slot = k := station_slot hz
  have found := setStation_station t k z z.loseLanes hz slot
  refine ⟨⟨_, found, hb, loseLanes_lanes z⟩, fun hy => ?_, fun hy => ?_⟩
  · obtain ⟨⟨w, hw, fields⟩, flags⟩ := h.enters hy
    cases hz.symm.trans hw
    exact ⟨⟨_, found, fields⟩, fun p hp => told.flags p .queue (flags p hp)⟩
  · obtain ⟨w, hw, fields⟩ := h.stays hy
    cases hz.symm.trans hw
    refine ⟨_, found, ?_⟩
    show ({ z with lanes := z.loseLanes.lanes } : Station) = _
    rw [fields]

/-- A station's loss told from a state whose time, parameters and ports are those of another. -/
theorem StationLost.of_side {r s t : State} {k : Nat} {y : Station} (h : StationLost s t k y) (g : FieldSide r s) :
    StationLost r t k y where
  lanes := h.lanes
  enters hb := by
    have hold : s.param .qpFaultHold = r.param .qpFaultHold := by
      unfold State.param
      rw [g.store]
    obtain ⟨enters, flags⟩ := h.enters hb
    rw [g.now, hold] at enters
    exact ⟨enters, fun p hp => flags p (by rw [g.ports p]; exact hp)⟩
  stays := h.stays

/-! ## Changes of state handed on, one after the other (log entry 42) -/

/-- Whether a change of a unit's state is the loss of the outstation of a station. -/
def losesStation (c : UnitOwner × UnitState × UnitState) (k : Nat) : Prop :=
  c.1 = .outstation k ∧ c.2.1 ≠ .lost ∧ c.2.2 = .lost

/-- Changes of state handed on in the order of a list of slots. -/
def State.unitsChanged (s : State) (ch : Nat → Option (UnitOwner × UnitState × UnitState)) (xs : List Nat) : State :=
  xs.foldl (fun st i => match ch i with
    | none => st
    | some c => st.unitChanged c.1 c.2.1 c.2.2) s

theorem unitsChanged_handing (s : State) (ch : Nat → Option (UnitOwner × UnitState × UnitState)) (xs : List Nat) :
    Handing s (s.unitsChanged ch xs) :=
  Handing.foldl xs _ (fun i t => by
    split
    · exact .refl t
    · exact unitChanged_handing _ _ _ _) s

theorem unitsChanged_telling (s : State) (ch : Nat → Option (UnitOwner × UnitState × UnitState)) (xs : List Nat) :
    Telling s (s.unitsChanged ch xs) := by
  unfold State.unitsChanged
  induction xs generalizing s with
  | nil => exact .refl s
  | cons x xs ih =>
    refine Telling.trans ?_ (ih _)
    dsimp only
    split
    · exact .refl s
    · exact unitChanged_telling _ _ _ _

/-- R98: where every change is a loss or none at all, a station whose outstation is among the lost is left as R98 says, and
any other as it was. -/
theorem unitsChanged_stations (s : State) (ch : Nat → Option (UnitOwner × UnitState × UnitState)) (n : Nat)
    (hch : ∀ i c, ch i = some c → c.2.1 = c.2.2 ∨ c.2.2 = .lost) (k : Nat) (y : Station) (hy : s.station k = some y) :
    (s.unitsChanged ch (List.range n)).station k = some y ∧
      (∀ i < n, ∀ c, ch i = some c → ¬ losesStation c k) ∨
    StationLost s (s.unitsChanged ch (List.range n)) k y := by
  induction n with
  | zero => exact .inl ⟨hy, fun i hi => absurd hi (Nat.not_lt_zero i)⟩
  | succ n ih =>
    have handing := unitsChanged_handing s ch (List.range n)
    unfold State.unitsChanged at ih handing ⊢
    rw [List.range_succ, List.foldl_append, List.foldl_cons, List.foldl_nil]
    generalize (List.range n).foldl _ s = t at ih handing ⊢
    have within {c : UnitOwner × UnitState × UnitState} (hc : ch n = some c) (hn : ¬ losesStation c k)
        (h : ∀ i < n, ∀ c, ch i = some c → ¬ losesStation c k) : ∀ i < n + 1, ∀ c, ch i = some c → ¬ losesStation c k := by
      intro i hi d hd
      rcases Nat.lt_succ_iff_lt_or_eq.1 hi with hi | rfl
      · exact h i hi d hd
      · cases hc.symm.trans hd
        exact hn
    rcases hc : ch n with _ | ⟨o, a, b⟩
    · refine ih.imp_left fun ⟨h1, h2⟩ => ⟨h1, fun i hi c h => ?_⟩
      rcases Nat.lt_succ_iff_lt_or_eq.1 hi with hi | rfl
      · exact h2 i hi c h
      · cases hc.symm.trans h
    · dsimp only
      by_cases hab : a = b
      · subst hab
        rw [unitChanged_same]
        exact ih.imp_left fun ⟨h1, h2⟩ => ⟨h1, within hc (fun h => h.2.1 h.2.2) h2⟩
      · obtain rfl : b = .lost := (hch n _ hc).resolve_left hab
        by_cases ho : o = .outstation k
        · subst ho
          right
          rcases ih with ⟨h1, -⟩ | h
          · exact (stationLost_of_changed h1 hab).of_side handing.side
          · exact h.again hab
        · have kept := unitChanged_station t o a .lost k ho
          have told := unitChanged_telling t o a .lost
          exact ih.imp (fun ⟨h1, h2⟩ => ⟨kept.trans h1, within hc (fun h => ho h.1) h2⟩) fun h => h.keep kept told

/-! ## The two turns of a report for a line's units (R131) -/

/-- Every unit of a line changed, its availability judged. -/
def State.lineStored (s : State) (l : LineId) (f : UnitRec → UnitRec) : State :=
  s.forUnits fun i st =>
    match s.unit i with
    | none => st
    | some u => if u.line = l then st.storeUnit i (f u) else st

/-- The change of a unit's state between two states. -/
def State.changeTo (s t : State) (i : Nat) : Option (UnitOwner × UnitState × UnitState) :=
  match s.unit i, t.unit i with
  | some u, some v => some (u.owner, u.state, v.state)
  | _, _ => none

theorem lineStored_fold (s : State) (l : LineId) (f : UnitRec → UnitRec) : s.lineStored l f =
    (List.range s.units.length).foldl (fun st i => storeWhere s (fun u => decide (u.line = l)) f i st) s := by
  unfold State.lineStored State.forUnits
  congr 1
  funext st i
  unfold storeWhere
  dsimp only
  cases s.unit i with
  | none => rfl
  | some u => by_cases h : u.line = l <;> simp [h]

theorem lineStored_unit (s : State) (l : LineId) (f : UnitRec → UnitRec) (hf : Keeps f) {j : Nat} {u : UnitRec}
    (hu : s.unit j = some u) : (s.lineStored l f).unit j = some (if u.line = l then (f u).judged else u) := by
  obtain ⟨stored, -⟩ := storeWhere_fold s (fun u => decide (u.line = l)) f hf s.units.length
  rw [lineStored_fold, stored j u hu]
  simp [unit_lt hu]

theorem lineStored_keeps (s : State) (l : LineId) (f : UnitRec → UnitRec) : ∃ us ev,
    s.lineStored l f = { s with units := us, evaluator := ev } ∧ us.length = s.units.length := by
  rw [lineStored_fold]
  exact storeWhere_keeps s _ f _

theorem reportLine_turns (s : State) (l : LineId) (f : UnitRec → UnitRec) : ∃ b, s.reportLine l f =
    (((s.lineStored l f).unitsChanged (s.changeTo (s.lineStored l f)) (List.range s.units.length)).settleDelivery).noticeUnit
      b := by
  obtain ⟨us, ev, keeps, length⟩ := lineStored_keeps s l f
  have same : (s.lineStored l f).units.length = s.units.length := by rw [keeps]; exact length
  have changed : ((s.lineStored l f).forUnits fun i st => match s.unit i, (s.lineStored l f).unit i with
      | some u, some v => st.unitChanged u.owner u.state v.state
      | _, _ => st) =
      (s.lineStored l f).unitsChanged (s.changeTo (s.lineStored l f)) (List.range s.units.length) := by
    generalize s.lineStored l f = a at same
    unfold State.forUnits State.unitsChanged
    rw [same]
    congr 1
    funext st i
    unfold State.changeTo
    dsimp only
    cases s.unit i <;> cases a.unit i <;> rfl
  exact ⟨_, congrArg (fun a => State.noticeUnit (State.settleDelivery a) _) changed⟩

end Sys2Proof.Machine
end

section
/-! SUPPORT. The two reports of a jam (R117, R118, R131): that of its beginning loses no unit, that of its going on loses
every unit of the line. -/

namespace Sys2Proof.Machine

/-! ## What the reports make of a unit -/

theorem lineJammed_keeps : Keeps UnitRec.lineJammed := fun u => by
  unfold UnitRec.lineJammed
  cases u.state <;> exact ⟨rfl, rfl⟩

theorem jamContinued_keeps : Keeps UnitRec.jamContinued := fun u => by
  unfold UnitRec.jamContinued
  cases u.state <;> exact ⟨rfl, rfl⟩

/-- Neither report touches the elements, the boot number or the count of misses. -/
theorem lineJammed_fields (u : UnitRec) : u.lineJammed.elements = u.elements ∧ u.lineJammed.boot = u.boot ∧
    u.lineJammed.misses = u.misses := by
  unfold UnitRec.lineJammed
  cases u.state <;> exact ⟨rfl, rfl, rfl⟩

theorem jamContinued_fields (u : UnitRec) : u.jamContinued.elements = u.elements ∧
    u.jamContinued.misses = u.misses := by
  unfold UnitRec.jamContinued
  cases u.state <;> exact ⟨rfl, rfl⟩

/-- R131: the report of a jam makes an UP unit SUSPECT and changes no other unit's state. -/
theorem lineJammed_state (u : UnitRec) :
    u.lineJammed.state = u.state ∨ u.state = .up ∧ u.lineJammed.state = .suspect := by
  unfold UnitRec.lineJammed
  cases h : u.state <;> simp [h]

/-- R131: the report that a jam goes on makes every unit LOST. -/
theorem jamContinued_lost {u : UnitRec} (h : u.state ≠ .absent) : u.jamContinued.state = .lost := by
  unfold UnitRec.jamContinued
  cases hs : u.state <;> simp_all

theorem jamContinued_state_iff (u : UnitRec) : u.jamContinued.state = .lost ↔ u.state ≠ .absent := by
  refine ⟨fun h ha => ?_, jamContinued_lost⟩
  unfold UnitRec.jamContinued at h
  rw [ha] at h
  cases ha.symm.trans h

/-- R136: elements are judged afresh whatever else of a record changes. -/
theorem rejudged_of_elements {u v : UnitRec} (h : v.elements = u.elements) : Rejudged u v.judged := by
  have judged := judged_rejudged v
  unfold Rejudged at judged ⊢
  rwa [h] at judged

theorem Keeps.handed {f : UnitRec → UnitRec} (hf : Keeps f) {s t : State} {u v : UnitRec}
    (h : AvailabilityHanded s t (f u) v) : AvailabilityHanded s t u v := by
  obtain ⟨owner, usable⟩ := hf u
  intro k hk
  have handed := h k (owner.trans hk)
  rwa [usable] at handed

/-! ## The report that a jam has begun -/

/-- R131: no change of state that this report brings is handed on to delivery or to a station (R98, R137). -/
theorem unitChanged_jammed (s : State) (u : UnitRec) : s.unitChanged u.owner u.state u.lineJammed.judged.state = s := by
  show s.unitChanged u.owner u.state u.lineJammed.state = s
  rcases lineJammed_state u with h | ⟨hu, h⟩ <;> rw [h]
  · exact unitChanged_same _ _ _
  · rw [hu]
    cases u.owner with
    | sign i => exact unitChanged_sign _ _ _ (by decide)
    | outstation k =>
      rw [unitChanged_outstation _ _ (by decide)]
      unfold State.stationUnitChanged
      split <;> rfl

/-- R131: the report of a jam is its records stored, then delivery's turn and the notice. -/
theorem reportLine_jammed (s : State) (l : LineId) : ∃ b, s.reportLine l UnitRec.lineJammed =
    (s.lineStored l UnitRec.lineJammed).settleDelivery.noticeUnit b := by
  obtain ⟨b, h⟩ := reportLine_turns s l UnitRec.lineJammed
  refine ⟨b, h.trans (congrArg (fun a => State.noticeUnit (State.settleDelivery a) b) ?_)⟩
  have still (st : State) (i : Nat) : (match s.changeTo (s.lineStored l UnitRec.lineJammed) i with
      | none => st
      | some c => st.unitChanged c.1 c.2.1 c.2.2) = st := by
    unfold State.changeTo
    cases hu : s.unit i with
    | none => rfl
    | some u =>
      rw [lineStored_unit s l _ lineJammed_keeps hu]
      dsimp only
      split
      · exact unitChanged_jammed st u
      · exact unitChanged_same _ _ _
  unfold State.unitsChanged
  generalize s.lineStored l UnitRec.lineJammed = a at still ⊢
  generalize List.range s.units.length = xs
  induction xs with
  | nil => rfl
  | cons x xs ih => exact (congrArg (fun st => List.foldl _ st xs) (still a x)).trans ih

/-- R156: where no delivery goes on there is none to complete. -/
theorem judgeCompletion_idle {s : State} (h : s.delivery.state ≠ .delivering) : s.judgeCompletion = s := by
  unfold State.judgeCompletion
  rw [decide_eq_false h]
  rfl

/-- Where the commands that wait may go on waiting, nothing more may go and a delivery that goes on has something to deliver,
delivery's turn is none (R147, R156). -/
theorem settleDelivery_same {s : State} (hq : ∀ l, ∀ c ∈ (s.line l).queue, s.MayRelease c.site c.part)
    (hr : Released s) (hb : s.delivery.state = .delivering → s.delivery.Busy) : s.settleDelivery = s := by
  unfold State.settleDelivery
  rw [judgeReleases_same s hq hr]
  by_cases hs : s.delivery.state = .delivering
  · exact judgeCompletion_busy (hb hs)
  · exact judgeCompletion_idle hs

/-- Whether a part may go depends on the sites' records alone. -/
theorem mayRelease_of_sites {s t : State} (hs : ∀ i, t.site i = s.site i) {i : Nat} {k : PartKind}
    (h : s.MayRelease i k) : t.MayRelease i k := by
  have pends (i : Nat) (k : PartKind) : t.Pends i k ↔ s.Pends i k := by
    unfold State.Pends
    rw [hs]
  cases k with
  | tightening => simpa only [State.MayRelease, pends] using h
  | relaxing => simpa only [State.MayRelease, pends] using h
  | darkening => trivial

/-- R117: a command that the jam has cancelled keeps its place where nothing in the queues or among the parts calls for
another. -/
theorem jammed_queue (s : State) (l : LineId) (r : LineRec)
    (hr : ∀ c ∈ r.queue, ∃ x ∈ (s.line l).queue, x.site = c.site ∧ x.part = c.part)
    (hq : ∀ m, ∀ c ∈ (s.line m).queue, s.MayRelease c.site c.part) (released : Released s)
    (busy : s.delivery.state = .delivering → s.delivery.Busy) :
    (((s.setLine l r).reportLine l UnitRec.lineJammed).line l).queue = r.queue := by
  obtain ⟨b, h⟩ := reportLine_jammed (s.setLine l r) l
  obtain ⟨us, ev, keeps, -⟩ := lineStored_keeps (s.setLine l r) l UnitRec.lineJammed
  rw [h]
  generalize (s.setLine l r).lineStored l UnitRec.lineJammed = a at keeps
  have site (i : Nat) : a.site i = s.site i := by rw [keeps]; rfl
  have line (m : LineId) : a.line m = if m = l then r else s.line m := by
    rw [← State.setLine_line, keeps]
    rfl
  have delivery : a.delivery = s.delivery := by rw [keeps]; rfl
  rw [settleDelivery_same (fun m c hc => ?_) (released.of_sites site) (by rw [delivery]; exact busy)]
  · obtain ⟨-, -, -, lines, -⟩ := noticeUnit_keeps a b
    unfold State.line at line ⊢
    rw [lines, line, if_pos rfl]
  · refine mayRelease_of_sites site ?_
    rw [line] at hc
    split at hc
    · obtain ⟨x, hx, e1, e2⟩ := hr c hc
      rw [← e1, ← e2]
      exact hq l x hx
    · exact hq m c hc

theorem jammed_stations (s : State) (l : LineId) : (s.reportLine l UnitRec.lineJammed).stations = s.stations := by
  obtain ⟨b, h⟩ := reportLine_jammed s l
  obtain ⟨us, ev, keeps, -⟩ := lineStored_keeps s l UnitRec.lineJammed
  rw [h, (noticeUnit_turn _ b).stations, (settleDelivery_turn _).stations, keeps]

/-! ## The report that a jam goes on -/

theorem lineStored_telling (s : State) (l : LineId) (f : UnitRec → UnitRec) : Telling s (s.lineStored l f) := by
  obtain ⟨us, ev, keeps, -⟩ := lineStored_keeps s l f
  rw [keeps]
  exact .of_same rfl rfl rfl rfl rfl

theorem lineStored_handing (s : State) (l : LineId) (f : UnitRec → UnitRec) : Handing s (s.lineStored l f) :=
  forUnits_handing _ _ fun i t => by
    split
    · exact .refl t
    · split
      · exact storeUnit_handing _ _ _
      · exact .refl t

/-- R156: completion judged over a report. -/
theorem reportLine_completion (s : State) (l : LineId) (f : UnitRec → UnitRec) :
    CompletionJudged s (s.reportLine l f) := by
  obtain ⟨b, h⟩ := reportLine_turns s l f
  rw [h]
  have changed := (lineStored_telling s l f).trans
    (unitsChanged_telling _ (s.changeTo (s.lineStored l f)) (List.range s.units.length))
  generalize (s.lineStored l f).unitsChanged _ _ = a at changed
  refine ((changed.trans (settleDelivery_telling a)).trans (noticeUnit_telling _ b)).completionJudged ?_
  obtain ⟨-, -, delivery, -⟩ := noticeUnit_keeps a.settleDelivery b
  rw [delivery]
  exact settleDelivery_going _

/-- R98: a station whose outstation a jam that goes on has lost. -/
theorem jamContinued_stationLost (s : State) (l : LineId) {i k : Nat} {u : UnitRec} {y : Station}
    (hu : s.unit i = some u) (hl : u.line = l) (ho : u.owner = .outstation k) (ha : u.state ≠ .absent)
    (hn : u.state ≠ .lost) (hy : s.station k = some y) :
    StationLost s (s.reportLine l UnitRec.jamContinued) k y := by
  obtain ⟨b, h⟩ := reportLine_turns s l UnitRec.jamContinued
  rw [h]
  have keeps := lineStored_keeps s l UnitRec.jamContinued
  have stored (j : Nat) (v : UnitRec) (hv : s.unit j = some v) := lineStored_unit s l _ jamContinued_keeps hv
  have before := lineStored_handing s l UnitRec.jamContinued
  generalize s.lineStored l UnitRec.jamContinued = a at keeps stored before
  have change (j : Nat) (v : UnitRec) (hv : s.unit j = some v) :
      s.changeTo a j = some (v.owner, v.state, (if v.line = l then v.jamContinued.judged else v).state) := by
    unfold State.changeTo
    rw [hv, stored j v hv]
  have losses (j : Nat) (c : UnitOwner × UnitState × UnitState) (hc : s.changeTo a j = some c) :
      c.2.1 = c.2.2 ∨ c.2.2 = .lost := by
    cases hv : s.unit j with
    | none =>
      unfold State.changeTo at hc
      rw [hv] at hc
      cases hc
    | some v =>
      rw [change j v hv] at hc
      cases hc
      dsimp only
      split
      · by_cases hva : v.state = .absent
        · left
          show v.state = v.jamContinued.state
          unfold UnitRec.jamContinued
          rw [hva]
          exact hva.symm
        · exact .inr (jamContinued_lost hva)
      · exact .inl rfl
  have station : a.station k = some y := by
    obtain ⟨us, ev, e, -⟩ := keeps
    rw [e]
    exact hy
  have lost := (unitsChanged_stations a (s.changeTo a) s.units.length losses k y station).resolve_left fun ⟨_, hnone⟩ => by
    refine hnone i (unit_lt hu) _ (change i u hu) ⟨ho, hn, ?_⟩
    rw [if_pos hl]
    exact jamContinued_lost ha
  have settled := (settleDelivery_turn (a.unitsChanged (s.changeTo a) (List.range s.units.length))).trans
    (noticeUnit_turn _ b)
  exact (lost.of_side before.side).keep (settled.station k) settled.telling

/-! ## The two events -/

theorem exec_lineJam {s : State} {l : LineId} {d : Nat} (hs : (s.line l).state = .normal)
    (hd : (s.line l).driving = false) (hw : (s.line l).openWindow = none) (ht : (s.line l).jamTimer = some d) :
    exec (.lineJam l) s = .next (if d + 50 ≤ s.now then
      (s.setLine l ((s.line l).becomeJammed s.now (s.param (pollCycleId l)))).reportLine l UnitRec.lineJammed
    else s) := by
  have due : (s.line l).jamDue s.now = decide (d + 50 ≤ s.now) := by
    unfold LineRec.jamDue
    rw [hs, hd, hw, ht]
    rfl
  show execLineJam l s = _
  unfold execLineJam
  rw [due]
  simp only [decide_eq_true_eq]

theorem exec_jamContinues {s : State} {l : LineId} {j : JamStart} (hs : (s.line l).state = .jammed)
    (hj : (s.line l).jam = some j) : exec (.jamContinues l) s =
      .next (if j.reported = false ∧ j.time + 3 * j.period ≤ s.now then
        (s.setLine l (s.line l).reportGiven).reportLine l UnitRec.jamContinued
      else s) := by
  have due : (s.line l).jamReportDue s.now = (!j.reported && decide (j.time + 3 * j.period ≤ s.now)) := by
    unfold LineRec.jamReportDue
    rw [hs, hj]
    rfl
  show execJamContinues l s = _
  unfold execJamContinues
  rw [due]
  simp only [Bool.and_eq_true, Bool.not_eq_true', decide_eq_true_eq]

end Sys2Proof.Machine

open Sys2Proof Sys2Proof.Machine

/-- Settles O53: the beginning of a jam loses no unit, so that delivery's queues stand, and its going on loses every unit
of the line, one after the other. -/
theorem jamMakesUnitsSuspectThenLost : Obligations.JamMakesUnitsSuspectThenLost := by
  intro l s
  refine ⟨fun d hs hd hw ht => ⟨fun hn => ?_, fun hn => ⟨_, (exec_lineJam hs hd hw ht).trans
      (congrArg _ (if_pos hn)), ?_⟩⟩,
    fun j hs hj => ⟨fun hn => ?_, fun hr hn => ⟨_, (exec_jamContinues hs hj).trans (congrArg _ (if_pos ⟨hr, hn⟩)), ?_⟩⟩⟩
  · rw [exec_lineJam hs hd hw ht, if_neg (by omega)]
  · have handing := jam_handing s l ((s.line l).becomeJammed s.now (s.param (pollCycleId l))) UnitRec.lineJammed
    obtain ⟨units, -, handed, -, -, notice⟩ := reportLine_spec
      (s.setLine l ((s.line l).becomeJammed s.now (s.param (pollCycleId l)))) l UnitRec.lineJammed lineJammed_keeps
    refine ⟨side_of_handing handing, ?_, idle_of_handing handing (LineRec.becomeJammed_idle _ _ _),
      fun hq hrel hbusy => ?_, notice, jammed_stations _ _, fun i u hu => ⟨_, units i u hu, ?_⟩⟩
    · have line := (line_of_handing handing).1
      rw [line]
      rfl
    · refine (jammed_queue s l _ (fun c hc => ?_) hq hrel hbusy).trans rfl
      obtain ⟨x, hx, rfl⟩ := List.mem_map.1 hc
      exact ⟨x, hx, rfl, rfl⟩
    · obtain ⟨elements, boot, misses⟩ := lineJammed_fields u
      by_cases hl : u.line = l
      · rw [if_pos hl]
        refine ⟨misses, boot, fun h => absurd hl h, fun _ => ⟨rejudged_of_elements elements, fun hp =>
          handed hp i u hu hl⟩, fun _ => ?_⟩
        show (u.state = .up → u.lineJammed.state = .suspect ∧ u.lineJammed.miss = 0) ∧
          (u.state = .probing → u.lineJammed.state = .probing ∧ u.lineJammed.good = 0) ∧
          (u.state = .suspect ∨ u.state = .lost → u.lineJammed.state = u.state ∧ u.lineJammed.miss = u.miss)
        unfold UnitRec.lineJammed
        cases hst : u.state <;> simp [hst]
      · rw [if_neg hl]
        exact ⟨rfl, rfl, fun _ => rfl, fun h => absurd h hl, fun h => absurd h hl⟩
  · rw [exec_jamContinues hs hj, if_neg]
    rintro ⟨h1, h2⟩
    rcases hn with hn | hn
    · cases h1.symm.trans hn
    · omega
  · have handing := jam_handing s l (s.line l).reportGiven UnitRec.jamContinued
    obtain ⟨units, others, handed, counted, sites, notice⟩ := reportLine_spec
      (s.setLine l (s.line l).reportGiven) l UnitRec.jamContinued jamContinued_keeps
    have completion := reportLine_completion (s.setLine l (s.line l).reportGiven) l UnitRec.jamContinued
    refine ⟨side_of_handing handing, ?_, notice, completion.of_same rfl rfl, ?_, others, fun i u hu ha => ⟨_, units i u hu, ?_⟩⟩
    · have line := (line_of_handing handing).1
      rw [line]
      unfold LineRec.reportGiven
      rw [hj]
      rfl
    · obtain ⟨gone, nodup, members, total, ofTarget⟩ := counted
      refine ⟨gone, nodup, fun k kind => (members k kind).trans (and_congr_left fun _ => ?_), total, ofTarget⟩
      refine exists_congr fun i => exists_congr fun u => ?_
      rw [jamContinued_state_iff]
      exact and_congr_right fun _ => and_congr_right fun _ => and_congr_right fun _ => and_comm
    · obtain ⟨elements, misses⟩ := jamContinued_fields u
      by_cases hl : u.line = l
      · rw [if_pos hl]
        have lost := jamContinued_lost ha
        refine ⟨misses, fun h => absurd hl h, fun _ => ⟨lost, rejudged_of_elements elements, fun hp =>
          handed hp i u hu hl, fun hn => ⟨?_, ?_, fun k y ho hy =>
          (sites i u k y hu ho hl hn lost hy).of_delivery rfl, fun k y ho hy =>
          (jamContinued_stationLost (s.setLine l (s.line l).reportGiven) l hu hl ho ha hn hy).of_side
            (setLine_side _ _ _)⟩⟩⟩
        · show u.jamContinued.good = 0
          unfold UnitRec.jamContinued
          cases hst : u.state <;> simp_all
        · show u.jamContinued.miss = 0
          unfold UnitRec.jamContinued
          cases hst : u.state <;> simp_all
      · rw [if_neg hl]
        exact ⟨rfl, fun _ => rfl, fun h => absurd h hl⟩
end

section
/-! SUPPORT. A miss of a unit and the end of its SET: a site with nothing pending stays so, and a part whose SET ended
without a reply waits again (R127 to R130, R151, R152). -/

namespace Sys2Proof.Machine

/-! ## A site with nothing pending -/

/-- A site without a pending part, these elements without a wanted value. -/
def State.Resolved (s : State) (i : Nat) (gone : ElemId → Prop) : Prop :=
  ∃ d, s.site i = some d ∧ (∀ k, pendingPart (d.part k) = false) ∧ ∀ x, gone x → d.wanted.lookup x = none

theorem State.Resolved.of_site {s t : State} {i : Nat} {gone : ElemId → Prop} (h : s.Resolved i gone)
    (hs : t.site i = s.site i) : t.Resolved i gone := by
  unfold State.Resolved
  rw [hs]
  exact h

/-- A part that is not pending is not SENT. -/
theorem not_sent_of_resolved {d : DeliverySite} {k : PartKind} (h : pendingPart (d.part k) = false) (p : Part)
    (hp : d.part k = some p) : p.state ≠ .sent := by
  rintro hs
  rw [hp] at h
  simp [pendingPart, Part.pending, hs] at h

/-- R146: a re-form of one kind where the unit cannot take commands leaves nothing pending. -/
theorem State.Resolved.reformKind {s : State} {i : Nat} {gone : ElemId → Prop} (h : s.Resolved i gone)
    (hs : s.silentSign i = true) (k : PartKind) : (s.reformKind i k).Resolved i gone := by
  obtain ⟨d, hd, resolved, unwanted⟩ := h
  obtain ⟨e, he, -, formed⟩ := reformKind_silent s i k d hd hs
  obtain ⟨e', he', others, -⟩ := reformKind_unqueued s i k d hd
  cases he.symm.trans he'
  obtain ⟨part, wanted⟩ := formed (sentStays_unsent (not_sent_of_resolved (resolved k)) _)
  refine ⟨e, he, fun j => ?_, fun x hx => ?_⟩
  · by_cases hj : j = k
    · rw [hj]
      exact part
    · rw [others j hj]
      exact resolved j
  · rw [wanted, unwanted x hx, ite_self]

theorem State.Resolved.reform {s : State} {i : Nat} {gone : ElemId → Prop} (h : s.Resolved i gone)
    (hs : s.silentSign i = true) (j : Nat) : (s.reform j).Resolved i gone := by
  by_cases hj : i = j
  · subst hj
    unfold State.reform
    split
    · split
      · exact (h.reformKind hs .tightening).reformKind (((reformKind_parts s i _).silentSign i).trans hs) .relaxing
      · exact h.reformKind hs .darkening
    · exact h
  · exact h.of_site (reform_untouched s i j hj).site

theorem State.Resolved.reformIfDiffering {s : State} {i : Nat} {gone : ElemId → Prop} (h : s.Resolved i gone)
    (hs : s.silentSign i = true) (j : Nat) : (s.reformIfDiffering j).Resolved i gone := by
  unfold State.reformIfDiffering
  split
  · exact h
  split
  · exact h.reform hs j
  · exact h

theorem State.Resolved.landed {s : State} {i : Nat} {gone : ElemId → Prop} (h : s.Resolved i gone) (j : Nat) :
    (s.landed j).Resolved i gone := by
  by_cases hj : i = j
  · subst hj
    obtain ⟨d, hd, resolved, unwanted⟩ := h
    refine ⟨{ d with inFlight := false }, ?_, fun k => ?_, unwanted⟩
    · unfold State.landed
      rw [modifySite_site, if_pos rfl, hd]
      rfl
    · rw [part_withFlight]
      exact resolved k
  · exact h.of_site (modifySite_untouched s i j _ hj).site

/-- R151: the end of a SET changes a SENT part alone. -/
theorem State.Resolved.endPart {s : State} {i : Nat} {gone : ElemId → Prop} (h : s.Resolved i gone) (j : Nat)
    (k : PartKind) : (s.endPart j k false).Resolved i gone := by
  have kept : (s.endPart j k false).site i = s.site i := by
    unfold State.endPart
    by_cases hj : i = j
    · subst hj
      obtain ⟨d, hd, resolved, -⟩ := h
      rw [hd]
      dsimp only
      cases hp : d.part k with
      | none => exact hd
      | some p =>
        dsimp only
        rw [if_pos (not_sent_of_resolved (resolved k) p hp)]
        exact hd
    · split
      · rfl
      split
      · rfl
      split
      · rfl
      · exact (modifySite_untouched s i j _ hj).site
  exact h.of_site kept

/-- R147 and R156: delivery's turn leaves nothing pending where nothing was; while the target is the plan nothing becomes
wanted. -/
theorem State.Resolved.settle {s : State} {i : Nat} {gone : ElemId → Prop} (h : s.Resolved i gone)
    (ht : ∀ x, gone x → s.delivery.target = .plan) : s.settleDelivery.Resolved i gone := by
  obtain ⟨d, hd, resolved, unwanted⟩ := h
  obtain ⟨e, he, like, -⟩ := judgeReleases_at s i d hd
  obtain ⟨f, hf, settled, same⟩ := judgeCompletion_resolved s.judgeReleases i e he fun k =>
    (like.pendingPart k).trans (resolved k)
  refine ⟨f, hf, settled, fun x hx => ?_⟩
  rw [same ((judgeReleases_parts s).target.trans (ht x hx)), like.wanted]
  exact unwanted x hx

/-- A target that is the plan stays it. -/
theorem FieldSide.plan_target {s t : State} (h : FieldSide s t) (ht : s.delivery.target = .plan) :
    t.delivery.target = .plan := by
  rcases h.mode with ⟨-, h⟩ | ⟨hd, -⟩
  · exact h.trans ht
  · cases hd.symm.trans ht

/-- The end of a SET without a reply leaves nothing pending at the site of a lost unit (R146, R151, R152). -/
theorem State.Resolved.setEnded {s : State} {i : Nat} {gone : ElemId → Prop} (h : s.Resolved i gone)
    (hs : s.silentSign i = true) (ht : ∀ x, gone x → s.delivery.target = .plan) (c : SetCommand) :
    (s.setEnded c false).Resolved i gone := by
  rcases setEnded_cases s c false with e | e | e <;> rw [e]
  · exact h
  · exact h.settle ht
  · have ended : PartsOnly s ((s.landed c.site).endPart c.site c.part false) :=
      (modifySite_parts _ _ _).trans (endPart_missed_parts _ _ _)
    have formed := ended.trans (reformIfDiffering_parts _ c.site)
    exact (((h.landed c.site).endPart c.site c.part).reformIfDiffering ((ended.silentSign i).trans hs) c.site).settle
      fun x hx => formed.target.trans (ht x hx)

/-! ## A part that waits (R147, R151) -/

theorem anyPending_iff (d : DeliverySite) : d.anyPending = true ↔ ∃ k, pendingPart (d.part k) = true := by
  unfold DeliverySite.anyPending partKinds
  rw [List.any_eq_true]
  exact exists_congr fun k => and_iff_right (by cases k <;> simp)

/-- Delivery's turn leaves a site with something pending as it was but for what it queues, where no command of it waits. -/
theorem settleDelivery_requeued {s : State} {i : Nat} {d : DeliverySite} (hd : s.site i = some d)
    (hw : s.waitingOf i = none) (hp : d.anyPending = true) :
    ∃ e, s.settleDelivery.site i = some e ∧ d.Requeued e ∧ s.settleDelivery = s.judgeReleases := by
  obtain ⟨e, he, like, requeued⟩ := judgeReleases_at s i d hd
  have busy : s.judgeReleases.delivery.Busy := by
    obtain ⟨k, hk⟩ := (anyPending_iff d).1 hp
    exact busy_of_site he (.inr ⟨k, (unresolved_iff _).2 ((like.pendingPart k).trans hk)⟩)
  have same : s.settleDelivery = s.judgeReleases := judgeCompletion_busy busy
  exact ⟨e, by rw [same]; exact he, requeued hw, same⟩

/-- A site that a SET's end has made WAITING, before and after delivery's turn: not in flight, its part WAITING. -/
theorem settleDelivery_waits {s : State} {i : Nat} {d : DeliverySite} (hd : s.site i = some d)
    (hw : s.waitingOf i = none) (hf : d.inFlight = false) {k : PartKind} {p : Part} (hp : d.part k = some p)
    (hs : p.state = .waiting) : ∃ e q, (s.reformIfDiffering i).settleDelivery.site i = some e ∧ e.inFlight = false ∧
      e.part k = some { p with queued := q } := by
  have pending : d.anyPending = true := (anyPending_iff d).2 ⟨k, by rw [hp]; simp [pendingPart, Part.pending, hs]⟩
  have still : s.reformIfDiffering i = s := by
    unfold State.reformIfDiffering
    rw [hd]
    simp [pending]
  obtain ⟨e, he, requeued, -⟩ := settleDelivery_requeued hd hw pending
  obtain ⟨q, hq, -⟩ := requeued.like.part k p hp
  rw [still]
  exact ⟨e, q.queued, he, requeued.flying.trans hf, by rw [hq, ← requeued.states k p q hp hq]⟩

theorem landed_site {s : State} {i : Nat} {d : DeliverySite} (hd : s.site i = some d) :
    (s.landed i).site i = some { d with inFlight := false } := by
  unfold State.landed
  rw [modifySite_site, if_pos rfl, hd]
  rfl

/-- R151: a part whose SET ended without a reply waits again. -/
theorem setEnded_missed {s : State} {c : SetCommand} {d : DeliverySite} (hd : s.site c.site = some d)
    (hf : d.inFlight = true) (hw : s.waitingOf c.site = none) {p : Part} (hp : d.part c.part = some p)
    (hs : p.state = .sent) : ∃ e q, (s.setEnded c false).site c.site = some e ∧ e.inFlight = false ∧
      e.part c.part = some { p with state := .waiting, queued := q } := by
  have landed := landed_site hd
  have part : ({ d with inFlight := false } : DeliverySite).part c.part = some p := by rw [part_withFlight, hp]
  have ended : (s.landed c.site).endPart c.site c.part false =
      (s.landed c.site).modifySite c.site fun d => d.setPart c.part (some { p with state := .waiting }) := by
    unfold State.endPart
    rw [landed]
    dsimp only
    rw [part]
    simp [hs]
  rw [setEnded_flying hd hf, ended]
  refine settleDelivery_waits (d := ({ d with inFlight := false } : DeliverySite).setPart c.part
    (some { p with state := .waiting })) (p := { p with state := .waiting }) ?_ ?_ ?_ ?_ rfl
  · rw [modifySite_site, if_pos rfl, landed]
    rfl
  · rw [modifySite_waiting]
    unfold State.landed
    rw [modifySite_waiting]
    exact hw
  · rw [setPart_inFlight]
  · rw [part_setPart, if_pos rfl]

/-! ## A miss taken by its unit (R127 to R130) -/

theorem missed_keeps : Keeps UnitRec.missed := fun u => by
  unfold UnitRec.missed
  cases u.state
  case suspect => dsimp only; split <;> exact ⟨rfl, rfl⟩
  all_goals exact ⟨rfl, rfl⟩

theorem missed_fields {u : UnitRec} (h : u.state ≠ .absent) : u.missed.elements = u.elements ∧
    u.missed.misses = min (u.misses + 1) 65535 ∧ u.missed.boot = u.boot ∧ u.missed.restarts = u.restarts := by
  unfold UnitRec.missed
  cases hs : u.state
  case absent => exact absurd hs h
  case suspect => dsimp only; split <;> exact ⟨rfl, rfl, rfl, rfl⟩
  all_goals exact ⟨rfl, rfl, rfl, rfl⟩

/-- R128 to R130: the states a miss gives. -/
theorem missed_states (u : UnitRec) :
    (u.state = .up → u.missed.state = .suspect ∧ u.missed.miss = 1) ∧
    (u.state = .suspect → u.miss < 2 → u.missed.state = .suspect ∧ u.missed.miss = u.miss + 1) ∧
    (u.state = .suspect → 2 ≤ u.miss → u.missed.state = .lost ∧ u.missed.miss = 0) ∧
    (u.state = .probing → u.missed.state = .lost ∧ u.missed.good = 0) ∧
    (u.state = .lost → u.missed.state = .lost) := by
  have limit (h : u.miss < 2) : ¬ Config.missLimit ≤ u.miss + 1 := by simp only [Config.missLimit]; omega
  have reached (h : 2 ≤ u.miss) : Config.missLimit ≤ u.miss + 1 := by simp only [Config.missLimit]; omega
  unfold UnitRec.missed
  refine ⟨fun h => ?_, fun h hm => ?_, fun h hm => ?_, fun h => ?_, fun h => ?_⟩ <;> rw [h]
  · exact ⟨rfl, rfl⟩
  · dsimp only
    rw [if_neg (limit hm)]
    exact ⟨rfl, rfl⟩
  · dsimp only
    rw [if_pos (reached hm)]
    exact ⟨rfl, rfl⟩
  · exact ⟨rfl, rfl⟩

/-- A miss loses a PROBING unit, and a SUSPECT one at its third. -/
def UnitRec.LostByMiss (u : UnitRec) : Prop := u.state = .probing ∨ u.state = .suspect ∧ 2 ≤ u.miss

theorem lostByMiss_iff {u : UnitRec} (h : u.state ≠ .absent) :
    u.state ≠ .lost ∧ u.missed.state = .lost ↔ u.LostByMiss := by
  obtain ⟨up, few, many, probing, -⟩ := missed_states u
  unfold UnitRec.LostByMiss
  cases hs : u.state with
  | absent => exact absurd hs h
  | probing => simp [(probing hs).1]
  | up => simp [(up hs).1]
  | lost => simp
  | suspect =>
    by_cases hm : u.miss < 2
    · simp [(few hs hm).1, Nat.not_le.2 hm]
    · simp [(many hs (Nat.not_lt.1 hm)).1, Nat.not_lt.1 hm]

/-- The unit's record after a miss stored, its change of state handed on. -/
def State.missTaken (s : State) (i : Nat) (u : UnitRec) : State :=
  (s.storeUnit i u.missed).unitChanged u.owner u.state u.missed.state

theorem unitMissed_eq {s : State} {i : Nat} {u : UnitRec} (hu : s.unit i = some u) : s.unitMissed i =
    (s.missTaken i u).settleDelivery.noticeUnit (decide (u.missed.noticed ≠ u.noticed)) := by
  unfold State.unitMissed
  rw [hu]
  rfl

theorem missTaken_lost (s : State) (i : Nat) (u : UnitRec) : SitesLost (s.storeUnit i u.missed) (s.missTaken i u)
    fun k => losesSite (u.owner, u.state, u.missed.state) k :=
  (unitChanged_lost (SitesLost.refl _) u.owner u.state u.missed.state).congr fun _ => Iff.of_eq (false_or _)

theorem missTaken_unit {s : State} {i : Nat} {u : UnitRec} (hu : s.unit i = some u) :
    (s.missTaken i u).unit i = some u.missed.judged := by
  unfold State.unit
  rw [(missTaken_lost s i u).units]
  show (s.storeUnit i u.missed).unit i = _
  rw [storeUnit_unit, if_pos rfl, hu]
  rfl

/-- R57 and R136. -/
theorem missTaken_handed (s : State) (i : Nat) (u : UnitRec) :
    AvailabilityHanded s (s.missTaken i u) u u.missed.judged :=
  (missed_keeps.handed (storeUnit_hands s i u.missed).2.1).turn (missTaken_lost s i u).available
    (missTaken_lost s i u).pending

theorem missTaken_telling (s : State) (i : Nat) (u : UnitRec) : Telling s (s.missTaken i u) :=
  (storeUnit_telling _ _ _).trans (unitChanged_telling _ _ _ _)

/-- The rest of the event is delivery's turn. -/
theorem missed_turn {s : State} {i : Nat} {u : UnitRec} (hu : s.unit i = some u) (c : Option SetCommand) :
    DeliveryTurn (s.missTaken i u) ((s.unitMissed i).reportEnd c false) := by
  rw [unitMissed_eq hu]
  exact ((settleDelivery_turn _).trans (noticeUnit_turn _ _)).trans (reportEnd_missed_turn _ c)

theorem missed_completion {s : State} {i : Nat} {u : UnitRec} (hu : s.unit i = some u) (c : Option SetCommand) :
    CompletionJudged s ((s.unitMissed i).reportEnd c false) := by
  refine ((missTaken_telling s i u).trans (missed_turn hu c).telling).completionJudged ?_
  refine reportEnd_going _ c false ?_
  obtain ⟨-, -, delivery, -⟩ := noticeUnit_keeps (s.missTaken i u).settleDelivery
    (decide (u.missed.noticed ≠ u.noticed))
  rw [unitMissed_eq hu, delivery]
  exact settleDelivery_going _

/-- R139. -/
theorem missed_noticed {s : State} {i : Nat} {u : UnitRec} (hu : s.unit i = some u) (c : Option SetCommand)
    (hn : u.missed.state ≠ u.state) (p : Port) (hp : (s.port p).authority ≠ .disabled) :
    (((s.unitMissed i).reportEnd c false).port p).flags &&& Notice.unit.flag = Notice.unit.flag := by
  have changed : decide (u.missed.noticed ≠ u.noticed) = true := decide_eq_true fun h => hn (congrArg Prod.fst h)
  have settled := (missTaken_telling s i u).trans (settleDelivery_telling _)
  refine (reportEnd_missed_turn _ c).telling.flags p .unit ?_
  rw [unitMissed_eq hu, changed]
  exact notifyAll_flag _ .unit p (by rwa [settled.authority])

/-- R98. -/
theorem missed_stationLost {s : State} {i : Nat} {u : UnitRec} (hu : s.unit i = some u) (c : Option SetCommand)
    (hn : u.state ≠ .lost) (hl : u.missed.state = .lost) {k : Nat} (ho : u.owner = .outstation k) {y : Station}
    (hy : s.station k = some y) : StationLost s ((s.unitMissed i).reportEnd c false) k y := by
  obtain ⟨-, -, -, -, stations, -⟩ := storeUnit_keeps s i u.missed
  have station : (s.storeUnit i u.missed).station k = some y := by
    unfold State.station
    rw [stations]
    exact hy
  have lost := stationLost_of_changed station hn
  rw [← hl, ← ho] at lost
  have turn := missed_turn hu c
  exact (lost.of_side (storeUnit_handing _ _ _).side).keep (turn.station k) turn.telling

/-- R142. -/
theorem missed_countedLost {s : State} {i : Nat} {u : UnitRec} (hu : s.unit i = some u) :
    CountedLost s (s.unitMissed i) fun k => losesSite (u.owner, u.state, u.missed.state) k := by
  obtain ⟨delivery, -⟩ := storeUnit_keeps s i u.missed
  obtain ⟨-, -, noticed, -⟩ := noticeUnit_keeps (s.missTaken i u).settleDelivery
    (decide (u.missed.noticed ≠ u.noticed))
  obtain ⟨gone, nodup, members, total, ofTarget⟩ := (missTaken_lost s i u).countedLost
  rw [delivery] at total ofTarget
  rw [unitMissed_eq hu]
  refine ⟨gone, nodup, fun k m => ?_, by rw [noticed]; exact total, by rw [noticed]; exact ofTarget⟩
  rw [members]
  unfold State.Pends State.site
  rw [delivery]

theorem CountedLost.of_delivery {r s t : State} {lost : Nat → Prop} (h : CountedLost s t lost)
    (hd : s.delivery = r.delivery) : CountedLost r t lost := by
  unfold CountedLost State.Pends State.site at h ⊢
  rwa [hd] at h

theorem CountedLost.congr {s t : State} {p q : Nat → Prop} (h : CountedLost s t p) (e : ∀ k, p k ↔ q k) :
    CountedLost s t q := by
  have same : p = q := funext fun k => propext (e k)
  rwa [← same]

/-- R152: nothing is pending at the site of a sign that the miss has lost, and no element of a part given up is wanted. -/
theorem missed_signLost {s : State} {i : Nat} {u : UnitRec} (hu : s.unit i = some u) (c : Option SetCommand)
    (hn : u.state ≠ .lost) (hl : u.missed.state = .lost) (ho : u.owner = .sign i) {y : DeliverySite}
    (hy : s.site i = some y) : SignLost s ((s.unitMissed i).reportEnd c false) c i y := by
  obtain ⟨delivery, -⟩ := storeUnit_keeps s i u.missed
  have site : (s.storeUnit i u.missed).site i = some y := by
    unfold State.site
    rw [delivery]
    exact hy
  have sites := missTaken_lost s i u
  have noticed := noticeUnit_keeps (s.missTaken i u).settleDelivery (decide (u.missed.noticed ≠ u.noticed))
  rw [← unitMissed_eq hu] at noticed
  obtain ⟨-, -, told, -⟩ := noticed
  have taken : (s.unitMissed i).site i = (s.missTaken i u).settleDelivery.site i := by
    unfold State.site
    rw [told]
  cases c with
  | none =>
    obtain ⟨resolved, unwanted, abandoned⟩ := sites.signLost i ⟨ho, hn, hl⟩ y site
    rw [← taken] at resolved unwanted abandoned
    rw [delivery] at unwanted abandoned
    exact ⟨resolved, unwanted, abandoned⟩
  | some c =>
    obtain ⟨e, he, resolved, given⟩ := sites.gone i ⟨ho, hn, hl⟩ y site
    have target : (s.missTaken i u).delivery.target = s.delivery.target := by rw [sites.target, delivery]
    have first : (s.missTaken i u).Resolved i fun x => s.delivery.target = .plan ∧
        ∃ k p, y.part k = some p ∧ Unresolved (some p) ∧ x ∈ p.elements :=
      ⟨e, he, resolved, fun x ⟨_, k, p, hp, hq, hx⟩ => (given k p hp ((unresolved_iff _).1 hq)).2 x hx⟩
    have second := (first.settle fun x hx => target.trans hx.1).of_site taken
    have silent : (s.unitMissed i).silentSign i = true := by
      have unit : (s.unitMissed i).unit i = some u.missed.judged :=
        ((missed_turn hu none).unit i).trans (missTaken_unit hu)
      have state : (s.unitMissed i).signState i = .lost := by
        unfold State.signState
        rw [unit]
        exact hl
      exact decide_eq_true (.inl state)
    obtain ⟨f, hf, done, unwanted⟩ := second.setEnded silent
      (fun x hx => (unitMissed_handing s i).side.plan_target hx.1) c
    refine ⟨⟨f, hf, fun k hk => ?_⟩, fun ht => ⟨f, hf, fun k p hp hq x hx => unwanted x ⟨ht, k, p, hp, hq, hx⟩⟩,
      fun _ h => by cases h⟩
    rw [unresolved_iff, done] at hk
    cases hk

/-- R151: a SET that misses, its unit not lost by it: its part waits again. -/
theorem missed_setMissed {s : State} {i : Nat} {u : UnitRec} (hu : s.unit i = some u) (hl : u.missed.state ≠ .lost)
    (ho : u.owner = .sign i) {y : DeliverySite} (hy : s.site i = some y) (hw : y.inFlight = true → s.waitingOf i = none)
    {c : SetCommand} (hc : c.site = i) (hf : y.inFlight = true) {p : Part} (hp : y.part c.part = some p)
    (hs : p.state = .sent) : ∃ d q, ((s.unitMissed i).setEnded c false).site i = some d ∧ d.inFlight = false ∧
      d.part c.part = some { p with state := .waiting, queued := q } := by
  subst hc
  obtain ⟨delivery, -, lines, store, -⟩ := storeUnit_keeps s c.site u.missed
  have taken : s.missTaken c.site u = s.storeUnit c.site u.missed := by
    unfold State.missTaken
    rw [ho]
    exact unitChanged_sign _ _ _ hl
  have site : (s.missTaken c.site u).site c.site = some y := by
    rw [taken]
    unfold State.site
    rw [delivery]
    exact hy
  have waiting : (s.missTaken c.site u).waitingOf c.site = none := by
    rw [taken]
    have same : (s.storeUnit c.site u.missed).waitingOf c.site = s.waitingOf c.site := by
      unfold State.waitingOf State.siteLine State.line
      rw [lines, store]
    exact same.trans (hw hf)
  obtain ⟨-, settled, idle⟩ := settleDelivery_flying site hf waiting
  have noticed := noticeUnit_keeps (s.missTaken c.site u).settleDelivery (decide (u.missed.noticed ≠ u.noticed))
  rw [← unitMissed_eq hu] at noticed
  obtain ⟨-, -, delivery', lines', -, store'⟩ := noticed
  refine setEnded_missed (d := y) ?_ hf ?_ hp hs
  · unfold State.site at settled ⊢
    rw [delivery']
    exact settled
  · unfold State.waitingOf State.siteLine State.line at idle ⊢
    rw [lines', store']
    exact idle

/-! ## The end of a window (R114) -/

theorem exec_replyWindowEnd {s : State} {l : LineId} {d : Nat} {x : Transaction} (hx : (s.line l).transaction = some x)
    (hs : x.stage = .window d) :
    exec (.replyWindowEnd l) s = .next (if d ≤ s.now then s.failAttempt l x else s) := by
  have window : (s.line l).openWindow = some x := (LineRec.openWindow_iff _ _).2 ⟨hx, d, hs⟩
  have ended : x.windowOver s.now = decide (d ≤ s.now) := by
    unfold Transaction.windowOver
    rw [hs]
  show execReplyWindowEnd l s = _
  unfold execReplyWindowEnd
  rw [window]
  dsimp only
  rw [ended]
  simp only [decide_eq_true_eq]

/-- R120: once its line's transaction has ended no command of a site waits, where none but those in progress was there. -/
theorem waitingOf_endTransaction {s : State} {i : Nat} (h : s.NoneWaits i) (l : LineId) :
    (s.setLine l (s.line l).endTransaction).waitingOf i = none := by
  unfold State.waitingOf
  show ((s.setLine l (s.line l).endTransaction).line (s.siteLine i)).waitingFor i = none
  refine List.find?_eq_none.2 fun c hc hw => ?_
  have queued : c ∈ (s.line (s.siteLine i)).queue := by
    rw [State.setLine_line] at hc
    split at hc
    · rename_i hl
      rw [hl]
      exact (List.mem_filter.1 hc).1
    · exact hc
  simp only [Bool.and_eq_true, decide_eq_true_eq, Bool.not_eq_true'] at hw
  cases (h c queued hw.1).symm.trans hw.2

end Sys2Proof.Machine

open Sys2Proof Sys2Proof.Machine

/-- Settles O52: a first attempt owes a retry; a retry's miss is taken by its unit, then delivery ends the SET. -/
theorem windowEndOwesRetryOrMisses : Obligations.WindowEndOwesRetryOrMisses := by
  intro l d x s hx hs
  refine ⟨fun hn => ?_, fun hn hr => ?_, fun hn hr u hu ha => ⟨_, (exec_replyWindowEnd hx hs).trans
    (congrArg _ (if_pos hn)), ?_⟩⟩
  · rw [exec_replyWindowEnd hx hs, if_neg (by omega)]
  · rw [exec_replyWindowEnd hx hs, if_pos hn, failAttempt_first s l x hr]
    rfl
  · have handing := failAttempt_retry s l x hr
    have taken : s.failAttempt l x =
        ((s.setLine l (s.line l).endTransaction).unitMissed x.unit).reportEnd x.command false := if_pos hr
    have side := side_of_handing handing
    have idle := idle_of_handing handing (LineRec.endTransaction_idle _)
    have line := (line_of_handing handing).1
    rw [taken] at side idle line ⊢
    have unit : (s.setLine l (s.line l).endTransaction).unit x.unit = some u := hu
    have waits (h : s.NoneWaits x.unit) := waitingOf_endTransaction h l
    have lineSide := setLine_side s l (s.line l).endTransaction
    have delivery : (s.setLine l (s.line l).endTransaction).delivery = s.delivery := rfl
    have ports : (s.setLine l (s.line l).endTransaction).ports = s.ports := rfl
    have evaluator : (s.setLine l (s.line l).endTransaction).evaluator = s.evaluator := rfl
    have stations : (s.setLine l (s.line l).endTransaction).stations = s.stations := rfl
    generalize s.setLine l (s.line l).endTransaction = a at *
    have site (k : Nat) : a.site k = s.site k := by unfold State.site; rw [delivery]
    have station (k : Nat) : a.station k = s.station k := by unfold State.station; rw [stations]
    obtain ⟨up, few, -⟩ := missed_states u
    obtain ⟨elements, misses, boot, restarts⟩ := missed_fields ha
    have turn := missed_turn unit x.command
    refine ⟨side, (missed_completion unit x.command).of_same delivery ports, fun y ho hy => ⟨fun h c p hc hi hf hw hp hq => ?_,
      fun h => ?_⟩, fun k y ho hy h => ?_, ⟨_, idle, line⟩, fun hc => ?_, u.missed.judged,
      (turn.unit _).trans (missTaken_unit unit), misses, boot, restarts, rejudged_of_elements elements, ?_⟩
    · have kept : u.missed.state ≠ .lost := by
        rcases h with h | ⟨h, hm⟩
        · simp [(up h).1]
        · simp [(few h hm).1]
      rw [hc]
      exact missed_setMissed unit kept ho ((site _).trans hy) (fun _ => waits hw) hi hf hp hq
    · obtain ⟨hn, hl⟩ := (lostByMiss_iff ha).2 h
      exact (missed_signLost unit x.command hn hl ho ((site _).trans hy)).of_delivery delivery
    · obtain ⟨hn, hl⟩ := (lostByMiss_iff ha).2 h
      exact (missed_stationLost unit x.command hn hl ho ((station k).trans hy)).of_side lineSide
    · rw [hc]
      exact ((missed_countedLost unit).of_delivery delivery).congr fun k => and_congr_right fun _ => lostByMiss_iff ha
    · obtain ⟨up, few, many, probing, lost⟩ := missed_states u
      have handed : AvailabilityHanded a _ u u.missed.judged := (missTaken_handed a x.unit u).turn turn.available
        fun hp => turn.pending.trans hp
      unfold AvailabilityHanded at handed
      rw [evaluator] at handed
      exact ⟨handed, up, few, many, probing, lost, fun hn p hp =>
        missed_noticed unit x.command hn p ((congrArg (fun y => (y.get p).authority ≠ .disabled) ports).mpr hp)⟩
end

section
/-! SUPPORT. A readback at its site (R144, R150, R153, R154): what confirmation makes of the parts, what every later turn of
delivery leaves of the sign's images, and where a part still SENT comes from. -/

namespace Sys2Proof.Machine

/-! ## Confirmation (R150) -/

/-- What a readback makes of a part: CONFIRMED where it is pending and shown. -/
def DeliverySite.confirmedPart (d : DeliverySite) (p : Part) : Part :=
  if p.pending && d.matched p then { p with state := .confirmed, queued := false } else p

/-- A site once its parts have been confirmed where they are shown: the images stay. -/
structure DeliverySite.Confirms (d e : DeliverySite) : Prop where
  wanted : e.wanted = d.wanted
  sign : d.SameSign e
  flying : e.inFlight = true → d.inFlight = true
  part : ∀ k, e.part k = (d.part k).map d.confirmedPart

theorem confirmKind_parts (s : State) (i : Nat) (k : PartKind) : PartsOnly s (s.confirmKind i k) := by
  unfold State.confirmKind
  split
  · exact .refl s
  split
  · exact .refl s
  split
  · exact (withdrawKind_parts _ _ _).trans (modifySite_parts _ _ _)
  · exact .refl s

theorem confirm_parts (s : State) (i : Nat) : PartsOnly s (s.confirm i) :=
  ((confirmKind_parts _ _ _).trans (confirmKind_parts _ _ _)).trans (confirmKind_parts _ _ _)

theorem withdrawKind_idle {s : State} {i : Nat} (h : s.waitingOf i = none) (k : PartKind) : s.withdrawKind i k = s := by
  rcases withdrawKind_cases s i k with ⟨e, -⟩ | ⟨-, c, hc, -⟩
  · exact e
  · cases h.symm.trans hc

/-- R150 for one kind of part: its own part alone may change. -/
theorem confirmKind_at (s : State) (i : Nat) (k : PartKind) {d : DeliverySite} (hd : s.site i = some d) :
    ∃ e, (s.confirmKind i k).site i = some e ∧ e.wanted = d.wanted ∧ d.SameSign e ∧
      (e.inFlight = true → d.inFlight = true) ∧
      (∀ j, e.part j = if j = k then (d.part k).map d.confirmedPart else d.part j) ∧
      (s.waitingOf i = none → e.inFlight = d.inFlight ∧ (s.confirmKind i k).waitingOf i = none) := by
  have unchanged (h : (d.part k).map d.confirmedPart = d.part k) (j : PartKind) :
      d.part j = if j = k then (d.part k).map d.confirmedPart else d.part j := by
    rw [h]
    split
    · rename_i hj
      rw [hj]
    · rfl
  unfold State.confirmKind
  rw [hd]
  dsimp only
  cases hp : d.part k with
  | none =>
    rw [hp] at unchanged
    exact ⟨d, hd, rfl, ⟨rfl, rfl, rfl⟩, id, unchanged rfl, fun hw => ⟨rfl, hw⟩⟩
  | some p =>
    rw [hp] at unchanged
    dsimp only
    by_cases hm : (p.pending && d.matched p) = true
    · rw [if_pos hm]
      have set : (some p).map d.confirmedPart = some { p with state := .confirmed, queued := false } :=
        congrArg some (if_pos hm)
      obtain ⟨e, he, same, part⟩ := withdrawKind_setPart s i k (some { p with state := .confirmed, queued := false }) d hd
      refine ⟨e, he, same.wanted, same.sign, fun hf => ?_, fun j => ?_, fun hw => ?_⟩
      · rcases (withdrawKind_site s i k d hd).1 with h | h <;> rw [modifySite_site, if_pos rfl, h] at he <;> cases he
        · rwa [setPart_inFlight] at hf
        · rw [setPart_inFlight] at hf
          cases hf
      · rw [set]
        split
        · rename_i hj
          rw [hj, part]
        · exact same.part j ‹_›
      · rw [withdrawKind_idle hw] at he ⊢
        rw [modifySite_site, if_pos rfl, hd] at he
        cases he
        exact ⟨setPart_inFlight _ _ _, by rw [modifySite_waiting]; exact hw⟩
    · rw [if_neg hm]
      exact ⟨d, hd, rfl, ⟨rfl, rfl, rfl⟩, id, unchanged (congrArg some (if_neg hm)), fun hw => ⟨rfl, hw⟩⟩

theorem matched_congr {d e : DeliverySite} (hw : e.wanted = d.wanted) (hs : d.SameSign e) (p : Part) :
    e.confirmedPart p = d.confirmedPart p := by
  unfold DeliverySite.confirmedPart DeliverySite.matched
  rw [hw, hs.confirmed]

/-- R150: every kind of part of a site. -/
theorem confirm_at (s : State) (i : Nat) {d : DeliverySite} (hd : s.site i = some d) :
    ∃ e, (s.confirm i).site i = some e ∧ d.Confirms e ∧
      (s.waitingOf i = none → e.inFlight = d.inFlight ∧ (s.confirm i).waitingOf i = none) := by
  obtain ⟨a, ha, aw, as, af, ap, ai⟩ := confirmKind_at s i .tightening hd
  obtain ⟨b, hb, bw, bs, bf, bp, bi⟩ := confirmKind_at _ i .relaxing ha
  obtain ⟨c, hc, cw, cs, cf, cp, ci⟩ := confirmKind_at _ i .darkening hb
  have sameA := funext (matched_congr aw as)
  have sameB := (funext (matched_congr bw bs)).trans sameA
  refine ⟨c, hc, ⟨cw.trans (bw.trans aw), (as.trans bs).trans cs, fun h => af (bf (cf h)), fun k => ?_⟩, fun hw => ?_⟩
  · rw [sameA] at bp
    rw [sameB] at cp
    cases k <;> simp [cp, bp, ap]
  · obtain ⟨a1, a2⟩ := ai hw
    obtain ⟨b1, b2⟩ := bi a2
    obtain ⟨c1, c2⟩ := ci b2
    exact ⟨c1.trans (b1.trans a1), c2⟩

theorem DeliverySite.Confirms.pendingPart {d e : DeliverySite} (h : d.Confirms e) {k : PartKind}
    (hk : pendingPart (d.part k) = false) : pendingPart (e.part k) = false := by
  rw [h.part]
  cases hp : d.part k with
  | none => rfl
  | some p =>
    rw [hp] at hk
    have pending : p.pending = false := hk
    show (d.confirmedPart p).pending = false
    simp [DeliverySite.confirmedPart, pending]

/-! ## What delivery's turns leave of a site -/

/-- The images of the sign stay, the site is in flight only if it was, and a part that is SENT was so, of the same elements
and resends. -/
structure DeliverySite.Fades (d e : DeliverySite) : Prop where
  sign : d.SameSign e
  flying : e.inFlight = true → d.inFlight = true
  sent : ∀ k q, e.part k = some q → q.state = .sent →
    ∃ p, d.part k = some p ∧ p.state = .sent ∧ q.elements = p.elements ∧ q.resends = p.resends

theorem DeliverySite.Fades.trans {d e f : DeliverySite} (h : d.Fades e) (g : e.Fades f) : d.Fades f where
  sign := h.sign.trans g.sign
  flying hf := h.flying (g.flying hf)
  sent k r hr hs := by
    obtain ⟨q, hq, qs, qe, qr⟩ := g.sent k r hr hs
    obtain ⟨p, hp, ps, pe, pr⟩ := h.sent k q hq qs
    exact ⟨p, hp, ps, qe.trans pe, qr.trans pr⟩

theorem DeliverySite.Fades.refl (d : DeliverySite) : d.Fades d :=
  ⟨⟨rfl, rfl, rfl⟩, id, fun _ q hq hs => ⟨q, hq, hs, rfl, rfl⟩⟩

theorem DeliverySite.Confirms.fades {d e : DeliverySite} (h : d.Confirms e) : d.Fades e where
  sign := h.sign
  flying := h.flying
  sent k q hq hs := by
    rw [h.part] at hq
    obtain ⟨p, hp, rfl⟩ := Option.map_eq_some_iff.1 hq
    unfold DeliverySite.confirmedPart at hs ⊢
    split at hs
    · cases hs
    · rename_i hm
      rw [if_neg hm]
      exact ⟨p, hp, hs, rfl, rfl⟩

theorem DeliverySite.Like.fades {d e : DeliverySite} (h : d.Like e) : d.Fades e where
  sign := h.sign
  flying := h.inFlight
  sent k q hq hs := by
    cases hp : d.part k with
    | none => cases hq.symm.trans (h.absent k hp)
    | some p =>
      obtain ⟨q', hq', like⟩ := h.part k p hp
      cases hq.symm.trans hq'
      rcases like.state with e | ⟨-, e⟩
      · exact ⟨p, rfl, e.symm.trans hs, like.elements, like.resends⟩
      · cases e.symm.trans hs

/-- R156: completion at a site: nothing for the plan; with the dark target its parts go. -/
theorem judgeCompletion_at (s : State) (i : Nat) {d : DeliverySite} (hd : s.site i = some d) :
    ∃ e, s.judgeCompletion.site i = some e ∧ d.Fades e ∧ (s.delivery.target = .plan → e = d) := by
  cases ht : s.delivery.target with
  | plan =>
    refine ⟨d, ?_, .refl d, fun _ => rfl⟩
    rcases judgeCompletion_cases s ht with ⟨e, -⟩ | ⟨-, e⟩ <;> rw [e] <;> exact hd
  | dark =>
    unfold State.judgeCompletion
    split
    · rw [ht]
      dsimp only
      unfold State.enterShadow State.wantPlan State.clearParts
      generalize hv : ({ ({ s with delivery := s.delivery.complete }.notifyAll .delivered) with
        mode := .shadow } : State).notifyAll .mode = v
      have site : v.site i = some d := by rw [← hv]; exact hd
      obtain ⟨a, before, after⟩ := forSites_at v (fun i st => st.withdraw i) i
        (fun j t h => withdraw_untouched t i j h) (site_some_lt site)
      have given : (v.forSites fun i st => st.withdraw i).site i = some (match a.waitingOf i with
          | none => d
          | some c => d.uncommand c.part) := by
        rw [after.site, withdraw_site, if_pos rfl, before.site, site]
        rfl
      have like : d.Like (match a.waitingOf i with
          | none => d
          | some c => d.uncommand c.part) := by
        split
        · exact .refl d
        · exact d.like_uncommand _
      generalize (match a.waitingOf i with
        | none => d
        | some c => d.uncommand c.part) = b at given like
      refine ⟨{ b.noParts with wanted := (planSite (v.forSites fun i st => st.withdraw i).evaluator.plan i).wanted },
        ?_, ⟨⟨like.confirmed, like.applied, like.commanded⟩, like.inFlight, fun k q hq => ?_⟩, nofun⟩
      · show ((((v.forSites fun i st => st.withdraw i).mapSites fun _ d => d.noParts).mapSites _).site i) = _
        rw [mapSites_site, mapSites_site, given]
        rfl
      · cases k <;> cases hq
    · exact ⟨d, hd, .refl d, nofun⟩

/-- Delivery's turn at a site. -/
theorem settleDelivery_at (s : State) (i : Nat) {d : DeliverySite} (hd : s.site i = some d) :
    ∃ e, s.settleDelivery.site i = some e ∧ d.Fades e ∧ (s.delivery.target = .plan → d.Like e) := by
  obtain ⟨a, ha, like, -⟩ := judgeReleases_at s i d hd
  obtain ⟨e, he, fades, same⟩ := judgeCompletion_at _ i ha
  refine ⟨e, he, like.fades.trans fades, fun ht => ?_⟩
  rw [same ((judgeReleases_parts s).target.trans ht)]
  exact like

/-- Delivery's turn counts no drift (R154). -/
theorem settleDelivery_drifts (s : State) : s.settleDelivery.delivery.drifts = s.delivery.drifts := by
  have parts : s.judgeReleases.delivery.drifts = s.delivery.drifts := by rw [(judgeReleases_parts s).delivery]
  unfold State.settleDelivery
  refine Eq.trans ?_ parts
  generalize s.judgeReleases = a
  unfold State.judgeCompletion
  split
  · cases a.delivery.target with
    | plan => rfl
    | dark =>
      dsimp only
      unfold State.enterShadow State.wantPlan State.clearParts
      generalize hv : ({ ({ a with delivery := a.delivery.complete }.notifyAll .delivered) with
        mode := .shadow } : State).notifyAll .mode = v
      have drifts : (v.forSites fun i st => st.withdraw i).delivery.drifts = v.delivery.drifts := by
        rw [(withdraws_parts v).delivery]
      exact drifts.trans (by rw [← hv]; rfl)
  · rfl

theorem PartsOnly.drifts {s t : State} (h : PartsOnly s t) : t.delivery.drifts = s.delivery.drifts := by rw [h.delivery]

/-! ## A re-form at its site -/

/-- R146: a re-form leaves what the sign showed and was sent, whatever the mode and the target. -/
theorem reform_sign_at (s : State) (i : Nat) {d : DeliverySite} (hd : s.site i = some d) :
    ∃ e, (s.reform i).site i = some e ∧ d.SameSign e := by
  unfold State.reform
  split
  · split
    · obtain ⟨a, ha, h⟩ := reformKind_sign s i .tightening d hd
      obtain ⟨b, hb, g⟩ := reformKind_sign _ i .relaxing a ha
      exact ⟨b, hb, h.trans g⟩
    · exact reformKind_sign s i .darkening d hd
  · exact ⟨d, hd, ⟨rfl, rfl, rfl⟩⟩

theorem reformIfDiffering_sign (s : State) (i j : Nat) {d : DeliverySite} (hd : s.site i = some d) :
    ∃ e, (s.reformIfDiffering j).site i = some e ∧ d.SameSign e := by
  unfold State.reformIfDiffering
  split
  · exact ⟨d, hd, ⟨rfl, rfl, rfl⟩⟩
  split
  · by_cases hj : i = j
    · subst hj
      exact reform_sign_at s i hd
    · exact ⟨d, (reform_untouched s i j hj).site.trans hd, ⟨rfl, rfl, rfl⟩⟩
  · exact ⟨d, hd, ⟨rfl, rfl, rfl⟩⟩

end Sys2Proof.Machine
end

section
/-! SUPPORT. The end of a SET with a reply (R151): the mismatch it may report to the unit of its site (R134), and what it
leaves of the sites. -/

namespace Sys2Proof.Machine

/-! ## A mismatch reported (R134) -/

/-- A mismatch report stores the marked record and gives the notice that its change calls for; beyond the section it is
nothing. -/
theorem reportMismatch_cases (s : State) (i : Nat) (es : List ElemId) : s.reportMismatch i es = s ∨
    ∃ u r, s.unit i = some u ∧ s.store.site i = some r ∧ s.reportMismatch i es =
      (s.storeUnit i (u.markMismatch r.kind es)).noticeUnit (decide ((u.markMismatch r.kind es).noticed ≠ u.noticed)) := by
  unfold State.reportMismatch
  cases hu : s.unit i with
  | none => exact .inl rfl
  | some u =>
    cases hr : s.store.site i with
    | none => exact .inl rfl
    | some r =>
      refine .inr ⟨u, r, rfl, rfl, ?_⟩
      dsimp only
      unfold State.noticeUnit
      by_cases h : (u.markMismatch r.kind es).noticed = u.noticed
      · simp [h]
      · simp [h]

/-- It leaves delivery, the queues, the stations and the store. -/
theorem reportMismatch_keeps (s : State) (i : Nat) (es : List ElemId) :
    (s.reportMismatch i es).delivery = s.delivery ∧ (s.reportMismatch i es).lines = s.lines ∧
    (s.reportMismatch i es).stations = s.stations ∧ (s.reportMismatch i es).store = s.store := by
  rcases reportMismatch_cases s i es with h | ⟨u, r, -, -, h⟩ <;> rw [h]
  · exact ⟨rfl, rfl, rfl, rfl⟩
  · obtain ⟨-, -, delivery, lines, stations, store⟩ := noticeUnit_keeps (s.storeUnit i (u.markMismatch r.kind es))
      (decide ((u.markMismatch r.kind es).noticed ≠ u.noticed))
    obtain ⟨delivery', -, lines', store', stations', -⟩ := storeUnit_keeps s i (u.markMismatch r.kind es)
    exact ⟨delivery.trans delivery', lines.trans lines', stations.trans stations', store.trans store'⟩

theorem reportMismatch_site (s : State) (i : Nat) (es : List ElemId) (j : Nat) :
    (s.reportMismatch i es).site j = s.site j := by
  unfold State.site
  rw [(reportMismatch_keeps s i es).1]

theorem reportMismatch_telling (s : State) (i : Nat) (es : List ElemId) : Telling s (s.reportMismatch i es) := by
  rcases reportMismatch_cases s i es with h | ⟨u, r, -, -, h⟩ <;> rw [h]
  · exact .refl s
  · exact (storeUnit_telling _ _ _).trans (noticeUnit_telling _ _)

/-- What of a unit's record no mismatch touches. -/
def UnitRec.standing (u : UnitRec) : UnitState × Nat × Nat × Option Nat × Nat × Nat :=
  (u.state, u.good, u.miss, u.boot, u.misses, u.restarts)

theorem reportMismatch_standing (s : State) (i : Nat) (es : List ElemId) (j : Nat) :
    ((s.reportMismatch i es).unit j).map UnitRec.standing = (s.unit j).map UnitRec.standing := by
  rcases reportMismatch_cases s i es with h | ⟨u, r, hu, -, h⟩ <;> rw [h]
  rw [(noticeUnit_turn _ _).unit, storeUnit_unit]
  split
  · rename_i hj
    rw [hj, hu]
    rfl
  · rfl

/-! ## The end of a part with a reply (R151) -/

theorem endPart_unsent {s : State} {i : Nat} {k : PartKind}
    (h : ∀ d p, s.site i = some d → d.part k = some p → p.state ≠ .sent) (b : Bool) : s.endPart i k b = s := by
  unfold State.endPart
  split
  · rfl
  split
  · rfl
  · exact if_pos (h _ _ ‹_› ‹_›)

/-- R151: a SENT part at its first mismatch, or without one, waits again. -/
theorem endPart_waits {s : State} {i : Nat} {k : PartKind} {d : DeliverySite} {p : Part} (hd : s.site i = some d)
    (hp : d.part k = some p) (hs : p.state = .sent) (hr : p.resends = 0) : s.endPart i k true =
      s.modifySite i fun d => d.setPart k (some { p with state := .waiting, resends := 1 }) := by
  unfold State.endPart
  rw [hd]
  dsimp only
  rw [hp]
  simp [hs, hr]

/-- R134 and R151: a SENT part that was sent again is given up, and its disagreeing elements reported. -/
theorem endPart_gives_up {s : State} {i : Nat} {k : PartKind} {d : DeliverySite} {p : Part} (hd : s.site i = some d)
    (hp : d.part k = some p) (hs : p.state = .sent) (hr : p.resends ≠ 0) : s.endPart i k true =
      (s.reportMismatch i (d.disagreeing p)).abandon i k p (d.disagreeing p) := by
  unfold State.endPart
  rw [hd]
  dsimp only
  rw [hp]
  simp [hs, hr]

/-- A part ended with a reply: nothing of a part that is not SENT, WAITING again at its first mismatch, and given up at its
second, reported to the unit. -/
theorem endPart_replied_cases (s : State) (i : Nat) (k : PartKind) :
    s.endPart i k true = s ∧ (∀ d p, s.site i = some d → d.part k = some p → p.state ≠ .sent) ∨
    ∃ d p, s.site i = some d ∧ d.part k = some p ∧ p.state = .sent ∧
      (p.resends = 0 ∧ s.endPart i k true =
          s.modifySite i (fun d => d.setPart k (some { p with state := .waiting, resends := 1 })) ∨
        p.resends ≠ 0 ∧ s.endPart i k true =
          (s.reportMismatch i (d.disagreeing p)).abandon i k p (d.disagreeing p)) := by
  by_cases h : ∃ d p, s.site i = some d ∧ d.part k = some p ∧ p.state = .sent
  · obtain ⟨d, p, hd, hp, hs⟩ := h
    by_cases hr : p.resends = 0
    · exact .inr ⟨d, p, hd, hp, hs, .inl ⟨hr, endPart_waits hd hp hs hr⟩⟩
    · exact .inr ⟨d, p, hd, hp, hs, .inr ⟨hr, endPart_gives_up hd hp hs hr⟩⟩
  · have unsent : ∀ d p, s.site i = some d → d.part k = some p → p.state ≠ .sent :=
      fun d p hd hp hs => h ⟨d, p, hd, hp, hs⟩
    exact .inl ⟨endPart_unsent unsent true, unsent⟩

/-- What the end of a SET leaves of a site before delivery's turn: the images of its sign, every part that was not SENT, and
of what it wants no more than it did. -/
structure DeliverySite.Ended (d e : DeliverySite) : Prop where
  sign : d.SameSign e
  part : ∀ k p, d.part k = some p → p.state ≠ .sent → e.part k = some p
  wanted : ∀ x w, e.wanted.lookup x = some w → d.wanted.lookup x = some w

theorem DeliverySite.Ended.refl (d : DeliverySite) : d.Ended d :=
  ⟨⟨rfl, rfl, rfl⟩, fun _ _ h _ => h, fun _ _ h => h⟩

theorem DeliverySite.Ended.trans {d e f : DeliverySite} (h : d.Ended e) (g : e.Ended f) : d.Ended f :=
  ⟨h.sign.trans g.sign, fun k p hp hs => g.part k p (h.part k p hp hs) hs, fun x w hx => h.wanted x w (g.wanted x w hx)⟩

theorem landed_ended (s : State) (i j : Nat) {d : DeliverySite} (hd : s.site i = some d) :
    ∃ e, (s.landed j).site i = some e ∧ d.Ended e := by
  by_cases hj : i = j
  · subst hj
    exact ⟨_, landed_site hd, ⟨⟨rfl, rfl, rfl⟩, fun k p hp _ => by rw [part_withFlight, hp], fun _ _ h => h⟩⟩
  · exact ⟨d, (modifySite_untouched s i j _ hj).site.trans hd, .refl d⟩

theorem endPart_ended (s : State) (i j : Nat) (k : PartKind) {d : DeliverySite} (hd : s.site i = some d) :
    ∃ e, (s.endPart j k true).site i = some e ∧ d.Ended e := by
  rcases endPart_replied_cases s j k with ⟨h, -⟩ | ⟨d', p, hd', hp, hs, ⟨-, h⟩ | ⟨-, h⟩⟩ <;> rw [h]
  · exact ⟨d, hd, .refl d⟩
  · rw [modifySite_site]
    split
    · rename_i hj
      subst hj
      cases hd.symm.trans hd'
      rw [hd]
      refine ⟨_, rfl, ⟨setPart_confirmed _ _ _, setPart_applied _ _ _, setPart_commanded _ _ _⟩, fun m q hq hn => ?_,
        fun x w hx => by rwa [setPart_wanted] at hx⟩
      have other : m ≠ k := by
        rintro rfl
        cases hp.symm.trans hq
        exact hn hs
      rw [part_setPart, if_neg other, hq]
    · exact ⟨d, hd, .refl d⟩
  · rw [abandon_site]
    split
    · rename_i hj
      subst hj
      cases hd.symm.trans hd'
      rw [reportMismatch_site, hd]
      refine ⟨_, rfl, d.sameSign_abandon _ _ _, fun m q hq hn => ?_, fun x w hx => ?_⟩
      · have other : m ≠ k := by
          rintro rfl
          cases hp.symm.trans hq
          exact hn hs
        rw [part_withWanted, part_setPart, if_neg other, hq]
      · have without := lookup_without d.wanted (d.disagreeing p) x
        rw [without] at hx
        split at hx
        · cases hx
        · exact hx
    · rw [reportMismatch_site]
      exact ⟨d, hd, .refl d⟩

/-- An element differs no more where less is wanted. -/
theorem DeliverySite.Ended.differs {d e : DeliverySite} (h : d.Ended e) {x : ElemId} (hx : d.differs x = false) :
    e.differs x = false := by
  unfold DeliverySite.differs at hx ⊢
  cases hw : e.wanted.lookup x with
  | none => rfl
  | some w =>
    rw [h.wanted x w hw] at hx
    rw [h.sign.confirmed]
    exact hx

theorem siteDiffers_false {s : State} {i : Nat} {d : DeliverySite} (hd : s.site i = some d)
    (h : ∀ x ∈ s.store.elements i, d.differs x = false) : s.siteDiffers i = false := by
  unfold State.siteDiffers
  rw [hd]
  simpa using h

/-- R151: where nothing differs nothing is re-formed. -/
theorem reformIfDiffering_same {s : State} {i : Nat} (h : s.siteDiffers i = false) : s.reformIfDiffering i = s := by
  unfold State.reformIfDiffering
  split
  · rfl
  · rw [h, Bool.and_false]
    rfl

/-- The end of a SET up to the re-form of its site. -/
def State.ended (s : State) (c : SetCommand) : State := (s.landed c.site).endPart c.site c.part true

theorem ended_ended (s : State) (c : SetCommand) (i : Nat) {d : DeliverySite} (hd : s.site i = some d) :
    ∃ e, (s.ended c).site i = some e ∧ d.Ended e := by
  obtain ⟨a, ha, h⟩ := landed_ended s i c.site hd
  obtain ⟨e, he, g⟩ := endPart_ended (s.landed c.site) i c.site c.part ha
  exact ⟨e, he, h.trans g⟩

theorem ended_handing (s : State) (c : SetCommand) : Handing s (s.ended c) :=
  (modifySite_handing _ _ _).trans (endPart_handing _ _ _ _)

/-- R144 and R153: the images of a sign stand over the end of a SET with a reply. -/
theorem setEnded_replied_sign (s : State) (c : SetCommand) (i : Nat) {d : DeliverySite} (hd : s.site i = some d) :
    ∃ e, (s.setEnded c true).site i = some e ∧ d.SameSign e := by
  rcases setEnded_cases s c true with h | h | h <;> rw [h]
  · exact ⟨d, hd, ⟨rfl, rfl, rfl⟩⟩
  · obtain ⟨e, he, fades, -⟩ := settleDelivery_at s i hd
    exact ⟨e, he, fades.sign⟩
  · obtain ⟨a, ha, ended⟩ := ended_ended s c i hd
    obtain ⟨b, hb, sign⟩ := reformIfDiffering_sign (s.ended c) i c.site ha
    obtain ⟨e, he, fades, -⟩ := settleDelivery_at _ i hb
    exact ⟨e, he, (ended.sign.trans sign).trans fades.sign⟩

/-- A part resolved stays over delivery's turn for the plan. -/
theorem settleDelivery_resolved {s : State} {i : Nat} {d : DeliverySite} (hd : s.site i = some d)
    (ht : s.delivery.target = .plan) {k : PartKind} {p : Part} (hp : d.part k = some p) (hn : p.pending = false)
    (hq : p.queued = false) : ∃ e, s.settleDelivery.site i = some e ∧ e.part k = some p ∧ d.Like e := by
  obtain ⟨e, he, -, like⟩ := settleDelivery_at s i hd
  obtain ⟨q, hq', same⟩ := (like ht).part k p hp
  exact ⟨e, he, by rw [hq', same.resolved hn hq], like ht⟩

/-- R150: a part CONFIRMED stays so over the end of a SET with a reply where nothing of its site differs. -/
theorem setEnded_replied_resolved {s : State} (c : SetCommand) {i : Nat} {d : DeliverySite} (hd : s.site i = some d)
    (ht : s.delivery.target = .plan) (hx : ∀ x ∈ s.store.elements i, d.differs x = false) {k : PartKind} {p : Part}
    (hp : d.part k = some p) (hn : p.pending = false) (hq : p.queued = false) :
    ∃ e, (s.setEnded c true).site i = some e ∧ e.part k = some p := by
  rcases setEnded_cases s c true with h | h | h <;> rw [h]
  · exact ⟨d, hd, hp⟩
  · obtain ⟨e, he, hp, -⟩ := settleDelivery_resolved hd ht hp hn hq
    exact ⟨e, he, hp⟩
  · have unsent : p.state ≠ .sent := fun e => by simp [Part.pending, e] at hn
    have handing := ended_handing s c
    obtain ⟨a, ha, ended⟩ := ended_ended s c i hd
    have same : ((s.ended c).reformIfDiffering c.site).site i = some a := by
      by_cases hi : i = c.site
      · subst hi
        rw [reformIfDiffering_same (siteDiffers_false ha fun x hm => ended.differs (hx x ?_)), ha]
        rwa [handing.side.store] at hm
      · unfold State.reformIfDiffering
        split
        · exact ha
        split
        · exact (reform_untouched _ i c.site hi).site.trans ha
        · exact ha
    obtain ⟨e, he, part, -⟩ := settleDelivery_resolved same
      ((handing.trans (reformIfDiffering_handing _ _)).side.plan_target ht) (ended.part k p hp unsent) hn hq
    exact ⟨e, he, part⟩

/-- R151: the first mismatch of a part makes it WAITING again. -/
theorem setEnded_mismatch {s : State} {c : SetCommand} {d : DeliverySite} (hd : s.site c.site = some d)
    (hf : d.inFlight = true) (hw : s.waitingOf c.site = none) {p : Part} (hp : d.part c.part = some p)
    (hs : p.state = .sent) (hr : p.resends = 0) : ∃ e q, (s.setEnded c true).site c.site = some e ∧ e.inFlight = false ∧
      e.part c.part = some { p with state := .waiting, resends := 1, queued := q } := by
  have landed := landed_site hd
  have part : ({ d with inFlight := false } : DeliverySite).part c.part = some p := by rw [part_withFlight, hp]
  have ended := endPart_waits landed part hs hr
  rw [setEnded_flying hd hf, ended]
  refine settleDelivery_waits (d := ({ d with inFlight := false } : DeliverySite).setPart c.part
    (some { p with state := .waiting, resends := 1 })) (p := { p with state := .waiting, resends := 1 }) ?_ ?_ ?_ ?_ rfl
  · rw [modifySite_site, if_pos rfl, landed]
    rfl
  · rw [modifySite_waiting]
    unfold State.landed
    rw [modifySite_waiting]
    exact hw
  · rw [setPart_inFlight]
  · rw [part_setPart, if_pos rfl]

/-! ## The second mismatch of a part (R134, R151) -/

/-- The state in which a second mismatch is reported and its part given up. -/
def State.mismatched (s : State) (c : SetCommand) (d : DeliverySite) (p : Part) : State :=
  ((s.landed c.site).reportMismatch c.site (d.disagreeing p)).abandon c.site c.part p (d.disagreeing p)

/-- R151: the end of a SET with a reply is delivery's own turn, unless a part sent again has disagreed again. -/
theorem setEnded_replied_cases (s : State) (c : SetCommand) : DeliveryTurn s (s.setEnded c true) ∨
    ∃ d p, s.site c.site = some d ∧ d.inFlight = true ∧ d.part c.part = some p ∧ p.state = .sent ∧ p.resends ≠ 0 ∧
      s.setEnded c true = ((s.mismatched c d p).reformIfDiffering c.site).settleDelivery := by
  rcases hd : s.site c.site with _ | d
  · left
    unfold State.setEnded
    rw [hd]
    exact .refl s
  cases hf : d.inFlight with
  | false =>
    left
    unfold State.setEnded
    rw [hd]
    dsimp only
    rw [if_neg (by rw [hf]; exact Bool.false_ne_true)]
    exact settleDelivery_turn s
  | true =>
    rw [setEnded_flying hd hf]
    have landed := landed_site hd
    have before : PartsOnly s (s.landed c.site) := modifySite_parts _ _ _
    have turn {a : State} (h : PartsOnly (s.landed c.site) a) :
        DeliveryTurn s (a.reformIfDiffering c.site).settleDelivery :=
      ((before.trans h).trans (reformIfDiffering_parts _ _)).turn.trans (settleDelivery_turn _)
    rcases endPart_replied_cases (s.landed c.site) c.site c.part with ⟨h, -⟩ | ⟨d', p, hd', hp, hs, ⟨-, h⟩ | ⟨hr, h⟩⟩
    · left
      rw [h]
      exact turn (.refl _)
    · left
      rw [h]
      exact turn (modifySite_parts _ _ _)
    · cases landed.symm.trans hd'
      rw [part_withFlight] at hp
      exact .inr ⟨d, p, rfl, hf, hp, hs, hr, congrArg (fun a => ((State.reformIfDiffering a c.site).settleDelivery)) h⟩

/-- After the report the rest of the event is delivery's own turn. -/
theorem mismatched_turn (s : State) (c : SetCommand) (d : DeliverySite) (p : Part) :
    DeliveryTurn ((s.landed c.site).reportMismatch c.site (d.disagreeing p))
      ((s.mismatched c d p).reformIfDiffering c.site).settleDelivery :=
  ((abandon_parts _ _ _ _ _).trans (reformIfDiffering_parts _ _)).turn.trans (settleDelivery_turn _)

theorem landed_turn (s : State) (i : Nat) : DeliveryTurn s (s.landed i) := (modifySite_parts _ _ _).turn

theorem setEnded_replied_telling (s : State) (c : SetCommand) : Telling s (s.setEnded c true) := by
  rcases setEnded_replied_cases s c with h | ⟨d, p, -, -, -, -, -, h⟩
  · exact h.telling
  · rw [h]
    exact ((landed_turn s c.site).telling.trans (reportMismatch_telling _ _ _)).trans (mismatched_turn s c d p).telling

theorem setEnded_replied_stations (s : State) (c : SetCommand) : (s.setEnded c true).stations = s.stations := by
  rcases setEnded_replied_cases s c with h | ⟨d, p, -, -, -, -, -, h⟩
  · exact h.stations
  · rw [h, (mismatched_turn s c d p).stations, (reportMismatch_keeps _ _ _).2.2.1, (landed_turn s c.site).stations]

theorem setEnded_replied_standing (s : State) (c : SetCommand) (j : Nat) :
    ((s.setEnded c true).unit j).map UnitRec.standing = (s.unit j).map UnitRec.standing := by
  rcases setEnded_replied_cases s c with h | ⟨d, p, -, -, -, -, -, h⟩
  · rw [h.unit]
  · rw [h, (mismatched_turn s c d p).unit, reportMismatch_standing, (landed_turn s c.site).unit]

/-- R154: the end of a SET counts no drift. -/
theorem setEnded_replied_drifts (s : State) (c : SetCommand) :
    (s.setEnded c true).delivery.drifts = s.delivery.drifts := by
  rcases setEnded_cases s c true with h | h | h <;> rw [h]
  · rw [settleDelivery_drifts]
  · rw [settleDelivery_drifts, (reformIfDiffering_parts _ _).drifts]
    have landed : (s.landed c.site).delivery.drifts = s.delivery.drifts := PartsOnly.drifts (modifySite_parts _ _ _)
    refine Eq.trans ?_ landed
    rcases endPart_replied_cases (s.landed c.site) c.site c.part with ⟨h, -⟩ | ⟨d', p, -, -, -, ⟨-, h⟩ | ⟨-, h⟩⟩ <;> rw [h]
    · exact (modifySite_parts _ _ _).drifts
    · rw [(abandon_parts _ _ _ _ _).drifts, (reportMismatch_keeps _ _ _).1]

end Sys2Proof.Machine
end

section
/-! SUPPORT. A good reply taken by its unit (R127 to R133): the record it leaves, what the readback and the DATA it hands on
leave of the units, and the event as a whole. -/

namespace Sys2Proof.Machine

/-! ## The record after a good reply -/

/-- A unit's record after a good reply, before its elements are judged: steps 1 to 3 of R127. -/
def UnitRec.answered (u : UnitRec) (r : FieldReply) : UnitRec := ((u.takeBoot r.boot).takeFaults r).goodReply

/-- An element's record after a STATE: its mark cleared by a restart (R132), its fault taken (R133, R135). -/
def ElemRec.answered (e : ElemRec) (a : StateReply) (restarted : Bool) : ElemRec :=
  (if restarted then { e with mark := .clear } else e).report (a.faultOf e.name)

theorem goodReply_fields (u : UnitRec) : u.goodReply.owner = u.owner ∧ u.goodReply.elements = u.elements ∧
    u.goodReply.boot = u.boot ∧ u.goodReply.misses = u.misses ∧ u.goodReply.restarts = u.restarts := by
  unfold UnitRec.goodReply
  cases u.state with
  | probing => dsimp only; split <;> exact ⟨rfl, rfl, rfl, rfl, rfl⟩
  | _ => exact ⟨rfl, rfl, rfl, rfl, rfl⟩

theorem takeFaults_fields (u : UnitRec) (r : FieldReply) : (u.takeFaults r).owner = u.owner ∧
    (u.takeFaults r).boot = u.boot ∧ (u.takeFaults r).misses = u.misses ∧ (u.takeFaults r).restarts = u.restarts ∧
    (u.takeFaults r).state = u.state ∧ (u.takeFaults r).good = u.good ∧ (u.takeFaults r).miss = u.miss := by
  cases r <;> exact ⟨rfl, rfl, rfl, rfl, rfl, rfl, rfl⟩

theorem restartedBy_iff (u : UnitRec) (boot : Nat) : u.restartedBy boot = true ↔ u.Restarts boot := by
  unfold UnitRec.restartedBy UnitRec.Restarts
  cases u.boot <;> simp

/-- R132: the boot number taken, a restart counted. -/
theorem takeBoot_fields (u : UnitRec) (boot : Nat) : (u.takeBoot boot).owner = u.owner ∧
    (u.takeBoot boot).boot = some boot ∧ (u.takeBoot boot).misses = u.misses ∧
    (u.takeBoot boot).restarts =
      (if u.boot = none ∨ u.boot = some boot then u.restarts else min (u.restarts + 1) 65535) ∧
    (u.takeBoot boot).state = u.state ∧ (u.takeBoot boot).good = u.good ∧ (u.takeBoot boot).miss = u.miss := by
  have restarts := restartedBy_iff u boot
  unfold UnitRec.takeBoot
  by_cases h : u.Restarts boot
  · have other : ¬ (u.boot = none ∨ u.boot = some boot) := fun g => g.elim h.1 h.2
    dsimp only
    rw [if_pos (restarts.2 h), if_neg other]
    exact ⟨rfl, rfl, rfl, rfl, rfl, rfl, rfl⟩
  · have same : u.boot = none ∨ u.boot = some boot := by
      by_contra g
      rw [not_or] at g
      exact h g
    dsimp only
    rw [if_neg (fun g => h (restarts.1 g)), if_pos same]
    exact ⟨rfl, rfl, rfl, rfl, rfl, rfl, rfl⟩

theorem answered_fields (u : UnitRec) (r : FieldReply) : (u.answered r).owner = u.owner ∧
    (u.answered r).boot = some r.boot ∧ (u.answered r).misses = u.misses ∧ (u.answered r).restarts =
      if u.boot = none ∨ u.boot = some r.boot then u.restarts else min (u.restarts + 1) 65535 := by
  obtain ⟨o1, -, b1, m1, r1⟩ := goodReply_fields ((u.takeBoot r.boot).takeFaults r)
  obtain ⟨o2, b2, m2, r2, -⟩ := takeFaults_fields (u.takeBoot r.boot) r
  obtain ⟨o3, b3, m3, r3, -⟩ := takeBoot_fields u r.boot
  exact ⟨o1.trans (o2.trans o3), b1.trans (b2.trans b3), m1.trans (m2.trans m3), r1.trans (r2.trans r3)⟩

/-- R128 to R130: the states a good reply gives. -/
theorem answered_states (u : UnitRec) (r : FieldReply) :
    (u.state = .absent → (u.answered r).state = .absent) ∧
    (u.state = .probing → u.good < 3 → (u.answered r).state = .probing ∧ (u.answered r).good = u.good + 1) ∧
    (u.state = .probing → 3 ≤ u.good → (u.answered r).state = .up ∧ (u.answered r).good = 0) ∧
    (u.state = .up → (u.answered r).state = .up ∧ (u.answered r).miss = u.miss) ∧
    (u.state = .suspect → (u.answered r).state = .up ∧ (u.answered r).miss = 0) ∧
    (u.state = .lost → (u.answered r).state = .probing ∧ (u.answered r).good = 1) := by
  obtain ⟨-, -, -, -, state2, good2, miss2⟩ := takeFaults_fields (u.takeBoot r.boot) r
  obtain ⟨-, -, -, -, state3, good3, miss3⟩ := takeBoot_fields u r.boot
  unfold UnitRec.answered
  rw [← state2.trans state3, ← good2.trans good3, ← miss2.trans miss3]
  generalize (u.takeBoot r.boot).takeFaults r = w
  have limit : Config.probeGood = 4 := rfl
  unfold UnitRec.goodReply
  cases hw : w.state with
  | probing =>
    refine ⟨nofun, fun _ hg => ?_, fun _ hg => ?_, nofun, nofun, nofun⟩
    · dsimp only
      rw [if_neg (by omega)]
      exact ⟨rfl, rfl⟩
    · dsimp only
      rw [if_pos (by omega)]
      exact ⟨rfl, rfl⟩
  | _ => simp [hw]

theorem answered_not_lost (u : UnitRec) (r : FieldReply) : (u.answered r).state ≠ .lost := by
  obtain ⟨absent, early, late, up, suspect, lost⟩ := answered_states u r
  cases hu : u.state with
  | absent => rw [absent hu]; decide
  | probing =>
    rcases Nat.lt_or_ge u.good 3 with hg | hg
    · rw [(early hu hg).1]; decide
    · rw [(late hu hg).1]; decide
  | up => rw [(up hu).1]; decide
  | suspect => rw [(suspect hu).1]; decide
  | lost => rw [(lost hu).1]; decide

/-- A unit in contact is so after a good reply. -/
theorem answered_contact {u : UnitRec} (h : u.state.Contact) (r : FieldReply) : (u.answered r).state = .up := by
  obtain ⟨-, -, -, up, suspect, -⟩ := answered_states u r
  exact h.elim (fun h => (up h).1) fun h => (suspect h).1

/-- R132, R133 and R135: the elements of a record after a STATE. -/
theorem answered_elements (u : UnitRec) (a : StateReply) : (u.answered (.state a)).elements =
    u.elements.map fun e => e.answered a (u.restartedBy a.boot) := by
  obtain ⟨-, elements, -⟩ := goodReply_fields ((u.takeBoot a.boot).takeFaults (.state a))
  refine elements.trans ?_
  unfold UnitRec.takeBoot
  dsimp only
  by_cases h : u.restartedBy a.boot = true
  · rw [if_pos h]
    show (u.clearMarks.elements.map fun e => e.report (a.faultOf e.name)) = _
    unfold UnitRec.clearMarks
    rw [List.map_map]
    exact List.map_congr_left fun e _ => by simp [ElemRec.answered, h]
  · rw [if_neg h]
    exact List.map_congr_left fun e _ => by simp [ElemRec.answered, h]

theorem elem_answered_name (e : ElemRec) (a : StateReply) (b : Bool) :
    (e.answered a b).name = e.name ∧ (e.answered a b).available = e.available := by
  cases b <;> exact ⟨rfl, rfl⟩

theorem usable_of_elements {u v : UnitRec} (f : ElemRec → ElemRec) (h : v.elements = u.elements.map f)
    (hf : ∀ e, (f e).name = e.name ∧ (f e).available = e.available) : v.usable = u.usable := by
  unfold UnitRec.usable
  rw [h]
  induction u.elements with
  | nil => rfl
  | cons e es ih =>
    obtain ⟨name, available⟩ := hf e
    rw [List.map_cons, List.filter_cons, List.filter_cons, available]
    split
    · rw [List.map_cons, List.map_cons, name, ih]
    · exact ih

/-- What a good reply of a STATE leaves of what has been judged available. -/
theorem answered_usable (u : UnitRec) (a : StateReply) : (u.answered (.state a)).usable = u.usable :=
  usable_of_elements _ (answered_elements u a) fun e => elem_answered_name e a _

/-! ## The readback (R144, R150, R153, R154) -/

/-- A readback taken and its parts confirmed, before it is asked for a drift. -/
def State.shown (s : State) (i : Nat) (a : StateReply) : State := ((s.takeReadback i a).confirm i).settleDelivery

theorem readback_restarted (s : State) (i : Nat) (a : StateReply) (b : Bool) : s.readback i a true b =
    (((((s.takeReadback i a).modifySite i fun d => d.forget).confirm i).settleDelivery).reform i).settleDelivery := by
  unfold State.readback
  dsimp only
  rw [if_pos rfl]

/-- R154: a drift counted, its site re-formed, and delivery's turn. -/
def State.afterDrift (s : State) (i : Nat) : State :=
  ({ s with delivery := s.delivery.drift }.reform i).settleDelivery

theorem readback_kept (s : State) (i : Nat) (a : StateReply) (b : Bool) : s.readback i a false b =
    if (!b && (s.shown i a).drifted i) = true then (s.shown i a).afterDrift i else s.shown i a := by
  unfold State.readback State.afterDrift State.shown
  dsimp only
  rw [if_neg Bool.false_ne_true]

theorem readback_steady {s : State} {i : Nat} {a : StateReply} {b : Bool}
    (h : b = true ∨ (s.shown i a).drifted i = false) : s.readback i a false b = s.shown i a := by
  rw [readback_kept, if_neg]
  rcases h with rfl | h
  · exact Bool.false_ne_true
  · rw [h, Bool.and_false]
    exact Bool.false_ne_true

theorem readback_drifts {s : State} {i : Nat} {a : StateReply} (h : (s.shown i a).drifted i = true) :
    s.readback i a false false = (s.shown i a).afterDrift i := by
  rw [readback_kept, h]
  exact if_pos rfl

theorem takeReadback_parts (s : State) (i : Nat) (a : StateReply) : PartsOnly s (s.takeReadback i a) :=
  modifySite_parts _ _ _

theorem shown_turn (s : State) (i : Nat) (a : StateReply) : DeliveryTurn s (s.shown i a) :=
  ((takeReadback_parts s i a).trans (confirm_parts _ i)).turn.trans (settleDelivery_turn _)

/-- R154: a drift leaves no delivery DONE, and tells nothing. -/
theorem drift_turn (s : State) : DeliveryTurn s { s with delivery := s.delivery.drift } := by
  refine ⟨rfl, rfl, rfl, rfl, fun _ => rfl, fun _ _ => id, fun h => ⟨h.1, fun hd => ?_⟩⟩
  have done : (if s.delivery.state = .done then DeliveryState.delivering else s.delivery.state) = .done := hd
  split at done
  · cases done
  · contradiction

theorem afterDrift_turn (s : State) (i : Nat) : DeliveryTurn s (s.afterDrift i) :=
  (drift_turn s).trans ((reform_parts _ i).turn.trans (settleDelivery_turn _))

theorem readback_turn (s : State) (i : Nat) (a : StateReply) (b c : Bool) : DeliveryTurn s (s.readback i a b c) := by
  cases b with
  | true =>
    rw [readback_restarted]
    have first := ((takeReadback_parts s i a).trans (modifySite_parts _ i fun d => d.forget)).trans (confirm_parts _ i)
    exact (first.turn.trans (settleDelivery_turn _)).trans ((reform_parts _ i).turn.trans (settleDelivery_turn _))
  | false =>
    by_cases h : c = true ∨ (s.shown i a).drifted i = false
    · rw [readback_steady h]
      exact shown_turn s i a
    · obtain ⟨rfl, hd⟩ : c = false ∧ (s.shown i a).drifted i = true := by simpa using h
      rw [readback_drifts hd]
      exact (shown_turn s i a).trans (afterDrift_turn _ i)

/-! ## The DATA handed on (R84, R85) -/

theorem handStation_units (s : State) (k : Nat) : (s.handStation k).units = s.units := by
  unfold State.handStation
  split
  · rfl
  · rw [handQp_onlyTable]
    rfl

theorem noticeStation_units (s : State) (a b : StationState) : (s.noticeStation a b).units = s.units := by
  unfold State.noticeStation
  split <;> rfl

/-- What a DATA handed on can do: nothing, its station's record stored, or a sample, with the QUEUE notice of a change of
state, handed to the table. -/
theorem dataReply_cases (s : State) (k : Nat) (a : DataReply) (st : UnitState) (b : Bool) :
    s.dataReply k a st b = s ∨ (∃ x, s.dataReply k a st b = s.setStation x) ∨
      ∃ x y, s.dataReply k a st b = ((s.setStation y).noticeStation x y.state).handStation k := by
  unfold State.dataReply
  split
  · split
    · exact .inr (.inl ⟨_, rfl⟩)
    split
    · exact .inr (.inl ⟨_, rfl⟩)
    split
    · exact .inr (.inl ⟨_, rfl⟩)
    dsimp only
    split
    · exact .inr (.inl ⟨_, rfl⟩)
    · exact .inr (.inr ⟨_, _, rfl⟩)
  · exact .inl rfl

theorem dataReply_telling (s : State) (k : Nat) (a : DataReply) (st : UnitState) (b : Bool) :
    Telling s (s.dataReply k a st b) ∧ (s.dataReply k a st b).units = s.units := by
  rcases dataReply_cases s k a st b with h | ⟨x, h⟩ | ⟨x, y, h⟩ <;> rw [h]
  · exact ⟨.refl s, rfl⟩
  · exact ⟨setStation_telling s x, rfl⟩
  · exact ⟨((setStation_telling s y).trans (noticeStation_telling _ _ _)).trans (handStation_telling _ _),
      (handStation_units _ _).trans (noticeStation_units _ _ _)⟩

theorem handOn_telling (s : State) (o : UnitOwner) (st : UnitState) (r : FieldReply) (b c : Bool) :
    Telling s (s.handOn o st r b c) ∧ (s.handOn o st r b c).units = s.units := by
  unfold State.handOn
  split
  · exact ⟨(readback_turn _ _ _ _ _).telling, (readback_turn _ _ _ _ _).units⟩
  · exact dataReply_telling _ _ _ _ _
  · exact ⟨.refl s, rfl⟩

/-! ## The event (R127) -/

/-- The state in which a good reply has been taken by its unit and its change of state handed on: steps 1 to 5 of R127. -/
def State.replyTaken (s : State) (i : Nat) (u : UnitRec) (r : FieldReply) : State :=
  (s.storeUnit i (u.answered r)).unitChanged u.owner u.state (u.answered r).state

theorem goodReply_eq {s : State} {i : Nat} {u : UnitRec} (hu : s.unit i = some u) (r : FieldReply) (b : Bool) :
    s.goodReply i r b =
      ((s.replyTaken i u r).handOn u.owner (u.answered r).state r (u.restartedBy r.boot) b).noticeUnit
        (decide ((u.answered r).noticed ≠ u.noticed)) := by
  unfold State.goodReply
  rw [hu]
  rfl

theorem unitChanged_units (s : State) (o : UnitOwner) (a b : UnitState) : (s.unitChanged o a b).units = s.units :=
  (unitChanged_lost (SitesLost.refl s) o a b).units

theorem unit_of_units {s t : State} (h : t.units = s.units) (j : Nat) : t.unit j = s.unit j := by
  unfold State.unit
  rw [h]

theorem replyTaken_unit {s : State} {i : Nat} {u : UnitRec} (hu : s.unit i = some u) (r : FieldReply) (j : Nat) :
    (s.replyTaken i u r).unit j = if j = i then some (u.answered r).judged else s.unit j := by
  rw [show (s.replyTaken i u r).unit j = (s.storeUnit i (u.answered r)).unit j from
    unit_of_units (unitChanged_units _ _ _ _) j, storeUnit_unit, hu]
  rfl

theorem replyTaken_telling (s : State) (i : Nat) (u : UnitRec) (r : FieldReply) : Telling s (s.replyTaken i u r) :=
  (storeUnit_telling _ _ _).trans (unitChanged_telling _ _ _ _)

theorem goodReply_telling (s : State) (i : Nat) (r : FieldReply) (b : Bool) : Telling s (s.goodReply i r b) := by
  cases hu : s.unit i with
  | none =>
    unfold State.goodReply
    rw [hu]
    exact .refl s
  | some u =>
    rw [goodReply_eq hu]
    exact ((replyTaken_telling s i u r).trans (handOn_telling _ _ _ _ _ _).1).trans (noticeUnit_telling _ _)

theorem goodReply_unit {s : State} {i : Nat} {u : UnitRec} (hu : s.unit i = some u) (r : FieldReply) (b : Bool) (j : Nat) :
    (s.goodReply i r b).unit j = if j = i then some (u.answered r).judged else s.unit j := by
  rw [goodReply_eq hu, (noticeUnit_turn _ _).unit, unit_of_units (handOn_telling _ _ _ _ _ _).2, replyTaken_unit hu]

/-- R139: a reply that changes the state or an effective fault sets the UNIT notice. -/
theorem goodReply_noticed {s : State} {i : Nat} {u : UnitRec} (hu : s.unit i = some u) (r : FieldReply) (b : Bool)
    (hn : (u.answered r).noticed ≠ u.noticed) (p : Port) (hp : (s.port p).authority ≠ .disabled) :
    ((s.goodReply i r b).port p).flags &&& Notice.unit.flag = Notice.unit.flag := by
  have before := (replyTaken_telling s i u r).trans
    (handOn_telling (s.replyTaken i u r) u.owner (u.answered r).state r (u.restartedBy r.boot) b).1
  rw [goodReply_eq hu, decide_eq_true hn]
  exact notifyAll_flag _ .unit p (by rwa [before.authority])

theorem reportEnd_replied_telling (s : State) (c : Option SetCommand) : Telling s (s.reportEnd c true) := by
  cases c with
  | none => exact .refl s
  | some c => exact setEnded_replied_telling s c

theorem reportEnd_replied_standing (s : State) (c : Option SetCommand) (j : Nat) :
    ((s.reportEnd c true).unit j).map UnitRec.standing = (s.unit j).map UnitRec.standing := by
  cases c with
  | none => rfl
  | some c => exact setEnded_replied_standing s c j

/-- A line's record as a valid reply leaves it (R108, R113, R114, R116). -/
def LineRec.replied (r : LineRec) (now : Nat) : LineRec := { (r.activity now).endTransaction with streak := 0 }

theorem exec_validReply {s : State} {l : LineId} {frame : List Byte} {x : Transaction} {u : UnitRec} {r : FieldReply}
    (hw : (s.line l).openWindow = some x) (hs : (s.line l).skipping = false) (hu : s.unit x.unit = some u)
    (hr : judgeReply u.owner u.address frame = .valid r) : exec (.validReply l frame) s =
      .next (((s.setLine l ((s.line l).replied s.now)).goodReply x.unit r x.command.isSome).reportEnd x.command true) := by
  have verdict : s.verdict l frame = some (.valid r) := (verdict_iff _ _ _ _).2 ⟨x, u, hw, hs, hu, hr.symm⟩
  show execValidReply l frame s = _
  unfold execValidReply
  rw [hw, verdict]
  rfl

end Sys2Proof.Machine
end

section
/-! SUPPORT. What a DATA brings its station (R84 to R104): faults alone, a baseline, a rejected interval or a sample, over the
change of state of its outstation; and what the rest of the event leaves of it. -/

namespace Sys2Proof.Machine

/-! ## What delivery leaves of the request table -/

theorem PartsOnly.table {s t : State} (h : PartsOnly s t) : t.table = s.table := by rw [h.eq]

theorem judgeCompletion_table (s : State) : s.judgeCompletion.table = s.table := by
  unfold State.judgeCompletion
  split
  · cases s.delivery.target with
    | plan => rfl
    | dark =>
      dsimp only
      unfold State.enterShadow State.wantPlan State.clearParts
      generalize hv : ({ ({ s with delivery := s.delivery.complete }.notifyAll .delivered) with
        mode := .shadow } : State).notifyAll .mode = v
      exact (withdraws_parts v).table.trans (by rw [← hv]; rfl)
  · rfl

theorem settleDelivery_table (s : State) : s.settleDelivery.table = s.table :=
  (judgeCompletion_table _).trans (judgeReleases_parts s).table

theorem noticeUnit_table (s : State) (b : Bool) : (s.noticeUnit b).table = s.table := by
  unfold State.noticeUnit
  split <;> rfl

theorem storeUnit_table (s : State) (i : Nat) (u : UnitRec) : (s.storeUnit i u).table = s.table := by
  unfold State.storeUnit
  dsimp only
  split
  · split <;> rfl
  · rfl

theorem reportMismatch_table (s : State) (i : Nat) (es : List ElemId) : (s.reportMismatch i es).table = s.table := by
  rcases reportMismatch_cases s i es with h | ⟨u, r, -, -, h⟩ <;> rw [h]
  rw [noticeUnit_table, storeUnit_table]

theorem reportEnd_table (s : State) (c : Option SetCommand) : (s.reportEnd c true).table = s.table := by
  cases c with
  | none => rfl
  | some c =>
    show (s.setEnded c true).table = s.table
    have landed : (s.landed c.site).table = s.table := (modifySite_parts _ _ _).table
    rcases setEnded_cases s c true with h | h | h <;> rw [h]
    · exact settleDelivery_table s
    · refine (settleDelivery_table _).trans ((reformIfDiffering_parts _ _).table.trans (Eq.trans ?_ landed))
      rcases endPart_replied_cases (s.landed c.site) c.site c.part with ⟨h, -⟩ | ⟨_, _, -, -, -, ⟨-, h⟩ | ⟨-, h⟩⟩ <;> rw [h]
      · exact (modifySite_parts _ _ _).table
      · exact (abandon_parts _ _ _ _ _).table.trans (reportMismatch_table _ _ _)

theorem reportEnd_stations (s : State) (c : Option SetCommand) : (s.reportEnd c true).stations = s.stations := by
  cases c with
  | none => rfl
  | some c => exact setEnded_replied_stations s c

/-! ## A DATA at its station (R84 to R93) -/

theorem inContact_iff (st : UnitState) : st.inContact = true ↔ st.Contact := by
  cases st <;> simp [UnitState.inContact, UnitState.Contact]

theorem judge_slot (x : Station) (ps : Params) (now : Nat) (m : Sample) : (x.judge ps now m).slot = x.slot := by
  have queue : (x.judgeQueue ps now m).slot = x.slot := by
    unfold Station.judgeQueue
    dsimp only
    split
    · rfl
    · split <;> rfl
  unfold Station.judge
  split
  · unfold Station.goBlind
    split <;> rfl
  · split
    · unfold Station.leaveBlind
      dsimp only
      split <;> rfl
    · unfold Station.judgeFree
      split
      · rfl
      · split
        · split <;> rfl
        · rfl
    · exact queue
    · exact queue

section
variable {s : State} {k : Nat} {x : Station} {r : StationRecord}

/-- R84: a reply that is not used. -/
theorem dataReply_unused (hx : s.station k = some x) (hr : s.store.station k = some r) (a : DataReply) {st : UnitState}
    (h : ¬ st.Contact) (b : Bool) : s.dataReply k a st b = s.setStation (x.takeFaultsOnly a) := by
  unfold State.dataReply
  rw [hx, hr]
  dsimp only
  refine if_pos ?_
  rw [Bool.not_eq_true', Bool.eq_false_iff]
  exact fun g => h ((inContact_iff st).1 g)

theorem not_outOfContact {st : UnitState} (h : st.Contact) : ¬ (!st.inContact) = true := by
  rw [(inContact_iff st).2 h]
  exact Bool.false_ne_true

/-- R84: a reply taken as the baseline. -/
theorem dataReply_baseline (hx : s.station k = some x) (hr : s.store.station k = some r) (a : DataReply) {st : UnitState}
    (h : st.Contact) {b : Bool} (hb : x.baseline = none ∨ b = true) :
    s.dataReply k a st b = s.setStation (x.takeBaseline a) := by
  unfold State.dataReply
  rw [hx, hr]
  dsimp only
  rw [if_neg (not_outOfContact h)]
  cases he : x.baseline with
  | none => rfl
  | some before =>
    rcases hb with hb | hb
    · cases he.symm.trans hb
    · dsimp only
      exact if_pos hb

/-- R85: an interval out of range. -/
theorem dataReply_rejected (hx : s.station k = some x) (hr : s.store.station k = some r) (a : DataReply) {st : UnitState}
    (h : st.Contact) {before : Nat} (hb : x.baseline = some before)
    (ht : difference 4294967296 a.timestamp before < 100 ∨ 10000 < difference 4294967296 a.timestamp before) :
    s.dataReply k a st false = s.setStation { x.takeBaseline a with rejected := countUp x.rejected } := by
  unfold State.dataReply
  rw [hx, hr]
  dsimp only
  rw [if_neg (not_outOfContact h), hb]
  dsimp only
  rw [if_neg Bool.false_ne_true, wrapped_eq_difference _ _ _ (by decide)]
  exact if_pos ht

/-- R86 to R104: a sample, judged and handed. -/
theorem dataReply_sampled (hx : s.station k = some x) (hr : s.store.station k = some r) (a : DataReply) {st : UnitState}
    (h : st.Contact) {before : Nat} (hb : x.baseline = some before)
    (hl : 100 ≤ difference 4294967296 a.timestamp before) (hu : difference 4294967296 a.timestamp before ≤ 10000) :
    s.dataReply k a st false =
      (((s.setStation (s.sampled x r a (difference 4294967296 a.timestamp before))).noticeStation x.state
        (s.sampled x r a (difference 4294967296 a.timestamp before)).state).handStation k) := by
  have inside : ¬ (difference 4294967296 a.timestamp before < Config.sampleMin ∨
      Config.sampleMax < difference 4294967296 a.timestamp before) := by
    have low : Config.sampleMin = 100 := rfl
    have high : Config.sampleMax = 10000 := rfl
    omega
  unfold State.dataReply
  rw [hx, hr]
  dsimp only
  rw [if_neg (not_outOfContact h), hb]
  dsimp only
  rw [if_neg Bool.false_ne_true, wrapped_eq_difference _ _ _ (by decide), if_neg inside]

end

/-- R84 and R88: the baseline that a reply leaves. -/
theorem takeBaseline_taken (x : Station) (a : DataReply) : BaselineTaken a x (x.takeBaseline a) := by
  refine ⟨rfl, by simp [Station.takeBaseline], fun j l hl => ⟨l.takeBaseline a.lanes[j]?, ?_, ?_⟩⟩
  · simp [Station.takeBaseline, laneData, hl]
  · unfold LaneRec.takeBaseline
    cases a.lanes[j]? with
    | none => exact ⟨rfl, rfl, nofun, fun _ => rfl, rfl⟩
    | some z => exact ⟨rfl, rfl, fun y hy => by cases hy; rfl, fun _ => rfl, rfl⟩

/-- R90. -/
theorem laneExcluded_iff (s : State) (r : StationRecord) (j : Nat) :
    s.laneExcluded r j = true ↔ ClosedAt s.evaluator.plan r.site (r.lanes.getD j 0) := by
  unfold State.laneExcluded PlanSite.closedAt ClosedAt laneAt
  cases (planSite s.evaluator.plan r.site).lane (r.lanes.getD j 0) with
  | none => simp
  | some e => simp [isClosed_iff]

/-- What the table was handed for a station, told from a state of the same time and parameters (R104). -/
theorem Handed.of_side {r s t : State} {x : Station} (h : Handed s t x) (g : FieldSide r s) : Handed r t x := by
  obtain ⟨m, image, handed, table⟩ := h
  have warranted : Warranted r x ↔ Warranted s x := by
    unfold Warranted
    rw [g.now]
  have param (p : ParamId) : r.param p = s.param p := by
    unfold State.param
    rw [g.store]
  refine ⟨m, ⟨fun hn => image.absent fun hw => hn (warranted.2 hw), fun hw => ?_⟩, handed, table⟩
  obtain ⟨q, hq, covers, queue, stopped⟩ := image.present (warranted.1 hw)
  rw [g.store] at covers
  exact ⟨q, hq, by rw [param]; exact covers, by rw [param]; exact queue, by rw [param]; exact stopped⟩

/-! ## The change of its outstation's state (R84, R98) -/

theorem storeUnit_station (s : State) (i : Nat) (u : UnitRec) (k : Nat) : (s.storeUnit i u).station k = s.station k := by
  obtain ⟨-, -, -, -, stations, -⟩ := storeUnit_keeps s i u
  unfold State.station
  rw [stations]

/-- Neither a state that stays nor the return from SUSPECT is a matter of the station. -/
theorem replyTaken_steady {s : State} {i k : Nat} {u : UnitRec} (ho : u.owner = .outstation k) (a : DataReply)
    (h : u.state.Contact ∨ u.state = .probing ∧ u.good < 3) :
    s.replyTaken i u (.data a) = s.storeUnit i (u.answered (.data a)) := by
  obtain ⟨-, early, -, up, suspect, -⟩ := answered_states u (.data a)
  unfold State.replyTaken
  rw [ho]
  rcases h with (h | h) | ⟨h, hg⟩
  · rw [(up h).1, h, unitChanged_same]
  · rw [(suspect h).1, h, unitChanged_outstation _ _ (by decide)]
    unfold State.stationUnitChanged
    split <;> rfl
  · rw [(early h hg).1, h, unitChanged_same]

/-- R84: an outstation that becomes UP leaves its station no baseline. -/
theorem replyTaken_up {s : State} {i k : Nat} {u : UnitRec} (ho : u.owner = .outstation k) (a : DataReply)
    (h : u.state = .probing) (hg : 3 ≤ u.good) {y : Station} (hy : s.station k = some y) :
    s.replyTaken i u (.data a) = (s.storeUnit i (u.answered (.data a))).setStation { y with baseline := none } := by
  obtain ⟨-, -, late, -⟩ := answered_states u (.data a)
  unfold State.replyTaken
  rw [ho, (late h hg).1, h, unitChanged_outstation _ _ (by decide)]
  unfold State.stationUnitChanged
  rw [storeUnit_station, hy]
  rfl

/-- R98: an outstation that becomes PROBING again leaves its station as its loss did. -/
theorem replyTaken_returns {s : State} {i k : Nat} {u : UnitRec} (ho : u.owner = .outstation k) (a : DataReply)
    (h : u.state = .lost) {y : Station} (hy : s.station k = some y) :
    ∃ z, (s.replyTaken i u (.data a)).station k = some z ∧ z.state = .blind ∧ ∀ l ∈ z.lanes, l.standing ≠ .valid := by
  obtain ⟨-, -, -, -, -, lost⟩ := answered_states u (.data a)
  have station := (storeUnit_station s i (u.answered (.data a)) k).trans hy
  have left := (stationLost_of_changed station (a := .up) (by decide)).lanes
  have same (t : State) : t.stationUnitChanged k .lost .probing = t.unitChanged (.outstation k) .up .lost := by
    rw [unitChanged_outstation _ _ (by decide)]
    unfold State.stationUnitChanged
    rfl
  rw [← same] at left
  unfold State.replyTaken
  rw [ho, (lost h).1, h, unitChanged_outstation _ _ (by decide)]
  obtain ⟨z, hz, blind, lanes⟩ := left
  exact ⟨z, hz, blind, fun l hl => (lanes l hl).1⟩

/-! ## The station after the event -/

/-- What the event makes of a station is what the DATA handed on makes of it. -/
theorem reply_station {s : State} {i k : Nat} {u : UnitRec} (hu : s.unit i = some u) (ho : u.owner = .outstation k)
    (a : DataReply) (b : Bool) (c : Option SetCommand) (j : Nat) :
    (((s.goodReply i (.data a) b).reportEnd c true).station j =
      ((s.replyTaken i u (.data a)).dataReply k a (u.answered (.data a)).state (u.restartedBy a.boot)).station j) ∧
    ((s.goodReply i (.data a) b).reportEnd c true).table =
      ((s.replyTaken i u (.data a)).dataReply k a (u.answered (.data a)).state (u.restartedBy a.boot)).table ∧
    Telling ((s.replyTaken i u (.data a)).dataReply k a (u.answered (.data a)).state (u.restartedBy a.boot))
      ((s.goodReply i (.data a) b).reportEnd c true) := by
  have handed : s.goodReply i (.data a) b =
      ((s.replyTaken i u (.data a)).dataReply k a (u.answered (.data a)).state (u.restartedBy a.boot)).noticeUnit
        (decide ((u.answered (.data a)).noticed ≠ u.noticed)) := by
    rw [goodReply_eq hu, ho]
    rfl
  rw [handed]
  generalize (s.replyTaken i u (.data a)).dataReply k a _ _ = d
  refine ⟨?_, (reportEnd_table _ _).trans (noticeUnit_table _ _),
    (noticeUnit_telling _ _).trans (reportEnd_replied_telling _ _)⟩
  rw [← (noticeUnit_turn d _).station j]
  unfold State.station
  rw [reportEnd_stations]

/-- R90 to R101: a station's record after a sample of this interval. -/
theorem sampled_eq (s : State) (y : Station) (r : StationRecord) (a : DataReply) (n : Nat) (samples : List LaneSample)
    (h : samples = y.lanes.mapIdx fun j l =>
      sampleLane s.store.params r n (r.trims.getD j 0) (s.laneExcluded r j) l (laneData a j)) :
    s.sampled y r a n = Station.judge { y with
      baseline := some a.timestamp
      lanes := samples.map (·.lane)
      chatter := min (y.chatter + (samples.filter (·.chattering)).length) 65535
      speed := (sampleOf samples).speed.or y.speed } s.store.params s.now (sampleOf samples) := by
  unfold State.sampled
  dsimp only
  rw [← h]
  cases (sampleOf samples).speed <;> rfl

theorem sampled_slot (s : State) (y : Station) (r : StationRecord) (a : DataReply) (n : Nat) :
    (s.sampled y r a n).slot = y.slot := by
  rw [sampled_eq s y r a n _ rfl]
  exact judge_slot _ _ _ _

/-- R101 and R104: a sample of a station handed, with the QUEUE notice of its change of state. -/
theorem sampled_handed {s t : State} {k : Nat} {y z : Station} (hy : s.station k = some y) (hz : z.slot = k)
    (station : t.station k = (((s.setStation z).noticeStation y.state z.state).handStation k).station k)
    (table : t.table = (((s.setStation z).noticeStation y.state z.state).handStation k).table)
    (telling : Telling (((s.setStation z).noticeStation y.state z.state).handStation k) t) :
    Handed s t z ∧ (z.state ≠ y.state → ∀ p, (s.port p).authority ≠ .disabled →
      (t.port p).flags &&& Notice.queue.flag = Notice.queue.flag) := by
  have stored : ((s.setStation z).noticeStation y.state z.state).station k = some z :=
    (noticeStation_station _ _ _ _).trans (setStation_station _ _ _ _ hy hz)
  have side : FieldSide s ((s.setStation z).noticeStation y.state z.state) :=
    ((setStation_handing _ _).trans (noticeStation_handing _ _ _)).side
  have flagged (hn : z.state ≠ y.state) : (s.setStation z).noticeStation y.state z.state =
      (s.setStation z).notifyAll .queue := if_neg (Ne.symm hn)
  obtain ⟨m, image, given, held⟩ := (handStation_handed _ k z stored).of_side side
  refine ⟨⟨m, image, ?_, ?_⟩, fun hn p hp => ?_⟩
  · rw [hz, station]
    rwa [hz] at given
  · rw [table]
    exact held
  · refine telling.flags p .queue ((handStation_telling _ _).flags p .queue ?_)
    rw [flagged hn]
    exact notifyAll_flag _ .queue p hp

/-- What a DATA brings its station. -/
theorem stationReply {s : State} {i k : Nat} {u : UnitRec} (hu : s.unit i = some u) (ho : u.owner = .outstation k)
    (a : DataReply) (b : Bool) (c : Option SetCommand) {r : StationRecord} {y : Station}
    (hr : s.store.station k = some r) (hy : s.station k = some y) :
    StationReply s ((s.goodReply i (.data a) b).reportEnd c true) u a k r y := by
  obtain ⟨stations, table, telling⟩ := reply_station hu ho a b c k
  generalize (s.goodReply i (.data a) b).reportEnd c true = t at stations table telling ⊢
  obtain ⟨-, early, late, -, -, lost⟩ := answered_states u (.data a)
  obtain ⟨-, -, -, store, -, -, now⟩ := storeUnit_keeps s i (u.answered (.data a))
  have hr' : (s.storeUnit i (u.answered (.data a))).store.station k = some r := by rw [store]; exact hr
  have hy' := (storeUnit_station s i (u.answered (.data a)) k).trans hy
  have contact (h : u.state.Contact) : (u.answered (.data a)).state.Contact := .inl (answered_contact h _)
  have unmarked (h : ¬ u.Restarts a.boot) : u.restartedBy a.boot = false :=
    Bool.eq_false_iff.2 fun g => h ((restartedBy_iff _ _).1 g)
  have slot := station_slot hy
  refine ⟨fun hs hg => ?_, fun hs => ?_, fun hs => ?_, fun hs hn before hb ht => ?_, fun hs hn before hb hl hh => ?_⟩
  · rw [stations, replyTaken_steady ho a (.inr ⟨hs, hg⟩), (early hs hg).1, dataReply_unused hy' hr' a (by decide)]
    exact setStation_station _ _ _ _ hy' slot
  · obtain ⟨z, hz, blind, lanes⟩ := replyTaken_returns (i := i) ho a hs hy
    have record : (s.replyTaken i u (.data a)).store.station k = some r := by
      have handing : Handing s (s.replyTaken i u (.data a)) :=
        (storeUnit_handing _ _ _).trans (unitChanged_handing _ _ _ _)
      rw [handing.side.store]
      exact hr
    have slot' : z.slot = k := station_slot hz
    rw [stations, (lost hs).1, dataReply_unused hz record a (by decide)]
    refine ⟨_, setStation_station _ k z _ hz slot', blind, fun l hl => ?_⟩
    obtain ⟨j, hj, rfl⟩ := List.mem_mapIdx.1 hl
    exact lanes z.lanes[j] (List.getElem_mem hj)
  · rcases hs with ⟨hs, hg⟩ | ⟨hs, hb⟩
    · have station := setStation_station _ _ _ { y with baseline := none } hy' slot
      rw [stations, replyTaken_up ho a hs hg hy, (late hs hg).1, dataReply_baseline station hr' a (.inl rfl) (.inl rfl)]
      exact ⟨_, setStation_station _ _ _ _ station slot, takeBaseline_taken y a⟩
    · rw [stations, replyTaken_steady ho a (.inl hs), dataReply_baseline hy' hr' a (contact hs)
        (hb.imp_right (restartedBy_iff _ _).2)]
      exact ⟨_, setStation_station _ _ _ _ hy' slot, takeBaseline_taken y a⟩
  · rw [stations, replyTaken_steady ho a (.inl hs), unmarked hn, dataReply_rejected hy' hr' a (contact hs) hb ht]
    exact ⟨_, setStation_station _ _ _ _ hy' slot, takeBaseline_taken y a⟩
  · have sampled := dataReply_sampled hy' hr' a (contact hs) hb hl hh
    rw [replyTaken_steady ho a (.inl hs), unmarked hn, sampled] at stations table telling
    have side := (storeUnit_handing s i (u.answered (.data a))).side
    obtain ⟨handed, noticed⟩ := sampled_handed hy' ((sampled_slot _ y r a _).trans slot) stations table telling
    have excluded : (s.storeUnit i (u.answered (.data a))).laneExcluded r = s.laneExcluded r := by
      funext j
      unfold State.laneExcluded
      rw [side.plan]
    rw [sampled_eq _ y r a _ _ rfl, store, now, excluded] at handed noticed
    refine ⟨_, List.length_mapIdx, fun j l hj => ⟨_, laneExcluded_iff s r j, ?_⟩, handed.of_side side, fun hn p hp =>
      noticed hn p (by rw [side.ports p]; exact hp)⟩
    rw [List.getElem?_mapIdx, hj]
    rfl

end Sys2Proof.Machine
end

section
/-! SUPPORT. A readback at the site of its sign (R144, R150, R153, R154): the images it leaves, the parts that stay, and the
re-form of a drift. -/

namespace Sys2Proof.Machine

/-! ## The images of a readback (R144) -/

/-- A site once a STATE has been read back. -/
def DeliverySite.read (d : DeliverySite) (a : StateReply) (r : SiteRecord) : DeliverySite :=
  { d with confirmed := a.image r.elements, applied := some a.applied }

@[simp] theorem part_read (d : DeliverySite) (a : StateReply) (r : SiteRecord) (k : PartKind) :
    (d.read a r).part k = d.part k := by cases k <;> rfl

/-- R144: what a STATE shows in the elements of a site. -/
theorem read_lookup (d : DeliverySite) (a : StateReply) (r : SiteRecord) (e : ElemId) :
    (r.Holds e → (d.read a r).confirmed.lookup e = some (a.shown e)) ∧
    (¬ r.Holds e → (d.read a r).confirmed.lookup e = none) := by
  have image : (d.read a r).confirmed = r.elements.map fun e => (e, a.shown e) :=
    List.map_congr_left fun e _ => by cases e <;> rfl
  rw [← mem_elements, image, lookup_map_key]
  exact ⟨fun h => if_pos h, fun h => if_neg h⟩

/-- R150: a part agrees whole. -/
theorem matched_read (d : DeliverySite) (a : StateReply) (r : SiteRecord) (p : Part) :
    (d.read a r).matched p = true ↔ ∀ e ∈ p.elements, d.Agrees a r e := by
  unfold DeliverySite.matched
  rw [List.all_eq_true]
  refine forall₂_congr fun e _ => ?_
  obtain ⟨shows, beyond⟩ := read_lookup d a r e
  rw [Bool.and_eq_true, decide_eq_true_iff]
  show (d.wanted.lookup e).isSome = true ∧ (d.read a r).confirmed.lookup e = d.wanted.lookup e ↔ _
  unfold DeliverySite.Agrees
  by_cases h : r.Holds e
  · rw [shows h]
    exact ⟨fun g => ⟨h, g.2.symm⟩, fun g => ⟨by rw [g.2]; rfl, g.2.symm⟩⟩
  · rw [beyond h]
    refine ⟨fun g => ?_, fun g => absurd g.1 h⟩
    rw [← g.2] at g
    cases g.1

/-- R151: the elements of a part that disagree, where the images are those read back. -/
theorem mem_disagreeing_read {d e : DeliverySite} {a : StateReply} {r : SiteRecord} (h : (d.read a r).SameSign e)
    (p : Part) (x : ElemId) : x ∈ e.disagreeing p ↔ d.Disagrees a r p x := by
  have commanded : e.commanded = d.commanded := h.commanded
  obtain ⟨shows, beyond⟩ := read_lookup d a r x
  unfold DeliverySite.disagreeing DeliverySite.Disagrees
  rw [List.mem_filter, commanded, h.confirmed]
  refine and_congr_right fun _ => ?_
  cases d.commanded with
  | none => simp
  | some c =>
    dsimp only
    rw [decide_eq_true_iff]
    by_cases hx : r.Holds x
    · rw [shows hx]
      exact ⟨fun g => ⟨c, rfl, fun _ => g.symm, fun h => absurd hx h⟩,
        fun ⟨_, hc, h, _⟩ => by cases hc; exact (h hx).symm⟩
    · rw [beyond hx]
      exact ⟨fun g => ⟨c, rfl, fun h => absurd h hx, fun _ => g.symm⟩,
        fun ⟨_, hc, _, h⟩ => by cases hc; exact (h hx).symm⟩

/-- R145: an element of the site differs where it is wanted otherwise than shown. -/
theorem differs_read {d e : DeliverySite} {a : StateReply} {r : SiteRecord} (h : (d.read a r).SameSign e)
    {x : ElemId} (hx : r.Holds x) : e.differs x = true ↔ ∃ w, e.wanted.lookup x = some w ∧ w ≠ a.shown x := by
  unfold DeliverySite.differs
  rw [h.confirmed, (read_lookup d a r x).1 hx]
  cases e.wanted.lookup x with
  | none => simp
  | some w =>
    dsimp only
    rw [decide_eq_true_iff]
    exact ⟨fun h => ⟨w, rfl, fun e => h (by rw [e])⟩,
      fun ⟨_, hv, h⟩ e => h (by cases hv; exact (Option.some.inj e).symm)⟩

theorem elements_of_site {s : State} {i : Nat} {r : SiteRecord} (hr : s.store.site i = some r) :
    s.store.elements i = r.elements := by
  unfold Store.elements
  rw [hr]

theorem takeReadback_site {s : State} {i : Nat} {r : SiteRecord} {d : DeliverySite} (hr : s.store.site i = some r)
    (hd : s.site i = some d) (a : StateReply) : (s.takeReadback i a).site i = some (d.read a r) := by
  unfold State.takeReadback
  rw [modifySite_site, if_pos rfl, hd, elements_of_site hr]
  rfl

theorem site_drift (s : State) (i : Nat) : ({ s with delivery := s.delivery.drift } : State).site i = s.site i := rfl

theorem afterDrift_at {s : State} {i : Nat} {f : DeliverySite} (hf : s.site i = some f) :
    ∃ e, (s.afterDrift i).site i = some e ∧ f.SameSign e := by
  obtain ⟨g, hg, sign⟩ := reform_sign_at _ i ((site_drift s i).trans hf)
  obtain ⟨h, hh, fades, -⟩ := settleDelivery_at _ i hg
  exact ⟨h, hh, sign.trans fades.sign⟩

/-! ## The readback at its site (R150, R153) -/

section
variable {s : State} {i : Nat} {r : SiteRecord} {d : DeliverySite}

/-- R150: a readback taken and its parts confirmed. -/
theorem shown_at (hr : s.store.site i = some r) (hd : s.site i = some d) (a : StateReply) :
    ∃ e f, (d.read a r).Confirms e ∧ (s.shown i a).site i = some f ∧ e.Fades f ∧
      (s.delivery.target = .plan → e.Like f) ∧
      (s.waitingOf i = none → d.inFlight = true → f = e ∧ e.inFlight = true ∧ (s.shown i a).waitingOf i = none) := by
  have read := takeReadback_site hr hd a
  obtain ⟨e, he, confirms, idle⟩ := confirm_at (s.takeReadback i a) i read
  obtain ⟨f, hf, fades, like⟩ := settleDelivery_at _ i he
  have parts := (takeReadback_parts s i a).trans (confirm_parts _ i)
  refine ⟨e, f, confirms, hf, fades, fun ht => like (parts.target.trans ht), fun hw hfl => ?_⟩
  obtain ⟨flies, waits⟩ := idle (by
    unfold State.takeReadback
    rw [modifySite_waiting]
    exact hw)
  obtain ⟨-, same, waits'⟩ := settleDelivery_flying he (flies.trans hfl) waits
  cases hf.symm.trans same
  exact ⟨rfl, flies.trans hfl, waits'⟩

/-- R144 and R153: the images of the sign after its readback. -/
theorem readback_at (hr : s.store.site i = some r) (hd : s.site i = some d) (a : StateReply) (b c : Bool) :
    ∃ e, (s.readback i a b c).site i = some e ∧
      (if b then (d.read a r).forget else d.read a r).SameSign e := by
  cases b with
  | true =>
    have read := takeReadback_site hr hd a
    have forgot : ((s.takeReadback i a).modifySite i fun d => d.forget).site i = some (d.read a r).forget := by
      rw [modifySite_site, if_pos rfl, read]
      rfl
    obtain ⟨e, he, confirms, -⟩ := confirm_at _ i forgot
    obtain ⟨f, hf, fades, -⟩ := settleDelivery_at _ i he
    obtain ⟨g, hg, sign⟩ := reform_sign_at _ i hf
    obtain ⟨h, hh, fades', -⟩ := settleDelivery_at _ i hg
    exact ⟨h, by rw [readback_restarted]; exact hh,
      confirms.sign.trans (fades.sign.trans (sign.trans fades'.sign))⟩
  | false =>
    obtain ⟨e, f, confirms, hf, fades, -⟩ := shown_at hr hd a
    have first := confirms.sign.trans fades.sign
    by_cases h : c = true ∨ (s.shown i a).drifted i = false
    · exact ⟨f, by rw [readback_steady h]; exact hf, first⟩
    · obtain ⟨rfl, drifted⟩ : c = false ∧ (s.shown i a).drifted i = true := by simpa using h
      obtain ⟨g, hg, sign⟩ := afterDrift_at hf
      exact ⟨g, by rw [readback_drifts drifted]; exact hg, first.trans sign⟩

/-- Completion is judged last (R156). -/
theorem readback_settled (s : State) (i : Nat) (a : StateReply) (b c : Bool) :
    ∃ v : State, s.readback i a b c = v.settleDelivery := by
  cases b with
  | true => exact ⟨_, readback_restarted s i a c⟩
  | false =>
    by_cases h : c = true ∨ (s.shown i a).drifted i = false
    · exact ⟨_, readback_steady h⟩
    · obtain ⟨rfl, hd⟩ : c = false ∧ (s.shown i a).drifted i = true := by simpa using h
      exact ⟨_, readback_drifts hd⟩

/-! ## Drift (R154) -/

theorem shown_drifts (s : State) (i : Nat) (a : StateReply) :
    (s.shown i a).delivery.drifts = s.delivery.drifts := by
  unfold State.shown
  rw [settleDelivery_drifts]
  exact ((takeReadback_parts s i a).trans (confirm_parts _ i)).drifts

/-- R154: neither a restarted readback nor one that shows no drift counts one. -/
theorem readback_undrifted {a : StateReply} {b c : Bool} (h : b = true ∨ c = true ∨ (s.shown i a).drifted i = false) :
    (s.readback i a b c).delivery.drifts = s.delivery.drifts := by
  cases b with
  | true =>
    rw [readback_restarted, settleDelivery_drifts, (reform_parts _ i).drifts, settleDelivery_drifts]
    exact ((takeReadback_parts s i a).trans ((modifySite_parts _ i _).trans (confirm_parts _ i))).drifts
  | false =>
    rw [readback_steady (h.resolve_left Bool.false_ne_true)]
    exact shown_drifts s i a

/-- R156: completion suppresses no delivery for the plan. -/
theorem settleDelivery_suppressed {s : State} (ht : s.delivery.target = .plan)
    (h : s.settleDelivery.delivery.state = .suppressed) : s.delivery.state = .suppressed := by
  have parts := judgeReleases_parts s
  rcases judgeCompletion_cases s.judgeReleases (parts.target.trans ht) with ⟨e, -⟩ | ⟨-, e⟩
  · unfold State.settleDelivery at h
    rw [e, parts.state] at h
    exact h
  · unfold State.settleDelivery at h
    rw [e, concluded_delivery] at h
    cases h

/-- R156: while a part is pending delivery's state stays. -/
theorem settleDelivery_pending {s : State} {i : Nat} {d : DeliverySite} (hd : s.site i = some d) {k : PartKind}
    (h : Unresolved (d.part k)) : s.settleDelivery.delivery.state = s.delivery.state := by
  obtain ⟨e, he, like, -⟩ := judgeReleases_at s i d hd
  have pends : Unresolved (e.part k) := by
    rw [unresolved_iff, like.pendingPart, ← unresolved_iff]
    exact h
  unfold State.settleDelivery
  rw [judgeCompletion_busy (busy_of_site he (.inr ⟨k, pends⟩)), (judgeReleases_parts s).state]

theorem shown_handing (s : State) (i : Nat) (a : StateReply) : Handing s (s.shown i a) :=
  ((modifySite_handing _ _ _).trans (confirm_handing _ _)).trans (settleDelivery_handing _)

theorem shown_signState (s : State) (i : Nat) (a : StateReply) : (s.shown i a).signState i = s.signState i := by
  unfold State.signState
  rw [(shown_turn s i a).unit]

/-- R154: outside LIVE and DARKENING nothing drifts. -/
theorem drifted_of_mode {a : StateReply} (h : s.mode = .unconfigured ∨ s.mode = .shadow) :
    (s.shown i a).drifted i = false := by
  have held : (s.shown i a).mode.delivers = false := by
    rw [delivers_false_iff]
    rcases (shown_handing s i a).side.mode with ⟨same, -⟩ | ⟨-, -, shadow⟩
    · rwa [same]
    · exact .inr shadow
  unfold State.drifted
  split
  · rfl
  · rw [held]
    rfl

/-- R154: nor does a sign that is not in contact. -/
theorem drifted_of_state {a : StateReply} (h : ¬ (s.signState i).Contact) : (s.shown i a).drifted i = false := by
  have silent : ((s.shown i a).signState i).inContact = false := by
    rw [shown_signState, Bool.eq_false_iff]
    exact fun g => h ((inContact_iff _).1 g)
  unfold State.drifted
  split
  · rfl
  · rw [silent, Bool.and_false]
    rfl

/-- R154: nor a site with something pending, in flight or without an element that differs. -/
theorem drifted_of_site {t : State} {f : DeliverySite} (hf : t.site i = some f)
    (h : f.anyPending = true ∨ t.siteDiffers i = false) : t.drifted i = false := by
  unfold State.drifted
  rw [hf]
  dsimp only
  rcases h with h | h
  · rw [h]
    simp
  · rw [h, Bool.and_false]

/-- R154: what drifts. -/
theorem drifted_iff {t : State} {f : DeliverySite} (hf : t.site i = some f) (hm : t.mode.delivers = true)
    (hs : (t.signState i).inContact = true) (hp : f.anyPending = false) (hi : f.inFlight = false) :
    t.drifted i = t.siteDiffers i := by
  unfold State.drifted
  rw [hf]
  dsimp only
  rw [hm, hs, hp, hi]
  rfl

/-- Every differing element calls for a part of one kind (R145). -/
theorem calls_of_differs {f : DeliverySite} {x : ElemId} (h : f.differs x = true) :
    f.Calls .tightening x ∨ f.Calls .relaxing x := by
  have differs := (differs_iff f x).2 h
  by_cases ht : f.Tightens x
  · exact .inl ht
  · exact .inr ⟨differs, ht⟩

/-- R146: a re-form of a site with nothing pending, whatever site with nothing pending it is told of. -/
theorem Reformed.of_resolved {d e f : DeliverySite} {k : PartKind} (h : Reformed r e f k)
    (he : ¬ Unresolved (e.part k)) (hd : ¬ Unresolved (d.part k)) : Reformed r d f k := by
  refine ⟨h.absent, fun hc => ?_⟩
  obtain ⟨p, hp, unresolved, elements, -, first, sent⟩ := h.formed hc
  refine ⟨p, hp, unresolved, elements, fun o ho ou => absurd (by rw [ho]; exact ou) hd, fun _ => first he, fun hs => ?_⟩
  obtain ⟨o, c, ho, os, -⟩ := sent hs
  exact absurd ⟨o, ho, .inr os⟩ he

/-- R145, R146 and R154: a drift counted and its site re-formed, where an element differs. -/
theorem drift_reformed {t : State} {f : DeliverySite} (hr : t.store.site i = some r) (hf : t.site i = some f)
    (ht : t.delivery.target = .plan) (hm : t.mode.delivers = true) (hs : (t.signState i).Contact)
    {x : ElemId} (hx : r.Holds x) (differs : f.Differs x) :
    (t.afterDrift i).delivery.drifts = min (t.delivery.drifts + 1) 65535 ∧
    (t.delivery.state ≠ .suppressed → (t.afterDrift i).delivery.state = .delivering) ∧
    ∃ e, (t.afterDrift i).site i = some e ∧ e.wanted = f.wanted ∧ Reformed r f e .tightening ∧ Reformed r f e .relaxing := by
  have silent (st : UnitState) (h : st.Contact) : st ≠ .lost ∧ st ≠ .probing := by
    rcases h with rfl | rfl <;> decide
  have drifts : ({ t with delivery := t.delivery.drift } : State).delivery.drifts = min (t.delivery.drifts + 1) 65535 := rfl
  have going (hn : t.delivery.state ≠ .suppressed) :
      ({ t with delivery := t.delivery.drift } : State).delivery.state = .delivering := by
    show (if t.delivery.state = .done then DeliveryState.delivering else t.delivery.state) = .delivering
    cases hst : t.delivery.state with
    | suppressed => exact absurd hst hn
    | delivering => rfl
    | done => rfl
  have target : ({ t with delivery := t.delivery.drift } : State).delivery.target = .plan := ht
  have signState : ({ t with delivery := t.delivery.drift } : State).signState i = t.signState i := rfl
  rw [← signState] at hs
  rw [← site_drift] at hf
  have mode : ({ t with delivery := t.delivery.drift } : State).mode.delivers = true := hm
  have store : ({ t with delivery := t.delivery.drift } : State).store.site i = some r := hr
  unfold State.afterDrift
  generalize ({ t with delivery := t.delivery.drift } : State) = w at *
  obtain ⟨g, hg, gw, gc, -, -, -, tightening, relaxing⟩ := reform_reformed w i r f mode target store hf
    (silent _ hs).1 (silent _ hs).2
  have reformed := reform_parts w i
  generalize w.reform i = v at hg reformed
  obtain ⟨h, hh, -, like⟩ := settleDelivery_at v i hg
  have same := like (reformed.target.trans target)
  refine ⟨?_, fun hn => ?_, h, hh, same.wanted.trans gw, tightening.like same, relaxing.like same⟩
  · rw [settleDelivery_drifts, reformed.drifts, drifts]
  · have again : g.differs x = true := by
      rw [← differs_iff]
      unfold DeliverySite.Differs at differs ⊢
      rwa [gw, gc]
    rcases calls_of_differs again with calls | calls
    · obtain ⟨p, part, pends, -⟩ := tightening.formed ⟨x, hx, calls⟩
      rw [settleDelivery_pending hg (part ▸ pends), reformed.state, going hn]
    · obtain ⟨p, part, pends, -⟩ := relaxing.formed ⟨x, hx, calls⟩
      rw [settleDelivery_pending hg (part ▸ pends), reformed.state, going hn]

/-- R154: a site with nothing pending and not in flight, before it is asked for a drift. -/
theorem shown_resolved (hr : s.store.site i = some r) (hd : s.site i = some d) (a : StateReply)
    (ht : s.delivery.target = .plan) (hi : d.inFlight = false) (hp : ∀ k, ¬ Unresolved (d.part k)) :
    ∃ f, (s.shown i a).site i = some f ∧ f.wanted = d.wanted ∧ (d.read a r).SameSign f ∧ f.inFlight = false ∧
      ∀ k, pendingPart (f.part k) = false := by
  obtain ⟨e, f, confirms, hf, fades, like, -⟩ := shown_at hr hd a
  refine ⟨f, hf, (like ht).wanted.trans confirms.wanted, confirms.sign.trans fades.sign, ?_, fun k => ?_⟩
  · rw [Bool.eq_false_iff]
    intro h
    cases (confirms.flying ((like ht).inFlight h)).symm.trans hi
  · rw [(like ht).pendingPart]
    refine confirms.pendingPart ?_
    rw [part_read, Bool.eq_false_iff]
    exact fun h => hp k ((unresolved_iff _).2 h)

theorem shown_mode (ht : s.delivery.target = .plan) (a : StateReply) : (s.shown i a).mode = s.mode := by
  rcases (shown_handing s i a).side.mode with ⟨same, -⟩ | ⟨dark, -⟩
  · exact same
  · cases dark.symm.trans ht

theorem shown_suppressed (ht : s.delivery.target = .plan) {a : StateReply}
    (h : (s.shown i a).delivery.state = .suppressed) : s.delivery.state = .suppressed := by
  have parts := (takeReadback_parts s i a).trans (confirm_parts _ i)
  unfold State.shown at h
  rw [← parts.state]
  exact settleDelivery_suppressed (parts.target.trans ht) h

/-- R154: the drift of a site with nothing pending: counted, its parts re-formed, delivery going on. -/
theorem readback_drift (hr : s.store.site i = some r) (hd : s.site i = some d) (a : StateReply)
    (ht : s.delivery.target = .plan) (hm : s.mode = .live ∨ s.mode = .darkening) (hs : (s.signState i).Contact)
    (hi : d.inFlight = false) (hp : ∀ k, ¬ Unresolved (d.part k))
    (hx : ∃ e w, r.Holds e ∧ d.wanted.lookup e = some w ∧ w ≠ a.shown e) :
    (s.readback i a false false).delivery.drifts = min (s.delivery.drifts + 1) 65535 ∧
    (s.delivery.state ≠ .suppressed → (s.readback i a false false).delivery.state = .delivering) ∧
    ∃ e, (s.readback i a false false).site i = some e ∧ e.wanted = d.wanted ∧ Reformed r d e .tightening ∧
      Reformed r d e .relaxing := by
  obtain ⟨f, hf, wanted, sign, landed, quiet⟩ := shown_resolved hr hd a ht hi hp
  have quiet' (k : PartKind) : ¬ Unresolved (f.part k) := by
    rw [unresolved_iff, quiet]
    exact Bool.false_ne_true
  obtain ⟨x, w, held, wants, other⟩ := hx
  have differs : f.differs x = true := (differs_read sign held).2 ⟨w, by rw [wanted]; exact wants, other⟩
  have handing := shown_handing s i a
  have store : (s.shown i a).store.site i = some r := by
    rw [handing.side.store]
    exact hr
  have mode : (s.shown i a).mode.delivers = true := by
    rw [delivers_iff, shown_mode ht]
    exact hm
  have contact : ((s.shown i a).signState i).Contact := by
    rw [shown_signState]
    exact hs
  have nothing : f.anyPending = false := by
    rw [Bool.eq_false_iff]
    intro h
    obtain ⟨k, hk⟩ := (anyPending_iff f).1 h
    cases hk.symm.trans (quiet k)
  have drifted : (s.shown i a).drifted i = true := by
    rw [drifted_iff hf mode ((inContact_iff _).2 contact) nothing landed]
    unfold State.siteDiffers
    rw [hf, elements_of_site store]
    exact List.any_eq_true.2 ⟨x, (mem_elements r x).2 held, differs⟩
  obtain ⟨drifts, going, e, he, ew, tightening, relaxing⟩ := drift_reformed store hf (handing.side.plan_target ht) mode
    contact held ((differs_iff f x).2 differs)
  rw [shown_drifts] at drifts
  rw [readback_drifts drifted]
  exact ⟨drifts, fun hn => going fun h => hn (shown_suppressed ht h), e, he, ew.trans wanted,
    tightening.of_resolved (quiet' _) (hp _), relaxing.of_resolved (quiet' _) (hp _)⟩

end

end Sys2Proof.Machine
end

section
/-! SUPPORT. The unit of a sign after its STATE (R133 to R136, R139): its elements, those that a second mismatch marks besides
(R134), what the evaluator is told (R57) and the notice. -/

namespace Sys2Proof.Machine

/-! ## Elements judged and marked -/

/-- R136. -/
theorem judge_iff (st : UnitState) (e : ElemRec) : e.judge st = true ↔ st.Contact ∧ e.mark = .clear ∧
    (e.reported = some .ok ∨ e.reported = some .degraded) := by
  unfold ElemRec.judge ElemRec.effective
  rw [Bool.and_eq_true, inContact_iff]
  refine and_congr_right fun _ => ?_
  cases e.mark with
  | marked f => simp
  | clear =>
    rcases e.reported with _ | f
    · simp
    · cases f <;> simp

theorem faultOf_eq (a : StateReply) (x : ElemId) : a.faultOf x = a.reportOf x := by cases x <;> rfl

/-- R132, R133, R135 and R136: an element that no mismatch marks. -/
theorem elem_answered_taken (e : ElemRec) (a : StateReply) (b : Bool) {p : Prop} (hb : b = true ↔ p) (st : UnitState) :
    ElementTaken a p st e { e.answered a b with available := (e.answered a b).judge st } where
  name := (elem_answered_name e a b).1
  reported := by
    rw [← faultOf_eq]
    cases b <;> rfl
  cleared h := by
    cases b with
    | true => rfl
    | false =>
      have clear := h.resolve_left fun hp => by cases hb.2 hp
      simp [ElemRec.answered, ElemRec.report, clear]
  marked f hp hm := by
    cases b with
    | true => exact absurd (hb.1 rfl) hp
    | false => simp [ElemRec.answered, ElemRec.report, hm]
  available := judge_iff st _

/-- R134: an element record once a mismatch of some plan elements has been reported. -/
def ElemRec.markedBy (e : ElemRec) (k : SiteKind) (es : List ElemId) : ElemRec :=
  if namedBy k es e.name then { e with mark := .marked e.reported } else e

/-- R134: the elements that a report of these plan elements names. -/
theorem namedBy_iff (k : SiteKind) (es : List ElemId) (x : ElemId) : namedBy k es x = true ↔
    x ∈ es ∨ (∃ n b, k = .gantry n b) ∧ .limit ∈ es ∧ ∃ l, 1 ≤ l ∧ x = .lane l := by
  unfold namedBy
  rw [Bool.or_eq_true, List.contains_iff_mem]
  refine or_congr_right ?_
  cases k with
  | gantry n b =>
    cases x with
    | lane l => simp [and_comm]
    | limit => simp
    | legend => simp
  | verge => simp
  | message => simp

theorem markedBy_nil (e : ElemRec) (k : SiteKind) : e.markedBy k [] = e := by
  refine if_neg fun h => ?_
  rcases (namedBy_iff _ _ _).1 h with h | ⟨-, h, -⟩ <;> cases h

theorem markedBy_fields (e : ElemRec) (k : SiteKind) (es : List ElemId) : (e.markedBy k es).name = e.name ∧
    (e.markedBy k es).reported = e.reported ∧ (e.markedBy k es).available = e.available := by
  unfold ElemRec.markedBy
  split <;> exact ⟨rfl, rfl, rfl⟩

/-- R134 and R136: the elements of a record judged, marked and judged again. -/
theorem marked_elements (u : UnitRec) (k : SiteKind) (es : List ElemId) :
    (u.judged.markMismatch k es).judged.elements =
      u.elements.map fun e => { e.markedBy k es with available := (e.markedBy k es).judge u.state } := by
  unfold UnitRec.judged UnitRec.markMismatch
  simp only [List.map_map]
  refine List.map_congr_left fun e _ => ?_
  unfold ElemRec.markedBy
  dsimp only [Function.comp]
  split <;> rfl

theorem unmarked_elements (u : UnitRec) (k : SiteKind) : (u.judged.markMismatch k []).judged = u.judged := by
  have elements := marked_elements u k []
  simp only [markedBy_nil] at elements
  exact congrArg (fun es => { u with elements := es }) elements

theorem markMismatch_usable (u : UnitRec) (k : SiteKind) (es : List ElemId) : (u.markMismatch k es).usable = u.usable :=
  usable_of_elements (·.markedBy k es) rfl fun e => ⟨(markedBy_fields e k es).1, (markedBy_fields e k es).2.2⟩

theorem effective_judged (u : UnitRec) : u.judged.noticed = u.noticed := by
  unfold UnitRec.noticed UnitRec.judged
  rw [List.map_map]
  rfl

theorem reportMismatch_eq {s : State} {i : Nat} {u : UnitRec} {r : SiteRecord} (hu : s.unit i = some u)
    (hr : s.store.site i = some r) (es : List ElemId) : s.reportMismatch i es =
      (s.storeUnit i (u.markMismatch r.kind es)).noticeUnit (decide ((u.markMismatch r.kind es).noticed ≠ u.noticed)) := by
  unfold State.reportMismatch
  rw [hu, hr]
  dsimp only
  unfold State.noticeUnit
  by_cases e : (u.markMismatch r.kind es).noticed = u.noticed
  · simp [e]
  · simp [e]

/-! ## The STATE of a sign -/

section
variable {s : State} {i : Nat} {u : UnitRec} {r : SiteRecord} {d : DeliverySite}

/-- A STATE of a sign: its record stored, its readback, and the notice. -/
theorem goodReply_sign (hu : s.unit i = some u) (ho : u.owner = .sign i) (a : StateReply) (b : Bool) :
    s.goodReply i (.state a) b =
      ((s.storeUnit i (u.answered (.state a))).readback i a (u.restartedBy a.boot) b).noticeUnit
        (decide ((u.answered (.state a)).noticed ≠ u.noticed)) := by
  have taken : s.replyTaken i u (.state a) = s.storeUnit i (u.answered (.state a)) := by
    unfold State.replyTaken
    rw [ho]
    exact unitChanged_sign _ _ _ (answered_not_lost u _)
  rw [goodReply_eq hu, taken, ho]
  rfl

theorem noticeUnit_site (s : State) (b : Bool) (i : Nat) : (s.noticeUnit b).site i = s.site i := by
  obtain ⟨-, -, delivery, -⟩ := noticeUnit_keeps s b
  unfold State.site
  rw [delivery]

theorem noticeUnit_waiting (s : State) (b : Bool) (i : Nat) : (s.noticeUnit b).waitingOf i = s.waitingOf i := by
  obtain ⟨-, -, -, lines, -, store⟩ := noticeUnit_keeps s b
  unfold State.waitingOf State.siteLine State.line
  rw [lines, store]

theorem storeUnit_site (s : State) (i j : Nat) (u : UnitRec) : (s.storeUnit i u).site j = s.site j := by
  obtain ⟨delivery, -⟩ := storeUnit_keeps s i u
  unfold State.site
  rw [delivery]

theorem storeUnit_waiting (s : State) (i j : Nat) (u : UnitRec) : (s.storeUnit i u).waitingOf j = s.waitingOf j := by
  obtain ⟨-, -, lines, store, -⟩ := storeUnit_keeps s i u
  unfold State.waitingOf State.siteLine State.line
  rw [lines, store]

theorem storeUnit_record (hr : s.store.site i = some r) (j : Nat) (u : UnitRec) :
    (s.storeUnit j u).store.site i = some r := by
  obtain ⟨-, -, -, store, -⟩ := storeUnit_keeps s j u
  rwa [store]

/-- R144 and R153: the images of the sign after the STATE. -/
theorem goodReply_images (hu : s.unit i = some u) (ho : u.owner = .sign i) (hr : s.store.site i = some r)
    (hd : s.site i = some d) (a : StateReply) (b : Bool) : ∃ f, (s.goodReply i (.state a) b).site i = some f ∧
      (if u.restartedBy a.boot then (d.read a r).forget else d.read a r).SameSign f := by
  obtain ⟨f, hf, sign⟩ := readback_at (storeUnit_record hr i (u.answered (.state a)))
    ((storeUnit_site s i i (u.answered (.state a))).trans hd) a (u.restartedBy a.boot) b
  exact ⟨f, by rw [goodReply_sign hu ho, noticeUnit_site]; exact hf, sign⟩

/-- R150 and R151: at the end of a SET the readback of a sign that has not restarted leaves a part SENT only where it was. -/
theorem goodReply_fades (hu : s.unit i = some u) (ho : u.owner = .sign i) (hr : s.store.site i = some r)
    (hd : s.site i = some d) (a : StateReply) (hn : u.restartedBy a.boot = false) :
    ∃ f, (s.goodReply i (.state a) true).site i = some f ∧ (d.read a r).Fades f := by
  obtain ⟨e, f, confirms, hf, fades, -⟩ := shown_at (storeUnit_record hr i (u.answered (.state a)))
    ((storeUnit_site s i i (u.answered (.state a))).trans hd) a
  refine ⟨f, ?_, confirms.fades.trans fades⟩
  rw [goodReply_sign hu ho, noticeUnit_site, hn, readback_steady (.inl rfl)]
  exact hf

theorem goodReply_record (hr : s.store.site i = some r) (a : FieldReply) (b : Bool) :
    (s.goodReply i a b).store.site i = some r := by
  rw [(goodReply_handing s i a b).side.store]
  exact hr

/-! ## Its unit -/

/-- The end of the event leaves the unit as the reply did, or reports the elements of a part that has disagreed twice. -/
theorem reply_unit_cases (hu : s.unit i = some u) (hr : s.store.site i = some r) (a : StateReply)
    (c : Option SetCommand) :
    ((s.goodReply i (.state a) c.isSome).reportEnd c true).unit i = some (u.answered (.state a)).judged ∧
      ((∀ c', c = some c' → c'.site = i) → DeliveryTurn (s.goodReply i (.state a) c.isSome)
        ((s.goodReply i (.state a) c.isSome).reportEnd c true)) ∨
    ∃ c' f p w, c = some c' ∧ c'.site = i ∧ (s.goodReply i (.state a) true).site i = some f ∧ f.inFlight = true ∧
      f.part c'.part = some p ∧ p.state = .sent ∧ p.resends ≠ 0 ∧
      DeliveryTurn (s.goodReply i (.state a) c.isSome) w ∧ w.unit i = some (u.answered (.state a)).judged ∧
      w.store.site i = some r ∧
      DeliveryTurn (w.reportMismatch i (f.disagreeing p)) ((s.goodReply i (.state a) c.isSome).reportEnd c true) := by
  cases c with
  | none =>
    refine .inl ⟨?_, fun _ => .refl _⟩
    show (s.goodReply i (.state a) false).unit i = _
    rw [goodReply_unit hu, if_pos rfl]
  | some c =>
    have unit := goodReply_unit hu (.state a) true i
    have record := goodReply_record hr (.state a) true
    rw [if_pos rfl] at unit
    show ((s.goodReply i (.state a) true).setEnded c true).unit i = _ ∧ (_ → DeliveryTurn (s.goodReply i (.state a) true)
      ((s.goodReply i (.state a) true).setEnded c true)) ∨ _
    rcases setEnded_replied_cases (s.goodReply i (.state a) true) c with h | ⟨f, p, hf, hi, hp, hs, hn, h⟩
    · exact .inl ⟨(h.unit i).trans unit, fun _ => h⟩
    · have parts : PartsOnly (s.goodReply i (.state a) true) ((s.goodReply i (.state a) true).landed c.site) :=
        modifySite_parts _ _ _
      have turn := mismatched_turn (s.goodReply i (.state a) true) c f p
      rw [← h] at turn
      have landed := (parts.turn.unit i).trans unit
      by_cases hc : c.site = i
      · subst hc
        exact .inr ⟨c, f, p, _, rfl, rfl, hf, hi, hp, hs, hn, parts.turn, landed, by rw [parts.store]; exact record, turn⟩
      · refine .inl ⟨?_, fun g => absurd (g c rfl) hc⟩
        rw [turn.unit]
        rcases reportMismatch_cases ((s.goodReply i (.state a) true).landed c.site) c.site (f.disagreeing p) with e |
          ⟨v, y, -, -, e⟩ <;> rw [e]
        · exact landed
        · rw [(noticeUnit_turn _ _).unit, storeUnit_unit, if_neg (Ne.symm hc)]
          exact landed

end

end Sys2Proof.Machine
end

section
/-! SUPPORT. What the STATE of a sign brings, part by part (R133 to R136, R139, R144, R150 to R156). -/

namespace Sys2Proof.Machine

section
variable {s : State} {i : Nat} {u : UnitRec} {r : SiteRecord} {d : DeliverySite}

/-- The elements that the end of a SET marks at its site: those that a part sent again has shown otherwise a second time. -/
structure MarkedAgain (c : Option SetCommand) (u : UnitRec) (a : StateReply) (i : Nat) (r : SiteRecord) (d : DeliverySite)
    (p : Part) (es : List ElemId) : Prop where
  steady : ¬ u.Restarts a.boot
  flying : d.inFlight = true
  part : ∃ c', c = some c' ∧ c'.site = i ∧ d.part c'.part = some p ∧ p.state = .sent ∧ p.resends ≠ 0
  members : ∀ x, x ∈ es ↔ d.Disagrees a r p x

/-- R134 and R151: where a part that has been sent again disagrees after the reply, it did so before it. -/
theorem markedAgain_of_mismatch (hu : s.unit i = some u) (ho : u.owner = .sign i) (hr : s.store.site i = some r)
    (hd : s.site i = some d) (a : StateReply) {c : SetCommand} (hc : c.site = i) {f : DeliverySite}
    (hf : (s.goodReply i (.state a) true).site i = some f) (hi : f.inFlight = true) {p : Part}
    (hp : f.part c.part = some p) (hs : p.state = .sent) (hn : p.resends ≠ 0) :
    f.disagreeing p = [] ∨ ∃ q, MarkedAgain (some c) u a i r d q (f.disagreeing p) := by
  by_cases h : u.Restarts a.boot
  · left
    obtain ⟨g, hg, sign⟩ := goodReply_images hu ho hr hd a true
    rw [hf] at hg
    cases hg
    rw [(restartedBy_iff _ _).2 h] at sign
    have forgotten : f.commanded = none := sign.commanded
    unfold DeliverySite.disagreeing
    rw [forgotten]
    exact List.filter_eq_nil_iff.2 fun _ _ => Bool.false_ne_true
  · right
    have steady : u.restartedBy a.boot = false := Bool.eq_false_iff.2 fun g => h ((restartedBy_iff _ _).1 g)
    obtain ⟨g, hg, fades⟩ := goodReply_fades hu ho hr hd a steady
    rw [hf] at hg
    cases hg
    obtain ⟨q, hq, qs, elements, resends⟩ := fades.sent _ _ hp hs
    rw [part_read] at hq
    refine ⟨q, h, fades.flying hi, ⟨c, rfl, hc, hq, qs, by rw [← resends]; exact hn⟩, fun x => ?_⟩
    rw [mem_disagreeing_read fades.sign]
    unfold DeliverySite.Disagrees
    rw [elements]

/-- The unit after the event: judged, with what a second mismatch marks. -/
theorem reply_unit (hu : s.unit i = some u) (ho : u.owner = .sign i) (hr : s.store.site i = some r)
    (hd : s.site i = some d) (a : StateReply) (c : Option SetCommand) :
    ∃ es, ((s.goodReply i (.state a) c.isSome).reportEnd c true).unit i =
        some ((u.answered (.state a)).judged.markMismatch r.kind es).judged ∧
      (es = [] ∨ ∃ p, MarkedAgain c u a i r d p es) := by
  rcases reply_unit_cases hu hr a c with ⟨unit, -⟩ | ⟨c', f, p, w, rfl, hc, hf, hi, hp, hs, hn, -, unit, record, turn⟩
  · exact ⟨[], by rw [unit, unmarked_elements], .inl rfl⟩
  · refine ⟨f.disagreeing p, ?_, markedAgain_of_mismatch hu ho hr hd a hc hf hi hp hs hn⟩
    rw [turn.unit, reportMismatch_eq unit record, (noticeUnit_turn _ _).unit, storeUnit_unit, if_pos rfl, unit]
    rfl

/-- R133 to R136: an element after the event. -/
theorem reply_element {a : StateReply} {es : List ElemId} {j : Nat} {e : ElemRec} (he : u.elements[j]? = some e) :
    ((u.answered (.state a)).judged.markMismatch r.kind es).judged.elements[j]? =
      some { (e.answered a (u.restartedBy a.boot)).markedBy r.kind es with
        available := ((e.answered a (u.restartedBy a.boot)).markedBy r.kind es).judge (u.answered (.state a)).state } := by
  rw [marked_elements, answered_elements, List.map_map, List.getElem?_map, he]
  rfl

/-- R133 to R136. -/
theorem signReply_elements (hu : s.unit i = some u) (ho : u.owner = .sign i) (hr : s.store.site i = some r)
    (hd : s.site i = some d) (a : StateReply) (x : Transaction) :
    ∃ v, ((s.goodReply i (.state a) x.command.isSome).reportEnd x.command true).unit i = some v ∧
      v.elements.length = u.elements.length ∧
      ∀ (j : Nat) (e : ElemRec), u.elements[j]? = some e → ∃ e', v.elements[j]? = some e' ∧ e'.name = e.name ∧
        e'.reported = some (a.reportOf e.name) ∧
        (¬ NamedAgain x u a i r d e.name → ElementTaken a (u.Restarts a.boot) v.state e e') := by
  obtain ⟨es, unit, marked⟩ := reply_unit hu ho hr hd a x.command
  refine ⟨_, unit, ?_, fun j e he => ⟨_, reply_element he, ?_, ?_, fun hn => ?_⟩⟩
  · rw [marked_elements, answered_elements, List.length_map, List.length_map]
  · exact (markedBy_fields _ _ _).1.trans (elem_answered_name e a _).1
  · exact (markedBy_fields _ _ _).2.1.trans (elem_answered_taken e a (u.restartedBy a.boot) Iff.rfl .up).reported
  · have unnamed : (e.answered a (u.restartedBy a.boot)).markedBy r.kind es = e.answered a (u.restartedBy a.boot) := by
      refine if_neg fun h => ?_
      rw [(elem_answered_name e a _).1] at h
      rcases marked with rfl | ⟨p, steady, flying, ⟨c, hc, hi, hp, hs, hr'⟩, members⟩
      · rcases (namedBy_iff _ _ _).1 h with h | ⟨-, h, -⟩ <;> cases h
      · refine hn ⟨steady, flying, c, p, hc, hi, hp, hs, hr', ?_⟩
        rcases (namedBy_iff _ _ _).1 h with h | ⟨gantry, h, lane⟩
        · exact .inl ((members _).1 h)
        · exact .inr ⟨gantry, (members _).1 h, lane⟩
    rw [unnamed]
    exact elem_answered_taken e a _ (restartedBy_iff u a.boot) _

/-- R57 and R136: two records stored, one after the other. -/
theorem AvailabilityHanded.again {s t t' v : State} {u u' w : UnitRec} (h : AvailabilityHanded s t u u')
    (ht : t'.evaluator.available = t.evaluator.available) (hp : t'.evaluator.pending = t.evaluator.pending)
    (g : AvailabilityHanded t' v u' w) (stays : t'.evaluator.pending = true → v.evaluator.pending = true)
    (ho : u'.owner = u.owner) (length : t.evaluator.available.length = s.evaluator.available.length) {k : Nat}
    (hk : u.owner = .sign k) (hn : w.usable ≠ u.usable) : v.evaluator.pending = true ∧
      (k < s.evaluator.available.length → v.evaluator.available[k]? = some w.usable) := by
  obtain ⟨changed, -⟩ := h k hk
  obtain ⟨changed', same'⟩ := g k (ho.trans hk)
  by_cases e : w.usable = u'.usable
  · obtain ⟨pending, given⟩ := changed (by rw [← e]; exact hn)
    exact ⟨stays (hp.trans pending), fun hl => by rw [same' e, ht, given hl, e]⟩
  · obtain ⟨pending, given⟩ := changed' e
    exact ⟨pending, fun hl => given (by rw [ht, length]; exact hl)⟩

/-- R57 and R136: what the reply hands the evaluator. -/
theorem goodReply_handed (hu : s.unit i = some u) (ho : u.owner = .sign i) (a : StateReply) (b : Bool) :
    AvailabilityHanded s (s.goodReply i (.state a) b) u (u.answered (.state a)).judged ∧
    (s.goodReply i (.state a) b).evaluator.available.length = s.evaluator.available.length := by
  have owner := (answered_fields u (.state a)).1
  have stored := (storeUnit_hands s i (u.answered (.state a))).2.1
  have turn := (readback_turn (s.storeUnit i (u.answered (.state a))) i a (u.restartedBy a.boot) b).trans
    (noticeUnit_turn _ (decide ((u.answered (.state a)).noticed ≠ u.noticed)))
  rw [← goodReply_sign hu ho] at turn
  refine ⟨AvailabilityHanded.turn (fun k hk => ?_) turn.available fun h => turn.pending.trans h, ?_⟩
  · have handed := stored k (owner.trans hk)
    rwa [answered_usable] at handed
  · rw [turn.available]
    exact storeUnit_length s i (u.answered (.state a))

/-- R57 and R136. -/
theorem signReply_handed (hu : s.unit i = some u) (ho : u.owner = .sign i) (hr : s.store.site i = some r)
    (a : StateReply) {c : Option SetCommand} (hc : ∀ c', c = some c' → c'.site = i) {v : UnitRec}
    (hv : ((s.goodReply i (.state a) c.isSome).reportEnd c true).unit i = some v) (hn : v.usable ≠ u.usable) :
    ((s.goodReply i (.state a) c.isSome).reportEnd c true).evaluator.pending = true ∧
    (i < s.evaluator.available.length →
      ((s.goodReply i (.state a) c.isSome).reportEnd c true).evaluator.available[i]? = some v.usable) := by
  obtain ⟨first, length⟩ := goodReply_handed hu ho a c.isSome
  rcases reply_unit_cases hu hr a c with ⟨unit, turn⟩ | ⟨c', f, p, w, rfl, -, -, -, -, -, -, before, unit, record, turn⟩
  · rw [unit] at hv
    cases hv
    exact ((first.turn (turn hc).available fun h => (turn hc).pending.trans h) i ho).1 hn
  · have owner := (answered_fields u (.state a)).1
    have final : v = ((u.answered (.state a)).judged.markMismatch r.kind (f.disagreeing p)).judged := by
      rw [turn.unit, reportMismatch_eq unit record, (noticeUnit_turn _ _).unit, storeUnit_unit, if_pos rfl, unit] at hv
      exact (Option.some.inj hv).symm
    rw [reportMismatch_eq unit record] at turn
    have rest := (noticeUnit_turn _ _).trans turn
    obtain ⟨-, second, stays⟩ := storeUnit_hands w i ((u.answered (.state a)).judged.markMismatch r.kind (f.disagreeing p))
    rw [final] at hn ⊢
    refine first.again before.available before.pending (fun k hk => ?_) (fun h => rest.pending.trans (stays h)) owner length
      ho hn
    have handed := (second.turn rest.available fun h => rest.pending.trans h) k hk
    rwa [markMismatch_usable] at handed

/-- R139. -/
theorem signReply_noticed (hu : s.unit i = some u) (hr : s.store.site i = some r) (a : StateReply) (c : Option SetCommand)
    {v : UnitRec} (hv : ((s.goodReply i (.state a) c.isSome).reportEnd c true).unit i = some v)
    (hn : v.elements.map ElemRec.effective ≠ u.elements.map ElemRec.effective) (p : Port)
    (hp : (s.port p).authority ≠ .disabled) :
    (((s.goodReply i (.state a) c.isSome).reportEnd c true).port p).flags &&& Notice.unit.flag = Notice.unit.flag := by
  by_cases first : (u.answered (.state a)).noticed = u.noticed
  · have same : (u.answered (.state a)).judged.elements.map ElemRec.effective = u.elements.map ElemRec.effective :=
      congrArg Prod.snd ((effective_judged _).trans first)
    rcases reply_unit_cases hu hr a c with ⟨unit, -⟩ | ⟨c', f, q, w, rfl, -, -, -, -, -, -, before, unit, record, turn⟩
    · rw [unit] at hv
      cases hv
      exact absurd same hn
    · rw [reportMismatch_eq unit record] at turn
      rw [turn.unit, (noticeUnit_turn _ _).unit, storeUnit_unit, if_pos rfl, unit] at hv
      have changed : ((u.answered (.state a)).judged.markMismatch r.kind (f.disagreeing q)).noticed ≠
          (u.answered (.state a)).judged.noticed := fun h => by
        rw [← effective_judged] at h
        cases hv
        exact hn ((congrArg Prod.snd h).trans same)
      rw [decide_eq_true changed] at turn
      refine turn.telling.flags p .unit (notifyAll_flag _ .unit p ?_)
      have told := ((goodReply_telling s i (.state a) true).trans before.telling).trans (storeUnit_telling w i
        ((u.answered (.state a)).judged.markMismatch r.kind (f.disagreeing q)))
      rwa [told.authority]
  · exact (reportEnd_replied_telling _ c).flags p .unit (goodReply_noticed hu _ _ first p hp)

/-! ## Its site -/

/-- R144 and R153. -/
theorem signReply_images (hu : s.unit i = some u) (ho : u.owner = .sign i) (hr : s.store.site i = some r)
    (hd : s.site i = some d) (a : StateReply) (c : Option SetCommand) :
    ∃ e, ((s.goodReply i (.state a) c.isSome).reportEnd c true).site i = some e ∧
      (if u.restartedBy a.boot then (d.read a r).forget else d.read a r).SameSign e := by
  obtain ⟨f, hf, sign⟩ := goodReply_images hu ho hr hd a c.isSome
  cases c with
  | none => exact ⟨f, hf, sign⟩
  | some c =>
    obtain ⟨e, he, sign'⟩ := setEnded_replied_sign _ c i hf
    exact ⟨e, he, sign.trans sign'⟩

end

end Sys2Proof.Machine
end

section
/-! SUPPORT. What the STATE of a sign brings to delivery: confirmation, the two mismatches of a SET, drift and completion
(R134, R150, R151, R154, R156). -/

namespace Sys2Proof.Machine

theorem modifySite_counts (s : State) (i : Nat) (f : DeliverySite → DeliverySite) :
    (s.modifySite i f).delivery.abandoned = s.delivery.abandoned ∧
    (s.modifySite i f).delivery.abandonments = s.delivery.abandonments := by
  unfold State.modifySite
  split <;> exact ⟨rfl, rfl⟩

theorem confirmKind_counts (s : State) (i : Nat) (k : PartKind) :
    (s.confirmKind i k).delivery.abandoned = s.delivery.abandoned ∧
    (s.confirmKind i k).delivery.abandonments = s.delivery.abandonments := by
  unfold State.confirmKind
  split
  · exact ⟨rfl, rfl⟩
  split
  · exact ⟨rfl, rfl⟩
  split
  · obtain ⟨m1, m2⟩ := modifySite_counts (s.withdrawKind i k) i fun d => d.setPart k (some { ‹Part› with
      state := .confirmed
      queued := false })
    obtain ⟨w1, w2⟩ := withdrawKind_counts s i k
    exact ⟨m1.trans w1, m2.trans w2⟩
  · exact ⟨rfl, rfl⟩

theorem confirm_counts (s : State) (i : Nat) : (s.confirm i).delivery.abandoned = s.delivery.abandoned ∧
    (s.confirm i).delivery.abandonments = s.delivery.abandonments := by
  unfold State.confirm
  obtain ⟨t1, t2⟩ := confirmKind_counts s i .tightening
  obtain ⟨l1, l2⟩ := confirmKind_counts (s.confirmKind i .tightening) i .relaxing
  obtain ⟨d1, d2⟩ := confirmKind_counts ((s.confirmKind i .tightening).confirmKind i .relaxing) i .darkening
  exact ⟨d1.trans (l1.trans t1), d2.trans (l2.trans t2)⟩

/-- R142 and R156: a readback that shows no drift gives nothing up. -/
theorem shown_counts {s : State} (ht : s.delivery.target = .plan) (i : Nat) (a : StateReply) :
    (s.shown i a).delivery.abandoned = s.delivery.abandoned ∧
    (s.shown i a).delivery.abandonments = s.delivery.abandonments := by
  have read : (s.takeReadback i a).delivery.abandoned = s.delivery.abandoned ∧
      (s.takeReadback i a).delivery.abandonments = s.delivery.abandonments := modifySite_counts s i _
  have target := (takeReadback_parts s i a).target.trans ht
  unfold State.shown
  generalize s.takeReadback i a = t at read target ⊢
  obtain ⟨c1, c2⟩ := confirm_counts t i
  obtain ⟨-, -, -, -, total, ofTarget⟩ := settleDelivery_keeps (t.confirm i)
  exact ⟨(ofTarget ((confirm_parts t i).target.trans target)).trans (c1.trans read.1), total.trans (c2.trans read.2)⟩

section
variable {s : State} {i : Nat} {u : UnitRec} {r : SiteRecord} {d : DeliverySite}

/-- A STATE of a sign that has not restarted and shows no drift, or ends a SET. -/
theorem goodReply_shown (hu : s.unit i = some u) (ho : u.owner = .sign i) {a : StateReply} (hn : ¬ u.Restarts a.boot)
    {b : Bool} (h : b = true ∨ ((s.storeUnit i (u.answered (.state a))).shown i a).drifted i = false) :
    s.goodReply i (.state a) b = ((s.storeUnit i (u.answered (.state a))).shown i a).noticeUnit
      (decide ((u.answered (.state a)).noticed ≠ u.noticed)) := by
  have steady : u.restartedBy a.boot = false := Bool.eq_false_iff.2 fun g => hn ((restartedBy_iff _ _).1 g)
  rw [goodReply_sign hu ho, steady, readback_steady h]

/-- R150: the site of the sign once the STATE has been shown to it. -/
theorem reply_shown_at (hr : s.store.site i = some r) (hd : s.site i = some d) (a : StateReply) (u : UnitRec) :
    ∃ e f, (d.read a r).Confirms e ∧ ((s.storeUnit i u).shown i a).site i = some f ∧ e.Fades f ∧
      (s.delivery.target = .plan → e.Like f) ∧ (s.waitingOf i = none → d.inFlight = true → f = e ∧
        e.inFlight = true ∧ ((s.storeUnit i u).shown i a).waitingOf i = none) := by
  obtain ⟨e, f, confirms, hf, fades, like, flies⟩ := shown_at (storeUnit_record hr i u) ((storeUnit_site s i i u).trans hd) a
  obtain ⟨delivery, -⟩ := storeUnit_keeps s i u
  rw [delivery] at like
  rw [storeUnit_waiting] at flies
  exact ⟨e, f, confirms, hf, fades, like, flies⟩

/-- R150: a pending part that agrees whole is CONFIRMED, any other part stays. -/
theorem confirmedPart_read {a : StateReply} {p : Part} :
    (Unresolved (some p) → (∀ e ∈ p.elements, d.Agrees a r e) →
      (d.read a r).confirmedPart p = { p with state := .confirmed, queued := false }) ∧
    ((∃ e ∈ p.elements, ¬ d.Agrees a r e) → (d.read a r).confirmedPart p = p) := by
  unfold DeliverySite.confirmedPart
  refine ⟨fun hp h => if_pos ?_, fun ⟨e, he, hn⟩ => if_neg fun h => ?_⟩
  · rw [(matched_read d a r p).2 h, Bool.and_true]
    exact (unresolved_iff _).1 hp
  · exact hn ((matched_read d a r p).1 (Bool.and_eq_true_iff.1 h).2 e he)

/-- R145: nothing of a site differs where every wanted element is shown. -/
theorem undiffering {e : DeliverySite} {a : StateReply} (sign : (d.read a r).SameSign e)
    (h : ∀ x, r.Holds x → ∀ w, e.wanted.lookup x = some w → w = a.shown x) : ∀ x ∈ r.elements, e.differs x = false := by
  intro x hx
  have held := (mem_elements r x).1 hx
  rw [Bool.eq_false_iff]
  intro hd
  obtain ⟨w, hw, other⟩ := (differs_read sign held).1 hd
  exact other (h x held w hw)

/-- R150. -/
theorem signReply_confirmed (hu : s.unit i = some u) (ho : u.owner = .sign i) (hr : s.store.site i = some r)
    (hd : s.site i = some d) {a : StateReply} (hn : ¬ u.Restarts a.boot) (ht : s.delivery.target = .plan) {k : PartKind}
    {p : Part} (hp : d.part k = some p) (hq : Unresolved (some p)) (ha : ∀ e ∈ p.elements, d.Agrees a r e)
    {c : Option SetCommand} (h : (∀ e, r.Holds e → ∀ w, d.wanted.lookup e = some w → w = a.shown e) ∨
      c = none ∧ ∃ k' p', d.part k' = some p' ∧ Unresolved (some p') ∧ ∃ e ∈ p'.elements, ¬ d.Agrees a r e) :
    ∃ d', ((s.goodReply i (.state a) c.isSome).reportEnd c true).site i = some d' ∧
      d'.part k = some { p with state := .confirmed, queued := false } := by
  obtain ⟨e, f, confirms, hf, fades, like, -⟩ := reply_shown_at hr hd a (u.answered (.state a))
  have sign : (d.read a r).SameSign f := confirms.sign.trans fades.sign
  have wanted : f.wanted = d.wanted := (like ht).wanted.trans confirms.wanted
  have agreed : e.part k = some { p with state := .confirmed, queued := false } := by
    rw [confirms.part, part_read, hp, Option.map_some, confirmedPart_read.1 hq ha]
  have part : f.part k = some { p with state := .confirmed, queued := false } := by
    obtain ⟨q, hq', same⟩ := (like ht).part k _ agreed
    rw [hq', same.resolved rfl rfl]
  rcases h with h | ⟨rfl, k', p', hp', hq', hx⟩
  · have undiff := undiffering sign (fun x hx w hw => h x hx w (by rw [← wanted]; exact hw))
    have shown : ∀ x ∈ ((s.storeUnit i (u.answered (.state a))).shown i a).store.elements i, f.differs x = false := by
      rw [(shown_handing _ i a).side.store, elements_of_site (storeUnit_record hr i (u.answered (.state a)))]
      exact undiff
    have steady := drifted_of_site hf (.inr (siteDiffers_false hf shown))
    have site : (s.goodReply i (.state a) c.isSome).site i = some f := by
      rw [goodReply_shown hu ho hn (.inr steady), noticeUnit_site]
      exact hf
    cases c with
    | none => exact ⟨f, site, part⟩
    | some c =>
      have handing := goodReply_handing s i (.state a) true
      refine setEnded_replied_resolved c site (handing.side.plan_target ht) ?_ part rfl rfl
      rw [elements_of_site (goodReply_record hr (.state a) (some c).isSome)]
      exact undiff
  · have waits : f.anyPending = true := by
      refine (anyPending_iff f).2 ⟨k', ?_⟩
      rw [(like ht).pendingPart, confirms.part, part_read, hp', Option.map_some, confirmedPart_read.2 hx]
      exact (unresolved_iff _).1 hq'
    refine ⟨f, ?_, part⟩
    show (s.goodReply i (.state a) false).site i = some f
    rw [goodReply_shown hu ho hn (.inr (drifted_of_site hf (.inl waits))), noticeUnit_site]
    exact hf

/-! ## The SET that the STATE ends (R151) -/

/-- A site in flight whose part the STATE does not confirm, before its SET is ended. -/
theorem goodReply_flying (hu : s.unit i = some u) (ho : u.owner = .sign i) (hr : s.store.site i = some r)
    (hd : s.site i = some d) {a : StateReply} (hn : ¬ u.Restarts a.boot) (hi : d.inFlight = true)
    (hw : s.waitingOf i = none) {k : PartKind} {p : Part} (hp : d.part k = some p)
    (hx : ∃ e ∈ p.elements, ¬ d.Agrees a r e) : ∃ e, (s.goodReply i (.state a) true).site i = some e ∧
      (d.read a r).SameSign e ∧ e.wanted = d.wanted ∧ e.inFlight = true ∧ e.part k = some p ∧
      (s.goodReply i (.state a) true).waitingOf i = none := by
  obtain ⟨e, f, confirms, hf, -, -, flies⟩ := reply_shown_at hr hd a (u.answered (.state a))
  obtain ⟨rfl, flying, idle⟩ := flies hw hi
  refine ⟨f, ?_, confirms.sign, confirms.wanted, flying, ?_, ?_⟩
  · rw [goodReply_shown hu ho hn (.inl rfl), noticeUnit_site]
    exact hf
  · rw [confirms.part, part_read, hp, Option.map_some, confirmedPart_read.2 hx]
  · rw [goodReply_shown hu ho hn (.inl rfl), noticeUnit_waiting]
    exact idle

/-- R142 and R156: the STATE itself gives nothing up. -/
theorem goodReply_counts (hu : s.unit i = some u) (ho : u.owner = .sign i) {a : StateReply} (hn : ¬ u.Restarts a.boot)
    (ht : s.delivery.target = .plan) :
    (s.goodReply i (.state a) true).delivery.abandoned = s.delivery.abandoned ∧
    (s.goodReply i (.state a) true).delivery.abandonments = s.delivery.abandonments := by
  obtain ⟨delivery, -⟩ := storeUnit_keeps s i (u.answered (.state a))
  obtain ⟨-, -, noticed, -⟩ := noticeUnit_keeps ((s.storeUnit i (u.answered (.state a))).shown i a)
    (decide ((u.answered (.state a)).noticed ≠ u.noticed))
  have counts := shown_counts (s := s.storeUnit i (u.answered (.state a))) (by rw [delivery]; exact ht) i a
  rw [delivery] at counts
  rw [goodReply_shown hu ho hn (.inl rfl), noticed]
  exact counts

/-- R134 and R151: what the second mismatch of a part makes of its site. -/
def DeliverySite.gaveUp (d : DeliverySite) (k : PartKind) (p : Part) : DeliverySite :=
  { ({ d with inFlight := false } : DeliverySite).setPart k (some { p with state := .abandoned, queued := false }) with
    wanted := d.wanted.filter fun x => !(d.disagreeing p).contains x.1 }

theorem mismatched_site {c : SetCommand} {e : DeliverySite} {p : Part} (he : s.site c.site = some e) :
    (s.mismatched c e p).site c.site = some (e.gaveUp c.part p) := by
  unfold State.mismatched
  rw [abandon_site, if_pos rfl, reportMismatch_site, landed_site he]
  rfl

theorem mismatched_counts (c : SetCommand) (e : DeliverySite) (p : Part) :
    (s.mismatched c e p).delivery.abandoned = min (s.delivery.abandoned + 1) 65535 ∧
    (s.mismatched c e p).delivery.abandonments = min (s.delivery.abandonments + 1) 65535 := by
  obtain ⟨m1, m2⟩ := modifySite_counts s c.site fun d => { d with inFlight := false }
  obtain ⟨delivery, -⟩ := reportMismatch_keeps (s.landed c.site) c.site (e.disagreeing p)
  have counts := abandon_counts ((s.landed c.site).reportMismatch c.site (e.disagreeing p)) c.site c.part p
    (e.disagreeing p)
  rw [delivery] at counts
  unfold State.landed at counts
  rw [m1, m2] at counts
  exact counts

/-- R151: the end of a SET whose part has disagreed a second time. -/
theorem setEnded_second {c : SetCommand} {e : DeliverySite} (he : s.site c.site = some e) (hf : e.inFlight = true)
    {p : Part} (hp : e.part c.part = some p) (hs : p.state = .sent) (hr : p.resends ≠ 0) : s.setEnded c true =
      ((s.mismatched c e p).reformIfDiffering c.site).settleDelivery := by
  have part : ({ e with inFlight := false } : DeliverySite).part c.part = some p := by rw [part_withFlight, hp]
  rw [setEnded_flying he hf, endPart_gives_up (landed_site he) part hs hr]
  rfl

end

end Sys2Proof.Machine
end

section
/-! SUPPORT. The rest of what the STATE of a sign brings to delivery (R134, R151, R154, R156), and the reply as a whole. -/

namespace Sys2Proof.Machine

section
variable {s : State} {i : Nat} {u : UnitRec} {r : SiteRecord} {d : DeliverySite}

/-- R151: the first mismatch of a command. -/
theorem signReply_mismatch (hu : s.unit i = some u) (ho : u.owner = .sign i) (hr : s.store.site i = some r)
    (hd : s.site i = some d) {a : StateReply} (hn : ¬ u.Restarts a.boot) (hi : d.inFlight = true)
    (hw : s.waitingOf i = none) {c : SetCommand} (hc : c.site = i) {p : Part} (hp : d.part c.part = some p)
    (hs : p.state = .sent) (hx : ∃ e ∈ p.elements, ¬ d.Agrees a r e) (hz : p.resends = 0) :
    ∃ d' q, ((s.goodReply i (.state a) true).setEnded c true).site i = some d' ∧ d'.inFlight = false ∧
      d'.part c.part = some { p with state := .waiting, resends := 1, queued := q } := by
  subst hc
  obtain ⟨e, he, -, -, flying, part, idle⟩ := goodReply_flying hu ho hr hd hn hi hw hp hx
  exact setEnded_mismatch he flying idle part hs hz

theorem gaveUp_wanted (e : DeliverySite) (k : PartKind) (p : Part) (x : ElemId) :
    (e.gaveUp k p).wanted.lookup x = if x ∈ e.disagreeing p then none else e.wanted.lookup x :=
  lookup_without e.wanted (e.disagreeing p) x

theorem gaveUp_sign (e : DeliverySite) (k : PartKind) (p : Part) : e.SameSign (e.gaveUp k p) :=
  ⟨setPart_confirmed _ k _, setPart_applied _ k _, setPart_commanded _ k _⟩

theorem gaveUp_part (e : DeliverySite) (k : PartKind) (p : Part) :
    (e.gaveUp k p).part k = some { p with state := .abandoned, queued := false } := by
  unfold DeliverySite.gaveUp
  rw [part_withWanted, part_setPart, if_pos rfl]

theorem gaveUp_flying (e : DeliverySite) (k : PartKind) (p : Part) : (e.gaveUp k p).inFlight = false := by
  unfold DeliverySite.gaveUp
  exact setPart_inFlight _ _ _

theorem mismatched_handing (s : State) (c : SetCommand) (e : DeliverySite) (p : Part) : Handing s (s.mismatched c e p) :=
  ((modifySite_handing _ _ _).trans (reportMismatch_handing _ _ _)).trans (abandon_handing _ _ _ _ _)

/-- R151: the second mismatch of a command is its part given up, where every other wanted element of the site agrees. -/
theorem setEnded_gives_up (hu : s.unit i = some u) (ho : u.owner = .sign i) (hr : s.store.site i = some r)
    (hd : s.site i = some d) {a : StateReply} (hn : ¬ u.Restarts a.boot) (hi : d.inFlight = true)
    (hw : s.waitingOf i = none) {c : SetCommand} (hc : c.site = i) {p : Part} (hp : d.part c.part = some p)
    (hs : p.state = .sent) (hx : ∃ e ∈ p.elements, ¬ d.Agrees a r e) (hz : p.resends ≠ 0)
    (hall : ∀ e, r.Holds e → ∀ w, d.wanted.lookup e = some w → w = a.shown e ∨ d.Disagrees a r p e) :
    ∃ e, (d.read a r).SameSign e ∧ ((s.goodReply i (.state a) true).mismatched c e p).site i = some (e.gaveUp c.part p) ∧
      (s.goodReply i (.state a) true).setEnded c true =
        ((s.goodReply i (.state a) true).mismatched c e p).settleDelivery := by
  subst hc
  obtain ⟨e, he, sign, wanted, flying, part, -⟩ := goodReply_flying hu ho hr hd hn hi hw hp hx
  have site := mismatched_site (p := p) he
  refine ⟨e, sign, site, ?_⟩
  rw [setEnded_second he flying part hs hz, reformIfDiffering_same (siteDiffers_false site ?_)]
  have record := goodReply_record hr (.state a) true
  rw [(mismatched_handing _ c e p).side.store, elements_of_site record]
  refine undiffering (sign.trans (gaveUp_sign e c.part p)) fun x held w hx' => ?_
  rw [gaveUp_wanted] at hx'
  split at hx'
  · cases hx'
  · rename_i hm
    rw [wanted] at hx'
    exact (hall x held w hx').resolve_right fun g => hm ((mem_disagreeing_read sign p x).2 g)

/-- R134: an element that a report names is MISMATCH, and not available. -/
theorem marked_named {v : UnitRec} {k : SiteKind} {es : List ElemId} {y : ElemRec}
    (hy : y ∈ (v.judged.markMismatch k es).judged.elements) (h : namedBy k es y.name = true) :
    y.mark = .marked y.reported ∧ y.available = false := by
  rw [marked_elements] at hy
  obtain ⟨x, -, rfl⟩ := List.mem_map.1 hy
  obtain ⟨name, reported, -⟩ := markedBy_fields x k es
  have mark : (x.markedBy k es).mark = .marked (x.markedBy k es).reported := by
    have named : namedBy k es x.name = true := by
      rw [← name]
      exact h
    rw [reported]
    unfold ElemRec.markedBy
    rw [if_pos named]
  refine ⟨mark, ?_⟩
  show (x.markedBy k es).judge v.state = false
  rw [Bool.eq_false_iff]
  intro hj
  obtain ⟨-, clear, -⟩ := (judge_iff _ _).1 hj
  cases mark.symm.trans clear

/-- R134 and R151: the second mismatch of a command. -/
theorem signReply_second (hu : s.unit i = some u) (ho : u.owner = .sign i) (hr : s.store.site i = some r)
    (hd : s.site i = some d) {a : StateReply} (hn : ¬ u.Restarts a.boot) (ht : s.delivery.target = .plan)
    (hi : d.inFlight = true) (hw : s.waitingOf i = none) {c : SetCommand} (hc : c.site = i) {p : Part}
    (hp : d.part c.part = some p) (hs : p.state = .sent) (hx : ∃ e ∈ p.elements, ¬ d.Agrees a r e) (hz : p.resends ≠ 0)
    (hall : ∀ e, r.Holds e → ∀ w, d.wanted.lookup e = some w → w = a.shown e ∨ d.Disagrees a r p e) :
    let t := (s.goodReply i (.state a) true).setEnded c true
    (∃ d', t.site i = some d' ∧ d'.inFlight = false ∧
      d'.part c.part = some { p with state := .abandoned, queued := false } ∧
      ∀ e, d.Disagrees a r p e → d'.wanted.lookup e = none) ∧
    t.delivery.abandonments = min (s.delivery.abandonments + 1) 65535 ∧
    t.delivery.abandoned = min (s.delivery.abandoned + 1) 65535 ∧
    ∀ v, t.unit i = some v → ∀ y ∈ v.elements,
      d.Disagrees a r p y.name ∨
        (∃ n b, r.kind = .gantry n b) ∧ d.Disagrees a r p .limit ∧ (∃ l, 1 ≤ l ∧ y.name = .lane l) →
      y.mark = .marked y.reported ∧ y.available = false := by
  obtain ⟨e, sign, site, ended⟩ := setEnded_gives_up hu ho hr hd hn hi hw hc hp hs hx hz hall
  obtain ⟨c1, c2⟩ := goodReply_counts hu ho hn ht
  have unit := goodReply_unit hu (.state a) true i
  have record := goodReply_record hr (.state a) true
  have target := (goodReply_handing s i (.state a) true).side.plan_target ht
  have members := mem_disagreeing_read sign p
  rw [if_pos rfl] at unit
  dsimp only
  rw [ended, ← c1, ← c2]
  generalize s.goodReply i (.state a) true = g at site unit record target
  subst hc
  obtain ⟨m1, m2⟩ := mismatched_counts (s := g) c e p
  obtain ⟨units, -, -, -, total, ofTarget⟩ := settleDelivery_keeps (g.mismatched c e p)
  have target' := (mismatched_handing g c e p).side.plan_target target
  obtain ⟨f, hf, part, like⟩ := settleDelivery_resolved site target' (gaveUp_part e c.part p) rfl rfl
  refine ⟨⟨f, hf, ?_, part, fun x hx => ?_⟩, total.trans m2, (ofTarget target').trans m1, fun v hv y hy named => ?_⟩
  · rw [Bool.eq_false_iff]
    intro h
    cases (like.inFlight h).symm.trans (gaveUp_flying e c.part p)
  · rw [like.wanted, gaveUp_wanted, if_pos ((members x).2 hx)]
  · have parts : PartsOnly g (g.landed c.site) := modifySite_parts _ _ _
    have marked : (g.mismatched c e p).unit c.site =
        some ((u.answered (.state a)).judged.markMismatch r.kind (e.disagreeing p)).judged := by
      unfold State.mismatched
      rw [(abandon_parts _ _ _ _ _).turn.unit, reportMismatch_eq ((parts.turn.unit _).trans unit)
        (by rw [parts.store]; exact record), (noticeUnit_turn _ _).unit, storeUnit_unit, if_pos rfl, parts.turn.unit, unit]
      rfl
    rw [unit_of_units units, marked] at hv
    cases hv
    refine marked_named hy ((namedBy_iff _ _ _).2 (named.imp (members _).2 ?_))
    exact And.imp_right (And.imp_left (members _).2)

/-! ## Drift and completion (R154, R156) -/

theorem storeUnit_signState (hu : s.unit i = some u) (v : UnitRec) : (s.storeUnit i v).signState i = v.state := by
  unfold State.signState
  rw [storeUnit_unit, if_pos rfl, hu]
  rfl

/-- R154. -/
theorem signReply_drift (hu : s.unit i = some u) (ho : u.owner = .sign i) (hr : s.store.site i = some r)
    (hd : s.site i = some d) {a : StateReply} (hn : ¬ u.Restarts a.boot) (ht : s.delivery.target = .plan)
    (hm : s.mode = .live ∨ s.mode = .darkening) (hs : u.state.Contact) (hi : d.inFlight = false)
    (hp : ∀ k, ¬ Unresolved (d.part k)) (hx : ∃ e w, r.Holds e ∧ d.wanted.lookup e = some w ∧ w ≠ a.shown e) :
    (s.goodReply i (.state a) false).delivery.drifts = min (s.delivery.drifts + 1) 65535 ∧
    (s.delivery.state ≠ .suppressed → (s.goodReply i (.state a) false).delivery.state = .delivering) ∧
    ∃ d', (s.goodReply i (.state a) false).site i = some d' ∧ d'.wanted = d.wanted ∧ Reformed r d d' .tightening ∧
      Reformed r d d' .relaxing := by
  have steady : u.restartedBy a.boot = false := Bool.eq_false_iff.2 fun g => hn ((restartedBy_iff _ _).1 g)
  obtain ⟨delivery, -, -, -, -, mode, -⟩ := storeUnit_keeps s i (u.answered (.state a))
  have contact : ((s.storeUnit i (u.answered (.state a))).signState i).Contact := by
    rw [storeUnit_signState hu]
    exact .inl (answered_contact hs _)
  have drifted := readback_drift (storeUnit_record hr i (u.answered (.state a)))
    ((storeUnit_site s i i (u.answered (.state a))).trans hd) a (by rw [delivery]; exact ht) (by rw [mode]; exact hm)
    contact hi hp hx
  rw [delivery] at drifted
  obtain ⟨-, -, noticed, -⟩ := noticeUnit_keeps ((s.storeUnit i (u.answered (.state a))).readback i a false false)
    (decide ((u.answered (.state a)).noticed ≠ u.noticed))
  rw [goodReply_sign hu ho, steady, noticed, noticeUnit_site]
  exact drifted

/-- A unit that is not in contact, and no fourth good reply. -/
theorem answered_no_contact {u : UnitRec} (h : ¬ u.state.Contact) (hg : u.state = .probing → u.good < 3) (r : FieldReply) :
    ¬ (u.answered r).state.Contact := by
  obtain ⟨absent, early, -, -, -, lost⟩ := answered_states u r
  cases hu : u.state with
  | absent => rw [absent hu]; decide
  | probing => rw [(early hu (hg hu)).1]; decide
  | lost => rw [(lost hu).1]; decide
  | up => exact absurd (.inl hu) h
  | suspect => exact absurd (.inr hu) h

/-- R154: what is no drift. -/
theorem signReply_noDrift (hu : s.unit i = some u) (ho : u.owner = .sign i) {a : StateReply} {c : Option SetCommand}
    (h : u.Restarts a.boot ∨ c ≠ none ∨ s.mode = .unconfigured ∨ s.mode = .shadow ∨ ¬ u.state.Contact ∧
      (u.state = .probing → u.good < 3)) :
    ((s.goodReply i (.state a) c.isSome).reportEnd c true).delivery.drifts = s.delivery.drifts := by
  obtain ⟨delivery, -, -, -, -, mode, -⟩ := storeUnit_keeps s i (u.answered (.state a))
  obtain ⟨-, -, noticed, -⟩ := noticeUnit_keeps
    ((s.storeUnit i (u.answered (.state a))).readback i a (u.restartedBy a.boot) c.isSome)
    (decide ((u.answered (.state a)).noticed ≠ u.noticed))
  have undrifted : (s.goodReply i (.state a) c.isSome).delivery.drifts = s.delivery.drifts := by
    rw [goodReply_sign hu ho, noticed, readback_undrifted, delivery]
    rcases h with h | h | h | h | ⟨h, hg⟩
    · exact .inl ((restartedBy_iff _ _).2 h)
    · exact .inr (.inl (Option.isSome_iff_ne_none.2 h))
    · exact .inr (.inr (drifted_of_mode (.inl (by rw [mode]; exact h))))
    · exact .inr (.inr (drifted_of_mode (.inr (by rw [mode]; exact h))))
    · exact .inr (.inr (drifted_of_state (by rw [storeUnit_signState hu]; exact answered_no_contact h hg _)))
  cases c with
  | none => exact undrifted
  | some c => exact (setEnded_replied_drifts _ c).trans undrifted

/-- R156. -/
theorem signReply_completion (hu : s.unit i = some u) (ho : u.owner = .sign i) (a : StateReply) (c : Option SetCommand) :
    CompletionJudged s ((s.goodReply i (.state a) c.isSome).reportEnd c true) := by
  refine ((goodReply_telling _ _ _ _).trans (reportEnd_replied_telling _ c)).completionJudged ?_
  refine reportEnd_going _ c true ?_
  obtain ⟨v, hv⟩ := readback_settled (s.storeUnit i (u.answered (.state a))) i a (u.restartedBy a.boot) c.isSome
  obtain ⟨-, -, noticed, -⟩ := noticeUnit_keeps v.settleDelivery (decide ((u.answered (.state a)).noticed ≠ u.noticed))
  rw [goodReply_sign hu ho, hv, noticed]
  exact settleDelivery_going v

end

/-! ## The reply as a whole -/

/-- R120: once a reply has ended its line's transaction no command of a site waits, where none but those in progress was
there. -/
theorem waitingOf_replied {s : State} {i : Nat} (h : s.NoneWaits i) (l : LineId) :
    (s.setLine l ((s.line l).replied s.now)).waitingOf i = none := by
  have queue : ((s.line l).replied s.now).queue = (s.line l).endTransaction.queue := by
    unfold LineRec.replied LineRec.endTransaction
    dsimp only
    rw [LineRec.activity_eq]
  have ended := waitingOf_endTransaction h l
  unfold State.waitingOf LineRec.waitingFor at ended ⊢
  rw [State.setLine_line] at ended ⊢
  have same : (s.setLine l ((s.line l).replied s.now)).siteLine i = (s.setLine l (s.line l).endTransaction).siteLine i := rfl
  rw [same]
  split at ended
  · rename_i hl
    rw [if_pos hl, queue]
    exact ended
  · rename_i hl
    rw [if_neg hl]
    exact ended

/-- What the event makes of a state. -/
def State.afterReply (s : State) (l : LineId) (x : Transaction) (r : FieldReply) : State :=
  ((s.setLine l ((s.line l).replied s.now)).goodReply x.unit r x.command.isSome).reportEnd x.command true

theorem afterReply_handing (s : State) (l : LineId) (x : Transaction) (r : FieldReply) :
    Handing (s.setLine l ((s.line l).replied s.now)) (s.afterReply l x r) :=
  (goodReply_handing _ _ _ _).trans (reportEnd_handing _ _ _)

theorem afterReply_poll {s : State} {l : LineId} {x : Transaction} (h : x.command = none) (r : FieldReply) :
    s.afterReply l x r = (s.setLine l ((s.line l).replied s.now)).goodReply x.unit r false := by
  unfold State.afterReply
  rw [h]
  rfl

theorem afterReply_set {s : State} {l : LineId} {x : Transaction} {c : SetCommand} (h : x.command = some c)
    (r : FieldReply) : s.afterReply l x r =
      ((s.setLine l ((s.line l).replied s.now)).goodReply x.unit r true).setEnded c true := by
  unfold State.afterReply
  rw [h]
  rfl

/-- What a STATE brings the site of its sign. -/
theorem afterReply_sign {s : State} (l : LineId) {x : Transaction} {u : UnitRec} (hu : s.unit x.unit = some u)
    (ho : u.owner = .sign x.unit) (a : StateReply) {r : SiteRecord} {d : DeliverySite}
    (hr : s.store.site x.unit = some r) (hd : s.site x.unit = some d) :
    SignReply s (s.afterReply l x (.state a)) x u a x.unit r d := by
  have unit : (s.setLine l ((s.line l).replied s.now)).unit x.unit = some u := hu
  have record : (s.setLine l ((s.line l).replied s.now)).store.site x.unit = some r := hr
  have site : (s.setLine l ((s.line l).replied s.now)).site x.unit = some d := hd
  obtain ⟨f, hf, sign⟩ := signReply_images unit ho record site a x.command
  constructor
  case elements => exact signReply_elements unit ho record site a x
  case handed => exact fun hc v hv hn => signReply_handed unit ho record a hc hv hn
  case noticed => exact fun v hv hn p hp => signReply_noticed unit record a x.command hv hn p hp
  case readback =>
    have read : f.applied = some a.applied ∧ f.confirmed = (d.read a r).confirmed := by
      cases h : u.restartedBy a.boot <;> rw [h] at sign <;> exact ⟨sign.applied, sign.confirmed⟩
    exact ⟨f, hf, read.1, fun e => by rw [read.2]; exact read_lookup d a r e⟩
  case forgotten =>
    intro h
    rw [(restartedBy_iff _ _).2 h] at sign
    exact ⟨f, hf, sign.commanded⟩
  case confirmed =>
    exact fun hn ht k p hp hq ha h => signReply_confirmed unit ho record site hn ht hp hq ha h
  case mismatch =>
    intro hn _ hi hw c p hx hc hp hs he hz
    rw [afterReply_set hx]
    exact signReply_mismatch unit ho record site hn hi (waitingOf_replied hw l) hc hp hs he hz
  case second =>
    intro hn ht hi hw c p hx hc hp hs he hz hall
    rw [afterReply_set hx]
    exact signReply_second unit ho record site hn ht hi (waitingOf_replied hw l) hc hp hs he hz hall
  case drift =>
    intro hn ht hx hm hs hi hp he
    rw [afterReply_poll hx]
    exact signReply_drift unit ho record site hn ht hm hs hi hp he
  case noDrift => exact fun h => signReply_noDrift unit ho h
  case completion => exact (signReply_completion unit ho a x.command).of_same rfl rfl

/-- What a DATA brings the station of its outstation. -/
theorem afterReply_station {s : State} (l : LineId) {x : Transaction} {u : UnitRec} (hu : s.unit x.unit = some u)
    {k : Nat} (ho : u.owner = .outstation k) (a : DataReply) {r : StationRecord} {y : Station}
    (hr : s.store.station k = some r) (hy : s.station k = some y) :
    StationReply s (s.afterReply l x (.data a)) u a k r y := by
  have reply : StationReply (s.setLine l ((s.line l).replied s.now)) (s.afterReply l x (.data a)) u a k r y :=
    stationReply (s := s.setLine l ((s.line l).replied s.now)) hu ho a x.command.isSome x.command hr hy
  refine ⟨reply.unused, reply.returns, reply.baseline, reply.rejected, fun hs hn b hb hl hh => ?_⟩
  obtain ⟨samples, length, lanes, handed, noticed⟩ := reply.sampled hs hn b hb hl hh
  exact ⟨samples, length, lanes, handed.of_side (setLine_side _ _ _), noticed⟩

/-- R128 to R130, R132 and R139: the unit of the reply. -/
theorem afterReply_unit {s : State} (l : LineId) {x : Transaction} {u : UnitRec} (hu : s.unit x.unit = some u)
    (r : FieldReply) : ∃ v, (s.afterReply l x r).unit x.unit = some v ∧ v.standing = (u.answered r).standing := by
  have standing := reportEnd_replied_standing ((s.setLine l ((s.line l).replied s.now)).goodReply x.unit r x.command.isSome)
    x.command x.unit
  rw [goodReply_unit (s := s.setLine l ((s.line l).replied s.now)) hu, if_pos rfl] at standing
  obtain ⟨v, hv, same⟩ := Option.map_eq_some_iff.1 standing
  exact ⟨v, hv, same⟩

/-- R139. -/
theorem afterReply_noticed {s : State} (l : LineId) {x : Transaction} {u : UnitRec} (hu : s.unit x.unit = some u)
    {r : FieldReply} (hn : (u.answered r).state ≠ u.state) (p : Port) (hp : (s.port p).authority ≠ .disabled) :
    ((s.afterReply l x r).port p).flags &&& Notice.unit.flag = Notice.unit.flag :=
  (reportEnd_replied_telling _ x.command).flags p .unit (goodReply_noticed (s := s.setLine l ((s.line l).replied s.now)) hu r
    x.command.isSome (fun h => hn (congrArg Prod.fst h)) p hp)

/-- No other unit's state or count changes. -/
theorem afterReply_others {s : State} (l : LineId) {x : Transaction} {u : UnitRec} (hu : s.unit x.unit = some u)
    (r : FieldReply) {j : Nat} (hj : j ≠ x.unit) :
    ((s.afterReply l x r).unit j).map UnitRec.standing = (s.unit j).map UnitRec.standing := by
  refine (reportEnd_replied_standing _ x.command j).trans ?_
  rw [goodReply_unit (s := s.setLine l ((s.line l).replied s.now)) hu, if_neg hj]
  rfl

end Sys2Proof.Machine

open Sys2Proof Sys2Proof.Machine

/-- Settles O50: the reply is taken by its unit, then by its site or station, and delivery ends the SET. -/
theorem validReplyTakenByUnit : Obligations.ValidReplyTakenByUnit := by
  intro l frame x u r s hw hs hu hr
  have handing := afterReply_handing s l x r
  obtain ⟨v, hv, standing⟩ := afterReply_unit l hu r
  obtain ⟨-, boot, misses, restarts⟩ := answered_fields u r
  obtain ⟨-, early, late, up, suspect, lost⟩ := answered_states u r
  refine ⟨s.afterReply l x r, exec_validReply hw hs hu hr, side_of_handing handing, ⟨_, idle_of_handing handing ?_, ?_⟩,
    ⟨v, hv, ?_⟩, fun a y d ha ho hy hd => by subst ha; exact afterReply_sign l hu ho a hy hd,
    fun a k y z ha ho hy hz => by subst ha; exact afterReply_station l hu ho a hy hz,
    fun j hj => afterReply_others l hu r hj⟩
  · exact LineRec.endTransaction_idle ((s.line l).activity s.now)
  · exact (line_of_handing handing).1
  · simp only [UnitRec.standing, Prod.mk.injEq] at standing
    obtain ⟨state, good, miss, boot', misses', restarts'⟩ := standing
    rw [state, good, miss, boot', misses', restarts']
    exact ⟨boot, misses, restarts, early, late, up, suspect, lost, fun hn p hp => afterReply_noticed l hu hn p hp⟩
end

section
/-! SUPPORT. READ_DELIVERY: the free value a last completion of none draws, the range, and the payload of R176 (R160). -/

namespace Sys2Proof.Machine

/-! ## The free value of a last completion of none (log entry 4) -/

/-- Reporting a last completion changes the count of free values alone, and that only for none. -/
theorem drawCompletion_eq (s : State) : s.drawCompletion =
    { s with drawn := if s.delivery.completion = none then s.drawn + 1 else s.drawn } := by
  unfold State.drawCompletion
  cases hc : s.delivery.completion <;> simp [State.draw]

/-- A permitted command that changes the count of free values alone, and is answered. -/
theorem permitted_draws {s : State} {p : Port} {code seq : Byte} {needed : Authority} {body : CommandBody}
    {a : Answer} {n : Nat} (h : s.serving p = true) (ha : needed.rank ≤ (s.port p).authority.rank)
    (hb : body (s.setPort p (s.dispatched p code seq)) =
      ({ s.setPort p (s.dispatched p code seq) with drawn := n }, some a)) :
    s.takeFrame p code seq (judged p needed true body) =
      { s.setPort p (s.answered p code seq a) with drawn := n } := by
  have sender : (s.setPort p (s.dispatched p code seq)).port p = s.dispatched p code seq := by
    rw [State.setPort_port, if_pos rfl]
  exact (permitted_answered h ha hb sender).trans
    (congrArg (fun t : State => { t with drawn := n }) (State.setPort_setPort s p _ _))

/-! ## The range (R160) -/

theorem exec_readDelivery (p : Port) (seq first last : Byte) (s : State) :
    exec (.readDelivery p seq [first, last]) s =
      .next (s.takeFrame p 0x07 seq (judged p .monitor true (readDeliveryBody first.toNat last.toNat))) := rfl

/-- Outside UNCONFIGURED a pair out of order, above 31 or from N on is refused. -/
theorem deliveryRefused_iff (n first last : Nat) : (!spanGood 31 first last || decide (n ≤ first)) = true ↔
    last < first ∨ 31 < last ∨ n ≤ first := by
  have bad : ¬ (first ≤ last ∧ last ≤ 31) ↔ last < first ∨ 31 < last := by omega
  simp only [spanGood, Bool.or_eq_true, Bool.not_eq_true', decide_eq_true_eq, decide_eq_false_iff_not, bad, or_assoc]

section
variable {s : State} {first last : Nat}

theorem readDeliveryBody_unconfigured (hm : s.mode = .unconfigured) :
    readDeliveryBody first last s = (s.drawCompletion, some (.ok, s.deliveryBytes [])) := if_pos hm

theorem readDeliveryBody_badRange (hm : s.mode ≠ .unconfigured)
    (bad : last < first ∨ 31 < last ∨ s.store.siteCount ≤ first) :
    readDeliveryBody first last s = (s, some (.badRange, [])) :=
  (if_neg hm).trans (if_pos ((deliveryRefused_iff _ _ _).2 bad))

/-- A pair that passes lists its sites, CLAMPED where the last lies beyond N-1. -/
theorem readDeliveryBody_lists (hm : s.mode ≠ .unconfigured) (order : first ≤ last) (inside : last ≤ 31)
    (start : first < s.store.siteCount) : readDeliveryBody first last s = (s.drawCompletion,
      some (if last < s.store.siteCount then .ok else .clamped,
        s.deliveryBytes (deliverySites s.store.siteCount first last))) := by
  have passes : ¬ (!spanGood 31 first last || decide (s.store.siteCount ≤ first)) = true := by
    rw [deliveryRefused_iff]
    omega
  have clamp : clampReason (decide (s.store.siteCount ≤ last)) =
      if last < s.store.siteCount then .ok else .clamped := by
    unfold clampReason
    by_cases within : last < s.store.siteCount <;> simp [within]
  rw [← clamp]
  exact (if_neg hm).trans (if_neg passes)

end

/-! ## The payload (R176) -/

theorem eightBytes_length (r : SiteRecord) (unset : Byte) (m : Image) : (eightBytes r unset m).length = 8 :=
  List.length_map _

theorem partPlaceBytes_length (kind : Byte) (x : Option Part) : (partPlaceBytes kind x).length = 4 := by
  cases x <;> rfl

/-- R176: a READ_DELIVERY record takes 37 bytes. -/
theorem deliveryRecordBytes_length (d : DeliverySite) (i : Nat) (r : SiteRecord) :
    (deliveryRecordBytes d i r).length = 37 := by
  have first : (if d.darkening.isSome then partPlaceBytes 2 d.darkening else partPlaceBytes 0 d.tightening).length =
      4 := by
    split <;> exact partPlaceBytes_length _ _
  simp only [deliveryRecordBytes, List.length_append, eightBytes_length, first, partPlaceBytes_length, List.length_cons,
    List.length_nil]

/-- R176: the head of a READ_DELIVERY takes 15 bytes, with four of them free for a last completion of none. -/
theorem deliveryPayload_length {s : State} {free : List Byte} (hf : free.length = 4) {sites : List Nat}
    (h : ∀ i ∈ sites, s.site i ≠ none ∧ s.store.site i ≠ none) :
    (deliveryPayload s free sites).length = 15 + 37 * sites.length := by
  unfold deliveryPayload
  refine (length_append_flatMap _ sites _ 37 fun i hi => ?_).trans ?_
  · obtain ⟨hd, hr⟩ := h i hi
    obtain ⟨d, hd⟩ := Option.ne_none_iff_exists'.1 hd
    obtain ⟨r, hr⟩ := Option.ne_none_iff_exists'.1 hr
    rw [hd, hr]
    exact deliveryRecordBytes_length d i r
  · cases s.delivery.completion <;> simp [be16, hf]

/-- The five bytes after the abandoned count report the last completion there is. -/
theorem deliveryPayload_completion {s : State} {c : Completion} (hc : s.delivery.completion = some c)
    (free : List Byte) :
    ((deliveryPayload s free []).drop 10).take 5 = byte c.target.code :: (be16 c.epoch ++ be16 c.abandoned) := by
  unfold deliveryPayload
  rw [hc]
  obtain ⟨target, epoch, abandoned⟩ := c
  cases target <;> rfl

end Sys2Proof.Machine

open Sys2Proof Sys2Proof.Machine

/-- Settles O24: a READ_DELIVERY is answered by its range, and draws a free value where no delivery has completed. -/
theorem readDeliveryListsRange : Obligations.ReadDeliveryListsRange := by
  intro p seq first last s h n listed drawn
  have listing {t : State} (ht : t = s.setPort p (s.dispatched p 0x07 seq)) {reason : Reason} {sites : List Nat}
      (hb : readDeliveryBody first.toNat last.toNat t = (t.drawCompletion, some (reason, t.deliveryBytes sites))) :
      exec (.readDelivery p seq [first, last]) s = .next { s.setPort p (s.answered p 0x07 seq
        (reason, deliveryPayload s (be32 (Config.noCompletion s.drawn).toNat) sites)) with drawn := drawn } := by
    rw [drawCompletion_eq, deliveryBytes_eq] at hb
    subst ht
    exact (exec_readDelivery p seq first last s).trans (congrArg _ (permitted_draws h (monitor_le h) hb))
  refine ⟨be32 (Config.noCompletion s.drawn).toNat, rfl, fun hm => ?_, fun hm bad => ?_,
    fun hm order inside start => ?_, fun sites hs => deliveryPayload_length rfl hs,
    fun c hc => deliveryPayload_completion hc _⟩
  · exact listing rfl (readDeliveryBody_unconfigured hm)
  · exact (exec_readDelivery p seq first last s).trans
      (congrArg _ (permitted_refused h (monitor_le h) (readDeliveryBody_badRange hm bad)))
  · exact listing rfl (readDeliveryBody_lists hm order inside start)
end

section
/-! SUPPORT. The release of a reset, and the ports becoming ready 20 ms after it (R44, R161, R162, R184). -/

namespace Sys2Proof.Machine

/-- R161: the release of a reset leaves every block at its reset values. -/
theorem release_values (s : State) : ResetValues s.release :=
  { afterReset_values s.now (.settling (s.now + Config.settleTime)) s.cause usualStraps s.drawn s.pending with
    ports := fun p => by
      rw [release_port]
      exact ⟨rfl, rfl, rfl, rfl, rfl, rfl, rfl, rfl, rfl, rfl, rfl⟩ }

/-- R162: no port hears before the ports are ready. -/
theorem hears_of_unready {s : State} (h : s.phase ≠ .ready) (p : Port) : s.hears p = false :=
  Bool.eq_false_iff.2 fun hh => h ((hears_iff s p).1 hh).1

/-- R44, R184: the record of an enabled port that becomes ready. -/
theorem readied_enabled (s : State) (p : Port) {r : PortRec} (h : r.authority ≠ .disabled) :
    s.readied p r = { r with flags := 0x80, deadline := some (s.now + s.param (keepWindowId p) * 1000) } := by
  have enabled := r.enabled_iff.2 h
  unfold State.readied PortRec.resetAlone
  rw [if_pos enabled, if_pos enabled]
  rfl

/-- R42: a DISABLED port stands as it is when the others become ready. -/
theorem readied_disabled (s : State) (p : Port) {r : PortRec} (h : r.authority = .disabled) : s.readied p r = r :=
  if_neg fun enabled => r.enabled_iff.1 enabled h

/-- R162: the ports become ready at the end of the 20 ms. -/
theorem readyDue_settling {s : State} {d : Nat} (h : s.phase = .settling d) : s.readyDue = decide (d ≤ s.now) := by
  unfold State.readyDue
  rw [h]

end Sys2Proof.Machine

open Sys2Proof Sys2Proof.Machine

/-- Settles O8: the release leaves the reset values, and each enabled port's record becomes ready when the 20 ms have
passed. -/
theorem releaseThenPortsReady : Obligations.ReleaseThenPortsReady := by
  intro s
  refine ⟨fun held => ?_, fun other => congrArg Host.Outcome.next (if_neg other), fun d settling => ⟨fun due => ?_,
    fun early => ?_⟩⟩
  · have unready : s.release.phase ≠ .ready := fun h => nomatch h
    refine ⟨s.release, congrArg Host.Outcome.next (if_pos held), release_values s, rfl, rfl, fun p =>
      ⟨hears_of_unready unready p, ?_⟩⟩
    rw [release_port]
    rfl
  · have ready : s.readyDue = true := (readyDue_settling settling).trans (decide_eq_true due)
    refine ⟨s.madeReady, (exec_portsReady s).trans (congrArg Host.Outcome.next (if_pos ready)), rfl, fun p => ?_⟩
    rw [madeReady_port]
    exact ⟨readied_disabled s p, readied_enabled s p⟩
  · have waits : ¬ s.readyDue = true := by
      rw [readyDue_settling settling, decide_eq_true_eq]
      exact Nat.not_le.2 early
    exact (exec_portsReady s).trans (congrArg Host.Outcome.next (if_neg waits))
end

section
/-! SUPPORT. The MODE notice that a change of mode sets, and the operations that leave the mode or set it (R161). -/

namespace Sys2Proof.Machine

/-! ## A change of mode is noticed -/

/-- R161: the mode stays, or the MODE notice stands at every port that is not DISABLED. -/
def ModeNoticed (s t : State) : Prop :=
  t.mode = s.mode ∨ ∀ p, (t.port p).authority ≠ .disabled → (t.port p).flags &&& Notice.mode.flag = Notice.mode.flag

/-- No flag is cleared, and a change of mode is noticed. -/
structure ModeTold (s t : State) : Prop where
  telling : Telling s t
  noticed : ModeNoticed s t

theorem ModeNoticed.refl (s : State) : ModeNoticed s s := .inl rfl

/-- What comes before without a change of mode does not matter. -/
theorem ModeNoticed.before {s t u : State} (h : t.mode = s.mode) (g : ModeNoticed t u) : ModeNoticed s u := by
  unfold ModeNoticed at g ⊢
  rwa [h] at g

/-- A notice set stands while no flag is cleared. -/
theorem ModeNoticed.told {s t u : State} (h : ModeNoticed s t) (g : ModeTold t u) : ModeNoticed s u := by
  rcases h with h | h
  · exact g.noticed.before h
  · exact .inr fun p hp => g.telling.flags p .mode (h p (by rwa [← g.telling.authority p]))

/-- The same ports and the same mode as after a step that is noticed. -/
theorem ModeNoticed.same {s t u : State} (h : ModeNoticed s t) (hm : u.mode = t.mode)
    (hp : ∀ p, (u.port p).authority = (t.port p).authority ∧ (u.port p).flags = (t.port p).flags) : ModeNoticed s u := by
  rcases h with h | h
  · exact .inl (hm.trans h)
  · refine .inr fun p ha => ?_
    obtain ⟨authority, flags⟩ := hp p
    rw [flags]
    exact h p (by rwa [← authority])

theorem ModeNoticed.ite {b : Prop} [Decidable b] {s t : State} (h : ModeNoticed s t) :
    ModeNoticed s (if b then t else s) := by
  split
  · exact h
  · exact .refl s

theorem ModeTold.refl (s : State) : ModeTold s s := ⟨.refl s, .refl s⟩

theorem ModeTold.trans {s t u : State} (h : ModeTold s t) (g : ModeTold t u) : ModeTold s u :=
  ⟨h.telling.trans g.telling, h.noticed.told g⟩

theorem PartsOnly.modeTold {s t : State} (h : PartsOnly s t) : ModeTold s t := ⟨h.telling, .inl h.mode⟩

/-- R161: a change of mode sets its notice. -/
theorem changeMode_noticed (s : State) (m : Mode) : ModeNoticed s (s.changeMode m) :=
  .inr fun p hp => by
    rw [State.changeMode_port, PortRec.raise_authority] at hp
    rw [State.changeMode_port]
    exact PortRec.raise_flag _ _ ((PortRec.enabled_iff _).2 hp)

/-! ## Delivery -/

/-- R167: the end of a darkening delivery sets the notice. -/
theorem enterShadow_noticed (s : State) : ModeNoticed s s.enterShadow :=
  .inr fun p hp => by
    have port : s.enterShadow.port p = (({ s with mode := .shadow } : State).notifyAll .mode).port p :=
      congrArg (PerPort.get · p) (enterShadow_ports s)
    rw [port, State.notifyAll_port, PortRec.raise_authority] at hp
    rw [port]
    exact notifyAll_flag _ _ p hp

theorem judgeCompletion_modeTold (s : State) : ModeTold s s.judgeCompletion := by
  refine ⟨judgeCompletion_telling s, ?_⟩
  cases ht : s.delivery.target with
  | plan =>
    rcases judgeCompletion_cases s ht with ⟨h, -⟩ | ⟨-, h⟩ <;> rw [h]
    · exact .refl s
    · exact .inl rfl
  | dark =>
    unfold State.judgeCompletion
    refine ModeNoticed.ite ?_
    rw [ht]
    exact (enterShadow_noticed _).before rfl

theorem settleDelivery_modeTold (s : State) : ModeTold s s.settleDelivery :=
  (judgeReleases_parts s).modeTold.trans (judgeCompletion_modeTold _)

theorem setStarted_modeTold (s : State) (c : SetCommand) : ModeTold s (s.setStarted c) :=
  (modifySite_parts _ _ _).modeTold.trans (settleDelivery_modeTold _)

theorem drift_modeTold (s : State) : ModeTold s { s with delivery := s.delivery.drift } :=
  ⟨(drift_turn s).telling, .inl rfl⟩

/-- A readback taken (R144, R150, R153, R154). -/
theorem readback_modeTold (s : State) (i : Nat) (a : StateReply) (b c : Bool) : ModeTold s (s.readback i a b c) := by
  have shown : ModeTold s (s.shown i a) :=
    ((takeReadback_parts s i a).trans (confirm_parts _ i)).modeTold.trans (settleDelivery_modeTold _)
  cases b with
  | true =>
    rw [readback_restarted]
    have first := ((takeReadback_parts s i a).trans (modifySite_parts _ i fun d => d.forget)).trans (confirm_parts _ i)
    exact (first.modeTold.trans (settleDelivery_modeTold _)).trans
      ((reform_parts _ i).modeTold.trans (settleDelivery_modeTold _))
  | false =>
    rw [readback_kept]
    split
    · exact (shown.trans (drift_modeTold _)).trans ((reform_parts _ i).modeTold.trans (settleDelivery_modeTold _))
    · exact shown

theorem storeUnit_modeTold (s : State) (i : Nat) (u : UnitRec) : ModeTold s (s.storeUnit i u) := by
  obtain ⟨-, -, -, -, -, mode, -⟩ := storeUnit_keeps s i u
  exact ⟨storeUnit_telling s i u, .inl mode⟩

theorem noticeUnit_modeTold (s : State) (b : Bool) : ModeTold s (s.noticeUnit b) := by
  refine ⟨noticeUnit_telling s b, .inl ?_⟩
  unfold State.noticeUnit
  split <;> rfl

theorem endPart_modeTold (s : State) (i : Nat) (k : PartKind) (b : Bool) : ModeTold s (s.endPart i k b) := by
  cases b with
  | false => exact (endPart_missed_parts s i k).modeTold
  | true =>
    rcases endPart_replied_cases s i k with ⟨h, -⟩ | ⟨d, p, -, -, -, ⟨-, h⟩ | ⟨-, h⟩⟩ <;> rw [h]
    · exact .refl s
    · exact (modifySite_parts _ _ _).modeTold
    · refine ModeTold.trans ?_ (abandon_parts _ _ _ _ _).modeTold
      rcases reportMismatch_cases s i (d.disagreeing p) with h | ⟨u, r, -, -, h⟩ <;> rw [h]
      · exact .refl s
      · exact (storeUnit_modeTold _ _ _).trans (noticeUnit_modeTold _ _)

/-- The end of a SET reported to delivery (R151). -/
theorem reportEnd_modeTold (s : State) (c : Option SetCommand) (b : Bool) : ModeTold s (s.reportEnd c b) := by
  cases c with
  | none => exact .refl s
  | some c =>
    show ModeTold s (s.setEnded c b)
    have landed : PartsOnly s (s.landed c.site) := modifySite_parts _ _ _
    rcases setEnded_cases s c b with h | h | h <;> rw [h]
    · exact .refl s
    · exact settleDelivery_modeTold s
    · exact ((landed.modeTold.trans (endPart_modeTold _ _ _ _)).trans (reformIfDiffering_parts _ _).modeTold).trans
        (settleDelivery_modeTold _)

/-! ## Queue protection and the unit table -/

theorem OnlyTable.mode {s t : State} (h : OnlyTable s t) : t.mode = s.mode := (SameConfig.of_onlyTable h).mode

theorem handStation_mode (s : State) (k : Nat) : (s.handStation k).mode = s.mode := by
  unfold State.handStation
  split
  · rfl
  · exact (handQp_onlyTable _ _ _).mode

theorem noticeStation_mode (s : State) (a b : StationState) : (s.noticeStation a b).mode = s.mode := by
  unfold State.noticeStation
  split <;> rfl

theorem stationUnitChanged_mode (s : State) (k : Nat) (a b : UnitState) :
    (s.stationUnitChanged k a b).mode = s.mode := by
  unfold State.stationUnitChanged
  split
  · rfl
  split
  · split <;> rfl
  · rfl
  · dsimp only
    split
    · exact noticeStation_mode _ _ _
    · exact (handStation_mode _ _).trans (noticeStation_mode _ _ _)

theorem dataReply_mode (s : State) (k : Nat) (a : DataReply) (st : UnitState) (b : Bool) :
    (s.dataReply k a st b).mode = s.mode := by
  rcases dataReply_cases s k a st b with h | ⟨x, h⟩ | ⟨x, y, h⟩ <;> rw [h]
  · rfl
  · exact (handStation_mode _ _).trans (noticeStation_mode _ _ _)

theorem unitChanged_modeTold (s : State) (o : UnitOwner) (a b : UnitState) : ModeTold s (s.unitChanged o a b) := by
  refine ⟨unitChanged_telling s o a b, .inl ?_⟩
  unfold State.unitChanged
  split
  · rfl
  split
  · split
    · exact (unitLost_parts _ _).mode
    · rfl
  · exact stationUnitChanged_mode _ _ _ _

theorem handOn_modeTold (s : State) (o : UnitOwner) (st : UnitState) (r : FieldReply) (b c : Bool) :
    ModeTold s (s.handOn o st r b c) := by
  unfold State.handOn
  split
  · exact readback_modeTold _ _ _ _ _
  · exact ⟨(dataReply_telling _ _ _ _ _).1, .inl (dataReply_mode _ _ _ _ _)⟩
  · exact .refl s

/-- A good reply taken by its unit (R127). -/
theorem goodReply_modeTold (s : State) (i : Nat) (r : FieldReply) (b : Bool) : ModeTold s (s.goodReply i r b) := by
  cases hu : s.unit i with
  | none =>
    unfold State.goodReply
    rw [hu]
    exact .refl s
  | some u =>
    rw [goodReply_eq hu]
    exact (((storeUnit_modeTold _ _ _).trans (unitChanged_modeTold _ _ _ _)).trans
      (handOn_modeTold _ _ _ _ _ _)).trans (noticeUnit_modeTold _ _)

/-- A miss taken by its unit (R127). -/
theorem unitMissed_modeTold (s : State) (i : Nat) : ModeTold s (s.unitMissed i) := by
  unfold State.unitMissed
  split
  · exact .refl s
  · exact (((storeUnit_modeTold _ _ _).trans (unitChanged_modeTold _ _ _ _)).trans
      (settleDelivery_modeTold _)).trans (noticeUnit_modeTold _ _)

theorem unitsChanged_modeTold (s : State) (ch : Nat → Option (UnitOwner × UnitState × UnitState)) (xs : List Nat) :
    ModeTold s (s.unitsChanged ch xs) := by
  unfold State.unitsChanged
  induction xs generalizing s with
  | nil => exact .refl s
  | cons x xs ih =>
    refine ModeTold.trans ?_ (ih _)
    dsimp only
    split
    · exact .refl s
    · exact unitChanged_modeTold _ _ _ _

/-- A report for a line's units (R131). -/
theorem reportLine_modeTold (s : State) (l : LineId) (f : UnitRec → UnitRec) : ModeTold s (s.reportLine l f) := by
  obtain ⟨b, h⟩ := reportLine_turns s l f
  obtain ⟨us, ev, keeps, -⟩ := lineStored_keeps s l f
  have stored : ModeTold s (s.lineStored l f) := ⟨lineStored_telling s l f, .inl (by rw [keeps])⟩
  rw [h]
  exact ((stored.trans (unitsChanged_modeTold _ _ _)).trans (settleDelivery_modeTold _)).trans
    (noticeUnit_modeTold _ _)

/-! ## Field lines -/

/-- A record given to a line, and then what tells of a change of mode. -/
theorem ModeNoticed.of_line {s t : State} {l : LineId} {r : LineRec} (h : ModeTold (s.setLine l r) t) :
    ModeNoticed s t := h.noticed.before (State.setLine_mode s l r)

theorem setLine_noticed (s : State) (l : LineId) (r : LineRec) : ModeNoticed s (s.setLine l r) := .inl rfl

theorem startWork_noticed (s : State) (l : LineId) (w : Work) : ModeNoticed s (s.startWork l w) := by
  cases w with
  | retry t => exact setLine_noticed _ _ _
  | set c => exact .of_line (setStarted_modeTold _ c)
  | poll a => exact setLine_noticed _ _ _

theorem takeValidReply_noticed (s : State) (l : LineId) (t : Transaction) (r : FieldReply) :
    ModeNoticed s (s.takeValidReply l t r) :=
  .of_line ((goodReply_modeTold _ _ _ _).trans (reportEnd_modeTold _ _ _))

theorem failAttempt_noticed (s : State) (l : LineId) (t : Transaction) : ModeNoticed s (s.failAttempt l t) := by
  unfold State.failAttempt
  split
  · exact .of_line ((unitMissed_modeTold _ _).trans (reportEnd_modeTold _ _ _))
  · exact setLine_noticed _ _ _

theorem onLine_noticed (s : State) (l : LineId) (f : LineRec → LineRec) : ModeNoticed s (s.onLine l f) :=
  .ite (setLine_noticed _ _ _)

/-! ## Passes -/

/-- Completion is judged there for the plan alone, so that an epoch taken leaves the mode (R155). -/
theorem takeEpoch_mode (s : State) : s.takeEpoch.mode = s.mode := by
  cases ht : s.delivery.target with
  | dark =>
    unfold State.takeEpoch
    rw [ht]
  | plan => exact (takeEpoch_handing s).side.mode.elim And.left fun h => nomatch ht.symm.trans h.1

theorem endPass_mode (s : State) (p : Pass) : (s.endPass p).mode = s.mode := by
  unfold State.endPass
  dsimp only
  split
  · rfl
  split
  · exact takeEpoch_mode _
  · rfl

end Sys2Proof.Machine
end

section
/-! SUPPORT. What the rule of each command leaves of the mode, and that every step that changes the mode but a reset sets
the MODE notice (R161). -/

namespace Sys2Proof.Machine

/-! ## A good frame on a port -/

/-- A reply placed leaves the mode, the authorities and the flags (R173). -/
theorem carryOut_noticed {s : State} (p : Port) {body : CommandBody} (h : ModeNoticed s (body s).1) :
    ModeNoticed s (s.carryOut p body) := by
  unfold State.carryOut
  split
  · rename_i t ht
    rwa [ht] at h
  · rename_i t a ht
    rw [ht] at h
    unfold State.placeReply
    dsimp only
    split
    · exact h
    · refine h.same rfl fun q => ?_
      rw [State.setPort_port]
      split
      · subst_vars; exact ⟨rfl, rfl⟩
      · exact ⟨rfl, rfl⟩

/-- A good frame changes the mode only by its command's rule. -/
theorem takeFrame_noticed (s : State) (p : Port) (code seq : Byte) (body : CommandBody)
    (h : ∀ u, ModeNoticed u (body u).1) : ModeNoticed s (s.takeFrame p code seq body) := by
  have taken := (goodFrameTaken_onlyTable s p).mode
  cases hh : s.hears p with
  | false =>
    rw [takeFrame_unheard s p code seq body hh]
    exact .refl s
  | true =>
    rw [takeFrame_heard s p code seq body hh]
    split
    · exact .inl taken
    · exact (carryOut_noticed p (h _)).before taken

/-- A command whose rule leaves the mode. -/
theorem command_noticed (s : State) (p : Port) (code seq : Byte) (needed : Authority) (form : Bool)
    {body : CommandBody} (h : ∀ u, (body u).1.mode = u.mode) :
    ModeNoticed s (s.takeFrame p code seq (judged p needed form body)) :=
  takeFrame_noticed s p code seq _ fun u => by
    unfold judged
    split
    · exact .refl u
    split
    · exact .refl u
    · exact .inl (h u)

/-! ## Commands that every authority may send -/

theorem drawCompletion_mode (s : State) : s.drawCompletion.mode = s.mode := by
  unfold State.drawCompletion
  split <;> rfl

theorem readPlanBody_mode (first last : Nat) (s : State) : (readPlanBody first last s).1.mode = s.mode := by
  unfold readPlanBody
  dsimp only
  split
  · rfl
  · split <;> rfl

theorem readUnitsBody_mode (first last : Nat) (s : State) : (readUnitsBody first last s).1.mode = s.mode := by
  unfold readUnitsBody
  split <;> rfl

theorem readStationsBody_mode (first last : Nat) (s : State) : (readStationsBody first last s).1.mode = s.mode := by
  unfold readStationsBody
  split <;> rfl

theorem readDeliveryBody_mode (first last : Nat) (s : State) : (readDeliveryBody first last s).1.mode = s.mode := by
  unfold readDeliveryBody
  dsimp only
  split
  · exact drawCompletion_mode s
  · split
    · rfl
    · exact drawCompletion_mode s

theorem noticesBody_mode (p : Port) (s : State) : (noticesBody p s).1.mode = s.mode := drawCompletion_mode _

theorem countersBody_mode (p : Port) (request : Byte) (s : State) : (countersBody p request s).1.mode = s.mode := by
  unfold countersBody answer
  dsimp only
  split <;> rfl

/-! ## Commands of the request table -/

theorem changeTable_mode (s : State) (t : Table) : (s.changeTable t).mode = s.mode := (changeTable_onlyTable s t).mode

theorem requestBody_mode (p : Port) (r : RequestFields) (s : State) : (requestBody p r s).1.mode = s.mode := by
  unfold requestBody
  split
  · rfl
  split
  · rfl
  split
  · rfl
  split
  · rfl
  split
  · exact changeTable_mode _ _
  split
  · rfl
  split
  · rfl
  · exact changeTable_mode _ _

theorem withdrawBody_mode (p : Port) (tag : Nat) (s : State) : (withdrawBody p tag s).1.mode = s.mode := by
  unfold withdrawBody
  split
  · rfl
  split
  · rfl
  · exact changeTable_mode _ _

theorem withdrawAllBody_mode (p : Port) (s : State) : (withdrawAllBody p s).1.mode = s.mode := by
  unfold withdrawAllBody
  split
  · rfl
  · exact changeTable_mode _ _

theorem releaseBody_mode (p : Port) (requester first last : Nat) (s : State) :
    (releaseBody p requester first last s).1.mode = s.mode := by
  unfold releaseBody
  dsimp only
  split
  · rfl
  split
  · rfl
  split
  · rfl
  · unfold releaseEntries answer
    dsimp only
    split
    · exact changeTable_mode _ _
    · exact (State.notify_mode _ _ _).trans (changeTable_mode _ _)

theorem inhibitBody_mode (k seconds : Nat) (s : State) : (inhibitBody k seconds s).1.mode = s.mode := by
  unfold inhibitBody
  split
  · rfl
  split
  · rfl
  split
  · rfl
  · show (s.setInhibit _ _).mode = _
    unfold State.setInhibit
    split
    · rfl
    · exact handStation_mode _ _

/-! ## Commands of the configuration store -/

theorem geometryBody_mode {α : Type} (p : Port) (slots given : Nat) (records : List (Placed α))
    (place : Nat → List (Option α) → Store → Store) (s : State) :
    (geometryBody p slots given records place s).1.mode = s.mode := by
  unfold geometryBody
  dsimp only
  split
  · rfl
  split
  · rfl
  split
  · rfl
  split <;> rfl

theorem boundaryBody_mode (payload : List Byte) (s : State) : (boundaryBody payload s).1.mode = s.mode := by
  unfold boundaryBody
  split
  · rfl
  split <;> rfl

theorem commitBody_mode (s : State) : (commitBody s).1.mode = s.mode := by
  unfold commitBody
  split <;> rfl

theorem paramBody_mode (pairs : List (Nat × Nat)) (s : State) : (paramBody pairs s).1.mode = s.mode := by
  unfold paramBody
  split
  · rfl
  split
  · rfl
  dsimp only
  split <;> rfl

/-- R163: the end of a validation that passes sets the notice. -/
theorem endValidation_noticed (s : State) : ModeNoticed s s.endValidation.1 := by
  unfold State.endValidation
  split
  · exact .inl rfl
  · refine .inr fun p hp => ?_
    rw [begin_port, PortRec.raise_authority] at hp
    rw [begin_port]
    exact PortRec.raise_flag _ _ ((PortRec.enabled_iff _).2 hp)

/-! ## Modes and RESTART -/

/-- R164: the adoption sets the notice, and what it does to delivery clears none. -/
theorem goLive_noticed (s : State) : ModeNoticed s s.goLive := by
  have zero : ModeTold ((s.replacePlan s.adoptedPlan).changeMode .live)
      ((s.replacePlan s.adoptedPlan).changeMode .live).clearParts.wantPlan :=
    (withdraws_parts _).modeTold.trans ⟨.of_same rfl rfl rfl rfl rfl, .inl rfl⟩
  exact (((changeMode_noticed _ _).before rfl).told zero).same rfl fun _ => ⟨rfl, rfl⟩

theorem formDark_ports (s : State) : s.formDark.ports = s.ports := by
  rw [formDark_toDark, ((forSites_parts _ _ fun i t => reform_parts t i).trans (judgeReleases_parts _)).ports]
  exact (withdraws_parts s).ports

/-- R166, R167: the darkening sets the notice, also where it is over at once. -/
theorem goDark_noticed (s : State) : ModeNoticed s s.goDark := by
  obtain ⟨-, mode, -⟩ := formDark_config (s.changeMode .darkening)
  have port (p : Port) : (s.changeMode .darkening).formDark.port p = (s.changeMode .darkening).port p :=
    congrArg (PerPort.get · p) (formDark_ports _)
  have dark : ModeNoticed s (s.changeMode .darkening).formDark :=
    (changeMode_noticed s .darkening).same mode fun p => by rw [port]; exact ⟨rfl, rfl⟩
  exact dark.told (judgeCompletion_modeTold _)

theorem setModeBody_noticed (p : Port) (payload : List Byte) (s : State) :
    ModeNoticed s (setModeBody p payload s).1 := by
  show ModeNoticed s (s.judgeSetMode p payload).1
  unfold State.judgeSetMode
  split
  · exact .refl s
  split
  · exact .refl s
  split
  · exact .refl s
  · rename_i t _
    rcases setMode_cases s t with h | ⟨-, h | h⟩ <;> rw [h]
    · exact .refl s
    · exact goLive_noticed s
    · exact goDark_noticed s

theorem restartUnits_mode (s : State) : s.restartUnits.mode = s.mode := by
  obtain ⟨us, ev, keeps, -⟩ := storeWhere_keeps s (fun _ => true) UnitRec.clearMarks s.units.length
  rw [restartUnits_eq, keeps]

theorem restartPlan_mode (s : State) : s.restartPlan.mode = s.mode := by
  have zero (plan : List PlanSite) (d : DeliveryState) : ((s.replacePlan plan).takeEpochZero d).mode = s.mode :=
    (takeEpochZero_config _ d).2.1
  unfold State.restartPlan
  split
  · rfl
  · exact zero _ _
  · exact zero _ _
  · exact (formDark_config _).2.1

/-- R161, R168: a RESTART leaves the mode. -/
theorem restarted_mode (s : State) : s.restarted.mode = s.mode :=
  (restartPlan_mode _).trans ((restartUnits_mode _).trans (changeTable_mode _ _))

theorem restartBody_mode (s : State) : (restartBody s).1.mode = s.mode := by
  unfold restartBody
  split
  · rfl
  · exact restarted_mode s

/-! ## Timers -/

theorem fallSilent_mode (s : State) (p : Port) : (s.fallSilent p).mode = s.mode := by
  unfold State.fallSilent
  dsimp only
  rw [State.notifyOthers_mode]
  split
  · split
    · rw [State.notify_mode, changeTable_mode, State.setPort_mode]
    · rw [changeTable_mode, State.setPort_mode]
  · rfl

theorem notifyOwner_mode (s : State) (r : Requester) (n : Notice) : (s.notifyOwner r n).mode = s.mode := by
  cases r <;> rfl

theorem endFaultHold_mode (s : State) (x : Station) : (s.endFaultHold x).mode = s.mode := by
  unfold State.endFaultHold
  dsimp only
  split
  · exact handStation_mode _ _
  · rfl

theorem onPort_noticed (s : State) (p : Port) (f : PortRec → PortRec) : ModeNoticed s (s.onPort p f) := .ite (.inl rfl)

/-! ## Every command and event -/

/-- R161: every command and event but a reset and its release leaves the mode or sets the notice. -/
theorem exec_noticed (c : Instr) (s : State) (hr : isReset c = false) : ∃ t, exec c s = .next t ∧ ModeNoticed s t := by
  cases c with
  | powerOnReset straps => cases hr
  | pinReset straps n => cases hr
  | resetRelease => cases hr
  | portsReady => exact ⟨_, rfl, .ite (.inl rfl)⟩
  | voidTransaction p sdi => exact ⟨_, rfl, onPort_noticed _ _ _⟩
  | readTransaction p n => exact ⟨_, rfl, onPort_noticed _ _ _⟩
  | badFrame p frame => exact ⟨_, rfl, onPort_noticed _ _ _⟩
  | overrun p => exact ⟨_, rfl, .ite (.inl (goodFrameTaken_onlyTable _ _).mode)⟩
  | unknownCommand p code seq payload =>
    refine ⟨_, rfl, ?_⟩
    split
    · exact .refl s
    · exact takeFrame_noticed _ _ _ _ _ fun u => .refl u
  | status p seq payload => exact ⟨_, rfl, command_noticed _ _ _ _ _ _ fun _ => rfl⟩
  | keepalive p seq payload => exact ⟨_, rfl, command_noticed _ _ _ _ _ _ fun _ => rfl⟩
  | readPlan p seq payload => exact ⟨_, rfl, command_noticed _ _ _ _ _ _ (readPlanBody_mode _ _)⟩
  | readEntries p seq payload => exact ⟨_, rfl, command_noticed _ _ _ _ _ _ fun _ => rfl⟩
  | readUnits p seq payload => exact ⟨_, rfl, command_noticed _ _ _ _ _ _ (readUnitsBody_mode _ _)⟩
  | readStations p seq payload => exact ⟨_, rfl, command_noticed _ _ _ _ _ _ (readStationsBody_mode _ _)⟩
  | readDelivery p seq payload => exact ⟨_, rfl, command_noticed _ _ _ _ _ _ (readDeliveryBody_mode _ _)⟩
  | notices p seq payload => exact ⟨_, rfl, command_noticed _ _ _ _ _ _ (noticesBody_mode _)⟩
  | setNoticeMask p seq payload => exact ⟨_, rfl, command_noticed _ _ _ _ _ _ fun _ => rfl⟩
  | counters p seq payload => exact ⟨_, rfl, command_noticed _ _ _ _ _ _ (countersBody_mode _ _)⟩
  | request p seq payload => exact ⟨_, rfl, command_noticed _ _ _ _ _ _ (requestBody_mode _ _)⟩
  | withdraw p seq payload => exact ⟨_, rfl, command_noticed _ _ _ _ _ _ (withdrawBody_mode _ _)⟩
  | withdrawAll p seq => exact ⟨_, rfl, command_noticed _ _ _ _ _ _ (withdrawAllBody_mode _)⟩
  | release p seq payload => exact ⟨_, rfl, command_noticed _ _ _ _ _ _ (releaseBody_mode _ _ _ _)⟩
  | inhibitQp p seq payload => exact ⟨_, rfl, command_noticed _ _ _ _ _ _ (inhibitBody_mode _ _)⟩
  | geometryWrite p seq payload => exact ⟨_, rfl, command_noticed _ _ _ _ _ _ (geometryBody_mode _ _ _ _ _)⟩
  | stationWrite p seq payload => exact ⟨_, rfl, command_noticed _ _ _ _ _ _ (geometryBody_mode _ _ _ _ _)⟩
  | boundaryWrite p seq payload => exact ⟨_, rfl, command_noticed _ _ _ _ _ _ (boundaryBody_mode _)⟩
  | commit p seq payload => exact ⟨_, rfl, command_noticed _ _ _ _ _ _ commitBody_mode⟩
  | paramSet p seq payload => exact ⟨_, rfl, command_noticed _ _ _ _ _ _ (paramBody_mode _)⟩
  | setModeLive p seq payload => exact ⟨_, rfl, takeFrame_noticed _ _ _ _ _ (setModeBody_noticed _ _)⟩
  | setModeShadow p seq payload => exact ⟨_, rfl, takeFrame_noticed _ _ _ _ _ (setModeBody_noticed _ _)⟩
  | restart p seq payload => exact ⟨_, rfl, command_noticed _ _ _ _ _ _ restartBody_mode⟩
  | commitValidationEnd =>
    refine ⟨_, rfl, .ite ?_⟩
    split
    · exact endValidation_noticed s
    · exact carryOut_noticed _ (body := fun u => (u.endValidation.1, some u.endValidation.2)) (endValidation_noticed s)
  | portSilent p => exact ⟨_, rfl, .ite (.inl (fallSilent_mode _ _))⟩
  | entryExpiry slot =>
    refine ⟨_, rfl, ?_⟩
    split
    · exact .refl s
    · exact .ite (.inl ((notifyOwner_mode _ _ _).trans (changeTable_mode _ _)))
  | holdDeadlineExpiry => exact ⟨_, rfl, .ite (.inl rfl)⟩
  | passStart => exact ⟨_, rfl, .ite (.inl rfl)⟩
  | passEnd =>
    refine ⟨_, rfl, ?_⟩
    split
    · exact .refl s
    · exact .inl (endPass_mode _ _)
  | faultHoldExpiry k =>
    refine ⟨_, rfl, ?_⟩
    split
    · exact .refl s
    · exact .ite (.inl (endFaultHold_mode _ _))
  | inhibitExpiry k =>
    refine ⟨_, rfl, ?_⟩
    split
    · exact .refl s
    · exact .ite (.inl (handStation_mode _ _))
  | lineQuiet l cut => exact ⟨_, rfl, .ite (setLine_noticed _ _ _)⟩
  | frameStart l =>
    refine ⟨_, rfl, ?_⟩
    split
    · exact .refl s
    · exact startWork_noticed _ _ _
  | frameSent l => exact ⟨_, rfl, onLine_noticed _ _ _⟩
  | validReply l frame =>
    refine ⟨_, rfl, ?_⟩
    split
    · exact takeValidReply_noticed _ _ _ _
    · exact .refl s
  | replyFrameError l frame =>
    refine ⟨_, rfl, ?_⟩
    split
    · exact setLine_noticed _ _ _
    · exact setLine_noticed _ _ _
    · exact .refl s
  | invertedReply l => exact ⟨_, rfl, .ite (setLine_noticed _ _ _)⟩
  | falseActivity l frame =>
    refine ⟨_, rfl, ?_⟩
    split
    · exact onLine_noticed _ _ _
    · split
      · exact setLine_noticed _ _ _
      · exact .refl s
  | replyWindowEnd l =>
    refine ⟨_, rfl, ?_⟩
    split
    · exact .refl s
    · exact .ite (failAttempt_noticed _ _ _)
  | lineJam l => exact ⟨_, rfl, .ite (.of_line (reportLine_modeTold _ _ _))⟩
  | jamContinues l => exact ⟨_, rfl, .ite (.of_line (reportLine_modeTold _ _ _))⟩
  | lineUnjam l => exact ⟨_, rfl, .ite (setLine_noticed _ _ _)⟩
  | pollCycleStart l =>
    refine ⟨_, rfl, ?_⟩
    split
    · exact .refl s
    · exact setLine_noticed _ _ _
  | lineActivity l => exact ⟨_, rfl, onLine_noticed _ _ _⟩

end Sys2Proof.Machine

open Sys2Proof Sys2Proof.Machine

/-- Settles O6: each command and event leaves the mode or sets the notice, and none clears it again in the same step. -/
theorem modeChangeSetsNotice : Obligations.ModeChangeSetsNotice := by
  intro c s t hr h changed
  obtain ⟨u, hu, noticed⟩ := exec_noticed c s hr
  cases hu.symm.trans h
  exact noticed.resolve_left changed
end

section
/-! SUPPORT. Epoch 0 taken by delivery (R143, R155): what it makes of the sites and the SET queues, and what it leaves. -/

namespace Sys2Proof.Machine

/-! ## The sites of a state -/

/-- What two states' sites have in common slot by slot their lists have. -/
theorem sites_map_congr {α : Type} {s t : State} {f g : DeliverySite → α}
    (h : ∀ i, (t.site i).map f = (s.site i).map g) : t.delivery.sites.map f = s.delivery.sites.map g :=
  List.ext_getElem? fun i => by
    rw [List.getElem?_map, List.getElem?_map]
    exact h i

/-- Every record of the list stands at some site. -/
theorem site_of_mem {s : State} {d : DeliverySite} (h : d ∈ s.delivery.sites) : ∃ i, s.site i = some d :=
  List.mem_iff_getElem?.1 h

/-! ## Parts cleared (R155, R158) -/

/-- Every queued command withdrawn and every part gone, whatever the site wants. -/
theorem clearParts_site (s : State) (i : Nat) (w : Image) :
    (s.clearParts.site i).map (fun d => { d with wanted := w }) =
      (s.site i).map fun d => { s.darkStart i d with wanted := w } := by
  cases hd : s.site i with
  | none =>
    have none_left := (withdraws_parts s).site_none i hd
    unfold State.clearParts
    rw [mapSites_site, none_left]
    rfl
  | some d =>
    have dark : (s.clearParts.site i).map (fun d => { d with wanted := darkImage (s.store.elements i) }) =
        some (s.darkStart i d) :=
      (mapSites_site s.clearParts (fun i d => { d with wanted := darkImage (s.store.elements i) }) i).symm.trans
        (toDark_site s i d hd)
    obtain ⟨x, hx, same⟩ := Option.map_eq_some_iff.1 dark
    rw [hx, Option.map_some, Option.map_some, ← same]

/-- Delivery's counts, its epoch and its record of the last completion stay. -/
theorem clearParts_delivery (s : State) : s.clearParts.delivery = { s.delivery with
    sites := s.clearParts.delivery.sites, abandoned := s.clearParts.delivery.abandoned } := by
  have parts := (withdraws_parts s).delivery
  rw [withdraws_counts s] at parts
  unfold State.clearParts State.mapSites
  dsimp only
  rw [parts]

/-! ## Epoch 0 (R155) -/

/-- Nothing but delivery and the SET queues differs. -/
theorem takeEpochZero_eq (s : State) (d : DeliveryState) : s.takeEpochZero d =
    { s with delivery := (s.takeEpochZero d).delivery, lines := (s.takeEpochZero d).lines } := by
  have parts := (withdraws_parts s).eq
  unfold State.takeEpochZero State.wantPlan State.clearParts State.mapSites
  dsimp only
  rw [parts]

/-- What delivery holds of the epoch, and what it keeps. -/
theorem takeEpochZero_delivery (s : State) (d : DeliveryState) : (s.takeEpochZero d).delivery = { s.delivery with
    sites := (s.takeEpochZero d).delivery.sites
    target := .plan
    epoch := s.evaluator.epoch
    state := d
    abandoned := 0 } := by
  have parts := clearParts_delivery s
  have evaluator : s.clearParts.evaluator = s.evaluator := (withdraws_parts s).evaluator
  unfold State.takeEpochZero State.wantPlan State.mapSites
  dsimp only
  rw [parts, evaluator]

/-- R143, R155: each site wants what the plan gives it, and has no parts. -/
theorem takeEpochZero_site (s : State) (d : DeliveryState) (i : Nat) : (s.takeEpochZero d).site i =
    (s.site i).map fun x => { s.darkStart i x with wanted := (planSite s.evaluator.plan i).wanted } := by
  have evaluator : s.clearParts.evaluator = s.evaluator := (withdraws_parts s).evaluator
  rw [← clearParts_site, ← evaluator]
  exact mapSites_site s.clearParts _ i

/-- R120, R155: the SET queues keep the commands in progress, and those of no site of the section. -/
theorem takeEpochZero_line (s : State) (d : DeliveryState) (l : LineId) : (s.takeEpochZero d).line l = { s.line l with
    queue := (s.line l).queue.filter fun c =>
      c.inProgress || decide (s.delivery.sites.length ≤ c.site ∨ s.siteLine c.site ≠ l) } := clearParts_line s l

/-- R155: what delivery holds of an epoch 0 taken, and what it keeps. -/
structure EpochZero (s t : State) (d : DeliveryState) : Prop where
  target : t.delivery.target = .plan
  epoch : t.delivery.epoch = s.evaluator.epoch
  state : t.delivery.state = d
  abandoned : t.delivery.abandoned = 0
  completion : t.delivery.completion = s.delivery.completion
  drifts : t.delivery.drifts = s.delivery.drifts
  abandonments : t.delivery.abandonments = s.delivery.abandonments
  confirmed : t.delivery.sites.map (·.confirmed) = s.delivery.sites.map (·.confirmed)
  partless : ∀ x ∈ t.delivery.sites, x.tightening = none ∧ x.relaxing = none ∧ x.darkening = none

theorem takeEpochZero_confirmed (s : State) (d : DeliveryState) :
    (s.takeEpochZero d).delivery.sites.map (·.confirmed) = s.delivery.sites.map (·.confirmed) :=
  sites_map_congr fun i => by
    rw [takeEpochZero_site, Option.map_map]
    rfl

theorem takeEpochZero_partless (s : State) (d : DeliveryState) :
    ∀ x ∈ (s.takeEpochZero d).delivery.sites, x.tightening = none ∧ x.relaxing = none ∧ x.darkening = none := by
  intro x hx
  obtain ⟨i, hi⟩ := site_of_mem hx
  rw [takeEpochZero_site] at hi
  obtain ⟨y, -, rfl⟩ := Option.map_eq_some_iff.1 hi
  exact ⟨rfl, rfl, rfl⟩

theorem takeEpochZero_spec (s : State) (d : DeliveryState) : EpochZero s (s.takeEpochZero d) d :=
  have delivery := takeEpochZero_delivery s d
  ⟨congrArg Delivery.target delivery, congrArg Delivery.epoch delivery, congrArg Delivery.state delivery,
    congrArg Delivery.abandoned delivery, (congrArg Delivery.completion delivery).trans rfl,
    (congrArg Delivery.drifts delivery).trans rfl, (congrArg Delivery.abandonments delivery).trans rfl,
    takeEpochZero_confirmed s d, takeEpochZero_partless s d⟩

/-- R143: what a site wants is what the plan of the epoch shows. -/
theorem takeEpochZero_wanted (s : State) (d : DeliveryState)
    (h : ∀ i e v, (planSite s.evaluator.plan i).wanted.lookup e = some v ↔ (planSite s.evaluator.plan i).Shows e v)
    {i : Nat} {x : DeliverySite} (hx : (s.takeEpochZero d).site i = some x) (e : ElemId) (v : ElemVal) :
    x.wanted.lookup e = some v ↔ (planSite s.evaluator.plan i).Shows e v := by
  rw [takeEpochZero_site] at hx
  obtain ⟨y, -, rfl⟩ := Option.map_eq_some_iff.1 hx
  exact h i e v

/-! ## Adoption (R165) -/

/-- An adoption reads the store, the time, the confirmed images, the availability and the demand alone. -/
theorem adoptedPlan_congr {s t : State} (hn : t.now = s.now) (hs : t.store = s.store) (ht : t.table = s.table)
    (ha : t.evaluator.available = s.evaluator.available)
    (hc : t.delivery.sites.map (·.confirmed) = s.delivery.sites.map (·.confirmed)) : t.adoptedPlan = s.adoptedPlan := by
  have confirmed (i : Nat) : t.delivery.sites[i]?.map (·.confirmed) = s.delivery.sites[i]?.map (·.confirmed) := by
    rw [← List.getElem?_map, ← List.getElem?_map, hc]
  unfold State.adoptedPlan State.param
  simp only [hn, hs, ht, ha, confirmed]

end Sys2Proof.Machine
end

section
/-! SUPPORT. SET_MODE on a port that serves it: its checks, and the change to LIVE (R164, R165). -/

namespace Sys2Proof.Machine

/-! ## The command -/

/-- R164: a SET_MODE of a SUPERVISORY sender, with one byte. -/
theorem setModeBody_supervisory {s : State} {p : Port} (ha : (s.port p).authority = .supervisory) (b : Byte) :
    setModeBody p [b] s = match targetOf b.toNat with
      | none => (s, some (.invalid, [byte s.mode.code]))
      | some t => ((s.setMode t).1, some ((s.setMode t).2, [byte (s.setMode t).1.mode.code])) := by
  have low : ¬ (s.port p).authority.rank < Authority.supervisory.rank := by rw [ha]; exact Nat.lt_irrefl _
  unfold setModeBody State.judgeSetMode
  rw [if_neg low, if_neg (by simp)]
  show (match (match targetOf b.toNat with
    | none => (s, Reason.invalid)
    | some t => s.setMode t) with
    | (s1, reason) => answer reason [byte s1.mode.code] s1) = _
  cases targetOf b.toNat <;> rfl

/-- R164: LIVE and SHADOW are the only targets. -/
theorem targetOf_none {b : Byte} (h1 : b ≠ 1) (h2 : b ≠ 2) : targetOf b.toNat = none := by
  unfold targetOf
  split
  · exact absurd (BitVec.eq_of_toNat_eq ‹_›) h1
  · exact absurd (BitVec.eq_of_toNat_eq ‹_›) h2
  · rfl

theorem dispatched_authority (s : State) (p : Port) (code seq : Byte) :
    ((s.setPort p (s.dispatched p code seq)).port p).authority = (s.port p).authority := by
  rw [State.setPort_port, if_pos rfl]
  rfl

/-- A notice set at an enabled sender while its command is carried out. -/
theorem dispatched_raise (s : State) {p : Port} {code seq : Byte} (n : Notice) (h : (s.port p).enabled = true) :
    (s.dispatched p code seq).raise n = { s.dispatched p code seq with flags := ((s.port p).raise n).flags } := by
  unfold PortRec.raise
  rw [if_pos h]
  exact if_pos h

/-- R164: a SET_MODE that leaves the state is answered with the mode as it stands. -/
theorem setMode_answered {s : State} {p : Port} {seq b : Byte} {why : Reason} (h : s.serving p = true)
    (hb : setModeBody p [b] (s.setPort p (s.dispatched p 0x25 seq)) =
      (s.setPort p (s.dispatched p 0x25 seq), some (why, [byte s.mode.code]))) :
    s.takeFrame p 0x25 seq (setModeBody p [b]) = s.setPort p (s.answered p 0x25 seq (why, [byte s.mode.code])) :=
  takeFrame_answered s p 0x25 seq _ _ h hb

/-- A SET_MODE of a target. -/
theorem setModeBody_target {s : State} {p : Port} (ha : (s.port p).authority = .supervisory) {b : Byte} {t : ModeTarget}
    (hb : targetOf b.toNat = some t) {u : State} {why : Reason} (hs : s.setMode t = (u, why)) :
    setModeBody p [b] s = (u, some (why, [byte u.mode.code])) := by
  rw [setModeBody_supervisory ha, hb]
  dsimp only
  rw [hs]

/-- R164: a SET_MODE of a target that the mode refuses or that is the mode already. -/
theorem setMode_stays {s : State} {p : Port} {seq b : Byte} {t : ModeTarget} {why : Reason} (h : s.serving p = true)
    (ha : (s.port p).authority = .supervisory) (hb : targetOf b.toNat = some t)
    (hs : ∀ u : State, u.mode = s.mode → u.planQuiet = s.planQuiet → u.setMode t = (u, why)) :
    s.takeFrame p 0x25 seq (setModeBody p [b]) = s.setPort p (s.answered p 0x25 seq (why, [byte s.mode.code])) :=
  setMode_answered h (setModeBody_target ((dispatched_authority s p 0x25 seq).trans ha) hb (hs _ rfl rfl))

/-- R164, R173: a SET_MODE of a target that changes the mode: its effect, and the reply on its port. -/
theorem setMode_changes {s u : State} {p : Port} {seq b : Byte} {t : ModeTarget} {why : Reason} (h : s.serving p = true)
    (ha : (s.port p).authority = .supervisory) (hb : targetOf b.toNat = some t)
    (hs : (s.setPort p (s.dispatched p 0x25 seq)).setMode t = (u, why)) :
    s.takeFrame p 0x25 seq (setModeBody p [b]) = u.setPort p { u.port p with
      command := none, reply := some ⟨0xA5, seq, why, [byte u.mode.code]⟩ } := by
  have left := setMode_portsLeft (s.setPort p (s.dispatched p 0x25 seq)) t
  rw [hs] at left
  have command : (u.port p).command = some ⟨0x25, seq⟩ := (left.records p).command.trans (by
    rw [State.setPort_port, if_pos rfl]
    rfl)
  rw [takeFrame_serving s p 0x25 seq _ h]
  exact carryOut_answer _ u p _ (why, [byte u.mode.code]) ⟨0x25, seq⟩
    (setModeBody_target ((dispatched_authority s p 0x25 seq).trans ha) hb hs) command

/-! ## The change to LIVE -/

/-- The state in which delivery takes the adopted plan's epoch. -/
def State.adopting (s : State) : State := (s.replacePlan s.adoptedPlan).changeMode .live

theorem goLive_eq (s : State) : s.goLive = s.adopting.takeEpochZero .done := rfl

/-- Its own mode notice is all that an adoption does to a port. -/
theorem goLive_port (s : State) (q : Port) : s.goLive.port q = (s.port q).raise .mode := by
  rw [goLive_eq, takeEpochZero_eq]
  exact State.changeMode_port _ _ q

/-- R61, R164 and R165: what an adoption changes, delivery, the SET queues and the notices apart. -/
theorem goLive_frame (s : State) : s.goLive = { s with
    mode := .live
    ports := s.goLive.ports
    delivery := s.goLive.delivery
    lines := s.goLive.lines
    evaluator := { s.evaluator with
      plan := s.adoptedPlan
      epoch := 0
      pending := true
      running := s.evaluator.running.map fun x => { x with overtaken := true } } } := by
  rw [goLive_eq, takeEpochZero_eq]
  rfl

/-- R165: the plan it leaves is adopted from what it leaves. -/
theorem goLive_adopted (s : State) : s.goLive.adoptedPlan = s.adoptedPlan := by
  have frame := goLive_frame s
  refine adoptedPlan_congr ?_ ?_ ?_ ?_ (takeEpochZero_confirmed s.adopting .done) <;> rw [frame]

end Sys2Proof.Machine

open Sys2Proof Sys2Proof.Machine

/-- Settles O39: the checks of R164 leave the state, and an adoption is a plan of epoch 0 taken by delivery. -/
theorem setModeLiveAdopts : Obligations.SetModeLiveAdopts := by
  intro p seq s h ha
  have live : targetOf (2 : Byte).toNat = some .live := rfl
  have run (b : Byte) : exec (.setModeLive p seq [b]) s = .next (s.takeFrame p 0x25 seq (setModeBody p [b])) := rfl
  refine ⟨fun b h1 h2 => ?_, fun hm => ?_, fun hm => ?_, fun hm => ?_⟩
  · rw [run, setMode_answered h]
    rw [setModeBody_supervisory ((dispatched_authority s p 0x25 seq).trans ha), targetOf_none h1 h2]
    rfl
  · rw [run, setMode_stays (why := .ok) h ha live fun u hu _ => by unfold State.setMode; rw [hu, hm], hm]
    rfl
  · rw [run, setMode_stays (why := .wrongMode) h ha live fun u hu _ => by unfold State.setMode; rw [hu, hm], hm]
    rfl
  · have adopts : (s.setPort p (s.dispatched p 0x25 seq)).setMode .live =
        ((s.setPort p (s.dispatched p 0x25 seq)).goLive, .ok) := by
      unfold State.setMode
      rw [State.setPort_mode]
      rcases hm with hm | hm <;> rw [hm]
    have enabled : (s.port p).enabled = true := enabled_of_hears s p ((serving_iff s p).1 h).1
    have record := goLive_port (s.setPort p (s.dispatched p 0x25 seq))
    have sender : (s.setPort p (s.dispatched p 0x25 seq)).goLive.port p =
        { s.dispatched p 0x25 seq with flags := ((s.port p).raise .mode).flags } := by
      rw [record, State.setPort_port, if_pos rfl]
      exact dispatched_raise s .mode enabled
    rw [run, setMode_changes h ha live adopts, sender]
    have frame := goLive_frame (s.setPort p (s.dispatched p 0x25 seq))
    have adopted := goLive_adopted (s.setPort p (s.dispatched p 0x25 seq))
    have epoch := takeEpochZero_spec (s.setPort p (s.dispatched p 0x25 seq)).adopting .done
    have wanted {i : Nat} {d : DeliverySite} := takeEpochZero_wanted (s.setPort p (s.dispatched p 0x25 seq)).adopting
      .done (adoptedPlan_wanted _) (i := i) (x := d)
    have queues := takeEpochZero_line (s.setPort p (s.dispatched p 0x25 seq)).adopting .done
    rw [← goLive_eq] at epoch wanted queues
    generalize State.goLive (s.setPort p (s.dispatched p 0x25 seq)) = g at *
    have mode : g.mode = .live := by rw [frame]
    have store : g.store = s.store := by rw [frame]; rfl
    have plan : g.evaluator.plan = (s.setPort p (s.dispatched p 0x25 seq)).adoptedPlan := by rw [frame]
    rw [mode]
    refine ⟨_, rfl, ?_, fun hc => ?_, epoch.confirmed, epoch.target, epoch.epoch, epoch.state, epoch.abandoned,
      epoch.completion, epoch.drifts, epoch.abandonments, epoch.partless, fun i d hd e v => ?_, queues, ?_,
      fun q hq => ?_⟩
    · show State.setPort g p _ = { s with
        mode := .live
        ports := (g.setPort p _).ports
        delivery := g.delivery
        lines := g.lines
        evaluator := { s.evaluator with
          plan := g.evaluator.plan
          epoch := 0
          pending := true
          running := s.evaluator.running.map fun x => { x with overtaken := true } } }
      rw [plan]
      exact (congrArg (State.setPort · p _) frame).trans rfl
    · show AdoptedPlan (g.setPort p _) g.evaluator.plan
      rw [plan, ← adopted]
      exact adoptedPlan_adopted (g.setPort p _) (by rw [State.setPort_store, store]; exact hc)
    · show _ ↔ (planSite g.evaluator.plan i).Shows e v
      rw [plan]
      exact wanted hd e v
    · obtain ⟨-, -, idle⟩ := (serving_iff s p).1 h
      rw [State.setPort_port, if_pos rfl, ← dispatched_reply s p 0x25 seq _ idle]
      rfl
    · rw [State.setPort_port, if_neg hq, record, State.setPort_port, if_neg hq]
end

section
/-! SUPPORT. The dark target taken, and a darkening over at once (R143, R146 to R148, R156, R158, R166, R167). -/

namespace Sys2Proof.Machine

/-! ## The dark target taken (R158) -/

/-- Nothing but delivery and the SET queues differs. -/
theorem formDark_frame (s : State) : s.formDark =
    { s with delivery := s.formDark.delivery, lines := s.formDark.lines } := by
  have cleared := (withdraws_parts s).eq
  have formed := ((forSites_parts s.toDark _ fun i t => reform_parts t i).trans (judgeReleases_parts _)).eq
  rw [← formDark_toDark] at formed
  rw [formed]
  unfold State.toDark State.clearParts State.mapSites
  dsimp only
  rw [cleared]

/-- What stands once the dark target has been taken and its parts are formed. -/
structure DarkTaken (s t : State) : Prop where
  target : t.delivery.target = .dark
  state : t.delivery.state = .delivering
  epoch : t.delivery.epoch = s.delivery.epoch
  completion : t.delivery.completion = s.delivery.completion
  drifts : t.delivery.drifts = s.delivery.drifts
  released : Released t
  waits : ∀ i d p, t.site i = some d → d.darkening = some p → p.queued = true → CommandWaits t i .darkening d p
  sites : ∀ i r d, s.site i = some d → s.store.site i = some r → ∃ d', t.site i = some d' ∧
    (d'.inFlight = true ↔ d.inFlight = true ∧ s.NoneWaits i) ∧
    Darkened s r i { d with tightening := none, relaxing := none, darkening := none } d'
  lost : ∃ gone, DarkLost s gone ∧ t.delivery.abandoned = min gone.length 65535 ∧
    (s.delivery.abandonments ≤ 65535 →
      t.delivery.abandonments = min (s.delivery.abandonments + gone.length) 65535)

theorem formDark_taken (s : State) (hm : s.mode = .darkening) : DarkTaken s s.formDark := by
  obtain ⟨target, state, epoch, -⟩ := formDark_parts s
  have formed := ((forSites_parts s.toDark _ fun i t => reform_parts t i).trans (judgeReleases_parts _)).delivery
  rw [← formDark_toDark] at formed
  have cleared := clearParts_delivery s
  refine ⟨target, state, epoch, ?_, ?_, ?_, fun i d p hd => formDark_waits s i d hd p,
    fun i r d hd hr => ?_, s.darkLost, darkLost_spec s, formDark_counts s hm⟩
  · exact (congrArg Delivery.completion formed).trans ((congrArg Delivery.completion cleared).trans rfl)
  · exact (congrArg Delivery.drifts formed).trans ((congrArg Delivery.drifts cleared).trans rfl)
  · rw [formDark_toDark]
    exact judgeReleases_released _
  · rw [noneWaits_iff]
    exact formDark_darkened s hm i r d hd hr

/-- What it says is of neither the ports nor the mode before or after. -/
theorem DarkTaken.congr {s t : State} (h : DarkTaken s t) (m n : Mode) (x y : PerPort PortRec) :
    DarkTaken { s with mode := m, ports := x } { t with mode := n, ports := y } :=
  ⟨h.target, h.state, h.epoch, h.completion, h.drifts, h.released, h.waits, fun i r d hd hr => by
    obtain ⟨d', hd', flies, dark⟩ := h.sites i r d hd hr
    exact ⟨d', hd', flies, dark.keeps, dark.reached, dark.unreached⟩, h.lost⟩

/-! ## Completion of a darkening (R156, R167) -/

/-- Nothing but the mode, the notices, delivery and the SET queues differs. -/
theorem enterShadow_frame (s : State) : s.enterShadow = { s with
    mode := .shadow
    ports := s.enterShadow.ports
    delivery := s.enterShadow.delivery
    lines := s.enterShadow.lines } := by
  have cleared := (withdraws_parts ({ s with mode := .shadow }.notifyAll .mode)).eq
  unfold State.enterShadow State.wantPlan State.clearParts State.mapSites
  dsimp only
  rw [cleared]
  rfl

theorem enterShadow_delivery (s : State) :
    s.enterShadow.delivery.target = .plan ∧ s.enterShadow.delivery.state = .suppressed := ⟨rfl, rfl⟩

theorem enterShadow_port (s : State) (q : Port) : s.enterShadow.port q = (s.port q).raise .mode :=
  (congrArg (PerPort.get · q) (enterShadow_ports s)).trans (State.notifyAll_port _ _ q)

/-- R156, R157: a completion judged for the dark target: nothing, or the delivery DONE and the mode SHADOW. -/
theorem judgeCompletion_dark (s : State) (ht : s.delivery.target = .dark) :
    s.judgeCompletion = s ∨ s.judgeCompletion = s.concluded.enterShadow := by
  unfold State.judgeCompletion
  split
  · rw [ht]
    exact .inr rfl
  · exact .inl rfl

/-- R166, R167: the darkening goes on, or is over at once. -/
theorem goDark_cases (s : State) :
    s.goDark.mode = .darkening ∧ s.goDark = (s.changeMode .darkening).formDark ∨
      s.goDark.mode = .shadow ∧ s.goDark = (s.changeMode .darkening).formDark.concluded.enterShadow := by
  obtain ⟨-, mode, target⟩ := formDark_config (s.changeMode .darkening)
  rcases judgeCompletion_dark (s.changeMode .darkening).formDark target with h | h
  · exact .inl ⟨(congrArg State.mode h).trans mode, h⟩
  · exact .inr ⟨(congrArg State.mode h).trans (by rw [enterShadow_frame]), h⟩

theorem goDark_frame (s : State) : s.goDark = { s with
    mode := s.goDark.mode
    ports := s.goDark.ports
    delivery := s.goDark.delivery
    lines := s.goDark.lines } := by
  have formed := formDark_frame (s.changeMode .darkening)
  have shadowed := enterShadow_frame (s.changeMode .darkening).formDark.concluded
  rcases goDark_cases s with ⟨-, h⟩ | ⟨-, h⟩ <;> rw [h] <;>
    generalize (s.changeMode .darkening).formDark = g at formed shadowed
  · rw [formed]
    rfl
  · generalize g.concluded.enterShadow = x at shadowed
    rw [shadowed, concluded_frame, formed]
    rfl

/-- R156: a darkening over at once sets the DELIVERED notice. -/
theorem goDark_delivered {s : State} (hm : s.goDark.mode = .shadow) (q : Port) (hq : (s.port q).authority ≠ .disabled) :
    (s.goDark.port q).flags &&& Notice.delivered.flag = Notice.delivered.flag := by
  rcases goDark_cases s with ⟨h, -⟩ | ⟨-, h⟩
  · cases hm.symm.trans h
  · have port : (s.changeMode .darkening).formDark.port q = (s.port q).raise .mode :=
      (congrArg (PerPort.get · q) (formDark_ports _)).trans (State.changeMode_port _ _ q)
    rw [h, enterShadow_port, concluded_port, port]
    refine PortRec.raise_keeps _ _ _ (PortRec.raise_flag _ _ ?_)
    rw [PortRec.raise_enabled]
    exact (PortRec.enabled_iff _).2 hq

/-- R158, R166: a darkening that goes on. -/
theorem goDark_taken {s : State} (hm : s.goDark.mode = .darkening) : DarkTaken s s.goDark ∧ s.goDark.delivery.Busy := by
  rcases goDark_cases s with ⟨-, h⟩ | ⟨h, -⟩
  · have taken := formDark_taken (s.changeMode .darkening) rfl
    have busy := formDark_busy (s.changeMode .darkening) rfl
    rw [← h] at taken busy
    refine ⟨?_, busy.2 ((goDark_spec s).1.1 hm)⟩
    generalize s.goDark = t at taken
    exact taken.congr s.mode t.mode s.ports t.ports
  · cases hm.symm.trans h

/-- R167: a darkening that is over at once. -/
theorem goDark_over {s : State} (hm : s.goDark.mode = .shadow) :
    s.goDark.delivery.target = .plan ∧ s.goDark.delivery.state = .suppressed ∧ s.goDark.delivery.completion =
      some ⟨.dark, s.delivery.epoch, min s.darkLost.length 65535⟩ := by
  obtain ⟨-, -, completed, -⟩ := goDark_spec s
  rcases goDark_cases s with ⟨h, -⟩ | ⟨-, h⟩
  · cases hm.symm.trans h
  · obtain ⟨target, state⟩ := enterShadow_delivery (s.changeMode .darkening).formDark.concluded
    rw [← h] at target state
    exact ⟨target, state, (completed (by rw [hm]; exact nofun)).2⟩

/-- R166: a change to DARKENING leaves every port's authority. -/
theorem goDark_authority (s : State) (q : Port) : (s.goDark.port q).authority = (s.port q).authority := by
  have port : (s.changeMode .darkening).formDark.port q = (s.port q).raise .mode :=
    (congrArg (PerPort.get · q) (formDark_ports _)).trans (State.changeMode_port _ _ q)
  rcases goDark_cases s with ⟨-, h⟩ | ⟨-, h⟩ <;> rw [h]
  · rw [port, PortRec.raise_authority]
  · rw [enterShadow_port, concluded_port, port, PortRec.raise_authority, PortRec.raise_authority,
      PortRec.raise_authority]

/-- A reply placed sets and clears no flag (R181). -/
theorem replied_flags (s : State) (p q : Port) (x : Option Reply) :
    ((s.setPort p { s.port p with command := none, reply := x }).port q).flags = (s.port q).flags := by
  rw [State.setPort_port]
  split
  · subst_vars; rfl
  · rfl

end Sys2Proof.Machine

open Sys2Proof Sys2Proof.Machine

/-- Settles O40: the quiet check is the plan's, and a change to DARKENING is the dark target taken, over at once where
nothing is left to darken. -/
theorem setModeShadowDarkensQuietPlan : Obligations.SetModeShadowDarkensQuietPlan := by
  intro p seq s h ha standing loud lit
  have shadow : targetOf (1 : Byte).toNat = some .shadow := rfl
  have run : exec (.setModeShadow p seq [1]) s = .next (s.takeFrame p 0x25 seq (setModeBody p [1])) := rfl
  refine ⟨fun hm => ?_, fun hm => ?_, fun hm hl => ?_, fun hm hl => ?_⟩
  · rw [run, setMode_stays (why := .wrongMode) h ha shadow fun u hu _ => by unfold State.setMode; rw [hu, hm], hm]
    rfl
  · rw [run, setMode_stays (why := .ok) h ha shadow fun u hu _ => by
      unfold State.setMode
      rw [hu]
      rcases hm with hm | hm <;> rw [hm]]
  · have noisy : ¬ s.planQuiet = true := fun quiet => by
      obtain ⟨i, hi, x, hx, hloud⟩ := hl
      exact (planQuiet_iff s).1 quiet i hi x hx hloud
    rw [run, setMode_stays (why := .planNotQuiet) h ha shadow fun u hu hq => by
      unfold State.setMode
      rw [hu, hm, hq]
      exact if_neg noisy, hm]
    rfl
  · have darkens : (s.setPort p (s.dispatched p 0x25 seq)).setMode .shadow =
        ((s.setPort p (s.dispatched p 0x25 seq)).goDark, .ok) := by
      unfold State.setMode
      rw [State.setPort_mode, hm]
      exact if_pos ((planQuiet_iff s).2 hl)
    rw [run, setMode_changes h ha shadow darkens]
    generalize hu : s.setPort p (s.dispatched p 0x25 seq) = u
    have before : u = { s with ports := u.ports } := by rw [← hu]; rfl
    have authority (q : Port) : (u.port q).authority = (s.port q).authority := by
      rw [← hu]
      by_cases hq : q = p
      · rw [hq, dispatched_authority]
      · rw [State.setPort_port, if_neg hq]
    obtain ⟨darkening, -, -, abandonments⟩ := goDark_spec u
    have lost (gone : List Nat) (h : DarkLost s gone) : gone.length = u.darkLost.length := by
      rw [before]
      exact darkLost_length s gone h
    have frame := goDark_frame u
    have queues := goDark_queues u
    have noticed := goDark_noticed u
    have kept (q : Port) := (goDark_authority u q).trans (authority q)
    have delivered := @goDark_delivered u
    have taken := @goDark_taken u
    have concluded := @goDark_over u
    have ends : u.goDark.mode = .darkening ∨ u.goDark.mode = .shadow := (goDark_cases u).imp And.left And.left
    generalize u.goDark = g at *
    refine ⟨_, rfl, ?_, ?_, ?_, fun gone h bound => ?_, ?_, ?_, fun q hq => ?_⟩
    · rw [frame, before]
      rfl
    · rw [before] at queues
      exact queues.trans (.of_lines rfl)
    · refine ends.imp (fun dark => ?_) fun over_at_once => ?_
      · obtain ⟨formed, busy⟩ := taken dark
        rw [before] at formed
        obtain ⟨gone, hgone, abandoned, -⟩ := formed.lost
        exact ⟨dark, formed.target, formed.state, busy, formed.released, formed.waits, fun i r d hd hr => by
          obtain ⟨d', hd', flies, darkens⟩ := formed.sites i r d hd hr
          exact ⟨d', hd', flies, darkens.keeps, darkens.reached, darkens.unreached⟩, gone, hgone, abandoned⟩
      · obtain ⟨target, state, completion⟩ := concluded over_at_once
        refine ⟨over_at_once, target, state, fun q hq => ?_, s.darkLost, darkLost_spec s, ?_⟩
        · rw [replied_flags]
          exact delivered over_at_once q (by rwa [authority])
        · rw [before] at completion
          exact completion
    · have same : u.delivery.abandonments = s.delivery.abandonments := by rw [before]
      rw [lost gone h, ← same]
      exact abandonments (same.trans_le bound)
    · rw [before] at darkening
      exact darkening
    · rw [State.setPort_port, if_pos rfl, State.setPort_mode]
    · rw [replied_flags]
      refine noticed.resolve_left (fun same => ?_) q (by rwa [kept])
      have live : g.mode = .live := by
        rw [same, before]
        exact hm
      rcases ends with h | h <;> cases live.symm.trans h
end

section
/-! SUPPORT. RESTART's parts: what each block is left holding before the plan is made anew (R168), and what the plan's and
delivery's parts make of it (R55, R158, R159). -/

namespace Sys2Proof.Machine

/-! ## The blocks cleared -/

/-- The state in which RESTART makes the plan anew. -/
def State.cleared (s : State) : State :=
  s.restartTable.restartPorts.restartUnits.restartStations.restartLines.restartDelivery

theorem restarted_eq (s : State) : s.restarted = { s.cleared.restartPlan with cause := .restart }.restartFlags := rfl

/-- The state in which RESTART takes the units. -/
def State.unclaimed (s : State) : State := s.restartTable.restartPorts

/-- Nothing but the table, the ports and the evaluator's pending flag differs. -/
theorem unclaimed_frame (s : State) : s.unclaimed = { s with
    table := s.unclaimed.table
    ports := s.restartPorts.ports
    evaluator := { s.evaluator with pending := s.unclaimed.evaluator.pending } } := by
  unfold State.unclaimed State.restartTable
  rw [changeTable_eq]
  rfl

theorem unclaimed_table (s : State) : s.unclaimed.table =
    { s.table with entries := [], demand := s.store.spots.map (demandAt s.ports []) } := by
  unfold State.unclaimed State.restartTable
  rw [changeTable_eq]
  rfl

theorem restartUnits_frame (s : State) : s.restartUnits =
    { s with units := s.restartUnits.units, evaluator := s.restartUnits.evaluator } := by
  obtain ⟨us, ev, h, -⟩ := storeWhere_keeps s (fun _ => true) UnitRec.clearMarks s.units.length
  rw [restartUnits_eq, h]

theorem restartUnits_length (s : State) : s.restartUnits.units.length = s.units.length := by
  obtain ⟨us, ev, h, length⟩ := storeWhere_keeps s (fun _ => true) UnitRec.clearMarks s.units.length
  rw [restartUnits_eq, h]
  exact length

theorem clearMarks_keeps : Keeps UnitRec.clearMarks := fun _ =>
  ⟨rfl, usable_of_elements (fun e => { e with mark := .clear }) rfl fun _ => ⟨rfl, rfl⟩⟩

/-- R126: every unit's record without marks, its availability judged afresh and handed on where it changed (R136). -/
theorem restartUnits_spec {s : State} {i : Nat} {u : UnitRec} (hu : s.unit i = some u) :
    s.restartUnits.unit i = some u.clearMarks.judged ∧
      (s.SignsInPlace → AvailabilityHanded s s.restartUnits u u.clearMarks.judged) := by
  obtain ⟨units, -, -, handed⟩ :=
    storeWhere_fold s (fun _ => true) UnitRec.clearMarks clearMarks_keeps s.units.length
  rw [← restartUnits_eq] at units handed
  exact ⟨(units i u hu).trans (by rw [if_pos ⟨unit_lt hu, rfl⟩]), fun h => (handed h).2 i u (unit_lt hu) hu rfl⟩

/-- What stays of every unit's record (R126). -/
theorem restartUnits_map {α : Type} (s : State) (f : UnitRec → α) (h : ∀ u : UnitRec, f u.clearMarks.judged = f u) :
    s.restartUnits.units.map f = s.units.map f :=
  List.ext_getElem? fun i => by
    rw [List.getElem?_map, List.getElem?_map]
    cases hu : s.units[i]? with
    | none =>
      rw [List.getElem?_eq_none_iff] at hu
      rw [List.getElem?_eq_none (by rwa [restartUnits_length])]
    | some u =>
      have taken : s.restartUnits.units[i]? = some u.clearMarks.judged := (restartUnits_spec hu).1
      rw [taken, Option.map_some, Option.map_some, h]

/-- A site's record with no part and nothing commanded (R159). -/
def DeliverySite.idled (d : DeliverySite) : DeliverySite := { d.noParts with commanded := none, inFlight := false }

theorem cleared_frame (s : State) : s.cleared = { s with
    table := s.unclaimed.table
    ports := s.restartPorts.ports
    evaluator := s.unclaimed.restartUnits.evaluator
    stations := s.stations.map firstForm
    units := s.unclaimed.restartUnits.units
    delivery := (s.mapSites fun _ d => d.idled).delivery
    lines := s.lines.map fun _ r => { r with queue := [] } } := by
  have stations : s.stations.map (fun x => newStation x.slot x.lanes.length x.rejected x.chatter) =
      s.stations.map firstForm := List.map_congr_left fun x _ => newStation_eq x
  have unclaimed := unclaimed_frame s
  have units := restartUnits_frame s.unclaimed
  show State.restartDelivery (State.restartLines (State.restartStations s.unclaimed.restartUnits)) = _
  generalize s.unclaimed.restartUnits = x at *
  generalize s.unclaimed = y at *
  rw [← stations, units, unclaimed]
  rfl

theorem cleared_site (s : State) (i : Nat) : s.cleared.site i = (s.site i).map DeliverySite.idled := by
  rw [cleared_frame]
  exact mapSites_site s (fun _ d => d.idled) i

theorem cleared_line (s : State) (l : LineId) : s.cleared.line l = { s.line l with queue := [] } := by
  rw [cleared_frame]
  exact PerLine.get_map ..

theorem cleared_port (s : State) (q : Port) : s.cleared.port q = if (s.port q).enabled then
    { s.port q with liveness := .active, deadline := some (s.keepDeadline q) } else s.port q := by
  rw [cleared_frame]
  exact restartPorts_port s q

/-- R159: delivery's epoch, its record of the last completion and its counts. -/
theorem cleared_counts (s : State) : s.cleared.delivery.epoch = s.delivery.epoch ∧
    s.cleared.delivery.completion = s.delivery.completion ∧ s.cleared.delivery.drifts = s.delivery.drifts ∧
    s.cleared.delivery.abandonments = s.delivery.abandonments := by
  rw [cleared_frame]
  exact ⟨rfl, rfl, rfl, rfl⟩

/-- R35: no entries, and the demand of none. -/
theorem cleared_table (s : State) : s.cleared.table =
    { s.table with entries := [], demand := s.store.spots.map (demandAt s.ports []) } := by
  rw [cleared_frame]
  exact unclaimed_table s

/-- R55, R61: the epoch, the running pass and what has been noticed of hold deadlines stand until the plan is made. -/
theorem cleared_evaluator (s : State) : s.cleared.evaluator = { s.evaluator with
    pending := s.cleared.evaluator.pending, available := s.cleared.evaluator.available } := by
  have side := (restartUnits_handing s.unclaimed).side
  have evaluator : s.unclaimed.evaluator = { s.evaluator with pending := s.unclaimed.evaluator.pending } :=
    congrArg State.evaluator (unclaimed_frame s)
  have plan := side.plan.trans (congrArg Evaluator.plan evaluator)
  have epoch := side.epoch.trans (congrArg Evaluator.epoch evaluator)
  have running := side.running.trans (congrArg Evaluator.running evaluator)
  have holdSeen := side.holdSeen.trans (congrArg Evaluator.holdSeen evaluator)
  have taken : s.cleared.evaluator = s.unclaimed.restartUnits.evaluator :=
    (congrArg State.evaluator (cleared_frame s)).trans rfl
  rw [taken]
  generalize s.unclaimed.restartUnits.evaluator = x at *
  obtain ⟨⟩ := x
  cases plan
  cases epoch
  cases running
  cases holdSeen
  rfl

/-- R126, R136: the units of the state. -/
theorem cleared_unit {s : State} {i : Nat} {u : UnitRec} (hu : s.unit i = some u) :
    s.cleared.unit i = some u.clearMarks.judged ∧
      (s.SignsInPlace → AvailabilityHanded s s.cleared u u.clearMarks.judged) := by
  have units : s.unclaimed.units = s.units := by rw [unclaimed_frame]
  have available : s.unclaimed.evaluator.available = s.evaluator.available := by rw [unclaimed_frame]
  have same (j : Nat) : s.unclaimed.unit j = s.unit j := congrArg (·[j]?) units
  obtain ⟨unit, handed⟩ := restartUnits_spec ((same i).trans hu)
  rw [cleared_frame]
  refine ⟨unit, fun h k hk => ?_⟩
  have given := handed (fun j v k hv => h j v k ((same j).symm.trans hv)) k hk
  rw [available] at given
  exact given

/-- What stays of every unit's record. -/
theorem cleared_units {α : Type} (s : State) (f : UnitRec → α) (h : ∀ u : UnitRec, f u.clearMarks.judged = f u) :
    s.cleared.units.map f = s.units.map f := by
  have units : s.unclaimed.units = s.units := by rw [unclaimed_frame]
  rw [cleared_frame, ← units]
  exact restartUnits_map s.unclaimed f h

/-- R146: a RESTART leaves which sites' units can take commands. -/
theorem cleared_reaches (s : State) (i : Nat) : s.cleared.Reaches i ↔ s.Reaches i := by
  have states : (s.cleared.unit i).map (·.state) = (s.unit i).map (·.state) := by
    have stay := congrArg (·[i]?) (cleared_units s (·.state) fun _ => rfl)
    rwa [List.getElem?_map, List.getElem?_map] at stay
  have reaches (t : State) : t.Reaches i ↔ ∀ x ∈ (t.unit i).map (·.state), x ≠ .lost ∧ x ≠ .probing := by
    unfold State.Reaches
    simp
  rw [reaches, reaches, states]

/-! ## The plan made anew -/

/-- R159: the record `e` shows what `d` shows, with what was commanded of it, and is in flight only where `d` is. -/
structure DeliverySite.Stays (d e : DeliverySite) : Prop where
  confirmed : e.confirmed = d.confirmed
  commanded : e.commanded = d.commanded
  inFlight : e.inFlight = true → d.inFlight = true

/-- R55, R61: a plan of epoch 0 has been made the current one, and delivery has formed its target anew from it. -/
structure Replanned (s t : State) (plan : List PlanSite) : Prop where
  frame : t = { s.replacePlan plan with delivery := t.delivery, lines := t.lines }
  length : t.delivery.sites.length = s.delivery.sites.length
  sites : ∀ i d, s.site i = some d → ∃ e, t.site i = some e ∧ d.Stays e
  completion : t.delivery.completion = s.delivery.completion
  drifts : t.delivery.drifts = s.delivery.drifts
  lines : ∀ l, t.line l = { s.line l with queue := (t.line l).queue }

theorem Replanned.site {s t : State} {plan : List PlanSite} (h : Replanned s t plan) {i : Nat} {e : DeliverySite}
    (he : t.site i = some e) : ∃ d, s.site i = some d ∧ d.Stays e := by
  obtain ⟨d, hd⟩ := site_of_lt (by rw [← h.length]; exact site_some_lt he)
  obtain ⟨e', he', stays⟩ := h.sites i d hd
  cases he.symm.trans he'
  exact ⟨d, hd, stays⟩

theorem Replanned.confirmed {s t : State} {plan : List PlanSite} (h : Replanned s t plan) :
    t.delivery.sites.map (·.confirmed) = s.delivery.sites.map (·.confirmed) := by
  refine sites_map_congr fun i => ?_
  cases he : t.site i with
  | some e =>
    obtain ⟨d, hd, stays⟩ := h.site he
    rw [hd, Option.map_some, Option.map_some, stays.confirmed]
  | none =>
    cases hd : s.site i with
    | none => rfl
    | some d =>
      obtain ⟨e, he', -⟩ := h.sites i d hd
      cases he.symm.trans he'

theorem darkFormed_stays (s : State) (i : Nat) (d : DeliverySite) : d.Stays (s.darkFormed i d) := by
  have start : d.Stays (s.darkStart i d) := ⟨rfl, rfl, fun h => (Bool.and_eq_true_iff.1 h).1⟩
  unfold State.darkFormed
  split
  · exact start
  split
  · exact ⟨start.confirmed, start.commanded, start.inFlight⟩
  · exact ⟨start.confirmed, start.commanded, start.inFlight⟩

theorem takeEpochZero_replanned (s : State) (plan : List PlanSite) (d : DeliveryState) :
    Replanned s ((s.replacePlan plan).takeEpochZero d) plan where
  frame := takeEpochZero_eq _ d
  length := by
    have confirmed := congrArg List.length (takeEpochZero_confirmed (s.replacePlan plan) d)
    rwa [List.length_map, List.length_map] at confirmed
  sites i x hx := by
    have start : x.Stays ((s.replacePlan plan).darkStart i x) := ⟨rfl, rfl, fun h => (Bool.and_eq_true_iff.1 h).1⟩
    have site := takeEpochZero_site (s.replacePlan plan) d i
    rw [show (s.replacePlan plan).site i = some x from hx] at site
    exact ⟨_, site, start.confirmed, start.commanded, start.inFlight⟩
  completion := (takeEpochZero_spec (s.replacePlan plan) d).completion
  drifts := (takeEpochZero_spec (s.replacePlan plan) d).drifts
  lines l := by
    rw [takeEpochZero_line]
    rfl

theorem formDark_replanned (s : State) (plan : List PlanSite) (hm : s.mode = .darkening) :
    Replanned s (s.replacePlan plan).formDark plan where
  frame := formDark_frame _
  length := by
    obtain ⟨-, -, -, length⟩ := formDark_parts (s.replacePlan plan)
    exact length
  sites i d hd := by
    obtain ⟨e, he, again⟩ := formDark_site (s.replacePlan plan) hm i d hd
    have formed := darkFormed_stays (s.replacePlan plan) i d
    exact ⟨e, he, again.like.confirmed.trans formed.confirmed, again.like.commanded.trans formed.commanded,
      fun h => formed.inFlight (again.flying ▸ h)⟩
  completion := (formDark_taken (s.replacePlan plan) hm).completion
  drifts := (formDark_taken (s.replacePlan plan) hm).drifts
  lines l := (formDark_queues (s.replacePlan plan) l).1

/-- R168: the plan a RESTART makes: the adopted one in LIVE, the reset form in SHADOW and DARKENING. -/
def State.planAnew (s : State) : List PlanSite := if s.mode = .live then s.adoptedPlan else s.store.resetPlan

theorem planAnew_wanted (s : State) (i : Nat) (e : ElemId) (v : ElemVal) :
    (planSite s.planAnew i).wanted.lookup e = some v ↔ (planSite s.planAnew i).Shows e v := by
  unfold State.planAnew
  split
  · exact adoptedPlan_wanted s i e v
  · exact resetPlan_wanted s.store i e v

/-- R168: the delivery of epoch 0 is DONE in LIVE and SUPPRESSED in SHADOW. -/
def State.stateAnew (s : State) : DeliveryState := if s.mode = .live then .done else .suppressed

theorem restartPlan_zero {s : State} (hu : s.mode ≠ .unconfigured) (hd : s.mode ≠ .darkening) :
    s.restartPlan = (s.replacePlan s.planAnew).takeEpochZero s.stateAnew := by
  unfold State.restartPlan State.planAnew State.stateAnew
  cases hm : s.mode with
  | unconfigured => exact absurd hm hu
  | darkening => exact absurd hm hd
  | live => rfl
  | shadow => rfl

theorem restartPlan_dark {s : State} (hm : s.mode = .darkening) :
    s.restartPlan = (s.replacePlan s.planAnew).formDark := by
  unfold State.restartPlan State.planAnew
  rw [hm]
  rfl

theorem restartPlan_replanned {s : State} (hu : s.mode ≠ .unconfigured) : Replanned s s.restartPlan s.planAnew := by
  by_cases hm : s.mode = .darkening
  · rw [restartPlan_dark hm]
    exact formDark_replanned s _ hm
  · rw [restartPlan_zero hu hm]
    exact takeEpochZero_replanned s _ _

theorem restartPlan_epochZero {s : State} (hu : s.mode ≠ .unconfigured) (hd : s.mode ≠ .darkening) :
    EpochZero (s.replacePlan s.planAnew) s.restartPlan s.stateAnew := by
  rw [restartPlan_zero hu hd]
  exact takeEpochZero_spec _ _

theorem restartPlan_wanted {s : State} (hu : s.mode ≠ .unconfigured) (hd : s.mode ≠ .darkening) {i : Nat}
    {d : DeliverySite} (h : s.restartPlan.site i = some d) (e : ElemId) (v : ElemVal) :
    d.wanted.lookup e = some v ↔ (planSite s.planAnew i).Shows e v := by
  rw [restartPlan_zero hu hd] at h
  exact takeEpochZero_wanted (s.replacePlan s.planAnew) _ (planAnew_wanted s) h e v

/-- A SET queue once emptied stays empty outside DARKENING. -/
theorem restartPlan_queue {s : State} (hu : s.mode ≠ .unconfigured) (hd : s.mode ≠ .darkening) {l : LineId}
    (h : (s.line l).queue = []) : (s.restartPlan.line l).queue = [] := by
  have queue : ((s.replacePlan s.planAnew).line l).queue = [] := h
  rw [restartPlan_zero hu hd, takeEpochZero_line]
  dsimp only
  rw [queue]
  rfl

/-! ## The dark target taken anew (R158) -/

theorem Darkened.congr {s t : State} {r : SiteRecord} {i : Nat} {d e : DeliverySite} (h : Darkened s r i d e)
    (reaches : t.Reaches i ↔ s.Reaches i) : Darkened t r i d e :=
  ⟨h.keeps, fun x => h.reached (reaches.1 x), fun x => h.unreached fun y => x (reaches.2 y)⟩

theorem darkLost_cleared {s : State} {gone : List Nat} (h : DarkLost s.cleared gone) : DarkLost s gone := by
  obtain ⟨nodup, mem⟩ := h
  have store : s.cleared.store = s.store := by rw [cleared_frame]
  refine ⟨nodup, fun i => (mem i).trans ?_⟩
  constructor
  · rintro ⟨e, r, he, hr, silent, lit⟩
    rw [cleared_site] at he
    obtain ⟨d, hd, rfl⟩ := Option.map_eq_some_iff.1 he
    exact ⟨d, r, hd, by rwa [store] at hr, fun x => silent ((cleared_reaches s i).2 x), lit⟩
  · rintro ⟨d, r, hd, hr, silent, lit⟩
    refine ⟨d.idled, r, ?_, by rwa [store], fun x => silent ((cleared_reaches s i).1 x), lit⟩
    rw [cleared_site, hd, Option.map_some]

/-- What delivery holds of a darkening that a RESTART forms anew. -/
structure Redarkened (s t : State) : Prop where
  target : t.delivery.target = .dark
  epoch : t.delivery.epoch = s.delivery.epoch
  state : t.delivery.state = .delivering
  released : Released t
  waits : ∀ i d p, t.site i = some d → d.darkening = some p → p.queued = true → CommandWaits t i .darkening d p
  sites : ∀ i r d, s.site i = some d → s.store.site i = some r → ∃ d', t.site i = some d' ∧ Darkened s r i d.idled d'
  lost : ∃ gone, DarkLost s gone ∧ t.delivery.abandoned = min gone.length 65535 ∧
    (s.delivery.abandonments ≤ 65535 →
      t.delivery.abandonments = min (s.delivery.abandonments + gone.length) 65535)

theorem restartPlan_redarkened {s : State} (hm : s.mode = .darkening) : Redarkened s s.cleared.restartPlan := by
  have mode : s.cleared.mode = .darkening := by rw [cleared_frame]; exact hm
  obtain ⟨epoch, -, -, counted⟩ := cleared_counts s
  have store : s.cleared.store = s.store := by rw [cleared_frame]
  have taken := formDark_taken (s.cleared.replacePlan s.cleared.planAnew) mode
  rw [← restartPlan_dark mode] at taken
  refine ⟨taken.target, taken.epoch.trans epoch, taken.state, taken.released, taken.waits, fun i r d hd hr => ?_, ?_⟩
  · have site : s.cleared.site i = some d.idled := by rw [cleared_site, hd, Option.map_some]
    obtain ⟨e, he, -, keeps, reached, unreached⟩ := taken.sites i r d.idled site (by rw [← store] at hr; exact hr)
    have darkened : Darkened s.cleared r i d.idled e := ⟨keeps, reached, unreached⟩
    exact ⟨e, he, darkened.congr (cleared_reaches s i).symm⟩
  · obtain ⟨gone, hgone, abandoned, abandonments⟩ := taken.lost
    rw [← counted]
    exact ⟨gone, darkLost_cleared hgone, abandoned, abandonments⟩

/-! ## The whole effect -/

theorem cleared_mode (s : State) : s.cleared.mode = s.mode := by rw [cleared_frame]

theorem cleared_replanned {s : State} (hu : s.mode ≠ .unconfigured) :
    Replanned s.cleared s.cleared.restartPlan s.cleared.planAnew :=
  restartPlan_replanned ((cleared_mode s).trans_ne hu)

/-- The blocks cleared and the plan made anew, the ports apart. -/
theorem restarted_made {s : State} (hu : s.mode ≠ .unconfigured) : s.restarted = { s with
    cause := .restart
    table := s.cleared.table
    ports := s.restarted.ports
    evaluator := (s.cleared.replacePlan s.cleared.planAnew).evaluator
    stations := s.stations.map firstForm
    units := s.cleared.units
    delivery := s.restarted.delivery
    lines := s.restarted.lines } := by
  have cleared := cleared_frame s
  have made := (cleared_replanned hu).frame
  rw [restarted_eq]
  generalize s.cleared.restartPlan = r at *
  generalize s.cleared.planAnew = plan at *
  generalize s.cleared = c at *
  rw [made, cleared]
  rfl

theorem restarted_frame {s : State} (hu : s.mode ≠ .unconfigured) : s.restarted = { s with
    cause := .restart
    table := s.restarted.table
    ports := s.restarted.ports
    evaluator := s.restarted.evaluator
    stations := s.stations.map firstForm
    units := s.restarted.units
    delivery := s.restarted.delivery
    lines := s.restarted.lines } := by
  have made := restarted_made hu
  generalize s.restarted = t at *
  rw [made]

theorem restarted_table {s : State} (hu : s.mode ≠ .unconfigured) : s.restarted.table =
    { s.table with entries := [], demand := s.store.spots.map (demandAt s.ports []) } := by
  rw [restarted_made hu]
  exact cleared_table s

/-- R55, R61: a plan of epoch 0, the evaluator pending, and a running pass overtaken. -/
theorem restarted_evaluator {s : State} (hu : s.mode ≠ .unconfigured) : s.restarted.evaluator = { s.evaluator with
    plan := s.cleared.planAnew
    epoch := 0
    pending := true
    running := s.evaluator.running.map fun x => { x with overtaken := true }
    available := s.cleared.evaluator.available } := by
  have made : s.restarted.evaluator = (s.cleared.replacePlan s.cleared.planAnew).evaluator :=
    (congrArg State.evaluator (restarted_made hu)).trans rfl
  rw [made]
  unfold State.replacePlan
  dsimp only
  rw [cleared_evaluator]

theorem restarted_units {α : Type} {s : State} (hu : s.mode ≠ .unconfigured) (f : UnitRec → α)
    (h : ∀ u : UnitRec, f u.clearMarks.judged = f u) : s.restarted.units.map f = s.units.map f := by
  rw [restarted_made hu]
  exact cleared_units s f h

/-- R126, R136: the units of the state, and what the evaluator has been handed of them. -/
theorem restarted_unit {s : State} (hu : s.mode ≠ .unconfigured) {i : Nat} {u : UnitRec} (h : s.unit i = some u) :
    s.restarted.unit i = some u.clearMarks.judged ∧
      (s.SignsInPlace → AvailabilityHanded s s.restarted u u.clearMarks.judged) := by
  have units : s.restarted.units = s.cleared.units := (congrArg State.units (restarted_made hu)).trans rfl
  have evaluator := restarted_evaluator hu
  have available : s.restarted.evaluator.available = s.cleared.evaluator.available :=
    (congrArg Evaluator.available evaluator).trans rfl
  have pending : s.restarted.evaluator.pending = true := (congrArg Evaluator.pending evaluator).trans rfl
  obtain ⟨unit, handed⟩ := cleared_unit h
  exact ⟨(congrArg (·[i]?) units).trans unit, fun signs => (handed signs).turn available fun _ => pending⟩

/-- R159: nothing stays commanded or in flight. -/
theorem restarted_idle {s : State} (hu : s.mode ≠ .unconfigured) :
    ∀ d ∈ s.restarted.delivery.sites, d.commanded = none ∧ d.inFlight = false := by
  intro e he
  obtain ⟨i, hi⟩ := site_of_mem he
  obtain ⟨c, hc, stays⟩ := (cleared_replanned hu).site hi
  rw [cleared_site] at hc
  obtain ⟨d, -, rfl⟩ := Option.map_eq_some_iff.1 hc
  exact ⟨stays.commanded, Bool.eq_false_iff.2 fun h => Bool.false_ne_true (stays.inFlight h)⟩

theorem restarted_confirmed {s : State} (hu : s.mode ≠ .unconfigured) :
    s.restarted.delivery.sites.map (·.confirmed) = s.delivery.sites.map (·.confirmed) :=
  (cleared_replanned hu).confirmed.trans (sites_map_congr fun i => by
    rw [cleared_site, Option.map_map]
    rfl)

theorem restarted_completion {s : State} (hu : s.mode ≠ .unconfigured) :
    s.restarted.delivery.completion = s.delivery.completion := by
  obtain ⟨-, completion, -⟩ := cleared_counts s
  exact (cleared_replanned hu).completion.trans completion

theorem restarted_drifts {s : State} (hu : s.mode ≠ .unconfigured) :
    s.restarted.delivery.drifts = s.delivery.drifts := by
  obtain ⟨-, -, drifts, -⟩ := cleared_counts s
  exact (cleared_replanned hu).drifts.trans drifts

/-- R111: all of a line but its SET queue stays. -/
theorem restarted_line {s : State} (hu : s.mode ≠ .unconfigured) (l : LineId) :
    s.restarted.line l = { s.line l with queue := (s.restarted.line l).queue } := by
  have line : s.restarted.line l = { s.cleared.line l with queue := (s.restarted.line l).queue } :=
    (cleared_replanned hu).lines l
  rw [cleared_line] at line
  exact line

/-- R111: the SET queues are empty but for what a darkening formed anew hands in. -/
theorem restarted_queue {s : State} (hu : s.mode ≠ .unconfigured) (hd : s.mode ≠ .darkening) (l : LineId) :
    (s.restarted.line l).queue = [] :=
  restartPlan_queue ((cleared_mode s).trans_ne hu) ((cleared_mode s).trans_ne hd) (by rw [cleared_line])

/-- R155, R159: outside DARKENING delivery takes epoch 0: DONE in LIVE, SUPPRESSED in SHADOW. -/
theorem restarted_epochZero {s : State} (hu : s.mode ≠ .unconfigured) (hd : s.mode ≠ .darkening) :
    EpochZero (s.replacePlan s.cleared.planAnew) s.restarted (if s.mode = .live then .done else .suppressed) := by
  have epoch := restartPlan_epochZero ((cleared_mode s).trans_ne hu) ((cleared_mode s).trans_ne hd)
  obtain ⟨-, -, -, abandonments⟩ := cleared_counts s
  have state : s.cleared.stateAnew = if s.mode = .live then .done else .suppressed := by
    unfold State.stateAnew
    rw [cleared_mode]
  exact ⟨epoch.target, epoch.epoch, epoch.state.trans state, epoch.abandoned, restarted_completion hu,
    restarted_drifts hu, epoch.abandonments.trans abandonments,
    restarted_confirmed hu, epoch.partless⟩

/-- R143: outside DARKENING a site wants what the plan shows. -/
theorem restarted_wanted {s : State} (hu : s.mode ≠ .unconfigured) (hd : s.mode ≠ .darkening) {i : Nat}
    {d : DeliverySite} (h : s.restarted.site i = some d) (e : ElemId) (v : ElemVal) :
    d.wanted.lookup e = some v ↔ (planSite s.restarted.evaluator.plan i).Shows e v := by
  rw [restarted_evaluator hu]
  exact restartPlan_wanted ((cleared_mode s).trans_ne hu) ((cleared_mode s).trans_ne hd) h e v

theorem restarted_redarkened {s : State} (hm : s.mode = .darkening) : Redarkened s s.restarted := by
  have formed := restartPlan_redarkened hm
  exact ⟨formed.target, formed.epoch, formed.state, formed.released, formed.waits, formed.sites, formed.lost⟩

/-- R165, R168: the plan of a RESTART is adopted in LIVE from what the RESTART leaves, and is the reset one else. -/
theorem restarted_plan {s : State} (hu : s.mode ≠ .unconfigured) : s.restarted.evaluator.plan =
    if s.mode = .live then s.restarted.adoptedPlan else s.store.resetPlan := by
  have available := congrArg Evaluator.available (restarted_evaluator hu)
  have made := restarted_made hu
  have cleared := cleared_frame s
  have adopted : s.restarted.adoptedPlan = s.cleared.adoptedPlan := by
    refine adoptedPlan_congr ?_ ?_ ?_ available (cleared_replanned hu).confirmed <;>
      generalize s.restarted = t at made <;> generalize s.cleared = c at *
    · rw [made, cleared]
    · rw [made, cleared]
    · rw [made]
  rw [restarted_evaluator hu, adopted]
  unfold State.planAnew
  dsimp only
  rw [cleared_mode, cleared]

/-! ## The command -/

/-- R53, R184: the port records a RESTART leaves. -/
theorem restarted_port {s : State} (hu : s.mode ≠ .unconfigured) (q : Port) : s.restarted.port q =
    if (s.port q).enabled then { s.port q with
      liveness := .active
      deadline := some (s.keepDeadline q)
      flags := 0x80 } else s.port q := by
  have ports : s.cleared.restartPlan.port q = s.cleared.port q :=
    (congrArg (State.port · q) (cleared_replanned hu).frame).trans rfl
  have alone : s.restarted.port q = (s.cleared.restartPlan.port q).resetAlone := PerPort.get_map ..
  rw [alone, ports, cleared_port]
  unfold PortRec.resetAlone
  by_cases enabled : (s.port q).enabled = true
  · rw [if_pos enabled, if_pos enabled]
    exact if_pos enabled
  · rw [if_neg enabled, if_neg enabled, if_neg enabled]

/-- R168, R173: a RESTART that passes its checks: its effect, and the reply on its port. -/
theorem restart_run {s : State} {p : Port} {seq : Byte} (h : s.serving p = true)
    (ha : (s.port p).authority = .supervisory) (hm : s.mode ≠ .unconfigured) :
    exec (.restart p seq []) s = .next ((s.setPort p (s.dispatched p 0x26 seq)).restarted.setPort p
      { s.answered p 0x26 seq (.ok, [byte s.mode.code]) with flags := 0x80 }) := by
  have run : exec (.restart p seq []) s = .next (s.takeFrame p 0x26 seq (judged p .supervisory true restartBody)) := rfl
  obtain ⟨hears, live, idle⟩ := (serving_iff s p).1 h
  have enabled : ((s.setPort p (s.dispatched p 0x26 seq)).port p).enabled = true := by
    rw [State.setPort_port, if_pos rfl]
    exact enabled_of_hears s p hears
  have record := restarted_port (s := s.setPort p (s.dispatched p 0x26 seq)) hm p
  rw [if_pos enabled, State.setPort_port, if_pos rfl] at record
  have body : judged p .supervisory true restartBody (s.setPort p (s.dispatched p 0x26 seq)) =
      ((s.setPort p (s.dispatched p 0x26 seq)).restarted, some (.ok, [byte s.mode.code])) := by
    rw [judged_supervisory s p 0x26 seq _ ha]
    unfold restartBody answer
    rw [State.setPort_mode, if_neg hm, restarted_mode, State.setPort_mode]
  rw [run, takeFrame_serving s p 0x26 seq _ h, carryOut_answer _ _ p _ _ ⟨0x26, seq⟩ body (by rw [record]; rfl), record,
    ← dispatched_reply s p 0x26 seq _ idle]
  have active : (s.dispatched p 0x26 seq).liveness = .active := live
  rw [← active]
  rfl

/-- R53, R184: every other port once a RESTART has been answered. -/
theorem restart_others {s : State} {p : Port} {seq : Byte} (hm : s.mode ≠ .unconfigured) (x : PortRec) {q : Port}
    (hq : q ≠ p) : ((s.setPort p (s.dispatched p 0x26 seq)).restarted.setPort p x).port q =
      if (s.port q).enabled then { s.port q with
        liveness := .active
        deadline := some (s.keepDeadline q)
        flags := 0x80 } else s.port q := by
  rw [State.setPort_port, if_neg hq, restarted_port (s := s.setPort p (s.dispatched p 0x26 seq)) hm,
    State.setPort_port, if_neg hq]
  rfl

/-- A RESTART leaves every port's authority. -/
theorem restart_authority {s : State} {p : Port} {seq : Byte} (hm : s.mode ≠ .unconfigured) {x : PortRec}
    (hx : x.authority = (s.port p).authority) (q : Port) :
    ((s.setPort p (s.dispatched p 0x26 seq)).port q).authority =
      (((s.setPort p (s.dispatched p 0x26 seq)).restarted.setPort p x).port q).authority := by
  by_cases hq : q = p
  · rw [hq, dispatched_authority, State.setPort_port, if_pos rfl, hx]
  · rw [restart_others hm x hq, State.setPort_port, if_neg hq]
    split <;> rfl

end Sys2Proof.Machine

open Sys2Proof Sys2Proof.Machine

/-- Settles O41: every block cleared, then the plan and delivery's target made anew. -/
theorem restartClearsRunTimeState : Obligations.RestartClearsRunTimeState := by
  intro p seq s h ha
  refine ⟨fun hm => ?_, fun hm => ⟨_, restart_run h ha hm, ?_⟩⟩
  · have low : Authority.supervisory.rank ≤ (s.port p).authority.rank := by rw [ha]
    have run : exec (.restart p seq []) s =
      .next (s.takeFrame p 0x26 seq (judged p .supervisory true restartBody)) := rfl
    rw [run, permitted_refused (a := (.wrongMode, [])) h low]
    unfold restartBody
    rw [State.setPort_mode, if_pos hm]
    rfl
  · have record {q : Port} := restart_others (s := s) (p := p) (seq := seq) hm
      { s.answered p 0x26 seq (.ok, [byte s.mode.code]) with flags := 0x80 } (q := q)
    have authority := restart_authority (s := s) (p := p) (seq := seq) hm
      (x := { s.answered p 0x26 seq (.ok, [byte s.mode.code]) with flags := 0x80 }) rfl
    generalize hu : s.setPort p (s.dispatched p 0x26 seq) = u at *
    have before : u = { s with ports := u.ports } := by rw [← hu]; rfl
    have configured : u.mode ≠ .unconfigured := by rwa [before]
    have frame := restarted_frame configured
    have table := restarted_table configured
    have evaluator := restarted_evaluator configured
    have plan := restarted_plan configured
    have unit {i : Nat} {v : UnitRec} (hv : s.unit i = some v) := restarted_unit (i := i) (u := v) configured
      (by rw [before]; exact hv)
    have units := restarted_units configured (fun u => (u.state, u.good, u.miss, u.boot, u.misses, u.restarts))
      fun _ => rfl
    have idle := restarted_idle configured
    have confirmed := restarted_confirmed configured
    have completion := restarted_completion configured
    have drifts := restarted_drifts configured
    have epoch := restarted_epochZero configured
    have wanted := @restarted_wanted u configured
    have darkened := @restarted_redarkened u
    have line := restarted_line configured
    have queue := restarted_queue configured
    generalize u.restarted = t at *
    generalize u.cleared.planAnew = anew at *
    generalize u.cleared.evaluator.available = available at *
    generalize hx : t.setPort p _ = x at *
    have sender : x.port p = { s.answered p 0x26 seq (.ok, [byte s.mode.code]) with flags := 0x80 } := by
      rw [← hx, State.setPort_port, if_pos rfl]
    have placed : x = { t with ports := x.ports } := by rw [← hx]; rfl
    clear hx hu
    rw [before] at frame table evaluator plan units confirmed completion drifts epoch wanted darkened line queue
    rw [placed]
    refine ⟨?_, congrArg Table.entries table, (congrArg Table.nextArrival table).trans rfl, ?_, ?_, units,
      fun i v hv => ?_, idle, confirmed, completion, drifts, fun lit => ?_, fun live => ?_, fun shadow => ?_,
      fun lit i d hd e v => ?_, fun dark => ?_, congrArg Evaluator.epoch evaluator,
      congrArg Evaluator.pending evaluator, (congrArg Evaluator.holdSeen evaluator).trans rfl,
      congrArg Evaluator.running evaluator, fun committed => ?_, line, queue, sender, fun q hq => ⟨fun disabled => ?_, fun enabled => ?_⟩⟩
    · rw [frame]
    · exact (congrArg Table.demand table).trans ((List.map_congr_left fun spot _ =>
        demandAt_authority authority [] spot).trans (by rw [frame]))
    · exact (congrArg State.stations frame).trans rfl
    · obtain ⟨taken, handed⟩ := unit hv
      rw [before] at handed
      exact ⟨_, taken, judged_rejudged v.clearMarks, handed⟩
    · have zero := epoch lit
      exact ⟨zero.abandonments, zero.abandoned, zero.target, zero.epoch, zero.partless⟩
    · exact (epoch (by rw [live]; exact nofun)).state.trans (if_pos live)
    · exact (epoch (by rw [shadow]; exact nofun)).state.trans (if_neg (by rw [shadow]; exact nofun))
    · exact wanted lit hd e v
    · have formed := darkened dark
      exact ⟨formed.target, formed.epoch, formed.state, formed.released, formed.waits, fun i r d hd hr => by
        obtain ⟨e, he, darkens⟩ := formed.sites i r d hd hr
        exact ⟨e, he, darkens.congr Iff.rfl⟩, formed.lost⟩
    · have store : t.store = s.store := by rw [frame]
      refine ⟨fun live => ?_, fun other => ?_⟩
      · show AdoptedPlan { t with ports := x.ports } t.evaluator.plan
        rw [plan.trans (if_pos live)]
        exact adoptedPlan_adopted { t with ports := x.ports } (store.symm ▸ committed)
      · show ResetPlan t.store t.evaluator.plan
        rw [plan.trans (if_neg other), store]
        exact resetPlan_reset s.store committed
    · exact (record hq).trans (if_neg fun x => (PortRec.enabled_iff _).1 x disabled)
    · exact (record hq).trans (if_pos ((PortRec.enabled_iff _).2 enabled))
end

section
/-! SUPPORT. The frame check of R172: the residue of a register taken with its own two bytes, and the bytes of a frame
built with its check. -/

namespace Sys2Proof.Machine

/-! ## The residue (R172) -/

/-- A byte taken into the register is eight shifts of the register with the byte added to its high half. -/
theorem crcByte_eq (r : BitVec 16) (b : Byte) : crcByte r b = crcShift^[8] (r ^^^ (b.zeroExtend 16 <<< 8)) := rfl

/-- As long as no bit leaves the register, a shift doubles it. -/
theorem crcShift_toNat {r : BitVec 16} (h : 2 * r.toNat < 2 ^ 16) : (crcShift r).toNat = 2 * r.toNat := by
  have low : r.msb = false := by
    rw [BitVec.msb_eq_false_iff_two_mul_lt]
    exact h
  rw [crcShift, low, if_neg Bool.false_ne_true, BitVec.toNat_shiftLeft, Nat.shiftLeft_eq, Nat.mod_eq_of_lt] <;> omega

theorem crcShift_iterate_toNat (k : Nat) {r : BitVec 16} (h : 2 ^ k * r.toNat < 2 ^ 16) :
    (crcShift^[k] r).toNat = 2 ^ k * r.toNat := by
  induction k generalizing r with
  | zero => simp
  | succ k ih =>
    rw [pow_succ, Nat.mul_assoc] at h ⊢
    have one : (crcShift r).toNat = 2 * r.toNat :=
      crcShift_toNat (lt_of_le_of_lt (Nat.le_mul_of_pos_left _ (Nat.two_pow_pos k)) h)
    rw [Function.iterate_succ_apply, ih (by rw [one]; exact h), one]

/-- The high byte of a register added to its high half leaves the low byte. -/
theorem crc_high_cancels (r : BitVec 16) :
    r ^^^ ((byte (r.toNat / 256)).zeroExtend 16 <<< 8) = (byte r.toNat).zeroExtend 16 := by
  have high (i : Nat) (hi : i < 16) (h : ¬ i < 8) :
      (byte (r.toNat / 256)).getLsbD (i - 8) = r.getLsbD i := by
    have short : i - 8 < 8 := by omega
    have shift : r.toNat / 256 = r.toNat >>> 8 := (Nat.shiftRight_eq_div_pow _ 8).symm
    rw [byte, BitVec.getLsbD_ofNat, shift, Nat.testBit_shiftRight, decide_eq_true short, Bool.true_and,
      Nat.add_sub_cancel' (Nat.le_of_not_lt h)]
    rfl
  refine BitVec.eq_of_getLsbD_eq fun i hi => ?_
  simp only [BitVec.getLsbD_xor, BitVec.getLsbD_shiftLeft, BitVec.zeroExtend, BitVec.getLsbD_setWidth]
  by_cases h : i < 8
  · simp [h, hi, byte, BitVec.getLsbD_ofNat]
  · have out : (byte r.toNat).getLsbD i = false := BitVec.getLsbD_of_ge _ _ (Nat.le_of_not_lt h)
    rw [high i hi h, out]
    have short : i - 8 < 16 := by omega
    simp [h, hi, short]

/-- R172: a register taken with its own two bytes, high byte first, is 0. -/
theorem crc_self_residue (r : BitVec 16) : (be16 r.toNat).foldl crcByte r = 0 := by
  have small : ((byte r.toNat).zeroExtend 16).toNat < 2 ^ 8 := by
    rw [BitVec.zeroExtend, BitVec.toNat_setWidth]
    exact lt_of_le_of_lt (Nat.mod_le _ _) (byte r.toNat).isLt
  have high : crcByte r (byte (r.toNat / 256)) = (byte r.toNat).zeroExtend 16 <<< 8 := by
    apply BitVec.eq_of_toNat_eq
    rw [crcByte_eq, crc_high_cancels, crcShift_iterate_toNat 8 (by omega), BitVec.toNat_shiftLeft, Nat.shiftLeft_eq,
      Nat.mod_eq_of_lt (by omega), Nat.mul_comm]
  have low : crcByte ((byte r.toNat).zeroExtend 16 <<< 8) (byte r.toNat) = 0 := by
    apply BitVec.eq_of_toNat_eq
    rw [crcByte_eq, BitVec.xor_self, crcShift_iterate_toNat 8 (by decide)]
    rfl
  show crcByte (crcByte r (byte (r.toNat / 256))) (byte r.toNat) = 0
  rw [high, low]

/-! ## A frame built with its check (R170 to R172) -/

/-- R171: the bytes of a command frame with its check, and any bytes after it, are a good frame. -/
theorem goodFrame_built (code seq : Byte) (payload extra : List Byte) (h : payload.length ≤ 240) :
    goodFrame ((byte payload.length :: code :: seq :: payload) ++
      crcBytes (byte payload.length :: code :: seq :: payload) ++ extra) = some (code, seq, payload) := by
  have len : (byte payload.length).toNat = payload.length := (byte_toNat _).trans (Nat.mod_eq_of_lt (by omega))
  generalize byte payload.length = n at len ⊢
  generalize hc : crcBytes (n :: code :: seq :: payload) = check
  have two : check.length = 2 := by rw [← hc]; rfl
  simp only [goodFrame, List.cons_append, List.append_assoc, len, List.take_left, List.drop_left, hc]
  refine if_pos ⟨h, ?_, ?_⟩
  · simp only [List.length_append, two]
    omega
  · rw [← two, List.take_left]

/-- R170, R173: the row of a write transaction with a good frame. -/
theorem transactionRow_goodFrame (p : Port) (busy : Bool) {frame : List Byte} {code seq : Byte} {payload : List Byte}
    (h : goodFrame frame = some (code, seq, payload)) : transactionRow p busy (writeKind :: frame) =
      some (if busy then .overrun p else commandOf p code seq payload) := by
  have write : writeKind ≠ readKind := by decide
  simp only [transactionRow, if_neg write, h, if_true]
  cases busy <;> rfl

/-- Section 10.3: a code that names no command. -/
theorem commandOf_unknown (p : Port) {code : Byte} (seq : Byte) (payload : List Byte) (h : code ∉ knownCodes) :
    commandOf p code seq payload = .unknownCommand p code seq payload := by
  have spelled {n : Nat} (hn : code.toNat = n) : BitVec.ofNat 8 n ∉ knownCodes := by
    rw [← hn, BitVec.ofNat_toNat, BitVec.setWidth_eq]
    exact h
  unfold commandOf
  split <;> first
    | rfl
    | exact (spelled ‹code.toNat = _›).elim (by decide)

/-- The command of a good frame is well formed. -/
theorem commandOf_wellFormed (p : Port) (code seq : Byte) {payload : List Byte} (h : payload.length ≤ 240) :
    wellFormed (commandOf p code seq payload) = true := by
  have fits : payloadFits payload = true := decide_eq_true h
  by_cases known : code ∈ knownCodes
  · simp only [knownCodes, List.mem_cons, List.not_mem_nil, or_false] at known
    rcases known with rfl | rfl | rfl | rfl | rfl | rfl | rfl | rfl | rfl | rfl | rfl | rfl | rfl | rfl | rfl | rfl |
      rfl | rfl | rfl | rfl | rfl
    on_goal 12 =>
      show wellFormed (if payload = [] then .withdrawAll p seq else .withdraw p seq payload) = true
      split
      · rfl
      · exact (Bool.and_eq_true _ _).mpr ⟨decide_eq_true ‹_›, fits⟩
    on_goal 19 =>
      show wellFormed (if payload = [1] then .setModeShadow p seq payload else .setModeLive p seq payload) = true
      split
      · exact decide_eq_true ‹_›
      · exact (Bool.and_eq_true _ _).mpr ⟨decide_eq_true ‹_›, fits⟩
    all_goals exact fits
  · rw [commandOf_unknown p seq payload known, wellFormed, fits, decide_eq_true known]
    rfl

end Sys2Proof.Machine

open Sys2Proof Sys2Proof.Machine

/-- Settles O13: the check is a register, and a register taken with its own two bytes is 0. -/
theorem frameCheckResidue : Obligations.FrameCheckResidue := by
  refine ⟨by decide +kernel, fun bytes => ?_⟩
  rw [crc, List.foldl_append]
  exact crc_self_residue (crc bytes)

/-- Settles O12: the built bytes are a good frame, and its command is the well-formed one of its CMD. -/
theorem builtFrameIsTakenAsItsCommand : Obligations.BuiltFrameIsTakenAsItsCommand := by
  intro p busy code seq payload extra h covered
  refine ⟨transactionRow_goodFrame p busy (goodFrame_built code seq payload extra h),
    commandOf_wellFormed p code seq h, ?_⟩
  by_cases known : code ∈ knownCodes
  · exact (commandOf_known p code seq payload known).1
  · rw [commandOf_unknown p seq payload known]
    rfl
end

section
/-! SUPPORT. The transactions that carry out no command (R170, R171, R173, R174), and the two output lines of a port
(R174, R182). -/

namespace Sys2Proof.Machine

/-! ## Transactions on a port that hears -/

/-- A change of a port that takes transactions is made on its record. -/
theorem onPort_heard {s : State} {p : Port} (h : s.hears p = true) (f : PortRec → PortRec) :
    s.onPort p f = s.setPort p (f (s.port p)) := if_pos h

/-! ## Reads (R174) -/

/-- R177: the reasons in the order of their codes. -/
theorem reasons_code (r : Reason) : reasons[r.code]? = some r := by cases r <;> rfl

/-- Section 10.1: the bytes of a reply frame. -/
theorem Reply.frame_bytes (r : Reply) : ReplyBytes r r.frame := ⟨r.reason.code, reasons_code r.reason, rfl⟩

theorem Reply.frame_length (r : Reply) : r.frame.length = r.payload.length + 6 := by
  have check (covered : List Byte) : (crcBytes covered).length = 2 := rfl
  simp only [Reply.frame, List.length_append, List.length_cons, check]

/-- What is shifted out as far as it is clocked, 00 after the frame's end. -/
theorem shiftedOut_eq (frame : List Byte) (n : Nat) :
    shiftedOut frame n = frame.take n ++ List.replicate (n - frame.length) 0 := by
  rw [shiftedOut, List.take_append, List.take_replicate, Nat.min_self]

/-- A reply read in full leaves the slot. -/
theorem readOut_whole {r : PortRec} {x : Reply} (hr : r.reply = some x) {n : Nat} (h : x.frame.length ≤ n) :
    r.readOut n = { r with
      reply := none
      shifted := 0 :: (x.frame ++ List.replicate (n - x.frame.length) 0) } := by
  simp only [PortRec.readOut, PortRec.readFrame, hr, if_pos h, shiftedOut_eq, List.take_of_length_le h]

/-- A reply cut short stays in the slot. -/
theorem readOut_cut {r : PortRec} {x : Reply} (hr : r.reply = some x) {n : Nat} (h : n < x.frame.length) :
    r.readOut n = { r with shifted := 0 :: x.frame.take n } := by
  have none_left : n - x.frame.length = 0 := by omega
  simp only [PortRec.readOut, PortRec.readFrame, hr, if_neg (Nat.not_le.2 h), shiftedOut_eq, none_left,
    List.replicate_zero, List.append_nil]

/-- A read of an empty slot changes nothing but the bytes shifted. -/
theorem readOut_empty {r : PortRec} (hr : r.reply = none) (n : Nat) :
    r.readOut n = { r with shifted := 0 :: (emptyReply.take n ++ List.replicate (n - 6) 0) } := by
  simp only [PortRec.readOut, PortRec.readFrame, hr, shiftedOut_eq, ite_self]
  rfl

/-! ## Bad frames (R171) -/

theorem reject_executing {r : PortRec} (h : r.command.isSome = true) (frame : List Byte) :
    r.reject frame = r.frameError := if_pos h

/-- On an IDLE port a REJECT takes the reply slot, and an unread reply there is an overrun. -/
theorem reject_idle {r : PortRec} (h : r.command = none) (frame : List Byte) : r.reject frame = { r.frameError with
    overrun := r.overrun || r.reply.isSome
    overruns := if r.reply.isSome then countUp r.overruns else r.overruns
    reply := some (rejectReply frame) } := by
  have idle : ¬ r.executing = true := by simp [PortRec.executing, h]
  rw [PortRec.reject, if_neg idle]
  cases hr : r.reply <;> simp [PortRec.overran, PortRec.frameError]

/-! ## Overruns (R173) -/

/-- On an EXECUTING port the OVERRUN event is the taking of a frame, whatever the frame's command. -/
theorem overrun_executing {s : State} {p : Port} (h : s.hears p = true) (busy : (s.port p).command.isSome = true)
    (code seq : Byte) (body : CommandBody) : exec (.overrun p) s = .next (s.takeFrame p code seq body) := by
  have executing : ((s.goodFrameTaken p).port p).executing = true := by rw [goodFrameTaken_port]; exact busy
  rw [takeFrame_heard s p code seq body h, if_pos executing]
  exact congrArg Host.Outcome.next (if_pos h)

/-! ## The output lines (R174, R182) -/

theorem readyLine_iff (r : PortRec) : r.readyLine = true ↔ ∃ x, r.reply = some x := Option.isSome_iff_exists

/-- R182: ATTENTION is high while some flag is set that the mask allows. -/
theorem attentionLine_iff (r : PortRec) :
    r.attentionLine = true ↔ ∃ i < 8, r.flags.getLsbD i = true ∧ r.mask.getLsbD i = true := by
  have both (i : Nat) : (r.flags &&& r.mask).getLsbD i = true ↔
      r.flags.getLsbD i = true ∧ r.mask.getLsbD i = true := by
    rw [BitVec.getLsbD_and, Bool.and_eq_true]
  rw [PortRec.attentionLine, decide_eq_true_iff]
  constructor
  · intro raised
    by_contra low
    refine raised (BitVec.eq_of_getLsbD_eq fun i hi => ?_)
    exact (Bool.eq_false_iff.2 fun h => low ⟨i, hi, (both i).1 h⟩).trans BitVec.getLsbD_zero.symm
  · rintro ⟨i, -, h⟩ zero
    have bit := (both i).2 h
    rw [zero] at bit
    cases BitVec.getLsbD_zero.symm.trans bit

end Sys2Proof.Machine

open Sys2Proof Sys2Proof.Machine

/-- Settles O10: what is shifted out is the waiting reply's frame or the empty reply's, and the slot empties at the
frame's last byte. -/
theorem readTransactionShiftsReply : Obligations.ReadTransactionShiftsReply := by
  intro p n s h
  have run : exec (.readTransaction p n) s = .next (s.setPort p ((s.port p).readOut n)) :=
    congrArg Host.Outcome.next (onPort_heard h _)
  refine ⟨fun r hr => ⟨r.frame, r.frame_bytes, r.frame_length, fun whole => ?_, fun cut => ?_⟩, fun hr => ?_⟩
  · rw [run, readOut_whole hr whole]
  · rw [run, readOut_cut hr cut]
  · rw [run, readOut_empty hr]
    rfl

/-- Settles O11: both count a frame error on the port's record; a bad frame's REJECT is placed while the port is IDLE. -/
theorem voidAndBadFramesCountFrameErrors : Obligations.VoidAndBadFramesCountFrameErrors := by
  intro p sdi frame s h _ counted
  have bad : exec (.badFrame p frame) s = .next (s.setPort p ((s.port p).reject frame)) :=
    congrArg Host.Outcome.next (onPort_heard h _)
  refine ⟨congrArg Host.Outcome.next (onPort_heard h _), fun busy => ?_, fun idle => ?_⟩
  · rw [bad, reject_executing busy]
    rfl
  · rw [bad, reject_idle idle]
    rfl

/-- Settles O15: the frame restarts the deadline and is discarded, whatever its command. -/
theorem frameWhileExecutingIsOverrun : Obligations.FrameWhileExecutingIsOverrun := by
  intro c f s hc h live busy
  rcases hc with ⟨hf, hw⟩ | rfl
  · obtain ⟨body, rule⟩ := exec_command c f hf
    rw [rule.taken (codeApt_of_wellFormed hw), takeFrame_executing s _ _ _ body h live busy]
    rfl
  · rw [overrun_executing h busy f.code f.seq (refuse .ok), takeFrame_executing s _ _ _ _ h live busy]
    rfl
end

section
/-! SUPPORT. Every command but an accepted COMMIT is answered in its own step (R173, R177). -/

namespace Sys2Proof.Machine

/-! ## Rules that answer -/

/-- R8, R173: a command of this code has its answer, or is a COMMIT whose validation has begun. -/
def Completes (code : Byte) (x : State × Option Answer) : Prop :=
  x.2 = none → code = commitCode ∧ x.1.store.commit = .validating

theorem refuse_completes {code : Byte} {r : Reason} {s : State} : Completes code (refuse r s) := nofun

theorem answer_completes {code : Byte} {r : Reason} {payload : List Byte} {s : State} :
    Completes code (answer r payload s) := nofun

theorem Completes.ite {code : Byte} {c : Prop} [Decidable c] {x y : State × Option Answer} (h : Completes code x)
    (g : Completes code y) : Completes code (if c then x else y) := by
  split
  · exact h
  · exact g

theorem judged_completes {code : Byte} {body : CommandBody} (h : ∀ s, Completes code (body s)) (p : Port)
    (needed : Authority) (form : Bool) (s : State) : Completes code (judged p needed form body s) :=
  .ite refuse_completes (.ite refuse_completes (h s))

/-! ## Commands that every authority may send -/

theorem readPlanBody_completes {code : Byte} {first last : Nat} (s : State) :
    Completes code (readPlanBody first last s) :=
  .ite answer_completes (.ite refuse_completes answer_completes)

theorem readUnitsBody_completes {code : Byte} {first last : Nat} (s : State) :
    Completes code (readUnitsBody first last s) :=
  .ite refuse_completes answer_completes

theorem readStationsBody_completes {code : Byte} {first last : Nat} (s : State) :
    Completes code (readStationsBody first last s) :=
  .ite refuse_completes answer_completes

theorem readDeliveryBody_completes {code : Byte} {first last : Nat} (s : State) :
    Completes code (readDeliveryBody first last s) :=
  .ite answer_completes (.ite refuse_completes answer_completes)

/-! ## Commands of the request table -/

theorem requestBody_completes {code : Byte} {p : Port} {r : RequestFields} (s : State) :
    Completes code (requestBody p r s) := by
  refine .ite refuse_completes (.ite refuse_completes (.ite refuse_completes (.ite refuse_completes ?_)))
  split
  · exact answer_completes
  · split
    · exact refuse_completes
    · exact .ite refuse_completes answer_completes

theorem withdrawBody_completes {code : Byte} {p : Port} {tag : Nat} (s : State) :
    Completes code (withdrawBody p tag s) := by
  refine .ite refuse_completes ?_
  split
  · exact refuse_completes
  · exact answer_completes

theorem withdrawAllBody_completes {code : Byte} {p : Port} (s : State) : Completes code (withdrawAllBody p s) :=
  .ite refuse_completes answer_completes

theorem releaseBody_completes {code : Byte} {p : Port} {requester first last : Nat} (s : State) :
    Completes code (releaseBody p requester first last s) := by
  refine .ite refuse_completes ?_
  split
  · exact refuse_completes
  · exact .ite refuse_completes answer_completes

theorem inhibitBody_completes {code : Byte} {k seconds : Nat} (s : State) :
    Completes code (inhibitBody k seconds s) := by
  refine .ite refuse_completes (.ite refuse_completes ?_)
  split
  · exact refuse_completes
  · exact answer_completes

/-! ## Commands of the configuration store -/

theorem geometryBody_completes {α : Type} {code : Byte} {p : Port} {slots given : Nat} {records : List (Placed α)}
    {place : Nat → List (Option α) → Store → Store} (s : State) :
    Completes code (geometryBody p slots given records place s) := by
  refine .ite refuse_completes (.ite refuse_completes (.ite refuse_completes ?_))
  split <;> exact answer_completes

theorem boundaryBody_completes {code : Byte} {payload : List Byte} (s : State) :
    Completes code (boundaryBody payload s) := by
  refine .ite refuse_completes ?_
  split
  · exact refuse_completes
  · exact answer_completes

/-- R8: a COMMIT goes on executing where its validation begins. -/
theorem commitBody_completes (s : State) : Completes commitCode (commitBody s) :=
  .ite refuse_completes fun _ => ⟨rfl, rfl⟩

theorem paramBody_completes {code : Byte} {pairs : List (Nat × Nat)} (s : State) :
    Completes code (paramBody pairs s) := by
  refine .ite refuse_completes ?_
  split
  · exact answer_completes
  · dsimp only
    split
    · exact answer_completes
    · exact nofun

theorem restartBody_completes {code : Byte} (s : State) : Completes code (restartBody s) :=
  .ite refuse_completes answer_completes

/-! ## Every command -/

/-- A command is taken, with its frame, by a rule that completes. -/
def TakenToCompletion (c : Instr) (f : Sent) : Prop :=
  ∃ body, (∀ s, exec c s = .next (s.takeFrame f.port f.code f.seq body)) ∧ ∀ s, Completes f.code (body s)

/-- Judged by its authority and its form, a command is refused where its own rule is not reached. -/
theorem TakenToCompletion.judged {c : Instr} {p : Port} {code seq : Byte} {needed : Authority} {form : Bool}
    {body : CommandBody} (hx : ∀ s, exec c s = .next (s.takeFrame p code seq (Machine.judged p needed form body)))
    (hb : ∀ s, Completes code (body s)) : TakenToCompletion c ⟨p, code, seq⟩ :=
  ⟨_, hx, judged_completes hb p needed form⟩

/-- Each command that a good frame carries is taken by a rule that completes. -/
theorem exec_completes (c : Instr) (f : Sent) (h : sentFrame c = some f) (ha : CodeApt c) : TakenToCompletion c f := by
  cases c with
  | unknownCommand p code seq payload =>
    cases h
    exact ⟨_, (CommandRule.unknown p code seq payload).taken ha, fun _ => refuse_completes⟩
  | setModeLive | setModeShadow =>
    cases h
    exact ⟨_, fun _ => rfl, fun _ => answer_completes⟩
  | status | keepalive | readEntries | notices | setNoticeMask | counters =>
    cases h
    exact .judged (fun _ => rfl) fun _ => answer_completes
  | readPlan => cases h; exact .judged (fun _ => rfl) readPlanBody_completes
  | readUnits => cases h; exact .judged (fun _ => rfl) readUnitsBody_completes
  | readStations => cases h; exact .judged (fun _ => rfl) readStationsBody_completes
  | readDelivery => cases h; exact .judged (fun _ => rfl) readDeliveryBody_completes
  | request => cases h; exact .judged (fun _ => rfl) requestBody_completes
  | withdraw => cases h; exact .judged (fun _ => rfl) withdrawBody_completes
  | withdrawAll => cases h; exact .judged (fun _ => rfl) withdrawAllBody_completes
  | release => cases h; exact .judged (fun _ => rfl) releaseBody_completes
  | inhibitQp => cases h; exact .judged (fun _ => rfl) inhibitBody_completes
  | geometryWrite | stationWrite => cases h; exact .judged (fun _ => rfl) geometryBody_completes
  | boundaryWrite => cases h; exact .judged (fun _ => rfl) boundaryBody_completes
  | commit => cases h; exact .judged (fun _ => rfl) commitBody_completes
  | paramSet => cases h; exact .judged (fun _ => rfl) paramBody_completes
  | restart => cases h; exact .judged (fun _ => rfl) restartBody_completes
  | _ => cases h

/-! ## The sender's slots -/

/-- What a rule leaves holds each port's command slot and reply slot as they stood. -/
theorem RuleLeaves.slots {s t : State} (h : RuleLeaves s t) (p : Port) :
    (t.port p).command = (s.port p).command ∧ (t.port p).reply = (s.port p).reply := by
  rcases h with h | h
  · exact ⟨(h.records p).command, (h.records p).reply⟩
  · have restarted : (s.restartPorts.port p).command = (s.port p).command ∧
        (s.restartPorts.port p).reply = (s.port p).reply := by
      rw [restartPorts_port]
      split <;> exact ⟨rfl, rfl⟩
    exact ⟨(h.records p).command.trans restarted.1, (h.records p).reply.trans restarted.2⟩

/-- R173: a command carried out empties its command slot for its reply, or goes on executing. -/
theorem carryOut_slots {s : State} {p : Port} {body : CommandBody} {c : Command} (h : RuleLeaves s (body s).1)
    (hc : (s.port p).command = some c) (hr : (s.port p).reply = none) :
    (((s.carryOut p body).port p).command = none ∧
      ∃ a : Answer, ((s.carryOut p body).port p).reply = some ⟨replyCode c.code, c.seq, a.1, a.2⟩) ∨
    (((s.carryOut p body).port p).reply = none ∧ ((s.carryOut p body).port p).command = some c) := by
  obtain ⟨command, reply⟩ := h.slots p
  rcases hb : body s with ⟨t, _ | a⟩
  · rw [hb] at command reply
    rw [carryOut_silent s t p body hb]
    exact Or.inr ⟨reply.trans hr, command.trans hc⟩
  · rw [hb] at command
    rw [carryOut_answer s t p body a c hb (command.trans hc), State.setPort_port, if_pos rfl]
    exact Or.inl ⟨rfl, a, rfl⟩

/-- A command that is answered leaves its command slot empty. -/
theorem carryOut_busy {s : State} {p : Port} {body : CommandBody} (h : ((s.carryOut p body).port p).command ≠ none) :
    (body s).2 = none ∧ s.carryOut p body = (body s).1 := by
  rcases hb : body s with ⟨t, _ | a⟩
  · exact ⟨rfl, carryOut_silent s t p body hb⟩
  · refine absurd ?_ h
    simp only [State.carryOut, hb, State.placeReply]
    split
    · assumption
    · rw [State.setPort_port, if_pos rfl]

end Sys2Proof.Machine

open Sys2Proof Sys2Proof.Machine

/-- Settles O16: the command is carried out with its slot filled and no reply waiting, and its rule answers or begins a
validation. -/
theorem everyCommandIsAnswered : Obligations.EveryCommandIsAnswered := by
  intro c f s t hf hw h run
  have apt := codeApt_of_wellFormed hw
  obtain ⟨body, rule⟩ := exec_command c f hf
  obtain ⟨body', taken, completes⟩ := exec_completes c f hf apt
  have carried {b : CommandBody} (hb : exec c s = .next (s.takeFrame f.port f.code f.seq b)) :
      (s.setPort f.port (s.dispatched f.port f.code f.seq)).carryOut f.port b = t := by
    rw [← takeFrame_serving s _ _ _ b h]
    exact Host.Outcome.next.inj (hb.symm.trans run)
  have sender : (s.setPort f.port (s.dispatched f.port f.code f.seq)).port f.port = s.dispatched f.port f.code f.seq :=
    (State.setPort_port ..).trans (if_pos rfl)
  have slots := carryOut_slots (rule.ports _) (c := ⟨f.code, f.seq⟩) (by rw [sender]; rfl) (by rw [sender]; rfl)
  rw [carried (rule.taken apt s)] at slots
  rcases slots with ⟨idle, a, reply⟩ | ⟨reply, busy⟩
  · exact Or.inl ⟨idle, _, reply, rfl, rfl⟩
  · obtain ⟨silent, same⟩ := carryOut_busy (body := body') (by rw [carried (taken s), busy]; exact nofun)
    obtain ⟨code, validating⟩ := completes _ silent
    rw [← same, carried (taken s)] at validating
    exact Or.inr ⟨code, validating, reply, busy⟩
end

section
/-! SUPPORT. STATUS, NOTICES, SET_NOTICE_MASK and COUNTERS on a port that serves them (R179, R180, R182, R183). -/

namespace Sys2Proof.Machine

/-! ## A command that changes its sender's record -/

/-- A change of a port's record that leaves the command slot and the reply slot alone. -/
def BesideSlots (g : PortRec → PortRec) : Prop :=
  ∀ r c x, g { r with command := c, reply := x } = { g r with command := c, reply := x }

/-- A permitted command whose rule changes the sender's record beside its slots, and is answered. -/
theorem permitted_edits {s t : State} {p : Port} {code seq : Byte} {needed : Authority} {body : CommandBody}
    {a : Answer} {g : PortRec → PortRec} (hg : BesideSlots g) (h : s.serving p = true)
    (ha : needed.rank ≤ (s.port p).authority.rank)
    (hb : body (s.setPort p (s.dispatched p code seq)) = (t, some a)) (ht : t.port p = g (s.dispatched p code seq)) :
    s.takeFrame p code seq (judged p needed true body) = t.setPort p (g (s.answered p code seq a)) := by
  obtain ⟨-, -, hc⟩ := (serving_iff s p).1 h
  have passes := judged_passes p needed body (s.setPort p (s.dispatched p code seq)) (by
    rw [State.setPort_port, if_pos rfl]
    exact Nat.not_lt.2 ha)
  have command : (t.port p).command = some ⟨code, seq⟩ := by
    rw [ht]
    exact congrArg PortRec.command (hg (s.dispatched p code seq) (some ⟨code, seq⟩) none)
  rw [takeFrame_serving s p code seq _ h, carryOut_answer _ t p _ a ⟨code, seq⟩ (passes.trans hb) command, ht, ← hg,
    dispatched_reply s p code seq a hc]

/-- Such a command that changes nothing else. -/
theorem permitted_rewrites {s : State} {p : Port} {code seq : Byte} {needed : Authority} {body : CommandBody}
    {a : Answer} {g : PortRec → PortRec} (hg : BesideSlots g) (h : s.serving p = true)
    (ha : needed.rank ≤ (s.port p).authority.rank)
    (hb : body (s.setPort p (s.dispatched p code seq)) = (s.setPort p (g (s.dispatched p code seq)), some a)) :
    s.takeFrame p code seq (judged p needed true body) = s.setPort p (g (s.answered p code seq a)) := by
  rw [permitted_edits hg h ha hb (by rw [State.setPort_port, if_pos rfl]), State.setPort_setPort]

/-- What a dispatch leaves of a port's authority and liveness. -/
theorem dispatched_standing (s : State) (p : Port) (code seq : Byte) (q : Port) :
    ((s.setPort p (s.dispatched p code seq)).port q).authority = (s.port q).authority ∧
      ((s.setPort p (s.dispatched p code seq)).port q).liveness = (s.port q).liveness := by
  rw [State.setPort_port]
  split
  · subst_vars
    exact ⟨rfl, rfl⟩
  · exact ⟨rfl, rfl⟩

/-! ## Items of every port and of every line -/

theorem allPorts_flatMap {α : Type} (f : Port → List α) : allPorts.flatMap f = f .a ++ f .b ++ f .c := by
  simp [allPorts]

theorem allLines_flatMap {α : Type} (f : LineId → List α) : allLines.flatMap f = f .one ++ f .two := by
  simp [allLines]

/-! ## STATUS (R179) -/

/-- R176: a port's two bytes, of which a DISABLED port has no liveness. -/
theorem PortRec.statusBytes_eq (r : PortRec) : r.statusBytes =
    [byte r.authority.rank, if r.authority = .disabled then 0xFF else byte r.liveness.code] := by
  unfold PortRec.statusBytes PortRec.enabled
  cases r.authority <;> rfl

/-- The overrun flag cleared once it is reported. -/
def PortRec.overrunRead (r : PortRec) : PortRec := { r with overrun := false }

theorem exec_status {s : State} {p : Port} (seq : Byte) (h : s.serving p = true) : exec (.status p seq []) s =
    .next (s.setPort p { s.answered p 0x01 seq
      (.ok, (s.setPort p (s.dispatched p 0x01 seq)).statusBytes p) with overrun := false }) := by
  have beside : BesideSlots PortRec.overrunRead := fun _ _ _ => rfl
  have body : statusBody p (s.setPort p (s.dispatched p 0x01 seq)) =
      (s.setPort p (s.dispatched p 0x01 seq).overrunRead,
        some (.ok, (s.setPort p (s.dispatched p 0x01 seq)).statusBytes p)) := by
    unfold statusBody answer
    rw [State.setPort_setPort, State.setPort_port, if_pos rfl]
    rfl
  exact congrArg Host.Outcome.next (permitted_rewrites beside h (monitor_le h) body)

/-! ## NOTICES and SET_NOTICE_MASK (R182, R183) -/

/-- The flags cleared once they are reported. -/
def PortRec.noticed (r : PortRec) : PortRec := { r with flags := 0 }

/-- R183: with no flag set ATTENTION is low. -/
theorem attentionLine_noticed (r : PortRec) : r.noticed.attentionLine = false := by
  rw [Bool.eq_false_iff, ne_eq, attentionLine_iff]
  rintro ⟨i, -, set, -⟩
  cases BitVec.getLsbD_zero.symm.trans set

/-- The mask replaced. -/
def PortRec.masked (mask : Byte) (r : PortRec) : PortRec := { r with mask := mask }

/-- A last completion is reported beside the ports' records. -/
theorem setPort_drawCompletion (s : State) (p : Port) (r : PortRec) :
    s.drawCompletion.setPort p r = (s.setPort p r).drawCompletion := by
  rw [drawCompletion_eq, drawCompletion_eq]
  rfl

theorem exec_notices {s : State} {p : Port} (seq : Byte) (h : s.serving p = true) : exec (.notices p seq []) s =
    .next { s.setPort p { s.answered p 0x08 seq (.ok, s.noticeBytes p) with flags := 0 } with
      drawn := if s.delivery.completion = none then s.drawn + 1 else s.drawn } := by
  have beside : BesideSlots PortRec.noticed := fun _ _ _ => rfl
  have bytes : (s.setPort p (s.dispatched p 0x08 seq)).noticeBytes p = s.noticeBytes p := by
    unfold State.noticeBytes
    rw [State.setPort_port, if_pos rfl]
    rfl
  have body : noticesBody p (s.setPort p (s.dispatched p 0x08 seq)) =
      ((s.setPort p (s.dispatched p 0x08 seq).noticed).drawCompletion, some (.ok, s.noticeBytes p)) := by
    unfold noticesBody answer
    rw [State.setPort_setPort, bytes, State.setPort_port, if_pos rfl]
    rfl
  have sender : ((s.setPort p (s.dispatched p 0x08 seq).noticed).drawCompletion).port p =
      (s.dispatched p 0x08 seq).noticed := by
    rw [drawCompletion_eq]
    exact (State.setPort_port ..).trans (if_pos rfl)
  refine congrArg Host.Outcome.next ((permitted_edits beside h (monitor_le h) body sender).trans ?_)
  rw [setPort_drawCompletion, State.setPort_setPort, drawCompletion_eq]
  rfl

theorem exec_setNoticeMask {s : State} {p : Port} (seq mask : Byte) (h : s.serving p = true) :
    exec (.setNoticeMask p seq [mask]) s =
      .next (s.setPort p { s.answered p 0x09 seq (.ok, [mask]) with mask := mask }) := by
  have beside : BesideSlots (PortRec.masked mask) := fun _ _ _ => rfl
  have body : setNoticeMaskBody p mask (s.setPort p (s.dispatched p 0x09 seq)) =
      (s.setPort p ((s.dispatched p 0x09 seq).masked mask), some (.ok, [mask])) := by
    unfold setNoticeMaskBody answer
    rw [State.setPort_setPort, State.setPort_port, if_pos rfl]
    rfl
  exact congrArg Host.Outcome.next (permitted_rewrites beside h (monitor_le h) body)

/-- The 9 bytes of NOTICES: the flags, the mask, the epoch and the last completion. -/
theorem noticeBytes_length (s : State) (p : Port) : (s.noticeBytes p).length = 9 := by
  unfold State.noticeBytes
  cases s.delivery.completion <;> rfl

theorem noticeBytes_drop (s : State) (p : Port) :
    (s.noticeBytes p).drop 4 = completionBytes s.drawn s.delivery.completion := rfl

/-! ## COUNTERS (R180) -/

/-- R176: a port's eight bytes, all 0 for a DISABLED port. -/
theorem PortRec.counterBytes_eq (r : PortRec) : r.counterBytes =
    if r.authority = .disabled then [0, 0, 0, 0, 0, 0, 0, 0]
    else be16 r.frameErrors ++ be16 r.overruns ++ be16 r.commands ++ be16 r.silences := by
  unfold PortRec.counterBytes PortRec.enabled
  cases r.authority <;> rfl

theorem PortRec.counterBytes_length (r : PortRec) : r.counterBytes.length = 8 := by
  unfold PortRec.counterBytes
  split <;> rfl

theorem counterBytes_length (s : State) (cleared : Bool) : (s.counterBytes cleared).length = 53 := by
  have line (c : LineCounters) : c.bytes.length = 12 := rfl
  simp only [State.counterBytes, allPorts_flatMap, allLines_flatMap, List.length_cons, List.length_append,
    PortRec.counterBytes_length, line]
  rfl

/-- R180: COUNTERS reports the ports with its own dispatch counted, and then clears every counter or none. -/
theorem exec_counters {s : State} {p : Port} (seq ask : Byte) (h : s.serving p = true) {clears : Bool}
    (hc : clears = decide ((s.port p).authority = .supervisory ∧ ask ≠ 0)) :
    exec (.counters p seq [ask]) s = .next
      (if clears then (s.setPort p (s.dispatched p 0x0A seq)).clearCounters.setPort p (s.answered p 0x0A seq
          (.ok, (s.setPort p (s.dispatched p 0x0A seq)).counterBytes clears)).clearCounters
        else s.setPort p (s.answered p 0x0A seq
          (.ok, (s.setPort p (s.dispatched p 0x0A seq)).counterBytes clears))) := by
  have run : exec (.counters p seq [ask]) s =
    .next (s.takeFrame p 0x0A seq (judged p .monitor true (countersBody p ask))) := rfl
  have body : countersBody p ask (s.setPort p (s.dispatched p 0x0A seq)) =
      (if clears then (s.setPort p (s.dispatched p 0x0A seq)).clearCounters else s.setPort p (s.dispatched p 0x0A seq),
        some (.ok, (s.setPort p (s.dispatched p 0x0A seq)).counterBytes clears)) := by
    unfold countersBody answer
    rw [(dispatched_standing s p 0x0A seq p).1, hc]
  rw [run]
  cases clears with
  | true =>
    have beside : BesideSlots PortRec.clearCounters := fun _ _ _ => rfl
    have sender : ((s.setPort p (s.dispatched p 0x0A seq)).clearCounters).port p =
        (s.dispatched p 0x0A seq).clearCounters := by
      refine (PerPort.get_map ..).trans (congrArg PortRec.clearCounters ?_)
      exact (State.setPort_port ..).trans (if_pos rfl)
    exact congrArg Host.Outcome.next (permitted_edits beside h (monitor_le h) body sender)
  | false => exact congrArg Host.Outcome.next (permitted_refused h (monitor_le h) body)

end Sys2Proof.Machine

open Sys2Proof Sys2Proof.Machine

/-- Settles O20: the bytes report the state with the STATUS dispatched, and the reply then finds the flag cleared. -/
theorem statusReportsAndClearsOverrun : Obligations.StatusReportsAndClearsOverrun := by
  intro p seq s h portBytes lineBytes bytes
  have port (q : Port) : ((s.setPort p (s.dispatched p 0x01 seq)).port q).statusBytes = portBytes q := by
    obtain ⟨authority, liveness⟩ := dispatched_standing s p 0x01 seq q
    rw [PortRec.statusBytes_eq, authority, liveness]
  have reported : (s.setPort p (s.dispatched p 0x01 seq)).statusBytes p = bytes := by
    unfold State.statusBytes
    rw [allPorts_flatMap, allLines_flatMap, port, port, port, State.setPort_port, if_pos rfl]
    rfl
  exact ⟨reported ▸ exec_status seq h, rfl⟩

/-- Settles O25: NOTICES clears the flags it reports, SET_NOTICE_MASK replaces the mask, and the two lines are read from
flags, mask and reply slot. -/
theorem noticesClearFlagsAndMaskIsReplaced : Obligations.NoticesClearFlagsAndMaskIsReplaced := by
  intro p seq mask s h
  have notices := exec_notices seq h
  have masked := exec_setNoticeMask seq mask h
  have sender {r : PortRec} : (s.setPort p r).port p = r := (State.setPort_port ..).trans (if_pos rfl)
  refine ⟨⟨_, _, notices, noticeBytes_length s p, rfl, fun c hc => ⟨?_, ?_⟩, fun hn => ?_⟩, masked, ?_, ?_, ?_,
    fun q => ⟨attentionLine_iff _, readyLine_iff _⟩⟩
  · rw [hc]
    rfl
  · rw [noticeBytes_drop, hc]
    rfl
  · unfold State.noticeBytes
    rw [hn]
    rfl
  · rintro t (ht | ht)
    · cases notices.symm.trans ht
      exact congrArg PortRec.readyLine sender
    · cases masked.symm.trans ht
      exact congrArg PortRec.readyLine sender
  · intro t ht
    cases notices.symm.trans ht
    exact (congrArg PortRec.attentionLine sender).trans
      (attentionLine_noticed (s.answered p 0x08 seq (.ok, s.noticeBytes p)))
  · intro t ht
    cases masked.symm.trans ht
    rw [attentionLine_iff, sender]
    rfl

/-- Settles O26: the counters are reported with the command counted, and cleared for a SUPERVISORY sender that asks. -/
theorem countersClearedForSupervisoryAlone : Obligations.CountersClearedForSupervisoryAlone := by
  intro p seq ask s h clears portBytes lineBytes bytes
  have port (q : Port) : ((s.setPort p (s.dispatched p 0x0A seq)).port q).counterBytes = portBytes q := by
    rw [PortRec.counterBytes_eq, State.setPort_port]
    unfold portBytes
    split <;> rfl
  have reported : (s.setPort p (s.dispatched p 0x0A seq)).counterBytes clears = bytes := by
    unfold State.counterBytes
    rw [allPorts_flatMap, allLines_flatMap, port, port, port]
    rfl
  have run := exec_counters seq ask h (clears := clears) rfl
  rw [reported] at run
  refine ⟨reported ▸ counterBytes_length _ _, _, run, fun hc => ?_, fun hc => ?_⟩
  · rw [if_pos hc]
    refine ⟨(State.setPort_port ..).trans (if_pos rfl), fun q hq => ?_, fun l => PerLine.get_map .., rfl⟩
    refine ((State.setPort_port ..).trans (if_neg hq)).trans ((PerPort.get_map ..).trans ?_)
    exact congrArg PortRec.clearCounters ((State.setPort_port ..).trans (if_neg hq))
  · rw [hc]
    rfl
end

section
/-! SUPPORT. The time base and the queue of waiting commands, which no command or event touches (log entries 1 and 31):
what leaves them, said once for each shared operation. -/

namespace Sys2Proof.Machine

/-! ## Leaving the time base and the queue -/

/-- The time base and the queue of waiting commands are those of another state. -/
structure SameClock (s t : State) : Prop where
  now : t.now = s.now
  pending : t.pending = s.pending

theorem SameClock.refl (s : State) : SameClock s s := ⟨rfl, rfl⟩

theorem SameClock.trans {s t u : State} (h : SameClock s t) (g : SameClock t u) : SameClock s u :=
  ⟨g.now.trans h.now, g.pending.trans h.pending⟩

/-- An event whose condition does not hold changes nothing (log entry 6). -/
theorem SameClock.ite {b : Prop} [Decidable b] {s t : State} (h : SameClock s t) : SameClock s (if b then t else s) := by
  split
  · exact h
  · exact .refl s

theorem SameClock.of_onlyTable {s t : State} (h : OnlyTable s t) : SameClock s t := by
  unfold OnlyTable at h
  rw [h]
  exact ⟨rfl, rfl⟩

theorem SameClock.of_onlyPort {p : Port} {s t : State} (h : OnlyPort p s t) : SameClock s t := by
  unfold OnlyPort at h
  rw [h]
  exact ⟨rfl, rfl⟩

theorem Handing.sameClock {s t : State} (h : Handing s t) : SameClock s t := ⟨h.side.now, h.side.pending⟩

theorem setPort_sameClock (s : State) (p : Port) (r : PortRec) : SameClock s (s.setPort p r) := ⟨rfl, rfl⟩

theorem setLine_sameClock (s : State) (l : LineId) (r : LineRec) : SameClock s (s.setLine l r) := ⟨rfl, rfl⟩

/-- A record given to a line and then a handing. -/
theorem SameClock.of_line {s t : State} {l : LineId} {r : LineRec} (h : Handing (s.setLine l r) t) : SameClock s t :=
  (setLine_sameClock s l r).trans h.sameClock

theorem changeTable_sameClock (s : State) (t : Table) : SameClock s (s.changeTable t) :=
  .of_onlyTable (changeTable_onlyTable s t)

/-! ## A good frame on a port -/

/-- A good frame leaves the time base and the queue where its command's body does. -/
theorem takeFrame_sameClock (s : State) (p : Port) (code seq : Byte) (body : CommandBody)
    (h : ∀ u, SameClock u (body u).1) : SameClock s (s.takeFrame p code seq body) := by
  rcases takeFrame_cases s p code seq body with ht | ⟨u, hu, ht⟩
  · exact .of_onlyTable ht
  · exact ((SameClock.of_onlyTable hu).trans (h u)).trans (.of_onlyPort ht)

/-- A command judged by its authority and its form first (R43, R177). -/
theorem command_sameClock (s : State) (p : Port) (code seq : Byte) (needed : Authority) (form : Bool)
    {body : CommandBody} (h : ∀ u, SameClock u (body u).1) :
    SameClock s (s.takeFrame p code seq (judged p needed form body)) :=
  takeFrame_sameClock s p code seq _ fun u => by
    unfold judged
    split
    · exact .refl u
    split
    · exact .refl u
    · exact h u

/-! ## Commands that every authority may send -/

theorem drawCompletion_sameClock (s : State) : SameClock s s.drawCompletion := by
  unfold State.drawCompletion
  split <;> exact ⟨rfl, rfl⟩

theorem readPlanBody_sameClock (first last : Nat) (s : State) : SameClock s (readPlanBody first last s).1 := by
  unfold readPlanBody
  dsimp only
  split
  · exact .refl s
  · split <;> exact .refl s

theorem readUnitsBody_sameClock (first last : Nat) (s : State) : SameClock s (readUnitsBody first last s).1 := by
  unfold readUnitsBody
  split <;> exact .refl s

theorem readStationsBody_sameClock (first last : Nat) (s : State) :
    SameClock s (readStationsBody first last s).1 := by
  unfold readStationsBody
  split <;> exact .refl s

theorem readDeliveryBody_sameClock (first last : Nat) (s : State) :
    SameClock s (readDeliveryBody first last s).1 := by
  unfold readDeliveryBody
  dsimp only
  split
  · exact drawCompletion_sameClock s
  split
  · exact .refl s
  · exact drawCompletion_sameClock s

theorem noticesBody_sameClock (p : Port) (s : State) : SameClock s (noticesBody p s).1 :=
  (setPort_sameClock _ _ _).trans (drawCompletion_sameClock _)

theorem countersBody_sameClock (p : Port) (request : Byte) (s : State) : SameClock s (countersBody p request s).1 :=
  .ite (t := s.clearCounters) ⟨rfl, rfl⟩

/-! ## Commands of the request table -/

/-- A REQUEST is refused, or changes the table for the slot it replaces or for a free one (R20, R24, R25). -/
theorem requestBody_sameClock (p : Port) (r : RequestFields) (s : State) : SameClock s (requestBody p r s).1 := by
  unfold requestBody
  repeat' split
  on_goal 5 => exact changeTable_sameClock _ _
  on_goal 7 => exact changeTable_sameClock _ _
  all_goals exact .refl s

theorem withdrawBody_sameClock (p : Port) (tag : Nat) (s : State) : SameClock s (withdrawBody p tag s).1 := by
  unfold withdrawBody
  split
  · exact .refl s
  split
  · exact .refl s
  · exact changeTable_sameClock _ _

theorem withdrawAllBody_sameClock (p : Port) (s : State) : SameClock s (withdrawAllBody p s).1 := by
  unfold withdrawAllBody
  split
  · exact .refl s
  · exact changeTable_sameClock _ _

theorem releaseEntries_sameClock (p x : Port) (first last : Nat) (clamped : Bool) (s : State) :
    SameClock s (releaseEntries p x first last clamped s).1 := by
  unfold releaseEntries answer
  dsimp only
  split
  · exact changeTable_sameClock _ _
  · exact (changeTable_sameClock _ _).trans (setPort_sameClock _ _ _)

theorem releaseBody_sameClock (p : Port) (requester first last : Nat) (s : State) :
    SameClock s (releaseBody p requester first last s).1 := by
  unfold releaseBody
  dsimp only
  repeat' split
  on_goal 4 => exact releaseEntries_sameClock _ _ _ _ _ _
  all_goals exact .refl s

theorem handStation_sameClock (s : State) (x : Station) (k : Nat) : SameClock s ((s.setStation x).handStation k) :=
  ((setStation_handing s x).trans (handStation_handing _ k)).sameClock

theorem inhibitBody_sameClock (k seconds : Nat) (s : State) : SameClock s (inhibitBody k seconds s).1 := by
  unfold inhibitBody
  split
  · exact .refl s
  split
  · exact .refl s
  split
  · exact .refl s
  · show SameClock s (s.setInhibit _ _)
    unfold State.setInhibit
    split
    · exact .refl s
    · exact handStation_sameClock _ _ _

/-! ## Commands of the configuration store -/

theorem geometryBody_sameClock {α : Type} (p : Port) (slots given : Nat) (records : List (Placed α))
    (place : Nat → List (Option α) → Store → Store) (s : State) :
    SameClock s (geometryBody p slots given records place s).1 := by
  unfold geometryBody
  dsimp only
  repeat' split
  all_goals exact ⟨rfl, rfl⟩

theorem boundaryBody_sameClock (payload : List Byte) (s : State) : SameClock s (boundaryBody payload s).1 := by
  unfold boundaryBody
  repeat' split
  all_goals exact ⟨rfl, rfl⟩

theorem commitBody_sameClock (s : State) : SameClock s (commitBody s).1 := by
  unfold commitBody
  split <;> exact ⟨rfl, rfl⟩

theorem paramBody_sameClock (pairs : List (Nat × Nat)) (s : State) : SameClock s (paramBody pairs s).1 := by
  unfold paramBody
  dsimp only
  repeat' split
  all_goals exact ⟨rfl, rfl⟩

theorem endValidation_sameClock (s : State) : SameClock s s.endValidation.1 := by
  unfold State.endValidation
  split <;> exact ⟨rfl, rfl⟩

/-! ## Modes and RESTART -/

theorem takeEpochZero_sameClock (s : State) (d : DeliveryState) : SameClock s (s.takeEpochZero d) := by
  rw [takeEpochZero_eq]
  exact ⟨rfl, rfl⟩

theorem formDark_sameClock (s : State) : SameClock s s.formDark := by
  rw [formDark_frame]
  exact ⟨rfl, rfl⟩

theorem goLive_sameClock (s : State) : SameClock s s.goLive :=
  have adopted : SameClock s ((s.replacePlan s.adoptedPlan).changeMode .live) := ⟨rfl, rfl⟩
  adopted.trans (takeEpochZero_sameClock _ .done)

theorem goDark_sameClock (s : State) : SameClock s s.goDark :=
  have darkening : SameClock s (s.changeMode .darkening) := ⟨rfl, rfl⟩
  (darkening.trans (formDark_sameClock _)).trans (judgeCompletion_handing _).sameClock

theorem setModeBody_sameClock (p : Port) (payload : List Byte) (s : State) :
    SameClock s (setModeBody p payload s).1 := by
  show SameClock s (s.judgeSetMode p payload).1
  unfold State.judgeSetMode
  split
  · exact .refl s
  split
  · exact .refl s
  split
  · exact .refl s
  · rename_i t _
    rcases setMode_cases s t with h | ⟨-, h | h⟩ <;> rw [h]
    · exact .refl s
    · exact goLive_sameClock s
    · exact goDark_sameClock s

theorem restartBody_sameClock (s : State) : SameClock s (restartBody s).1 := by
  unfold restartBody
  split
  · exact .refl s
  · rename_i committed
    show SameClock s s.restarted
    rw [restarted_frame committed]
    exact ⟨rfl, rfl⟩

/-! ## Transactions that carry no command, timers and passes -/

theorem onPort_sameClock (s : State) (p : Port) (f : PortRec → PortRec) : SameClock s (s.onPort p f) :=
  .ite (setPort_sameClock _ _ _)

theorem fallSilent_sameClock (s : State) (p : Port) : SameClock s (s.fallSilent p) := by
  have others (u : State) : SameClock u (u.notifyOthers p .port) := ⟨rfl, rfl⟩
  refine SameClock.trans ?_ (others _)
  generalize hu : s.setPort p { s.port p with
    liveness := .silent, deadline := none, silences := countUp (s.port p).silences } = u
  have silent : SameClock s u := hu ▸ setPort_sameClock _ _ _
  have frozen : SameClock s (u.changeTable (u.table.silence p)) := silent.trans (changeTable_sameClock _ _)
  dsimp only
  split
  · split
    · exact frozen.trans (setPort_sameClock _ _ _)
    · exact frozen
  · exact silent

theorem notifyOwner_sameClock (s : State) (r : Requester) (n : Notice) : SameClock s (s.notifyOwner r n) := by
  cases r <;> exact ⟨rfl, rfl⟩

theorem endFaultHold_sameClock (s : State) (x : Station) : SameClock s (s.endFaultHold x) := by
  unfold State.endFaultHold
  dsimp only
  split
  · exact (handStation_sameClock _ _ _).trans (notifyAll_handing _ _).sameClock
  · exact (setStation_handing _ _).sameClock

theorem publish_sameClock (s : State) (plan : List PlanSite) : SameClock s (s.publish plan) :=
  have shown : SameClock s ({ s with evaluator :=
      { s.evaluator with plan := plan, epoch := nextEpoch s.evaluator.epoch } }.notifyAll .plan) := ⟨rfl, rfl⟩
  shown.trans (takeEpoch_handing _).sameClock

theorem endPass_sameClock (s : State) (p : Pass) : SameClock s (s.endPass p) := by
  unfold State.endPass
  dsimp only
  split
  · exact ⟨rfl, rfl⟩
  split
  · have ended : SameClock s { s with evaluator := { s.evaluator with running := none } } := ⟨rfl, rfl⟩
    exact ended.trans (publish_sameClock _ _)
  · exact ⟨rfl, rfl⟩

/-! ## Field lines -/

theorem onLine_sameClock (s : State) (l : LineId) (f : LineRec → LineRec) : SameClock s (s.onLine l f) :=
  .ite (setLine_sameClock _ _ _)

theorem startWork_sameClock (s : State) (l : LineId) (w : Work) : SameClock s (s.startWork l w) := by
  cases w with
  | retry t => exact setLine_sameClock _ _ _
  | set c => exact .of_line (startWork_set s l c)
  | poll a => exact setLine_sameClock _ _ _

theorem failAttempt_sameClock (s : State) (l : LineId) (t : Transaction) : SameClock s (s.failAttempt l t) := by
  cases h : t.retry with
  | true => exact .of_line (failAttempt_retry s l t h)
  | false =>
    rw [failAttempt_first s l t h]
    exact setLine_sameClock _ _ _

/-! ## Every command and event -/

theorem exec_sameClock (c : Instr) (s : State) : ∃ t, exec c s = .next t ∧ SameClock s t := by
  cases c with
  | powerOnReset straps => exact ⟨_, rfl, rfl, rfl⟩
  | pinReset straps n =>
    refine ⟨_, rfl, ?_⟩
    split <;> exact ⟨rfl, rfl⟩
  | resetRelease => exact ⟨_, rfl, .ite (t := s.release) ⟨rfl, rfl⟩⟩
  | portsReady => exact ⟨_, rfl, .ite (t := s.madeReady) ⟨rfl, rfl⟩⟩
  | voidTransaction p sdi => exact ⟨_, rfl, onPort_sameClock _ _ _⟩
  | readTransaction p n => exact ⟨_, rfl, onPort_sameClock _ _ _⟩
  | badFrame p frame => exact ⟨_, rfl, onPort_sameClock _ _ _⟩
  | overrun p =>
    exact ⟨_, rfl, .ite ((SameClock.of_onlyTable (goodFrameTaken_onlyTable _ _)).trans (setPort_sameClock _ _ _))⟩
  | unknownCommand p code seq payload =>
    refine ⟨_, rfl, ?_⟩
    split
    · exact .refl s
    · exact takeFrame_sameClock _ _ _ _ _ .refl
  | status p seq payload => exact ⟨_, rfl, command_sameClock _ _ _ _ _ _ fun _ => setPort_sameClock _ _ _⟩
  | keepalive p seq payload => exact ⟨_, rfl, command_sameClock _ _ _ _ _ _ .refl⟩
  | readPlan p seq payload => exact ⟨_, rfl, command_sameClock _ _ _ _ _ _ (readPlanBody_sameClock _ _)⟩
  | readEntries p seq payload => exact ⟨_, rfl, command_sameClock _ _ _ _ _ _ .refl⟩
  | readUnits p seq payload => exact ⟨_, rfl, command_sameClock _ _ _ _ _ _ (readUnitsBody_sameClock _ _)⟩
  | readStations p seq payload => exact ⟨_, rfl, command_sameClock _ _ _ _ _ _ (readStationsBody_sameClock _ _)⟩
  | readDelivery p seq payload => exact ⟨_, rfl, command_sameClock _ _ _ _ _ _ (readDeliveryBody_sameClock _ _)⟩
  | notices p seq payload => exact ⟨_, rfl, command_sameClock _ _ _ _ _ _ (noticesBody_sameClock _)⟩
  | setNoticeMask p seq payload => exact ⟨_, rfl, command_sameClock _ _ _ _ _ _ fun _ => setPort_sameClock _ _ _⟩
  | counters p seq payload => exact ⟨_, rfl, command_sameClock _ _ _ _ _ _ (countersBody_sameClock _ _)⟩
  | request p seq payload => exact ⟨_, rfl, command_sameClock _ _ _ _ _ _ (requestBody_sameClock _ _)⟩
  | withdraw p seq payload => exact ⟨_, rfl, command_sameClock _ _ _ _ _ _ (withdrawBody_sameClock _ _)⟩
  | withdrawAll p seq => exact ⟨_, rfl, command_sameClock _ _ _ _ _ _ (withdrawAllBody_sameClock _)⟩
  | release p seq payload => exact ⟨_, rfl, command_sameClock _ _ _ _ _ _ (releaseBody_sameClock _ _ _ _)⟩
  | inhibitQp p seq payload => exact ⟨_, rfl, command_sameClock _ _ _ _ _ _ (inhibitBody_sameClock _ _)⟩
  | geometryWrite p seq payload => exact ⟨_, rfl, command_sameClock _ _ _ _ _ _ (geometryBody_sameClock _ _ _ _ _)⟩
  | stationWrite p seq payload => exact ⟨_, rfl, command_sameClock _ _ _ _ _ _ (geometryBody_sameClock _ _ _ _ _)⟩
  | boundaryWrite p seq payload => exact ⟨_, rfl, command_sameClock _ _ _ _ _ _ (boundaryBody_sameClock _)⟩
  | commit p seq payload => exact ⟨_, rfl, command_sameClock _ _ _ _ _ _ commitBody_sameClock⟩
  | paramSet p seq payload => exact ⟨_, rfl, command_sameClock _ _ _ _ _ _ (paramBody_sameClock _)⟩
  | setModeLive p seq payload => exact ⟨_, rfl, takeFrame_sameClock _ _ _ _ _ (setModeBody_sameClock _ _)⟩
  | setModeShadow p seq payload => exact ⟨_, rfl, takeFrame_sameClock _ _ _ _ _ (setModeBody_sameClock _ _)⟩
  | restart p seq payload => exact ⟨_, rfl, command_sameClock _ _ _ _ _ _ restartBody_sameClock⟩
  | commitValidationEnd =>
    refine ⟨_, rfl, .ite ?_⟩
    split
    · exact endValidation_sameClock s
    · exact (endValidation_sameClock s).trans (.of_onlyPort (placeReply_onlyPort _ _ _))
  | portSilent p => exact ⟨_, rfl, .ite (fallSilent_sameClock _ _)⟩
  | entryExpiry slot =>
    refine ⟨_, rfl, ?_⟩
    split
    · exact .refl s
    · exact .ite ((changeTable_sameClock _ _).trans (notifyOwner_sameClock _ _ _))
  | holdDeadlineExpiry => exact ⟨_, rfl, .ite ⟨rfl, rfl⟩⟩
  | passStart => exact ⟨_, rfl, .ite ⟨rfl, rfl⟩⟩
  | passEnd =>
    refine ⟨_, rfl, ?_⟩
    split
    · exact .refl s
    · exact endPass_sameClock _ _
  | faultHoldExpiry k =>
    refine ⟨_, rfl, ?_⟩
    split
    · exact .refl s
    · exact .ite (endFaultHold_sameClock _ _)
  | inhibitExpiry k =>
    refine ⟨_, rfl, ?_⟩
    split
    · exact .refl s
    · exact .ite (handStation_sameClock _ _ _)
  | lineQuiet l cut => exact ⟨_, rfl, .ite (setLine_sameClock _ _ _)⟩
  | frameStart l =>
    refine ⟨_, rfl, ?_⟩
    split
    · exact .refl s
    · exact startWork_sameClock _ _ _
  | frameSent l => exact ⟨_, rfl, onLine_sameClock _ _ _⟩
  | validReply l frame =>
    refine ⟨_, rfl, ?_⟩
    split
    · exact .of_line (takeValidReply_handing _ _ _ _)
    · exact .refl s
  | replyFrameError l frame =>
    refine ⟨_, rfl, ?_⟩
    split
    · exact setLine_sameClock _ _ _
    · exact setLine_sameClock _ _ _
    · exact .refl s
  | invertedReply l => exact ⟨_, rfl, .ite (setLine_sameClock _ _ _)⟩
  | falseActivity l frame =>
    refine ⟨_, rfl, ?_⟩
    split
    · exact onLine_sameClock _ _ _
    split
    · exact setLine_sameClock _ _ _
    · exact .refl s
  | replyWindowEnd l =>
    refine ⟨_, rfl, ?_⟩
    split
    · exact .refl s
    · exact .ite (failAttempt_sameClock _ _ _)
  | lineJam l => exact ⟨_, rfl, .ite (.of_line (jam_handing _ _ _ _))⟩
  | jamContinues l => exact ⟨_, rfl, .ite (.of_line (jam_handing _ _ _ _))⟩
  | lineUnjam l => exact ⟨_, rfl, .ite (setLine_sameClock _ _ _)⟩
  | pollCycleStart l =>
    refine ⟨_, rfl, ?_⟩
    split
    · exact .refl s
    · exact setLine_sameClock _ _ _
  | lineActivity l => exact ⟨_, rfl, onLine_sameClock _ _ _⟩

end Sys2Proof.Machine

open Sys2Proof Sys2Proof.Machine

/-- Settles O3: each command and event goes through operations that leave the time base and the queue, and a reset and
its release carry both over. -/
theorem execKeepsTimeAndQueue : Obligations.ExecKeepsTimeAndQueue := by
  intro c s t h
  obtain ⟨u, hu, same⟩ := exec_sameClock c s
  cases hu.symm.trans h
  exact ⟨same.now, same.pending⟩
end

section
/-! SUPPORT. A step with a command waiting, and the idle part (log entries 5, 8 and 31). -/

namespace Sys2Proof.Machine

theorem step_cons {s : State} {c : Instr} {rest : List Instr} (h : s.pending = c :: rest) :
    step s = exec c { s with pending := rest } := by
  unfold step
  rw [h]

theorem step_nil {s : State} (h : s.pending = []) : step s = .next s.idle := by
  unfold step
  rw [h]

theorem idle_tick {s : State} (h : s.dueEvents = []) : s.idle = s.tick := by
  unfold State.idle
  rw [h]

/-- Log entry 5: the idle part puts one of the events that are due at the end of the queue, and draws a free value where
there are several. -/
theorem idle_postpone {s : State} (h : s.dueEvents ≠ []) :
    ∃ c ∈ s.dueEvents, ∃ n, s.idle = { s.postpone c with drawn := n } := by
  unfold State.idle
  match hd : s.dueEvents with
  | [] => exact absurd hd h
  | [c] => exact ⟨c, List.mem_singleton_self c, s.drawn, rfl⟩
  | c :: d :: more =>
    have inside : Config.tieBreak s.drawn % (more.length + 2) < (c :: d :: more).length :=
      Nat.mod_lt _ (Nat.succ_pos _)
    refine ⟨_, ?_, s.drawn + 1, rfl⟩
    rw [List.getD_eq_getElem _ _ inside]
    exact List.getElem_mem inside

end Sys2Proof.Machine

open Sys2Proof Sys2Proof.Machine

/-- Settles O1: the step takes the command at the front and leaves the rest of the queue to its `exec`. -/
theorem stepRunsFront : Obligations.StepRunsFront := fun _ _ _ => step_cons

/-- Settles O2: with nothing waiting the step is the idle part, whose due event comes to stand alone in the queue. -/
theorem idleStepTicksOrTakesDueEvent : Obligations.IdleStepTicksOrTakesDueEvent := by
  intro s empty
  have idles := step_nil empty
  refine ⟨fun nothing => ?_, fun something => ?_⟩
  · rw [idles, idle_tick nothing]
    rfl
  · obtain ⟨c, due, n, taken⟩ := idle_postpone something
    refine ⟨c, due, n, ?_⟩
    rw [idles, taken, State.postpone, empty]
    rfl
end
